-- ==== Sys2Proof/Word.lean ====
section
/-! DEFINITION. The word types of the block (R15, R37) and the sparse table type in which indexed objects are held. -/

namespace Sys2Proof

/-- A byte of the address spaces of R44. -/
abbrev Byte := BitVec 8

/-- A host register, a window word, a command word (R37, R50). -/
abbrev Word := BitVec 32

/-- A binary32 number by its bits (R123). -/
abbrev F32 := BitVec 32

/-- Twenty-four samples of one Period (R20) as binary32 bits. -/
abbrev Block := List F32

/-- A sparse table: pairs of index and value in rising order of index; an index that is not listed holds the
table's default. One default per table is given where the table is read (Machine/Tab.lean). -/
abbrev Tab (α : Type) := List (Nat × α)

end Sys2Proof
end

