-- ==== Sys2Proof/Syntax.lean ====
section
/-! DEFINITION. The commands of the block: one constructor of Instr for every row of spec/opcode_table.json, with the
operands that the rule of the row gives it. -/

namespace Sys2Proof

/-- Line port index, 0 to 47 (R15). -/
abbrev PortIx := Fin 48
/-- Bank index, 0 to 5 (R15, R163). -/
abbrev BankIx := Fin 6
/-- LFE die, 0 for LFE-A (banks 0-2) and 1 for LFE-B (banks 3-5) (R163). -/
abbrev DieIx := Fin 2
/-- Leg slot, 0 to 4095 (R97). -/
abbrev LegIx := Fin 4096
/-- Tile number 9w + t, 0 to 71 (R365). -/
abbrev TileIx := Fin 72
/-- Digital audio port, 0 to 15 (R224). -/
abbrev DapIx := Fin 16
/-- Network port, 0 for NET0 and 1 for NET1 (R249). -/
abbrev NetIx := Fin 2
/-- Power domain index of R391, 0 to 21. -/
abbrev DomIx := Fin 22
/-- Index of a device on an Imdal ring (R318). -/
abbrev RingIx := Fin 8
/-- Imdal side: 0 for the E port, 1 for the W port (R317). -/
abbrev SideIx := Fin 2

/-- The two places from which the device takes a command of its own host (R60, R62). A peer's command comes with
FORWARD_RECEIVED (R338). -/
inductive CmdSrc where
  | mailbox
  | ring
  deriving DecidableEq, Repr

/-- The value and the byte enables of one host bus write (R37, R40). Bit i of be is 1 when byte i is enabled
(HBI_BE_N[i] low). -/
structure RegWrite where
  val : Word
  be  : BitVec 4
  deriving DecidableEq, Repr

/-- Direction of a host bus access (R37). -/
inductive Dir where
  | read
  | write
  deriving DecidableEq, Repr

/-- What a read of a protected word meets (R375). -/
inductive Ecc where
  | clean
  | single
  | double
  deriving DecidableEq, Repr

/-- What the target of a matrix access does, as far as the environment decides it: whether it stays silent for 10 µs
(R385) and what the word's check bits show (R375). -/
structure BusEnv where
  timeout : Bool
  ecc     : Ecc
  deriving DecidableEq, Repr

/-- Why a tile fails (R353), with the codes of its table. -/
inductive FailCause where
  | deadline
  | uncorrectable
  | signature
  | clock
  | selfTest
  deriving DecidableEq, Repr

/-- A reference of the timebase (R82, REF_ACT codes). -/
inductive Ref where
  | none
  | ptp
  | wclk
  | imdal
  deriving DecidableEq, Repr

/-- The pins whose edges can be captured (R79). -/
inductive CapPin where
  | ppsIn
  | startIn
  | wclkIn
  deriving DecidableEq, Repr

/-- The line fault causes that qualify by a measurement (R199). -/
inductive LineCause where
  | short
  | open_
  | overcurrent
  | foldback
  deriving DecidableEq, Repr

/-- A call's kind on a line (R210, R211). -/
inductive CallKind where
  | tone
  | dc
  deriving DecidableEq, Repr

/-- What the hum canceller's measurement shows when one of its timing conditions is met (R156). -/
inductive HumEvent where
  | held        -- loop has held f0 within 20 mHz for 2 s
  | lowLevel    -- fundamental below -106 dBFS for 1 s
  | fastChange  -- f0 changing faster than 2 Hz/s
  | returned    -- fundamental back at -100 dBFS near the held f0
  | coastOut    -- 10 s in COAST
  deriving DecidableEq, Repr

/-- Rate class of a digital audio input (R229). -/
inductive RateClass where
  | none
  | k48
  | k96
  | other
  deriving DecidableEq, Repr

/-- Conditions of R230 under which a running digital audio port loses its input. -/
inductive DapLoss where
  | clockLost
  | newRate
  deriving DecidableEq, Repr

/-- A frame of a digital audio input (R226, R227, R232): the two channels' samples, their parity errors and V bits, the ns at which it ended
from the boundary that opened the Period; of a PDM port the 64 bits of each channel, first bit first, in place of the samples. -/
structure DapFrame where
  a     : Int
  b     : Int
  at_   : Nat
  parA  : Bool := false
  parB  : Bool := false
  vA    : Bool := false
  vB    : Bool := false
  bitsA : List Bool := []
  bitsB : List Bool := []
  deriving DecidableEq, Repr

/-- What the slip buffer does at a sample instant (R232). -/
inductive SlipKind where
  | drop
  | repeat_
  deriving DecidableEq, Repr

/-- Rate of a network port (R277 RATE codes). -/
inductive NetRate where
  | g1
  | g10
  | g25
  deriving DecidableEq, Repr

/-- Forward error correction in use (R277 FEC_USE codes). -/
inductive FecUse where
  | none
  | baseR
  | rs
  deriving DecidableEq, Repr

/-- The kinds of PTP message that the device acts on (R273, R274). -/
inductive PtpMsg where
  /-- Sync (with its Follow_Up where two-step): measured offset, reference minus timebase, in ns, and the grandmaster. -/
  | sync (offset : Int) (grandmaster : Nat)
  /-- Announce of a grandmaster that the best master clock algorithm qualifies (or not). -/
  | announce (grandmaster : Nat) (qualified : Bool)
  /-- Delay_Resp. -/
  | delayResp
  /-- Delay_Req from a slave of this port. -/
  | delayReq
  /-- A peer-delay message: counted and ignored. -/
  | peerDelay
  deriving DecidableEq, Repr

/-- The PTP messages that the firmware sends by timer (R273). -/
inductive PtpSend where
  | sync
  | announce
  | delayReq
  deriving DecidableEq, Repr

/-- Why an enrolled device is cut off (R326). -/
inductive CutCause where
  | noLink
  | untrusted
  | misaligned
  | silent
  deriving DecidableEq, Repr

/-- One admission candidate as it travels on the ring (R331). -/
structure RingCand where
  key      : Nat
  score    : Nat
  cls      : Nat
  hold     : Nat
  admitted : Bool
  deriving DecidableEq, Repr

/-- One reduction record (R331): a first-pass record or a correction record, with the PIDX tag of its data (R30, R334). -/
structure RedRecord where
  tag    : BitVec 8
  ringNo : Fin 1024
  first  : Bool
  calls  : Nat
  sums   : List Int
  cands  : List RingCand
  deriving DecidableEq, Repr

/-- A ring time word (R328). -/
structure TimeWord where
  pidx      : Word
  offsetPs  : Int
  /-- an armed jump in Periods, with the PIDX of its boundary -/
  jump      : Option (Int × Word)
  tai       : Bool
  state     : BitVec 2
  irqs      : BitVec 8
  hops      : Nat
  homeroom  : RingIx
  delayPs   : Nat
  deriving DecidableEq, Repr

/-- What control blocks and training tell of the ring (R319, R324, R326, R335, R336): the ENROLLED devices that can be reached, those of
the own segment, whether devices that have not departed are missing from it, a link between two of its devices that is not UP, by the
device whose E port carries it, whether a partner drives the lanes of the ports E and W, and whether the ring's links reach a device that is
not ENROLLED. -/
structure RingNews where
  reach   : BitVec 8
  members : BitVec 8
  split   : Bool
  broken  : Option RingIx
  driveE  : Bool
  driveW  : Bool
  others  : Bool := false
  deriving DecidableEq, Repr

/-- What a device of the ring hears of a boundary named under R324: the side by which it came, and whether every device acknowledges. -/
structure Heard where
  side  : SideIx
  acked : Bool
  deriving DecidableEq, Repr

/-- What a device hears of a merge (R336): whether its own segment is the one that aligns, and the boundary named as under R324. -/
structure MergeHeard where
  aligned : Bool
  named   : Heard
  deriving DecidableEq, Repr

/-- A start-trigger point on the ring (R94): its PIDX, and the side by which it came. -/
structure PointIn where
  pidx : Word
  side : SideIx
  deriving DecidableEq, Repr

/-- A transaction of a master on a target of the bus matrix (R384). -/
structure MatrixAccess where
  target : Fin 11
  write  : Bool
  deriving DecidableEq, Repr

/-- A locked transaction (R388): its target, its beats less one, and whether it is marked final. -/
structure LockedAccess where
  target : Fin 11
  more   : Fin 16
  final  : Bool
  deriving DecidableEq, Repr

/-- The eight words of a command in ring-entry form (R50). -/
structure CmdWords where
  hdr   : Word
  epoch : Word
  a0    : Word
  a1    : Word
  a2    : Word
  a3    : Word
  a4    : Word
  a5    : Word
  deriving DecidableEq, Repr

/-- What a peer forwards (R337, R338, R339). -/
inductive Forward where
  /-- A command with its 128 bytes of parameter data. -/
  | command (c : CmdWords) (param : List Byte)
  | regRead (reg : Fin 53)
  | regWrite (reg : Fin 53) (val : Word)
  deriving DecidableEq, Repr

/-- A forward on the ring (R338): the side by which it came, its target, and what it carries. -/
structure ForwardIn where
  side   : SideIx
  target : RingIx
  body   : Forward
  deriving DecidableEq, Repr

/-- A target's answer to a forward (R338). -/
structure ForwardAnswer where
  status : BitVec 4
  res0   : Word
  res1   : Word
  epoch  : Word
  data   : List Byte
  deriving DecidableEq, Repr

/-- An answer on the ring (R338): the side by which it came, the device that it is for, and what it carries. -/
structure AnswerIn where
  side   : SideIx
  target : RingIx
  body   : ForwardAnswer
  deriving DecidableEq, Repr

/-- One loop sample at 768 kHz (R164, R187): what converters A and B read of the loop voltage in V and of the loop current in A, as
binary32. At its own check a converter reads the on-die reference in place of the signal, as a share of the reference's value. -/
structure LoopSample where
  vA : Word
  vB : Word
  iA : Word
  iB : Word
  deriving DecidableEq, Repr

/-- The check of a pair of converters over a Period (R187): A and B disagree; A, B read the reference out of tolerance. -/
structure ConvMeas where
  disagree : Bool := false
  suspectA : Bool := false
  suspectB : Bool := false
  deriving DecidableEq, Repr

/-- What the surge comparator of a port meets as it opens (R181): loop voltage in mV, and the rate of change of the loop current in
mA/µs. -/
structure SurgeAt where
  mv   : Int
  rate : Nat
  deriving DecidableEq, Repr

/-- What the loop of a line port shows over one Period (R164, R187, R189, R194, R210): means, levels and flags. Where its loop samples are
given, what follows from them stands in place of the figures given beside them. -/
structure LoopMeas where
  /-- Mean loop voltage, mV. -/
  mv       : Int
  /-- Mean loop current, µA. -/
  ua       : Int
  /-- The loop was in current regulation throughout this Period; it was in it for a part of the Period. -/
  creg     : Bool
  cregPart : Bool := false
  /-- Tone level in the detection band, dBFS of RX_FS times -2 (0.5 dB below RX_FS). -/
  toneLvl  : Nat
  /-- The drive's negative peaks were flattened (R165). -/
  flat     : Bool
  /-- Voltage converters and current converters (R187). -/
  convV    : ConvMeas := {}
  convI    : ConvMeas := {}
  /-- Pass transistor dissipation, mW. -/
  fetMw    : Nat
  /-- Mean level from 200 Hz to 4 kHz, 0.5 dB below full scale (R217). -/
  voiceLvl : Nat
  /-- The 384 loop samples of the Period, or none. -/
  raw      : List LoopSample := []
  deriving DecidableEq, Repr

/-- What a bank shows at a boundary (R201, R202, R470). -/
structure BankMeas where
  /-- Earth leakage, units of 10 µA. -/
  leak : Nat
  /-- Bank temperature in °C; none for a thermistor fault (R470). -/
  temp : Option Int
  deriving DecidableEq, Repr

/-- What the device has gathered and measured over the Period that a boundary closes. -/
structure PeriodInput where
  /-- s24 samples of the Period, by line or digital audio Leg: 24 each (R20). -/
  audio   : List (LegIx × List Int)
  /-- Line loop measurements, by port. -/
  loops   : List (PortIx × LoopMeas)
  /-- Bank measurements. -/
  banks   : List (BankIx × BankMeas)
  /-- Plant voltage readings of LFE-A and LFE-B, mV (R183). -/
  plantA  : Nat
  plantB  : Nat
  /-- Highest hub junction temperature, °C (R478). -/
  tjMax   : Int
  /-- Measured frame rate of a digital audio input, Hz (R229). -/
  dapHz   : List (DapIx × Nat)
  /-- The firmware acknowledged its boundary task (R418). -/
  fwAck   : Bool
  /-- Ring numbers that peers have taken into use, with kind and A1 to A3, or given up, as control blocks of the ring say (R117, R341);
  A3[9:0] of an IFB holds the ring number of its interrupt group. -/
  groups  : List (Fin 1024 × Option (BitVec 2 × Word × Word × Word)) := []
  /-- Frequency of WCLK_IN over the Period, mHz, where one is measured (R87). -/
  wclk    : Option Word := none
  /-- Frames that ended at a digital audio input in the Period (R226, R227, R232); a port without an entry has its samples in audio. -/
  frames  : List (DapIx × List DapFrame) := []
  /-- Duration of the last 48 frames of an input in DAP cycles, and whether the Period's preambles and coding were valid (R229). -/
  short   : List (DapIx × Nat × Bool) := []
  /-- Corrected and uncorrected FEC codewords that a network port received in the Period (R255, R278). -/
  fec     : List (NetIx × Nat × Nat) := []
  /-- Single-bit errors that tiles corrected in their memories in the Period, one entry for each (R346). -/
  tileEcc : List TileIx := []
  /-- News of the ring (R319 to R336); none for no change. -/
  ring    : Option RingNews := none
  deriving DecidableEq, Repr

/-- The levels of the straps at the release of PORST_N (R411) and the fuses and sensed values of R441. -/
structure Straps where
  istrap    : BitVec 3
  sspAddr   : BitVec 3
  hbiW16    : Bool
  bootSrc   : Bool
  memberPin : BitVec 2
  testN     : Bool
  part      : BitVec 16
  hubRev    : BitVec 8
  lfeRev    : BitVec 8
  pkgRev    : BitVec 8
  vio33     : Bool
  deriving DecidableEq, Repr

/-- What one Proofing window measured on one port (R203, R217): tone and voice-band levels in 0.5 dB below full scale, loop voltage in mV,
loop current in 0.1 mA, and the probe voltage in µV where the port is probed in the window. -/
structure ProofMeas where
  toneLvl  : Nat
  mv       : Int
  i10      : Int
  voiceLvl : Nat
  probeUv  : Nat
  deriving DecidableEq, Repr

/-- Header fields of a firmware image and what its checks meet (R415, R416). -/
structure Image where
  magicOk   : Bool
  flashErr  : Bool
  length    : Nat
  entry     : Nat
  keyOk     : Bool
  sigOk     : Bool
  rollback  : Nat
  version   : Word
  slices    : List Nat
  zerosOk   : Bool
  deriving DecidableEq, Repr

/-- A received Ethernet frame as the MAC sees it (R250, R263, R275): the bytes from the destination address to the FCS,
whether the FCS is good, whether the FIFO overflowed. -/
structure RxFrame where
  bytes    : List Byte
  fcsOk    : Bool
  fifoOver : Bool
  deriving DecidableEq, Repr

/-- The commands of the block: one constructor per row of the opcode table. -/
inductive Instr where
  -- the commands of R51, taken from the mailbox or the Command Ring
  | nop (src : CmdSrc)
  | undefinedOpcode (src : CmdSrc)
  | legSet (src : CmdSrc)
  | legGet (src : CmdSrc)
  | legPause (src : CmdSrc)
  | grpSet (src : CmdSrc)
  | grpGet (src : CmdSrc)
  | keySet (src : CmdSrc)
  | portSet (src : CmdSrc)
  | portPower (src : CmdSrc)
  | portSound (src : CmdSrc)
  | callSend (src : CmdSrc)
  | cardBudget (src : CmdSrc)
  | dapSet (src : CmdSrc)
  | dapStart (src : CmdSrc)
  | streamSet (src : CmdSrc)
  | streamPause (src : CmdSrc)
  | shaperSet (src : CmdSrc)
  | policerSet (src : CmdSrc)
  | ringSet (src : CmdSrc)
  | imdalJoin (src : CmdSrc)
  | timetableGet (src : CmdSrc)
  | pwrSet (src : CmdSrc)
  | rollCall (src : CmdSrc)
  | snapshot (src : CmdSrc)
  | commandWaitRelease
  -- host bus accesses
  | cringTailWrite (w : RegWrite)
  | cplHeadWrite (w : RegWrite)
  | ringEnable (w : RegWrite)
  | ringDisable (w : RegWrite)
  | ehaltClear (w : RegWrite)
  | winDataRead (inc : Bool) (env : BusEnv)
  | winDataWrite (inc : Bool) (w : RegWrite) (env : BusEnv)
  | halfwordLowAccess (dir : Dir) (reg : BitVec 7) (data : BitVec 16) (be : BitVec 2) (env : BusEnv)
  | halfwordHighAccess (dir : Dir) (reg : BitVec 7) (data : BitVec 16) (be : BitVec 2) (env : BusEnv)
  | unmappedAccess (dir : Dir) (reg : BitVec 8)
  | regReadClear (reg : BitVec 8)
  | regWrite (reg : BitVec 8) (w : RegWrite)
  | timeCapture (w : RegWrite)
  | timeArm (w : RegWrite)
  | timeIncrWrite (w : RegWrite)
  | refSelWrite (w : RegWrite)
  | fwGo (w : RegWrite)
  | restart (w : RegWrite)
  | take (w : RegWrite)
  | snap0 (w : RegWrite)
  | snap1 (w : RegWrite)
  | csnap (w : RegWrite)
  | traceCfgWrite (w : RegWrite)
  | pwrVoteWrite (w : RegWrite)
  | ltolWrite (w : RegWrite)
  -- Shelf Serial Port
  | sspRead (count : Nat)
  | sspWrite (bytes : List Byte)
  | bell (addr : BitVec 7)
  -- the Period and the pipeline
  | periodBoundary (m : PeriodInput)
  | partialSumCutoff (missing : List TileIx)
  | roundStart
  | reductionRecordReceived (side : SideIx) (r : RedRecord)
  | admissionDecision
  | lateRound
  | correctionPass
  | primaryDeadline (unfinished : List TileIx)
  | tileWorkComplete (tile : TileIx)
  | emitCutoff
  | tileFailure (tile : TileIx) (cause : FailCause)
  | substituteCatchUp (tile : TileIx)
  | retestTimer (tile : TileIx)
  | selfTestComplete (tile : TileIx) (pass : Bool)
  | repack
  | memberFall
  | memberRise
  | memberStepUp
  -- timebase
  | refclkLoss
  | refclkRestored
  | ptpMessageReceived (port : NetIx) (msg : PtpMsg)
  | slewComplete
  | referenceLoss (ref : Ref)
  | lockAchieved
  | wclkQualified (mHz : Word)
  | wclkGlitch
  | pinCapture (pin : CapPin)
  | startInEdge
  | triggerPointReceived (p : PointIn) (sample : Fin 24)
  | startTrigger
  -- line ports
  | surgeOpening (port : PortIx) (mv : SurgeAt)
  | surgeReramp (port : PortIx)
  | surgeRecovered (port : PortIx)
  | surgeTimeout (port : PortIx)
  | rampComplete (port : PortIx) (mv : Int)
  | rampTimeout (port : PortIx)
  | foldEntry (port : PortIx)
  | foldExit (port : PortIx)
  | gateFault (port : PortIx)
  | fetFault (port : PortIx)
  | ladderEnter (step : Fin 5) (mv : Nat)
  | ladderLeave (step : Fin 5)
  | budgetShed
  | budgetReturn
  -- line watch
  | attendanceStep (port : PortIx)
  | attendanceEntryCount (port : PortIx)
  | lineFault (port : PortIx) (cause : LineCause) (measured : Word)
  | faultRecovery (port : PortIx)
  | leakLocalisation (bank : BankIx)
  | leakLocalised (bank : BankIx) (leak : Nat)
  | bankTemperature (bank : BankIx)
  | probe (port : PortIx) (uv : Nat)
  | soundingComplete (port : PortIx) (points : List (F32 × F32)) (nf : Nat)
  | callQualified (port : PortIx) (kind : CallKind)
  | callEnded (port : PortIx) (kind : CallKind)
  | hostCallEnd (port : PortIx)
  | proofingWindow (bank : BankIx) (meas : List (Fin 8 × ProofMeas)) (bm : BankMeas)
  | proofingQuiet (bank : BankIx)
  -- cancellers, voice activity and hum
  | fastExpiry (leg : LegIx)
  | doubleTalkExpiry (leg : LegIx)
  | vadBlockClose (leg : LegIx)
  | humSearch (port : PortIx) (found : Option F32)
  | humStateTimer (port : PortIx) (ev : HumEvent)
  -- digital audio ports
  | dapInputQualified (port : DapIx) (hz : Nat) (cls : RateClass)
  | dapInputLoss (port : DapIx) (why : DapLoss)
  | dapResume (port : DapIx)
  | slip (port : DapIx) (kind : SlipKind)
  | channelStatusBlock (port : DapIx) (block : List Byte) (crccOk : Bool)
  | zeroCrossingSwitch (port : DapIx) (ch : Fin 2) (out : Bool)
  | zcTimeout (port : DapIx) (ch : Fin 2) (out : Bool)
  -- network ports
  | negotiationResolved (port : NetIx) (rate : NetRate) (fec : FecUse) (partner : BitVec 8)
  | trainingComplete (port : NetIx)
  | linkTimeout (port : NetIx)
  | linkLoss (port : NetIx)
  | linkdownDropTimeout (port : NetIx)
  | frameReceived (port : NetIx) (f : RxFrame)
  | pauseExpiry (port : NetIx)
  | txFrameStart (port : NetIx)
  | txFrameComplete (port : NetIx)
  | mediaPacketLaunch (us : Fin 500)
  | ringIrqDelayExpiry (port : NetIx) (ring : Fin 21)
  | snapshotComplete
  | streamLostTimeout (stream : Fin 2048)
  | membershipReportTimer
  -- Imdal ring
  | imdalLinkUp (side : SideIx) (peer : RingIx)
  | imdalLinkDown (side : SideIx)
  | seamReturn
  | timeWordReceived (side : SideIx) (w : TimeWord)
  | ringTimeLoss
  | cutOff (cause : CutCause)
  | membershipRequest
  | membershipRequestReceived (from_ : RingIx) (members : BitVec 8) (h : Heard)
  | segmentMerge (devices : BitVec 8) (h : MergeHeard) (clash : List (Fin 1024))
  | forwardReceived (from_ : RingIx) (f : ForwardIn)
  | forwardComplete (answer : Option AnswerIn)
  -- memory and matrix
  | scrubRead (pantry : Bool) (stack : Fin 2) (ecc : Ecc) (raced : Bool)
  | hallPassGrant (master : Fin 10) (a : LockedAccess)
  | hallPassBreak (master : Fin 10)
  | matrixTimeout (master : Fin 10) (a : MatrixAccess)
  -- power
  | domainWake (dom : DomIx)
  | powerupStepReady (dom : DomIx)
  | powerupFailure (dom : DomIx)
  | domainEntryComplete (dom : DomIx)
  -- start-up, removal, Roll Call
  | powerOnReset (straps : Straps)
  | resetAssert
  | aonReady
  | imageReadComplete
  | imageAuthentication (img : Image)
  | runBoundary
  | watchdogExpiry
  | mgmtRestart
  | hotswapRequest
  | removalReady
  | removalRecord
  | hotswapRelease
  | rollCallComplete
  | thermalThreshold (tj : Int)
  | lfeSupplyLow (die : DieIx)
  | plantAbsent (die : DieIx)
  | coreSupplyLow
  | plantReturn (die : DieIx)
  | lfeSupplyRestored (die : DieIx)
  | leakageChange (bank : BankIx) (leak : Nat)
  | wclkInEdge (errNs : Int)
  | ptpMessageTimer (port : NetIx) (msg : PtpSend)
  | removalDeadline
  deriving DecidableEq, Repr

end Sys2Proof
end

