-- ==== Sys2Proof/Decode.lean ====
section
/-! DEFINITION. The decoder over the rows of the table that give bits. The table gives no row bits, since a command of this
block is an access, a bus transaction, a pin event or a boundary and not a word: no word spells a command. -/

namespace Sys2Proof

/-- The command that a word spells by the table's bits: none, for every width and word. -/
def decodeTableWord (_nbits _w : Nat) : Option Instr := none

end Sys2Proof
end

