-- ==== Sys2Proof/Config.lean ====
section
/-! DEFINITION. What an implementation fixes and the spec leaves open. Every constant here is opaque: nothing can be
proved of its value, so a claim that mentions one holds for every value (log 5). -/

namespace Sys2Proof

/-- Content of MGMT SRAM that the manual does not lay out (firmware image and data, gaps between the tables), by byte
address and draw (R49). -/
opaque Config.sramByte : Nat → Nat → Byte

/-- Content of the Pantry regions whose layout the manual does not give (R371), by byte address and draw. -/
opaque Config.pantryByte : Nat → Nat → Byte

/-- Content of TILENET and of the LFE bank blocks, which binds nothing (R481), by window address and draw. -/
opaque Config.diagWord : Nat → Nat → Word

/-- Content of the SPI flash (R481), by byte offset. -/
opaque Config.flashByte : Nat → Byte

/-- Size of the SPI flash that the boot loader reads from the SFDP table (R481). -/
opaque Config.flashBytes : Nat

/-- Loop voltage in mV that a port shows with its FET open (R181), by port and MONO. -/
opaque Config.loopNow : Nat → Nat → Int

/-- The best master clock algorithm (R274): a grandmaster is preferred to another one. -/
opaque Config.bmcBetter : Nat → Nat → Bool

/-- A PTP message that the firmware sends (R273): bytes before the FCS, by port, kind and draw. -/
opaque Config.ptpFrame : Nat → Nat → Nat → List Byte

/-- Half of the taps of a conversion filter (R100), to the outer rate or from it, by rate code and distance from the first tap; the
other half mirrors it. -/
opaque Config.rateTap : Bool → Nat → Nat → F32

/-- A sum of products in the order and precision of the tile programs (R3, R132): of a filter's taps and samples (R100, R152, R226), of
the terms of a transform (R139, R146, R204); from its factors. -/
opaque Config.dotSum : List (F32 × F32) → F32

/-- Taps of the PDM decimator, newest bit first (R226), and of the half-band filter of a 96 kHz input, newest frame first (R229). -/
opaque Config.pdmTap : Nat → F32
opaque Config.halfTap : Nat → F32

/-- Taps of the filters that interpolate a line port's drive to the loop rate (true) and decimate its received voltage (R164). -/
opaque Config.loopTap : Bool → Nat → F32

/-- The gate that the loop's controllers command (R164): in current regulation or not, compensation set, error, gate before. -/
opaque Config.control : Bool → Nat → F32 → F32 → F32

/-- Elementary functions with the rounding that the device gives them (R146, R155): decimal logarithm, power of ten, cosine and sine of
an angle in radians, and the angle of the point (x, y). -/
opaque Config.log10 : F32 → F32
opaque Config.exp10 : F32 → F32
opaque Config.cosOf : F32 → F32
opaque Config.sinOf : F32 → F32
opaque Config.angle : F32 → F32 → F32

/-- Attenuation achieved (R160), 0.5 dB units, from the input and the output of the hum canceller. -/
opaque Config.humAtten : List F32 → List F32 → Nat

/-- Wiring of the ring (R317): index of the device whose E port is wired to the W port of a device. -/
opaque Config.westOf : BitVec 3 → BitVec 3

/-- The rate that the servo takes for its reference, as a TIME_INCR, by draw, before it is limited under R72 (R88). -/
opaque Config.servoRate : Nat → Nat

/-- The TIME_INCR with which the servo slews, by draw, before it is limited to ±500 ppm of the reference rate (R88). -/
opaque Config.slewRate : Nat → Nat

/-- Error of a timestamp in ns, by draw, before it is limited to its bound (R79, R275, R430). -/
opaque Config.stampError : Nat → Int

/-- The rollback minimum in AON one-time memory (R416). -/
opaque Config.rollbackMin : Nat

/-- Whether a write that met TIMEOUT still reached its target (R47, R385), by draw. -/
opaque Config.timeoutLanded : Nat → Bool

/-- Where an error lies in the memories of a tile (R353, R383), by tile and draw: the memory, and the word offset in it. -/
opaque Config.tileWord : Nat → Nat → Nat

/-- Who owns a Pantry word whose place the manual does not give (R371, R376): master's owner field of R383 by byte address. -/
opaque Config.wordOwner : Nat → Nat

/-- Word of the load area at which an instruction fetch meets an uncorrectable word, by the SEQ of its log entry (R376, R383). -/
opaque Config.fetchWord : Nat → Nat

/-- Most transactions that a master but the HBI has had outstanding at a rewrite of the matrix table, by master and boundary count (R384). -/
opaque Config.outstanding : Nat → Nat → Nat

/-- A result word for which the manual states no value: word 0 or 1, commands that completed OK and with another status before it (R61, R65). -/
opaque Config.resultWord : Nat → Nat → Nat → Word

/-- A result word of a register forward for which the manual states no value (R339): word 0 or 1, forwards served before it. -/
opaque Config.forwardWord : Nat → Nat → Word

end Sys2Proof
end

