-- ==== Sys2Proof/Machine/Bits.lean ====
section
/-! DEFINITION. Bit fields, saturating counts, byte order and the integer helpers that every chapter uses. -/

namespace Sys2Proof.Machine

/-- Bits [lo + n - 1 : lo] of a word as a number. -/
def fld (w : Word) (lo n : Nat) : Nat := w.toNat / 2 ^ lo % 2 ^ n

/-- Bit i of a word. -/
def bit (w : Word) (i : Nat) : Bool := w.getLsbD i

/-- A word from a number, modulo 2^32. -/
def w32 (n : Nat) : Word := BitVec.ofNat 32 n

/-- A flag as a number. -/
def b2n (b : Bool) : Nat := if b then 1 else 0

/-- A word built from fields: pairs of low bit and value (the values do not overlap). -/
def pack (fs : List (Nat × Nat)) : Word := fs.foldl (fun w f => w ||| w32 (f.2 * 2 ^ f.1)) 0#32

/-- Saturating sum in n bits. -/
def satAdd {n : Nat} (x : BitVec n) (k : Nat) : BitVec n := BitVec.ofNat n (min (2 ^ n - 1) (x.toNat + k))

/-- The bytes of a write whose enables are set, over the old value (R40). -/
def mergeBe (old new : Word) (be : BitVec 4) : Word :=
  let m := (if be.getLsbD 0 then 0xFF#32 else 0#32) ||| (if be.getLsbD 1 then 0xFF00#32 else 0#32)
    ||| (if be.getLsbD 2 then 0xFF0000#32 else 0#32) ||| (if be.getLsbD 3 then 0xFF000000#32 else 0#32)
  (old &&& ~~~m) ||| (new &&& m)

/-- The n low bytes of a number, least significant first (R37, little-endian). -/
def leBytes : Nat → Nat → List Byte
  | 0, _ => []
  | n + 1, v => BitVec.ofNat 8 v :: leBytes n (v / 256)

/-- The number whose bytes, least significant first, are given. -/
def ofLe : List Byte → Nat
  | [] => 0
  | b :: bs => b.toNat + 256 * ofLe bs

/-- The number whose bytes, most significant first, are given (network order). -/
def ofBe (bs : List Byte) : Nat := bs.foldl (fun a b => a * 256 + b.toNat) 0

/-- The n low bytes of a number, most significant first. -/
def beBytes (n v : Nat) : List Byte := (leBytes n v).reverse

/-- The bytes of words in ring-entry order (R50). -/
def wordBytes (ws : List Word) : List Byte := ws.flatMap fun w => leBytes 4 w.toNat

/-- Bytes padded with zeros, or cut, to a length. -/
def padTo (n : Nat) (bs : List Byte) : List Byte := (bs ++ List.replicate (n - bs.length) 0).take n

/-- Word i (little-endian) of a byte string; zero beyond its end. -/
def wordAt (bs : List Byte) (i : Nat) : Word := w32 (ofLe ((bs.drop (4 * i)).take 4))

/-- Half-word at a byte offset of a byte string. -/
def halfAt (bs : List Byte) (o : Nat) : Nat := ofLe ((bs.drop o).take 2)

/-- Byte at an offset of a byte string. -/
def byteAt (bs : List Byte) (o : Nat) : Nat := (bs.getD o 0).toNat

/-- Two's-complement value of n bits. -/
def sgn (n v : Nat) : Int := if v % 2 ^ n < 2 ^ (n - 1) then ((v % 2 ^ n : Nat) : Int) else ((v % 2 ^ n : Nat) : Int) - 2 ^ n

/-- An integer as n bits of two's complement. -/
def twos (n : Nat) (i : Int) : Nat := (i % (2 ^ n : Int)).toNat

/-- An integer clamped to a range. -/
def clampI (lo hi i : Int) : Int := max lo (min hi i)

/-- A number clamped to a range. -/
def clampN (lo hi n : Nat) : Nat := max lo (min hi n)

/-- n divided by d, rounded to nearest with ties to even. -/
def divRne (n : Int) (d : Nat) : Int :=
  let q := n.fdiv d
  let r := n.fmod d
  if 2 * r < d then q else if 2 * r > d then q + 1 else if q % 2 = 0 then q else q + 1

/-- n divided by d, rounded to nearest with halves away from zero. -/
def divRha (n : Int) (d : Nat) : Int :=
  if 0 ≤ n then (2 * n + d).fdiv (2 * d) else -((2 * (-n) + d).fdiv (2 * d))

/-- n divided by d, rounded up. -/
def ceilDiv (n d : Nat) : Nat := (n + d - 1) / d

/-- Number of set bits of a number below 2^n. -/
def popN : Nat → Nat → Nat
  | 0, _ => 0
  | n + 1, v => v % 2 + popN n (v / 2)

/-- The list 0 to n - 1. -/
def upto (n : Nat) : List Nat := List.range n

/-- One step of CRC-32C (R426), reflected Castagnoli polynomial: eight bits of one byte. -/
def crcByte : Nat → Word → Word
  | 0, c => c
  | k + 1, c => crcByte k (if c.getLsbD 0 then (c >>> 1) ^^^ 0x82F63B78#32 else c >>> 1)

/-- CRC-32C of a byte string (R426). -/
def crc32c (bs : List Byte) : Word :=
  ~~~ (bs.foldl (fun c b => crcByte 8 (c ^^^ b.setWidth 32)) 0xFFFFFFFF#32)

/-- Serial comparison of R75: the named PIDX lies in the future of the current one. -/
def inFuture (named current : Word) : Bool :=
  let d := (named - current).toNat
  decide (1 ≤ d) && decide (d ≤ 0x7FFFFFFF)

end Sys2Proof.Machine
end

