-- ==== Sys2Proof/Machine/Tab.lean ====
section
/-! DEFINITION. Sparse tables in one canonical form: indices strictly rising, and no entry equal to the default. -/

namespace Sys2Proof.Machine

/-- The value at an index, the default where it is not listed. -/
def tget {α : Type} (d : α) (t : Tab α) (k : Nat) : α := (t.lookup k).getD d

/-- Insertion of a value that is not the default, in rising order of index. -/
def tins {α : Type} (k : Nat) (v : α) : Tab α → Tab α
  | [] => [(k, v)]
  | (j, u) :: r => if k < j then (k, v) :: (j, u) :: r else if k = j then (k, v) :: r else (j, u) :: tins k v r

/-- Removal of an index. -/
def tdel {α : Type} (k : Nat) (t : Tab α) : Tab α := t.filter fun e => e.1 ≠ k

/-- Writing a value at an index; writing the default removes the entry. -/
def tput {α : Type} [DecidableEq α] (d : α) (k : Nat) (v : α) (t : Tab α) : Tab α :=
  if v = d then tdel k t else tins k v t

/-- Changing the value at an index. -/
def tmod {α : Type} [DecidableEq α] (d : α) (k : Nat) (f : α → α) (t : Tab α) : Tab α :=
  tput d k (f (tget d t k)) t

/-- Indices strictly rising. -/
def tabSorted {α : Type} : Tab α → Bool
  | [] => true
  | [_] => true
  | (i, _) :: (j, v) :: r => decide (i < j) && tabSorted ((j, v) :: r)

/-- The canonical form of a table with a fixed default. -/
def tabWf {α : Type} [DecidableEq α] (d : α) (t : Tab α) : Bool := tabSorted t && t.all fun e => decide (e.2 ≠ d)

end Sys2Proof.Machine
end

