-- ==== Sys2Proof/Machine/Types.lean ====
section
/-! DEFINITION. The parts of the machine's state, chapter by chapter of the spec. Every field's default value is its
value at reset; the comment of a field names its rule and, where the spec gives no reset value, the log entry. -/

namespace Sys2Proof.Machine

/-! ### Timebase (chapter 03) -/

/-- The start trigger of R95, once armed. -/
structure Trigger where
  /-- R235: arming mode (0 command, 1 START_IN, 2 Imdal ring). -/
  mode   : BitVec 2
  /-- R235: the ports it starts. -/
  ports  : BitVec 16
  /-- R235: place the point on the ring. -/
  fwd    : Bool
  /-- R235: boundary (count of boundaries issued) from which the arming is in force. -/
  fromOrd : Nat
  /-- R94: the trigger point, as boundary count and sample, once known, with its START_INFO source code. -/
  point  : Option (Nat × Nat)
  deriving DecidableEq, Repr

/-- Timebase, captures, discipline, trigger (R71 to R96). -/
structure Time where
  /-- R71: seconds of the timebase. -/
  sec : BitVec 48 := 0
  /-- R71: nanoseconds of the timebase, 0 to 999,999,999. -/
  ns : Nat := 0
  /-- R71: fraction of a nanosecond, 2^-24 ns units. -/
  frac : BitVec 24 := 0
  /-- R73: MONO, nanoseconds since AON power-on reset. -/
  mono : BitVec 64 := 0
  /-- R73: fraction below MONO, 2^-24 ns units. -/
  monoFrac : BitVec 24 := 0
  /-- R81: MONO_HI as latched by a read of MONO_LO. -/
  monoHi : Word := 0
  /-- R72: TIME_INCR. -/
  incr : Word := 0x28000000#32
  /-- R89: boundaries issued since reset. -/
  ord : Nat := 0
  /-- R74: PIDX of the latest boundary token. -/
  pidx : Word := 0
  /-- R30: PIDX of the last four tokens, newest first. -/
  tokens : List Word := []
  /-- R78: TIME_NS. -/
  capNs : BitVec 30 := 0
  /-- R78: TIME_SEC_LO and TIME_SEC_HI. -/
  capSec : BitVec 48 := 0
  /-- R79: TIME_LATCH.TRIG. -/
  trigSel : BitVec 2 := 0
  /-- R79: TIME_LATCH.ARM. -/
  arm : Bool := false
  /-- R79: TIME_LATCH.VALID. -/
  capValid : Bool := false
  /-- R79: TIME_LATCH.UNTR. -/
  capUntr : Bool := false
  /-- R82: TIME_STAT.STATE (0 LOCKED, 1 HOLDOVER, 2 UNTRUSTED, 3 FREE). -/
  state : BitVec 2 := 3
  /-- R82: TIME_STAT.REF_ACT. -/
  refAct : BitVec 2 := 0
  /-- R82: TIME_STAT.TAI_VALID. -/
  tai : Bool := false
  /-- R82: TIME_STAT.SLEW. -/
  slew : Bool := false
  /-- R82: TIME_STAT.REFCLK_OK. -/
  refclkOk : Bool := true
  /-- R82: TIME_STAT.WCLK_OK. -/
  wclkOk : Bool := false
  /-- R82: TIME_STAT.REF_SEL. -/
  refSel : BitVec 2 := 0
  /-- R82: TIME_STAT.WCLK_OUT_EN. -/
  wclkOutEn : Bool := false
  /-- R82: TIME_STAT.PPS_OUT_EN. -/
  ppsOutEn : Bool := false
  /-- R82: TIME_STAT.JUMPS. -/
  jumps : BitVec 8 := 0
  /-- R82: MONO at the entry to HOLDOVER, from which HO_AGE is read. -/
  hoFrom : Nat := 0
  /-- R84: HO_RATE. -/
  hoRate : Word := 0x28000000#32
  /-- R84: ticks and sum of TIME_INCR of the LOCKED Periods of this spell, newest first, at most 1,024. -/
  hoHist : List (Nat × Nat) := []
  /-- R84: ticks of the Period in progress. -/
  ticks : Nat := 0
  /-- R84: sum of TIME_INCR over the ticks of the Period in progress. -/
  incrSum : Nat := 0
  /-- R84: the timebase has been LOCKED since reset. -/
  lockedOnce : Bool := false
  /-- R85: MONO since which every measurement has met the lock criterion. -/
  goodFrom : Option Nat := none
  /-- R84: consecutive measurements above 10 µs. -/
  badRun : Nat := 0
  /-- R88: the rate about which the servo slews. -/
  slewBase : Word := 0x28000000#32
  /-- R88: the residual offset that a slew is to remove, ns, and what it has removed, 2^-24 ns units. -/
  residual : Int := 0
  slewed : Int := 0
  /-- R88: a decided jump: J in Periods and the boundary count at which it applies. -/
  jumpDue : Option (Int × Nat) := none
  /-- R81: JUMP_LO and JUMP_HI, the last jump. -/
  lastJump : BitVec 64 := 0
  /-- R81: JUMP_PIDX. -/
  jumpPidx : Word := 0
  /-- R81: OFFSET, s32 ns, saturating. -/
  offset : Word := 0
  /-- R81: WCLK_FREQ, mHz. -/
  wclkFreq : Word := 0
  /-- R87: MONO since which every edge of WCLK_IN has been good. -/
  wclkFrom : Option Nat := none
  /-- R81: START_PIDX. -/
  startPidx : Word := 0
  /-- R81: START_INFO[4:0]. -/
  startSample : BitVec 5 := 0
  /-- R81: START_INFO[9:8]. -/
  startSource : BitVec 2 := 0
  /-- R81: START_INFO[10]. -/
  startUntr : Bool := false
  /-- R81: START_INFO[31:16]. -/
  startFired : BitVec 16 := 0
  /-- R81: START_MISS. -/
  startMiss : Word := 0
  /-- R83: a PTP source is qualified. -/
  ptpQual : Bool := false
  /-- R274: the grandmaster followed. -/
  ptpGm : Nat := 0
  /-- R90: a correction from PTP has been decided since reset, and TAI_VALID waits for its boundary. -/
  taiDue : Bool := false
  /-- R91: REFCLK has been good for 10 ms and AON returns to it at the next boundary. -/
  refclkBack : Bool := false
  /-- R95: the start trigger; none is DISARMED. -/
  trig : Option Trigger := none
  /-- R96: START_OUT pulsed: PIDX and sample of the last pulse, and MONO at its rising edge. -/
  startOut : Option (Word × Nat) := none
  startMono : Option Nat := none
  /-- R93: a jump applies in the Period in progress, which holds PPS_OUT low. -/
  ppsHeld : Bool := false
  /-- R93: the timebase when PPS_OUT was last held low or enabled (log 106). -/
  ppsFrom : Nat := 0
  /-- R67, R82: HO_AGE for which TIME was last raised. -/
  ageShown : Nat := 0
  deriving DecidableEq, Repr

/-! ### Host bus, windows, command path (chapter 02) -/

/-- Host bus registers and the 16-bit converter (R37 to R48, R452, R453). -/
structure Hbi where
  /-- R412: AON is ready and the host bus answers. -/
  ready : Bool := true
  /-- R42: HBI_ERR[5:0]. -/
  err : BitVec 6 := 0
  /-- R42: HBI_ERR.COUNT. -/
  errCount : BitVec 16 := 0
  /-- R452: SCRATCH. -/
  scratch : Word := 0
  /-- R41: HBI_CFG.WIDTH, strap. -/
  w16 : Bool := false
  /-- R452: HBI_CFG.VIO, sensed. -/
  vio33 : Bool := false
  /-- R37: HBI_D of the last read (what the host last saw; the model's observation point). -/
  rdata : Word := 0
  /-- R41: upper half latched by the last low-half read, with its register. -/
  latch : Option (BitVec 7 × BitVec 16) := none
  /-- R41: low half held by the last low-half write, with its register and byte enables. -/
  held : Option (BitVec 7 × BitVec 16 × BitVec 2) := none
  /-- R44: WIN_ADDR. -/
  winAddr : Word := 0
  /-- R48: WIN_STAT[4:0]. -/
  winErr : BitVec 5 := 0
  /-- R48: WIN_STAT.LAST_TGT. -/
  lastTgt : BitVec 4 := 0
  /-- R48: WIN_STAT.WDROP. -/
  wdrop : BitVec 16 := 0
  /-- R67: IRQ_STAT. -/
  irqStat : BitVec 16 := 0
  /-- R67: IRQ_EN. -/
  irqEn : BitVec 16 := 0
  deriving DecidableEq, Repr

/-- Where a command comes from, with the codes of R54. -/
inductive Source where
  | mailbox
  | ring
  | peer (index : RingIx)
  deriving DecidableEq, Repr

/-- Why a command waits before its acceptance (R57, R59, R412). -/
inductive WaitWhy where
  | boot
  | limit
  | domain (d : Nat)
  deriving DecidableEq, Repr

/-- The command at the head of the one acceptance sequence that waits (R57, R59, R66). -/
structure Waiting where
  src : Source
  cmd : CmdWords
  why : WaitWhy
  deriving DecidableEq, Repr

/-- A configuration change staged for its boundary (R55, R57). -/
inductive Change where
  | legSet (leg : Nat) (a1 a2 a3 : Word)
  | legUnbind (leg : Nat)
  | legAct (leg : Nat) (pause : Bool)
  | streamAct (tx : Bool) (n : Nat) (pause : Bool)
  | streamCancel (tx : Bool) (n : Nat)
  | keySet (leg : Nat) (talk : Bool) (slot : Nat) (w : Word)
  | grpSet (g : Nat) (kind : BitVec 2) (a1 a2 a3 : Word)
  | grpClose (g : Nat)
  | grpShare (g : Nat) (ringNo : Nat)
  | grpUnshare (g : Nat)
  | portSet (p : Nat) (cls : BitVec 2) (a1 a2 : Word)
  | portPower (p : Nat) (mode : BitVec 2)
  | portSound (p : Nat) (start : Bool)
  | callSend (p : Nat) (send : Bool) (kind : BitVec 2) (duration : Nat)
  | card (a0 a1 a2 a3 a4 a5 : Word)
  | dapSet (p : Nat) (a0 a1 a2 a3 a4 a5 : Word) (block : List Byte)
  | dapDisable (p : Nat)
  | dapAck (p : Nat)
  | dapDisarm
  | dapArm (ports : BitVec 16)
  | dapStart (ports : BitVec 16)
  | dapStop (ports : BitVec 16)
  | streamSet (tx : Bool) (n : Nat) (block : List Byte)
  | streamRelease (tx : Bool) (n : Nat)
  | window (port : Nat) (a1 a2 : Word)
  | shaper (port q : Nat) (a1 a2 a3 a4 a5 : Word)
  | weight (port flow : Nat) (a1 : Word)
  | policer (n : Nat) (a1 a2 a3 a4 a5 : Word)
  | dscpMap (a1 a2 a3 a4 : Word)
  | pcpMap (a1 : Word)
  | netPort (port : Nat) (a1 a2 a3 a4 a5 : Word)
  | netRing (port : Nat) (tx : Bool) (ix : Nat) (a1 a2 a3 a4 a5 : Word)
  | netRule (port ix : Nat) (a1 a2 a3 : Word)
  | netPtp (port : Nat) (a1 a2 a3 : Word)
  | enrol
  | depart
  | peerVote (index : Nat) (votes : BitVec 22)
  | deepest (d : Nat) (v : BitVec 2)
  | proofInterval (bank : Nat) (ms : Nat)
  deriving DecidableEq, Repr

/-- A staged change with the boundary count of its effect and the command it came from (R35, R54, R57). -/
structure Staged where
  ord    : Nat
  change : Change
  src    : Source
  cmd    : CmdWords
  deriving DecidableEq, Repr

/-- One entry of the reject log (R54). -/
structure Reject where
  cmd    : CmdWords
  status : BitVec 8
  src    : BitVec 8
  epoch  : Word
  pidx   : Word
  deriving DecidableEq, Repr

/-- A completed command as R425 shows it. -/
structure Done where
  seq    : BitVec 16
  status : BitVec 8
  deriving DecidableEq, Repr

/-- A forward in flight to a peer (R337, R338). -/
structure ForwardOut where
  src    : Source
  cmd    : CmdWords
  target : RingIx
  op     : BitVec 3
  /-- R345: what it carries, and the side by which it left. -/
  body   : Forward
  side   : Nat
  deriving DecidableEq, Repr

/-- A command accepted for the next boundary whose object a fall at that boundary would withdraw: it completes there (R14). -/
structure Held where
  src  : Source
  cmd  : CmdWords
  /-- boundary count of its effect -/
  ord  : Nat
  /-- CMD_RES1 on completion OK -/
  res1 : Word
  deriving DecidableEq, Repr

/-- A ROLL_CALL or SNAPSHOT that waits for its boundary or its bank (R280, R423). -/
structure Later where
  src   : Source
  cmd   : CmdWords
  /-- boundary count of the capture -/
  ord   : Nat
  /-- R280: the banks named, bit per bank; zero for a ROLL_CALL. -/
  banks : BitVec 3
  /-- R280: the banks have been taken and are being copied. -/
  taken : Bool
  /-- PIDX of the capture, once taken. -/
  pidx  : Word
  deriving DecidableEq, Repr

/-- Mailbox, rings, acceptance, epoch, reject log (R50 to R66, R454, R455). -/
structure CmdPath where
  /-- R60: CMD_OP as last written. -/
  opReg : Word := 0
  /-- R60: CMD_ARG0 to CMD_ARG7 as last written (default 0). -/
  args : Tab Word := []
  /-- R61: CMD_STAT.BUSY. -/
  busy : Bool := false
  /-- R61: CMD_STAT.STATUS. -/
  status : BitVec 4 := 0
  /-- R61: CMD_STAT.OPCODE. -/
  op : BitVec 8 := 0
  /-- R61: CMD_STAT.SEQ. -/
  seq : BitVec 16 := 0
  /-- R61: CMD_RES0. -/
  res0 : Word := 0
  /-- R61: CMD_RES1. -/
  res1 : Word := 0
  /-- R60: the latched mailbox command not yet accepted. -/
  mbox : Option CmdWords := none
  /-- R62: CRING_BASE.BASE. -/
  base : BitVec 6 := 0
  /-- R62: CRING_BASE.EN. -/
  en : Bool := false
  /-- R64: CRING_HEAD.HEAD. -/
  head : BitVec 9 := 0
  /-- R64: CRING_HEAD.EHALT. -/
  ehalt : Bool := false
  /-- R64: CRING_TAIL. -/
  tail : BitVec 9 := 0
  /-- R64: CPL_HEAD. -/
  cplHead : BitVec 9 := 0
  /-- R63, R64: the ring entry taken and not yet completed. -/
  taken : Option CmdWords := none
  /-- R63: the ring base under which that entry was taken. -/
  takenBase : BitVec 6 := 0
  /-- R55: CFG_EPOCH. -/
  epoch : Word := 0
  /-- R57: configuration commands accepted in this Period. -/
  accepted : Nat := 0
  /-- R57, R59, R66: the command that holds the acceptance sequence. -/
  waiting : Option Waiting := none
  /-- R338: the parameter data of the waiting command, where a peer sent it. -/
  waitParam : Option (List Byte) := none
  /-- R66: peers' forwards that arrived behind a waiting command, oldest first. -/
  peerQ : List (RingIx × Forward) := []
  /-- R35, R57: staged changes in acceptance order. -/
  staged : List Staged := []
  /-- R54: the reject log, newest first, at most 64. -/
  rejects : List Reject := []
  /-- R49: reject count. -/
  rejectCount : Word := 0
  /-- R425: latest ring completion. -/
  lastRing : Option Done := none
  /-- R425: latest mailbox completion. -/
  lastMbox : Option Done := none
  /-- R448: GCTRL.PEER_CMD. -/
  peerCmd : Bool := true
  /-- R338: the local forwards in flight, oldest first. -/
  fwd : List ForwardOut := []
  /-- R14: accepted commands that complete at their boundary, oldest first. -/
  held : List Held := []
  /-- R423: ROLL_CALLs not yet completed. -/
  rolls : List Later := []
  /-- R280: SNAPSHOTs not yet completed. -/
  snaps : List Later := []
  /-- R338: the last answer sent to a peer (status, RES0, RES1, epoch, data). -/
  answer : Option ForwardAnswer := none
  /-- R338, R341: answers to peers that have no place on a link yet, oldest first. -/
  answers : List (RingIx × ForwardAnswer) := []
  deriving DecidableEq, Repr

/-! ### Legs, Talk Groups, mixing (chapter 04) -/

/-- Leg state, codes of R107. -/
inductive LegState where
  | free
  | bound
  | active
  | paused
  deriving DecidableEq, Repr

/-- An armed action: what and at which boundary count (R58, R89, R108). -/
structure Armed where
  /-- true for pause, false for resume or start -/
  pause : Bool
  ord   : Nat
  deriving DecidableEq, Repr

/-- A Leg's configuration (R106, R110, R133). Key tables default to 0x0080_0000. -/
structure LegCfg where
  /-- R103: a network Leg that is bound; fixed Legs are always bound. -/
  bound : Bool
  /-- R106: A1, stream binding. -/
  a1 : Word
  /-- R106: A2, OUTGAIN and FORCE. -/
  a2 : Word
  /-- R133: A3, canceller and voice activity. -/
  a3 : Word
  /-- R110: listen key words by slot. -/
  listen : Tab Word
  /-- R110: talk key words by slot. -/
  talk : Tab Word
  deriving DecidableEq, Repr

/-- A Leg's run state (R101, R107, R363). -/
structure LegSt where
  /-- R101: state. -/
  state : LegState
  /-- R108: armed action. -/
  armed : Option Armed
  /-- R395: boundary count at which the Leg left ACTIVE. -/
  leftActive : Option Nat
  /-- R103, R106: boundary counts of the LEG_SET that bound the Leg, and of the last one that changed its RX or TX binding. -/
  bindOrd : Nat := 0
  moveOrd : Nat := 0
  /-- R363: boundary count of the latest boundary at which the Leg was withdrawn. -/
  awayOrd : Nat := 0
  /-- R147: the port's latest entry to ON that has come to the Leg (Watch.onOrd), and the count of changes there. -/
  zeroOrd : Nat := 0
  changes : Nat := 0
  /-- R136: boundary counts of the latest LEG_SET that turned MODE off, that shortened or lengthened the tail, that changed the reference
  or its delay, that changed RES_EN or CNG_EN, and that changed HUM_EN. -/
  offOrd  : Nat := 0
  cutOrd  : Nat := 0
  growOrd : Nat := 0
  refOrd  : Nat := 0
  resOrd  : Nat := 0
  humOrd  : Nat := 0
  deriving DecidableEq, Repr

/-- What LEG_GET shows of the latest data Period (R107). -/
structure LegView where
  admitted : BitVec 4 := 0
  speaking : BitVec 4 := 0
  callIn   : Bool := false
  callOut  : Bool := false
  score    : BitVec 8 := 0
  deriving DecidableEq, Repr

/-- Group state, codes of R118. -/
inductive GrpState where
  | unused
  | open_
  | shared
  deriving DecidableEq, Repr

/-- A Talk Group's configuration (R113 to R115). -/
structure GroupCfg where
  state  : GrpState := .unused
  /-- R115: KIND. -/
  kind   : BitVec 2 := 0
  /-- R115: ring number. -/
  ringNo : BitVec 10 := 0
  /-- R115: ADMIT, HOLD, MARGIN. -/
  a1 : Word := 0x02819008#32
  /-- R115: T_ON, T_OFF. -/
  a2 : Word := 0x00004060#32
  /-- R115: INT_GROUP, DUCK, INT_GAIN. -/
  a3 : Word := 0x806C0000#32
  deriving DecidableEq, Repr

/-- Admission state of one talk key in a Conference group (R119, R121). -/
structure AdmEntry where
  leg      : Nat
  admitted : Bool
  hold     : Nat
  deriving DecidableEq, Repr

/-- The configuration that a data Period is computed under (R33): Legs with their states, and groups. -/
structure MixView where
  legs   : Tab LegCfg := []
  st     : Tab LegSt := []
  groups : Tab GroupCfg := []
  /-- R362: Wings of the member in force for this data. -/
  wings  : Nat := 1
  deriving DecidableEq, Repr

/-! ### Cancellers, voice activity, hum (chapter 05) -/

/-- Canceller state, codes of R149 byte 0xA4. -/
inductive EchoState where
  | off
  | fast
  | adapt
  | dt
  | frozen
  deriving DecidableEq, Repr

/-- A partition record of R138: exponent and 47 mantissas. -/
structure Record where
  e : Int := -128
  m : List Int := []
  deriving DecidableEq, Repr

/-- A canceller's checkpoint (R148). -/
structure Check where
  w    : List Record
  p    : List (BitVec 16)
  erle : F32
  /-- R148, R149: the copy of the control record. -/
  ctl  : List Byte
  deriving DecidableEq, Repr

/-- What a Leg's chain last ran under, so that a change whose first data is lost still acts (R136): boundary count of the data, A3, and the
boundary counts of LegSt. -/
structure Ran where
  ord     : Nat := 0
  bindOrd : Nat := 0
  moveOrd : Nat := 0
  zeroOrd : Nat := 0
  deriving DecidableEq, Repr

/-- A seed that waits (R147): the boundary count from which it applies, the port's count of changes when it was made, whether FREEZE has
held it back, and its partitions. -/
structure Seed where
  from_ : Nat
  no    : Nat
  held  : Bool := false
  w     : List Record
  deriving DecidableEq, Repr

/-- One Leg's echo canceller (R137 to R149). -/
structure Echo where
  state : EchoState := .off
  /-- R139: filter partitions. -/
  w : List Record := []
  /-- R139: reference history, newest first. -/
  hist : List Record := []
  /-- R139: boundary count of the data of the newest history record. -/
  histOrd : Nat := 0
  /-- R149: r_prev. -/
  rPrev : Block := []
  /-- R149: P as binary16. -/
  p : List (BitVec 16) := []
  /-- R142: A. -/
  erle : F32 := 0x3F800000#32
  /-- R142: Fe, from 24 x 2^-32. -/
  fe : F32 := 0x31C00000#32
  /-- R142: Ym. -/
  ym : F32 := 0
  /-- R143: g_prev. -/
  gPrev : F32 := 0x3F800000#32
  /-- R144: LFSR. -/
  lfsr : Word := 0
  /-- R145: DT Periods left. -/
  dtLeft : Nat := 0
  /-- R142: divergence run. -/
  divRun : Nat := 0
  /-- R145: FAST Periods left. -/
  fastLeft : Nat := 0
  /-- R142: the filter started from zero, so double talk is not declared in FAST. -/
  fromZero : Bool := true
  /-- R139: t. -/
  t : Nat := 0
  /-- R148: checkpoint. -/
  check : Option Check := none
  /-- R148: checkpoint age in data Periods. -/
  checkAge : Nat := 0
  /-- R149: reverts, saturating. -/
  reverts : BitVec 16 := 0
  /-- R149: seeds, saturating. -/
  seeds : BitVec 16 := 0
  /-- R159: data PIDX of the last seed, revert or reset. -/
  eventPidx : Word := 0
  /-- R159: data PIDX of the latest data processed. -/
  dataPidx : Word := 0
  /-- R147: a seed that waits. -/
  seed : Option Seed := none
  /-- R147: the port's count of changes when the seed in force was made. -/
  seedNo : Option Nat := none
  /-- R159: suppression gain of the last sample. -/
  lastG : F32 := 0x3F800000#32
  /-- R149: an uncorrectable filter record, control record was met and the next data Period reverts. -/
  bad : Bool := false
  badCtl : Bool := false
  /-- R136: what the Leg's chain last ran under. -/
  ran : Ran := {}
  deriving DecidableEq, Repr

/-- One Leg's voice-activity state (R152, R153). -/
structure Vad where
  /-- R152: state of the band-pass. -/
  filt : List F32 := []
  /-- R153: block minima, newest first, at most 16. -/
  ring : List F32 := []
  /-- R153: running minimum of the current block. -/
  runMin : Option F32 := none
  /-- R153: updated Periods in the current block. -/
  count : Nat := 0
  deriving DecidableEq, Repr

/-- Hum canceller state, codes of R160. -/
inductive HumState where
  | off
  | search
  | locked
  | coast
  deriving DecidableEq, Repr

/-- One line Leg's hum canceller (R155 to R157). -/
structure Hum where
  state : HumState := .off
  /-- R155: f0, Hz. -/
  f0 : F32 := 0
  /-- R155: phase accumulator. -/
  phi : Word := 0
  /-- R155: a_h, h = 1 to 15. -/
  a : List F32 := []
  /-- R155: b_h. -/
  b : List F32 := []
  /-- R156: the loop runs and subtraction is on. -/
  running : Bool := false
  /-- R156: data Periods counted in SEARCH, and the input's transform over them at the 81 frequencies from 45 Hz to 65 Hz. -/
  count : Nat := 0
  bins : List (F32 × F32) := []
  /-- R155: integral part of the loop on f0. -/
  loopI : F32 := 0
  /-- R156: f0 where the count of 2 s began, and the count. -/
  heldF0 : F32 := 0
  heldRun : Nat := 0
  /-- R156: f0 changed faster than 2 Hz/s in the last data Period. -/
  fast : Bool := false
  /-- R156: the fundamental is within 0.5 Hz of the held f0. -/
  near : Bool := false
  /-- R156: data Periods below -106 dBFS, and in COAST. -/
  lowRun : Nat := 0
  coastRun : Nat := 0
  /-- R156: the counts are paused. -/
  paused : Bool := false
  /-- R157: f0 of the last 2,000 data Periods, newest first. -/
  hist : List F32 := []
  /-- R157: FREQ, mHz. -/
  freq : Nat := 0
  /-- R160: fundamental level and attenuation, 0.5 dB units. -/
  level : BitVec 8 := 0
  atten : BitVec 8 := 0
  /-- R157: measured while UNTRUSTED. -/
  untr : Bool := false
  dataPidx : Word := 0
  deriving DecidableEq, Repr

/-! ### The pipeline (chapter 01) -/

/-- Result of phase A for one Leg (R132). -/
structure PhaseA where
  /-- echo-subtracted input -/
  e     : Block
  d     : Block
  yh    : Block
  /-- processed input x of R124 -/
  x     : Block
  score : BitVec 8
  /-- R25: states of canceller, voice activity and hum after this data, held back from write-back. -/
  echo  : Echo
  vad   : Vad
  hum   : Hum
  /-- R149: a memory error made the canceller revert, and is counted at write-back. -/
  fixed : Bool
  deriving DecidableEq, Repr

/-- Fade of a talker in one data Period (R121). -/
inductive Fade where
  | zero
  | one
  | fadeIn
  | fadeOut
  deriving DecidableEq, Repr

/-- One talker of a Conference group after the decision of R121. -/
structure Decided where
  leg   : Nat
  slot  : Nat
  speak : Bool
  now   : Bool
  hold  : Nat
  fade  : Fade
  deriving DecidableEq, Repr

/-- Output of one Leg for a data Period (R127, R128, R130). -/
structure LegOut where
  y       : Block
  s24     : List Int
  callOut : Bool
  /-- R29: concealed. -/
  concealed : Bool
  deriving DecidableEq, Repr

/-- One data Period in the pipeline (R20, R25, R30). -/
structure DataSet where
  /-- boundary count of its gather Period -/
  ord    : Nat := 0
  /-- R30: PIDX of its gather Period, its tag. -/
  pidx   : Word := 0
  /-- R33: configuration of its gather Period. -/
  cfg    : MixView := {}
  /-- the configuration of the Period before, from which fades start (R112) -/
  prev   : MixView := {}
  /-- R25: gathered inputs, s24 by Leg. -/
  inputs : Tab (List Int) := []
  /-- R33, R99, R100: outer rate code of each network Leg with an input, as it was bound in the gather Period. -/
  rates  : Tab Nat := []
  /-- R129: Legs with call-in. -/
  callIn : List Nat := []
  /-- R296: timebase in ns at the boundary that opened the gather Period. -/
  startNs : Nat := 0
  /-- R182: line Legs whose port conceals. -/
  conceal : List Nat := []
  /-- R141: bins in which a Leg's canceller does not adapt. -/
  frozen : Tab (List Nat) := []
  /-- R153: Legs whose voice-activity floor is not updated. -/
  noFloor : List Nat := []
  /-- how far the data has come: 0 gathered, 1 phase A, 2 round started, 3 decided, 4 corrections sent, 5 past the primary
  deadline, 6 handed over at the emit cut-off -/
  stage  : Nat := 0
  phaseA : Tab PhaseA := []
  /-- R25: Legs whose states have been written back. -/
  back   : List Nat := []
  /-- R25: the states that each tile read at the start of its work, kept in Pantry until the emit cut-off. -/
  kept   : Tab (Echo × Vad × Hum) := []
  /-- R124: provisional or final group sums, 24 each. -/
  sums   : Tab (List Int) := []
  /-- R331: reduction records received for this data: side (0 E, 1 W) and record, newest first -/
  recs   : List (Nat × RedRecord) := []
  /-- R362: member to which the device falls at the boundary that closes the gather Period -/
  fallTo : Option Nat := none
  /-- R325: the device departs from its ring at that boundary; it departed at the one that opens the gather Period -/
  departs : Bool := false
  afterDepart : Bool := false
  decided : Tab (List Decided) := []
  /-- R126: IFB groups whose interrupt is active, now and in the Period before. -/
  intNow  : List Nat := []
  intPrev : List Nat := []
  outs   : Tab LegOut := []
  /-- R351: tiles of the Leg units and of the admission decisions under the Timetable of the compute Period. -/
  legTile : Tab Nat := []
  grpTile : Tab Nat := []
  /-- R25: tiles that have finished this data. -/
  done   : List Nat := []
  /-- R26: tiles whose results are missing: discarded, or still being computed by a Substitute that catches up. -/
  lost   : List Nat := []
  /-- R26, R27: those of them whose redone partial sums and candidates are in the hub. -/
  summed : List Nat := []
  /-- R29: tiles whose work for this data is lost for good. -/
  dead   : List Nat := []
  /-- R27: a contribution was missing and the data goes through a late round. -/
  late   : Bool := false
  /-- R27: the groups that were undecided at P+300 µs and are affected by the late round. -/
  lateGrps : List Nat := []
  /-- R332: own first-pass and correction records as they were formed, by ring number; in the round in progress the sides (side, ring number) on
  which a first-pass record, a correction record has left. -/
  firsts : Tab RedRecord := []
  corrs  : Tab RedRecord := []
  firstOut : List (Nat × Nat) := []
  corrOut : List (Nat × Nat) := []
  /-- R27, R334: the own first pass of the late round has been placed. -/
  latePlaced : Bool := false
  /-- R331: the own first pass has been placed. -/
  placed : Bool := false
  /-- R376: Legs whose emit buffer reads uncorrectable. -/
  spoilt : List Nat := []
  deriving DecidableEq, Repr

/-- Legs, groups, admission, the pipeline (R20 to R30, R97 to R131). -/
structure Mix where
  /-- R106: Leg configuration; unlisted Legs at their reset words (R106, R110, R133). -/
  legs : Tab LegCfg := []
  /-- R101: Leg states; unlisted: BOUND for line and DAP Legs, FREE for network Legs. -/
  st : Tab LegSt := []
  /-- R115: group configuration; unlisted: UNUSED at reset words. -/
  groups : Tab GroupCfg := []
  /-- R107: what LEG_GET shows of the latest data Period. -/
  views : Tab LegView := []
  /-- R121: admission state by Conference group. -/
  adm : Tab (List AdmEntry) := []
  /-- R118: talkers admitted ring-wide to a SHARED group in the latest data Period. -/
  ringAdmitted : Tab Nat := []
  /-- R126: IFB groups whose interrupt was active in the latest data Period. -/
  intActive : List Nat := []
  /-- R118: groups with a call in the latest data Period. -/
  callGroups : List Nat := []
  /-- R107, R118: those five as they stood at the latest boundary. -/
  shownViews : Tab LegView := []
  shownAdm : Tab (List AdmEntry) := []
  shownRing : Tab Nat := []
  shownInt : List Nat := []
  shownCalls : List Nat := []
  /-- R20: the Period being gathered. -/
  gather : DataSet := {}
  /-- R20: the data in its compute Period. -/
  compute : Option DataSet := none
  /-- R20: the data in its emit Period. -/
  emit : Option DataSet := none
  /-- R21: the outputs handed over at the last emit cut-off, by Leg. -/
  lastOut : Tab LegOut := []
  /-- R100: the blocks that a rate conversion still reaches, newest first: boundary count of their data, rate code and samples of
  an input, by Leg; boundary count and samples of an output, by Leg. -/
  rcIn : Tab (List (Nat × Nat × List Int)) := []
  rcOut : Tab (List (Nat × Block)) := []
  /-- R137, R373: each Leg's output y of its last 258 data Periods with their boundary counts, newest first. -/
  outLine : Tab (List (Nat × Block)) := []
  deriving DecidableEq, Repr

/-! ### Line ports and the line watch (chapters 06, 07) -/

/-- Port state, codes of R189. -/
inductive PortState where
  | off
  | probe
  | ramp
  | on
  | fold
  | shed
  | fault
  | hold
  deriving DecidableEq, Repr

/-- A line port's settings (R172, R176). -/
structure PortCfg where
  /-- R172: CLASS. -/
  cls : BitVec 2 := 3
  /-- R172: A1. -/
  a1 : Word := 0x15320F3C#32
  /-- R172: A2. -/
  a2 : Word := 0x00000015#32
  /-- R176: MODE. -/
  mode : BitVec 2 := 0
  deriving DecidableEq, Repr

/-- What HOLD keeps from its entry (R179, R217). -/
structure HoldRef where
  setMv : Rat
  ilim  : Nat
  i10   : Rat
  deriving DecidableEq, Repr

/-- A pair of converters (R187): marked suspect, out of service, Periods of disagreement, loop samples since one took over. -/
structure ConvPair where
  susA : Bool := false
  susB : Bool := false
  outA : Bool := false
  outB : Bool := false
  disRun : Nat := 0
  age : Nat := 0
  deriving DecidableEq, Repr

/-- A replacement of a line port's input (R182): first replaced sample and, once known, the last one (boundary count × 24 + sample), and the
24 samples delivered before the first. -/
structure Span where
  start : Nat
  last  : Option Nat := none
  good  : List Int := []
  deriving DecidableEq, Repr

/-- A port's loop at 768 kHz (R164): states of the high-passes on current and voltage, current mode, gate, the termination it fades from and
loop samples since then, the drive and the received voltage of the Period before, DRV_FS codes of the last Periods, newest first. -/
structure LoopSt where
  hpI : List F32 := []
  hpV : List F32 := []
  cmode : Bool := false
  gate : F32 := 0
  ztFrom : Nat := 200
  ztAge : Nat := 384
  up : List F32 := []
  down : List F32 := []
  fs : List Nat := []
  deriving DecidableEq, Repr

/-- A line port's run state (R175 to R189). -/
structure PortSt where
  state : PortState := .off
  /-- R189: cause. -/
  cause : BitVec 8 := 0
  /-- R189: PIDX of the last state change. -/
  changed : Word := 0
  /-- R187: voltage converters and current converters. -/
  convV : ConvPair := {}
  convI : ConvPair := {}
  /-- R182: concealing. -/
  conceal : Bool := false
  /-- R183: DROPOUT. -/
  dropout : Bool := false
  /-- R189: BUDGET_WAIT. -/
  budgetWait : Bool := false
  /-- R169: compensation set in force. -/
  comp : BitVec 2 := 0
  /-- R169: a set to take effect at the next boundary. -/
  compNext : Option (BitVec 2) := none
  /-- R189: surge openings. -/
  surges : BitVec 16 := 0
  /-- R181: boundary counts of the openings within the last 2,000 boundaries. -/
  surgeOrds : List Nat := []
  /-- R181: MONO of the first opening of the span in progress. -/
  surgeFrom : Option Nat := none
  /-- R181: the re-ramp of step 1 runs. -/
  reramp : Bool := false
  /-- R182: replacements that still reach the input, newest first. -/
  spans : List Span := []
  /-- R182: samples (boundary count × 24 + sample) at which the drive was cut or resumed, newest first. -/
  driveEv : List (Nat × Bool) := []
  /-- R182: samples delivered in the last Period. -/
  lastIn : List Int := []
  /-- R189: Periods of flattened drive. -/
  flats : BitVec 16 := 0
  /-- R189: events on this port. -/
  events : BitVec 16 := 0
  /-- R169: capacitance estimate, nF. -/
  nf : Nat := 0
  /-- R189: loop voltage in mV, current in 0.1 mA, FET dissipation in mW of the last Period. -/
  mv : Int := 0
  i10 : Int := 0
  fetMw : Nat := 0
  /-- R189: mean loop current of the last Period, µA. -/
  ua : Int := 0
  /-- R164: setpoint in mV at the end of the Period in progress and at its start, and the points between (ns in the Period, mV) at which its
  course bends, oldest first. -/
  setMv : Rat := 0
  setFrom : Rat := 0
  bends : List (Rat × Rat) := []
  /-- R164: the setpoint moves in the Period in progress. -/
  slewing : Bool := false
  /-- R164: state of the loop. -/
  loop : LoopSt := {}
  /-- R164, R213: call tone, sounding and audio that leave in the Period in progress, as their sum, of full scale. -/
  drive : List F32 := []
  /-- R164: s24 samples that the loop received in the last Period, where its loop samples were given. -/
  heard : List Int := []
  /-- R192: the call tone's phase at the end of the Period in progress, 1/480 turn. -/
  tonePh : Word := 0
  /-- R177: boundary count at which RAMP was entered, or the re-ramp of R181 began. -/
  rampOrd : Nat := 0
  /-- R174, R177: RAMP_T in Periods and the step of the setpoint in mV per Period, as they were when the ramp began. -/
  rampT : Nat := 40
  rampStep : Rat := 600
  /-- R169: RAMP was entered from OFF, PROBE, SHED or FAULT and its estimate is still to come. -/
  fresh : Bool := false
  /-- R177: the setpoint at which the rise of a ramp that is complete still ends. -/
  tail : Option Rat := none
  /-- R179: the port is to enter RAMP and its bank is not ON yet. -/
  starting : Bool := false
  /-- R169: current summed over the whole Periods of the ramp in µA, those Periods, and the same for the Periods after it; Periods of the 1 ms
  after the ramp still to come. -/
  rampUa : Int := 0
  rampN : Nat := 0
  afterUa : Int := 0
  afterLeft : Nat := 0
  /-- R177: consecutive Periods in current regulation, in voltage regulation. -/
  cregRun : Nat := 0
  vregRun : Nat := 0
  /-- R177: the port asks to enter RAMP (SHED, FAULT or OFF/PROBE powered). -/
  ask : Bool := false
  /-- R186: shed by the ladder, shed by the budget. -/
  byLadder : Bool := false
  byBudget : Bool := false
  /-- R186: the class that the ladder shed. -/
  ladderCls : Nat := 0
  /-- R185: draw at shedding, mW. -/
  shedMw : Nat := 0
  /-- R179: what HOLD keeps. -/
  hold : Option HoldRef := none
  /-- R174, R179: a PORT_SET recorded in HOLD: CLASS, A1, A2. -/
  later : Option (BitVec 2 × Word × Word) := none
  /-- R188: MONO at which the gate was last commanded off, while the FET is open. -/
  gateOff : Option Nat := some 0
  /-- R166, R177, R420: the setpoint is being ramped to 0 V before the FET is opened. -/
  dropping : Bool := false
  deriving DecidableEq, Repr

/-- A step of Attendance in progress (R194). -/
structure Step where
  pidx  : Word
  ord   : Nat
  means : List Int
  deriving DecidableEq, Repr

/-- A host call (R214). -/
structure HostCall where
  kind  : BitVec 2
  until_ : Nat
  deriving DecidableEq, Repr

/-- A line port's watch (R193 to R222). Currents in 0.1 mA. -/
structure Watch where
  /-- R197: stations counted; none is unknown (0xFF). -/
  count : Option Nat := some 0
  /-- R196: draws D_0 to D_3. -/
  draws : List (Option Rat) := [none, none, none, none]
  /-- R196: stations per class. -/
  counts : List Nat := [0, 0, 0, 0]
  /-- R194: settled current. -/
  is_ : Option Rat := none
  /-- R194: Period means of the last unfrozen Periods, newest first, at most 40. -/
  means : List Int := []
  /-- R194: step in progress. -/
  step : Option Step := none
  /-- R193: Periods of freeze left after its cause ended. -/
  freeze : Nat := 0
  /-- R197: an entry count is awaited. -/
  entry : Bool := false
  /-- R196: UNSURE. -/
  unsure : Bool := false
  /-- R200: LATCHED. -/
  latched : Bool := false
  /-- R200: boundary counts of recoveries from SHORT, OVERCURRENT and FOLDBACK. -/
  recoveries : List Nat := []
  /-- R199: boundary count at which the fault in force qualified. -/
  faultOrd : Nat := 0
  /-- R199: boundaries for which the OPEN, FOLDBACK and SHORT conditions have stood. -/
  openRun : Nat := 0
  foldRun : Nat := 0
  shortRun : Nat := 0
  /-- R203: class last measured (0 none, 1 open line, 2 station, 3 short) and class last reported. -/
  probe : BitVec 8 := 0
  reported : BitVec 8 := 1
  /-- R199, R219: consecutive probes of the class last measured. -/
  probeRun : Nat := 0
  /-- R199: consecutive probes at or above 500 Ω. -/
  notShort : Nat := 0
  /-- R220: probe resistance, ohms; none for an open line. -/
  ohms : Option Nat := none
  /-- R210, R211: qualified calls. -/
  tone : Bool := false
  dc : Bool := false
  /-- R212: a call was qualified at the boundary that opened the Period in progress. -/
  callNow : Bool := false
  /-- R210: runs of Periods with the tone at or above TONE_TH, below TONE_TH - 6 dB. -/
  toneOn : Nat := 0
  toneOff : Nat := 0
  /-- R211: runs of Periods with DC present, absent. -/
  dcOn : Nat := 0
  dcOff : Nat := 0
  /-- R212: Periods for which tone, DC detection is still held. -/
  toneHeld : Nat := 0
  dcHeld : Nat := 0
  /-- R213: tone generated, DC generated, and Periods for which each must still go on. -/
  toneGen : Bool := false
  dcGen : Bool := false
  toneLeft : Nat := 0
  dcLeft : Nat := 0
  /-- R199: mean loop current of the last 64 loop samples of the last Period, 0.1 mA. -/
  last64 : Int := 0
  /-- R214: host call. -/
  host : Option HostCall := none
  /-- R220: PIDX of the last Attendance change. -/
  attPidx : Word := 0
  /-- R147: boundary count of the last Attendance change (its Period), termination change and entry to ON. -/
  attOrd : Nat := 0
  termOrd : Nat := 0
  onOrd : Nat := 0
  /-- R147: count of Attendance changes, termination changes and entries to ON. -/
  changes : Nat := 0
  /-- R220: tone level. -/
  toneLvl : BitVec 8 := 0
  /-- R217: voice-band level of the last Period, 0.5 dB below full scale. -/
  voice : Nat := 255
  /-- R213: the tone fell in the Period in progress. -/
  toneFade : Bool := false
  /-- R199, R219: MONO of the last probe in FAULT; window cycles of the bank at the last probe. -/
  probeMono : Nat := 0
  probeCycle : Nat := 0
  deriving DecidableEq, Repr

/-- A port's sounding (R204 to R209). -/
structure Sounding where
  /-- R209: status. -/
  status : BitVec 8 := 0
  /-- R204: boundary count of S and its PIDX. -/
  startOrd : Nat := 0
  startPidx : Word := 0
  endPidx : Word := 0
  eligible : Bool := false
  auto : Bool := false
  nf : Nat := 0
  /-- R209: soundings completed. -/
  done : Word := 0
  points : List (F32 × F32) := []
  /-- R147: a step that began after S is being qualified, and the eligibility of the completed sounding waits on it. -/
  waitsStep : Bool := false
  /-- R149: start boundary and points of the latest eligible sounding before this one. -/
  prior : Option (Nat × List (F32 × F32)) := none
  /-- R206: an automatic sounding is requested. -/
  asked : Bool := false
  /-- R192: SND_LVL in force at its start. -/
  lvl : Nat := 0
  /-- R204: complex amplitudes of loop voltage and current summed over the measuring Periods, by point, where loop samples were given. -/
  amps : Tab ((F32 × F32) × (F32 × F32)) := []
  /-- R207: conditions to abort at the next boundary. -/
  abort : BitVec 6 := 0
  deriving DecidableEq, Repr

/-- A bank (R201, R202, R216 to R221, R470). -/
structure Bank where
  /-- R221: leakage, 10 µA. -/
  leak : Nat := 0
  /-- R221: temperature, °C; none for a sensor fault. -/
  temp : Option Int := some 25
  leakWarn : Bool := false
  localising : Bool := false
  tempWarn : Bool := false
  tempTrip : Bool := false
  /-- R201: boundaries at or above LEAK_TRIP; boundary count at which localisation began. -/
  leakRun : Nat := 0
  locOrd : Nat := 0
  /-- R202: boundaries at or above OT_TRIP - 10, OT_TRIP, OT_TRIP + 10, and below OT_TRIP - 20. -/
  warnRun : Nat := 0
  tripRun : Nat := 0
  critRun : Nat := 0
  coolRun : Nat := 0
  /-- R221: PIDX of the last Proofing hit. -/
  hitPidx : Word := 0
  /-- R221: windows run. -/
  windows : Word := 0
  /-- R218: the hit's ON vote stands; boundaries without a hit. -/
  hitVote : Bool := false
  /-- R395: a hit is still to be logged. -/
  hitLog : Bool := false
  quiet : Nat := 0
  /-- R402: PROOF_INTERVAL in force, ms, and one that waits for the end of a window. -/
  interval : Nat := 100
  intervalNext : Option Nat := none
  /-- R216, R219: MONO in ns from which cycles of the present interval are counted, cycles before it, and the last cycle whose window has
  passed. -/
  cycle0 : Nat := 0
  cycleN : Nat := 0
  winRun : Nat := 0
  /-- R201: leakage readings while it is localised: their count, sum and sum of squares; by port of the bank the sums of reading times
  modulation, of the modulation and of its square, the modulation in units of 2^-40. -/
  locN : Nat := 0
  locX : Int := 0
  locXX : Int := 0
  locS : List (Int × Int × Int) := []
  deriving DecidableEq, Repr

/-- One entry of the watch log (R222). -/
structure WatchEntry where
  seq    : Word
  pidx   : Word
  port   : BitVec 8
  kind   : BitVec 8
  detail : BitVec 16
  value  : Word
  deriving DecidableEq, Repr

/-- Line ports, plant, budget, watch (R163 to R223). -/
structure Line where
  /-- R172: port settings. -/
  cfg : Tab PortCfg := []
  /-- R175: port states. -/
  port : Tab PortSt := []
  /-- R193: port watches. -/
  watch : Tab Watch := []
  /-- R204: soundings. -/
  sound : Tab Sounding := []
  /-- R201: banks. -/
  bank : Tab Bank := []
  /-- R184, R191: CARD_BUDGET words in force (defaults of R184 and R191). -/
  card0 : Word := 0
  card1 : Word := 0x6964736E#32
  card2 : Word := 0x5850625A#32
  card3 : Word := 0x00014E46#32
  card4 : Word := 0x543C0614#32
  card5 : Word := 0x000015A2#32
  /-- R183: steps in force, bit s-1 for step s. -/
  steps : BitVec 5 := 0
  /-- R183: boundaries for which the plant has stood above each step's leave threshold. -/
  above : List Nat := [0, 0, 0, 0, 0]
  /-- R183: plant voltage, mV (the lower reading). -/
  plantMv : Nat := 0
  /-- R183: the readings disagree by more than 1 %. -/
  plantDiff : Bool := false
  /-- R185: P_draw of the last Periods in mW, newest first, at most 40. -/
  draws : List Nat := []
  /-- R185: boundary count of the last shed by the budget. -/
  shedOrd : Option Nat := none
  /-- R185: boundaries for which the next port to return has fitted in 90 %. -/
  fitRun : Nat := 0
  /-- R185: port whose return the run of boundaries within 90 % of BUDGET is counted for. -/
  fitPort : Option Nat := none
  /-- R185: OVER0. -/
  over0 : Bool := false
  /-- R466: plant absent, by die. -/
  absentA : Bool := false
  absentB : Bool := false
  /-- R466: VDD_LFE low, by die. -/
  lfeLowA : Bool := false
  lfeLowB : Bool := false
  /-- R222: watch log, newest first, at most 256. -/
  log : List WatchEntry := []
  /-- R222: SEQ of the latest entry. -/
  logSeq : Word := 0
  /-- R420: a loop has been powered since reset. -/
  powered : Bool := false
  deriving DecidableEq, Repr

/-! ### Digital audio ports (chapter 08) -/

/-- Digital audio port state, codes of R245. -/
inductive DapState where
  | disabled
  | ready
  | armed
  | run
  | muted
  deriving DecidableEq, Repr

/-- Channel status and user bits after power-on reset (R228). -/
def resetTx : List Byte := 1 :: List.replicate 23 0 ++ 1 :: List.replicate 71 0

/-- A frame in the slip buffer (R232): its samples, and when it ended, ns from the boundary that opened the Period in progress. -/
structure Pair where
  a   : Int
  b   : Int
  at_ : Int
  deriving DecidableEq, Repr

/-- A pending switch of one channel in one direction (R237). -/
inductive ZcPend where
  | gain (old : BitVec 8)
  | start
  | stop
  deriving DecidableEq, Repr

/-- A digital audio port (R224 to R247). -/
structure Dap where
  /-- R234: A0 to A5 with OP = 0. -/
  a0 : Word
  a1 : Word := 0x80808080#32
  a2 : Word := 0
  a3 : Word := 0
  a4 : Word := 0
  a5 : Word := 0
  state : DapState := .disabled
  /-- R245: mute cause. -/
  mute : BitVec 8 := 0
  /-- R237: a stop is pending. -/
  stopPend : Bool := false
  /-- R229: class, MEAS_HZ, RATE_REC, untrusted. -/
  cls : RateClass := .none
  measHz : Nat := 0
  rateRec : Nat := 0
  untr : Bool := false
  /-- R229: input qualified, and the rate and class at qualification. -/
  qual : Bool := false
  qualHz : Nat := 0
  /-- R229: the run of good frames toward qualification: the durations of 48 frames measured in its Periods, newest first, at most 200; the
  latest such duration. -/
  good : List Nat := []
  short : Option Nat := none
  /-- R248: RATE_REC is untrusted. -/
  recUntr : Bool := false
  /-- R231: acknowledge accepted. -/
  ack : Bool := false
  /-- R231: condition for resumption met; resumption is due at the next boundary. -/
  resume : Bool := false
  resumeDue : Bool := false
  /-- R245: slip drops, repeats. -/
  drops : BitVec 16 := 0
  repeats : BitVec 16 := 0
  /-- R245: parity errors, V frames, CRCC failures, clock losses. -/
  parity : BitVec 16 := 0
  vframes : BitVec 16 := 0
  crccs : BitVec 16 := 0
  losses : BitVec 16 := 0
  capDrop : Word := 0
  playUnd : Word := 0
  /-- R245: PIDX and sample of the start. -/
  startPidx : Word := 0
  startSample : BitVec 8 := 0
  events : BitVec 16 := 0
  eventPidx : Word := 0
  /-- R245: the last Period had a drop, an underrun. -/
  dropLast : Bool := false
  undLast : Bool := false
  /-- R244: CAP_WR, CAP_RD, PLAY_WR, PLAY_RD. -/
  capWr : Word := 0
  capRd : Word := 0
  playWr : Word := 0
  playRd : Word := 0
  /-- R237: pending switches, keyed channel + 2 for output, and the boundary counts at which they were armed. -/
  pend : Tab (Option ZcPend) := []
  pendOrd : Tab Nat := []
  /-- R237: switches that the Period in progress has been told of: sample of the switch, what, by a fade. -/
  sw : Tab (Option (Int × ZcPend × Bool)) := []
  /-- R237: keys that pass zero: a start has not switched yet, or a stop has. -/
  zeroed : Tab Bool := []
  /-- R237: fades still in progress: sample at which the fade began, what it is, gain before and after. -/
  fading : Tab (Option (Int × ZcPend × F32 × F32)) := []
  /-- R237: last sample of each key's signal. -/
  lastRaw : Tab Int := []
  /-- R237: the gain in force on a key whose pending gain change a start or a stop has replaced. -/
  gainHeld : Tab (Option (BitVec 8)) := []
  /-- R248: A1 before the changes of the boundary. -/
  a1Was : Word := 0x80808080#32
  /-- R228: transmit block of 96 bytes, a block that waits for its Z preamble, the block sent before, and the frame of the Period in progress
  from which the present block applies. -/
  txBlock : List Byte := resetTx
  txNext : Option (List Byte) := none
  txOld : List Byte := resetTx
  txFrom : Nat := 0
  /-- R246: receive table: accepted block, blocks accepted, PIDX. -/
  rxBlock : List Byte := []
  rxBlocks : Word := 0
  rxPidx : Word := 0
  /-- R239: input of the last Period as delivered to the Legs and to capture, by channel. -/
  lastIn : List (List Int) := []
  /-- R243: playback samples read for the next Period, by channel; R240: sums and output samples of the Period in progress, by channel. -/
  playNext : List (List Int) := []
  outSum : List (List Int) := []
  lastOut : List (List Int) := []
  /-- R226: PDM bits of each channel that the filter still reaches, newest first. -/
  pdmA : List Bool := []
  pdmB : List Bool := []
  /-- R227: last sample of each channel received. -/
  rxLast : Int × Int := (0, 0)
  /-- R229: frames of a 96 kHz input that the half-band filter still reaches, newest first; the next one is the second of a pair. -/
  half : List (Int × Int) := []
  halfOdd : Bool := false
  /-- R232: unused frames, oldest first; sample pair last taken; the input has just qualified; drops and repeats told in the Period. -/
  slipQ : List Pair := []
  slipLast : Int × Int := (0, 0)
  slipFresh : Bool := false
  rowDrops : Nat := 0
  rowRepeats : Nat := 0
  /-- R230: sample of the Period in progress from which a lost input is zero. -/
  zeroFrom : Option Nat := none
  /-- R238: sample of the first Period of a triggered start, while that Period runs. -/
  firstSample : Option Nat := none
  deriving DecidableEq, Repr

/-! ### Network ports and media (chapters 09, 10) -/

/-- Link state, codes of R277. -/
inductive LinkState where
  | disabled
  | an
  | train
  | up
  | retrain
  | down
  deriving DecidableEq, Repr

/-- A host ring (R260, R261, R262). -/
structure NetRing where
  a1 : Word := 0
  a2 : Word := 0
  a3 : Word := 0
  a4 : Word := 0
  a5 : Word := 0x00000800#32
  /-- R262: TAIL, HEAD. -/
  tail : Word := 0
  head : Word := 0
  /-- R281: frames completed since the last report; MONO of the first not reported. -/
  unrep : Nat := 0
  unrepFrom : Option Nat := none
  deriving DecidableEq, Repr

/-- Where a transmit frame comes from (R259, R311). -/
inductive TxSrc where
  | ring (t : Nat) (first count : Nat)
  /-- R273, R311: flow of Q5 and kind of message (0 Sync, 1 Announce, 2 Delay_Req, 3 Follow_Up, 4 Delay_Resp, 5 report). -/
  | flow (f kind : Nat)
  | media (stream : Nat)
  deriving DecidableEq, Repr

/-- A frame in a transmit queue. -/
structure TxFrame where
  src   : TxSrc
  bytes : List Byte
  /-- R311: virtual start and finish. -/
  start : Nat
  finish : Nat
  /-- R268: a transmit timestamp was asked for. -/
  ts    : Bool
  deriving DecidableEq, Repr

/-- A shaper (R307, R308). -/
structure Shaper where
  a1 : Word := 0
  a2 : Word := 0
  a3 : Word := 0
  a4 : Word := 0
  a5 : Word := 0x00000014#32
  /-- R308: tokens in units of 1/8,000,000 byte; last refill, ns of MONO. -/
  tc : Int := 0
  tp : Int := 0
  last : Nat := 0
  deriving DecidableEq, Repr

/-- A policer with its counters (R312 to R315). -/
structure Policer where
  a1 : Word := 0
  a2 : Word := 0
  a3 : Word := 0
  a4 : Word := 0
  a5 : Word := 0x0000020F#32
  tc : Int := 0
  tp : Int := 0
  last : Nat := 0
  green : Word := 0
  yellow : Word := 0
  red : Word := 0
  dropped : Word := 0
  deriving DecidableEq, Repr

/-- A frame on the wire (R259, R268). -/
structure OnWire where
  frame : TxFrame
  queue : Nat
  /-- R275: timebase at its SFD: seconds, ns, untrusted. -/
  sec   : Word
  ns    : Word
  untr  : Bool
  /-- R261, R268: the ring of the frame as it stood at its start, and whether that ring has not been enabled afresh since. -/
  ring  : NetRing := {}
  own   : Bool := true
  /-- R275: that instant in whole ns of the timebase. -/
  total : Nat := 0
  deriving DecidableEq, Repr

/-- A network port (R249 to R283). -/
structure Net where
  /-- R252: A1 to A5. -/
  a1 : Word := 0x000A00FF#32
  a2 : Word := 0x032002BC#32
  a3 : Word := 0x00500046#32
  a4 : Word := 0
  a5 : Word := 0
  /-- R253: link state. -/
  state : LinkState := .disabled
  rate : Option NetRate := none
  fec : FecUse := .none
  /-- R253: the rate aimed at by a retrain. -/
  target : Option NetRate := none
  /-- R253: the retrain in progress is a step up. -/
  stepUp : Bool := false
  /-- R258: MONO since which the port has not been UP. -/
  notUpFrom : Nat := 0
  /-- R274: the grandmaster heard on this port. -/
  ptpGm : Option Nat := none
  /-- R277: partner's ability. -/
  partner : BitVec 8 := 0
  /-- R253: boundary count since which the state stands; MONO of it. -/
  since : Nat := 0
  sinceMono : Nat := 0
  /-- R253: MONO at which the present negotiation or retrain started. -/
  anMono : Nat := 0
  /-- R253: boundary count until which step down is suppressed. -/
  suppress : Option Nat := none
  /-- R256: a step up waits for the partner. -/
  upWait : Bool := false
  /-- R255: boundary count of the last loss of block lock, uncorrected FEC codeword or FCS error. -/
  badOrd : Option Nat := none
  events : BitVec 16 := 0
  changed : Word := 0
  /-- R254: bytes (with 20 each) transmitted, received in this Period. -/
  txLoad : Nat := 0
  rxLoad : Nat := 0
  /-- R254: loads of past Periods in bytes, newest first, over the longest STEP_HOLD of 60 s. -/
  loads : List Nat := []
  /-- R273: PTP words A1 to A3. -/
  p1 : Word := 0x000047F1#32
  p2 : Word := 0x00808080#32
  p3 : Word := 0x00008080#32
  /-- R274: PTP active on this port. -/
  ptpActive : Bool := false
  /-- R274: boundary-clock port state is SLAVE. -/
  ptpSlave : Bool := false
  /-- R272: PAUSE in force until MONO. -/
  pauseTo : Option Nat := none
  pauseFrom : Nat := 0
  /-- R272: a later PAUSE whose frame has not ended: from and until MONO. -/
  pauseNext : Option (Nat × Nat) := none
  /-- R260: rings, RX r at r and TX t at 16 + t. -/
  rings : Tab NetRing := []
  /-- R265: steering rules: A1, A2, A3. -/
  rules : Tab (Word × Word × Word) := []
  /-- R278: live counters. -/
  ctr : Tab (BitVec 64) := []
  /-- R278: high word latched. -/
  ctrHi : Word := 0
  /-- R279: snapshot bank: counters and header (PIDX, ns, s, epoch). -/
  bank : Tab (BitVec 64) := []
  bankHdr : Word × Word × Word × Word := (0, 0, 0, 0)
  /-- R259: queues Q0 to Q7, oldest first. -/
  queues : Tab (List TxFrame) := []
  /-- R259: the frame on the wire. -/
  wire : Option OnWire := none
  /-- R305: window words A1, A2. -/
  w1 : Word := 0
  w2 : Word := 0x00000032#32
  /-- R307: shapers by queue. -/
  shapers : Tab Shaper := []
  /-- R311: Q5 weights by flow (defaults 0x40, 0x10, 0x10), v and f.last. -/
  weights : Tab Nat := []
  v : Nat := 0
  flast : Tab Nat := []
  /-- R92, R273: MONO of the latest instant on the schedule of each periodic message (0 Sync, 1 Announce, 2 Delay_Req). -/
  ptpMono : Tab Nat := []
  /-- R274: PTP messages sent: sync, announce, delay requests (the model's observation point). -/
  ptpSent : Nat := 0
  deriving DecidableEq, Repr

/-- Stream state, codes of R316. -/
inductive StreamState where
  | idle
  | armed
  | run
  | starved
  | lost
  deriving DecidableEq, Repr

/-- A media stream (R284 to R304, R316). -/
structure Stream where
  /-- R288: configured, and its 128-byte parameter block. -/
  conf : Bool := false
  block : List Byte := []
  state : StreamState := .idle
  /-- R292: armed starts and pauses, in the order of their acceptance. -/
  armed : List Armed := []
  /-- R301: samples placed, keyed by sample instant count of their slot at the stream's rate: one value a channel. -/
  slots : Tab (List Int) := []
  /-- R302, R303: OR of the call bits of the packets that filled the Period's slots, and those of the last of them, keyed by
  Period; bits held. -/
  calls : Tab (BitVec 8 × BitVec 8) := []
  held : BitVec 8 := 0
  /-- R316: ports whose copies filled slots, keyed by Period. -/
  usedBy : Tab (BitVec 2) := []
  /-- R294: consecutive wholly empty gather Periods. -/
  empty : Nat := 0
  /-- R316: copies used in the latest gather Period, sending. -/
  used0 : Bool := false
  used1 : Bool := false
  anyCall : Bool := false
  /-- R316: counters. -/
  n1 : BitVec 16 := 0
  n2 : BitVec 16 := 0
  n3 : BitVec 16 := 0
  n4 : BitVec 16 := 0
  n5 : BitVec 16 := 0
  /-- R298: data of the first Period of a 1 ms packet. -/
  part : List (List Int) := []
  partCall : BitVec 8 := 0
  /-- R92, R304: MONO of the latest instant on the schedule of an RX stream's reports. -/
  reportMono : Nat := 0
  deriving DecidableEq, Repr

/-- A packet formed at the emit cut-off that waits for its launch instant (R298). -/
structure Packet where
  stream : Nat
  port   : Nat
  queue  : Nat
  bytes  : List Byte
  ofs    : Nat
  /-- boundary count from which LAUNCH_OFS counts -/
  ord    : Nat
  /-- R91, R299: its launch instant passed while the launch-time queues were held. -/
  held   : Bool
  deriving DecidableEq, Repr

/-- A membership report that the firmware sends (R304): its port and stream, the type of its group record, group and source, the source of all
zero where any is meant, and the path's VLAN word. -/
structure Report where
  port   : Nat
  stream : Nat
  kind   : Nat
  v6     : Bool
  vlan   : Nat
  group  : List Byte
  src    : List Byte
  deriving DecidableEq, Repr

/-- Streams, packets, policers, maps (R284 to R316). -/
structure Media where
  rx : Tab Stream := []
  tx : Tab Stream := []
  /-- R298: packets that wait for their launch. -/
  packets : List Packet := []
  policers : Tab Policer := []
  /-- R313: DSCP map, PCP map. -/
  dscp : BitVec 128 := 0
  pcp : BitVec 16 := 0
  /-- R304: membership reports sent (stream, port, leave) since reset, newest first: the model's observation point. -/
  reports : List (Nat × Nat × Bool) := []
  /-- R304: reports formed and not yet queued in Q5. -/
  reportsDue : List Report := []
  deriving DecidableEq, Repr

/-! ### Imdal ring (chapter 11) -/

/-- Imdal link state, codes of R342. -/
inductive ImLink where
  | down
  | train
  | up
  deriving DecidableEq, Repr

/-- Ring state, codes of R342. -/
inductive RingState where
  | solo
  | joining
  | enrolled
  deriving DecidableEq, Repr

/-- A time word as it leaves a device (R328, R340). -/
structure RingWord where
  pidx     : Word
  /-- an armed jump in Periods, with the PIDX of its boundary -/
  jump     : Option (Int × Word)
  tai      : Bool
  state    : BitVec 2
  irqs     : BitVec 8
  hops     : Nat
  homeroom : BitVec 3
  deriving DecidableEq, Repr

/-- Membership and control (R323, R324, R420). -/
inductive ImControl where
  /-- a request for membership, to the Homeroom -/
  | request (homeroom : Option (BitVec 3))
  /-- the boundary PIDX that the Homeroom names, for these devices -/
  | named (boundary : Word) (devices : BitVec 8)
  /-- the acknowledgement of a boundary -/
  | ack (boundary : Word)
  /-- a departure -/
  | leave
  deriving DecidableEq, Repr

/-- What a link of the ring carries (R341), in its order of priority. -/
inductive ImMsg where
  | timeWord (w : RingWord)
  | trigger (pidx : Word) (sample : Nat)
  | record (r : RedRecord)
  | control (c : ImControl)
  | forward (from_ target : RingIx) (f : Forward)
  | answer (target : RingIx) (a : ForwardAnswer)
  deriving DecidableEq, Repr

/-- A block on a link (R341): its message, the part of it, counted from 0, and its bytes of content, at most 256. -/
structure ImBlock where
  msg   : ImMsg
  part  : Nat
  bytes : Nat
  deriving DecidableEq, Repr

/-- The blocks of one port of the ring (R341): those that wait, oldest first; the time at which the port is free, in 1/256 ns of MONO; and
the last 64 that have left, newest first (the model's observation point). -/
structure ImPort where
  queue : List ImBlock := []
  free  : Nat := 0
  out   : List ImBlock := []
  deriving DecidableEq, Repr

/-- A membership agreement (R324): the devices that join, the boundary count E, none while no name stands, and the count from which the
Homeroom looks for the whole segment to name a new one. -/
structure Join where
  devs : BitVec 8
  at_  : Option Nat
  wait : Option Nat
  deriving DecidableEq, Repr

/-- The Imdal ring as this device holds it (R317 to R345). -/
structure Imdal where
  /-- R318: own index, strap. -/
  index : BitVec 3 := 0
  state : RingState := .solo
  /-- R319: links E and W and the index at their far end. -/
  linkE : ImLink := .down
  linkW : ImLink := .down
  peerE : Option RingIx := none
  peerW : Option RingIx := none
  /-- R319: a partner drives the lanes. -/
  driveE : Bool := false
  driveW : Bool := false
  /-- R320, R342: devices ENROLLED in the segment. -/
  segment : BitVec 8 := 0
  /-- R327: Homeroom. -/
  homeroom : Option (BitVec 3) := none
  /-- R342: flags. -/
  wrapped : Bool := false
  split : Bool := false
  aligned : Bool := false
  dup : Bool := false
  unshared : Bool := false
  /-- R340: peers' IRQ bits. -/
  irqs : BitVec 8 := 0
  changed : Word := 0
  /-- R330: seam; none for no seam. -/
  seam : Option (BitVec 3) := none
  /-- R27, R330: the sides E and W carried reduction traffic when the Period in progress opened. -/
  lineE : Bool := false
  lineW : Bool := false
  /-- R335: seam to take at the next boundary, and MONO since which the link has been UP again. -/
  seamNext : Option (Option (BitVec 3)) := none
  /-- R335, R342: a link between two devices of the segment, at neither port of this one, that is not UP, by the device whose E port
  carries it. -/
  broken : Option (BitVec 3) := none
  upFrom : Option Nat := none
  /-- R328: offset from ring time, ps; link delays, ps. -/
  offsetPs : Int := 0
  delayE : Nat := 0
  delayW : Nat := 0
  /-- R342: late rounds, wraps, link downs, forwards served, bytes of the last first pass, its time. -/
  lates : Word := 0
  wraps : BitVec 16 := 0
  downs : BitVec 16 := 0
  served : Word := 0
  passBytes : Word := 0
  passNs : Word := 0
  /-- R323: consecutive aligned Periods. -/
  alignedRun : Nat := 0
  /-- R323: membership has been requested. -/
  asked : Bool := false
  /-- R324: membership agreements, oldest first. -/
  joins : List Join := []
  /-- R325: a departure takes effect at this boundary count. -/
  departAt : Option Nat := none
  /-- R325: boundary count at which it departed, with the segment and the seam of the rounds of earlier data. -/
  left : Option (Nat × BitVec 8 × Option (BitVec 3)) := none
  /-- R326: cut off at the next boundary. -/
  cutDue : Bool := false
  /-- R336: segments merge at this boundary count, with these devices. -/
  mergeAt : Option Nat := none
  mergeWith : BitVec 8 := 0
  mergeClash : List Nat := []
  /-- R324, R336: no boundary stands: the count from which the Homeroom looks for the whole segments. -/
  mergeWait : Option Nat := none
  /-- R328: a time word arrived since the last boundary: its hops, and whether on the W port. -/
  word : Option (Nat × Bool) := none
  /-- R323, R336: the lowest Homeroom of the time words heard, while they arrive; a word has arrived since the last boundary. -/
  heard : Option (BitVec 3) := none
  heardIn : Bool := false
  /-- R322, R323, R336: ENROLLED devices that can be reached. -/
  reach : BitVec 8 := 0
  /-- R342: the ring's links reach a device that is not ENROLLED. -/
  others : Bool := false
  /-- R335: seam of the whole ring, to which it returns. -/
  seamHome : Option (BitVec 3) := none
  /-- R328, R88: the Homeroom's time state, TAI flag and armed jump. -/
  hrState : BitVec 2 := 3
  hrTai : Bool := false
  /-- R117: ring numbers in use by peers, with their settings (kind, A1, A2, A3). -/
  peerGroups : Tab (BitVec 2 × Word × Word × Word) := []
  /-- R94: the last trigger point placed on the ring. -/
  trigOut : Option (Word × Nat) := none
  /-- R331: records sent for the latest data, side (0 E, 1 W) and record, newest first (the model's observation point). -/
  sent : List (Nat × RedRecord) := []
  /-- R341: the blocks of the ports E and W. -/
  portE : ImPort := {}
  portW : ImPort := {}
  deriving DecidableEq, Repr

/-! ### Tiles and the Timetable (chapter 12) -/

/-- Tile state, codes of R366. -/
inductive TileState where
  | test
  | working
  | substitute
  | out
  | retired
  deriving DecidableEq, Repr

/-- One tile (R352, R366). -/
structure Tile where
  state : TileState := .test
  /-- R352: has left TEST at least once since reset. -/
  leftTest : Bool := false
  catching : Bool := false
  /-- R347: clock step code. -/
  clock : BitVec 8 := 6
  /-- R353: cause of the last failure. -/
  cause : BitVec 8 := 0
  fails : BitVec 16 := 0
  corr : BitVec 16 := 0
  /-- R352: boundary count of the last failure; R356: MONO of it. -/
  failOrd : Option Nat := none
  failMono : Nat := 0
  /-- R26, R369: boundary count at which it began to catch up. -/
  catchOrd : Nat := 0
  deriving DecidableEq, Repr

/-- One entry of the Substitution log (R367). -/
structure SubstEntry where
  seq   : Word
  pidx  : Word
  tile  : BitVec 8
  sub   : BitVec 8
  cause : BitVec 8
  outcome : BitVec 8
  concealed : BitVec 16
  deriving DecidableEq, Repr

/-- A Timetable: Leg units and admission decisions by tile (R348, R351). -/
structure Timetable where
  legs : Tab Nat := []
  grps : Tab Nat := []
  deriving DecidableEq, Repr

/-- What a tile carries (R348, R349): charge, Leg units, shared decisions. -/
structure Load where
  charge : Nat := 0
  legs   : Nat := 0
  shared : Nat := 0
  deriving DecidableEq, Repr

/-- Tiles, Timetable, member (R346 to R369). -/
structure Tiles where
  tile : Tab Tile := []
  tt : Timetable := {}
  /-- R351, R365: the Timetable in force at the latest boundary, and what each tile carries under it. -/
  shown : Timetable := {}
  loads : Tab Load := []
  /-- R351: TT_SERIAL, and PIDX at which it took effect. -/
  serial : Word := 0
  ttPidx : Word := 0
  /-- R351: tile states and clocks of the latest Timetable. -/
  ttLast : Tab (TileState × BitVec 8) := []
  /-- R357: a repack to take effect at the next boundary, with the Wings that it leaves out. -/
  next : Option (List Nat) := none
  /-- R357: Wings that hold work and from which every vote other than SELF has been withdrawn. -/
  evict : List Nat := []
  /-- R352: tiles that have passed their self-test and leave TEST at the next boundary. -/
  passed : List Nat := []
  /-- R352: tiles that have failed their self-test and are RETIRED from the next boundary. -/
  failedTest : List Nat := []
  /-- R361: fall-Period Timetable in force for this Period. -/
  fallPeriod : Bool := false
  /-- R357: a repack is due. -/
  repackDue : Bool := false
  /-- R360: Wings of the member presented. -/
  wings : Nat := 1
  /-- R12, R360: member to present at the next boundary. -/
  nextWings : Option Nat := none
  /-- R413: instant (MONO) from which a step up waits 20 µs. -/
  lostAt : Nat := 0
  /-- R360: boundaries for which the next member's requirement has been met by proven tiles. -/
  riseRun : Nat := 0
  /-- R413: STEPPING. -/
  stepping : Bool := true
  /-- R413: boundary count of the last step up. -/
  stepOrd : Option Nat := none
  /-- R413: MONO at which the last tile first left TEST. -/
  testedAt : Option Nat := none
  /-- R368: SUBSTS, LOST. -/
  substs : BitVec 8 := 0
  lost : BitVec 8 := 0
  /-- R366: Substitutions since reset. -/
  total : Word := 0
  /-- R367: Substitution log, newest first, at most 64; SEQ. -/
  log : List SubstEntry := []
  logSeq : Word := 0
  /-- R26: redo in progress: failed tile and its Substitute. -/
  redo : Tab Nat := []
  /-- R356: units (Leg numbers) to place again at the next boundary. -/
  replace : List Nat := []
  /-- R368: POOL and HEALTHY read zero until the first boundary after AON is ready. -/
  shownYet : Bool := false
  deriving DecidableEq, Repr

/-! ### Memory and matrix (chapter 13) -/

/-- A Hall Pass (R388). -/
structure HallPass where
  target : Nat
  /-- R388: beats from the grant. -/
  beats  : Nat := 0
  /-- R389: MONO of the last beat. -/
  beatMono : Nat := 0
  /-- R389: broken; the next access under it returns LOCKERR. -/
  broken : Bool
  deriving DecidableEq, Repr

/-- A master's entry of the matrix table (R384). -/
structure Master where
  decerr : BitVec 16 := 0
  slverr : BitVec 16 := 0
  offerr : BitVec 16 := 0
  timeout : BitVec 16 := 0
  broken : BitVec 16 := 0
  most : BitVec 8 := 0
  /-- R385, R389: LOCKERR responses (the manual shows no count of them: the model's observation point). -/
  lockerr : BitVec 16 := 0
  /-- R384: progress of the Pantry sweep, entry 9. -/
  progress : BitVec 8 := 0
  deriving DecidableEq, Repr

/-- What has been written of a canceller slot since PANTRY was powered up (R373, R380): records of the filter and of the checkpoint, and whether
history records, the control record and the checkpoint control record have been. -/
structure SlotUse where
  w     : Nat := 0
  check : Nat := 0
  hist  : Bool := false
  ctl   : Bool := false
  cctl  : Bool := false
  deriving DecidableEq, Repr

/-- One entry of the memory error log (R383). -/
structure MemEntry where
  seq  : Word
  pidx : Word
  src  : BitVec 8
  flags : BitVec 8
  owner : BitVec 16
  addr : Word
  deriving DecidableEq, Repr

/-- Memories, protection, matrix (R370 to R390). -/
structure Memory where
  /-- R49: MGMT SRAM bytes written by the host or by commands; unlisted bytes read zero (R393). -/
  sram : List Host.Cell := []
  /-- R371: Pantry bytes, PANTRY0 from 0 and PANTRY1 from 2^31; unlisted bytes read zero (R380). -/
  pantry : List Host.Cell := []
  /-- R375: words (byte address / 4) of MGMT SRAM, of Pantry that read uncorrectable. -/
  badSram : List Nat := []
  badPantry : List Nat := []
  /-- R381: ECC_CORR. -/
  corr : BitVec 16 := 0
  corrSrc : BitVec 8 := 0
  scrubH : BitVec 8 := 0x18
  /-- R382: ECC_UNCORR. -/
  uncorr : BitVec 16 := 0
  uncorrSrc : BitVec 8 := 0
  mirrorLost : Bool := false
  /-- R378: next byte address of the sweep of each stack and of MGMT SRAM. -/
  scrub0 : Nat := 0
  scrub1 : Nat := 0
  scrubS : Nat := 0
  /-- R383: memory error log, newest first, at most 64; SEQ. -/
  log : List MemEntry := []
  logSeq : Word := 0
  /-- R384: matrix table entries by master code. -/
  masters : Tab Master := []
  /-- R388: Hall Passes by master. -/
  locks : Tab (Option HallPass) := []
  /-- R387: slices in force, by 11 * master + target (default 2). -/
  slices : Tab Nat := []
  /-- R481: flash size in bytes read by the boot loader; none before any read. -/
  flashSize : Option Nat := none
  /-- R380: nothing but zero has been written outside the host area since PANTRY was powered up; canceller slots written since, by Leg. -/
  fresh : Bool := false
  slots : Tab SlotUse := []
  deriving DecidableEq, Repr

/-! ### Power (chapter 14) -/

/-- Domain state, codes of R407. -/
inductive DomState where
  | off
  | recess
  | proofing
  | on
  deriving DecidableEq, Repr

/-- A transition in progress (R400, R403). -/
inductive Transit where
  | none
  /-- rising to a state; the power-up step in progress, 1 to 4 -/
  | rise (dst : DomState) (step : Nat)
  /-- entering a lower state -/
  | enter (dst : DomState)
  deriving DecidableEq, Repr

/-- One power domain (R391 to R408). -/
structure Domain where
  state : DomState := .off
  transit : Transit := .none
  /-- R399: boundary count at which the last ON vote was withdrawn. -/
  withdrawn : Option Nat := none
  /-- R399: an ON vote stood at the last choice. -/
  voted : Bool := false
  /-- R402: DEEPEST. -/
  deepest : BitVec 2 := 0
  /-- R92: MONO at entry to RECESS or OFF. -/
  entryMono : Nat := 0
  /-- R400: MONO at which it became ON. -/
  onMono : Nat := 0
  /-- R403: held OFF after a failed power-up. -/
  failed : Bool := false
  /-- R393: contents were lost in OFF and wait for restoration. -/
  lost : Bool := false
  deriving DecidableEq, Repr

/-- Domains and votes (R391 to R410). -/
structure Power where
  dom : Tab Domain := []
  /-- R397: PWR_VOTE. -/
  host : BitVec 22 := 0x3FFFFF
  /-- R397: host votes in force (a cleared bit is withdrawn at the next boundary). -/
  hostEff : BitVec 22 := 0x3FFFFF
  /-- R70: SHELF_VOTE. -/
  shelf : BitVec 22 := 1
  shelfEff : BitVec 22 := 1
  /-- R394: FW votes. -/
  fw : BitVec 22 := 0
  /-- R394: PEER votes by peer index. -/
  peer : Tab (BitVec 22) := []
  /-- R395: SELF ON votes in force; SELF PROOFING votes on banks. -/
  self : BitVec 22 := 0
  proof : BitVec 6 := 0
  /-- R401: LTOL as written, and in force. -/
  ltol : Word := 0x14000000#32
  ltolEff : Word := 0x14000000#32
  /-- R407: CFG_LOST. -/
  cfgLost : Bool := false
  /-- R408: WAKE_SRC. -/
  wakeDom : BitVec 5 := 0
  wakeSrc : BitVec 4 := 0
  wakes : BitVec 16 := 0
  /-- R408: the power-up after power-on reset is still in progress and is no wake. -/
  first : BitVec 22 := 0x3FFFFE
  changed : Word := 0
  /-- R459: DOMAIN_FAIL is seen in dom; FAIL_DOM. -/
  failDom : BitVec 5 := 0x1F
  deriving DecidableEq, Repr

/-! ### Start-up, removal, Roll Call, identity (chapters 00, 15, 17) -/

/-- Identity, boot, member pin, hot swap, thermal, Roll Call (R411 to R428, R446 to R449, R478). -/
structure Boot where
  /-- R446: DEV_ID.PART, fuse. -/
  part : BitVec 16 := 0x7740
  /-- R446: HUB_REV, LFE_REV, PKG_REV, fuse. -/
  hubRev : BitVec 8 := 0
  lfeRev : BitVec 8 := 0
  pkgRev : BitVec 8 := 0
  /-- R411: SSP_ADDR, BOOT_SRC, MEMBER_PIN, TEST_N straps. -/
  sspAddr : BitVec 3 := 0
  bootSrc : Bool := false
  memberPin : BitVec 2 := 0
  testN : Bool := true
  /-- R465: PORST_N is low. -/
  held : Bool := false
  /-- R417: BOOT as far as the loader has come: 0 AON only, 1 waiting for the host, 2 loading, 3 authenticating, 4 RUN, 5 FAILED,
  6 management restart. -/
  boot : BitVec 4 := 0
  /-- R417, R420: BOOT of a removal, 7 removing or 8 removed; 0 with none. -/
  removal : BitVec 4 := 0
  /-- R417: FAIL, SLOT, HOSTLOAD, RESTARTS. -/
  fail : BitVec 4 := 0
  slot : Bool := false
  hostLoad : Bool := false
  restarts : BitVec 8 := 0
  /-- R414: FW_GO written: the image given by the host is authenticated, and the loader no longer waits. -/
  going : Bool := false
  /-- R416: the image has passed its checks and the firmware starts. -/
  passed : Bool := false
  /-- R418: the image being authenticated, or running, was given by the host. -/
  fromHost : Bool := false
  /-- R414: slot being tried. -/
  trySlot : Bool := false
  /-- R425: image VERSION. -/
  version : Word := 0
  /-- R418: boundaries without acknowledgement; a restart is ordered. -/
  unacked : Nat := 0
  restartDue : Bool := false
  /-- R425: the next automatic block follows a management restart. -/
  restarted : Bool := false
  /-- R420: HOTSWAP_REQ_N asserted, HOTSWAP_RDY_N asserted. -/
  req : Bool := false
  rdy : Bool := false
  /-- R420: t_r as MONO, boundary counts of B1 and B2; REQ was released before RDY. -/
  reqMono : Nat := 0
  b1 : Option Nat := none
  b2 : Option Nat := none
  released : Bool := false
  /-- R421: a removal waits to be recorded by the firmware. -/
  unrecorded : Bool := false
  /-- R478: thermal removal, THERM_WARN, THERM_CRIT, TJ_MAX. -/
  thermOff : Bool := false
  warn : Bool := false
  crit : Bool := false
  tjMax : Int := 25
  tbMax : Int := 25
  /-- R424: PENDING, AUTO, COUNT. -/
  rcPending : Bool := false
  rcAuto : Bool := false
  rcCount : BitVec 16 := 0
  /-- R423: boundary count at which the capture falls, whether automatic. -/
  rcAt : Option Nat := none
  rcAtAuto : Bool := false
  /-- R425: block captured and not yet complete; block as the host reads it. -/
  rcBlock : List Byte := []
  rcShown : List Byte := []
  rcPidx : Word := 0
  rcEpoch : Word := 0
  deriving DecidableEq, Repr

/-! ### Trace and counters (chapter 16) -/

/-- A trace record (R430). -/
structure TraceRec where
  cls  : BitVec 8
  untr : Bool
  gap  : Bool
  seq  : BitVec 16
  pidx : Word
  ns   : BitVec 30
  pay  : Word
  /-- R440: bound for the port, for the ring. -/
  onPort : Bool
  onRing : Bool
  deriving DecidableEq, Repr

/-- Trace and event counters, snapshots (R279, R429 to R440, R458). -/
structure Trace where
  /-- R436: as written, and in force. -/
  portEn : Bool := false
  ringEn : Bool := false
  ringSz : BitVec 3 := 2
  classes : BitVec 8 := 0
  /-- R435: RING_EN as in force. -/
  enAct : Bool := false
  portAct : Bool := false
  ringAct : Bool := false
  szAct : BitVec 3 := 2
  clsAct : BitVec 8 := 0
  /-- R437: CONFLICT, UNTR, WR_IDX. -/
  conflict : Bool := false
  untr : Bool := false
  wrIdx : BitVec 22 := 0
  /-- R430: next SEQ; records were lost since the previous record. -/
  seq : BitVec 16 := 0
  gap : Bool := false
  /-- R434: the FIFO, oldest first, at most 256. -/
  fifo : List TraceRec := []
  /-- R432: records sent on the port since reset, newest first, at most 256: the model's observation point. -/
  port : List TraceRec := []
  /-- R438: event counters. -/
  ctr : Tab (BitVec 48) := []
  ctrHi : Word := 0
  /-- R439: snapshot bank and header (PIDX, ns, epoch). -/
  bank : Tab (BitVec 48) := []
  bankHdr : Word × Word × Word := (0, 0, 0)
  /-- R279: SNAP_EPOCH. -/
  snapEpoch : Word := 0
  /-- R279: banks being copied (bit 0 NET0, 1 NET1, 2 event counters), banks held for the next copy. -/
  copying : BitVec 3 := 0
  heldBanks : BitVec 3 := 0
  deriving DecidableEq, Repr

/-! ### Shelf Serial Port (chapter 02) -/

/-- Shelf Serial Port (R68 to R70, R405). -/
structure Shelf where
  /-- R68: pointer. -/
  ptr : BitVec 8 := 0
  /-- R69: the reduced status block as it stood at the last boundary. -/
  block : List Byte := []
  /-- R68: bytes of the last read transaction; last address or byte acknowledged (the model's observation point). -/
  out : List Byte := []
  ack : Bool := false
  /-- R405: SCL held low while MGMT wakes. -/
  stretch : Bool := false
  /-- R405: MGMT has woken and the block is not yet rebuilt. -/
  stale : Bool := false
  deriving DecidableEq, Repr

end Sys2Proof.Machine
end

