-- ==== Sys2Proof/Machine/State.lean ====
section
/-! DEFINITION. The state of the block, the state after reset, and the reasons for which a step could stop. -/

namespace Sys2Proof.Machine

/-- The whole device: one part a chapter of the spec, the model's own counter of free values, and the queue of commands
that wait. Every field's default value is its value at reset. -/
structure State where
  /-- Chapter 03: timebase, captures, references, trigger. -/
  time   : Time := {}
  /-- Chapters 02, 17: host bus, window and interrupt registers. -/
  hbi    : Hbi := {}
  /-- Chapter 02: mailbox, rings, acceptance, reject log. -/
  cmd    : CmdPath := {}
  /-- Chapters 01, 04: Legs, groups, pipeline. -/
  mix    : Mix := {}
  /-- Chapter 05: echo cancellers by Leg (R137). -/
  echo   : Tab Echo := []
  /-- Chapter 05: voice activity by Leg (R152). -/
  vad    : Tab Vad := []
  /-- Chapter 05: hum cancellers by line port (R155). -/
  hum    : Tab Hum := []
  /-- Chapters 06, 07: line ports and watch. -/
  line   : Line := {}
  /-- Chapter 08: digital audio ports (R224). -/
  dap    : Tab Dap := []
  /-- Chapter 09: network ports (R249). -/
  net    : Tab Net := []
  /-- Chapter 10: streams, policers. -/
  media  : Media := {}
  /-- Chapter 11: Imdal ring. -/
  imdal  : Imdal := {}
  /-- Chapter 12: tiles, Timetable, member. -/
  tiles  : Tiles := {}
  /-- Chapter 13: memories, matrix. -/
  mem    : Memory := {}
  /-- Chapter 14: power domains. -/
  power  : Power := {}
  /-- Chapters 00, 15, 17: identity, start-up, removal, Roll Call. -/
  boot   : Boot := {}
  /-- Chapter 16: trace, counters. -/
  trace  : Trace := {}
  /-- Chapter 02: Shelf Serial Port. -/
  shelf  : Shelf := {}
  /-- The MODEL's own field: how many free values have been drawn; no rule of the spec names it. -/
  draw   : Nat := 0
  /-- R161, R189, R220, R221, R245, R316, R342, R366, R384: the copies that the status tables in MGMT SRAM show: line ports
  and watch as of the last boundary, and the parts rewritten every 16 Periods. -/
  shownPidx   : Word := 0
  /-- R220: boundary count at which the tables of every boundary were last written. -/
  shownOrd    : Nat := 0
  shownLine   : Line := {}
  shownDap    : Tab Dap := []
  shownImdal  : Imdal := {}
  shown16Pidx : Word := 0
  shownEcho   : Tab Echo := []
  shownVad    : Tab Vad := []
  shownHum    : Tab Hum := []
  shownMedia  : Media := {}
  shownTiles  : Tiles := {}
  shownMasters : Tab Master := []
  /-- R221: power domains as of the last boundary. -/
  shownPower  : Power := {}
  /-- R366: Legs and groups, domains that were ON, and whether the timebase was UNTRUSTED, at the 16-Period rewrite. -/
  shownMix    : MixView := {}
  shown16On   : BitVec 22 := 1
  shown16Untr : Bool := false
  /-- R393, R418: the tables have been written since MGMT SRAM was last lost. -/
  shownOk     : Bool := false
  /-- The commands that wait, first in first out. -/
  pending : List Instr := []
  deriving DecidableEq, Repr

/-- The state right after reset: AON has become ready after power-on reset (R441), every domain but AON is OFF and
voted ON by the host (R397, R407: the rows DOMAIN_WAKE start their rise, R412), every object is at its reset values, nothing waits. -/
def State.reset : State := {}

/-- Reasons for which a step could fault. NO COMMAND OF THIS BLOCK RAISES ONE: every access to an address that does not
exist has an answer in the spec (R38, R47, R385). The constructor is kept so that the type names what a fault would be. -/
inductive Fault where
  /-- An access outside the machine; raised by nobody (safe: nothing stops). -/
  | outside
  deriving DecidableEq, Repr

/-- Reasons for which a step could refuse a command. -/
inductive Refusal where
  /-- A command that this model gives no meaning; raised by an arm of exec and by nothing else (safe: the run stops). -/
  | notModelled (mnemonic : String)
  deriving DecidableEq, Repr

end Sys2Proof.Machine
end

