-- ==== Sys2Proof/Machine/Upd.lean ====
section
/-! DEFINITION. The updates of one part of the state each: every operation of the model changes the state through them. -/

namespace Sys2Proof.Machine

/-- Change of the part time alone. -/
def State.onTime (s : State) (f : Time → Time) : State := { s with time := f s.time }

/-- Change of the part hbi alone. -/
def State.onHbi (s : State) (f : Hbi → Hbi) : State := { s with hbi := f s.hbi }

/-- Change of the part cmd alone. -/
def State.onCmd (s : State) (f : CmdPath → CmdPath) : State := { s with cmd := f s.cmd }

/-- Change of the part mix alone. -/
def State.onMix (s : State) (f : Mix → Mix) : State := { s with mix := f s.mix }

/-- Change of the part echo alone. -/
def State.onEcho (s : State) (f : Tab Echo → Tab Echo) : State := { s with echo := f s.echo }

/-- Change of the part vad alone. -/
def State.onVad (s : State) (f : Tab Vad → Tab Vad) : State := { s with vad := f s.vad }

/-- Change of the part hum alone. -/
def State.onHum (s : State) (f : Tab Hum → Tab Hum) : State := { s with hum := f s.hum }

/-- Change of the part line alone. -/
def State.onLine (s : State) (f : Line → Line) : State := { s with line := f s.line }

/-- Change of the part dap alone. -/
def State.onDap (s : State) (f : Tab Dap → Tab Dap) : State := { s with dap := f s.dap }

/-- Change of the part net alone. -/
def State.onNet (s : State) (f : Tab Net → Tab Net) : State := { s with net := f s.net }

/-- Change of the part media alone. -/
def State.onMedia (s : State) (f : Media → Media) : State := { s with media := f s.media }

/-- Change of the part imdal alone. -/
def State.onImdal (s : State) (f : Imdal → Imdal) : State := { s with imdal := f s.imdal }

/-- Change of the part tiles alone. -/
def State.onTiles (s : State) (f : Tiles → Tiles) : State := { s with tiles := f s.tiles }

/-- Change of the part mem alone. -/
def State.onMem (s : State) (f : Memory → Memory) : State := { s with mem := f s.mem }

/-- Change of the part power alone. -/
def State.onPower (s : State) (f : Power → Power) : State := { s with power := f s.power }

/-- Change of the part boot alone. -/
def State.onBoot (s : State) (f : Boot → Boot) : State := { s with boot := f s.boot }

/-- Change of the part trace alone. -/
def State.onTrace (s : State) (f : Trace → Trace) : State := { s with trace := f s.trace }

/-- Change of the part shelf alone. -/
def State.onShelf (s : State) (f : Shelf → Shelf) : State := { s with shelf := f s.shelf }

/-- Change of the number of free values drawn alone. -/
def State.onDraw (s : State) (f : Nat → Nat) : State := { s with draw := f s.draw }

end Sys2Proof.Machine
end

