-- ==== Sys2Proof/Machine/Objects.lean ====
section
/-! DEFINITION. The objects of the tables: what an unlisted index holds (the reset words of its chapter), and the reads
and updates of one object. -/

namespace Sys2Proof.Machine

/-- Reset word of A3 (R133). -/
def legA3Reset (leg : Nat) : Word :=
  if leg < 48 then 0x6000000D#32 else if leg < 72 then 0x20000000#32 else if leg < 80 then 0x2000000D#32 else 0#32

/-- The reset word of every key (R110). -/
def keyReset : Word := 0x00800000#32

/-- A Leg at its reset words (R97, R106, R110, R133): line and digital audio Legs are bound, network Legs are not. -/
def legCfg0 (leg : Nat) : LegCfg :=
  { bound := decide (leg < 80), a1 := 0#32, a2 := 0x00000080#32, a3 := legA3Reset leg, listen := [], talk := [] }

/-- Leg state after reset (R101). -/
def legSt0 (leg : Nat) : LegSt :=
  { state := if leg < 80 then .bound else .free, armed := none, leftActive := none }

/-- A digital audio port at its reset words (R234): PORT, CLK_MASTER for PDM ports, ZC_TO 0x0A. -/
def dap0 (p : Nat) : Dap := { a0 := pack [(0, p), (6, if p < 12 then 1 else 0), (16, 0x0A)] }

/-- Reset DEEPEST (R402): ON for AON, RECESS for MGMT, HUB and PANTRY, OFF for the others. -/
def deepest0 (d : Nat) : BitVec 2 := if d = 0 then 3 else if d ≤ 3 then 1 else 0

/-- A domain after reset (R391, R402): AON is ON, every other domain is OFF. -/
def domain0 (d : Nat) : Domain := { state := if d = 0 then .on else .off, deepest := deepest0 d }

/-- Reset weight of a Q5 flow (R311). -/
def weight0 (f : Nat) : Nat := if f = 0 then 0x40 else 0x10

/-- A tile after reset: in TEST (R352). -/
def tile0 : Tile := {}

/-! Reads of one object. -/

def State.legCfg (s : State) (l : Nat) : LegCfg := tget (legCfg0 l) s.mix.legs l
def State.legSt (s : State) (l : Nat) : LegSt := tget (legSt0 l) s.mix.st l
def State.grp (s : State) (g : Nat) : GroupCfg := tget {} s.mix.groups g
def State.port (s : State) (p : Nat) : PortSt := tget {} s.line.port p
def State.portCfg (s : State) (p : Nat) : PortCfg := tget {} s.line.cfg p
def State.watch (s : State) (p : Nat) : Watch := tget {} s.line.watch p
def State.sounding (s : State) (p : Nat) : Sounding := tget {} s.line.sound p
def State.bank (s : State) (b : Nat) : Bank := tget {} s.line.bank b
def State.dapP (s : State) (p : Nat) : Dap := tget (dap0 p) s.dap p
def State.netP (s : State) (p : Nat) : Net := tget {} s.net p
def State.tile (s : State) (t : Nat) : Tile := tget tile0 s.tiles.tile t
def State.dom (s : State) (d : Nat) : Domain := tget (domain0 d) s.power.dom d
def State.echoL (s : State) (l : Nat) : Echo := tget {} s.echo l
def State.vadL (s : State) (l : Nat) : Vad := tget {} s.vad l
def State.humL (s : State) (l : Nat) : Hum := tget {} s.hum l
def State.rxS (s : State) (n : Nat) : Stream := tget {} s.media.rx n
def State.txS (s : State) (n : Nat) : Stream := tget {} s.media.tx n

/-! Updates of one object. -/

def State.onLegCfg (s : State) (l : Nat) (f : LegCfg → LegCfg) : State :=
  s.onMix fun m => { m with legs := tmod (legCfg0 l) l f m.legs }
def State.onLegSt (s : State) (l : Nat) (f : LegSt → LegSt) : State :=
  s.onMix fun m => { m with st := tmod (legSt0 l) l f m.st }
def State.onGrp (s : State) (g : Nat) (f : GroupCfg → GroupCfg) : State :=
  s.onMix fun m => { m with groups := tmod {} g f m.groups }
def State.onPort (s : State) (p : Nat) (f : PortSt → PortSt) : State :=
  s.onLine fun l => { l with port := tmod {} p f l.port }
def State.onPortCfg (s : State) (p : Nat) (f : PortCfg → PortCfg) : State :=
  s.onLine fun l => { l with cfg := tmod {} p f l.cfg }
def State.onWatch (s : State) (p : Nat) (f : Watch → Watch) : State :=
  s.onLine fun l => { l with watch := tmod {} p f l.watch }
def State.onSounding (s : State) (p : Nat) (f : Sounding → Sounding) : State :=
  s.onLine fun l => { l with sound := tmod {} p f l.sound }
def State.onBank (s : State) (b : Nat) (f : Bank → Bank) : State :=
  s.onLine fun l => { l with bank := tmod {} b f l.bank }
def State.onDapP (s : State) (p : Nat) (f : Dap → Dap) : State := s.onDap (tmod (dap0 p) p f)
def State.onNetP (s : State) (p : Nat) (f : Net → Net) : State := s.onNet (tmod {} p f)
def State.onTile (s : State) (t : Nat) (f : Tile → Tile) : State :=
  s.onTiles fun x => { x with tile := tmod tile0 t f x.tile }
def State.onDom (s : State) (d : Nat) (f : Domain → Domain) : State :=
  s.onPower fun x => { x with dom := tmod (domain0 d) d f x.dom }
def State.onEchoL (s : State) (l : Nat) (f : Echo → Echo) : State := s.onEcho (tmod {} l f)
def State.onVadL (s : State) (l : Nat) (f : Vad → Vad) : State := s.onVad (tmod {} l f)
def State.onHumL (s : State) (l : Nat) (f : Hum → Hum) : State := s.onHum (tmod {} l f)
def State.onRxS (s : State) (n : Nat) (f : Stream → Stream) : State :=
  s.onMedia fun m => { m with rx := tmod {} n f m.rx }
def State.onTxS (s : State) (n : Nat) (f : Stream → Stream) : State :=
  s.onMedia fun m => { m with tx := tmod {} n f m.tx }

/-- Folding an update over indices. -/
def State.forAll (s : State) (ks : List Nat) (f : State → Nat → State) : State := ks.foldl f s

end Sys2Proof.Machine
end

