-- ==== Sys2Proof/Machine/Clock.lean ====
section
/-! DEFINITION. The timebase as it runs (R71 to R77): ticks, the Period in progress, captures of it. -/

namespace Sys2Proof.Machine

/-- n AON ticks at the increment in force (R71, R73): timebase and MONO each gain n times TIME_INCR. -/
def Time.ticksOn (n : Nat) (t : Time) : Time :=
  let a := t.ns * 2 ^ 24 + t.frac.toNat + n * t.incr.toNat
  let m := t.monoFrac.toNat + n * t.incr.toNat
  { t with
    ns := a / 2 ^ 24 % 1000000000
    frac := BitVec.ofNat 24 a
    sec := t.sec + BitVec.ofNat 48 (a / 2 ^ 24 / 1000000000)
    mono := t.mono + BitVec.ofNat 64 (m / 2 ^ 24)
    monoFrac := BitVec.ofNat 24 m
    ticks := t.ticks + n
    slewed := if t.slew then t.slewed + n * ((t.incr.toNat : Int) - t.slewBase.toNat) else t.slewed
    incrSum := t.incrSum + n * t.incr.toNat }

/-- Nanoseconds into the Period in progress (R74). -/
def Time.inPeriod (t : Time) : Nat := t.ns % 500000

/-- Ticks that bring the timebase to at least the given nanosecond of the Period in progress. -/
def Time.ticksTo (t : Time) (at_ : Nat) : Nat :=
  if at_ ≤ t.inPeriod then 0
  else ((at_ - t.inPeriod) * 2 ^ 24 - t.frac.toNat + (t.incr.toNat - 1)) / t.incr.toNat

/-- The timebase advanced to an instant of the Period in progress; where it stands at or after it, nothing happens. -/
def Time.advanceTo (t : Time) (at_ : Nat) : Time := t.ticksOn (t.ticksTo at_)

/-- Whole timebase in nanoseconds. -/
def Time.total (t : Time) : Nat := t.sec.toNat * 1000000000 + t.ns

/-- PIDX that the timebase gives (R74). -/
def Time.pidxOf (t : Time) : Word := w32 (t.sec.toNat * 2000 + t.ns / 500000)

/-- Media clock count of R77. -/
def Time.mediaClock (t : Time) : Word := w32 (t.total * 48 / 1000000)

/-- Level of WCLK_OUT (R93): 48 kHz, high in the first half of each sample period; low where it is disabled. -/
def Time.wclkOut (t : Time) : Bool := t.wclkOutEn && decide (t.total * 48 % 1000000 < 500000)

/-- Level of PPS_OUT (R93): high for 10 ms from each whole second of the timebase; low where it is disabled, in UNTRUSTED and in the
Period in which a jump applies. A second that begins while the output is held or disabled gives no pulse (DESIGN CHOICE, log 106). -/
def Time.ppsOut (t : Time) : Bool :=
  t.ppsOutEn && t.state ≠ 2 && !t.ppsHeld && decide (t.ns < 10000000) && decide (t.ppsFrom ≤ t.sec.toNat * 1000000000)

/-- Level of START_OUT (R96): high for one 48 kHz sample period from the trigger point. -/
def Time.startLevel (t : Time) : Bool :=
  match t.startMono with
  | some m => decide (t.mono.toNat * 48 < m * 48 + 1000000)
  | none => false

/-- The timebase is UNTRUSTED (R82). -/
def State.untrusted (s : State) : Bool := s.time.state = 2

/-- The PIDX of the Period in progress as the device reports it. -/
def State.pidx (s : State) : Word := s.time.pidx

/-- PIDX at which the boundary with a given count falls, in the numbering in force (R89). -/
def State.pidxAt (s : State) (ord : Nat) : Word := s.time.pidx + w32 ord - w32 s.time.ord

/-- Boundary count of the next boundary. -/
def State.nextOrd (s : State) : Nat := s.time.ord + 1

/-- Boundary count at which a change accepted now takes effect (R57): the next boundary at or before P+450 µs, else the
one after it. -/
def State.effectOrd (s : State) : Nat := if s.time.inPeriod ≤ 450000 then s.time.ord + 1 else s.time.ord + 2

/-- Boundary count named by a PIDX of a command (R58, R75), zero meaning the boundary that R57 allows; none where the
named boundary is earlier than that one. -/
def State.namedOrd (s : State) (named : Word) : Option Nat :=
  if named = 0 then some s.effectOrd
  else
    let d := (named - s.time.pidx).toNat
    if inFuture named s.time.pidx && s.effectOrd ≤ s.time.ord + d then some (s.time.ord + d) else none

end Sys2Proof.Machine
end

