-- ==== Sys2Proof/Machine/Mem.lean ====
section
/-! DEFINITION. Byte memories (MGMT SRAM of R49, Pantry of R371) as lists of cells in one canonical form; a byte that is
not listed reads zero (R380, R393). -/

namespace Sys2Proof.Machine

/-- What an unlisted byte reads as: zero, under R380 for Pantry and R393 for MGMT SRAM. -/
def Memory.blank : Byte := 0

/-- Read of one byte. -/
def Memory.readByte (m : List Host.Cell) (a : Nat) : Byte := tget Memory.blank m a

/-- Write of one byte; writing zero removes the cell. -/
def Memory.writeByte (a : Nat) (b : Byte) (m : List Host.Cell) : List Host.Cell := tput Memory.blank a b m

/-- The n bytes from an address. -/
def Memory.readBytes (m : List Host.Cell) (a n : Nat) : List Byte := (List.range n).map fun i => Memory.readByte m (a + i)

/-- Writing bytes from an address upward. -/
def Memory.writeBytes : Nat → List Byte → List Host.Cell → List Host.Cell
  | _, [], m => m
  | a, b :: bs, m => Memory.writeBytes (a + 1) bs (Memory.writeByte a b m)

/-- The little-endian word at an address (R37). -/
def Memory.readWord (m : List Host.Cell) (a : Nat) : Word := w32 (ofLe (Memory.readBytes m a 4))

/-- Writing the enabled bytes of a word at an address (R45). -/
def Memory.writeWord (a : Nat) (w : Word) (be : BitVec 4) (m : List Host.Cell) : List Host.Cell :=
  (List.range 4).foldl (fun m i => if be.getLsbD i then Memory.writeByte (a + i) (w.extractLsb' (8 * i) 8) m else m) m

/-- Words in error that stay after a write of n bytes from an address: those that it does not write whole (R375). -/
def healed (a n : Nat) (bad : List Nat) : List Nat := bad.filter fun w => !(decide (a ≤ 4 * w) && decide (4 * w + 4 ≤ a + n))

/-- Writing bytes over words of which some are in error: a partial write of such a word is dropped (R375). -/
def putBytes (bad : List Nat) (a : Nat) (bs : List Byte) (m : List Host.Cell) : List Host.Cell :=
  if bad.isEmpty then Memory.writeBytes a bs m
  else (bs.zipIdx).foldl (fun m b =>
    if (healed a bs.length bad).contains ((a + b.2) / 4) then m else Memory.writeByte (a + b.2) b.1 m) m

/-- The n bytes from an address as a master reads them: zero in words in error (R385). -/
def readGood (bad : List Nat) (m : List Host.Cell) (a n : Nat) : List Byte :=
  if bad.isEmpty then Memory.readBytes m a n
  else (List.range n).map fun i => if bad.contains ((a + i) / 4) then 0 else Memory.readByte m (a + i)

/-- Clearing a range of addresses. -/
def Memory.clear (lo hi : Nat) (m : List Host.Cell) : List Host.Cell := m.filter fun c => c.1 < lo || hi ≤ c.1

/-- The canonical form: addresses strictly rising, and no listed byte is zero. -/
def Memory.wf (m : List Host.Cell) : Bool := tabWf Memory.blank m

end Sys2Proof.Machine
end

