-- ==== Sys2Proof/Machine/Ops.lean ====
section
/-! DEFINITION. The named operations that every chapter shares: interrupt sources, counters, trace records, error logs,
the presented member, domain wakes and the memories' blocks. -/

namespace Sys2Proof.Machine

/-! ### Free values -/

/-- A draw of a free value: the number of this draw, and the state with the next number. -/
def State.drawn (s : State) : Nat × State := (s.draw, s.onDraw (· + 1))

/-- A timestamp of the timebase now, in whole ns, off by a free value within a bound. -/
def State.stampIn (s : State) (bound : Int) : Nat × State :=
  (((s.time.total : Int) + clampI (-bound) bound (Config.stampError s.draw)).toNat, s.onDraw (· + 1))

/-- MONO as a number. -/
def State.monoNs (s : State) : Nat := s.time.mono.toNat

/-! ### Interrupt sources (R67) -/

def irqCmdDone : Nat := 0
def irqCring : Nat := 1
def irqPortEvt : Nat := 2
def irqCall : Nat := 3
def irqTime : Nat := 4
def irqNet : Nat := 5
def irqDap : Nat := 6
def irqImdal : Nat := 7
def irqSubst : Nat := 8
def irqCaps : Nat := 9
def irqEcc : Nat := 10
def irqPwr : Nat := 11
def irqWake : Nat := 12
def irqTherm : Nat := 13
def irqHotswap : Nat := 14
def irqRollcall : Nat := 15

/-- A source event sets its bit of IRQ_STAT (R67). -/
def State.raise (s : State) (b : Nat) : State :=
  s.onHbi fun h => { h with irqStat := h.irqStat ||| BitVec.ofNat 16 (2 ^ b) }

/-! ### Event counters (R438) and trace records (R430, R434) -/

/-- An event counter gains k, wrapping at 2^48. -/
def State.countN (s : State) (i k : Nat) : State :=
  s.onTrace fun t => { t with ctr := tmod 0 i (fun c => c + BitVec.ofNat 48 k) t.ctr }

/-- An event counter gains one. -/
def State.count (s : State) (i : Nat) : State := s.countN i 1

/-- The record of an event now, with its timestamp (R430). -/
def State.traceRec (s : State) (cls : Nat) (ts : Nat) (pay : Word) : TraceRec where
  cls := BitVec.ofNat 8 cls
  untr := s.untrusted
  gap := s.trace.gap
  seq := s.trace.seq
  pidx := s.pidx
  ns := BitVec.ofNat 30 (ts % 1000000000)
  pay := pay
  onPort := s.trace.portAct
  onRing := s.trace.ringAct

/-- A record of a class whose bit is in force (R430, R431): it takes the next SEQ, and it is queued, or lost when 256
records wait (R434). -/
def State.record (s : State) (cls : Nat) (pay : Word) : State :=
  let t := s.trace
  if t.clsAct.getLsbD (cls - 1) && (t.portAct || t.ringAct) then
    if t.fifo.length < 256 then
      let q := s.stampIn 10
      q.2.onTrace fun t => { t with
        seq := t.seq + 1
        gap := false
        fifo := t.fifo ++ [s.traceRec cls q.1 pay] }
    else (s.onTrace fun t => { t with seq := t.seq + 1, gap := true }).count 225
  else s

/-- The 16 bytes of a record (R430). -/
def traceBytes (r : TraceRec) : List Byte :=
  wordBytes [pack [(0, r.cls.toNat), (8, b2n r.untr), (9, b2n r.gap), (16, r.seq.toNat)], r.pidx, w32 r.ns.toNat, r.pay]

/-- The bytes of a record on the trace port, one on each edge of TRC_CLK (R432). -/
def portBytes (r : TraceRec) : List Byte := 0xA5 :: 0x5A :: traceBytes r

/-- Bytes of the trace ring (R433, R436). -/
def ringSize (sz : BitVec 3) : Nat := 2 ^ 20 * 2 ^ (min 6 sz.toNat)

/-- One domain is ON: its logic step has reported, and no entry to a lower state has begun (R404). -/
def State.domOn (s : State) (d : Nat) : Bool :=
  (s.dom d).state = .on && (match (s.dom d).transit with | .enter _ => false | _ => true)

/-- TRC_CLK runs (R432): with the port enabled, while HUB is ON. -/
def State.traceClock (s : State) : Bool := s.trace.portAct && s.domOn 2

/-- Bytes written to MGMT SRAM, to Pantry: a word written whole is good again, a partial write of a word in error is dropped (R375). -/
def Memory.putSram (a : Nat) (bs : List Byte) (m : Memory) : Memory :=
  { m with sram := putBytes m.badSram a bs m.sram, badSram := healed a bs.length m.badSram }
def Memory.putPantry (a : Nat) (bs : List Byte) (m : Memory) : Memory :=
  { m with pantry := putBytes m.badPantry a bs m.pantry, badPantry := healed a bs.length m.badPantry }

/-- One queued record leaves: to the port, which floats while HUB is not ON, and to the ring in PANTRY0 (R432, R433). While PANTRY is not ON a record bound
for the ring is discarded and counted, and the port still receives it (R434). -/
def State.drainOne (s : State) : State :=
  match s.trace.fifo with
  | [] => s
  | r :: rest =>
    let s := s.onTrace fun t =>
      { t with fifo := rest, untr := r.untr, port := if r.onPort && s.domOn 2 then (r :: t.port).take 256 else t.port }
    if r.onRing then
      if s.domOn 3 then
        let size := ringSize s.trace.szAct
        let a := 0x40000000 - size + 16 * (s.trace.wrIdx.toNat % (size / 16))
        (s.onMem (Memory.putPantry a (traceBytes r))).onTrace
          fun t => { t with wrIdx := t.wrIdx + 1 }
      else (s.onTrace fun t => { t with gap := true }).count 225
    else s

/-- Up to n queued records leave. -/
def State.drain : Nat → State → State
  | 0, s => s
  | n + 1, s => State.drain n s.drainOne

/-! ### The timebase with its trace (R71) -/

/-- n AON ticks: the timebase moves and queued trace records leave, one a tick. -/
def State.ticks (s : State) (n : Nat) : State := State.drain (min n 256) (s.onTime (Time.ticksOn n))

/-- Time moved to an instant of the Period in progress, where it has not reached it. -/
def State.at_ (s : State) (inst : Nat) : State := s.ticks (s.time.ticksTo inst)

/-- One AON tick while nothing waits (log 1): the timebase moves, but not onto or past the next Period boundary; it
stands still while PORST_N is low. -/
def State.idle (s : State) : State :=
  if s.boot.held then s
  else if s.time.inPeriod * 2 ^ 24 + s.time.frac.toNat + s.time.incr.toNat < 500000 * 2 ^ 24 then s.ticks 1 else s

/-- A change of TIME_STAT or a timebase event raises TIME and leaves a record of class 0x06 (R84, R431). -/
def State.timeEvent (s : State) (jump : Bool) : State :=
  (s.raise irqTime).record 6 (pack [(0, s.time.state.toNat), (2, s.time.refAct.toNat), (4, b2n jump)])

/-! ### States and references (R83, R84, R88) -/

/-- The segment aligns to another one that can be reached and whose Homeroom has the lower index (R336). -/
def Imdal.aligns (m : Imdal) : Bool :=
  m.state = .enrolled && (match m.heard, m.homeroom with
    | some h, some r => !m.segment.getLsbD h.toNat && decide (h.toNat < r.toNat)
    | _, _ => false)

/-- The device follows the Imdal ring: JOINING, or ENROLLED and not Homeroom (R83, R320), or with its segment another one (R336). -/
def State.follower (s : State) : Bool :=
  s.imdal.state = .joining || (s.imdal.state = .enrolled && s.imdal.homeroom ≠ some s.imdal.index) || s.imdal.aligns

/-- REF_ACT that the conditions give (R83). -/
def State.refNow (s : State) : BitVec 2 :=
  let ptp := s.time.ptpQual
  let w := s.time.wclkOk
  if s.follower then 3
  else match s.time.refSel.toNat with
    | 0 => if ptp then 1 else if w then 2 else 0
    | 1 => if ptp then 1 else 0
    | 2 => if w then 2 else 0
    | _ => 0

/-- The timebase changes state (R84): TIME and class 0x06; MONO at the entry to HOLDOVER. -/
def State.timeState (s : State) (st : BitVec 2) : State :=
  if s.time.state = st then s
  else (s.onTime fun t => { t with state := st, hoFrom := if st = 1 then t.mono.toNat else t.hoFrom }).timeEvent false

/-- A residual slew ends with TIME_INCR at a value (R88). -/
def Time.endSlew (i : Word) (t : Time) : Time :=
  { t with slew := false, residual := 0, slewed := 0, incr := i }

/-- The reference in use is no longer qualified (R86): its loss puts holdover at HO_RATE into effect in every state. -/
def Time.refLost (t : Time) : Bool := (t.refAct = 1 && !t.ptpQual) || (t.refAct = 2 && !t.wclkOk)

/-- The reference in use follows its conditions (R83). A reference that goes out of use is lost: LOCKED goes to HOLDOVER at HO_RATE
(R84), and so does FREE where the reference is no longer qualified (R86); in HOLDOVER the rate is HO_RATE. In FREE with another reference
taken, a slew ends at the rate about which the servo slewed (R88). A switch of the reference in use while LOCKED, the old one still
qualified, counts as its loss (DESIGN CHOICE, log 122: R84 has no row for it). -/
def State.refUpdate (s : State) : State :=
  let r := s.refNow
  let t := s.time
  if r = t.refAct then s
  else
    let s := s.onTime fun t => { t with refAct := r, goodFrom := none, badRun := 0 }
    if t.refAct = 0 || t.state = 2 then s.timeEvent false
    else if t.state = 0 || (t.state = 3 && t.refSel ≠ 3 && t.refLost) then (s.onTime (Time.endSlew t.hoRate)).timeState 1
    else if t.state = 1 then (s.onTime (Time.endSlew t.hoRate)).timeEvent false
    else (s.onTime (Time.endSlew (if t.slew then t.slewBase else t.incr))).timeEvent false

/-! ### The presented member (R8, R9, R447) -/

/-- Line ports, Legs figure, Talk Groups and 256 ms tails of a member by its Wings (R8, R135). -/
def memberPorts (w : Nat) : Nat := if w = 8 then 48 else if w = 4 then 24 else if w = 2 then 16 else if w = 1 then 8 else 0
def memberLegs (w : Nat) : Nat := if w = 8 then 4096 else if w = 4 then 2048 else if w = 2 then 1024 else if w = 1 then 512 else 0
def memberGroups (w : Nat) : Nat := if w = 8 then 1024 else if w = 4 then 512 else if w = 2 then 256 else if w = 1 then 128 else 0
def memberTails (w : Nat) : Nat := 64 * w

/-- A Leg slot is carried by a member (R8, R98). -/
def legCarried (w l : Nat) : Bool := decide (l < memberLegs w) && !(decide (memberPorts w ≤ l) && decide (l < 48))

/-- Wings of the member that the next boundary leaves in force, as far as it has been decided (R14). -/
def State.wingsNext (s : State) : Nat := s.tiles.nextWings.getD s.tiles.wings

/-- Tiles that a member requires (R359). -/
def requirement (w : Nat) : Nat := if w = 8 then 44 else if w = 4 then 22 else if w = 2 then 11 else if w = 1 then 6 else 0

/-- The largest member whose requirement a number of tiles meets, at most a given one (R360). -/
def honoured (most n : Nat) : Nat :=
  (([8, 4, 2, 1].filter fun w => decide (w ≤ most)).find? fun w => decide (requirement w ≤ n)).getD 0

/-- Tiles that are healthy (R352). -/
def tileHealthy (t : Tile) : Bool := t.state = .test || t.state = .working || t.state = .substitute
def State.healthyTiles (s : State) : Nat := ((upto 72).filter fun t => tileHealthy (s.tile t)).length

/-- CAPS_A and CAPS_B (R447). -/
def capsA (w : Nat) : Word := pack [(0, w), (8, memberPorts w), (16, memberLegs w)]
def capsB (w : Nat) : Word := pack [(0, memberGroups w), (16, memberTails w)]

/-- The segment holds two devices or more and every device that the ring's links reach, and every link between them is UP (R342). -/
def Imdal.whole (m : Imdal) : Bool :=
  let mine := fun (p : Option RingIx) => match p with | some i => m.segment.getLsbD i.val | none => false
  decide (2 ≤ popN 8 m.segment.toNat) && (m.reach &&& ~~~ m.segment) = 0 && !m.others && m.broken.isNone && !m.wrapped && !m.split &&
    m.linkE = .up && m.linkW = .up && mine m.peerE && mine m.peerW

/-- Byte 0x03 of the ring table (R342). -/
def State.ringFlags (s : State) : Nat :=
  let m := s.imdal
  let hr := m.state = .enrolled && m.homeroom = some m.index
  b2n m.whole + 2 * b2n m.wrapped + 4 * b2n m.split + 8 * b2n (hr || m.aligned) + 16 * b2n m.dup + 32 * b2n hr + 64 * b2n m.unshared

/-- Code of a ring state (R342). -/
def ringCode : RingState → Nat
  | .solo => 0
  | .joining => 1
  | .enrolled => 2

/-- The record of a change of member or ring, class 0x07 (R431). -/
def State.ringRecord (s : State) : State :=
  s.record 7 (pack [(0, s.tiles.wings), (8, s.ringFlags), (16, ringCode s.imdal.state)])

/-! ### Memory errors (R376, R381 to R383) -/

/-- SEQ after one more entry (R222, R367, R383). -/
def seqNext (q : Word) : Word := if q = 0xFFFFFFFF#32 then 1#32 else q + 1

/-- Slot of an entry in a log of n slots: (SEQ - 1) mod n (R222, R367, R383). -/
def logSlot (n : Nat) (seq : Word) : Nat := (seq - 1).toNat % n

/-- A log with one more entry, newest first: it takes the place of the entry in its slot. -/
def logPut {α : Type} (seq : α → Word) (n : Nat) (e : α) (l : List α) : List α :=
  e :: l.filter fun x => logSlot n (seq x) ≠ logSlot n (seq e)

/-- An entry of the memory error log (R383). -/
def State.logMem (s : State) (src : Nat) (uncorr : Bool) (master owner : Nat) (addr : Word) : State :=
  let q := seqNext s.mem.logSeq
  s.onMem fun m => { m with
    logSeq := q
    log := logPut (·.seq) 64 (MemEntry.mk q s.pidx (BitVec.ofNat 8 src) (BitVec.ofNat 8 (b2n uncorr + 2 * (master % 8)))
      (BitVec.ofNat 16 owner) addr) m.log }

/-- A corrected event: ECC_CORR, its source, the log, counter 222 and the ECC source (R381). -/
def State.eccCorr (s : State) (src : Nat) (uncorr : Bool) (master owner : Nat) (addr : Word) : State :=
  (((s.onMem fun m => { m with corr := satAdd m.corr 1, corrSrc := BitVec.ofNat 8 src }).logMem src uncorr master owner addr).count
    222).raise irqEcc

/-- An uncorrectable event: ECC_UNCORR, its source, the log, counter 223 and the ECC source (R382). -/
def State.eccUncorr (s : State) (src : Nat) (master owner : Nat) (addr : Word) : State :=
  (((s.onMem fun m => { m with uncorr := satAdd m.uncorr 1, uncorrSrc := BitVec.ofNat 8 src }).logMem src true master owner addr).count
    223).raise irqEcc

/-- A response other than OKAY in a master's entry of the matrix table (R384, R385). -/
def State.onMaster (s : State) (m : Nat) (f : Master → Master) : State :=
  s.onMem fun x => { x with masters := tmod {} m f x.masters }

/-! ### Domains: exit latency and wakes (R391, R398, R400, R403, R408) -/

def dMgmt : Nat := 1
def dHub : Nat := 2
def dPantry : Nat := 3
def dWing (w : Nat) : Nat := 4 + w
def dBank (b : Nat) : Nat := 12 + b
def dNet (p : Nat) : Nat := 18 + p
def dDap : Nat := 20
def dImdal : Nat := 21

/-- Parents of a domain (R391). -/
def parents (d : Nat) : List Nat :=
  if d = 1 || d = 3 then [2]
  else if (4 ≤ d && d ≤ 11) || (18 ≤ d && d ≤ 20) then [2, 3]
  else if d = 21 then [2, 1]
  else []

/-- Regulator, oscillator, memory and logic steps in µs (R398); the logic step of MGMT from OFF includes the boot. -/
def domSteps (d : Nat) (st : DomState) : Nat × Nat × Nat × Nat :=
  if d = 1 then (50, 20, 1000, if st = .off then 55000 else 30)
  else if d = 2 then (100, 20, 200, 20)
  else if d = 3 then (200, 50, 7000, 20)
  else if d ≤ 11 then (50, 20, 500, 20)
  else if d ≤ 17 then (100, 20, 50, 580)
  else if d ≤ 19 then (50, 200, 100, 50)
  else if d = 20 then (20, 50, 20, 10)
  else (50, 200, 20, 50)

/-- S(d, s) of R398. -/
def domS (d : Nat) (st : DomState) : Nat :=
  let k := domSteps d st
  match st with
  | .on => 0
  | .proofing => k.2.1
  | .recess => k.1 + k.2.1
  | .off => k.1 + k.2.1 + k.2.2.1

/-- E(d, s) of R398, the parents' states given by a table. -/
def exitLatency (parentState : Nat → DomState) (d : Nat) (st : DomState) : Nat :=
  if d = 0 || st = .on then 0
  else
    let own := fun (d : Nat) (st : DomState) (m : Nat) => if st = .on then 0 else max (domS d st) m + (domSteps d st).2.2.2
    let e1 := fun p => own p (parentState p) 0
    let e2 := fun p => own p (parentState p) ((parents p).foldl (fun a q => max a (e1 q)) 0)
    own d st ((parents d).foldl (fun a p => max a (e2 p)) 0)

/-- Code of a domain state (R407). -/
def domCode : DomState → Nat
  | .off => 0
  | .recess => 1
  | .proofing => 2
  | .on => 3

/-- A domain's change of state: PWR, class 0x05, PIDX of the last change (R400, R407, R431). -/
def State.domChanged (s : State) (d : Nat) (st : DomState) : State :=
  ((s.onPower fun p => { p with changed := s.pidx }).raise irqPwr).record 5 (pack [(0, d), (8, domCode st)])

/-- The first step of a rise from a state (R398, R403). -/
def firstStep (st : DomState) : Nat := if st = .proofing then 2 else 1

/-- A domain that is not ON and not on its way there starts to rise (R400, R403): an entry in progress is abandoned and the
domain rises as from the state it was entering; a rise to a lower state goes on to ON. -/
def Domain.up (x : Domain) : Domain :=
  match x.transit with
  | .rise _ k => { x with transit := .rise .on k }
  | .enter st => { x with state := st, transit := .rise .on (firstStep st) }
  | .none => { x with transit := .rise .on (firstStep x.state) }

/-- The domain is ON, or on its way to ON. -/
def State.rising (s : State) (d : Nat) : Bool := s.domOn d || (match (s.dom d).transit with | .rise .on _ => true | _ => false)

/-- One domain of a wake, counted (R438). -/
def State.riseOne (s : State) (d : Nat) : State := if s.rising d then s else (s.onDom d Domain.up).count (184 + d)

/-- PORST_N is low, or the thermal removal has ended (R465, R478): every domain but AON stays OFF until power-on reset. -/
def State.shutDown (s : State) : Bool := s.boot.held || (s.boot.thermOff && s.boot.removal = 8)

/-- A wake (R400, R408): the domain and its parents rise; WAKE_SRC and WAKE, except in the power-up that follows power-on
reset. -/
def State.wake (s : State) (d src : Nat) : State :=
  if s.rising d || s.shutDown then s
  else
    let first := s.power.first.getLsbD d
    let c := s.trace.ctr
    let s := ((parents d).foldl State.riseOne (s.riseOne d)).onPower fun p =>
      { p with self := (parents d).foldl (fun v q => v ||| BitVec.ofNat 22 (2 ^ q)) p.self }
    if first then s.onTrace fun t => { t with ctr := c }
    else (s.onPower fun p => { p with wakeDom := BitVec.ofNat 5 d, wakeSrc := BitVec.ofNat 4 src, wakes := satAdd p.wakes 1 }).raise
      irqWake

/-- A FW vote on MGMT, placed at once (R395). -/
def State.fwVote (s : State) : State := (s.onPower fun p => { p with fw := p.fw ||| BitVec.ofNat 22 2 }).wake 1 4

/-- A SELF vote ON is placed at once (R395). -/
def State.selfVote (s : State) (d src : Nat) : State :=
  (s.onPower fun p => { p with self := p.self ||| BitVec.ofNat 22 (2 ^ d) }).wake d src

/-- SELF votes of an armed resume or start (R395): HUB, PANTRY, and the Wings of the units of its Legs. -/
def State.armVotes (s : State) (legs : List Nat) : State :=
  (legs.filterMap fun l => s.tiles.tt.legs.lookup l).foldl (fun s t => s.selfVote (dWing (t / 9)) 9) ((s.selfVote dHub 9).selfVote dPantry 9)

/-! ### Blocks named by a command (R50) -/

/-- Where a block lies: an offset of MGMT SRAM or of Pantry. -/
inductive BlockAt where
  | sram (a : Nat)
  | pantry (a : Nat)
  deriving DecidableEq, Repr

/-- A host buffer region accepted by RING_SET or DAP_SET and in force (R45): stack, first byte, bytes. -/
abbrev Region := Nat × Nat × Nat

/-- The byte of Pantry, both stacks laid end to end, that a window word address names (R44). -/
def pantryByte (w : Word) : Nat := (fld w 28 4 - 8) * 2 ^ 30 + fld w 0 28 * 4

/-- Bytes a to a + n lie in one of the regions. -/
def inRegions (rs : List Region) (a n : Nat) : Bool :=
  rs.any fun r => decide (r.1 * 2 ^ 31 + r.2.1 ≤ a) && decide (a + n ≤ r.1 * 2 ^ 31 + r.2.1 + r.2.2)

/-- The place of a block of n bytes by its window address, none where it may not lie there (R50). -/
def blockAt (rs : List Region) (w : Word) (n : Nat) : Option BlockAt :=
  let t := fld w 28 4
  if t = 1 then
    let a := fld w 0 28 * 4
    if 0xC0000 ≤ a && a + n ≤ 0x100000 then some (.sram a) else none
  else if 8 ≤ t && t ≤ 11 then
    let a := pantryByte w
    if inRegions rs a n then some (.pantry a) else none
  else none

/-- Bytes of a block as a master reads them: an uncorrectable word reads zero (R385). -/
def State.readBlock (s : State) (b : BlockAt) (n : Nat) : List Byte :=
  match b with
  | .sram a => readGood s.mem.badSram s.mem.sram a n
  | .pantry a => readGood s.mem.badPantry s.mem.pantry a n

/-- Writing bytes where a block lies. -/
def BlockAt.put (b : BlockAt) (bs : List Byte) (m : Memory) : Memory :=
  match b with
  | .sram a => m.putSram a bs
  | .pantry a => m.putPantry a bs

/-- Writing the bytes of a block. -/
def State.writeBlock (s : State) (b : BlockAt) (bs : List Byte) : State := s.onMem (b.put bs)

/-- A transaction of a master ends in SLVERR (R385). -/
def State.slvErr (s : State) (m : Nat) : State := s.onMaster m fun x => { x with slverr := satAdd x.slverr 1 }

/-- Uncorrectable words that a read of n bytes meets. -/
def badWords (bad : List Nat) (a n : Nat) : List Nat := bad.filter fun w => decide (a / 4 ≤ w) && decide (w < (a + n + 3) / 4)

/-- MGMT-D reads n bytes of MGMT SRAM: each uncorrectable word counts in ECC_CORR, and its access ends in SLVERR (R376, R385). -/
def State.sramMet (s : State) (a n : Nat) : State :=
  (badWords s.mem.badSram a n).foldl (fun s w => (s.eccCorr 9 true 2 0xFFFF (w32 (2 ^ 28 + w))).slvErr 2) s

/-- MGMT-D reads a block that a command names. In the host area of Pantry an uncorrectable word counts as for the other readers there (R376; DESIGN
CHOICE, log 138). -/
def State.blockMet (s : State) (b : BlockAt) (n : Nat) : State :=
  match b with
  | .sram a => s.sramMet a n
  | .pantry a => (badWords s.mem.badPantry a n).foldl (fun s w => (s.eccUncorr 8 2 0xFFFF (w32 (2 ^ 31 + w))).slvErr 2) s

end Sys2Proof.Machine
end

