-- ==== Sys2Proof/Machine/Regions.lean ====
section
/-! DEFINITION. The host buffer regions of Pantry that are in force (R45, R234, R260, R372), and the place of the trace
ring (R433). -/

namespace Sys2Proof.Machine

/-- The region of n bytes from a window address in Pantry: stack, byte offset in the stack, bytes (R44). -/
def regionAt (w : Word) (n : Nat) : Region :=
  ((fld w 28 4 - 8) / 2, (fld w 28 4 - 8) % 2 * 2 ^ 30 + fld w 0 28 * 4, n)

/-- n bytes from a window address lie wholly within the host area of one stack (R372). -/
def inHostArea (w : Word) (n : Nat) : Bool :=
  (fld w 28 4 = 8 || fld w 28 4 = 0xA) && decide (fld w 0 28 * 4 + n ≤ 2 ^ 30)

/-- Two regions share a byte. -/
def overlaps (a b : Region) : Bool :=
  a.1 = b.1 && decide (0 < a.2.2) && decide (0 < b.2.2) && decide (a.2.1 < b.2.1 + b.2.2) && decide (b.2.1 < a.2.1 + a.2.2)

/-- Bytes of a frame of a digital audio buffer (R241). -/
def frameBytes (a4 : Word) : Nat := if fld a4 24 2 = 0 then 6 else 8

/-- Buffers of a digital audio port by its words (R234). -/
def dapRegionsOf (a2 a3 a4 : Word) : List Region :=
  let n := fld a4 0 24 * frameBytes a4
  if n = 0 then [] else regionAt a2 n :: (if a3 = 0 then [] else [regionAt a3 n])

/-- Buffers of a digital audio port that are in force. -/
def dapRegions (d : Dap) : List Region := if d.state = .disabled then [] else dapRegionsOf d.a2 d.a3 d.a4

/-- Areas of a network ring by its words (R260). -/
def ringRegionsOf (a1 a2 a3 a4 : Word) : List Region :=
  [regionAt a1 (16 * fld a2 0 13), regionAt a3 a4.toNat].filter fun r => decide (0 < r.2.2)

/-- Areas of the rings of a network port. -/
def netRegions (n : Net) : List Region := n.rings.flatMap fun r => ringRegionsOf r.2.a1 r.2.a2 r.2.a3 r.2.a4

/-- Every host buffer region in force. -/
def State.regions (s : State) : List Region :=
  (s.dap.flatMap fun d => dapRegions d.2) ++ (s.net.flatMap fun n => netRegions n.2)

/-- The trace ring's place at the top of the host area of PANTRY0 (R433). -/
def traceRegion (sz : BitVec 3) : Region := (0, 0x40000000 - ringSize sz, ringSize sz)

/-! ### Words in error (R375) -/

/-- Window address of a byte of Pantry (R44). -/
def pantryWindow (a : Nat) : Word := w32 (2 ^ 31 + a / 4)

/-- An uncorrectable word lies in a range of Pantry. -/
def State.badIn (s : State) (lo n : Nat) : Option Nat := s.mem.badPantry.find? fun w => decide (lo / 4 ≤ w) && decide (w < (lo + n + 3) / 4)

/-- Every uncorrectable word that a read of a range of Pantry meets. -/
def State.badAll (s : State) (lo n : Nat) : List Nat := badWords s.mem.badPantry lo n

/-- A write of a range clears the uncorrectable words that it writes whole (R375). -/
def State.clearBad (s : State) (lo n : Nat) : State :=
  s.onMem fun m => { m with badPantry := healed lo n m.badPantry }

/-- The uncorrectable words that a reader of the host area meets: each counted in ECC_UNCORR with source 0x08, its access ending in SLVERR (R376, R383,
R385). -/
def State.hostWordBad (s : State) (master lo n : Nat) : State :=
  (s.badAll lo n).foldl (fun s w => (s.eccUncorr 8 master 0xFFFF (pantryWindow (4 * w))).slvErr master) s

end Sys2Proof.Machine
end

