-- ==== Sys2Proof/Machine/Command.lean ====
section
/-! DEFINITION. The command path that every command shares (R50 to R66): taking a command, holding it, the checks of R53
that come before the command's own, completion, the reject log. -/

namespace Sys2Proof

/-- Opcode, EPOCH_CHK, NOTIFY and SEQ of a header (R50). -/
def CmdWords.op (c : CmdWords) : Nat := Machine.fld c.hdr 0 8
def CmdWords.chk (c : CmdWords) : Bool := Machine.bit c.hdr 8
def CmdWords.notify (c : CmdWords) : Bool := Machine.bit c.hdr 9
def CmdWords.seq (c : CmdWords) : BitVec 16 := c.hdr.extractLsb' 16 16

/-- The eight words in ring-entry form (R50). -/
def CmdWords.words (c : CmdWords) : List Word := [c.hdr, c.epoch, c.a0, c.a1, c.a2, c.a3, c.a4, c.a5]

end Sys2Proof

namespace Sys2Proof.Machine

/-! ### Status codes (R52) -/

def stOk : Nat := 0
def stBadop : Nat := 1
def stBadarg : Nat := 2
def stState : Nat := 3
def stNocap : Nat := 4
def stBusy : Nat := 5
def stEpoch : Nat := 7
def stDenied : Nat := 8

/-- Opcodes that change configuration (R51). -/
def isConfig (op : Nat) : Bool :=
  [0x10, 0x12, 0x18, 0x1A, 0x20, 0x21, 0x24, 0x30, 0x31, 0x40, 0x41, 0x42, 0x43, 0x44, 0x50, 0x70].contains op

/-- Opcodes that are defined (R51). -/
def isDefined (op : Nat) : Bool :=
  isConfig op || [0x00, 0x11, 0x19, 0x22, 0x23, 0x60, 0x78, 0x79].contains op

/-- A command with its source; a peer's command carries its parameter data (R338). -/
structure Ctx where
  src   : Source
  cmd   : CmdWords
  param : Option (List Byte)
  deriving DecidableEq, Repr

/-- What a command's own checks and effect answer. -/
inductive Verdict where
  /-- It completes with a status other than OK and has no effect (R54). -/
  | reject (status : Nat)
  /-- It needs a domain that is not ON (R59). -/
  | wait (d : Nat)
  /-- A configuration command passes: changes staged for a boundary count (R57, R58), and RES1. -/
  | config (s : State) (ord : Nat) (changes : List Change) (res1 : Word)
  /-- It completes OK with its results, and the result block it writes. -/
  | done (s : State) (res0 res1 : Word) (out : Option (Word × List Byte))
  /-- It is accepted and completes with a later event (R280, R338, R423). -/
  | later (s : State)

/-- A command's own checks, in the order of R53 from step 4, and its effect. -/
abbrev Handler := Ctx → State → Verdict

/-- Source codes of R54. -/
def sourceCode : Source → Nat
  | .mailbox => 1
  | .ring => 2
  | .peer _ => 3

/-- CFG_EPOCH after one more change (R55): 0xFFFF_FFFF is followed by 1. -/
def epochNext (e : Word) : Word := if e = 0xFFFFFFFF#32 then 1#32 else e + 1

/-- An entry of the reject log; the reject count follows (R54). -/
def State.logReject (s : State) (src : Source) (c : CmdWords) (st : Nat) : State :=
  s.onCmd fun m => { m with
    rejects := (Reject.mk c (BitVec.ofNat 8 st) (BitVec.ofNat 8 (sourceCode src)) m.epoch s.pidx :: m.rejects).take 64
    rejectCount := m.rejectCount + 1 }

/-- PHASE of the completion written at a ring position (R65): set on the first pass, alternating. -/
def phaseOf (head : BitVec 9) : Bool := !head.getLsbD 8

/-- The 16 bytes of a Completion entry (R65). -/
def completionBytes (c : CmdWords) (st : Nat) (phase : Bool) (epoch r0 r1 : Word) : List Byte :=
  wordBytes [pack [(0, c.seq.toNat), (16, c.op), (24, st), (31, b2n phase)], epoch, r0, r1]

/-- Byte offset of a ring's base in MGMT SRAM (R62). -/
def ringBase (b : BitVec 6) : Nat := b.toNat * 16384

/-- The peer parameter and result areas of MGMT SRAM (R337). -/
def peerParamAt : Nat := 0xFFF00
def peerResultAt : Nat := 0xFFF80

/-- The result data that goes back to a peer (R337). -/
def peerResult (s : State) : List Byte := readGood s.mem.badSram s.mem.sram peerResultAt 128

/-- Completion at the source (R61, R65, R338). CFG_EPOCH of a Completion entry is the one that stands at the completion: for an answer
that comes later than its acceptance, changes accepted meanwhile count (DESIGN CHOICE, log 109). -/
def State.answerSource (s : State) (src : Source) (c : CmdWords) (st : Nat) (r0 r1 : Word) : State :=
  match src with
  | .mailbox =>
    (s.onCmd fun m => { m with
      res0 := r0
      res1 := r1
      busy := false
      status := BitVec.ofNat 4 st
      lastMbox := some { seq := c.seq, status := BitVec.ofNat 8 st } }).raise irqCmdDone
  | .ring =>
    let h := s.cmd.head
    let a := ringBase s.cmd.takenBase + 0x2000 + 16 * (h.toNat % 256)
    let s := s.onMem (Memory.putSram a (completionBytes c st (phaseOf h) s.cmd.epoch r0 r1))
    let s := s.onCmd fun m => { m with
      head := m.head + 1
      taken := none
      ehalt := m.ehalt || st == stEpoch
      lastRing := some { seq := c.seq, status := BitVec.ofNat 8 st } }
    if c.notify || st ≠ stOk then s.raise irqCring else s
  | .peer q =>
    let s := s.sramMet peerResultAt 128
    let a : ForwardAnswer := { status := BitVec.ofNat 4 st, res0 := r0, res1 := r1, epoch := s.cmd.epoch, data := peerResult s }
    s.onCmd fun m => { m with answer := some a, answers := m.answers ++ [(q, a)] }

/-- A result word for which no rule states a value (log 12): free, and another one after each completion. -/
def State.unstated (s : State) (w : Nat) : Word := Config.resultWord w (tget 0 s.trace.ctr 219).toNat (tget 0 s.trace.ctr 220).toNat

/-- Completion of a command: results, counters 219 and 220 of R438, a trace record of class 0x01, and for any status but
OK a reject log entry (R54). -/
def State.complete (s : State) (src : Source) (c : CmdWords) (st : Nat) (r0 r1 : Word) : State :=
  let s := if st = stOk then s.count 219 else (s.count 220).logReject src c st
  let s := s.answerSource src c st r0 r1
  s.record 1 (pack [(0, c.op), (8, st), (12, sourceCode src), (16, c.seq.toNat)])

/-- A rejected command: the device writes both result words (R61, R65), and no rule states their values (log 12). -/
def State.rejectCmd (s : State) (src : Source) (c : CmdWords) (st : Nat) : State := s.complete src c st (s.unstated 0) (s.unstated 1)

/-- A command holds the one acceptance sequence (R57, R59, R66). -/
def State.hold (s : State) (x : Ctx) (why : WaitWhy) : State :=
  let s := s.onCmd fun m => { m with
    waiting := some { src := x.src, cmd := x.cmd, why := why }
    mbox := if x.src = .mailbox then none else m.mbox
    waitParam := x.param
    status := if x.src = .mailbox then (match why with | .limit => 0 | _ => 6) else m.status }
  match why with
  | .domain d => s.selfVote d 6
  | _ => s

/-- The firmware takes commands: from the RUN boundary on, removal included (R412, R418, R421). -/
def State.serving (s : State) : Bool := s.boot.boot = 4

/-- The source may not issue the command (R53, R402): a peer while PEER_CMD is 0b0, and a PEER vote from any other source. -/
def State.denied (s : State) (x : Ctx) : Bool :=
  match x.src with
  | .peer _ => !s.cmd.peerCmd
  | _ => x.cmd.op = 0x70 && fld x.cmd.a0 8 2 = 0

/-- The epoch check of R53 and R56, with the halt of R64 for ring entries. -/
def State.epochFails (s : State) (x : Ctx) : Bool :=
  x.cmd.chk && (x.cmd.epoch ≠ s.cmd.epoch || (s.cmd.ehalt && x.src = .ring))

/-- Acceptance of a configuration command (R55, R57): the epoch, the count of the Period, the staged changes. -/
def State.accept (s : State) (x : Ctx) (ord : Nat) (cs : List Change) : State :=
  s.onCmd fun m => { m with
    epoch := epochNext m.epoch
    accepted := m.accepted + 1
    staged := m.staged ++ cs.map fun k => { ord := ord, change := k, src := x.src, cmd := x.cmd } }

/-- Writing a result block (R50). -/
def State.putResult (s : State) (out : Option (Word × List Byte)) : State :=
  match out with
  | none => s
  | some o => match blockAt s.regions o.1 o.2.length with
    | some b => s.writeBlock b o.2
    | none => s

/-- A result block of n bytes may be written: it lies where R50 allows, and a peer's is at most 128 bytes (R338). -/
def Ctx.resultOk (x : Ctx) (s : State) (w : Word) (n : Nat) : Bool :=
  (blockAt s.regions w n).isSome && (match x.src with | .peer _ => decide (n ≤ 128) | _ => true)

/-- A peer's parameter data goes to the parameter area before its command runs (R337). -/
def State.putParam (s : State) (x : Ctx) : State :=
  match x.param with
  | none => s
  | some bs => s.onMem (Memory.putSram peerParamAt (padTo 128 bs))

/-- The object of a change is one that a member does not carry (R14); with no Wing left no audio port is carried either (R360). -/
def uncarried (w : Nat) : Change → Bool
  | .legSet l _ _ a3 => !legCarried w l || (bit a3 5 && !legCarried w (fld a3 6 12))
  | .legUnbind l => !legCarried w l
  | .legAct l _ => !legCarried w l
  | .keySet l _ _ k => !legCarried w l || decide (memberGroups w ≤ fld k 0 10)
  | .grpSet g kind _ _ a3 => decide (memberGroups w ≤ g) || (kind = 2 && decide (memberGroups w ≤ fld a3 0 10))
  | .grpClose g => decide (memberGroups w ≤ g)
  | .grpShare g _ => decide (memberGroups w ≤ g)
  | .grpUnshare g => decide (memberGroups w ≤ g)
  | .portSet p _ _ _ => decide (memberPorts w ≤ p)
  | .portPower p _ => decide (memberPorts w ≤ p)
  | .portSound p _ => decide (memberPorts w ≤ p)
  | .callSend p _ _ _ => decide (memberPorts w ≤ p)
  | .dapSet _ _ _ _ _ _ _ _ => decide (w = 0)
  | .dapDisable _ => decide (w = 0)
  | .dapAck _ => decide (w = 0)
  | .dapArm _ => decide (w = 0)
  | .dapStart _ => decide (w = 0)
  | .dapStop _ => decide (w = 0)
  | _ => false

/-- The member that the loss of a whole Wing's tiles would leave at the next boundary (log 15). -/
def State.lowMember (s : State) : Nat := honoured s.wingsNext (s.healthyTiles - 9)

/-- A fall at the boundary of the effect may withdraw an object of these changes (R14): the completion waits for that boundary
(DESIGN CHOICE, log 15). A boundary named later than the one of R57 is not waited for (R363). -/
def State.fallRisk (s : State) (gs : List Staged) : Bool :=
  decide (s.lowMember < s.wingsNext) && gs.any fun g => g.ord = s.effectOrd && uncarried s.lowMember g.change

/-- The command is accepted and completes at its boundary. -/
def State.holdAccepted (s : State) (x : Ctx) (r1 : Word) : State :=
  s.onCmd fun m => { m with held := m.held ++ [{ src := x.src, cmd := x.cmd, ord := s.effectOrd, res1 := r1 }] }

/-- What becomes of a command after its own checks. -/
def State.settle (s : State) (x : Ctx) : Verdict → State
  | .reject st => s.rejectCmd x.src x.cmd st
  | .wait d => s.hold x (.domain d)
  | .config s' ord cs r1 =>
    let t := s'.accept x ord cs
    if t.fallRisk (t.cmd.staged.drop s'.cmd.staged.length) then t.holdAccepted x r1
    else t.complete x.src x.cmd stOk (s'.pidxAt ord) r1
  | .done s' r0 r1 out =>
    let t := s'.putResult out
    if t.fallRisk (t.cmd.staged.drop s.cmd.staged.length) then t.holdAccepted x r1 else t.complete x.src x.cmd stOk r0 r1
  | .later s' => s'

/-- A configuration command while BOOT is 0x7 completes STATE where its ranges and its member do not fail first (R53, R421). -/
def Verdict.whileRemoving : Verdict → Verdict
  | .reject st => .reject (if st = stBusy then stState else st)
  | _ => .reject stState

/-- The verdict is a wait for a domain (R59). -/
def Verdict.waits : Verdict → Bool
  | .wait _ => true
  | _ => false

/-- What a command's own checks answer, under a removal too (R421). -/
def State.ownChecks (s : State) (h : Handler) (x : Ctx) : Verdict :=
  if isConfig x.cmd.op && s.boot.removal = 7 then (h x s).whileRemoving else h x s

/-- Serving one command: the waits of R412, R404 and R57, and of R59 for a domain that it needs; then opcode, source and epoch
under R53, then the command's own checks (R59 step 3: the domain first, then R53). -/
def State.serve (s : State) (h : Handler) (x : Ctx) : State :=
  let s := s.onCmd fun m => { m with
    waiting := none
    mbox := if x.src = .mailbox then none else m.mbox
    status := if x.src = .mailbox then 0 else m.status }
  if !s.serving then s.hold x .boot
  else if !s.domOn dMgmt then s.hold x (.domain dMgmt)
  else if isConfig x.cmd.op && 64 ≤ s.cmd.accepted then s.hold x .limit
  else if ((s.putParam x).ownChecks h x).waits then (s.putParam x).settle x ((s.putParam x).ownChecks h x)
  else if !isDefined x.cmd.op then s.rejectCmd x.src x.cmd stBadop
  else if s.denied x then s.rejectCmd x.src x.cmd stDenied
  else if s.epochFails x then s.rejectCmd x.src x.cmd stEpoch
  else (s.putParam x).settle x ((s.putParam x).ownChecks h x)

/-- Byte address of the entry of the Command Ring at a position (R62). -/
def State.ringAddr (s : State) (i : Nat) : Nat := ringBase s.cmd.base + 32 * (i % 256)

/-- The entry of the Command Ring at a position (R62). -/
def State.ringEntryAt (s : State) (i : Nat) : CmdWords :=
  let bs := readGood s.mem.badSram s.mem.sram (s.ringAddr i) 32
  let w := fun i => w32 (ofLe ((bs.drop (4 * i)).take 4))
  { hdr := w 0, epoch := w 1, a0 := w 2, a1 := w 3, a2 := w 4, a3 := w 5, a4 := w 6, a5 := w 7 }

/-- The entry at the head (R64). -/
def State.ringEntry (s : State) : CmdWords := s.ringEntryAt s.cmd.head.toNat

/-- A ring entry can be taken (R64, R66, R404): rings enabled, not empty, a Completion entry free, nothing taken or
waiting, no mailbox command ahead of it, MGMT ON. -/
def State.ringReady (s : State) : Bool :=
  s.cmd.en && s.cmd.head ≠ s.cmd.tail && (s.cmd.head - s.cmd.cplHead).toNat < 256 && s.cmd.taken.isNone &&
    s.cmd.waiting.isNone && s.cmd.mbox.isNone && s.domOn dMgmt

/-- The command at a source that the device would take next, none where it takes none. -/
def State.front (s : State) : CmdSrc → Option CmdWords
  | .mailbox => if s.cmd.waiting.isNone then s.cmd.mbox else none
  | .ring => if s.ringReady then some s.ringEntry else none

/-- The source of R54 of a place. -/
def srcOf : CmdSrc → Source
  | .mailbox => .mailbox
  | .ring => .ring

/-- Taking a ring entry (R64): it is read once, and words of it that are in error count (R376). -/
def State.takeEntry (s : State) (src : CmdSrc) (c : CmdWords) : State :=
  match src with
  | .mailbox => s
  | .ring => (s.sramMet (s.ringAddr s.cmd.head.toNat) 32).onCmd fun m => { m with taken := some c, takenBase := m.base }

/-- The step of a command row: the command in front at the source is served where its opcode is the row's; where there is
none the state stays as it is (log 3). -/
def State.runRow (s : State) (isOp : Nat → Bool) (h : Handler) (src : CmdSrc) : State :=
  match s.front src with
  | none => s
  | some c => if isOp c.op then (s.takeEntry src c).serve h { src := srcOf src, cmd := c, param := none } else s

end Sys2Proof.Machine
end

