-- ==== Sys2Proof/Machine/F32.lean ====
section
/-! DEFINITION. IEEE 754 binary32 arithmetic under R123: round to nearest with ties to even, every operation rounded
separately, subnormal operands and rounded results taken as zero of the same sign. A number is its 32 bits. -/

namespace Sys2Proof.Machine

/-- Sign bit. -/
def f32Neg? (x : F32) : Bool := x.getLsbD 31

/-- Exponent field. -/
def f32Exp (x : F32) : Nat := x.toNat / 2 ^ 23 % 256

/-- Fraction field. -/
def f32Frac (x : F32) : Nat := x.toNat % 2 ^ 23

/-- Infinity or not a number. -/
def f32Special (x : F32) : Bool := f32Exp x = 255

/-- Not a number. -/
def f32Nan? (x : F32) : Bool := f32Exp x = 255 && f32Frac x ≠ 0

/-- The quiet not-a-number that an invalid operation gives (IEEE 754). -/
def f32QNan : F32 := 0x7FC00000#32

/-- Zero and infinity of a sign. -/
def f32Zero (neg : Bool) : F32 := if neg then 0x80000000#32 else 0#32
def f32Inf (neg : Bool) : F32 := if neg then 0xFF800000#32 else 0x7F800000#32

/-- Magnitude of a finite number as an integer in units of 2^-149; a subnormal is zero (R123). -/
def f32Mag (x : F32) : Nat := if f32Exp x = 0 then 0 else (2 ^ 23 + f32Frac x) * 2 ^ (f32Exp x - 1)

/-- Signed value of a finite number in units of 2^-149. -/
def f32Val (x : F32) : Int := if f32Neg? x then -(f32Mag x : Int) else f32Mag x

/-- n divided by d to nearest, ties to even, on naturals. -/
def divRneN (n d : Nat) : Nat :=
  let q := n / d
  let r := n % d
  if 2 * r < d then q else if 2 * r > d then q + 1 else if q % 2 = 0 then q else q + 1

/-- The binary32 nearest to n / d in units of 2^-149 (d positive), rounded and flushed under R123. -/
def f32RoundQ (neg : Bool) (n d : Nat) : F32 :=
  let q0 := n / d
  if q0 < 2 ^ 24 then
    -- at the precision of the subnormals and of the lowest normal binade
    let q := divRneN n d
    if q < 2 ^ 23 then f32Zero neg
    else if q < 2 ^ 24 then f32Zero neg ||| w32 (2 ^ 23 + (q - 2 ^ 23))
    else f32Zero neg ||| w32 (2 * 2 ^ 23)
  else
    let sh := Nat.log2 q0 - 23
    let q := divRneN n (d * 2 ^ sh)
    let p := if q = 2 ^ 24 then (2 ^ 23, sh + 1) else (q, sh)
    if p.2 + 1 ≥ 255 then f32Inf neg else f32Zero neg ||| w32 ((p.2 + 1) * 2 ^ 23 + (p.1 - 2 ^ 23))

/-- The binary32 nearest to i times 2^-149 divided by d. -/
def f32OfScaled (i : Int) (d : Nat) : F32 := f32RoundQ (i < 0) i.natAbs d

/-- The binary32 nearest to the rational n / d. -/
def f32OfRatio (n : Int) (d : Nat) : F32 := f32OfScaled (n * 2 ^ 149) d

/-- The binary32 nearest to an integer times 2^-k. -/
def f32OfFix (i : Int) (k : Nat) : F32 := f32OfRatio i (2 ^ k)

/-- Negation. -/
def f32Neg (x : F32) : F32 := x ^^^ 0x80000000#32

/-- Magnitude. -/
def f32Abs (x : F32) : F32 := x &&& 0x7FFFFFFF#32

/-- Sum, rounded. -/
def f32Add (x y : F32) : F32 :=
  if f32Nan? x || f32Nan? y then f32QNan
  else if f32Special x then (if f32Special y && f32Neg? x ≠ f32Neg? y then f32QNan else x)
  else if f32Special y then y
  else
    let v := f32Val x + f32Val y
    if v = 0 then f32Zero (f32Neg? x && f32Neg? y) else f32OfScaled v 1

/-- Difference, rounded. -/
def f32Sub (x y : F32) : F32 := f32Add x (f32Neg y)

/-- Product, rounded. -/
def f32Mul (x y : F32) : F32 :=
  let neg := f32Neg? x != f32Neg? y
  if f32Nan? x || f32Nan? y then f32QNan
  else if f32Special x || f32Special y then (if f32Mag x = 0 || f32Mag y = 0 then f32QNan else f32Inf neg)
  else f32RoundQ neg (f32Mag x * f32Mag y) (2 ^ 149)

/-- Quotient, rounded (R128: correctly rounded division). -/
def f32Div (x y : F32) : F32 :=
  let neg := f32Neg? x != f32Neg? y
  if f32Nan? x || f32Nan? y then f32QNan
  else if f32Special x then (if f32Special y then f32QNan else f32Inf neg)
  else if f32Special y then f32Zero neg
  else if f32Mag y = 0 then (if f32Mag x = 0 then f32QNan else f32Inf neg)
  else f32RoundQ neg (f32Mag x * 2 ^ 149) (f32Mag y)

/-- x < y. -/
def f32Lt (x y : F32) : Bool :=
  if f32Nan? x || f32Nan? y then false
  else
    let v := fun (z : F32) => if f32Special z then (if f32Neg? z then -(2 ^ 300 : Int) else 2 ^ 300) else f32Val z
    decide (v x < v y)

/-- x ≤ y. -/
def f32Le (x y : F32) : Bool := !(f32Nan? x || f32Nan? y) && !f32Lt y x

/-- The greater and the smaller of two numbers. -/
def f32Max (x y : F32) : F32 := if f32Lt x y then y else x
def f32Min (x y : F32) : F32 := if f32Lt y x then y else x

/-- A number rounded to k fractional bits, ties to even (R124, R128); zero for infinity and not-a-number. -/
def f32ToFix (k : Nat) (x : F32) : Int :=
  if f32Special x then 0 else if k ≤ 149 then divRne (f32Val x) (2 ^ (149 - k)) else f32Val x * 2 ^ (k - 149)

/-- One and zero. -/
def f32One : F32 := 0x3F800000#32

/-- w_in and w_out of R112. -/
def wIn (k : Nat) : F32 := f32OfRatio (k + 1) 24
def wOut (k : Nat) : F32 := f32OfRatio (23 - k : Nat) 24

/-- s24 sample to binary32: sample times 2^-23 (R123). -/
def f32OfS24 (s : Int) : F32 := f32OfFix s 23

/-- 24-bit output of R128: ties to even, +2^23 clamped, and clamped to the s24 range (R128 keeps |y| below 1.0). -/
def s24OfF32 (y : F32) : Int := clampI (-8388608) 8388607 (f32ToFix 23 y)

/-- 16-bit output of R128. -/
def s16OfF32 (y : F32) : Int := clampI (-32768) 32767 (f32ToFix 15 y)

end Sys2Proof.Machine
end

