-- ==== Sys2Proof/Machine/Real.lean ====
section
/-! DEFINITION. Sums of products, circular functions and complex numbers in binary32, for the filters, tables and transforms that the
rules define (R100, R139, R146, R152, R155, R164, R204). -/

namespace Sys2Proof.Machine

/-! ### Sums of products -/

/-- A sum of products whose order a rule does not fix (R132: it belongs to the tile programs): zero where every product is zero, else a
free value of the factors (log 10). -/
def dot (l : List (F32 × F32)) : F32 :=
  if l.all fun q => f32Mag q.1 = 0 || f32Mag q.2 = 0 then 0#32 else Config.dotSum l

/-! ### Circular functions -/

/-- π in units of 2^-96. -/
def piFix : Int := 248902613312231085230521944622

/-- Terms of the Taylor series of cosine (k = 0) and sine (k = 1) from the k-th on, x² given, in units of 2^-96. -/
def taylor : Nat → Nat → Int → Int → Int
  | 0, _, _, _ => 0
  | n + 1, k, x2, t => t + taylor n (k + 2) x2 (-(t * x2 / (2 ^ 96 * ((k + 1) * (k + 2) : Nat))))

/-- Cosine and sine of n / d of a quarter turn, n ≤ d, in units of 2^-96. -/
def quarter (n d : Nat) : Int × Int :=
  let x := piFix * n / (2 * d : Nat)
  let x2 := x * x / 2 ^ 96
  (taylor 24 0 x2 (2 ^ 96), taylor 24 1 x2 x)

/-- Cosine and sine of n / d of a turn, in units of 2^-96. -/
def turn (n d : Nat) : Int × Int :=
  let q := quarter (4 * n % d) d
  match 4 * n / d % 4 with
  | 0 => q
  | 1 => (-q.2, q.1)
  | 2 => (-q.1, -q.2)
  | _ => (q.2, -q.1)

/-- The binary32 nearest to the cosine and to the sine of n / d of a turn. -/
def cosF (n d : Nat) : F32 := f32OfFix (turn n d).1 96
def sinF (n d : Nat) : F32 := f32OfFix (turn n d).2 96

/-! ### Complex numbers (R139) -/

/-- A complex number of R139. -/
abbrev Cx := F32 × F32

def cxZero : Cx := (0#32, 0#32)
def cxAdd (a b : Cx) : Cx := (f32Add a.1 b.1, f32Add a.2 b.2)
def cxMul (a b : Cx) : Cx :=
  (f32Sub (f32Mul a.1 b.1) (f32Mul a.2 b.2), f32Add (f32Mul a.1 b.2) (f32Mul a.2 b.1))
def cxConj (a : Cx) : Cx := (a.1, f32Neg a.2)
def cxScale (g : F32) (a : Cx) : Cx := (f32Mul g a.1, f32Mul g a.2)

/-- The squared magnitude. -/
def cxNorm (a : Cx) : F32 := f32Add (f32Mul a.1 a.1) (f32Mul a.2 a.2)

/-- A quotient: the product with the conjugate, over the squared magnitude (DESIGN CHOICE, log 10: the order of its operations). -/
def cxDiv (a b : Cx) : Cx :=
  let n := cxMul a (cxConj b)
  (f32Div n.1 (cxNorm b), f32Div n.2 (cxNorm b))

/-! ### Transforms -/

/-- Σ x[i] e^(-j 2π k i / n) over a list. -/
def dftBin (n k : Nat) (x : List F32) : Cx :=
  (dot (x.zipIdx.map fun q => (q.1, cosF (k * q.2 % n) n)), dot (x.zipIdx.map fun q => (q.1, f32Neg (sinF (k * q.2 % n) n))))

/-- The sum of y[k] e^(+j 2π k i / n) over k from 0 to n - 1, its real part, where the bins above n / 2 are the conjugates of those
below, over n. -/
def idftAt (n : Nat) (y : Nat → Cx) (i : Nat) : F32 :=
  let bin := fun (k : Nat) => if 2 * k ≤ n then y k else cxConj (y (n - k))
  f32Div (dot ((upto n).flatMap fun k => [((bin k).1, cosF (k * i % n) n), ((bin k).2, f32Neg (sinF (k * i % n) n))])) (f32OfRatio n 1)

/-! ### Second-order sections -/

/-- A second-order section: b0, b1, b2 and a1, a2. -/
abbrev Biquad := List F32

/-- One sample through a section whose last inputs and outputs stand in st: x[-1], x[-2], y[-1], y[-2]. -/
def biquadStep (c : Biquad) (x : F32) (st : List F32) : F32 × List F32 :=
  let at_ := fun (l : List F32) (i : Nat) => l.getD i 0#32
  let y := dot [(at_ c 0, x), (at_ c 1, at_ st 0), (at_ c 2, at_ st 1), (f32Neg (at_ c 3), at_ st 2), (f32Neg (at_ c 4), at_ st 3)]
  (y, [x, at_ st 0, y, at_ st 2])

/-- A sample through a cascade of sections, four state values each. -/
def cascadeStep : List Biquad → F32 → List F32 → F32 × List F32
  | [], x, _ => (x, [])
  | c :: r, x, st =>
    let q := biquadStep c x (st.take 4)
    let t := cascadeStep r q.1 (st.drop 4)
    (t.1, q.2 ++ t.2)

/-- Samples through a cascade. -/
def cascade (cs : List Biquad) : List F32 → List F32 → List F32 × List F32
  | [], st => ([], st)
  | x :: r, st =>
    let q := cascadeStep cs x st
    let t := cascade cs r q.2
    (q.1 :: t.1, t.2)

end Sys2Proof.Machine
end

