-- ==== Sys2Proof/Machine/Echo.lean ====
section
/-! DEFINITION. Echo cancellation, voice activity and hum (R132 to R162): one data Period of one Leg, and the rows that
move their states. -/

namespace Sys2Proof.Machine

/-! ### Helpers: square root, decades, binary16, records -/

/-- The binary32 nearest to the square root of a number that is not negative, ties to even, from 2^-149 units. -/
def f32Sqrt (x : F32) : F32 :=
  let m := f32Mag x
  if m = 0 then f32Zero false
  else
    -- root of m * 2^149 in units of 2^-149, with 64 more bits and a sticky bit
    let r := Nat.sqrt (m * 2 ^ (149 + 128))
    f32RoundQ false (2 * r + (if r * r = m * 2 ^ (149 + 128) then 0 else 1)) (2 ^ 65)

/-- Whole decades of a number, counted with fuel. -/
def log10Fuel : Nat → Nat → Nat
  | 0, _ => 0
  | k + 1, n => if n < 10 then 0 else 1 + log10Fuel k (n / 10)

/-- The greatest t with 10^t not above n / d. -/
def log10Floor (n d : Nat) : Int :=
  if d ≤ n then log10Fuel 8000 (n / d)
  else
    let t := log10Fuel 8000 (d / n)
    if 10 ^ t * n = d then -(t : Int) else -(t + 1 : Int)

/-- The integer nearest to k times the decimal logarithm of n / d, halves upward (R152). -/
def log10Units (k n d : Nat) : Int := (log10Floor (n ^ (2 * k)) (d ^ (2 * k)) + 1).fdiv 2

/-- Binary16 on write-back (R139): ties to even, below 2^-24 zero, above 65,504 that value; P is never negative. -/
def toF16 (x : F32) : BitVec 16 :=
  let m := f32Mag x
  if m < 2 ^ 125 then 0
  else if 65504 * 2 ^ 149 < m || f32Special x then 0x7BFF
  else
    let sh := max 125 (Nat.log2 m - 10)
    let q := divRneN m (2 ^ sh)
    BitVec.ofNat 16 (min 0x7BFF ((sh - 125) * 1024 + q))

/-- Exact binary32 of a binary16 that is not negative. -/
def ofF16 (h : BitVec 16) : F32 :=
  let e := h.toNat / 1024 % 32
  let f := h.toNat % 1024
  f32OfScaled (if e = 0 then f * 2 ^ 125 else (1024 + f) * 2 ^ (124 + e) : Nat) 1

/-- The 47 values of a record from bins 0 to 23 (R138). -/
def binValues (b : List Cx) : List F32 := ((upto 24).flatMap fun k => let z := b.getD k cxZero; if k = 0 then [z.1] else [z.1, z.2])

/-- Writing a record (R138): the least exponent for which every mantissa fits, ties to even; -128 for all zero. -/
def putRecord (b : List Cx) : Record :=
  let v := (binValues b).map f32Val
  if v.all fun x => decide (x = 0) then { e := -128, m := List.replicate 47 0 }
  else
    let fits := fun (i : Nat) => v.all fun x => decide ((divRne x (2 ^ (10 + i))).natAbs ≤ 2047)
    let i := ((upto 256).find? fits).getD 255
    { e := (i : Int) - 128, m := v.map fun x => clampI (-2047) 2047 (divRne x (2 ^ (10 + i))) }

/-- Bins of a record, exact (R138). -/
def getRecord (r : Record) : List Cx :=
  let v := fun i => f32OfScaled (r.m.getD i 0 * 2 ^ (138 + r.e).toNat) 1
  (upto 24).map fun k => if k = 0 then (v 0, 0#32) else (v (2 * k - 1), v (2 * k))

/-- A record of zeros. -/
def zeroRecord : Record := { e := -128, m := List.replicate 47 0 }

def zero24 : Block := List.replicate 24 0#32

/-! ### Settings (R133) -/

def echoMode (a3 : Word) : Nat := fld a3 0 2
def echoRes (a3 : Word) : Bool := bit a3 2
def echoCng (a3 : Word) : Bool := bit a3 3
def echoFreeze (a3 : Word) : Bool := bit a3 4
def refOther (a3 : Word) : Bool := bit a3 5
def refLeg (a3 : Word) : Nat := fld a3 6 12
def echoDelay (a3 : Word) : Nat := fld a3 18 8
def vadOfs (a3 : Word) : Nat := fld a3 26 4
def humEn (a3 : Word) : Bool := bit a3 30

/-- Partitions of a mode (R139). -/
def partitions (mode : Nat) : Nat := if mode = 2 then 512 else 128

/-- A list cut or filled with zero records to a length. -/
def recordsTo (k : Nat) (l : List Record) : List Record := (l ++ List.replicate (k - l.length) zeroRecord).take k

/-! ### The canceller: changes that act on the data gathered from their boundary (R136, R145) -/

/-- What one data Period gives a Leg's chain. -/
structure EchoIn where
  leg    : Nat
  /-- boundary count and PIDX of the data -/
  ord    : Nat
  pidx   : Word
  /-- A3 of this data Period -/
  a3     : Word
  /-- what has changed since the chain last ran (R136): MODE was turned off, with the boundary count; the tail was cut, or grew; the
  reference or its delay; RES_EN or CNG_EN; the RX or TX binding -/
  off     : Option Nat
  cut     : Bool
  grown   : Bool
  refMoved : Bool
  resMoved : Bool
  rebound : Bool
  /-- R147: the port entered ON -/
  anew   : Bool
  active : Bool
  conceal : Bool
  frozen : List Nat
  /-- the input after rate conversion, and the reference -/
  input  : Block
  ref    : Block
  /-- R147: the port's count of changes at the boundary of the data -/
  changes : Nat
  /-- R149: a seed from the latest sounding that is eligible, and whether the checkpoint is unreadable -/
  reseed : Option (List Record)
  noCheck : Bool

/-- A seed has come to the data Period from which it applies (R147). -/
def EchoIn.from_ (x : EchoIn) (q : Seed) : Bool := decide (q.from_ ≤ x.ord)

/-- The canceller enabled (R136, R144, R145). -/
def Echo.enable (x : EchoIn) (c : Echo) : Echo :=
  { reverts := c.reverts
    seeds := c.seeds
    seed := c.seed
    state := .fast
    w := List.replicate (partitions (echoMode x.a3)) zeroRecord
    hist := List.replicate (partitions (echoMode x.a3)) zeroRecord
    rPrev := zero24
    p := List.replicate 24 0
    lfsr := w32 (0x5EED0000 + x.leg)
    fastLeft := 64
    eventPidx := x.pidx }

/-- Filter, history and reference block zero, state FAST (R136). -/
def Echo.restart (x : EchoIn) (c : Echo) : Echo :=
  { c with
    state := .fast
    w := List.replicate (partitions (echoMode x.a3)) zeroRecord
    hist := List.replicate (partitions (echoMode x.a3)) zeroRecord
    rPrev := zero24
    lfsr := w32 (0x5EED0000 + x.leg)
    t := 0
    divRun := 0
    fastLeft := 64
    fromZero := true
    seedNo := none
    eventPidx := x.pidx }

/-- A seed in the filter (R145, R146, R147): P, A and the history are kept. A filter in error is replaced by it (R162). -/
def Echo.applySeed (x : EchoIn) (q : Seed) (c : Echo) : Echo :=
  { c with
    state := .fast
    w := recordsTo (partitions (echoMode x.a3)) q.w
    divRun := 0
    fastLeft := 64
    fromZero := false
    seeds := satAdd c.seeds 1
    seed := none
    seedNo := some q.no
    bad := false
    eventPidx := x.pidx }

/-- A filter of zeros, or one taken from a seed (R149): the canceller is reset; its history and its gain are kept. -/
def Echo.reset (x : EchoIn) (reseed : Option (List Record)) (c : Echo) : Echo :=
  { c with
    w := recordsTo (partitions (echoMode x.a3)) (reseed.getD [])
    fromZero := reseed.isNone
    seedNo := reseed.map fun _ => x.changes
    p := List.replicate 24 0
    erle := f32One
    t := 0
    lfsr := w32 (0x5EED0000 + x.leg)
    divRun := 0
    state := if c.state = EchoState.frozen then .frozen else .fast
    fastLeft := if c.state = EchoState.frozen then c.fastLeft else 64
    eventPidx := x.pidx }

/-- A seed that is due at a boundary at which the reference or the binding changes is not applied (R162); one that FREEZE holds back waits
on, and is no longer eligible once a later change has ended that (R147). -/
def Echo.dropSeed (x : EchoIn) (c : Echo) : Echo :=
  { c with seed := c.seed.bind fun q =>
      if x.from_ q && ((x.rebound || x.refMoved) && !echoFreeze x.a3 || (q.held || echoFreeze x.a3) && q.no ≠ x.changes) then none
      else some { q with held := q.held || x.from_ q && echoFreeze x.a3 } }

/-- Tail of the filter and of the history (R136): cut to 128 where MODE was 64 ms since, then as MODE has it; a tail that grew is FAST. -/
def Echo.tail (x : EchoIn) (c : Echo) : Echo :=
  let k := partitions (echoMode x.a3)
  let c := if x.cut then { c with w := c.w.take 128, hist := c.hist.take 128 } else c
  let grew := x.grown || c.w.length < k
  let c := { c with w := recordsTo k c.w, hist := recordsTo k c.hist }
  if grew then { c with state := .fast, fastLeft := 64, fromZero := false } else c

/-- Changes of A3 and of the binding since the chain last ran (R136, R145, R147, R162). A canceller that was off between is a new one; a
seed that waited then is discarded. -/
def Echo.changes (x : EchoIn) (c : Echo) : Echo :=
  let c := match x.off with
    | some b => ({ seed := c.seed.bind fun q => if q.from_ ≤ b then none else some q } : Echo)
    | none => c
  let c := c.dropSeed x
  if c.state = .off then c.enable x
  else
    let c := if x.anew then c.reset x none else c
    let c := if x.resMoved then { c with gPrev := f32One } else c
    if x.rebound || x.refMoved then c.restart x else c.tail x

/-- FREEZE and a seed that is due (R145, R147): a seed waits while FREEZE is set. -/
def Echo.seedStep (x : EchoIn) (c : Echo) : Echo :=
  if echoFreeze x.a3 then { c with state := .frozen }
  else
    let c' := if c.state = .frozen then { c with state := .adapt } else c
    match c'.seed with
    | some q => if x.from_ q then c'.applySeed x q else c'
    | none => c'

/-- A revert, or a reset where no checkpoint exists or it is unreadable (R149). -/
def Echo.revert (x : EchoIn) (c : Echo) : Echo :=
  let c := match (if x.noCheck then none else c.check) with
    | some k =>
      { c with
        w := recordsTo (partitions (echoMode x.a3)) k.w
        p := k.p
        erle := k.erle
        fromZero := false
        divRun := 0
        state := if c.state = EchoState.frozen then .frozen else .fast
        fastLeft := if c.state = EchoState.frozen then c.fastLeft else 64
        eventPidx := x.pidx }
    | none => c.reset x x.reseed
  { c with bad := false, badCtl := false, reverts := satAdd c.reverts 1 }

/-! ### Filtering, checks, adaptation (R139 to R142) -/

/-- dft48 of R139: bins 0 to 23 of 48 samples. -/
def dft48 (b : List F32) : List Cx :=
  if b.all (fun v => v = 0#32) then List.replicate 24 cxZero else (upto 24).map fun k => dftBin 48 k b

/-- idft48 of R139: 48 samples from bins 0 to 23, with bin 24 zero. -/
def idft48 (y : List Cx) : List F32 :=
  if y.all (fun v => v.1 = 0#32 && v.2 = 0#32) then List.replicate 48 0#32
  else (upto 48).map (idftAt 48 fun k => y.getD k cxZero)

/-- The echo estimate: partition order fixed (R139). -/
def Echo.estimate (c : Echo) : Block :=
  let y := (c.w.zip c.hist).foldl (fun acc q =>
    ((getRecord q.1).zip (getRecord q.2)).zipWith (fun ab y => cxAdd y (cxMul ab.1 ab.2)) acc) (List.replicate 24 cxZero)
  (idft48 y).drop 24

/-- Energy in sample order (R142). -/
def energy (b : Block) : F32 := b.foldl (fun a v => f32Add a (f32Mul v v)) 0#32

/-- Constants of R142 to R144. -/
def k0875 : F32 := f32OfRatio 875 1000
def kFloorUp : F32 := f32OfRatio 1000115 1000000
def kFour : F32 := f32OfRatio 4 1
def kTwo : F32 := f32OfRatio 2 1
def kSixteen : F32 := f32OfRatio 16 1
def kGmin : F32 := f32OfRatio 3162278 100000000
def kHalf : F32 := f32OfRatio 1 2
def kRoot3 : F32 := f32OfRatio 17320508 10000000

/-- Constraint of one partition (R139): samples 24 to 47 of its inverse set to zero. -/
def constrain (w : List Cx) : List Cx := dft48 ((idft48 w).take 24 ++ zero24)

/-- The step mu of R140 and R141 in one bin. -/
def stepMu (st : EchoState) (conceal : Bool) (frozen : List Nat) (k : Nat) : F32 :=
  if conceal || frozen.contains k then 0#32
  else match st with
    | .fast => f32One
    | .adapt => f32OfRatio 1 4
    | _ => 0#32

/-- Phase B of R139: P, the filter, the constraint, t. A frozen filter is not adapted, and its constraint does not run; in DT it runs
(DEDUCED, log 100). -/
def Echo.adapt (x : EchoIn) (e : Block) (c : Echo) : Echo :=
  let k := partitions (echoMode x.a3)
  let ee := dft48 (zero24 ++ e)
  let h0 := getRecord (c.hist.headD zeroRecord)
  let p := (upto 24).map fun b =>
    let h := h0.getD b cxZero
    f32Add (f32Mul (f32OfRatio 9375 10000) (ofF16 (c.p.getD b 0)))
      (f32Mul (f32OfRatio 625 10000) (f32Add (f32Mul h.1 h.1) (f32Mul h.2 h.2)))
  let g := (upto 24).map fun b =>
    f32Div (stepMu c.state x.conceal x.frozen b) (f32Add (f32Mul (f32OfRatio k 1) (p.getD b 0)) (f32OfRatio 1 65536))
  let w := (c.w.zip c.hist).zipIdx.map fun q =>
    if c.state = .frozen then q.1.1
    else
      let u := (upto 24).map fun b =>
        cxAdd ((getRecord q.1.1).getD b cxZero)
          (cxScale (g.getD b 0) (cxMul (cxConj ((getRecord q.1.2).getD b cxZero)) (ee.getD b cxZero)))
      putRecord (if k = 512 || q.2 = c.t % 128 then constrain u else u)
  { c with w := w, p := p.map toF16, t := (c.t + 1) % 2 ^ 32 }

/-- Codes of a canceller's state (R149, R159). -/
def echoCode : EchoState → Nat
  | .off => 0
  | .fast => 1
  | .adapt => 2
  | .dt => 3
  | .frozen => 4

/-- The 72 bytes of a partition record (R138). -/
def recordBytes (r : Record) : List Byte :=
  leBytes 72 (twos 8 r.e + (r.m.zipIdx).foldl (fun a q => a + twos 12 q.1 * 2 ^ (12 + 12 * q.2)) 0)

/-- The 192 bytes of the control record (R149). -/
def Echo.control (c : Echo) : List Byte :=
  padTo 192 (padTo 96 (wordBytes c.rPrev) ++ padTo 48 (c.p.flatMap fun h => leBytes 2 h.toNat) ++
    wordBytes [c.erle, c.fe, c.ym, c.gPrev, c.lfsr] ++
    [BitVec.ofNat 8 (echoCode c.state), BitVec.ofNat 8 c.dtLeft, BitVec.ofNat 8 c.divRun, BitVec.ofNat 8 c.fastLeft] ++
    wordBytes [w32 c.t, (match c.check with | some k => k.erle | none => 0), w32 c.checkAge] ++
    leBytes 2 c.reverts.toNat ++ leBytes 2 c.seeds.toNat)

/-- The checkpoint at write-back (R148). Its age counts the data Periods for which the Leg is ACTIVE (DEDUCED, log 100). -/
def Echo.checkpoint (x : EchoIn) (reverted : Bool) (c : Echo) : Echo :=
  let due := decide ((x.ord + 1) % 64 = x.leg % 64) && c.state = .adapt && !reverted &&
    (match c.check with
      | none => true
      | some k => f32Le (f32Mul kHalf k.erle) c.erle || decide (1024 < c.checkAge))
  if due then
    let c' := { c with check := some { w := c.w, p := c.p, erle := c.erle, ctl := [] }, checkAge := 0 }
    { c' with check := some { w := c.w, p := c.p, erle := c.erle, ctl := c'.control } }
  else { c with checkAge := c.checkAge + 1 }

/-! ### Suppression and comfort noise (R143, R144) -/

/-- One step of the 32-bit Galois register of R144 (DEDUCED: shifted right, log 31). -/
def lfsrNext (s : Word) : Word := if s.getLsbD 0 then (s >>> 1) ^^^ 0x80200003#32 else s >>> 1

/-- States of the register before each of n samples, and the last. -/
def lfsrRun : Nat → Word → List Word
  | 0, _ => []
  | n + 1, s => lfsrNext s :: lfsrRun n (lfsrNext s)

/-- Suppressor gains g_k of a data Period (R143). -/
def gains (gPrev g : F32) : Block := (upto 24).map fun k => f32Add gPrev (f32Mul (f32Sub g gPrev) (wIn k))

/-- Comfort noise of a sample (R144). -/
def noise (fe gk : F32) (s : Word) : F32 :=
  if gk = f32One then 0#32
  else f32Mul (f32Mul (f32Mul (f32Sqrt (f32Div fe (f32OfRatio 24 1))) (f32Sub f32One gk)) kRoot3) (f32OfFix s.toInt 31)

/-! ### Voice activity (R152, R153) -/

/-- The least floor (R153). -/
def floorMin : F32 := f32OfRatio 24 (2 ^ 32)

/-- The floor F: never less than 24 x 2^-32, and that value while neither ring nor block holds an energy (DESIGN CHOICE, log 100). -/
def Vad.floor (v : Vad) : F32 :=
  match v.ring ++ v.runMin.toList with
  | [] => floorMin
  | a :: r => f32Max floorMin (r.foldl f32Min a)

/-- The band-pass of R152: a 4th-order Butterworth from 200 Hz to 4,000 Hz by the bilinear transform, edges prewarped, as two sections
(R151: ten products a sample); binary32 values nearest to the design (DEDUCED, log 101: the split into sections and of the gain). -/
def bandSections : List Biquad :=
  [[0x3D399214#32, 0#32, 0xBD399214#32, 0xBFA9F3C2#32, 0x3F039053#32],
   [0x3F800000#32, 0#32, 0xBF800000#32, 0xBFFB4D3F#32, 0x3F76CAD4#32]]

/-- 24 samples of the band-pass and its state; silence into a filter at rest leaves it at rest. -/
def bandpass (filt : List F32) (es : Block) : Block × List F32 :=
  if filt.all (fun v => v = 0#32) && es.all (fun v => v = 0#32) then (zero24, filt) else cascade bandSections es filt

/-- Energy of the band-passed block and the new filter state. -/
def Vad.step (update : Bool) (es : Block) (v : Vad) : F32 × Vad :=
  let r := bandpass v.filt es
  let en := energy r.1
  let v := { v with filt := r.2 }
  (en, if update then { v with runMin := some (match v.runMin with | none => en | some m => f32Min m en), count := v.count + 1 } else v)

/-- The score (R152). -/
def score (en fl : F32) (ofs : Nat) : BitVec 8 :=
  if f32Lt en (f32OfRatio 24 (2 ^ 23)) then 0
  else
    let q := (f32Div en fl) &&& 0xFFFF8000#32
    let m := if f32Special q then 2 ^ 400 else f32Mag q
    BitVec.ofNat 8 (clampI 0 255 (log10Units 40 m (2 ^ 149) + 6 * ((ofs : Int) - 8))).toNat

/-! ### Hum (R155 to R157) -/

/-- Phase step of one sample (R155). -/
def humStep (f0 : F32) : Word := w32 (divRne (f32Val f0 * 2 ^ 32) (48000 * 2 ^ 149)).toNat

/-- Cosine and sine of harmonic h at a phase (R155): a table of 4,096 entries at the top 12 bits, linear between entries on the next 12. -/
def humTab (h : Nat) (phi : Word) : F32 × F32 :=
  let a : Nat := (h * phi.toNat) % 2 ^ 32
  let i := a / 2 ^ 20
  let between := fun (u v : F32) => f32Add u (f32Mul (f32Sub v u) (f32OfFix (a / 256 % 4096 : Nat) 12))
  (between (cosF i 4096) (cosF ((i + 1) % 4096) 4096), between (sinF i 4096) (sinF ((i + 1) % 4096) 4096))

/-- One sample: the estimate, d, and the coefficients where they adapt. The sum over the harmonics runs from h = 1 upward, and the two
products of a harmonic are added first (DESIGN CHOICE, log 131). -/
def Hum.sample (adapt : Bool) (v : F32) (c : Hum) : F32 × Hum :=
  let cs := (upto 15).map fun i => humTab (i + 1) c.phi
  let est := (upto 15).foldl (fun a i =>
    f32Add a (f32Add (f32Mul (c.a.getD i 0) (cs.getD i cxZero).1) (f32Mul (c.b.getD i 0) (cs.getD i cxZero).2))) 0#32
  let d := f32Sub v est
  let u := f32Mul (f32OfRatio 1 4096) d
  let c := if adapt then { c with
      a := (upto 15).map fun i => f32Add (c.a.getD i 0) (f32Mul u (cs.getD i cxZero).1)
      b := (upto 15).map fun i => f32Add (c.b.getD i 0) (f32Mul u (cs.getD i cxZero).2) }
    else c
  (d, { c with phi := c.phi + humStep c.f0 })

/-- The samples of a block. -/
def Hum.samples (adapt : Bool) : List F32 → Hum → List F32 × Hum
  | [], c => ([], c)
  | v :: r, c =>
    let q := c.sample adapt v
    let t := q.2.samples adapt r
    (q.1 :: t.1, t.2)

/-- Level of the fundamental in 0.5 dB below full scale (R160). -/
def humLevel (a b : F32) : BitVec 8 :=
  let v := f32Val a * f32Val a + f32Val b * f32Val b
  if v ≤ 0 then 0xFF else BitVec.ofNat 8 (clampI 0 255 (-(log10Units 20 v.natAbs (2 ^ 298)))).toNat

/-- Mean of f0 in mHz, rounded to nearest (R157). -/
def humMean (l : List F32) : Nat :=
  if l.isEmpty then 0 else (divRha (1000 * (l.foldl (fun a f => a + f32Val f) 0)) (l.length * 2 ^ 149)).toNat

/-- The fundamental's a² + b² in units of 2^-298. -/
def Hum.power (c : Hum) : Nat :=
  let a := f32Val (c.a.getD 0 0)
  let b := f32Val (c.b.getD 0 0)
  (a * a + b * b).toNat

/-- The fundamental at or above -100 dBFS; below -106 dBFS (R156). -/
def Hum.loud (c : Hum) : Bool := decide (2 ^ 298 ≤ 10 ^ 10 * c.power)
def Hum.faint (c : Hum) : Bool := decide (10 ^ 106 * c.power ^ 10 < 2 ^ 2980)

/-- A frequency held between 45 Hz and 65 Hz (R155). -/
def humRange (f : F32) : F32 := f32Min (f32OfRatio 65 1) (f32Max (f32OfRatio 45 1) f)

/-- The loop on the phase of harmonic 1, once per data Period (R155): natural frequency 0.5 Hz, damping 0.7, so 0.7 Hz and π / 4,000 Hz
for each radian (DEDUCED, log 102). -/
def Hum.loop (c : Hum) : Hum :=
  let e := f32Neg (Config.angle (c.a.getD 0 0) (c.b.getD 0 0))
  let i := humRange (f32Add c.loopI (f32Mul (f32OfScaled (piFix * 2 ^ 53) 4000) e))
  { c with loopI := i, f0 := humRange (f32Add i (f32Mul (f32OfRatio 7 10) e)) }

/-- Harmonic 1 turns by no more than 0.5 Hz from the held f0 over a data Period, by its coefficients before and after it: 2π × 0.5 Hz × 0.5 ms
(DEDUCED, log 131: R156 does not say how the fundamental's frequency is found). -/
def Hum.nearHeld (old c : Hum) : Bool :=
  let z := cxMul (c.a.getD 0 0, c.b.getD 0 0) (cxConj (old.a.getD 0 0, old.b.getD 0 0))
  decide ((f32Val (Config.angle z.1 z.2)).natAbs ≤ (f32Val (f32OfScaled (piFix * 2 ^ 53) 2000)).natAbs)

/-- The transform of a data Period's input at the 81 frequencies of the search (R156), added to that of the Periods before. -/
def Hum.searchBins (input : Block) (c : Hum) : List Cx :=
  (upto 81).map fun k =>
    let at_ := fun (i : Nat) => (180 + k) * (24 * c.count + i) % 192000
    let add := fun (z : Cx) (q : F32 × Nat) =>
      cxAdd z (cxScale q.1 (cosF (at_ q.2) 192000, f32Neg (sinF (at_ q.2) 192000)))
    (input.zipIdx).foldl add (if c.count = 0 then cxZero else c.bins.getD k cxZero)

/-- Squared magnitude of a bin, in units of 2^-298. -/
def binPower (z : Cx) : Nat := ((f32Val z.1) ^ 2 + (f32Val z.2) ^ 2).toNat

/-- The strongest component of the 8,000 data Periods, where it is at or above -100 dBFS (R156): amplitude 2 |X| / 192,000; of equals the
lowest frequency (DESIGN CHOICE, log 131: the transform has no window). -/
def Hum.strongest (c : Hum) : Option F32 :=
  let m := c.bins.foldl (fun a z => max a (binPower z)) 0
  if 192000 ^ 2 * 2 ^ 298 ≤ 4 * m * 10 ^ 10 then
    (c.bins.findIdx? fun z => decide (binPower z = m)).map fun k => f32OfRatio (180 + k) 4
  else none

/-- The distance of two frequencies is above n / d Hz. -/
def apart (f g : F32) (n d : Nat) : Bool := decide (n * 2 ^ 149 < (f32Val f - f32Val g).natAbs * d)

/-- The counts of R156 after a data Period in which the loop ran: f0 within ±20 mHz of where the count began, f0 changing faster than
2 Hz/s, a faint fundamental, Periods in COAST. A count of the ±20 mHz that f0 leaves begins again from f0 as it then is (DESIGN CHOICE,
log 131). -/
def Hum.counts (old : F32) (c : Hum) : Hum :=
  let off := apart c.f0 c.heldF0 20 1000
  { c with
    heldF0 := if off then c.f0 else c.heldF0
    heldRun := if off then 0 else c.heldRun + 1
    fast := apart c.f0 old 1 1000
    lowRun := if c.faint then c.lowRun + 1 else 0
    coastRun := if c.state = .coast then c.coastRun + 1 else 0 }

/-- One data Period of a line Leg's hum canceller: d and the new state. FREQ is flagged by the latest data Period alone (DESIGN CHOICE,
log 131). -/
def Hum.run (en active conceal untr : Bool) (pidx : Word) (input : Block) (c : Hum) : Block × Hum :=
  if !en then (input, { dataPidx := pidx })
  else
    let c := if c.state = .off then { c with state := .search, a := List.replicate 15 0, b := List.replicate 15 0 } else c
    let c := { c with dataPidx := pidx, paused := conceal || !active }
    if !active then (input, c)
    else
      let c := if c.state = .search && !conceal then { c with bins := c.searchBins input, count := c.count + 1 } else c
      if !c.running then (input, c)
      else
        let q := c.samples (!conceal) input
        let before := c
        let c := q.2
        let old := c.f0
        let c := if conceal then c else (if c.state = .coast then c else c.loop).counts old
        let c := if conceal then c else { c with
          hist := (c.f0 :: c.hist).take 2000
          near := before.nearHeld c
          level := humLevel (c.a.getD 0 0) (c.b.getD 0 0)
          atten := BitVec.ofNat 8 (min 255 (Config.humAtten input q.1)) }
        (q.1, if c.state = .locked && !conceal then { c with freq := humMean c.hist, untr := untr } else c)

/-! ### One data Period of one Leg (R132) -/

/-- What the chain answers. -/
structure ChainOut where
  e     : Block
  d     : Block
  yh    : Block
  x     : Block
  es    : Block
  echo  : Echo
  /-- a memory error made the canceller revert -/
  fixed : Bool
  /-- the checkpoint was read -/
  reread : Bool

/-- Double talk and divergence over a data Period (R142, R145): the canceller, whether double talk is declared, whether it diverged. A
concealed data Period, and one in which the Leg is not ACTIVE, counts neither towards the 40 Periods of DT nor towards the 8 of divergence,
and breaks no run (DESIGN CHOICE, log 129). -/
def Echo.checks (conceal : Bool) (ed ee : F32) (c : Echo) : Echo × Bool × Bool :=
  let loud := f32Lt (f32Mul kSixteen c.fe) ed
  let talk := !conceal && f32Lt (f32Mul kFour c.ym) ed && loud && !(c.state = .fast && c.fromZero)
  let may := c.state = .fast || c.state = .adapt || c.state = .dt
  let c1 := if talk && may then { c with state := .dt, dtLeft := 40, divRun := 0 }
    else if c.state = .dt && !conceal then { c with dtLeft := c.dtLeft - 1 } else c
  let bad := !conceal && !talk && (c.state = .fast || c.state = .adapt) && f32Lt (f32Mul kTwo ed) ee && loud
  let c2 := { c1 with divRun := if bad then c1.divRun + 1 else if conceal then c1.divRun else 0 }
  (c2, talk, decide (8 ≤ c2.divRun))

/-- Echo subtraction, suppression, comfort noise and adaptation of an ACTIVE Leg with the canceller on (R139 to R149). A steps in a DT
Period in which double talk is not declared; Ym and Fe are those of the filter before a divergence revert (DEDUCED, log 100). -/
def Echo.process (x : EchoIn) (d : Block) (c : Echo) : ChainOut :=
  let mem := c.bad || c.badCtl
  let c := if mem then c.revert x else c
  let y0 := c.estimate
  let e0 := d.zipWith f32Sub y0
  let ed := energy d
  let ee0 := energy e0
  let c := { c with
    ym := f32Max (energy y0) (f32Mul k0875 c.ym)
    fe := f32Min ee0 (f32Mul c.fe kFloorUp) }
  let k := c.checks x.conceal ed ee0
  let c := if k.2.2 then k.1.revert x else k.1
  let yh := if k.2.2 then c.estimate else y0
  let e := if k.2.2 then d.zipWith f32Sub yh else e0
  let ey := energy yh
  let ee := energy e
  let c := if !k.2.1 && !k.2.2 && f32Le (f32Mul kSixteen c.fe) ey then
      { c with erle := f32Add c.erle (f32Mul (f32OfRatio 1 64) (f32Sub (f32Div ed (f32Max ee c.fe)) c.erle)) }
    else c
  let r := f32Div ey (f32Max c.erle f32One)
  let g := f32Sub f32One (f32Div (f32Mul kTwo r) (f32Max ee (f32OfRatio 1 (2 ^ 60))))
  let g := f32Min f32One (f32Max (if c.state = .dt then kHalf else kGmin) g)
  let gs := if echoRes x.a3 then gains c.gPrev g else List.replicate 24 f32One
  let es := e.zipWith f32Mul gs
  let ls := if echoCng x.a3 then lfsrRun 24 c.lfsr else []
  let xs := if echoCng x.a3 then (es.zip (gs.zip ls)).map fun q => if q.2.1 = f32One then q.1 else f32Add q.1 (noise c.fe q.2.1 q.2.2) else es
  let c := { c with
    gPrev := if echoRes x.a3 then g else f32One
    lastG := gs.getD 23 f32One
    lfsr := ls.getLastD c.lfsr }
  let c := (c.adapt x e).checkpoint x (mem || k.2.2)
  let c := if c.state = .fast then { c with fastLeft := c.fastLeft - 1 } else c
  { e := e, d := d, yh := yh, x := xs, es := es, echo := c, fixed := mem, reread := mem || k.2.2 }

/-- History as a data Period finds it, newest first (R139, R373): record of data j at index j modulo the tail, so that a data Period that
was lost for good leaves the record that its index held (DEDUCED, log 128). -/
def Echo.histFor (ord : Nat) (c : Echo) : List Record :=
  let k := c.hist.length
  if ord ≤ c.histOrd + 1 then c.hist
  else (upto k).map fun p => c.hist.getD ((c.histOrd + p + 1 + (k - 1) * ord) % k) zeroRecord

/-- Echo subtraction to comfort noise of one Leg (R132 steps 2, 3 and 5). t counts the data Periods of R139 in which the Leg is ACTIVE
(DESIGN CHOICE, log 129). -/
def Echo.run (x : EchoIn) (d : Block) (c : Echo) : ChainOut :=
  let plain := fun (c : Echo) => ChainOut.mk d d zero24 d d { c with dataPidx := x.pidx } false false
  if echoMode x.a3 = 0 then
    plain { seed := c.seed.bind fun q => if x.from_ q then none else some q }
  else
    let c := (c.changes x).seedStep x
    let c := { c with
      hist := recordsTo (partitions (echoMode x.a3)) (putRecord (dft48 (c.rPrev ++ x.ref)) :: c.histFor x.ord)
      histOrd := x.ord
      rPrev := x.ref }
    if !x.active then plain c
    else
      let o := c.process x d
      { o with echo := { o.echo with dataPidx := x.pidx } }

/-! ### Seeds (R146, R147) -/

/-- Frequencies of R204 in units of 25 Hz. -/
def soundFreqs : List Nat :=
  [4, 5, 6, 7, 8, 9, 11, 13, 16, 19, 22, 26, 31, 37, 44, 52, 62, 73, 87, 103, 122, 145, 172, 204, 242, 287, 340, 404, 479, 568, 674, 800]

/-- Step 1 of R146, as magnitude in dB and phase: c Z / (Z + Zt), with Zt of ZT and c = DRV_FS / RX_FS (R172, R173). -/
def echoTransfer (a1 a2 : Word) (z : Cx) : F32 × F32 :=
  let zt := f32OfRatio (100 + 2 * fld a1 16 8) 1
  let c := f32OfRatio (2 ^ fld a2 0 2) (2 ^ fld a2 2 2)
  let h := cxScale c (cxDiv z (cxAdd z (zt, 0#32)))
  (f32Mul (f32OfRatio 10 1) (Config.log10 (cxNorm h)), Config.angle h.1 h.2)

/-- Phases unwrapped: each within half a turn of the one before. -/
def unwrap : F32 → List F32 → List F32
  | _, [] => []
  | p, a :: r =>
    let two := f32OfScaled (piFix * 2 ^ 54) 1
    let half := f32OfScaled (piFix * 2 ^ 53) 1
    let n := upto 9
    let up := n.foldl (fun b _ => if f32Lt half (f32Sub p b) then f32Add b two else b) a
    let b := n.foldl (fun b _ => if f32Lt half (f32Sub b p) then f32Sub b two else b) up
    b :: unwrap b r

/-- Step 2 of R146 at a frequency in units of 25 Hz, from 100 Hz to 20 kHz: linear in log frequency between two points. -/
def betweenPoints (hs : List (Nat × F32 × F32)) (f : Nat) : F32 × F32 :=
  let lo := (hs.filter fun h => h.1 ≤ f).getLastD (4, 0#32, 0#32)
  match hs.find? fun h => f < h.1 with
  | none => lo.2
  | some hi =>
    let lf := fun (n : Nat) => Config.log10 (f32OfRatio n 1)
    let k := f32Div (f32Sub (lf f) (lf lo.1)) (f32Sub (lf hi.1) (lf lo.1))
    let mid := fun (a b : F32) => f32Add a (f32Mul (f32Sub b a) k)
    (mid lo.2.1 hi.2.1, mid lo.2.2 hi.2.2)

/-- The raised cosine from 1 at 0 to 0 at n. -/
def raised (i n : Nat) : F32 := f32Mul kHalf (f32Add f32One (cosF i (2 * n)))

/-- Steps 1 and 2 of R146 at 125 Hz × g: below 100 Hz the value at 100 Hz; from 20 kHz to 24 kHz a raised cosine, the value at 20 kHz
being held under it (DEDUCED, log 101). -/
def seedGrid (hs : List (Nat × F32 × F32)) (g : Nat) : Cx :=
  let h := betweenPoints hs (min 800 (max 4 (5 * g)))
  let m := f32Mul (Config.exp10 (f32Div h.1 (f32OfRatio 20 1))) (if 160 < g then raised (g - 160) 32 else f32One)
  (f32Mul m (Config.cosOf h.2), f32Mul m (Config.sinOf h.2))

/-- The 384 taps of R146 steps 1 to 4: the half-Hann of taps 288 to 383 is 1 at tap 288 and would be 0 at tap 384 (DEDUCED, log 101). -/
def seedTaps (points : List Cx) (a1 a2 : Word) : List F32 :=
  let h := points.map (echoTransfer a1 a2)
  let ph := match h with | [] => [] | x :: r => x.2 :: unwrap x.2 (r.map (·.2))
  let hs := soundFreqs.zip ((h.map (·.1)).zip ph)
  let grid := (upto 193).map (seedGrid hs)
  (upto 384).map fun i =>
    f32Mul (idftAt 384 (fun k => grid.getD k cxZero) i) (if i < 288 then f32One else raised (i - 288) 96)

/-- Partitions of a seed (R146 steps 5 and 6). -/
def seedRecords (points : List Cx) (a1 a2 : Word) : List Record :=
  let taps := seedTaps points a1 a2
  (upto 16).map fun p => putRecord (dft48 ((taps.drop (24 * p)).take 24 ++ zero24))

/-- A sounding from a start boundary is still eligible on its port (R147). -/
def Watch.fresh (w : Watch) (start : Nat) : Bool :=
  decide (w.attOrd < start) && decide (w.termOrd ≤ start) && decide (w.onOrd ≤ start)

/-- The points of the latest sounding of a port that completed and is eligible (R147, R149): one that runs or was aborted since does not
hide it. -/
def State.eligiblePoints (s : State) (p : Nat) : Option (List Cx) :=
  let x := s.sounding p
  let w := s.watch p
  if x.status = 2 && x.eligible && !x.waitsStep && w.fresh x.startOrd then some x.points
  else match x.prior with
    | some q => if w.fresh q.1 then some q.2 else none
    | none => none

/-- The seed from the latest eligible sounding of a line Leg's port (R149). -/
def State.seedOf (s : State) (l : Nat) : Option (List Record) :=
  if l < 48 then (s.eligiblePoints l).map fun ps => seedRecords ps (s.portCfg l).a1 (s.portCfg l).a2 else none

/-- The states of a Leg that phase A holds back from write-back (R25), newest first, with those of State last: a change
that comes from outside the audio reaches all of them. -/
def State.onChain (s : State) (l : Nat) (fe : Echo → Echo) (fv : Vad → Vad) (fh : Hum → Hum) : State :=
  let f := fun (d : DataSet) => { d with phaseA := d.phaseA.map fun q =>
    if q.1 = l then (q.1, { q.2 with echo := fe q.2.echo, vad := fv q.2.vad, hum := fh q.2.hum }) else q }
  (((s.onEchoL l fe).onVadL l fv).onHumL l fh).onMix fun m => { m with compute := m.compute.map f, emit := m.emit.map f }

/-! ### Rows -/

/-- A Leg's work for a data Period is lost for good: it has no tile, or its tile's work is lost (R29, R361). -/
def DataSet.legDead (d : DataSet) (l : Nat) : Bool :=
  match d.legTile.lookup l with | none => true | some t => d.dead.contains t

/-- State of a Leg's canceller, voice activity or hum as the latest data left it. -/
def State.lastChain (s : State) (l : Nat) : Echo × Vad × Hum :=
  let look := fun (d : Option DataSet) => match d with
    | some d => if d.back.contains l || (d.legDead l && (tget (legCfg0 l) d.cfg.legs l).bound) then none else (d.phaseA.lookup l)
    | none => none
  match look s.mix.compute, look s.mix.emit with
  | some a, _ => (a.echo, a.vad, a.hum)
  | none, some a => (a.echo, a.vad, a.hum)
  | none, none => (s.echoL l, s.vadL l, s.humL l)

/-- A completed eligible sounding seeds the canceller from a boundary count, where a change has occurred since the seed in force was made
(R147). Where none is in force, as after a reset of the filter, it seeds (DEDUCED, log 130). -/
def State.seedFrom (s : State) (p ord : Nat) : State :=
  let no := (s.watch p).changes
  match s.seedOf p with
  | some rs => if (s.lastChain p).1.seedNo ≠ some no then
      s.onChain p (fun c => { c with seed := some { from_ := ord, no := no, w := rs } }) id id
    else s
  | none => s

/-- FAST_EXPIRY (R145): 64 data Periods in FAST. -/
def execFastExpiry (l : LegIx) (s : State) : Host.Outcome State Fault Refusal :=
  let c := (s.lastChain l).1
  if c.state = .fast && c.fastLeft = 0 then .next (s.onChain l (fun c => if c.state = .fast then { c with state := .adapt } else c) id id)
  else .next s

/-- DOUBLE_TALK_EXPIRY (R145): 40 data Periods without double talk. -/
def execDoubleTalkExpiry (l : LegIx) (s : State) : Host.Outcome State Fault Refusal :=
  let c := (s.lastChain l).1
  if c.state = .dt && c.dtLeft = 0 then
    .next (s.onChain l (fun c => if c.state = .dt then { c with state := if c.fastLeft = 0 then .adapt else .fast } else c) id id)
  else .next s

/-- Closing of a block (R153). -/
def Vad.close (v : Vad) : Vad :=
  { v with ring := (v.runMin.toList ++ v.ring).take 16, runMin := none, count := 0 }

/-- VAD_BLOCK_CLOSE (R153): after 200 data Periods in which the floor was updated. -/
def execVadBlockClose (l : LegIx) (s : State) : Host.Outcome State Fault Refusal :=
  let v := (s.lastChain l).2.1
  if 200 ≤ v.count then .next (s.onChain l id (fun v => if v.runMin.isSome then v.close else v) id) else .next s

/-- HUM_SEARCH (R156): after 8,000 data Periods in SEARCH the loop starts at the strongest component, where it is loud enough. The transform
over those Periods decides; the row's finding changes nothing. -/
def execHumSearch (p : PortIx) (_found : Option F32) (s : State) : Host.Outcome State Fault Refusal :=
  let c := (s.lastChain p).2.2
  if c.state = .search && 8000 ≤ c.count && !c.paused then
    .next (s.onChain p id id fun h => match c.strongest with
      | some f => { h with count := 0, f0 := f, loopI := f, heldF0 := f, heldRun := 0, running := true }
      | none => { h with count := 0 })
  else .next s

/-- The condition of a move of the hum canceller stands (R156): 4,000 Periods within ±20 mHz, 2,000 Periods below -106 dBFS, f0 moving
faster than 2 Hz/s, a fundamental back at -100 dBFS and within 0.5 Hz of the held f0, 20,000 Periods in COAST. No count ends while the counts are paused. -/
def Hum.may (ev : HumEvent) (c : Hum) : Bool :=
  !c.paused && (match ev with
    | .held => c.running && decide (4000 ≤ c.heldRun)
    | .lowLevel => decide (2000 ≤ c.lowRun)
    | .fastChange => c.fast
    | .returned => c.loud && c.near
    | .coastOut => decide (20000 ≤ c.coastRun))

/-- A move of the hum canceller (R156); the report begins with LOCKED (R157). -/
def Hum.move (ev : HumEvent) (untr : Bool) (c : Hum) : Hum :=
  if !c.may ev then c
  else match c.state, ev with
  | .search, .held => { c with state := .locked, lowRun := 0, freq := humMean c.hist, untr := untr }
  | .locked, .lowLevel => { c with state := .coast, coastRun := 0 }
  | .locked, .fastChange => { c with state := .search, count := 0, heldF0 := c.f0, heldRun := 0 }
  | .coast, .returned => { c with state := .locked, lowRun := 0 }
  | .coast, .coastOut => { c with state := .search, count := 0, heldF0 := c.f0, heldRun := 0 }
  | _, _ => c

/-- HUM_STATE_TIMER (R156). -/
def execHumStateTimer (p : PortIx) (ev : HumEvent) (s : State) : Host.Outcome State Fault Refusal :=
  .next (s.onChain p id id (Hum.move ev s.untrusted))

end Sys2Proof.Machine
end

