-- ==== Sys2Proof/Machine/Gain.lean ====
section
/-! DEFINITION. The gain codes of R111. -/

namespace Sys2Proof.Machine

/-- A gain code that R111 defines. -/
def gainOk (c : Nat) : Bool := decide (c ≤ 0x98)

/-- The binary32 value nearest to 10^(dB / 20) for every gain code, mute first (R111). -/
def gainTable : List F32 :=
  [ 0x00000000, 0x3A2F33CD, 0x3A399570, 0x3A44948C, 0x3A503A77, 0x3A5C9112, 0x3A69A2D7, 0x3A777ADA,
    0x3A83126F, 0x3A8AD6A8, 0x3A9310B1, 0x3A9BC784, 0x3AA50287, 0x3AAEC98E, 0x3AB924E5, 0x3AC41D56,
    0x3ACFBC31, 0x3ADC0B51, 0x3AE91528, 0x3AF6E4C6, 0x3B02C2F2, 0x3B0A8276, 0x3B12B782, 0x3B1B690D,
    0x3B249E76, 0x3B2E5F8F, 0x3B38B49F, 0x3B43A669, 0x3B4F3E37, 0x3B5B85E0, 0x3B6887CF, 0x3B764F0E ] ++
  [ 0x3B8273A6, 0x3B8A2E77, 0x3B925E89, 0x3B9B0ACE, 0x3BA43AA2, 0x3BADF5D1, 0x3BB8449C, 0x3BC32FC3,
    0x3BCEC08A, 0x3BDB00C0, 0x3BE7FACC, 0x3BF5B9B0, 0x3C02248A, 0x3C09DAAC, 0x3C1205C6, 0x3C1AACC8,
    0x3C23D70A, 0x3C2D8C52, 0x3C37D4DD, 0x3C42B965, 0x3C4E4329, 0x3C5A7BF1, 0x3C676E1E, 0x3C7524AC,
    0x3C81D59F, 0x3C898712, 0x3C91AD39, 0x3C9A4EFC, 0x3CA373AF, 0x3CAD2314, 0x3CB76563, 0x3CC24350 ] ++
  [ 0x3CCDC614, 0x3CD9F773, 0x3CE6E1C6, 0x3CF49003, 0x3D0186E2, 0x3D0933AC, 0x3D1154E1, 0x3D19F169,
    0x3D231090, 0x3D2CBA15, 0x3D36F62B, 0x3D41CD81, 0x3D4D494A, 0x3D597345, 0x3D6655C3, 0x3D73FBB4,
    0x3D813856, 0x3D88E078, 0x3D90FCBF, 0x3D99940E, 0x3DA2ADAD, 0x3DAC5156, 0x3DB68738, 0x3DC157FB,
    0x3DCCCCCD, 0x3DD8EF67, 0x3DE5CA15, 0x3DF367BF, 0x3E00E9F9, 0x3E088D77, 0x3E10A4D3, 0x3E1936EC ] ++
  [ 0x3E224B06, 0x3E2BE8D7, 0x3E361887, 0x3E40E2BB, 0x3E4C509B, 0x3E586BD9, 0x3E653EBB, 0x3E72D424,
    0x3E809BCC, 0x3E883AA8, 0x3E904D1C, 0x3E98DA02, 0x3EA1E89B, 0x3EAB8097, 0x3EB5AA1A, 0x3EC06DC3,
    0x3ECBD4B4, 0x3ED7E89B, 0x3EE4B3B6, 0x3EF240E2, 0x3F004DCE, 0x3F07E80B, 0x3F0FF59A, 0x3F187D50,
    0x3F21866C, 0x3F2B1896, 0x3F353BEF, 0x3F3FF911, 0x3F4B5918, 0x3F5765AC, 0x3F642905, 0x3F71ADF9 ] ++
  [ 0x3F800000, 0x3F8795A0, 0x3F8F9E4D, 0x3F9820D7, 0x3FA12478, 0x3FAAB0D5, 0x3FB4CE08, 0x3FBF84A6,
    0x3FCADDC8, 0x3FD6E30D, 0x3FE39EA9, 0x3FF11B6A, 0x3FFF64C1, 0x40074368, 0x400F4735, 0x4017C496,
    0x4020C2BF, 0x402A4952, 0x40346063, 0x403F1082, 0x404A62C2, 0x405660BD, 0x406314A0, 0x40708933,
    0x407EC9E1 ]

/-- Linear gain of a code (R111). -/
def gainOf (c : Nat) : F32 := gainTable.getD c 0#32

end Sys2Proof.Machine
end

