-- ==== Sys2Proof/Machine/Legs.lean ====
section
/-! DEFINITION. Legs and Talk Groups as configuration (R97 to R118): what the commands on them check and what their
changes do at a boundary. -/

namespace Sys2Proof.Machine

/-! ### Streams' fields that Legs look at (R288) -/

/-- Fields of a parameter block's first word. -/
def strWord0 (b : List Byte) : Word := wordAt b 0
def strPaths (b : List Byte) : Nat := fld (strWord0 b) 0 2
def strCh (b : List Byte) : Nat := fld (strWord0 b) 3 3 + 1
def strRate (b : List Byte) : Nat := fld (strWord0 b) 6 3
def strPtime (b : List Byte) : Nat := fld (strWord0 b) 9 2

/-! ### Fields of a Leg's words (R106, R110, R133) -/

def rxEn (a1 : Word) : Bool := bit a1 14
def txEn (a1 : Word) : Bool := bit a1 30
def rxStream (a1 : Word) : Nat := fld a1 0 11
def txStream (a1 : Word) : Nat := fld a1 16 11
def rxCh (a1 : Word) : Nat := fld a1 11 3
def txCh (a1 : Word) : Nat := fld a1 27 3

def keyGroup (w : Word) : Nat := fld w 0 10
def keyGain (w : Word) : Nat := fld w 16 8
def keyEn (w : Word) : Bool := bit w 24

/-- Line, PDM, biphase and network Legs (R97). -/
def isLineLeg (l : Nat) : Bool := decide (l < 48)
def isPdmLeg (l : Nat) : Bool := decide (48 ≤ l) && decide (l < 72)
def isNetLeg (l : Nat) : Bool := decide (80 ≤ l)

/-- A Leg with an input (R119) and a Leg with an output (R127). -/
def legHasInput (l : Nat) (a1 : Word) : Bool := !isNetLeg l || rxEn a1
def legHasOutput (l : Nat) (a1 : Word) : Bool := !isPdmLeg l && (!isNetLeg l || txEn a1)

/-- Key words of a Leg by slot. -/
def LegCfg.listenKey (c : LegCfg) (i : Nat) : Word := tget keyReset c.listen i
def LegCfg.talkKey (c : LegCfg) (i : Nat) : Word := tget keyReset c.talk i
def LegCfg.listenKeys (c : LegCfg) : List Word := (upto 16).map c.listenKey
def LegCfg.talkKeys (c : LegCfg) : List Word := (upto 4).map c.talkKey

/-- Legs whose configuration is not at its reset words, with it. -/
def State.legsSet (s : State) : List (Nat × LegCfg) := s.mix.legs

/-- Any enabled key of any Leg names a group (R116). -/
def State.keyNames (s : State) (g : Nat) : Bool :=
  s.legsSet.any fun l => (l.2.listen ++ l.2.talk).any fun k => keyEn k.2 && keyGroup k.2 = g

/-- The group is the INT_GROUP of an IFB that is not UNUSED (R116). -/
def State.interrupts (s : State) (g : Nat) : Bool :=
  s.mix.groups.any fun x => x.2.state ≠ .unused && x.2.kind = 2 && fld x.2.a3 0 10 = g

/-- Legs with 256 ms tails that a member carries (R135). -/
def State.longTails (s : State) (w : Nat) : List Nat :=
  (s.legsSet.filter fun l => legCarried w l.1 && echoMode l.2.a3 = 2).map (·.1)

/-! ### Changes at a boundary -/

/-- Leg state codes (R107). -/
def legCode : LegState → Nat
  | .free => 0
  | .bound => 1
  | .active => 2
  | .paused => 3

/-- Group state codes (R118). -/
def grpCode : GrpState → Nat
  | .unused => 0
  | .open_ => 1
  | .shared => 2

/-- The RX and TX binding that a Leg's A1 gives (R106): the fields of a direction that is not enabled bind nothing. -/
def bindingOf (a1 : Word) : Option (Nat × Nat) × Option (Nat × Nat) :=
  (if rxEn a1 then some (rxStream a1, rxCh a1) else none, if txEn a1 then some (txStream a1, txCh a1) else none)

/-- Boundary counts of what a new A3 changes (R136). Each LEG_SET counts by itself: two at one boundary that change a field and change it
back are two changes (DESIGN CHOICE, log 127). -/
def LegSt.marks (old a3 : Word) (ord : Nat) (x : LegSt) : LegSt :=
  let at_ := fun (b : Bool) (n : Nat) => if b then ord else n
  { x with
    offOrd := at_ (echoMode old ≠ 0 && echoMode a3 = 0) x.offOrd
    cutOrd := at_ (echoMode old = 2 && echoMode a3 = 1) x.cutOrd
    growOrd := at_ (echoMode old = 1 && echoMode a3 = 2) x.growOrd
    refOrd := at_ (fld a3 5 21 ≠ fld old 5 21) x.refOrd
    resOrd := at_ (echoRes a3 ≠ echoRes old || echoCng a3 ≠ echoCng old) x.resOrd
    humOrd := at_ (humEn a3 ≠ humEn old) x.humOrd }

/-- LEG_SET configure in effect (R103, R106): a bind takes A1 to A3 with every key disabled; a modify keeps the keys. -/
def State.legSet (s : State) (l : Nat) (a1 a2 a3 : Word) : State :=
  if (s.legCfg l).bound then
    let moved := bindingOf (s.legCfg l).a1 ≠ bindingOf a1
    let s := s.onLegSt l (LegSt.marks (s.legCfg l).a3 a3 s.time.ord)
    let s := s.onLegCfg l fun c => { c with a1 := a1, a2 := a2, a3 := a3 }
    if moved then s.onLegSt l fun x => { x with moveOrd := s.time.ord } else s
  else (s.onLegCfg l fun _ => { bound := true, a1 := a1, a2 := a2, a3 := a3, listen := [], talk := [] }).onLegSt l fun x =>
    { x with state := .bound, bindOrd := s.time.ord, moveOrd := s.time.ord }

/-- LEG_SET unbind in effect (R103, R106). -/
def State.legUnbind (s : State) (l : Nat) : State :=
  (s.onLegCfg l fun _ => legCfg0 l).onLegSt l fun _ => legSt0 l

/-- A boundary count at which a Leg leaves ACTIVE is kept for its votes (R395). -/
def leaveActive (ord : Nat) (to_ : LegState) (x : LegSt) : LegSt :=
  { x with state := to_, leftActive := if x.state = .active then some ord else x.leftActive }

/-- An armed pause or resume takes place (R103, R108). A resumed Leg is BOUND until its source is seen to deliver. -/
def State.legAct (s : State) (l : Nat) (pause : Bool) : State :=
  s.onLegSt l fun x =>
    let x := { x with armed := none }
    if pause then (if x.state = .bound || x.state = .active then leaveActive s.time.ord .paused x else x)
    else if x.state = .paused then { x with state := .bound } else x

/-- KEY_SET in effect (R110). -/
def State.keySet (s : State) (l : Nat) (talk : Bool) (slot : Nat) (w : Word) : State :=
  s.onLegCfg l fun c =>
    if talk then { c with talk := tput keyReset slot w c.talk } else { c with listen := tput keyReset slot w c.listen }

/-- GRP_SET open or modify in effect (R115): fields that the kind does not use read as their reset values. -/
def State.grpOpen (s : State) (g : Nat) (kind : BitVec 2) (a1 a2 a3 : Word) : State :=
  s.onGrp g fun x => { x with
    state := .open_
    kind := kind
    a1 := if kind = 0 then a1 else ({} : GroupCfg).a1
    a2 := if kind = 0 then a2 else ({} : GroupCfg).a2
    a3 := if kind = 2 then a3 else ({} : GroupCfg).a3 }

/-- A Leg or group change in effect. -/
def State.applyMix (s : State) (c : Change) : State :=
  match c with
  | .legSet l a1 a2 a3 => s.legSet l a1 a2 a3
  | .legUnbind l => s.legUnbind l
  | .legAct l p => s.legAct l p
  | .keySet l t i w => s.keySet l t i w
  | .grpSet g k a1 a2 a3 => s.grpOpen g k a1 a2 a3
  | .grpClose g => s.onGrp g fun _ => {}
  | .grpShare g r => s.onGrp g fun x => { x with state := .shared, ringNo := BitVec.ofNat 10 r }
  | .grpUnshare g => s.onGrp g fun x => { x with state := .open_, ringNo := 0 }
  | _ => s

/-! ### LEG_SET (R105, R106, R134, R135) -/

/-- Argument ranges of LEG_SET configure. -/
def legSetArgsOk (c : CmdWords) : Bool :=
  let l := fld c.a0 0 12
  (c.a1 &&& 0x80008000#32) = 0 && (c.a2 &&& 0xFFFFFE00#32) = 0 && c.a4 = 0 && c.a5 = 0 &&
  gainOk (fld c.a2 0 8) &&
  (isNetLeg l || c.a1 = 0) && (!isNetLeg l || rxEn c.a1 || txEn c.a1) &&
  echoMode c.a3 ≠ 3 && !bit c.a3 31 && (!bit c.a3 30 || isLineLeg l) &&
  !(refOther c.a3 && isPdmLeg (refLeg c.a3)) &&
  !(echoMode c.a3 ≠ 0 && !refOther c.a3 && !legHasOutput l c.a1)

/-- A stream channel that a Leg other than l has bound in a direction (R106). -/
def channelTaken (t : State) (l : Nat) (tx : Bool) (stream ch : Nat) : Bool :=
  t.legsSet.any fun x => x.1 ≠ l && x.2.bound && isNetLeg x.1 &&
    (if tx then txEn x.2.a1 && txStream x.2.a1 = stream && txCh x.2.a1 = ch
     else rxEn x.2.a1 && rxStream x.2.a1 = stream && rxCh x.2.a1 = ch)

/-- Object state of a bind or modify: channels exist and are free, and both streams have one rate (R99, R106). A stream that is not
configured has no channels, so a command that names one completes STATE (DESIGN CHOICE, log 112). -/
def legSetStateOk (t : State) (l : Nat) (a1 : Word) : Bool :=
  let rx := t.rxS (rxStream a1)
  let tx := t.txS (txStream a1)
  (!rxEn a1 || (rx.conf && decide (rxCh a1 < strCh rx.block) && !channelTaken t l false (rxStream a1) (rxCh a1))) &&
  (!txEn a1 || (tx.conf && decide (txCh a1 < strCh tx.block) && !channelTaken t l true (txStream a1) (txCh a1))) &&
  !(rxEn a1 && txEn a1 && strRate rx.block ≠ strRate tx.block)

/-- LEG_SET. t is the state that the earlier accepted commands leave at the boundary of the effect (R104). -/
def legSetChecked (x : Ctx) (s t : State) : Verdict :=
  let c := x.cmd
  let l := fld c.a0 0 12
  let op := fld c.a0 12 2
  let w := s.wingsNext
  if (c.a0 &&& 0xFFFFC000#32) ≠ 0 || 2 ≤ op then .reject stBadarg
  else if op = 1 then
    if c.a4 ≠ 0 || c.a5 ≠ 0 || !isNetLeg l then .reject stBadarg
    else if !legCarried w l then .reject stNocap
    else if !(t.legCfg l).bound || (t.legSt l).armed.isSome then .reject stState
    else .config s s.effectOrd [.legUnbind l] 0
  else if !legSetArgsOk c then .reject stBadarg
  else if !legCarried w l || (refOther c.a3 && !legCarried w (refLeg c.a3)) then .reject stNocap
  else if echoMode c.a3 = 2 && echoMode (t.legCfg l).a3 ≠ 2 && memberTails w ≤ (t.longTails w).length then .reject stNocap
  else if isNetLeg l && !legSetStateOk t l c.a1 then .reject stState
  else .config s s.effectOrd [.legSet l c.a1 c.a2 c.a3] 0

/-! ### LEG_GET (R107) -/

/-- A0 to A3 of a Leg as accepted, and its keys: the configuration part of the record (R107, R426). -/
def legWords (l : Nat) (c : LegCfg) : List Word := [w32 l, c.a1, c.a2, c.a3]
def legKeyBytes (c : LegCfg) : List Byte := wordBytes (c.listenKeys ++ c.talkKeys)

/-- Bytes 0x10 to 0x1F of the record. -/
def legStateBytes (s : State) (l : Nat) : List Byte :=
  let x := s.legSt l
  let v := tget ({} : LegView) s.mix.shownViews l
  let arm := match x.armed with | none => 0 | some a => if a.pause then 1 else 2
  let pidx := match x.armed with | none => 0#32 | some a => s.pidxAt a.ord
  wordBytes [pack [(0, legCode x.state), (2, arm), (4, v.admitted.toNat), (8, v.speaking.toNat), (12, b2n v.callIn),
    (13, b2n v.callOut)], pidx, w32 v.score.toNat, 0]

/-- The 128-byte record. acc is the configuration as accepted, staged changes included. -/
def legRecord (s acc : State) (l : Nat) : List Byte :=
  wordBytes (legWords l (acc.legCfg l)) ++ legStateBytes s l ++ legKeyBytes (acc.legCfg l) ++ List.replicate 16 0

/-- LEG_GET. -/
def legGetChecked (x : Ctx) (s acc : State) : Verdict :=
  let c := x.cmd
  let l := fld c.a0 0 12
  if (c.a0 &&& 0xFFFFF000#32) ≠ 0 || c.a2 ≠ 0 || c.a3 ≠ 0 || c.a4 ≠ 0 || c.a5 ≠ 0 || !x.resultOk s c.a1 128 then .reject stBadarg
  else if !legCarried s.wingsNext l then .reject stNocap
  else .done s s.pidx s.cmd.epoch (some (c.a1, legRecord s acc l))

/-! ### LEG_PAUSE (R105, R108) -/

/-- The staged pause or resume of a Leg is taken out (R108). -/
def dropLegAct (l : Nat) (q : List Staged) : List Staged :=
  q.filter fun x => match x.change with
    | .legAct k _ => k ≠ l
    | _ => true

/-- LEG_PAUSE. tAt is the state that the earlier accepted commands leave at the named boundary. -/
def legPauseChecked (x : Ctx) (s : State) (tAt : Nat → State) : Verdict :=
  let c := x.cmd
  let l := fld c.a0 0 12
  let act := fld c.a0 12 2
  if (c.a0 &&& 0xFFFFC000#32) ≠ 0 || act = 3 || c.a2 ≠ 0 || c.a3 ≠ 0 || c.a4 ≠ 0 || c.a5 ≠ 0 then .reject stBadarg
  else if !legCarried s.wingsNext l then .reject stNocap
  else if act = 2 then
    match (s.legSt l).armed with
    | none => .reject stState
    | some a =>
      if a.ord < s.effectOrd then .reject stState
      else
        let s1 := (s.onLegSt l fun y => { y with armed := none }).onCmd fun m => { m with staged := dropLegAct l m.staged }
        .config s1 s.effectOrd [] (s.unstated 1)
  else match s.namedOrd c.a1 with
    | none => .reject stState
    | some ord =>
      let st := ((tAt ord).legSt l).state
      if (s.legSt l).armed.isSome then .reject stBusy
      else if act = 0 && !(st = .bound || st = .active) then .reject stState
      else if act = 1 && st ≠ .paused then .reject stState
      else
        let s1 := s.onLegSt l fun y => { y with armed := some { pause := act = 0, ord := ord } }
        .config (if act = 1 then s1.armVotes [l] else s1) ord [.legAct l (act = 0)] (s.unstated 1)

/-! ### KEY_SET (R110) -/

/-- KEY_SET. -/
def keySetChecked (x : Ctx) (s t : State) : Verdict :=
  let c := x.cmd
  let l := fld c.a0 0 12
  let talk := bit c.a0 12
  let slot := fld c.a0 13 4
  let w := c.a1
  if (c.a0 &&& 0xFFFE0000#32) ≠ 0 || (w &&& 0xFE00FC00#32) ≠ 0 || c.a2 ≠ 0 || c.a3 ≠ 0 || c.a4 ≠ 0 || c.a5 ≠ 0 ||
      (talk && 4 ≤ slot) || !gainOk (keyGain w) then .reject stBadarg
  else if !legCarried s.wingsNext l || memberGroups s.wingsNext ≤ keyGroup w then .reject stNocap
  else
    let k := t.legCfg l
    let others := if talk then (upto 4).filterMap fun i => if i = slot then none else some (k.talkKey i)
      else (upto 16).filterMap fun i => if i = slot then none else some (k.listenKey i)
    if !k.bound then .reject stState
    else if keyEn w && ((t.grp (keyGroup w)).state = .unused || others.any fun o => keyEn o && keyGroup o = keyGroup w) then
      .reject stState
    else .config s s.effectOrd [.keySet l talk slot w] (s.unstated 1)

/-! ### GRP_SET (R115 to R117) -/

/-- Ranges of the fields that a kind uses. -/
def grpArgsOk (kind : Nat) (c : CmdWords) : Bool :=
  if kind = 0 then
    (c.a1 &&& 0xF00000C0#32) = 0 && decide (1 ≤ fld c.a1 0 6) && decide (fld c.a1 0 6 ≤ 32) &&
    decide (40 ≤ fld c.a1 8 12) && decide (fld c.a1 8 12 ≤ 4000) &&
    (c.a2 &&& 0xFFFF0000#32) = 0 && decide (fld c.a2 8 8 ≤ fld c.a2 0 8)
  else if kind = 1 then true
  else (c.a3 &&& 0x0000FC00#32) = 0 && gainOk (fld c.a3 16 8) && gainOk (fld c.a3 24 8)

/-- Settings that the members of one ring number share (R117). -/
def sharedSame (g : GroupCfg) (p : BitVec 2 × Word × Word × Word) : Bool :=
  g.kind = p.1 &&
  (if g.kind = 0 then g.a1 = p.2.1 && g.a2 = p.2.2.1 else true) &&
  (if g.kind = 2 then fld g.a3 16 16 = fld p.2.2.2 16 16 else true)

/-- A share completes STATE (R117). The settings known of a ring number in use hold, for an IFB, the ring number of the
interrupt group in A3[9:0]. -/
def shareBlocked (s t : State) (g ringNo : Nat) : Bool :=
  let x := t.grp g
  let int := t.grp (fld x.a3 0 10)
  t.imdal.state ≠ .enrolled ||
  t.mix.groups.any (fun y => y.1 ≠ g && y.2.state = .shared && y.2.ringNo.toNat = ringNo) ||
  (match s.imdal.peerGroups.lookup ringNo with
    | none => false
    | some p => !sharedSame x p || (x.kind = 2 && fld p.2.2.2 0 10 ≠ int.ringNo.toNat)) ||
  (x.kind = 2 && int.state ≠ .shared)

/-- GRP_SET. The boundary agreed on the ring for a share is the one of R57 at this device (DESIGN CHOICE, log 113). -/
def grpSetChecked (x : Ctx) (s t : State) : Verdict :=
  let c := x.cmd
  let g := fld c.a0 0 10
  let kind := fld c.a0 10 2
  let op := fld c.a0 12 2
  let w := s.wingsNext
  let cur := t.grp g
  if (c.a0 &&& 0xFC00C000#32) ≠ 0 || c.a4 ≠ 0 || c.a5 ≠ 0 || (op = 0 && (kind = 3 || !grpArgsOk kind c)) then .reject stBadarg
  else if memberGroups w ≤ g || (op = 0 && kind = 2 && memberGroups w ≤ fld c.a3 0 10) then .reject stNocap
  else if op = 0 then
    let int := t.grp (fld c.a3 0 10)
    if cur.state = .shared then .reject stState
    else if cur.state = .open_ && cur.kind.toNat ≠ kind && (t.keyNames g || t.interrupts g) then .reject stState
    else if kind = 2 && (int.state = .unused || int.kind ≠ 0 || fld c.a3 0 10 = g) then .reject stState
    else .config s s.effectOrd [.grpSet g (BitVec.ofNat 2 kind) c.a1 c.a2 c.a3] (s.unstated 1)
  else if op = 1 then
    if cur.state ≠ .open_ || t.keyNames g || t.interrupts g then .reject stState
    else .config s s.effectOrd [.grpClose g] (s.unstated 1)
  else if op = 2 then
    if cur.state ≠ .open_ || shareBlocked s t g (fld c.a0 16 10) then .reject stState
    else .config s s.effectOrd [.grpShare g (fld c.a0 16 10)] (s.unstated 1)
  else if cur.state ≠ .shared then .reject stState
  else if cur.kind = 0 && t.mix.groups.any (fun y => y.2.state = .shared && y.2.kind = 2 && fld y.2.a3 0 10 = g) then
    .reject stState
  else .config s s.effectOrd [.grpUnshare g] (s.unstated 1)

/-! ### GRP_GET (R118) -/

/-- Number of enabled talk or listen keys on a group. -/
def State.keysOn (s : State) (talk : Bool) (g : Nat) : Nat :=
  s.legsSet.foldl (fun n l =>
    n + ((if talk then l.2.talk else l.2.listen).filter fun k => keyEn k.2 && keyGroup k.2 = g).length) 0

/-- A0 to A3 of a group as accepted. -/
def grpWords (g : Nat) (x : GroupCfg) : List Word := [pack [(0, g), (10, x.kind.toNat), (16, x.ringNo.toNat)], x.a1, x.a2, x.a3]

/-- Talkers admitted to a group, ring-wide where it is SHARED (R118). -/
def State.admittedIn (s : State) (g : Nat) : Nat :=
  let own := ((tget [] s.mix.shownAdm g).filter (·.admitted)).length
  match (s.grp g).state with
  | .unused => 0
  | .open_ => own
  | .shared => tget own s.mix.shownRing g

/-- The 32-byte record. -/
def grpRecord (s acc : State) (g : Nat) : List Byte :=
  wordBytes (grpWords g (acc.grp g) ++ [pack [(0, grpCode (s.grp g).state), (2, s.admittedIn g),
    (8, b2n (s.mix.shownInt.contains g)), (9, b2n (s.mix.shownCalls.contains g))],
    pack [(0, acc.keysOn true g), (16, acc.keysOn false g)], 0, 0])

/-- GRP_GET. -/
def grpGetChecked (x : Ctx) (s acc : State) : Verdict :=
  let c := x.cmd
  let g := fld c.a0 0 10
  if (c.a0 &&& 0xFFFFFC00#32) ≠ 0 || c.a2 ≠ 0 || c.a3 ≠ 0 || c.a4 ≠ 0 || c.a5 ≠ 0 || !x.resultOk s c.a1 32 then .reject stBadarg
  else if memberGroups s.wingsNext ≤ g then .reject stNocap
  else .done s s.pidx s.cmd.epoch (some (c.a1, grpRecord s acc g))

end Sys2Proof.Machine
end

