-- ==== Sys2Proof/Machine/Streams.lean ====
section
/-! DEFINITION. Media streams as configuration (R284 to R294): parameter blocks, commands, states. -/

namespace Sys2Proof.Machine

/-! ### Fields of a parameter block (R288, R289) -/

def strL16 (b : List Byte) : Bool := bit (strWord0 b) 2
def strQueue (b : List Byte) : Nat := if bit (strWord0 b) 11 then 7 else 6
def strV6 (b : List Byte) : Bool := bit (strWord0 b) 12
def strSsrcChk (b : List Byte) : Bool := bit (strWord0 b) 13
def strCallExt (b : List Byte) : Nat := fld (strWord0 b) 14 4
def strJb (b : List Byte) : Nat := fld (wordAt b 1) 0 8
def strPt (b : List Byte) : Nat := fld (wordAt b 1) 8 7
def strDscp (b : List Byte) : Nat := fld (wordAt b 1) 16 6
def strLaunch (b : List Byte) : Nat := fld (wordAt b 1) 22 9
def strSsrc (b : List Byte) : Word := wordAt b 2
def strTsOfs (b : List Byte) : Word := wordAt b 3

/-- Path record of a port (R289). -/
def strPath (b : List Byte) (port : Nat) : List Byte := (b.drop (0x10 + 0x30 * port)).take 0x30
def pathDst (r : List Byte) : List Byte := r.take 16
def pathSrc (r : List Byte) : List Byte := (r.drop 16).take 16
def pathMac (r : List Byte) : List Byte := (r.drop 0x20).take 6
def pathVlan (r : List Byte) : Nat := halfAt r 0x26
def pathDstPort (r : List Byte) : List Byte := (r.drop 0x28).take 2
def pathSrcPort (r : List Byte) : List Byte := (r.drop 0x2A).take 2

/-- A path of the stream runs on the port. -/
def strHasPort (b : List Byte) (port : Nat) : Bool := strPaths b / 2 ^ port % 2 = 1

/-- Samples a Period of a rate code, 48 kHz first (R285, R288). -/
def rateSamples (r : Nat) : Nat := if r = 0 then 24 else if r = 1 then 16 else if r = 2 then 12 else if r = 3 then 8 else 4

/-- Sample rate in Hz of a rate code. -/
def rateHz (r : Nat) : Nat := rateSamples r * 2000

/-- Samples a packet (R285). -/
def packetSamples (b : List Byte) : Nat :=
  if strPtime b = 3 then 2 * rateSamples (strRate b) else rateSamples (strRate b) / 2 ^ (2 - strPtime b)

/-- Packet time in ns. -/
def packetNs (b : List Byte) : Nat := 125000 * 2 ^ strPtime b

def allZero (bs : List Byte) : Bool := bs.all (· = 0)

/-- A multicast IP address of 16 bytes in a path record (R289). -/
def ipMulticast (v6 : Bool) (a : List Byte) : Bool := if v6 then byteAt a 0 = 0xFF else byteAt a 0 / 16 = 0xE

/-- A path record that PATHS names is in range (R289, R290). -/
def pathOk (b : List Byte) (tx : Bool) (port : Nat) : Bool :=
  let r := strPath b port
  let v6 := strV6 b
  (v6 || (allZero ((pathDst r).drop 4) && allZero ((pathSrc r).drop 4))) &&
  allZero (r.drop 0x2C) &&
  (!tx || (!allZero (pathSrc r) && !(allZero (pathMac r) && !ipMulticast v6 (pathDst r))))

/-- Ranges of a parameter block (R288, R290). -/
def strBlockOk (b : List Byte) (tx : Bool) : Bool :=
  let w0 := strWord0 b
  let w1 := wordAt b 1
  strPaths b ≠ 0 && decide (strRate b ≤ 4) && (w0 &&& 0xFFFC0000#32) = 0 && strCallExt b ≠ 0xF &&
  (tx || !bit w0 11) && (!tx || !bit w0 13) &&
  (w1 &&& 0x80008000#32) = 0 &&
  (if tx then decide (strLaunch b ≤ 499)
   else decide (4 ≤ strJb b) && decide (strJb b ≤ 0xA0) && decide (packetNs b ≤ strJb b * 125000)) &&
  allZero (b.drop 0x70) &&
  (upto 2).all (fun p => !strHasPort b p || pathOk b tx p)

/-- Two address fields can match one frame: equal, or one of them matches any (R289). -/
def anyMatch (a b : List Byte) : Bool := allZero a || allZero b || a = b

/-- A frame could match both RX streams on some port (R290, R300). -/
def strClash (a b : List Byte) : Bool :=
  (upto 2).any fun p => strHasPort a p && strHasPort b p && strV6 a = strV6 b &&
    (let x := strPath a p
     let y := strPath b p
     pathDst x = pathDst y && pathDstPort x = pathDstPort y && anyMatch (pathSrc x) (pathSrc y) &&
     anyMatch (pathSrcPort x) (pathSrcPort y) &&
     !(pathVlan x / 2 ^ 15 = 1 && pathVlan y / 2 ^ 15 = 1 && pathVlan x % 4096 ≠ pathVlan y % 4096) &&
     !(strSsrcChk a && strSsrcChk b && strSsrc a ≠ strSsrc b))

/-- A block without what a limited configure may change, DSCP, LAUNCH_OFS and the PCP of either path (R293), and without what is
ignored: JB on TX, the record of a port that PATHS does not name (R288, R289; DEDUCED, log 16). -/
def strFixed (tx : Bool) (b : List Byte) : List Byte :=
  let w1 := (wordAt b 1) &&& (if tx then 0x8000FF00#32 else 0x8000FFFF#32)
  let rec_ := fun port =>
    if strHasPort b port then
      let r := strPath b port
      r.take 0x26 ++ leBytes 2 (pathVlan r &&& 0x8FFF) ++ r.drop 0x28
    else List.replicate 48 0#8
  b.take 4 ++ leBytes 4 w1.toNat ++ (b.drop 8).take 8 ++ rec_ 0 ++ rec_ 1 ++ b.drop 0x70

/-- State codes (R316). -/
def strCode : StreamState → Nat
  | .idle => 0
  | .armed => 1
  | .run => 2
  | .starved => 3
  | .lost => 4

/-- One stream by direction. -/
def State.strm (s : State) (tx : Bool) (n : Nat) : Stream := if tx then s.txS n else s.rxS n
def State.onStrm (s : State) (tx : Bool) (n : Nat) (f : Stream → Stream) : State := if tx then s.onTxS n f else s.onRxS n f

/-- A change of stream state with its trace record of class 0x03 (R431). -/
def State.strState (s : State) (tx : Bool) (n : Nat) (st : StreamState) : State :=
  if (s.strm tx n).state = st then s
  else (s.onStrm tx n fun x => { x with state := st }).record 3 (pack [(0, n), (11, b2n tx), (12, strCode st)])

/-- Legs that a stream is bound to. -/
def State.legsOn (s : State) (tx : Bool) (n : Nat) : List (Nat × LegCfg) :=
  s.legsSet.filter fun l => isNetLeg l.1 && l.2.bound &&
    (if tx then txEn l.2.a1 && txStream l.2.a1 = n else rxEn l.2.a1 && rxStream l.2.a1 = n)

/-! ### Membership reports (R304) -/

/-- The block of a stream at a boundary count: the last configure accepted for it or before, else the one in force (R57). -/
def State.blockBy (s : State) (tx : Bool) (n ord : Nat) : List Byte :=
  let new := s.cmd.staged.filterMap fun g => match g.change with
    | .streamSet d m b => if d = tx && m = n && g.ord ≤ ord then some b else none
    | _ => none
  new.getLast?.getD (s.strm tx n).block

/-- The block that a report of a stream reads: while it is ARMED that of its start. -/
def State.reportBlock (s : State) (n : Nat) : List Byte :=
  let x := s.rxS n
  match x.state, x.armed.find? fun a => !a.pause with
  | .armed, some a => s.blockBy false n a.ord
  | _, _ => x.block

/-- Type of the group record (R304; PRESUMED, log 136: the numbers of IGMPv3 and MLDv2): a change of the listening state, or the state as it
is; of all sources, or of one. -/
def recordKind (one leave fresh : Bool) : Nat :=
  if one then (if leave then 6 else if fresh then 5 else 1) else if leave then 3 else if fresh then 4 else 2

/-- The report of a path of a block. -/
def reportOf (b : List Byte) (n port : Nat) (leave fresh : Bool) : Report :=
  let r := strPath b port
  { port := port, stream := n, kind := recordKind (!allZero (pathSrc r)) leave fresh, v6 := strV6 b, vlan := pathVlan r
    group := pathDst r, src := pathSrc r }

/-- A report or a leave for each multicast path of an RX stream; a leave is not sent while another stream that is not IDLE
uses the same group and source on the port. -/
def State.report (s : State) (n : Nat) (leave fresh : Bool) : State :=
  let b := s.reportBlock n
  s.forAll (upto 2) fun s p =>
    let r := strPath b p
    let used := s.media.rx.any fun y => y.1 ≠ n && y.2.state ≠ .idle && strHasPort (s.reportBlock y.1) p &&
      pathDst (strPath (s.reportBlock y.1) p) = pathDst r && pathSrc (strPath (s.reportBlock y.1) p) = pathSrc r
    if strHasPort b p && ipMulticast (strV6 b) (pathDst r) && !(leave && used) then
      s.onMedia fun m => { m with reports := (n, p, leave) :: m.reports, reportsDue := m.reportsDue ++ [reportOf b n p leave fresh] }
    else s

/-! ### Changes at a boundary -/

/-- A stream enters ARMED (R294, R304). -/
def State.streamArm (s : State) (tx : Bool) (n : Nat) : State :=
  let s := s.strState tx n .armed
  if tx then s else (s.report n false true).onRxS n fun y => { y with reportMono := s.monoNs }

/-- A stream enters IDLE (R294, R304): an RX stream receives nothing more, and leaves its groups. -/
def State.streamIdle (s : State) (tx : Bool) (n : Nat) : State :=
  let s := (s.strState tx n .idle).onStrm tx n fun x => { x with used0 := false, used1 := false, anyCall := false }
  if tx then s.onMedia fun m => { m with packets := m.packets.filter fun k => k.stream ≠ n || k.ord < s.time.ord }
  else (s.onRxS n fun x => { x with slots := [], calls := [], usedBy := [], empty := 0 }).report n true true

/-- A start or pause takes place (R294). A stream whose next start is armed already goes from IDLE to ARMED. -/
def State.streamAct (s : State) (tx : Bool) (n : Nat) (pause : Bool) (up : Bool) : State :=
  let s := s.onStrm tx n fun x => { x with armed := x.armed.drop 1 }
  let x := s.strm tx n
  let st := x.state
  if pause then
    if st = .idle || st = .armed then s
    else
      let s1 := if st = .starved || st = .lost then s.raise irqNet else s
      let s2 := s1.streamIdle tx n
      if x.armed.any fun a => !a.pause then s2.streamArm tx n else s2
  else if st ≠ .armed then s
  else if tx && !up then (s.strState tx n .lost).raise irqNet
  else s.strState tx n .run

/-- A cancel takes effect (R108, R292): every action still armed is withdrawn (DESIGN CHOICE, log 135), and a stream that is ARMED is IDLE. -/
def State.streamCancel (s : State) (tx : Bool) (n : Nat) : State :=
  let s := s.onStrm tx n fun x => { x with armed := [] }
  if (s.strm tx n).state = .armed then s.streamIdle tx n else s

/-- STREAM_SET release in effect (R291). -/
def State.streamRelease (s : State) (tx : Bool) (n : Nat) : State := s.onStrm tx n fun _ => {}

/-- STREAM_SET configure in effect. -/
def State.streamConf (s : State) (tx : Bool) (n : Nat) (b : List Byte) : State :=
  s.onStrm tx n fun x => { x with conf := true, block := b }

/-! ### STREAM_SET (R287 to R290, R293) -/

/-- STREAM_SET. -/
def streamSetChecked (x : Ctx) (s t : State) : Verdict :=
  let c := x.cmd
  let n := fld c.a0 0 11
  let tx := bit c.a0 11
  let op := fld c.a0 12 2
  let cur := t.strm tx n
  if (c.a0 &&& 0xFFFFC000#32) ≠ 0 || 2 ≤ op || c.a2 ≠ 0 || c.a3 ≠ 0 || c.a4 ≠ 0 || c.a5 ≠ 0 then .reject stBadarg
  else if op = 1 then
    if !cur.conf || cur.state ≠ .idle || !cur.armed.isEmpty || !(t.legsOn tx n).isEmpty then .reject stState
    else .config s s.effectOrd [.streamRelease tx n] 0
  else match blockAt s.regions c.a1 128 with
    | none => .reject stBadarg
    | some at_ =>
      let b := s.readBlock at_ 128
      if !strBlockOk b tx then .reject stBadarg
      else
        let legs := t.legsOn tx n
        let clash := !tx && t.media.rx.any fun y => y.1 ≠ n && y.2.conf && strClash b y.2.block
        let chBad := legs.any fun l => strCh b ≤ (if tx then txCh l.2.a1 else rxCh l.2.a1)
        let rateBad := cur.conf && !legs.isEmpty && strRate b ≠ strRate cur.block
        let limited := cur.state ≠ .idle && strFixed tx b ≠ strFixed tx cur.block
        if clash || chBad || rateBad || limited then .reject stState
        else .config (s.blockMet at_ 128) s.effectOrd [.streamSet tx n b] 0

/-! ### STREAM_PAUSE (R292, R293) -/

/-- The staged starts and pauses of a stream that a cancel reaches are taken out. -/
def dropStreamAct (tx : Bool) (n ord : Nat) (q : List Staged) : List Staged :=
  q.filter fun x => match x.change with
    | .streamAct d k _ => !(d = tx && k = n && ord ≤ x.ord)
    | _ => true

/-- STREAM_PAUSE. A start puts an IDLE stream into ARMED when it is accepted (R294); a cancel acts at its boundary. The state is that of the
boundary of the effect (R104). -/
def streamPauseChecked (x : Ctx) (s : State) (tAt : Nat → State) : Verdict :=
  let c := x.cmd
  let n := fld c.a0 0 11
  let tx := bit c.a0 11
  let act := fld c.a0 12 2
  if (c.a0 &&& 0xFFFFC000#32) ≠ 0 || act = 3 || c.a2 ≠ 0 || c.a3 ≠ 0 || c.a4 ≠ 0 || c.a5 ≠ 0 then .reject stBadarg
  else if act = 2 then
    if (s.strm tx n).armed.any fun a => decide (s.effectOrd ≤ a.ord) then
      .config (s.onCmd fun m => { m with staged := dropStreamAct tx n s.effectOrd m.staged }) s.effectOrd [.streamCancel tx n] (s.unstated 1)
    else .reject stState
  else match s.namedOrd c.a1 with
    | none => .reject stState
    | some ord =>
      let cur := (tAt ord).strm tx n
      if cur.state = .armed then .reject stBusy
      else if act = 1 && !(cur.conf && cur.state = .idle) then .reject stState
      else if act = 0 && cur.state = .idle then .reject stState
      else if !cur.armed.isEmpty then .reject stBusy
      else
        let s1 := s.onStrm tx n fun y => { y with armed := y.armed ++ [{ pause := act = 0, ord := ord }] }
        let s2 := if act = 1 then (if (s1.strm tx n).state = .idle then s1.streamArm tx n else s1).armVotes ((s.legsOn tx n).map (·.1)) else s1
        .config s2 ord [.streamAct tx n (act = 0)] (s.unstated 1)

end Sys2Proof.Machine
end

