-- ==== Sys2Proof/Machine/Shaping.lean ====
section
/-! DEFINITION. Media windows, shapers, Q5 weights, policers and maps (R305 to R315). -/

namespace Sys2Proof.Machine

/-! ### Buckets (R308, R314) -/

/-- One bucket refilled: debt first, capped at its size. Units of 1/8,000,000 byte. -/
def bucketFill (t : Int) (rate size dt : Nat) : Int := min ((size : Int) * 8000000) (t + (rate * dt : Nat))

/-- refill of R308. -/
def Shaper.refill (now : Nat) (x : Shaper) : Shaper :=
  { x with
    tc := bucketFill x.tc x.a1.toNat x.a2.toNat (now - x.last)
    tp := bucketFill x.tp x.a3.toNat x.a4.toNat (now - x.last)
    last := now }

def Shaper.en (x : Shaper) : Bool := bit x.a5 8
def Shaper.ovhd (x : Shaper) : Nat := fld x.a5 0 6

/-- Colours of R308 and R314. -/
inductive Colour where
  | green
  | yellow
  | red
  deriving DecidableEq, Repr

/-- Colour of the frame at a queue's head (R308), the shaper already refilled. -/
def Shaper.colour (x : Shaper) : Colour :=
  if !x.en then .green else if x.tp < 0 then .red else if x.tc < 0 then .yellow else .green

/-- charge of R308. -/
def Shaper.charge (bytes : Nat) (col : Colour) (x : Shaper) : Shaper :=
  if !x.en then x
  else
    let b : Int := ((bytes + x.ovhd) * 8000000 : Nat)
    { x with tp := x.tp - b, tc := if col = .green then x.tc - b else x.tc }

/-- A shaper change at a boundary (R307, R310): refilled at the old rates, then the new words; a smaller bucket clips
credit, never debt; EN set makes the buckets full, EN clear discards them. -/
def Shaper.set (now : Nat) (a1 a2 a3 a4 a5 : Word) (x : Shaper) : Shaper :=
  let r := if x.en then x.refill now else { x with last := now }
  let on := bit a5 8
  let full := on && !x.en
  { r with
    a1 := a1, a2 := a2, a3 := a3, a4 := a4, a5 := a5
    tc := if !on then 0 else if full then (a2.toNat : Int) * 8000000 else min r.tc ((a2.toNat : Int) * 8000000)
    tp := if !on then 0 else if full then (a4.toNat : Int) * 8000000 else min r.tp ((a4.toNat : Int) * 8000000) }

/-- A policer's refill (R314). -/
def Policer.refill (now : Nat) (x : Policer) : Policer :=
  { x with
    tc := bucketFill x.tc x.a1.toNat x.a2.toNat (now - x.last)
    tp := bucketFill x.tp x.a3.toNat x.a4.toNat (now - x.last)
    last := now }

def Policer.en (x : Policer) : Bool := bit x.a5 31

/-- meter of R314, after the refill. -/
def Policer.meter (bytes : Nat) (pre : Colour) (x : Policer) : Policer × Colour :=
  let b : Int := (bytes * 8000000 : Nat)
  if pre = .red || x.tp < b then (x, .red)
  else if pre = .yellow || x.tc < b then ({ x with tp := x.tp - b }, .yellow)
  else ({ x with tp := x.tp - b, tc := x.tc - b }, .green)

/-- A policer change at a boundary (R312, R314): buckets start full. -/
def Policer.set (now : Nat) (a1 a2 a3 a4 a5 : Word) (x : Policer) : Policer :=
  let r := if x.en then x.refill now else { x with last := now }
  let full := bit a5 31 && !x.en
  { r with
    a1 := a1, a2 := a2, a3 := a3, a4 := a4, a5 := a5
    tc := if full then (a2.toNat : Int) * 8000000 else min r.tc ((a2.toNat : Int) * 8000000)
    tp := if full then (a4.toNat : Int) * 8000000 else min r.tp ((a4.toNat : Int) * 8000000) }

/-- Pre-colour from a 2-bit map code (R313). -/
def colourOf (n : Nat) : Colour := if n = 1 then .yellow else if n = 2 then .red else .green

/-- Every 2-bit code of a word is defined (R313). -/
def mapOk (w : Word) (n : Nat) : Bool := (upto n).all fun i => fld w (2 * i) 2 ≠ 3

/-- A shaping change in effect. -/
def State.applyShaping (s : State) (c : Change) : State :=
  match c with
  | .window p a1 a2 => s.onNetP p fun n => { n with w1 := a1, w2 := a2 }
  | .shaper p q a1 a2 a3 a4 a5 => s.onNetP p fun n => { n with shapers := tmod {} q (Shaper.set s.monoNs a1 a2 a3 a4 a5) n.shapers }
  | .weight p f a1 => s.onNetP p fun n => { n with weights := tput (weight0 f) f (fld a1 0 8) n.weights }
  | .policer k a1 a2 a3 a4 a5 => s.onMedia fun m => { m with policers := tmod {} k (Policer.set s.monoNs a1 a2 a3 a4 a5) m.policers }
  | .dscpMap a1 a2 a3 a4 => s.onMedia fun m => { m with dscp := a4 ++ a3 ++ a2 ++ a1 }
  | .pcpMap a1 => s.onMedia fun m => { m with pcp := a1.extractLsb' 0 16 }
  | _ => s

/-- Ranges of CIR, CBS, PIR and PBS (R307). -/
def ratesOk (c : CmdWords) : Bool :=
  decide (c.a1.toNat ≤ 25000000) && decide (c.a2.toNat ≤ 16777216) && decide (c.a1.toNat ≤ c.a3.toNat) &&
  decide (c.a3.toNat ≤ 25000000) && decide (c.a4.toNat ≤ 16777216)

/-- SHAPER_SET (R305, R307, R311). -/
def shaperSetChecked (x : Ctx) (s : State) : Verdict :=
  let c := x.cmd
  let p := fld c.a0 0 1
  let op := fld c.a0 1 2
  let q := fld c.a0 4 3
  let ok := fun ch => Verdict.config s s.effectOrd [ch] (s.unstated 1)
  if op = 0 then
    if (c.a0 &&& 0xFFFFFF88#32) ≠ 0 || !ratesOk c || (c.a5 &&& 0xFFFFFEC0#32) ≠ 0 then .reject stBadarg
    else ok (.shaper p q c.a1 c.a2 c.a3 c.a4 c.a5)
  else if op = 1 then
    if (c.a0 &&& 0xFFFFFFF8#32) ≠ 0 || (c.a1 &&& 0xFE00FE00#32) ≠ 0 || 499 < fld c.a1 0 9 || 400 < fld c.a1 16 9 ||
        500 < fld c.a1 0 9 + fld c.a1 16 9 || (c.a2 &&& 0xFFFFFF00#32) ≠ 0 || 250 < fld c.a2 0 8 ||
        c.a3 ≠ 0 || c.a4 ≠ 0 || c.a5 ≠ 0 then .reject stBadarg
    else ok (.window p c.a1 c.a2)
  else if op = 2 then
    if (c.a0 &&& 0xFFFFFF88#32) ≠ 0 || 2 < q || fld c.a1 0 8 = 0 || (c.a1 &&& 0xFFFFFF00#32) ≠ 0 ||
        c.a2 ≠ 0 || c.a3 ≠ 0 || c.a4 ≠ 0 || c.a5 ≠ 0 then .reject stBadarg
    else ok (.weight p q c.a1)
  else .reject stBadarg

/-- Ranges of a policer's A5 (R312). -/
def policerA5Ok (a5 : Word) : Bool :=
  let sc := fld a5 0 2
  let arg := fld a5 16 12
  (a5 &&& 0x70000000#32) = 0 && fld a5 2 2 ≠ 0 && fld a5 6 2 ≠ 3 && fld a5 8 2 ≠ 3 &&
  (if sc = 0 then decide (arg < 2048) else if sc = 2 then decide (arg < 64) else true)

/-- POLICER_SET (R312, R313). -/
def policerSetChecked (x : Ctx) (s : State) : Verdict :=
  let c := x.cmd
  let op := fld c.a0 8 2
  let ok := fun ch => Verdict.config s s.effectOrd [ch] (s.unstated 1)
  if (c.a0 &&& 0xFFFFFC00#32) ≠ 0 then .reject stBadarg
  else if op = 0 then
    if !ratesOk c || !policerA5Ok c.a5 then .reject stBadarg
    else ok (.policer (fld c.a0 0 8) c.a1 c.a2 c.a3 c.a4 c.a5)
  else if op = 1 then
    if !(mapOk c.a1 16 && mapOk c.a2 16 && mapOk c.a3 16 && mapOk c.a4 16) || c.a5 ≠ 0 then .reject stBadarg
    else ok (.dscpMap c.a1 c.a2 c.a3 c.a4)
  else if op = 2 then
    if !mapOk c.a1 8 || (c.a1 &&& 0xFFFF0000#32) ≠ 0 || c.a2 ≠ 0 || c.a3 ≠ 0 || c.a4 ≠ 0 || c.a5 ≠ 0 then .reject stBadarg
    else ok (.pcpMap c.a1)
  else .reject stBadarg

end Sys2Proof.Machine
end

