-- ==== Sys2Proof/Machine/Line.lean ====
section
/-! DEFINITION. Line ports (R163 to R190): states, settings, surge, ladder, budget, converters and gate. Voltages in mV, currents
in 0.1 mA, powers in mW. -/

namespace Sys2Proof.Machine

/-! ### Fields (R172, R184, R191) -/

def bankOf (p : Nat) : Nat := p / 8
def dieOf (p : Nat) : Nat := p / 24

def PortCfg.loopMv (c : PortCfg) : Nat := 18000 + 100 * fld c.a1 0 8
def PortCfg.ilim (c : PortCfg) : Nat := 500 + 100 * fld c.a1 8 7
/-- RAMP_T in Periods. -/
def PortCfg.rampT (c : PortCfg) : Nat := match fld c.a1 26 2 with
  | 0 => 20
  | 1 => 40
  | 2 => 100
  | _ => 200
def PortCfg.autoComp (c : PortCfg) : Bool := bit c.a2 4
def PortCfg.compSel (c : PortCfg) : BitVec 2 := c.a2.extractLsb' 5 2

/-- A rational rounded to the nearest integer, halves away from zero. -/
def ratRound (q : Rat) : Int := divRha q.num q.den

/-- Ports 0 to 47 of a bank. -/
def bankPorts (b : Nat) : List Nat := (upto 8).map fun i => 8 * b + i

/-- Threshold of a ladder code, mV (R184). -/
def ladderMv (code : Nat) : Nat := 20000 + 200 * code

/-- Enter and leave thresholds of step s + 1, mV. -/
def Line.enterMv (l : Line) (s : Nat) : Nat := match s with
  | 0 => ladderMv (fld l.card1 0 8)
  | 1 => ladderMv (fld l.card1 16 8)
  | 2 => ladderMv (fld l.card2 0 8)
  | 3 => ladderMv (fld l.card2 16 8)
  | _ => ladderMv (fld l.card3 0 8)
def Line.leaveMv (l : Line) (s : Nat) : Nat := match s with
  | 0 => ladderMv (fld l.card1 8 8)
  | 1 => ladderMv (fld l.card1 24 8)
  | 2 => ladderMv (fld l.card2 8 8)
  | 3 => ladderMv (fld l.card2 24 8)
  | _ => ladderMv (fld l.card3 8 8)
def Line.ladderEn (l : Line) : Bool := bit l.card3 16
def Line.budgetEn (l : Line) : Bool := bit l.card0 16
def Line.budgetMw (l : Line) : Nat := fld l.card0 0 16 * 100
def Line.soundAuto (l : Line) : Bool := bit l.card5 12
def Line.openEn (l : Line) : Bool := bit l.card5 13
def Line.dcLevelMv (l : Line) : Nat := 6000 + 100 * fld l.card4 16 8
def Line.dcDropMv (l : Line) : Nat := 1000 + 500 * fld l.card4 24 4
/-- TONE_TH and PRF_VOICE in units of 0.5 dB below full scale. -/
def Line.toneTh (l : Line) : Nat := 60 + 4 * fld l.card4 28 4
def Line.prfVoice (l : Line) : Nat := 60 + 6 * fld l.card5 8 4
def Line.genKind (l : Line) : Nat := fld l.card4 6 2

/-- LADDER_EN, and a step in force sheds a class (R183): step 3 class 3, step 4 class 2, step 5 class 1. -/
def Line.sheds (l : Line) (cls : Nat) : Bool :=
  (cls = 3 && l.steps.getLsbD 2) || (cls = 2 && l.steps.getLsbD 3) || (cls = 1 && l.steps.getLsbD 4)

/-- Mean current in 0.1 mA. -/
def loopI10 (m : LoopMeas) : Int := divRha m.ua 100

/-- Converter A out, converter B out, of voltage or of current (R187, R189). -/
def PortSt.outA (x : PortSt) : Bool := x.convV.outA || x.convI.outA
def PortSt.outB (x : PortSt) : Bool := x.convV.outB || x.convI.outB

/-- A host call of a watch that runs in the Period with a boundary count (R214). -/
def Watch.hostNow (w : Watch) (ord : Nat) : Option HostCall := w.host.filter fun h => decide (ord < h.until_)

/-- Codes of a port state (R189). -/
def portCode : PortState → Nat
  | .off => 0
  | .probe => 1
  | .ramp => 2
  | .on => 3
  | .fold => 4
  | .shed => 5
  | .fault => 6
  | .hold => 7

/-- Causes (R189). -/
def cauShort : Nat := 1
def cauOpen : Nat := 2
def cauLeak : Nat := 3
def cauOver : Nat := 4
def cauFold : Nat := 5
def cauTemp : Nat := 6
def cauSurge : Nat := 7
def cauConv : Nat := 8
def cauGate : Nat := 9
def cauFet : Nat := 10
def cauCap : Nat := 11
def cauLadder : Nat := 0x10
def cauBudget : Nat := 0x11
def cauRemoval : Nat := 0x12

/-- A powered port: its FET is closed (R175). -/
def poweredSt (st : PortState) : Bool := st = .ramp || st = .on || st = .fold || st = .hold

/-- A line Leg's port delivers (R102, R175). -/
def deliversSt (st : PortState) : Bool := st = .on || st = .fold

/-- The port lies beyond the presented member (R180). -/
def State.beyond (s : State) (p : Nat) : Bool := decide (memberPorts s.tiles.wings ≤ p)

/-! ### Events and the watch log (R189, R222) -/

/-- One event on a port: its event count, its event counter, PORT_EVT (R189, R438). -/
def State.portEvent (s : State) (p : Nat) : State :=
  ((s.onPort p fun x => { x with events := x.events + 1 }).count (120 + p)).raise irqPortEvt

/-- An entry of the watch log for a port or (who = 0x80 + bank) a bank. -/
def State.watchLog (s : State) (who kind detail : Nat) (value pidx : Word) : State :=
  let q := seqNext s.line.logSeq
  let s := s.onLine fun l => { l with
    logSeq := q
    log := logPut (·.seq) 256 (WatchEntry.mk q pidx (BitVec.ofNat 8 who) (BitVec.ofNat 8 kind) (BitVec.ofNat 16 detail) value) l.log }
  if who < 48 then s.portEvent who else s.raise irqPortEvt

/-- An abort condition of R207 on a running sounding, by its place in the list. -/
def State.soundAbort (s : State) (p i : Nat) : State :=
  if (s.sounding p).status = 1 then s.onSounding p fun x => { x with abort := x.abort ||| BitVec.ofNat 6 (2 ^ i) } else s

/-- An automatic sounding is requested (R206). -/
def State.soundAsk (s : State) (p : Nat) : State :=
  if s.line.soundAuto then s.onSounding p fun x => { x with asked := true } else s

/-- Cycles of a bank that have ended (R216, R219): PROOF_INTERVAL and 2 ms each. -/
def Bank.cycleNs (x : Bank) : Nat := (x.interval + 2) * 1000000
def Bank.cycle (x : Bank) (mono : Nat) : Nat := x.cycleN + (mono - x.cycle0) / x.cycleNs

/-- A cycle has passed: a new interval is counted from its end. -/
def Bank.turn_ (now : Nat) (x : Bank) : Bank :=
  { x with
    winRun := x.cycle now
    cycleN := if x.intervalNext.isSome then x.cycle now else x.cycleN
    cycle0 := if x.intervalNext.isSome then x.cycle0 + (now - x.cycle0) / x.cycleNs * x.cycleNs else x.cycle0
    interval := x.intervalNext.getD x.interval
    intervalNext := none }

/-- The end of a qualified call of one kind (1 tone, 2 DC): its event, CALL, counters restarted (R210, R212). -/
def State.callEnd (s : State) (p kind : Nat) : State :=
  let w := s.watch p
  let on := if kind = 1 then w.tone else w.dc
  let s := s.onWatch p fun w =>
    if kind = 1 then { w with tone := false, toneOn := 0, toneOff := 0 } else { w with dc := false, dcOn := 0, dcOff := 0 }
  if on then (s.watchLog p 0x21 kind 0 s.pidx).raise irqCall else s

/-! ### State changes (R169, R175, R177) -/

/-- A ramp begins (R174, R175, R177): RAMP_T and the rate LOOPV / RAMP_T of the setpoint are those of now. -/
def PortSt.beginRamp (c : PortCfg) (x : PortSt) : PortSt := { x with rampT := c.rampT, rampStep := (c.loopMv : Rat) / c.rampT }

/-! ### The course of the setpoint over a Period (R164, R167) -/

/-- A course through points (ns in the Period, mV), straight between them. -/
def pathAt (a : Rat × Rat) : List (Rat × Rat) → Rat → Rat
  | [], _ => a.2
  | b :: r, t => if t < b.1 then a.2 + (b.2 - a.2) * (t - a.1) / (b.1 - a.1) else pathAt b r t

/-- The setpoint at a time in the Period in progress. -/
def PortSt.setAt (x : PortSt) (t : Rat) : Rat := pathAt (0, x.setFrom) (x.bends ++ [(500000, x.setMv)]) t

/-- From a time on the setpoint stands at the value that it has reached. -/
def PortSt.cutSet (t : Rat) (x : PortSt) : PortSt :=
  if x.bends = [] ∧ x.setFrom = x.setMv then x
  else
    let v := x.setAt t
    if t ≤ 0 then { x with setFrom := v, setMv := v, bends := [] }
    else { x with setMv := v, bends := (x.bends.filter fun b => decide (b.1 < t)) ++ [(t, v)] }

/-- From a time on the setpoint, which stands, goes to a goal at a rate in mV a Period. -/
def PortSt.runSet (t goal rate : Rat) (x : PortSt) : PortSt :=
  let v := x.setMv
  if v = goal ∧ x.setFrom = v ∧ x.bends = [] then x
  else
    let x := if t ≤ 0 then { x with setFrom := v, bends := [] } else { x with bends := x.bends ++ [(t, v)] }
    let up := decide (v < goal)
    let need := (if up then goal - v else v - goal) / rate * 500000
    if v = goal then x
    else if t + need < 500000 then { x with setMv := goal, bends := x.bends ++ [(t + need, goal)] }
    else
      let d := rate * (500000 - t) / 500000
      { x with setMv := if up then v + d else v - d }

/-- A Period closes: the setpoint stands until its course is set anew; a setpoint that came to 0 V on its way there opened the FET then. -/
def PortSt.rollSet (mono : Nat) (plantMv : Nat) (x : PortSt) : PortSt :=
  let course : List (Rat × Rat) := x.bends ++ [(500000, x.setMv)]
  let zero : Rat := match course.find? fun b => decide (b.2 = 0) with | some b => b.1 | none => 500000
  let x := if x.dropping && x.setMv = 0 then
      { x with dropping := false, gateOff := some (mono - (500000 - zero).floor.toNat) }
    else x
  { x with
    setFrom := x.setMv
    bends := []
    slewing := false
    dropout := poweredSt x.state && decide ((plantMv : Rat) < x.setMv + 1500)
    loop := { x.loop with ztAge := min 384 (x.loop.ztAge + 384) } }

/-- What the port itself keeps on entering a state. -/
def PortSt.enter (st : PortState) (cause : Nat) (c : PortCfg) (ord mono : Nat) (pidx : Word) (x : PortSt) : PortSt :=
  let y := { x with state := st, cause := BitVec.ofNat 8 cause, changed := pidx, budgetWait := false, ask := false, afterLeft := 0
                    starting := false, tail := none, fresh := poweredSt st && x.fresh }
  match st with
  | .ramp =>
    let fresh := x.state = .off || x.state = .probe || x.state = .shed || x.state = .fault
    { y.beginRamp c with
      rampOrd := ord
      cregRun := 0
      vregRun := 0
      reramp := false
      surgeFrom := none
      dropping := false
      gateOff := none
      setMv := max 0 x.mv
      rampUa := 0
      rampN := 0
      hold := none
      fresh := fresh
      comp := if fresh && c.autoComp then 3 else x.comp }
  | .fault => { y with setMv := 0, dropping := false, gateOff := some mono, surgeFrom := none, reramp := false, hold := none }
  | .off =>
    { y.beginRamp c with
      dropping := poweredSt x.state || x.dropping
      gateOff := if poweredSt x.state then none else x.gateOff
      surgeFrom := none
      reramp := false
      byLadder := false
      byBudget := false
      hold := none }
  | .shed => { y with dropping := poweredSt x.state, rampStep := x.setMv / 2, surgeFrom := none, reramp := false, hold := none }
  | .fold => { y with vregRun := 0 }
  | .on => { y with cregRun := 0, afterUa := 0, afterLeft := if x.state = .ramp && 0 < x.rampN then 3 else 0 }
  | _ => y

/-- What the port's watch keeps on entering a state (R193, R196, R197, R212, R214, R217). -/
def Watch.enter (o st : PortState) (cause ord : Nat) (w : Watch) : Watch :=
  let held := fun x => x = PortState.on || x = .fold || x = .hold
  let w := if held o && !held st then
      { w with count := some 0, draws := [none, none, none, none], counts := [0, 0, 0, 0], is_ := none, means := [], step := none,
               entry := false }
    else w
  let w := if deliversSt o && !deliversSt st then
      { w with host := none, toneGen := false, toneFade := false, dcGen := false, toneLeft := 0, dcLeft := 0, toneHeld := 0, dcHeld := 0,
               toneOn := 0, toneOff := 0, dcOn := 0, dcOff := 0 }
    else w
  match st with
  | .on =>
    let w := { w with onOrd := ord, changes := w.changes + 1 }
    if o = .ramp then { w with entry := true, is_ := none, means := [], step := none } else w
  | .probe => { w with reported := 1, probeRun := 0 }
  | .fault => { w with reported := if cause = cauShort then 3 else 1, probeRun := 0, notShort := 0, faultOrd := ord, openRun := 0, foldRun := 0, shortRun := 0 }
  | _ => { w with openRun := 0 }

/-- Compensation set for a capacitance (R168). -/
def compFor (nf : Nat) : BitVec 2 := if nf ≤ 100 then 0 else if nf ≤ 330 then 1 else if nf ≤ 680 then 2 else 3

/-- The settings of a PORT_SET act on the loop (R173, R174): a new ZT is crossfaded to; a termination change; the compensation set. -/
def State.portSetNow (s : State) (p : Nat) (cls : BitVec 2) (a1 a2 : Word) : State :=
  let c := s.portCfg p
  let zt := fld a1 16 8 ≠ fld c.a1 16 8
  let term := zt || fld a2 0 4 ≠ fld c.a2 0 4
  let s := s.onPortCfg p fun c => { c with cls := cls, a1 := a1, a2 := a2 }
  let s := if zt then s.onPort p fun x => { x with loop := { x.loop with ztFrom := 100 + 2 * fld c.a1 16 8, ztAge := 0 } } else s
  let s := if !bit a2 4 then s.onPort p fun x => { x with comp := a2.extractLsb' 5 2, compNext := none }
    else if !c.autoComp then s.onPort p fun x => { x with comp := if x.fresh then 3 else compFor x.nf }
    else s
  if term then
    ((s.onWatch p fun w => { w with termOrd := s.time.ord, changes := w.changes + 1 }).soundAbort p 4).soundAsk p
  else s

/-- A PORT_SET recorded while the port was in HOLD acts (R174, R179). -/
def State.settleLater (s : State) (p : Nat) : State :=
  match (s.port p).later with
  | none => s
  | some q => (s.onPort p fun x => { x with later := none }).portSetNow p q.1 q.2.1 q.2.2

/-! ### The setpoint (R164, R166, R167, R174, R181) -/

/-- Setpoint that the demands on a powered loop call for (R166): DC call, ladder floor, LOOPV. -/
def State.targetMv (s : State) (p : Nat) : Nat :=
  let c := s.portCfg p
  if (s.watch p).dcGen then s.line.dcLevelMv
  else if s.line.steps.getLsbD 1 then min 18000 c.loopMv else c.loopMv

/-- The setpoint of a hold regulator (R179, R183): the one in force at entry, under the ladder floor. -/
def State.holdTarget (s : State) (x : PortSt) : Rat :=
  let v : Rat := match x.hold with | some r => r.setMv | none => x.setMv
  if s.line.steps.getLsbD 1 then min 18000 v else v

/-- Where the setpoint of a port goes, and its rate in mV a Period (R164, R174, R177, R179, R181, R183, R213): while a surge opening lasts it
stands. The rise of a ramp that is complete ends at the ramp's rate. -/
def State.slewOf (s : State) (p : Nat) : Option (Rat × Rat) :=
  let x := s.port p
  let goal : Rat := s.targetMv p
  match x.state with
  | .ramp => if x.gateOff.isSome then none else some (goal, if goal < x.setMv then 500 else x.rampStep)
  | .on => run x (s.watch p) goal
  | .fold => run x (s.watch p) goal
  | .hold => run x (s.watch p) (s.holdTarget x)
  | _ =>
    if x.dropping then some (0, if x.cause = BitVec.ofNat 8 cauRemoval then ((s.portCfg p).loopMv : Rat) / 8 else x.rampStep) else none
where
  run (x : PortSt) (w : Watch) (goal : Rat) : Option (Rat × Rat) :=
    if x.surgeFrom.isSome && !x.reramp then none
    else some (goal, if x.reramp then 20000 else if w.dcGen || 4 ≤ w.dcHeld then 2500 else if x.tail = some goal then x.rampStep else 500)

/-- The course of a port's setpoint from now on, from where it stands. A slew of R174, R183 or R213 freezes Attendance and aborts a
sounding (R193, R207). -/
def State.reslew (s : State) (p : Nat) : State :=
  let x := s.port p
  let q := (s.slewOf p).getD (x.setMv, 1)
  let slews := (x.state = .on || x.state = .fold || x.state = .hold) && !x.reramp && x.tail ≠ some q.1 && decide (q.1 ≠ x.setMv)
  let s := s.onPort p fun x => { x.runSet s.time.inPeriod q.1 q.2 with slewing := x.slewing || slews }
  if slews then s.soundAbort p 3 else s

/-- The course of a port's setpoint from now on (R167): at a boundary, and at once where a ladder step or a surge opening acts. -/
def State.portSlew (s : State) (p : Nat) : State := (s.onPort p (PortSt.cutSet s.time.inPeriod)).reslew p

/-- A port changes state (R177). logged: a watch-log entry of the same event has added the event already (R189). -/
def State.portTo (s : State) (p : Nat) (st : PortState) (cause : Nat) (logged : Bool) : State :=
  let o := (s.port p).state
  let leavesCall := deliversSt o && !deliversSt st
  let s := if leavesCall then (s.callEnd p 1).callEnd p 2 else s
  let s := if o = .on && st ≠ .on then s.soundAbort p 0 else s
  let goal : Rat := s.targetMv p
  let s := s.onPort p fun x => (x.cutSet s.time.inPeriod).enter st cause (s.portCfg p) s.time.ord s.monoNs s.pidx
  let s := if o = .ramp && st = .on then s.onPort p fun x => { x with tail := some goal } else s
  let s := if o = .hold && st ≠ .hold then s.settleLater p else s
  let s := (s.onWatch p (Watch.enter o st cause s.time.ord)).reslew p
  let s := if st = .on then s.soundAsk p else s
  let s := if st = .ramp then s.onLine fun l => { l with powered := true } else s
  let s := if logged then s.raise irqPortEvt else s.portEvent p
  s.record 2 (pack [(0, p), (8, portCode st), (16, cause)])

/-- A qualified fault (R177, R199): one watch-log event, FET opened at once. -/
def State.portFault (s : State) (p cause : Nat) (value : Word) : State :=
  (s.watchLog p 0x10 cause value s.pidx).portTo p .fault cause true

/-- Shedding by the ladder or the budget (R183, R185, R186). -/
def State.portShed (s : State) (p cause : Nat) : State := s.portTo p .shed cause false

/-- Bank wake by a port (R179, R408 source 0x8). -/
def State.bankWake (s : State) (b : Nat) : State := s.selfVote (dBank b) 8

/-! ### Configuration changes (R174, R176, R177, R184, R192) -/

/-- PORT_SET in effect (R174): a port in HOLD records it. -/
def State.portSet (s : State) (p : Nat) (cls : BitVec 2) (a1 a2 : Word) : State :=
  if (s.port p).state = .hold then s.onPort p fun x => { x with later := some (cls, a1, a2) } else s.portSetNow p cls a1 a2

/-- PORT_POWER in effect (R177, R188). A port whose FET cannot be opened stays FAULT while current flows. -/
def State.portPower (s : State) (p : Nat) (mode : BitVec 2) : State :=
  let x := s.port p
  let s := s.onPortCfg p fun c => { c with mode := mode }
  if mode = 0 then
    if x.state = .off || (x.state = .fault && x.cause = BitVec.ofNat 8 cauFet && 200 ≤ x.i10) then s
    else (s.portTo p .off 0 false).onWatch p fun w => { w with latched := false }
  else if mode = 2 then
    if x.state = .off || x.state = .probe then s.onPort p fun x => { x with ask := true } else s
  else if x.state = .off then s.portTo p .probe 0 false
  else if x.state = .probe then s.onPort p fun x => { x with ask := false, budgetWait := false }
  else s

/-- The cause of a port in SHED (R186): LADDER while a ladder step sheds it, else BUDGET. -/
def PortSt.shedCause (x : PortSt) : PortSt :=
  { x with cause := if x.state ≠ .shed then x.cause
      else if x.byLadder then BitVec.ofNat 8 cauLadder else if x.byBudget then BitVec.ofNat 8 cauBudget else x.cause }

/-- CARD_BUDGET in effect (R184, R185, R192): without LADDER_EN no step is in force, without BUDGET_EN no budget; call detection restarts
where A4 or A5 changes. -/
def State.cardSet (s : State) (a0 a1 a2 a3 a4 a5 : Word) : State :=
  let call := a4 ≠ s.line.card4 || a5 ≠ s.line.card5
  let off := !bit a3 16
  let free := !bit a0 16
  let s := if off && s.line.steps ≠ 0 then s.raise irqPwr else s
  let s := s.onLine fun l => { l with
    card0 := a0, card1 := a1, card2 := a2, card3 := a3, card4 := a4, card5 := a5
    steps := if off then 0 else l.steps
    port := l.port.map fun x => (x.1, PortSt.shedCause { x.2 with byLadder := x.2.byLadder && !off, byBudget := x.2.byBudget && !free })
    fitRun := if free then 0 else l.fitRun
    over0 := l.over0 && bit a0 16 }
  if call then s.forAll (upto 48) fun s p => s.onWatch p fun w => { w with toneOn := 0, toneOff := 0, dcOn := 0, dcOff := 0 } else s

/-! ### Converters (R187) -/

/-- A pair of converters after a Period: the marks of the references read, the run of disagreement, one out of service; both suspect. -/
def ConvPair.step (m : ConvMeas) (c : ConvPair) : ConvPair × Bool :=
  let c := { c with
    susA := c.susA || m.suspectA
    susB := c.susB || m.suspectB
    disRun := if m.disagree && !c.outA && !c.outB then c.disRun + 1 else 0
    age := if c.outA || c.outB then c.age + 384 else 0 }
  if c.susA && c.susB then (c, true)
  else if 2 ≤ c.disRun && c.susA then ({ c with outA := true, disRun := 0 }, false)
  else if (2 ≤ c.disRun && c.susB) || 64 ≤ c.disRun then ({ c with outB := true, disRun := 0 }, false)
  else (c, false)

/-- A pair retested as the port passes through OFF: a converter that passes is in service and not suspect. -/
def ConvPair.retest (m : ConvMeas) (c : ConvPair) : ConvPair :=
  { susA := m.suspectA, susB := m.suspectB, outA := c.outA && m.suspectA, outB := c.outB && m.suspectB }

/-- Converters at a boundary (R187). -/
def State.converters (s : State) (p : Nat) (m : LoopMeas) : State :=
  let x := s.port p
  if x.state = .off then s.onPort p fun x => { x with convV := x.convV.retest m.convV, convI := x.convI.retest m.convI }
  else
    let v := x.convV.step m.convV
    let i := x.convI.step m.convI
    let s := s.onPort p fun x => { x with convV := v.1, convI := i.1 }
    if (v.2 || i.2) && x.state ≠ .fault && x.state ≠ .shed then s.portFault p cauConv 0 else s

/-! ### Capacitance (R169) -/

/-- A capacitance estimate (R169): CAP above 1.25 µF, else the set for the next boundary. -/
def State.capEstimate (s : State) (p nf : Nat) : State :=
  let s := s.onPort p fun x => { x with nf := nf, fresh := false }
  if !(s.portCfg p).autoComp then s
  else if 1250 < nf then s.portFault p cauCap (w32 nf)
  else s.onPort p fun x => { x with compNext := some (compFor nf) }

/-- The estimate of a ramp, nF (R169): the mean current of the ramp less that of the 1 ms after it, over the ramp rate of twice rampStep V/s.
The 1 ms is that of the two whole Periods after the one in which the ramp ended (DEDUCED, log 104). -/
def PortSt.rampNf (x : PortSt) : Nat :=
  (ratRound (500 * (2 * (x.rampUa : Rat) - x.rampN * x.afterUa) / (2 * x.rampN * x.rampStep))).toNat

/-- A Period after a ramp has passed. -/
def State.rampEstimate (s : State) (p : Nat) : State :=
  let x := s.port p
  if x.afterLeft = 1 then (s.onPort p fun x => { x with afterLeft := 0 }).capEstimate p x.rampNf
  else s.onPort p fun x => { x with afterLeft := x.afterLeft - 1 }

/-- What the loop showed over the Period that closes (R165, R169, R177, R189, R199). -/
def State.loopMeasure (s : State) (p : Nat) (m : LoopMeas) : State :=
  let x := s.port p
  let c := s.portCfg p
  let half := 2 * m.mv < x.setMv
  let s := s.onPort p fun x => { x with
    mv := m.mv
    ua := m.ua
    i10 := loopI10 m
    fetMw := m.fetMw
    flats := if m.flat then satAdd x.flats 1 else x.flats
    cregRun := if m.creg then x.cregRun + 1 else 0
    vregRun := if m.creg || m.cregPart then 0 else x.vregRun + 1
    rampUa := if x.state = .ramp then x.rampUa + m.ua else x.rampUa
    rampN := if x.state = .ramp then x.rampN + 1 else x.rampN
    afterUa := if 0 < x.afterLeft && x.afterLeft ≤ 2 then x.afterUa + m.ua else x.afterUa }
  let s := s.onWatch p fun w => { w with
    shortRun := if m.creg && m.mv < 2000 && (x.state = .ramp || x.state = .on || x.state = .fold) then w.shortRun + 1 else 0
    openRun := if s.line.openEn && x.state = .on && m.ua < 1000 then w.openRun + 1 else 0
    foldRun := if x.state = .fold && half then w.foldRun + 1 else 0
    toneLvl := BitVec.ofNat 8 (min 255 m.toneLvl)
    voice := m.voiceLvl }
  let s := s.onPort p fun x => { x with ask := x.ask && c.mode ≠ 0 }
  (s.rampEstimate p).converters p m

/-- Compensation set that waits for this boundary (R169). -/
def State.compBoundary (s : State) (p : Nat) : State :=
  match (s.port p).compNext with
  | some c => s.onPort p fun x => { x with comp := c, compNext := none }
  | none => s

/-! ### Entering RAMP: ladder, budget, stagger (R177, R185, R186, R466) -/

/-- P_draw of the last Period, mW (R185). -/
def State.drawMw (s : State) : Nat :=
  ((s.line.port.foldl (fun (a : Int) x => a + x.2.i10) 0).toNat * s.line.plantMv) / 10000

/-- The plant is absent on a port's die (R466). -/
def State.plantAbsent (s : State) (p : Nat) : Bool := if dieOf p = 0 then s.line.absentA else s.line.absentB

/-- A port asks to enter RAMP at this boundary (R177). -/
def State.asks (s : State) (p : Nat) : Bool :=
  let x := s.port p
  if x.state = .shed then !x.byLadder && !x.byBudget else x.ask && (x.state = .off || x.state = .probe || x.state = .fault)

/-- One port that asks, with the number of ports already allowed (R177, R185): shed by a ladder step, RAMP, or BUDGET_WAIT. A port whose bank
is not ON takes the vote of RAMP on it first, and enters RAMP once the bank is ON (R179, R408 source 0x8; DEDUCED, log 134). -/
def State.tryRamp (a : State × Nat) (p : Nat) : State × Nat :=
  let s := a.1
  let k := a.2
  let cls := (s.portCfg p).cls.toNat
  if s.line.sheds cls then
    let s := if (s.port p).state = .shed then s else s.portTo p .shed cauLadder false
    (s.onPort p fun x => PortSt.shedCause { x with byLadder := true, ladderCls := cls }, k)
  else if 4 ≤ k then a
  else
    let fits := !s.line.budgetEn || decide (s.drawMw + s.line.plantMv / 10 * (k + 1) ≤ s.line.budgetMw)
    if !fits || s.plantAbsent p then (s.onPort p fun x => { x with budgetWait := true, starting := false }, k)
    else if s.domOn (dBank (bankOf p)) then (s.portTo p .ramp 0 false, k + 1)
    else (s.onPort p fun x => { x with starting := true }, k)

/-- At most four ports enter RAMP at a boundary, lowest class first, then lowest port (R177). -/
def State.rampStarts (s : State) : State :=
  let order := (upto 4).flatMap fun c => (upto 48).filter fun p => s.asks p && (s.portCfg p).cls.toNat = c
  (order.foldl State.tryRamp (s, 0)).1

/-! ### Plant and ladder (R183) -/

/-- Class that a shedding step sheds: step 3 (index 2) class 3, and so on. -/
def stepClass (i : Nat) : Nat := 5 - i

/-- A step sheds a port (R183, R186). -/
def State.ladderShed (s : State) (p : Nat) : State :=
  let cls := (s.portCfg p).cls.toNat
  let s := if (s.port p).state = .shed then s else s.portShed p cauLadder
  s.onPort p fun x => PortSt.shedCause { x with byLadder := true, ladderCls := cls }

/-- LADDER_ENTER: the step is entered and acts at once where the voltage is below its threshold (R167, R183). -/
def execLadderEnter (i : Fin 5) (mv : Nat) (s : State) : Host.Outcome State Fault Refusal :=
  if !s.line.ladderEn || s.line.steps.getLsbD i || s.line.enterMv i ≤ mv then .next s
  else
    let s1 := (s.onLine fun l => { l with steps := l.steps ||| BitVec.ofNat 5 (2 ^ i.val), above := l.above.set i 0 }).raise irqPwr
    let s2 := s1.forAll ((upto 6).filter fun b => (bankPorts b).any fun p => (s1.port p).state = .hold) State.bankWake
    .next (if i.val = 0 then s2
      else if i.val = 1 then s2.forAll ((upto 48).filter fun p => poweredSt (s2.port p).state) State.portSlew
      else s2.forAll ((upto 48).filter fun p => (s2.portCfg p).cls.toNat = stepClass i &&
          (poweredSt (s2.port p).state || (s2.port p).state = .shed)) State.ladderShed)

/-- A step that shed a class has been left (R183, R186): a port that it shed is free of the ladder, or stays under a step that sheds the
class it has now. -/
def State.ladderFree (s : State) (p : Nat) : State :=
  let cls := (s.portCfg p).cls.toNat
  s.onPort p fun x => PortSt.shedCause { x with byLadder := s.line.sheds cls, ladderCls := cls }

/-- LADDER_LEAVE: 100 boundaries above the leave threshold, and every higher step has been left. -/
def execLadderLeave (i : Fin 5) (s : State) : Host.Outcome State Fault Refusal :=
  if s.line.steps.getLsbD i && s.line.steps.toNat < 2 ^ (i.val + 1) && 100 ≤ s.line.above.getD i 0 then
    let s1 := (s.onLine fun l => { l with steps := l.steps &&& ~~~(BitVec.ofNat 5 (2 ^ i.val)) }).raise irqPwr
    .next (if i.val < 2 then s1
      else s1.forAll ((upto 48).filter fun p => (s1.port p).byLadder && (s1.port p).ladderCls = stepClass i) State.ladderFree)
  else .next s

/-- The plant readings of the Period that closes (R183): the lower one, a disagreement above 1 %, and the boundaries above each leave
threshold. -/
def State.plantBoundary (s : State) (a b : Nat) : State :=
  let v := min a b
  s.onLine fun l => { l with
    plantMv := v
    plantDiff := decide (max a b < (max a b - v) * 100)
    above := (upto 5).map fun i => if l.leaveMv i < v then l.above.getD i 0 + 1 else 0 }

/-! ### Budget (R185) -/

/-- A port's draw, mW. -/
def State.portMw (s : State) (p : Nat) : Nat := ((s.port p).i10.toNat * s.line.plantMv) / 10000

/-- Port that the budget sheds next. -/
def State.shedNext (s : State) : Option Nat :=
  [3, 2, 1].findSome? fun c => ((upto 48).filter fun p => poweredSt (s.port p).state && (s.portCfg p).cls.toNat = c).getLast?

/-- Port that returns next. -/
def State.returnNext (s : State) : Option Nat :=
  (upto 4).findSome? fun c => (upto 48).find? fun p => (s.port p).byBudget && (s.portCfg p).cls.toNat = c

/-- The mean of P_draw over the last Periods exceeds BUDGET, over enough Periods (R185). -/
def Line.overBudget (l : Line) : Bool :=
  l.budgetEn && decide ((if l.shedOrd.isSome then 20 else 40) ≤ l.draws.length) &&
    decide (l.budgetMw * l.draws.length < l.draws.foldl (· + ·) 0)

/-- BUDGET_SHED: one port, of the highest class and number; with class 0 alone over the budget, OVER0 and PWR. -/
def execBudgetShed (s : State) : Host.Outcome State Fault Refusal :=
  if !s.line.overBudget then .next s
  else match s.shedNext with
    | none => .next (if s.line.over0 then s else (s.onLine fun l => { l with over0 := true }).raise irqPwr)
    | some p =>
      let mw := s.portMw p
      .next (((s.portShed p cauBudget).onPort p fun x => { x with byBudget := true, shedMw := mw }).onLine fun l =>
        { l with draws := [], shedOrd := some s.time.ord, fitRun := 0 })

/-- BUDGET_RETURN: 2,000 boundaries within 90 % of BUDGET; the port asks to enter RAMP unless the ladder sheds it. -/
def execBudgetReturn (s : State) : Host.Outcome State Fault Refusal :=
  match s.returnNext with
  | none => .next s
  | some p =>
    if 2000 ≤ s.line.fitRun && s.line.fitPort = some p then
      .next ((s.onPort p fun x => PortSt.shedCause { x with byBudget := false }).onLine fun l =>
        { l with fitRun := 0 })
    else .next s

/-- The budget at a boundary: P_draw of the Period, the run in which the port that returns next has fitted; another port begins its own. -/
def State.budgetBoundary (s : State) : State :=
  let d := s.drawMw
  let fit := match s.returnNext with
    | none => 0
    | some p => if (d + (s.port p).shedMw) * 10 ≤ s.line.budgetMw * 9 then (if s.line.fitPort = some p then s.line.fitRun + 1 else 1) else 0
  let s := s.onLine fun l => { l with draws := (d :: l.draws).take 40, fitRun := fit, fitPort := s.returnNext }
  s.onLine fun l => { l with over0 := l.over0 && l.overBudget }

/-! ### Surge (R181, R182) -/

/-- Count of the first 48 kHz sample at or after now: boundary count × 24 + sample. -/
def State.sampleCeil (s : State) : Nat := s.time.ord * 24 + ceilDiv (s.time.inPeriod * 24) 500000

/-- A replacement begins at sample k, or goes on where the last one still replaces it (R182). -/
def openSpan (k : Nat) (sps : List Span) : List Span :=
  match sps with
  | sp :: r => if (match sp.last with | none => true | some e => decide (k ≤ e)) then { sp with last := none } :: r else { start := k } :: sps
  | [] => [{ start := k }]

/-- The surge comparator of a port can have opened (R181): more than 45.0 V ± 1.0 V, or a faster change of the loop current than DIDT. -/
def surgeTrips (c : PortCfg) (a : SurgeAt) : Bool := decide (44000 < a.mv.natAbs) || decide (250 * 2 ^ fld c.a1 28 2 < a.rate)

/-- SURGE_OPENING (R181, R182): counted, the FET is opened, the span begins or goes on, concealment begins or goes on, the drive is cut;
the ninth opening in 2,000 boundaries is FAULT. -/
def execSurgeOpening (p : PortIx) (at_ : SurgeAt) (s : State) : Host.Outcome State Fault Refusal :=
  let st : PortState := (s.port p).state
  if !poweredSt st || !surgeTrips (s.portCfg p) at_ then .next s
  else
    let s1 := (s.onPort p fun x => { x with
        mv := at_.mv
        surges := satAdd x.surges 1
        surgeOrds := s.time.ord :: x.surgeOrds.filter fun o => decide (s.time.ord < o + 2000)
        surgeFrom := if st = .ramp then x.surgeFrom else (match x.surgeFrom with | some t => some t | none => some s.time.mono.toNat)
        reramp := false
        gateOff := some s.time.mono.toNat
        conceal := x.conceal || deliversSt st
        spans := if deliversSt st then openSpan s.sampleCeil x.spans else x.spans
        driveEv := if deliversSt st then (s.sampleCeil, false) :: x.driveEv else x.driveEv }).count (72 + p.val)
    let s2 := (((s1.onPort p fun x => { x with events := x.events + 1 }).raise irqPortEvt).soundAbort p 1).portSlew p
    let s3 := if st = .hold then s2.bankWake (bankOf p) else s2
    .next (if 9 ≤ (s3.port p).surgeOrds.length then s3.portFault p cauSurge (w32 (s3.port p).surgeOrds.length) else s3)

/-- The setpoint starts again from the present loop voltage (R181): a voltage that the port shows with its FET open, a free value. -/
def PortSt.fromLoop (mv : Int) (t : Rat) (x : PortSt) : PortSt :=
  let y := x.cutSet t
  { y with bends := if 0 < t then y.bends ++ [(t, y.setMv)] else y.bends, setMv := (max 0 mv : Int), gateOff := none }

/-- SURGE_RERAMP (R181): 100 µs after the condition ends the setpoint re-ramps from the present voltage; a port in RAMP counts its
time afresh. -/
def execSurgeReramp (p : PortIx) (s : State) : Host.Outcome State Fault Refusal :=
  let x := s.port p
  let from_ := PortSt.fromLoop (Config.loopNow p s.monoNs) s.time.inPeriod
  if x.state = .ramp && x.gateOff.isSome then .next ((s.onPort p fun x => { from_ x with rampOrd := s.time.ord }).reslew p)
  else if x.surgeFrom.isSome && (x.state = .on || x.state = .fold || x.state = .hold) then
    .next ((s.onPort p fun x => { from_ x with reramp := true }).reslew p)
  else .next s

/-- SURGE_RECOVERED (R181, R182): the loop is within 0.5 V of its setpoint no later than 2 ms after the first opening of the span: the
re-ramp has come to the setpoint, the drive fades in, the replacement ends 100 µs later. -/
def execSurgeRecovered (p : PortIx) (s : State) : Host.Outcome State Fault Refusal :=
  let x := s.port p
  match x.surgeFrom with
  | none => .next s
  | some t =>
    if s.time.mono.toNat ≤ t + 2000000 && (x.state = .on || x.state = .fold || x.state = .hold) then
      let goal : Rat := if x.state = .hold then s.holdTarget x else s.targetMv p
      let last := s.time.ord * 24 + (s.time.inPeriod + 100000) * 24 / 500000
      .next (s.onPort p fun x => { x with
        surgeFrom := none
        reramp := false
        gateOff := none
        setMv := goal
        setFrom := goal
        bends := []
        spans := match x.spans with | sp :: r => { sp with last := some last } :: r | [] => []
        driveEv := if x.driveEv.isEmpty then [] else (s.sampleCeil, true) :: x.driveEv })
    else .next s

/-- SURGE_TIMEOUT (R181): 2 ms without recovery. -/
def execSurgeTimeout (p : PortIx) (s : State) : Host.Outcome State Fault Refusal :=
  let x := s.port p
  match x.surgeFrom with
  | none => .next s
  | some t =>
    if t + 2000000 ≤ s.time.mono.toNat && (x.state = .on || x.state = .fold || x.state = .hold) then .next (s.portTo p .ramp 0 false)
    else .next s

/-- Sample k (boundary count × 24 + sample) of a port's input under its replacements, newest first (R182). -/
def concealSample (sps : List Span) (k : Nat) (live : Int) : Int :=
  match sps.find? fun sp => decide (sp.start ≤ k) with
  | none => live
  | some sp =>
    if (match sp.last with | none => true | some e => decide (k ≤ e)) then
      let i := k - sp.start
      if i < 24 then s24OfF32 (f32Mul (f32OfS24 (sp.good.getD i 0)) (wOut i)) else 0
    else
      let i := k - sp.last.getD 0 - 1
      if i < 24 then s24OfF32 (f32Mul (f32OfS24 live) (wIn i)) else live

/-- The samples of a Period from sample k on, as delivered: each replacement takes the 24 samples delivered before it. before: those
delivered so far, oldest first. -/
def concealBlock : List Int → Nat → List Int → List Span → List Int × List Span
  | [], _, before, sps => (before, sps)
  | v :: r, k, before, sps =>
    let sps := sps.map fun sp => if sp.start = k then { sp with good := before.drop (before.length - 24) } else sp
    concealBlock r (k + 1) (before ++ [concealSample sps k v]) sps

/-- The input of a line port for the Period that closes (R182): what it delivers, whether it conceals, and its replacements
afterwards. -/
def State.lineInput (s : State) (p : Nat) (xs : List Int) : State × List Int × Bool :=
  let x := s.port p
  let base := s.time.ord * 24
  let q := concealBlock ((upto 24).map fun j => xs.getD j 0) base x.lastIn x.spans
  let out := q.1.drop x.lastIn.length
  let used := x.spans.any fun sp => decide (sp.start < base + 24) && (match sp.last with | none => true | some e => decide (base ≤ e + 24))
  let stay := q.2.filter fun sp => match sp.last with | none => deliversSt x.state | some e => decide (base ≤ e)
  (s.onPort p fun y => { y with
    lastIn := out
    conceal := !stay.isEmpty
    spans := stay
    driveEv := if stay.isEmpty then [] else y.driveEv }, out, used)

/-! ### RAMP, FOLD, gate and FET (R169, R177, R188) -/

/-- RAMP_COMPLETE (R177): the loop is within 0.5 V of its setpoint. The estimate of R169 follows after 1 ms; a ramp without one whole
Period gives none (DEDUCED, log 104). -/
def execRampComplete (p : PortIx) (mv : Int) (s : State) : Host.Outcome State Fault Refusal :=
  if (s.port p).state = .ramp && ((s.targetMv p : Int) - mv).natAbs ≤ 500 then .next (s.portTo p .on 0 false) else .next s

/-- RAMP_TIMEOUT: RAMP_T + 50 ms. -/
def execRampTimeout (p : PortIx) (s : State) : Host.Outcome State Fault Refusal :=
  let x := s.port p
  if x.state = .ramp && x.rampOrd + x.rampT + 100 ≤ s.time.ord then .next (s.portTo p .fold 0 false) else .next s

/-- FOLD_ENTRY: 2 ms in current regulation, at least three whole Periods. -/
def execFoldEntry (p : PortIx) (s : State) : Host.Outcome State Fault Refusal :=
  let x := s.port p
  if x.state = .on && 3 ≤ x.cregRun then .next (s.portTo p .fold 0 false) else .next s

/-- FOLD_EXIT: 20 ms in voltage regulation, at least 39 whole Periods. -/
def execFoldExit (p : PortIx) (s : State) : Host.Outcome State Fault Refusal :=
  let x := s.port p
  if x.state = .fold && 39 ≤ x.vregRun then .next (s.portTo p .on 0 false) else .next s

/-- A port that a fault can send to FAULT (R177). -/
def faultable (st : PortState) : Bool := st = .probe || poweredSt st

/-- GATE_FAULT. -/
def execGateFault (p : PortIx) (s : State) : Host.Outcome State Fault Refusal :=
  if faultable (s.port p).state then .next (s.portFault p cauGate 0) else .next s

/-- FET_FAULT: 1 ms after the gate was commanded off, current above 20 mA. -/
def execFetFault (p : PortIx) (s : State) : Host.Outcome State Fault Refusal :=
  let x := s.port p
  match x.gateOff with
  | none => .next s
  | some t =>
    if t + 1000000 ≤ s.time.mono.toNat && 200 < x.i10 && !(x.state = .fault && x.cause = BitVec.ofNat 8 cauFet) then
      .next (s.portFault p cauFet (w32 (twos 32 x.i10)))
    else .next s

/-! ### HOLD (R177, R179) -/

/-- A bank enters Proofing: its ports in ON go to HOLD. -/
def State.bankHold (s : State) (b : Nat) : State :=
  s.forAll ((bankPorts b).filter fun p => (s.port p).state = .on) fun s p =>
    let x := s.port p
    let ref := HoldRef.mk (x.setAt s.time.inPeriod) (s.portCfg p).ilim ((s.watch p).is_.getD x.i10)
    (s.portTo p .hold 0 false).onPort p fun x => { x with hold := some ref }

/-- A bank leaves Proofing: its ports return to ON, and settings recorded meanwhile act (R174, R179). -/
def State.bankRelease (s : State) (b : Nat) : State :=
  s.forAll ((bankPorts b).filter fun p => (s.port p).state = .hold) fun s p => s.portTo p .on 0 false

/-! ### Commands (R172, R176, R184, R191) -/

/-- The port index of a command is in range; it lies in the presented member. -/
def portIxOk (c : CmdWords) : Bool := decide (fld c.a0 0 6 < 48)
def portBeyond (s : State) (c : CmdWords) : Bool := decide (memberPorts s.wingsNext ≤ fld c.a0 0 6)

/-- PORT_SET. -/
def portSetChecked (x : Ctx) (s : State) : Verdict :=
  let c := x.cmd
  let ok := (c.a0 &&& 0xFFFFFCC0#32) = 0 && (c.a1 &&& 0xC0008000#32) = 0 && (c.a2 &&& 0xFFFFFF80#32) = 0 &&
    fld c.a1 0 8 ≤ 0x8C && fld c.a1 8 7 ≤ 0x4B && fld c.a1 16 8 ≤ 0xFA && fld c.a2 0 2 ≠ 3 && fld c.a2 2 2 ≠ 3 &&
    c.a3 = 0 && c.a4 = 0 && c.a5 = 0 && portIxOk c
  if !ok then .reject stBadarg
  else if portBeyond s c then .reject stNocap
  else .config s s.effectOrd [.portSet (fld c.a0 0 6) (c.a0.extractLsb' 8 2) c.a1 c.a2] 0

/-- PORT_POWER. t is the state at the boundary of the effect. -/
def portPowerChecked (x : Ctx) (s t : State) : Verdict :=
  let c := x.cmd
  let p := fld c.a0 0 6
  let mode := fld c.a0 8 2
  let st := (t.port p).state
  if (c.a0 &&& 0xFFFFFCC0#32) ≠ 0 || c.a1 ≠ 0 || c.a2 ≠ 0 || c.a3 ≠ 0 || c.a4 ≠ 0 || c.a5 ≠ 0 || !portIxOk c then .reject stBadarg
  else if portBeyond s c then .reject stNocap
  else if (if mode = 0 then st = .off else !(st = .off || st = .probe)) then .reject stState
  else .config s s.effectOrd [.portPower p (BitVec.ofNat 2 mode)] 0

/-- Ranges of CARD_BUDGET. -/
def cardOk (c : CmdWords) : Bool :=
  (c.a0 &&& 0xFFFE0000#32) = 0 && (c.a3 &&& 0xFFFE0000#32) = 0 &&
  fld c.a1 0 8 < fld c.a1 8 8 && fld c.a1 16 8 < fld c.a1 24 8 && fld c.a2 0 8 < fld c.a2 8 8 && fld c.a2 16 8 < fld c.a2 24 8 &&
  fld c.a3 0 8 < fld c.a3 8 8 && fld c.a1 16 8 < fld c.a1 0 8 && fld c.a2 0 8 < fld c.a1 16 8 && fld c.a2 16 8 < fld c.a2 0 8 &&
  fld c.a3 0 8 < fld c.a2 16 8 &&
  (c.a4 &&& 0x0000E000#32) = 0 && fld c.a4 0 6 ≤ 0x32 && fld c.a4 6 2 ≠ 3 && fld c.a4 8 5 ≤ 0x1C && fld c.a4 16 8 ≤ 0x6E && fld c.a4 24 4 ≤ 0xE &&
  (c.a5 &&& 0xFFF0C000#32) = 0

/-- CARD_BUDGET. -/
def cardBudgetChecked (x : Ctx) (s : State) : Verdict :=
  let c := x.cmd
  if cardOk c then .config s s.effectOrd [.card c.a0 c.a1 c.a2 c.a3 c.a4 c.a5] 0 else .reject stBadarg

end Sys2Proof.Machine
end

