-- ==== Sys2Proof/Machine/Audio.lean ====
section
/-! DEFINITION. Audio at the digital ports (chapter 08): PDM decimation, AES3 frames received and sent, the half-band filter, the slip
buffer, zero crossings. -/

namespace Sys2Proof.Machine

/-- A PDM port (R224). -/
def isPdm (p : Nat) : Bool := decide (p < 12)

/-- CLK_MASTER, AUTO_RESUME, VMUTE and ZC_TO (ms) of a port (R234). -/
def Dap.master (d : Dap) : Bool := bit d.a0 6
def Dap.autoResume (d : Dap) : Bool := bit d.a0 7
def Dap.vmute (d : Dap) : Bool := bit d.a0 8
def Dap.zcTo (d : Dap) : Nat := fld d.a0 16 6

/-! ### PDM (R226) -/

/-- The value of a PDM bit: a density d of ones maps to 2d - 1 of full scale. -/
def pdmValue (b : Bool) : F32 := if b then 0x3F800000#32 else 0xBF800000#32

/-- Bits that the decimator's filter reaches: one Period's (DESIGN CHOICE, log 114). -/
def pdmReach : Nat := 1536

/-- One output of the decimator from the bits that its filter reaches, newest first: rounded to s24 with ties to even, and clamped. -/
def pdmSample (bits : List Bool) : Int := s24OfF32 (dot (bits.zipIdx.map fun q => (Config.pdmTap q.2, pdmValue q.1)))

/-- A PDM frame decimated by 64. -/
def Dap.decimate (d : Dap) (f : DapFrame) : Dap × Pair :=
  let a := (f.bitsA.reverse ++ d.pdmA).take pdmReach
  let b := (f.bitsB.reverse ++ d.pdmB).take pdmReach
  ({ d with pdmA := a, pdmB := b }, { a := pdmSample a, b := pdmSample b, at_ := f.at_ })

/-! ### Biphase frames received (R227, R229) -/

/-- A sample as a subframe gives it (R227): the previous one after a parity error, zero for V = 1 under VMUTE. -/
def subframeIn (vmute par v : Bool) (x last : Int) : Int :=
  if par then last else if v && vmute then 0 else clampI (-8388608) 8388607 x

/-- A biphase frame received: parity errors and subframes with V = 1 are counted. -/
def Dap.receive (d : Dap) (f : DapFrame) : Dap × Pair :=
  let a := subframeIn d.vmute f.parA f.vA f.a d.rxLast.1
  let b := subframeIn d.vmute f.parB f.vB f.b d.rxLast.2
  ({ d with
      rxLast := (a, b)
      parity := satAdd d.parity (b2n f.parA + b2n f.parB)
      vframes := satAdd d.vframes (b2n f.vA + b2n f.vB) }, { a := a, b := b, at_ := f.at_ })

/-- Frames that the half-band filter reaches (DESIGN CHOICE, log 114). -/
def halfReach : Nat := 64

/-- A frame of a 96 kHz input through the half-band filter (R229): every second one gives an output. -/
def Dap.halve (d : Dap) (f : Pair) : Dap × List Pair :=
  let h := ((f.a, f.b) :: d.half).take halfReach
  let out := fun (sel : Int × Int → Int) => s24OfF32 (dot (h.zipIdx.map fun q => (Config.halfTap q.2, f32OfS24 (sel q.1))))
  ({ d with half := h, halfOdd := !d.halfOdd }, if d.halfOdd then [{ a := out (·.1), b := out (·.2), at_ := f.at_ }] else [])

/-- The frames of a Period as they come to the slip buffer. -/
def Dap.framesIn (p : Nat) (fs : List DapFrame) (d : Dap) : Dap × List Pair :=
  fs.foldl (fun (a : Dap × List Pair) f =>
    let r := if isPdm p then a.1.decimate f else a.1.receive f
    if !isPdm p && a.1.cls = .k96 then
      let h := r.1.halve r.2
      (h.1, a.2 ++ h.2)
    else (r.1, a.2 ++ [r.2])) (d, [])

/-! ### Slip (R232) -/

/-- δ of a frame at sample instant k, in 1/24 ns. -/
def Pair.delta (k : Nat) (f : Pair) : Int := (k * 500000 : Nat) - 24 * f.at_

/-- The frames from the one whose δ lies nearest 23 µs on, of those that are complete. -/
def nearest (k : Nat) : List Pair → List Pair
  | f :: g :: r =>
    if 0 ≤ g.delta k && (g.delta k - 552000).natAbs ≤ (f.delta k - 552000).natAbs then nearest k (g :: r) else f :: g :: r
  | l => l

/-- Frames unused, pair last taken, fresh since qualification, drops, repeats. -/
abbrev Slip := List Pair × (Int × Int) × Bool × Nat × Nat

/-- One sample instant of the slip buffer: the oldest frame is dropped above 38 µs where a newer one is complete; no frame of 8 µs or more
repeats the pair; otherwise the oldest is taken. -/
def slipInstant (k : Nat) (x : Slip) : Slip :=
  let q := if x.2.2.1 then nearest k x.1 else x.1
  let dropped := match q with | f :: g :: _ => decide (38000 * 24 < f.delta k) && decide (0 ≤ g.delta k) | _ => false
  let q := if dropped then q.drop 1 else q
  let n := x.2.2.2.1 + b2n dropped
  match q with
  | f :: r => if 8000 * 24 ≤ f.delta k then (r, (f.a, f.b), false, n, x.2.2.2.2) else (q, x.2.1, x.2.2.1, n, x.2.2.2.2 + 1)
  | [] => (q, x.2.1, x.2.2.1, n, x.2.2.2.2 + 1)

/-- The first n instants of a Period: the buffer after them, and the pairs taken. -/
def slipPeriod (n : Nat) (x : Slip) : Slip × List (Int × Int) :=
  (upto n).foldl (fun a k => let y := slipInstant k a.1; (y, a.2 ++ [y.2.1])) (x, [])

/-- An input that the port measures, whatever its state: a biphase port, or a slave PDM port (R229). -/
def Dap.measured (p : Nat) (d : Dap) : Bool := !(isPdm p && d.master)

/-- The sample pairs that a port takes in the Period that closes (R226 to R232). Drops and repeats that rows have told of count once. A
master PDM port does not slip; an input that is not qualified gives no samples and keeps its latest frames; one lost in the Period gives those
before its loss (R230). -/
def Dap.takeFrames (p : Nat) (fs : List DapFrame) (d : Dap) : Dap × List (Int × Int) :=
  let r := d.framesIn p fs
  if !r.1.measured p then (r.1, r.2.map fun f => (f.a, f.b))
  else
    let q := r.1.slipQ ++ r.2
    let x : Slip := (q, r.1.slipLast, r.1.slipFresh, 0, 0)
    let y := if r.1.qual then slipPeriod 24 x
      else if 0 < r.1.zeroFrom.getD 0 then slipPeriod (r.1.zeroFrom.getD 0) x
      else ((q.drop (q.length - 8), r.1.slipLast, r.1.slipFresh, 0, 0), [])
    ({ r.1 with
        slipQ := y.1.1.map fun f => { f with at_ := f.at_ - 500000 }
        slipLast := y.1.2.1
        slipFresh := y.1.2.2.1
        drops := satAdd r.1.drops (y.1.2.2.2.1 - r.1.rowDrops)
        repeats := satAdd r.1.repeats (y.1.2.2.2.2 - r.1.rowRepeats) }, y.2)

/-! ### Biphase frames sent (R227, R228) -/

/-- CRCC of AES3 over channel-status bytes 0 to 22, low bit first: x^8 + x^4 + x^3 + x^2 + 1, all ones to begin with (PRESUMED, log 115). -/
def crcc (bs : List Byte) : Byte :=
  bs.foldl (fun c b => (upto 8).foldl (fun (c : Byte) i =>
    let x := c.getLsbD 0 != b.getLsbD i
    if x then (c >>> 1) ^^^ 0xB8#8 else c >>> 1) c) 0xFF#8

/-- Channel-status bytes of a channel as they are sent: a professional block carries the computed CRCC in byte 23. -/
def statusSent (block : List Byte) (ch : Nat) : List Byte :=
  let b := (block.drop (24 * ch)).take 24
  if byteAt b 0 % 2 = 1 then b.take 23 ++ [crcc (b.take 23)] else b

/-- The CRCC of a received block holds in each channel whose status is professional (R228). -/
def statusHolds (block : List Byte) : Bool := (upto 2).all fun ch => statusSent block ch = (block.drop (24 * ch)).take 24

/-- Bit f of a string of bytes, low bit of byte 0 first. -/
def bitOf (bs : List Byte) (f : Nat) : Bool := (byteAt bs (f / 8)).testBit (f % 8)

/-- Preambles of AES3 (R227). -/
inductive Preamble where
  | x
  | y
  | z
  deriving DecidableEq, Repr

/-- A subframe: preamble, and time slots 4 to 31, the first in bit 0. -/
structure Subframe where
  pre   : Preamble
  slots : BitVec 28
  deriving DecidableEq, Repr

/-- The subframe of a channel in frame f of a block (R227, R228): audio with its most significant bit last, V zero, U and C from the block,
P for even parity over time slots 4 to 31 (PRESUMED, log 115). -/
def subframeOut (block : List Byte) (ch f : Nat) (v : Int) : Subframe :=
  let u := bitOf ((block.drop (48 + 24 * ch)).take 24) f
  let c := bitOf (statusSent block ch) f
  let w := twos 24 v + 2 ^ 25 * b2n u + 2 ^ 26 * b2n c
  { pre := if ch = 1 then .y else if f = 0 then .z else .x
    slots := BitVec.ofNat 28 (w + 2 ^ 27 * (popN 27 w % 2)) }

/-- Frame j of the Period whose media clock count is mc belongs to this frame of a block (R227). -/
def blockFrame (mc : Word) (j : Nat) : Nat := (mc + w32 j).toNat % 192

/-- First frame of a Period that opens a block. -/
def firstZ (mc : Word) : Option Nat := (upto 24).find? fun j => blockFrame mc j = 0

/-- At the boundary that opens a Period: a block that waits applies from the Period's first Z preamble on (R228). -/
def Dap.openTx (mc : Word) (d : Dap) : Dap :=
  match d.txNext, firstZ mc with
  | some b, some k => { d with txOld := d.txBlock, txBlock := b, txNext := none, txFrom := k }
  | _, _ => { d with txOld := d.txBlock, txFrom := 0 }

/-! ### Zero crossings (R237) -/

/-- Sample j of a signal is zero, or its sign differs from that of the sample before it. -/
def crosses (prev : Int) (xs : List Int) (j : Nat) : Bool :=
  let x := xs.getD j 0
  let y := if j = 0 then prev else xs.getD (j - 1) 0
  x = 0 || x.sign ≠ y.sign

/-- A switch of a key that is pending, or that a row has told of in the Period. -/
def Dap.wants (key : Nat) (d : Dap) : Option ZcPend :=
  match tget none d.pend key with
  | some z => some z
  | none => (tget none d.sw key).map (·.2.1)

/-- Where the pending switch of a key falls in a Period with a boundary count, given its signal (R237): at the first crossing, or at the
sample at which ZC_TO has elapsed, then by a fade; none where it goes on waiting. -/
def Dap.falls (key ord : Nat) (xs : List Int) (d : Dap) : Option (Nat × Bool) :=
  if (d.wants key).isNone then none
  else if tget 0 d.pendOrd key + 2 * d.zcTo ≤ ord then some (0, true)
  else ((upto 24).find? (crosses (tget 0 d.lastRaw key) xs)).map fun k => (k, false)

/-- The gain code of a key: 0 and 1 the inputs, 2 and 3 the outputs (R234). -/
def gainCode (a1 : Word) (key : Nat) : Nat := fld a1 (8 * key) 8

/-- Sample i of a fade of R237 between two gains. -/
def fadeGain (z : ZcPend) (g0 g1 : F32) (i : Nat) : F32 :=
  match z with
  | .gain _ => f32Add g0 (f32Mul (f32Sub g1 g0) (wIn i))
  | .start => f32Mul g1 (wIn i)
  | .stop => f32Mul g0 (wOut i)

/-- The gain that a key has before its pending switch, and after it. -/
def Dap.gainBefore (key : Nat) (d : Dap) : F32 :=
  if tget false d.zeroed key then 0#32
  else match d.wants key with
    | some (.gain old) => gainOf old.toNat
    | _ => gainOf (match tget none d.gainHeld key with | some g => g.toNat | none => gainCode d.a1 key)
def Dap.gainAfter (key : Nat) (d : Dap) : F32 :=
  match d.wants key with
  | some .stop => 0#32
  | some .start => gainOf (gainCode d.a1 key)
  | _ => if tget false d.zeroed key then 0#32 else gainOf (gainCode d.a1 key)

/-- The gain that sample j of a Period meets on a key whose switch falls at r: a fade begun earlier goes on until then. -/
def Dap.gainAt (key : Nat) (r : Option (Nat × Bool)) (j : Nat) (d : Dap) : F32 :=
  let early := match tget none d.fading key with
    | some (k, z, g0, g1) => if (j : Int) - k < 24 then fadeGain z g0 g1 ((j : Int) - k).toNat else d.gainBefore key
    | none => d.gainBefore key
  match r with
  | none => early
  | some (k, fade) =>
    if j < k then early
    else if fade && j < k + 24 then match d.wants key with
      | some z => fadeGain z (d.gainBefore key) (d.gainAfter key) (j - k)
      | none => early
    else d.gainAfter key

/-- A block of a key's signal through its gains (R239, R240). -/
def Dap.keyBlock (key : Nat) (r : Option (Nat × Bool)) (xs : List Int) (d : Dap) : List Int :=
  (upto 24).map fun j => s24OfF32 (f32Mul (f32OfS24 (xs.getD j 0)) (d.gainAt key r j))

/-- A key at the close of a Period: its switch is made where it fell, or goes on pending; the fade that the Period has left unfinished, and
the signal's last sample, are kept. -/
def Dap.settleKey (key : Nat) (r : Option (Nat × Bool)) (xs : List Int) (d : Dap) : Dap :=
  let d1 := { d with lastRaw := tput 0 key (xs.getD 23 0) d.lastRaw, sw := tput none key none d.sw }
  match d.wants key, r with
  | some z, some (k, fade) =>
    { d1 with
      pend := tput none key none d.pend
      gainHeld := tput none key none d.gainHeld
      zeroed := tput false key (match z with | .stop => true | .start => false | .gain _ => tget false d.zeroed key) d.zeroed
      fading := tput none key (if fade && 0 < k then some ((k : Int) - 24, z, d.gainBefore key, d.gainAfter key) else none) d.fading }
  | w, _ => { d1 with pend := tput none key w d.pend, fading := tput none key none d.fading }

end Sys2Proof.Machine
end

