-- ==== Sys2Proof/Machine/Links.lean ====
section
/-! DEFINITION. The blocks on the links of the Imdal ring (R341): their size, their order, and the times at which they leave. -/

namespace Sys2Proof.Machine

/-- Priority of a message (R341), least first. -/
def ImMsg.rank : ImMsg → Nat
  | .timeWord _ => 0
  | .trigger _ _ => 1
  | .record _ => 2
  | .control _ => 3
  | .forward _ _ _ => 4
  | .answer _ _ => 4

/-- Bytes of a message: those of R331 for a record; whole words of what the others carry (log 99). -/
def ImMsg.size : ImMsg → Nat
  | .timeWord _ => 32
  | .trigger _ _ => 8
  | .record r => if r.first then 196 + 5 * r.cands.length else 196
  | .control _ => 8
  | .forward _ _ f => match f with
    | .command _ _ => 160
    | .regRead _ => 4
    | .regWrite _ _ => 8
  | .answer _ a => 16 + a.data.length

/-- The blocks of a message (R341): consecutive parts of at most 256 bytes. -/
def ImMsg.blocks (m : ImMsg) : List ImBlock :=
  (upto (max 1 (ceilDiv m.size 256))).map fun i => { msg := m, part := i, bytes := min 256 (m.size - 256 * i) }

/-- Time of a block on a link in 1/256 ns: its content and 8 bytes of framing at 64 Gbit/s with 64b/66b coding (R317, R341). -/
def ImBlock.time (b : ImBlock) : Nat := (b.bytes + 8) * 33

/-- The next block of a port (R341): of the highest priority that may start, the oldest. -/
def nextBlock (fwd : Bool) (q : List ImBlock) : Option ImBlock :=
  ((upto (if fwd then 5 else 4)).filterMap fun r => q.find? fun b => b.msg.rank = r).head?

/-- No block of a forward starts from P+220 µs to P+340 µs (R341). -/
def fwdWindow (inPeriod : Nat) : Bool := decide (220000 * 256 ≤ inPeriod) && decide (inPeriod < 340000 * 256)

/-- Blocks leave a port until an instant, in 1/256 ns of MONO, that lies inP 1/256 ns into its Period; late says that a late round runs. -/
def ImPort.run (now inP : Nat) (late : Bool) : Nat → ImPort → ImPort
  | 0, p => p
  | n + 1, p =>
    let back := now - p.free
    let into := if back ≤ inP then inP - back else 500000 * 256 - (back - inP) % (500000 * 256)
    let shut := late || fwdWindow into
    match nextBlock (!shut) p.queue with
    | some b =>
      if now ≤ p.free then p
      else ImPort.run now inP late n { queue := p.queue.erase b, free := p.free + b.time, out := (b :: p.out).take 64 }
    | none =>
      if p.queue.isEmpty || late || back ≤ 340000 * 256 - into then p
      else ImPort.run now inP late n { p with free := p.free + (340000 * 256 - into) }

/-- A late round runs on the data in its emit Period (R27, R334). -/
def State.lateRuns (s : State) : Bool :=
  (match s.mix.emit with | some d => d.late && decide (d.stage < 6) | none => false) && decide (s.time.inPeriod < 300000)

/-- A port brought up to the present: its blocks have left in their order, and from then on it is free. -/
def State.portNow (s : State) (p : ImPort) : ImPort :=
  let now := 256 * s.monoNs
  let q := p.run now (256 * s.time.inPeriod) s.lateRuns (2 * p.queue.length)
  { q with free := if q.queue.isEmpty then max q.free now else q.free }

/-- Both ports brought up to the present. -/
def State.linked (s : State) : Imdal := { s.imdal with portE := s.portNow s.imdal.portE, portW := s.portNow s.imdal.portW }

/-- A message joins the queue of a port whose link is UP (R341). -/
def Imdal.put (side : Nat) (msg : ImMsg) (m : Imdal) : Imdal :=
  if side = 0 then (if m.linkE = .up then { m with portE := { m.portE with queue := m.portE.queue ++ msg.blocks } } else m)
  else if m.linkW = .up then { m with portW := { m.portW with queue := m.portW.queue ++ msg.blocks } } else m

/-- A message leaves by one port. -/
def State.sendBy (s : State) (side : Nat) (msg : ImMsg) : State := s.onImdal fun _ => s.linked.put side msg

/-- A message leaves by both ports (R328, R94). -/
def State.sendBoth (s : State) (msg : ImMsg) : State := s.onImdal fun _ => (s.linked.put 0 msg).put 1 msg

/-- The ring once a trigger point has been placed on it (R94). -/
def State.pointPlaced (s : State) (pidx : Word) (k : Nat) : Imdal :=
  { (s.linked.put 0 (.trigger pidx k)).put 1 (.trigger pidx k) with trigOut := some (pidx, k) }

/-- The side by which a forward leaves: E where its link is UP, else W (log 99). -/
def Imdal.fwdSide (m : Imdal) : Nat := if m.linkE = .up then 0 else 1

/-- A start-trigger point travels on by the other port (R94, R341), except at the device that placed it. -/
def State.passPoint (s : State) (side : SideIx) (pidx : Word) (k : Nat) : State :=
  if s.imdal.trigOut = some (pidx, k) then s else s.sendBy (1 - side.val) (.trigger pidx k)

/-- Answers to peers take their place on a link (R338, R341). -/
def State.sendAnswers (s : State) : State :=
  match s.cmd.answers with
  | [] => s
  | as => (s.onCmd fun m => { m with answers := [] }).onImdal fun _ => as.foldl (fun m a => m.put m.fwdSide (.answer a.1 a.2)) s.linked

/-- A device's own forwards in flight leave once more, by another side (R345). -/
def State.resend (s : State) (side : Nat) (which : ForwardOut → Bool) : State :=
  match s.cmd.fwd.filter which with
  | [] => s
  | again =>
    let own := Fin.ofNat 8 s.imdal.index.toNat
    (s.onCmd fun m => { m with fwd := m.fwd.map fun f => if which f then { f with side := side } else f }).onImdal fun _ =>
      again.foldl (fun m f => m.put side (.forward own f.target f.body)) s.linked

/-- A link goes DOWN: what waits on its port is lost, but another device's forward, or an answer, that waits there is sent by the other path
(R345). -/
def Imdal.drop (side : Nat) (m : Imdal) : Imdal :=
  let q := if side = 0 then m.portE.queue else m.portW.queue
  let own := Fin.ofNat 8 m.index.toNat
  let again := (q.filter fun b => b.part = 0 && (match b.msg with
    | .forward f _ _ => f ≠ own
    | .answer _ _ => true
    | _ => false)).map (·.msg)
  let m := if side = 0 then { m with portE := { m.portE with queue := [] } } else { m with portW := { m.portW with queue := [] } }
  again.foldl (fun m f => m.put (1 - side) f) m

end Sys2Proof.Machine
end

