-- ==== Sys2Proof/Machine/Dap.lean ====
section
/-! DEFINITION. Digital audio ports (chapter 08): states, commands, muting, zero-crossing switching, gains, host buffers. -/

namespace Sys2Proof.Machine

/-- LEN of a port's buffers, in frames (R234). -/
def Dap.len (d : Dap) : Nat := fld d.a4 0 24

/-- The started states of R102 and R233. -/
def Dap.started (d : Dap) : Bool := d.state = .run || d.state = .muted

/-- The keys of a port's switches: a PDM port has no outputs (R224). -/
def dapKeys (p : Nat) : List Nat := if isPdm p then [0, 1] else [0, 1, 2, 3]

/-- The port's input is qualified: a master PDM port has its own clock (R225, R229). -/
def Dap.ready (p : Nat) (d : Dap) : Bool := (isPdm p && d.master) || d.qual

/-- One more event on a port, with the DAP source and counter 168 + p (R245, R438). -/
def State.dapEvent (s : State) (p : Nat) : State :=
  ((s.onDapP p fun d => { d with events := d.events + 1, eventPidx := s.pidx }).count (168 + p)).raise irqDap

/-- Rate class of a measured frame rate (R229). -/
def classOf (p hz : Nat) : RateClass :=
  if hz = 0 then .none
  else if 47952 ≤ hz && hz ≤ 48048 then .k48
  else if !isPdm p && 95904 ≤ hz && hz ≤ 96096 then .k96
  else .other

/-- Code of a rate class (R245). -/
def classCode : RateClass → Nat
  | .none => 0
  | .k48 => 1
  | .k96 => 2
  | .other => 3

/-- An accepted class (R229). -/
def classOk (c : RateClass) : Bool := c = .k48 || c = .k96

/-- Code of a port state (R245). -/
def dapCode : DapState → Nat
  | .disabled => 0
  | .ready => 1
  | .armed => 2
  | .run => 3
  | .muted => 4

/-! ### Host buffers (R241 to R244) -/

/-- Bytes of one sample by PACK (R241). -/
def packSample (pk : Nat) (v : Int) : List Byte :=
  if pk = 0 then leBytes 3 (twos 24 v) else if pk = 1 then 0 :: leBytes 3 (twos 24 v) else leBytes 4 (twos 32 v)

/-- The sample that bytes hold (R241). -/
def unpackSample (pk : Nat) (bs : List Byte) : Int :=
  if pk = 1 then sgn 24 (ofLe ((bs.drop 1).take 3)) else sgn 24 (ofLe (bs.take 3))

/-- Byte address in Pantry of frame f of a buffer (R241). -/
def frameAddr (base a4 : Word) (f : Nat) : Nat :=
  let r := regionAt base 0
  r.1 * 2 ^ 31 + r.2.1 + f % max 1 (fld a4 0 24) * frameBytes a4

/-- PLAYBACK_READ at the emit cut-off (R243): the frames that leave in a Period from its sample k on; a frame at or beyond PLAY_WR is
zero and counted, and so is one that reads uncorrectable (R376); none is ready where PLAY_RD has passed PLAY_WR; PLAY_RD advances by one for
every instant. The first underrun after a Period without one is an event. -/
def State.playback (s : State) (p k : Nat) : State :=
  let d := s.dapP p
  if isPdm p || !d.started || d.len = 0 || d.a3 = 0 then s.onDapP p fun d => { d with playNext := [] }
  else
    let pk := fld d.a4 24 2
    let half := frameBytes d.a4 / 2
    let ahead := (d.playWr - d.playRd).toNat
    let ready := if ahead ≤ d.len then ahead else 0
    let adr := fun j => frameAddr d.a3 d.a4 (d.playRd.toNat + (j - k))
    let at_ := fun j c => if k ≤ j && j - k < ready && (s.badIn (adr j) (2 * half)).isNone then
        unpackSample pk (Memory.readBytes s.mem.pantry (adr j + c * half) half) else 0
    let s := s.forAll ((upto 24).filter fun j => k ≤ j && j - k < ready) fun s j => s.hostWordBad 5 (adr j) (2 * half)
    let und := (24 - k) - min (24 - k) ready
    let s1 := s.onDapP p fun d => { d with
      playNext := [(upto 24).map fun j => at_ j 0, (upto 24).map fun j => at_ j 1]
      playRd := d.playRd + w32 (24 - k)
      playUnd := d.playUnd + w32 und
      undLast := decide (0 < und) }
    if 0 < und && !d.undLast then s1.dapEvent p else s1

/-! ### Changes at a boundary (R236, R237) -/

/-- A switch armed on a key at a boundary: it replaces the pending one, and its timeout starts; a fade in progress goes on. A gain change that
is replaced leaves the gain that was in force before it. -/
def Dap.armKey (ord key : Nat) (z : ZcPend) (d : Dap) : Dap :=
  { d with
    gainHeld := match tget none d.pend key, z with
      | some (.gain _), .gain _ => d.gainHeld
      | some (.gain g), _ => tput none key (some g) d.gainHeld
      | _, _ => d.gainHeld
    pend := tput none key (some z) d.pend, pendOrd := tput 0 key ord d.pendOrd }

/-- Arming a switch on every key of a port. A start gives zero until it switches. -/
def Dap.armAll (p ord : Nat) (z : ZcPend) (d : Dap) : Dap :=
  (dapKeys p).foldl (fun x k =>
    let y := x.armKey ord k z
    match z with
    | .start => { y with zeroed := tput false k true y.zeroed }
    | _ => y) d

/-- Arming a gain change on one key: the gain in force until then is the pending one's where one is pending, or the one that a stop has kept; a
start that waits is armed anew and takes the new gain at its own switch (R237; log 20). -/
def Dap.armGain (ord old k : Nat) (d : Dap) : Dap :=
  match tget none d.pend k with
  | some (.gain g) => d.armKey ord k (.gain g)
  | some .start => d.armKey ord k .start
  | some .stop => d.armKey ord k (.gain ((tget none d.gainHeld k).getD (BitVec.ofNat 8 old)))
  | none => d.armKey ord k (.gain (BitVec.ofNat 8 old))

/-- Gain changes armed on every key whose code differs from what it was in A1 (R237). -/
def Dap.armGains (p ord : Nat) (was : Word) (d : Dap) : Dap :=
  (dapKeys p).foldl (fun x k => if gainCode d.a1 k ≠ gainCode was k then x.armGain ord (gainCode was k) k else x) d

/-- Counts of R244 at zero, and with them what CAP_DROP counts from (R242), and the runs of R245. -/
def Dap.zeroCounts (d : Dap) : Dap :=
  { d with capWr := 0, capRd := 0, playWr := 0, playRd := 0, capDrop := 0, dropLast := false, undLast := false }

/-- DAP_SET configure in effect (R234, R236): the words, READY from DISABLED, gain changes armed in RUN and MUTED. AUTO_RESUME set on a port
MUTED for a new rate that is already qualified at an accepted class meets the condition of R231. -/
def Dap.configure (p ord : Nat) (a0 a1 a2 a3 a4 a5 : Word) (block : List Byte) (d : Dap) : Dap :=
  let d' := { d with
    a0 := a0
    a1 := a1
    a2 := a2
    a3 := a3
    a4 := a4
    a5 := a5
    state := if d.state = .disabled then .ready else d.state
    resume := d.resume || (d.state = .muted && d.mute = 3 && d.qual && classOk d.cls && bit a0 7)
    txNext := if block.isEmpty then d.txNext else some block }
  if d.started then d'.armGains p ord d.a1 else d'

/-- A port starts: RUN, or MUTED where the input is not qualified (R237, R238). -/
def Dap.starts (p : Nat) (pidx : Word) (sample : Nat) (d : Dap) : Dap :=
  { d with
    state := if d.ready p then .run else .muted
    mute := if d.ready p then 0 else 2
    stopPend := false
    ack := false
    resume := false
    resumeDue := false
    startPidx := pidx
    startSample := BitVec.ofNat 8 sample
    pend := []
    sw := []
    zeroed := []
    gainHeld := []
    fading := [] }

/-- A plain start in effect (R237): every channel waits for its switch. -/
def Dap.plainStart (p ord : Nat) (pidx : Word) (d : Dap) : Dap := (d.zeroCounts.starts p pidx 0).armAll p ord .start

/-- A triggered start (R238): no wait, no fade, samples before the trigger sample zero; the counts stand since ARMED (R244). A gain change at
the same boundary switches under R237 (R248). -/
def Dap.trigStart (p ord : Nat) (pidx : Word) (sample : Nat) (d : Dap) : Dap :=
  ({ d.starts p pidx sample with firstSample := some sample }).armGains p ord d.a1Was

/-- A stop in effect (R236, R237): an armed plain start is withdrawn; a started port stops when every channel has
switched. -/
def Dap.stop (p ord : Nat) (d : Dap) : Dap :=
  if d.state = .armed then { d with state := .ready }
  else if d.started then ({ d with stopPend := true }).armAll p ord .stop
  else d

/-- Ports of a bit map. -/
def portsOf (m : BitVec 16) : List Nat := (upto 16).filter fun p => m.getLsbD p

/-- An arming of ports taken out of the staged changes. -/
def dropArm (ports : BitVec 16) (l : List Staged) : List Staged :=
  l.map fun x => match x.change with
    | .dapArm m => { x with change := .dapArm (m &&& ~~~ports) }
    | _ => x

/-- The trigger disarmed by DAP_SET returns its ports to READY (R236); an arming of theirs that is still to come goes with it. -/
def State.disarm (s : State) : State :=
  match s.time.trig with
  | none => s
  | some t =>
    let s := s.forAll (portsOf t.ports) fun s p => s.onDapP p fun d => if d.state = .armed then { d with state := .ready } else d
    (s.onCmd fun x => { x with staged := dropArm t.ports x.staged }).onTime fun x => { x with trig := none }

/-- A stop takes a plain start of the same ports out of the staged changes (R236). -/
def dropStart (ports : BitVec 16) (l : List Staged) : List Staged :=
  l.map fun x => match x.change with
    | .dapStart m => { x with change := .dapStart (m &&& ~~~ports) }
    | _ => x

/-- A digital audio change in effect. -/
def State.applyDap (s : State) (c : Change) : State :=
  match c with
  | .dapSet p a0 a1 a2 a3 a4 a5 b => s.onDapP p (Dap.configure p s.time.ord a0 a1 a2 a3 a4 a5 b)
  | .dapDisable p => s.onDapP p fun d => { d with state := .disabled, pend := [], sw := [], zeroed := [], gainHeld := [], fading := [] }
  | .dapAck p => s.onDapP p fun d => { d with ack := true, resume := d.resume || (d.qual && classOk d.cls) }
  | .dapDisarm => s.disarm
  | .dapArm m => s.forAll (portsOf m) fun s p =>
      s.onDapP p fun d => if d.state = .ready then { d.zeroCounts with state := .armed } else d
  | .dapStart m => s.forAll (portsOf m) fun s p =>
      let d := s.dapP p
      if d.state = .ready || d.state = .armed then (s.onDapP p (Dap.plainStart p s.time.ord s.pidx)).playback p 0 else s
  | .dapStop m =>
      let s := s.forAll (portsOf m) fun s p => s.onDapP p (Dap.stop p s.time.ord)
      s.onCmd fun x => { x with staged := dropStart m x.staged }
  | _ => s

/-! ### Commands (R234 to R236) -/

/-- Fields of A0 that every OP takes (R234, R482): reserved bits, ZC_TO, and what a port's kind rules out; a disarm ignores PORT. -/
def dapA0Ok (a0 : Word) : Bool :=
  let pdm := isPdm (fld a0 0 4)
  (a0 &&& 0xFFC0FE00#32) = 0 && decide (1 ≤ fld a0 16 6) && decide (fld a0 16 6 ≤ 0x32) &&
    (fld a0 4 2 = 3 || ((pdm || !bit a0 6) && (!pdm || !bit a0 8)))

/-- Argument ranges of DAP_SET configure (R234, R482). s holds the buffers that the accepted commands leave. -/
def dapSetArgsOk (s : State) (c : CmdWords) : Bool :=
  let p := fld c.a0 0 4
  let pdm := isPdm p
  let len := fld c.a4 0 24
  let rs := dapRegionsOf c.a2 c.a3 c.a4
  let others := ((s.dap.filter fun d => d.1 ≠ p).flatMap fun d => dapRegions d.2) ++ s.net.flatMap fun n => netRegions n.2
  dapA0Ok c.a0 &&
  gainOk (gainCode c.a1 0) && gainOk (gainCode c.a1 1) && (pdm || (gainOk (gainCode c.a1 2) && gainOk (gainCode c.a1 3))) &&
  (!pdm || (c.a3 = 0 && c.a5 = 0)) &&
  (c.a4 &&& 0xFC000000#32) = 0 && len % 24 = 0 && len ≤ 16777200 && fld c.a4 24 2 ≠ 3 &&
  !(len ≠ 0 && c.a2 = 0) &&
  (len = 0 || (inHostArea c.a2 (len * frameBytes c.a4) && (c.a3 = 0 || inHostArea c.a3 (len * frameBytes c.a4)))) &&
  rs.all (fun r => others.all fun o => !overlaps r o) &&
  (match rs with | [a, b] => !overlaps a b | _ => true) &&
  (c.a5 = 0 || (blockAt s.regions c.a5 96).isSome)

/-- A configure that may not change in RUN and MUTED (R236). -/
def dapFixedChange (c : CmdWords) (d : Dap) : Bool :=
  bit c.a0 6 ≠ d.master || c.a2 ≠ d.a2 || c.a3 ≠ d.a3 || fld c.a4 0 26 ≠ fld d.a4 0 26

/-- DAP_SET (R234, R236): NOCAP where no member is presented (R360), but for a disarm, which names no port. t is the state that the earlier accepted commands leave at the boundary of the effect. -/
def dapSetChecked (x : Ctx) (s t : State) : Verdict :=
  let c := x.cmd
  let p := fld c.a0 0 4
  let op := fld c.a0 4 2
  let d := t.dapP p
  if !dapA0Ok c.a0 || (op = 0 && !dapSetArgsOk t c) then .reject stBadarg
  else if op = 3 then
    if t.time.trig.isNone then .reject stState
    else .config s s.effectOrd [.dapDisarm] 0
  else if s.wingsNext = 0 then .reject stNocap
  else if op = 0 then
    if d.state = .armed || (d.started && dapFixedChange c d) then .reject stState
    else
      let block := if c.a5 = 0 then [] else match blockAt s.regions c.a5 96 with
        | some b => s.readBlock b 96
        | none => []
      let s := if c.a5 = 0 then s else match blockAt s.regions c.a5 96 with
        | some b => s.blockMet b 96
        | none => s
      .config s s.effectOrd [.dapSet p (c.a0 &&& 0x003F01CF#32) c.a1 c.a2 c.a3 c.a4 c.a5 block] 0
  else if op = 1 then
    if d.state = .ready then .config s s.effectOrd [.dapDisable p] 0 else .reject stState
  else if d.state = .muted && d.mute = 3 && d.qual && classOk d.cls then .config s s.effectOrd [.dapAck p] 0
  else .reject stState

/-- Legs of the digital audio ports of a mask, two a port from 48 on (R98). -/
def dapLegs (ports : BitVec 16) : List Nat := (portsOf ports).flatMap fun p => [48 + 2 * p, 49 + 2 * p]

/-- DAP_START (R235, R236): NOCAP where no member is presented (R360). tAt is the state that the earlier accepted commands leave at a boundary: the ports are checked as they stand at
the boundary of the effect, which for a start in command mode is the arming's (R104). -/
def dapStartChecked (x : Ctx) (s : State) (tAt : Nat → State) : Verdict :=
  let c := x.cmd
  let ports := c.a0.extractLsb' 0 16
  let op := fld c.a0 16 2
  let mode := fld c.a0 18 2
  let fwd := bit c.a0 20
  let start := op = 0
  let trig := start && mode ≠ 3
  if ports = 0 || 2 ≤ op || (c.a0 &&& 0xFFE00000#32) ≠ 0 || c.a3 ≠ 0 || c.a4 ≠ 0 || c.a5 ≠ 0 ||
      (c.a2 &&& 0xFFFFFFE0#32) ≠ 0 || (start && mode = 0 && 24 ≤ fld c.a2 0 5) then .reject stBadarg
  else if s.wingsNext = 0 then .reject stNocap
  else match s.namedOrd c.a1 with
    | none => .reject stState
    | some ord =>
      let t := tAt (if start && mode = 0 then s.effectOrd else ord)
      let st := fun p => (t.dapP p).state
      let plainArmed := fun p => st p = .armed && !(match t.time.trig with | some g => g.ports.getLsbD p | none => false)
      let ok := (portsOf ports).all fun p =>
        if start then st p = .ready else st p = .run || st p = .muted || plainArmed p
      if t.time.trig.isSome || s.time.trig.isSome then .reject stState
      else if trig && fwd && s.imdal.state ≠ .enrolled then .reject stState
      else if !ok then .reject stState
      else if !start then .config s ord [.dapStop ports] 0
      else if !trig then
        let s := s.armVotes (dapLegs ports)
        .config (if s.effectOrd < ord then
            s.onCmd fun m => { m with staged := m.staged ++ [Staged.mk s.effectOrd (.dapArm ports) x.src x.cmd] } else s)
          ord [.dapStart ports] 0
      else
        let point := if mode = 0 then some (ord, fld c.a2 0 5) else none
        let armOrd := if mode = 0 then s.effectOrd else ord
        let s1 := s.onTime fun y => { y with trig := some (Trigger.mk (BitVec.ofNat 2 mode) ports fwd armOrd point) }
        let s2 := if fwd && mode = 0 then
            s1.onImdal fun _ => s1.pointPlaced (s.pidxAt ord) (fld c.a2 0 5) else s1
        let s3 := s2.onCmd fun m => { m with staged := m.staged ++ [Staged.mk armOrd (.dapArm ports) x.src x.cmd] }
        .config (s3.armVotes (dapLegs ports)) ord [] 0

/-! ### Input rate and muting (R229 to R231) -/

/-- |a - b| is at most 0.1 % of b. -/
def within1000 (a b : Nat) : Bool := decide ((max a b - min a b) * 1000 ≤ b)

/-- The rate of a duration of 48 frames in DAP cycles, in Hz to the nearest (R229). -/
def shortHz (cycles : Nat) : Nat := (divRne (48 * 24576000 : Nat) cycles).toNat

/-- Mean of the short-term rates of durations of 48 frames, Hz (R229). -/
def meanRate (cs : List Nat) : Rat := (cs.foldl (fun (a : Rat) (c : Nat) => a + ((48 * 24576000 : Nat) : Rat) / (c : Rat)) (0 : Rat)) / (cs.length : Rat)

/-- Mean rate of the run toward qualification (R229) to the nearest Hz, which becomes RATE_REC. -/
def Dap.meanHz (d : Dap) : Nat := let m := meanRate d.good; (divRne m.num m.den).toNat

/-- A short-term rate lies within 0.1 % of a mean (R229). -/
def nearRate (mean : Rat) (c : Nat) : Bool :=
  let r : Rat := ((48 * 24576000 : Nat) : Rat) / c
  decide ((if r < mean then mean - r else r - mean) * 1000 ≤ mean)

/-- The frames of a Period join the run of good frames, or end it (R229): valid preambles and coding, an accepted class unless UNTRUSTED
(R248), every short-term rate within 0.1 % of their mean. -/
def Dap.measure (p cycles : Nat) (valid untr : Bool) (d : Dap) : Dap :=
  let run := (cycles :: d.good).take 200
  let ok := cycles ≠ 0 && valid && (untr || classOk (classOf p (shortHz cycles)))
  let mean := meanRate run
  { d with
    short := some cycles
    good := if !ok then [] else if run.all (nearRate mean) then run else [cycles] }

/-- The run has reached 100 ms (R229). -/
def Dap.proven (d : Dap) : Bool := decide (200 ≤ d.good.length)

/-- Qualification of an input (R229, R231). While UNTRUSTED the class test is suspended (R248). -/
def Dap.qualified (hz : Nat) (cls : RateClass) (untr : Bool) (d : Dap) : Dap :=
  let lost := d.state = .muted && d.mute = 1
  let same := lost && within1000 hz d.rateRec
  let first := d.state = .muted && d.mute = 2
  let newRate := d.state = .muted && !same && !first
  { d with
    qual := true
    qualHz := hz
    cls := cls
    untr := untr
    recUntr := if same then d.recUntr else untr
    slipFresh := true
    rateRec := if same then d.rateRec else hz
    mute := if newRate then 3 else d.mute
    resume := if same || first then true else if newRate then (d.ack || d.autoResume) && (classOk cls || untr) else d.resume }

/-- Sample index of an instant in the Period. -/
def sampleAt (inPeriod : Nat) : Nat := min 23 (inPeriod * 24 / 500000)

/-- A pending switch of one key takes place at a sample, at once or with a fade. -/
def Dap.switch (key sample : Nat) (fade : Bool) (d : Dap) : Dap :=
  match tget none d.pend key with
  | none => d
  | some z => { d with pend := tput none key none d.pend, sw := tput none key (some ((sample : Int), z, fade)) d.sw }

/-- Loss of an input at a sample (R230): the port goes from RUN to MUTED, and its input is zero from the next sample on. That zero is a
crossing for a start or stop that waits (R248). -/
def Dap.lost (why : DapLoss) (sample : Nat) (d : Dap) : Dap :=
  let d' := { d with
    qual := false
    good := []
    slipQ := if d.state = .run then d.slipQ else []
    resume := false
    resumeDue := false
    losses := match why with | .clockLost => satAdd d.losses 1 | .newRate => d.losses
    mute := if d.state = .run || (d.state = .muted && 3 ≤ d.mute.toNat) then (match why with
        | .clockLost => if d.state = .run then 1 else d.mute
        | .newRate => if d.cls = .other then 4 else 3) else d.mute
    zeroFrom := if d.state = .run then some (sample + 1) else d.zeroFrom
    state := if d.state = .run then .muted else d.state }
  if sample < 23 then [0, 1].foldl (fun x k => match tget none x.pend k with
    | some (.gain _) => x
    | _ => x.switch k (sample + 1) false) d'
  else d'

/-- Resumption (R231): a start under R237 of the input. -/
def Dap.resumed (ord : Nat) (d : Dap) : Dap :=
  [0, 1].foldl (fun x k => if x.wants k = some .stop then x
    else { x.armKey ord k .start with zeroed := tput false k true x.zeroed })
    { d with state := .run, mute := 0, resume := false, resumeDue := false, ack := false }

/-- DAP_INPUT_QUALIFIED (R225, R229): an input whose run of good frames has reached 100 ms qualifies at that run's mean rate and its class; an
event for the qualification, and one for a change of class. -/
def execDapInputQualified (p : DapIx) (hz : Nat) (cls : RateClass) (s : State) : Host.Outcome State Fault Refusal :=
  let d := s.dapP p
  if d.measured p && !d.qual && d.proven && hz = d.meanHz && cls = classOf p hz && (classOk cls || s.untrusted) then
    let s1 := (s.onDapP p (Dap.qualified hz cls s.untrusted)).dapEvent p
    .next (if cls ≠ d.cls then s1.dapEvent p else s1)
  else .next s

/-- The short-term rate is more than 0.1 % off RATE_REC (R230). -/
def Dap.strays (d : Dap) : Bool := match d.short with | some c => !within1000 (shortHz c) d.rateRec | none => false

/-- DAP_INPUT_LOSS (R230). While UNTRUSTED the NEW_RATE test is suspended. -/
def execDapInputLoss (p : DapIx) (why : DapLoss) (s : State) : Host.Outcome State Fault Refusal :=
  let d := s.dapP p
  if d.measured p && d.qual && !(why = .newRate && (s.untrusted || !d.strays)) then
    .next ((s.onDapP p (Dap.lost why (sampleAt s.time.inPeriod))).dapEvent p)
  else .next s

/-- DAP_RESUME (R231): the port whose condition is met resumes at the next boundary. -/
def execDapResume (p : DapIx) (s : State) : Host.Outcome State Fault Refusal :=
  let d := s.dapP p
  .next (if d.state = .muted && d.resume then s.onDapP p fun d => { d with resumeDue := true } else s)

/-- SLIP (R232): a drop or a repeat is counted; a master PDM port does not slip. Where the Period's frames are given at its close, the slip
buffer works on them, and a slip that a row has told of is not counted again (log 114). -/
def execSlip (p : DapIx) (kind : SlipKind) (s : State) : Host.Outcome State Fault Refusal :=
  if (s.dapP p).measured p && (s.dapP p).state ≠ .disabled then
    .next (s.onDapP p fun d => match kind with
      | .drop => { d with drops := satAdd d.drops 1, rowDrops := d.rowDrops + 1 }
      | .repeat_ => { d with repeats := satAdd d.repeats 1, rowRepeats := d.rowRepeats + 1 })
  else .next s

/-- CHANNEL_STATUS_BLOCK (R228, R246): a professional block whose CRCC fails is discarded and counted; any other is
accepted, and a change of channel status is an event. The bytes decide; the row's finding changes nothing. -/
def execChannelStatusBlock (p : DapIx) (block : List Byte) (_crccOk : Bool) (s : State) : Host.Outcome State Fault Refusal :=
  let d := s.dapP p
  if isPdm p || d.state = .disabled then .next s
  else if !statusHolds (padTo 96 block) then .next (s.onDapP p fun d => { d with crccs := satAdd d.crccs 1 })
  else
    let b := padTo 96 block
    let s1 := s.onDapP p fun d => { d with rxBlock := b, rxBlocks := d.rxBlocks + 1, rxPidx := s.pidx }
    .next (if d.rxBlocks ≠ 0 && b.take 48 ≠ d.rxBlock.take 48 then s1.dapEvent p else s1)

/-! ### Zero-crossing switching (R237) -/

/-- Key of a channel and direction. -/
def switchKey (ch : Nat) (out : Bool) : Nat := ch + (if out then 2 else 0)

/-- The crossing that a row tells of (R237): of an output it is one of the Period's samples, which are known; of an input, whose samples are
not known before the Period closes, it is the sample now. -/
def Dap.crossedAt (ch : Nat) (out : Bool) (ord now : Nat) (d : Dap) : Option Nat :=
  if !out then some now
  else match d.falls (ch + 2) ord (d.outSum.getD ch []) with
    | some (k, false) => if k ≤ now then some k else none
    | _ => none

/-- ZERO_CROSSING_SWITCH (R237): the switch is made. When the Period's samples are formed they say where it fell: one of an input that they
do not bear out goes on pending (log 116). -/
def execZeroCrossingSwitch (p : DapIx) (ch : Fin 2) (out : Bool) (s : State) : Host.Outcome State Fault Refusal :=
  match (s.dapP p).crossedAt ch out s.time.ord (sampleAt s.time.inPeriod) with
  | some k => .next (s.onDapP p (Dap.switch (switchKey ch out) k false))
  | none => .next s

/-- ZC_TIMEOUT (R237): ZC_TO has elapsed since the switch was armed, and it applies with a fade over 24 samples. -/
def execZcTimeout (p : DapIx) (ch : Fin 2) (out : Bool) (s : State) : Host.Outcome State Fault Refusal :=
  let d := s.dapP p
  if tget 0 d.pendOrd (switchKey ch out) + 2 * d.zcTo ≤ s.time.ord then
    .next (s.onDapP p (Dap.switch (switchKey ch out) (sampleAt s.time.inPeriod) true))
  else .next s

/-- The port's input in the Period that closes delivers sample j (R230, R233, R238): in RUN, or until its loss, and from a trigger sample on. -/
def Dap.live (d : Dap) (j : Nat) : Bool :=
  (d.state = .run || (d.state = .muted && decide (j < d.zeroFrom.getD 0))) &&
    (match d.firstSample with | some k => decide (k ≤ j) | none => true)

/-- The signal whose crossings a switch of an input seeks (R237): the port's input, also before the port has started. -/
def Dap.inputRaw (p : Nat) (xs : List Int) (d : Dap) : List Int :=
  (upto 24).map fun j => if d.ready p || decide (j < d.zeroFrom.getD 0) then xs.getD j 0 else 0

/-- Input of a channel before its gain: zero where the port does not deliver. -/
def Dap.inputSignal (xs : List Int) (d : Dap) : List Int := (upto 24).map fun j => if d.live j then xs.getD j 0 else 0

/-- Output of a channel before its gain (R240): the Leg's output and the playback sample, summed exactly. -/
def Dap.outputSignal (ys ps : List Int) (d : Dap) : List Int :=
  (upto 24).map fun j =>
    if !d.started || (match d.firstSample with | some k => decide (j < k) | none => false) then 0 else ys.getD j 0 + ps.getD j 0

/-- Playback as a removal leaves it (R420): faded over the Period from B1, silent from B2. -/
def State.removalPlay (s : State) (ps : List Int) : List Int :=
  match s.boot.b1 with
  | none => if s.boot.removal = 8 then [] else ps
  | some b =>
    if s.time.ord < b then ps
    else if s.time.ord = b then (upto 24).map fun k => s24OfF32 (f32Mul (f32OfS24 (ps.getD k 0)) (wOut k))
    else []

/-- The output of a biphase port for the Period in progress (R240), from the Legs' outputs and the playback samples read. -/
def State.dapOut (s : State) (p : Nat) : State :=
  let ys := fun c => match s.mix.lastOut.lookup (72 + 2 * (p - 12) + c) with | some o => o.s24 | none => []
  s.onDapP p fun d => if d.started then
      let xs := (upto 2).map fun c => d.outputSignal (ys c) (s.removalPlay (d.playNext.getD c []))
      let block := fun c => let x := xs.getD c []; d.keyBlock (c + 2) (d.falls (c + 2) s.time.ord x) x
      { d with outSum := xs, lastOut := (upto 2).map block }
    else { d with outSum := [], lastOut := [] }

/-! ### Capture (R242) -/

/-- Frames captured from a Period: all of them, or those from the trigger sample. -/
def Dap.captureFrames (d : Dap) : List (Int × Int) :=
  let fs := (upto 24).map fun j => (((d.lastIn.getD 0 []).getD j 0), ((d.lastIn.getD 1 []).getD j 0))
  match d.firstSample with
  | some k => fs.drop k
  | none => fs

/-- CAPTURE_WRITE at the handover (R242): a port that is started captures its Period's frames, or drops them all. The
first drop after a Period without one is an event (R245). -/
def State.capture (s : State) (p : Nat) : State :=
  let d := s.dapP p
  if !d.started || d.len = 0 then s
  else
    let fs := d.captureFrames
    let n := fs.length
    if d.len < (d.capWr - d.capRd).toNat + n then
      let s1 := s.onDapP p fun d => { d with capDrop := d.capDrop + w32 n, dropLast := true }
      if d.dropLast then s1 else s1.dapEvent p
    else
      let pk := fld d.a4 24 2
      let s := s.onMem fun x => (fs.zipIdx).foldl (fun x f =>
        x.putPantry (frameAddr d.a2 d.a4 (d.capWr.toNat + f.2)) (packSample pk f.1.1 ++ packSample pk f.1.2)) x
      s.onDapP p fun d => { d with capWr := d.capWr + w32 n, dropLast := false }

/-- A DAPREG count by word offset (R244). -/
def State.dapReg (s : State) (off : Nat) : Word :=
  let d := s.dapP ((off - 0x100) / 4)
  match (off - 0x100) % 4 with
  | 0 => d.capWr
  | 1 => d.capRd
  | 2 => d.playWr
  | _ => d.playRd

/-- CAP_RD_WRITE and PLAY_WR_WRITE (R244): none where the value is ignored and counted as denied. -/
def State.dapRegWrite (s : State) (off : Nat) (v : Word) : Option State :=
  let p := (off - 0x100) / 4
  let d := s.dapP p
  if (off - 0x100) % 4 = 1 then
    if d.len < (d.capWr - v).toNat then none else some (s.onDapP p fun d => { d with capRd := v })
  else if (off - 0x100) % 4 = 2 then
    if d.len < (v - d.playRd).toNat then none else some (s.onDapP p fun d => { d with playWr := v })
  else none

/-! ### The boundary (R237, R238, R245, R247) -/

/-- The signals of a port's keys in the Period that closes (R237). -/
def Dap.signal (p : Nat) (x0 x1 : List Int) (d : Dap) (key : Nat) : List Int :=
  if key = 0 then d.inputRaw p x0 else if key = 1 then d.inputRaw p x1 else d.outSum.getD (key - 2) []

/-- The Period of a port closes: its input blocks, its switches, a stop that is complete. -/
def Dap.close (p ord : Nat) (x0 x1 : List Int) (d : Dap) : Dap :=
  let sig := d.signal p x0 x1
  let at_ := fun k => d.falls k ord (sig k)
  let d1 := { d with lastIn := [d.keyBlock 0 (at_ 0) (d.inputSignal x0), d.keyBlock 1 (at_ 1) (d.inputSignal x1)] }
  (dapKeys p).foldl (fun x k => x.settleKey k (at_ k) (sig k)) d1

/-- A stop is complete (R237): every key has switched, and no fade goes on. -/
def Dap.stopped (d : Dap) : Bool := d.stopPend && (d.pend.all fun e => e.2.isNone) && d.fading.all fun e => e.2.isNone

/-- Rate and class of an input over the Periods before a boundary (R229), in every state; a port muted for a new rate shows class OTHER (R245). -/
def State.dapRate (s : State) (p hz : Nat) : State :=
  let d := s.dapP p
  let c := classOf p hz
  let s1 := s.onDapP p fun d => { d with
    measHz := hz
    untr := s.untrusted
    cls := if s.untrusted then d.cls else c
    mute := if !s.untrusted && c = .other && d.mute = 3 then 4 else d.mute }
  if !s.untrusted && d.measured p && c ≠ d.cls then s1.dapEvent p else s1

/-- A configured port over the Period that closes: its input, capture, a stop that is complete. -/
def State.dapPeriod (s : State) (p : Nat) (m : PeriodInput) (audio : Nat → List Int) : State :=
  let leg := if isPdm p then 48 + 2 * p else 72 + 2 * (p - 12)
  let r : Dap × List Int × List Int := match m.frames.find? fun q => q.1.val = p with
    | some q =>
      let y := (s.dapP p).takeFrames p q.2
      (y.1, y.2.map (·.1), y.2.map (·.2))
    | none => (s.dapP p, audio leg, audio (leg + 1))
  let s := s.onDapP p fun _ => { r.1.close p s.time.ord r.2.1 r.2.2 with rowDrops := 0, rowRepeats := 0 }
  let s := s.capture p
  let s := s.onDapP p fun d => { d with firstSample := none, zeroFrom := none, a1Was := d.a1 }
  s.onDapP p fun d => if d.stopped then
    { d with stopPend := false, state := .ready, mute := 0, zeroed := [], resume := false, resumeDue := false } else d

/-- A port at a boundary: its measurement, its Period, its class. -/
def State.dapBoundary (s : State) (p : Nat) (m : PeriodInput) (audio : Nat → List Int) : State :=
  let s := match m.short.find? fun q => q.1.val = p with
    | some q => s.onDapP p (Dap.measure p q.2.1 q.2.2 s.untrusted)
    | none => s
  let s := if (s.dapP p).state = .disabled then s else s.dapPeriod p m audio
  match m.dapHz.find? fun q => q.1.val = p with
  | some q => s.dapRate p q.2
  | none => s

/-- Ports at the boundary that opens a Period, after the configuration: a resumption that is due (R231), the block sent (R228), the outputs. -/
def State.dapOpen (s : State) (p : Nat) : State :=
  let d := s.dapP p
  let s := if d.state = .muted && d.resume && d.resumeDue then (s.onDapP p (Dap.resumed s.time.ord)).dapEvent p else s
  if isPdm p then s else (s.onDapP p (Dap.openTx (s.pidx * 24#32))).dapOut p

/-! ### What a port drives (R225, R227, R247) -/

/-- PDM_CLK[p] as the device drives it. -/
inductive PdmClk where
  /-- Not driven: an input, or no clock. -/
  | off
  /-- 3.072 MHz, each 64th rising edge at a 48 kHz sample instant. -/
  | driven
  deriving DecidableEq, Repr

/-- PDM_CLK (R225, R247): driven by a master from READY on until DISABLED, while the DAP domain is ON. -/
def State.pdmClk (s : State) (p : Nat) : PdmClk :=
  let d := s.dapP p
  if isPdm p && d.master && d.state ≠ .disabled && s.domOn dDap then .driven else .off

/-- BPH_OUT of a biphase port. -/
inductive BphOut where
  | floats
  | low
  /-- Frames at 48 kHz, frame j of the Period at sample instant j. -/
  | frames (sub : List (Subframe × Subframe))
  deriving DecidableEq, Repr

/-- BPH_OUT (R227, R247): floating while the DAP domain is not ON, low while DISABLED, else the 24 frames of the Period in progress, silent
where the port is not started. -/
def State.bphOut (s : State) (p : Nat) : BphOut :=
  let d := s.dapP p
  if !s.domOn dDap then .floats
  else if d.state = .disabled then .low
  else
    let start := s.pidx * 24#32
    .frames ((upto 24).map fun j =>
      let b := if j < d.txFrom then d.txOld else d.txBlock
      let f := blockFrame start j
      let v := fun c => (d.lastOut.getD c []).getD j 0
      (subframeOut b 0 f (v 0), subframeOut b 1 f (v 1)))

/-- The port's SELF vote on the DAP domain (R247). -/
def Dap.votes (p : Nat) (d : Dap) : Bool :=
  d.state = .armed || d.started || (d.state = .ready && (!isPdm p || d.master))

end Sys2Proof.Machine
end

