-- ==== Sys2Proof/Machine/NetPort.lean ====
section
/-! DEFINITION. Network ports: configuration, link states, the rate step, PTP roles, counters (R249 to R258, R273 to R283). -/

namespace Sys2Proof.Machine

/-! ### Fields (R252, R273) -/

def Net.rates (n : Net) : Nat := fld n.a1 0 3
def Net.anEn (n : Net) : Bool := bit n.a1 3
def Net.stepEn (n : Net) : Bool := bit n.a1 6
def Net.rxPauseEn (n : Net) : Bool := bit n.a1 7
def Net.pauseAll (n : Net) : Bool := bit n.a1 8
def Net.mcHost (n : Net) : Bool := bit n.a1 9
def Net.stepHold (n : Net) : Nat := fld n.a1 16 8
def Net.ptpRole (n : Net) : Nat := fld n.p1 0 2
def Net.slaveOnly (n : Net) : Bool := bit n.p1 14

/-- The port's address, byte 0 first (R252). -/
def Net.mac (n : Net) : List Byte := beBytes 2 (fld n.a5 0 16) ++ beBytes 4 n.a4.toNat

/-- Rates in rising order with their bit of RATES, code of R277 and picoseconds per bit. -/
def rateBit : NetRate → Nat
  | .g1 => 0
  | .g10 => 1
  | .g25 => 2
def rateCode : Option NetRate → Nat
  | none => 0
  | some r => rateBit r + 1
def bitPs : NetRate → Nat
  | .g1 => 1000
  | .g10 => 100
  | .g25 => 40

/-- A rate is enabled (R252). -/
def Net.enabled (n : Net) (r : NetRate) : Bool := bit n.a1 (rateBit r)

/-- The highest enabled rate, used where negotiation is off. -/
def Net.highest (n : Net) : Option NetRate :=
  if n.enabled .g25 then some .g25 else if n.enabled .g10 then some .g10 else if n.enabled .g1 then some .g1 else none

/-- Forward error correction that a rate supports (R249). -/
def fecFits (r : NetRate) (f : FecUse) : Bool :=
  match f, r with
  | .none, _ => true
  | .baseR, .g10 => true
  | .baseR, .g25 => true
  | .rs, .g25 => true
  | _, _ => false

/-- Forward error correction that the FEC setting allows at a rate (R252): none at 1G. -/
def Net.fecSet (n : Net) (r : NetRate) (f : FecUse) : Bool :=
  fecFits r f && (match fld n.a1 4 2, r with
    | 0, _ => f = .none
    | 1, .g1 => f = .none
    | 1, _ => f = .baseR
    | 2, .g1 => f = .none
    | 2, .g10 => f = .baseR
    | 2, .g25 => f = .rs
    | _, _ => true)

/-- State codes (R277). -/
def linkCode : LinkState → Nat
  | .disabled => 0
  | .an => 1
  | .train => 2
  | .up => 3
  | .retrain => 4
  | .down => 5

/-- A counter of R278 gains k, while the port's domain is ON (R282). -/
def State.netCount (s : State) (p i k : Nat) : State :=
  if s.domOn (dNet p) then s.onNetP p fun n => { n with ctr := tmod 0 i (fun c => c + BitVec.ofNat 64 k) n.ctr } else s

/-- The other port of the pair. -/
def otherPort (p : Nat) : Nat := 1 - p

/-! ### PTP (R274, R276) -/

/-- The port that carries the ordinary clock, none in boundary-clock role or with PTP disabled (R274). -/
def State.ptpPort (s : State) : Option Nat :=
  let r0 := (s.netP 0).ptpRole
  let r1 := (s.netP 1).ptpRole
  if r0 = 1 && r1 = 1 then some (if (s.netP 1).ptpActive then 1 else 0)
  else if r0 = 1 then some 0 else if r1 = 1 then some 1 else none

/-- PTP code of a port (R277); a DISABLED port runs no PTP. -/
def State.ptpCode (s : State) (p : Nat) : Nat :=
  let r := (s.netP p).ptpRole
  if r = 0 || (s.netP p).state = .disabled then 0 else if r = 2 then 3 else if s.ptpPort = some p then 1 else 2

/-- The standby port of an ordinary clock on both ports becomes active (R274, R276). The reference stays qualified only
where the standby had the same grandmaster; else it is lost (R83, R86). -/
def State.ptpSwap (s : State) (p : Nat) : State :=
  if (s.netP 0).ptpRole = 1 && (s.netP 1).ptpRole = 1 && s.ptpPort = some p then
    let q := otherPort p
    let same := (s.netP q).ptpGm = some s.time.ptpGm
    ((s.onNetP 1 fun n => { n with ptpActive := decide (q = 1) }).onTime fun t => { t with ptpQual := t.ptpQual && same }).refUpdate
  else s

/-! ### Link states (R253) -/

/-- The hold of a PAUSE that has run out is counted, and a later one takes its place (R272). -/
def State.pauseStep (s : State) (p : Nat) : State :=
  let n := s.netP p
  match n.pauseTo with
  | none => s
  | some t =>
    if s.monoNs < t then s
    else (s.netCount p 24 (t - n.pauseFrom)).onNetP p fun x => { x with
      pauseFrom := match x.pauseNext with | some q => q.1 | none => x.pauseFrom
      pauseTo := x.pauseNext.map (·.2)
      pauseNext := none }

/-- The pauses that have run out by now. -/
def State.pauseSettle (s : State) (p : Nat) : State := (s.pauseStep p).pauseStep p

/-- The pause in force ends now: the time it held is counted (R272). -/
def State.pauseEnd (s : State) (p : Nat) : State :=
  let s := s.pauseSettle p
  let n := s.netP p
  match n.pauseTo with
  | none => s
  | some t => (s.netCount p 24 (min t s.monoNs - n.pauseFrom)).onNetP p fun x => { x with pauseTo := none, pauseNext := none }

/-- Media frames that stand in Q6 and Q7 of a port that leaves UP are dropped and counted (R258). -/
def State.mediaDrop (s : State) (p : Nat) : State :=
  s.forAll [6, 7] fun s q =>
    let l := tget [] (s.netP p).queues q
    let s := s.forAll (l.filterMap fun x => match x.src with | .media k => some k | _ => none) fun s k =>
      (s.netCount p 19 1).onTxS k fun y => { y with n5 := y.n5 + 1 }
    if l.isEmpty then s else s.onNetP p fun n => { n with queues := tput [] q [] n.queues }

/-- A change of link state: NET, one event, its PIDX (R253, R277). The time without UP (R253, R258) runs from the state that it leaves UP or
starts to negotiate in; a step up that waits ends with UP (R256), and so do a PAUSE and the media frames that wait (R258). -/
def State.linkTo (s : State) (p : Nat) (st : LinkState) : State :=
  let s := if st = .up then s else s.pauseEnd p
  let s := if (s.netP p).state = .up && st ≠ .up then s.mediaDrop p else s
  (s.onNetP p fun n => { n with
    state := st
    since := s.time.ord
    sinceMono := s.monoNs
    anMono := if st = .an || st = .retrain then s.monoNs else n.anMono
    notUpFrom := if n.state = .up && st ≠ .up then s.monoNs else n.notUpFrom
    upWait := n.upWait && st = .up
    events := n.events + 1
    changed := s.pidx }).raise irqNet

/-- Negotiation starts again: all enabled rates advertised (R252, R253). -/
def State.negotiate (s : State) (p : Nat) : State :=
  (s.onNetP p fun n => { n with rate := none, fec := .none, target := none }).linkTo p .an

/-- RING_SET of a port in effect (R252, R253). -/
def State.netPortSet (s : State) (p : Nat) (a1 a2 a3 a4 a5 : Word) : State :=
  let o := s.netP p
  let s := s.onNetP p fun n => { n with a1 := a1, a2 := a2, a3 := a3, a4 := a4, a5 := a5, upWait := n.upWait && bit a1 6 }
  let restart := fld a1 0 4 ≠ fld o.a1 0 4 || fld a1 4 2 ≠ fld o.a1 4 2
  if fld a1 0 3 = 0 then
    if o.state = .disabled then s
    else ((s.onNetP p fun n => { n with rate := none, fec := .none, target := none }).ptpSwap p).linkTo p .disabled
  else if !s.domOn (dNet p) then s
  else if o.state = .disabled then s.negotiate p
  else if restart then ((if o.state = .up then s.ptpSwap p else s).negotiate p)
  else s

/-- A ring in effect (R260, R261): enabling sets TAIL and HEAD to zero. -/
def NetRing.set (a1 a2 a3 a4 a5 : Word) (r : NetRing) : NetRing :=
  let start := bit a2 31 && !bit r.a2 31
  { r with
    a1 := a1, a2 := a2, a3 := a3, a4 := a4, a5 := a5
    tail := if start then 0 else r.tail
    head := if start then 0 else r.head
    unrep := if start then 0 else r.unrep
    unrepFrom := if start then none else r.unrepFrom }

/-- A ring that is enabled afresh no longer owns the frame that it was sending (R261). -/
def OnWire.disown (t : Nat) (w : OnWire) : OnWire :=
  match w.frame.src with
  | .ring k _ _ => if k = t then { w with own := false } else w
  | _ => w

/-- A network change in effect. -/
def State.applyNet (s : State) (c : Change) : State :=
  match c with
  | .netPort p a1 a2 a3 a4 a5 => s.netPortSet p a1 a2 a3 a4 a5
  | .netRing p tx ix a1 a2 a3 a4 a5 =>
      let k := if tx then 16 + ix else ix
      s.onNetP p fun n => { n with
        rings := tmod {} k (NetRing.set a1 a2 a3 a4 a5) n.rings
        wire := if tx && bit a2 31 && !bit (tget {} n.rings k).a2 31 then n.wire.map (OnWire.disown ix) else n.wire }
  | .netRule p ix a1 a2 a3 => s.onNetP p fun n => { n with rules := tput (0, 0, 0) ix (a1, a2, a3) n.rules }
  | .netPtp p a1 a2 a3 => s.onNetP p fun n => { n with p1 := a1, p2 := a2, p3 := a3, ptpMono := [] }
  | _ => s

/-- NEGOTIATION_RESOLVED (R253): AN goes to TRAIN; in RETRAIN only the target rate is advertised. -/
def execNegotiationResolved (p : NetIx) (r : NetRate) (f : FecUse) (partner : BitVec 8) (s : State) :
    Host.Outcome State Fault Refusal :=
  let n := s.netP p
  let ok := n.enabled r && n.fecSet r f && (n.anEn || n.highest = some r)
  if n.state = .an && ok then
    .next ((s.onNetP p fun n => { n with rate := some r, fec := f, partner := partner }).linkTo p .train)
  else if n.state = .retrain && n.target = some r && n.fecSet r f then
    .next (s.onNetP p fun n => { n with rate := some r, fec := f, partner := partner })
  else .next s

/-- TRAINING_COMPLETE (R253): TRAIN, or RETRAIN at its target rate, goes UP; a step is counted. -/
def execTrainingComplete (p : NetIx) (s : State) : Host.Outcome State Fault Refusal :=
  let n := s.netP p
  if n.state = .train then .next (s.linkTo p .up)
  else if n.state = .retrain && n.rate = n.target then
    let s1 := s.netCount p (if n.stepUp then 28 else 27) 1
    .next ((s1.onNetP p fun n => { n with target := none }).linkTo p .up)
  else .next s

/-- LINK_TIMEOUT (R253): 1 s in AN and TRAIN without reaching UP restarts; 1 s in RETRAIN gives up the step, and steps down are suppressed for
600 s. -/
def execLinkTimeout (p : NetIx) (s : State) : Host.Outcome State Fault Refusal :=
  let n := s.netP p
  if s.monoNs < n.anMono + 1000000000 then .next s
  else if n.state = .an || n.state = .train then .next ((s.netCount p 26 1).negotiate p)
  else if n.state = .retrain then
    .next ((s.onNetP p fun n => { n with suppress := some (s.time.ord + 1200000) }).negotiate p)
  else .next s

/-- LINK_LOSS (R253): UP goes DOWN, and DOWN goes to AN at once. The active PTP port hands over (R274). A loss at a rate with block lock
counts BLOCK_LOCK_LOSS (R278). -/
def execLinkLoss (p : NetIx) (s : State) : Host.Outcome State Fault Refusal :=
  if (s.netP p).state = .up then
    let s := if (s.netP p).rate = some .g1 then s else s.netCount p 31 1
    let s1 := ((s.onNetP p fun n => { n with badOrd := some s.time.ord }).ptpSwap p).linkTo p .down
    .next (s1.negotiate p)
  else .next s

/-- PAUSE_EXPIRY (R272): the time held is counted; a later PAUSE holds on. -/
def execPauseExpiry (p : NetIx) (s : State) : Host.Outcome State Fault Refusal :=
  .next (s.pauseSettle p)

/-! ### Load and the rate step (R254 to R257) -/

/-- Load in bit/s of bytes in one Period (R254). -/
def loadBps (bytes : Nat) : Nat := bytes * 16000

/-- A threshold of R252 in bit/s. -/
def stepTh (code : Nat) : Nat := code * 10000000

/-- The next lower rate and its threshold in 10 Mbit/s units (R255). -/
def Net.lower (n : Net) : Option (NetRate × Nat) :=
  match n.rate with
  | some .g25 => if n.enabled .g10 then some (.g10, fld n.a2 0 16) else if n.enabled .g1 then some (.g1, fld n.a3 0 16) else none
  | some .g10 => if n.enabled .g1 then some (.g1, fld n.a3 0 16) else none
  | _ => none

/-- The next higher rate and its threshold (R256). -/
def Net.higher (n : Net) : Option (NetRate × Nat) :=
  match n.rate with
  | some .g1 => if n.enabled .g10 then some (.g10, fld n.a3 16 16) else if n.enabled .g25 then some (.g25, fld n.a3 16 16) else none
  | some .g10 => if n.enabled .g25 then some (.g25, fld n.a2 16 16) else none
  | _ => none

/-- Condition 4 of R255: the partner port is healthy for a port with the given STEP_HOLD. -/
def State.healthy (s : State) (p hold : Nat) : Bool :=
  let n := s.netP p
  n.state = .up && decide (n.since + hold * 2000 ≤ s.time.ord) &&
    (match n.badOrd with | none => true | some b => decide (b + 2000 ≤ s.time.ord))

/-- Condition 5 of R255: every stream carried on the port is carried on the partner. -/
def State.streamsPaired (s : State) (p : Nat) : Bool :=
  (s.media.rx ++ s.media.tx).all fun x =>
    x.2.state = .idle || !strHasPort x.2.block p || strHasPort x.2.block (otherPort p)

/-- A step down is decided at this boundary (R255). -/
def State.stepDown (s : State) (p : Nat) : Option NetRate :=
  let n := s.netP p
  match n.lower with
  | none => none
  | some (r, th) =>
    let len := n.stepHold * 2000
    let seen := n.loads.take len
    if n.state = .up && n.stepEn && (match n.suppress with | none => true | some o => decide (o ≤ s.time.ord)) &&
        n.since + len ≤ s.time.ord && seen.length = len && loadBps (seen.foldl (· + ·) 0) < stepTh th * len &&
        n.partner.getLsbD (rateBit r) && s.healthy (otherPort p) n.stepHold && s.streamsPaired p &&
        !(n.ptpRole = 2 && n.ptpSlave) then some r
    else none

/-- A step up is decided at this boundary (R256). -/
def State.stepUpDue (s : State) (p : Nat) : Option NetRate :=
  let n := s.netP p
  match n.higher with
  | none => none
  | some (r, th) => if n.state = .up && n.stepEn && (n.upWait || stepTh th < loadBps (n.loads.headD 0)) then some r else none

/-- A port starts a retrain (R253, R258): PTP moves to the partner where it may (R276), a PAUSE ends. -/
def State.retrain (s : State) (p : Nat) (r : NetRate) (up : Bool) : State :=
  let s := if (s.netP (otherPort p)).state = .up then s.ptpSwap p else s
  (s.onNetP p fun n => { n with target := some r, rate := none, stepUp := up }).linkTo p .retrain

/-- Both ports' steps at a boundary (R255 to R257): a step up goes first, NET0 before NET1, and at most one starts. -/
def State.rateSteps (s : State) : State :=
  let busy := (s.netP 0).state = .retrain || (s.netP 1).state = .retrain
  let wait := fun (s : State) p => s.onNetP p fun n => { n with upWait := true }
  match s.stepUpDue 0, s.stepUpDue 1 with
  | some r, u1 =>
    if busy then (let s := wait s 0; if u1.isSome then wait s 1 else s)
    else (let s := s.retrain 0 r true; if u1.isSome then wait s 1 else s)
  | none, some r => if busy then wait s 1 else s.retrain 1 r true
  | none, none =>
    if busy then s
    else match s.stepDown 0, s.stepDown 1 with
      | some r, _ => s.retrain 0 r false
      | none, some r => s.retrain 1 r false
      | none, none => s

/-- FEC codewords of the Period that closes (R255, R278). -/
def State.fecCodewords (s : State) (p good bad : Nat) : State :=
  let s := (s.netCount p 29 good).netCount p 30 bad
  if bad = 0 then s else s.onNetP p fun n => { n with badOrd := some s.time.ord }

/-- A port at a boundary: the load of the Period that closes, in bytes (R254). -/
def State.netLoad (s : State) (p : Nat) : State :=
  s.onNetP p fun n => { n with
    loads := (max n.txLoad n.rxLoad :: n.loads).take 120000
    txLoad := 0
    rxLoad := 0 }

/-! ### RING_SET (R251, R252, R260, R261, R265, R273) -/

/-- Ranges of the port words (R252). -/
def netPortOk (c : CmdWords) : Bool :=
  (c.a1 &&& 0xFF00FC00#32) = 0 && decide (1 ≤ fld c.a1 16 8) && decide (fld c.a1 16 8 ≤ 0x3C) &&
  decide (fld c.a2 0 16 < fld c.a2 16 16) && decide (fld c.a3 0 16 < fld c.a3 16 16) &&
  decide (fld c.a2 16 16 ≤ 0x3E8) && decide (fld c.a3 16 16 ≤ 0x64) &&
  !(fld c.a1 4 2 = 2 && !bit c.a1 2) && (c.a5 &&& 0xFFFF0000#32) = 0 && !bit c.a5 8

/-- Ranges of the ring words (R260). t gives the other areas. -/
def netRingOk (t : State) (p : Nat) (tx : Bool) (ix : Nat) (c : CmdWords) : Bool :=
  let key := if tx then 16 + ix else ix
  let n := fld c.a2 0 13
  let rs := ringRegionsOf c.a1 c.a2 c.a3 c.a4
  let others := (t.dap.flatMap fun d => dapRegions d.2) ++
    t.net.flatMap fun m => (m.2.rings.filter fun r => !(m.1 = p && r.1 = key)).flatMap fun r =>
      ringRegionsOf r.2.a1 r.2.a2 r.2.a3 r.2.a4
  (if tx then decide (ix ≤ 4) else decide (ix ≤ 14)) && decide (n ≤ 4096) && (c.a2 &&& 0x7FFFE000#32) = 0 &&
  c.a1.toNat % 4 = 0 && c.a3.toNat % 16 = 0 && c.a4.toNat % 64 = 0 &&
  fld c.a5 0 16 % 64 = 0 && decide (64 ≤ fld c.a5 0 16) && decide (fld c.a5 0 16 ≤ 16384) &&
  (n = 0 || inHostArea c.a1 (16 * n)) && (c.a4 = 0 || inHostArea c.a3 c.a4.toNat) &&
  rs.all (fun r => others.all fun o => !overlaps r o)

/-- Ranges of a profile: domain is 0 to 127 throughout (R273). -/
def logIn (v : Nat) (lo hi : Int) : Bool := v = 0x80 || (decide (lo ≤ sgn 8 v) && decide (sgn 8 v ≤ hi))

/-- Ranges of the PTP words (R273). -/
def netPtpOk (c : CmdWords) : Bool :=
  let pr := fld c.a1 2 2
  let s := fld c.a2 0 8
  let a := fld c.a2 8 8
  let d := fld c.a2 16 8
  let to_ := fld c.a2 24 8
  (c.a1 &&& 0xFFFF8000#32) = 0 && fld c.a1 0 2 ≠ 3 && pr ≠ 3 && decide (fld c.a1 4 8 ≤ 127) &&
  !(bit c.a1 12 && bit c.a1 13) && (to_ = 0 || (decide (2 ≤ to_) && decide (to_ ≤ 10))) &&
  (c.a3 &&& 0xFFFF0000#32) = 0 && c.a4 = 0 && c.a5 = 0 &&
  (if pr = 0 then logIn s (-7) (-1) && logIn a (-3) 1 && logIn d (-7) (-1)
   else if pr = 1 then logIn s (-4) 1 && logIn a 0 4 && logIn d (-3) 5
   else logIn s (-1) 1 && logIn a 0 4 && logIn d 0 5)

/-- The other port is about to be set to the boundary clock role (R273): a change staged, or an entry that waits on the Command Ring, sets it so
(DEDUCED, log 125: of a pair of commands the first is checked before the second has been accepted). -/
def State.pairs (s : State) (p : Nat) : Bool :=
  let sets := fun (a0 a1 : Word) => fld a0 0 1 = otherPort p && fld a0 1 3 = 4 && fld a1 0 2 = 2
  (s.cmd.staged.any fun y => match y.change with
    | .netPtp q a1 _ _ => q = otherPort p && fld a1 0 2 = 2
    | _ => false) ||
  (s.cmd.en && (upto (s.cmd.tail - s.cmd.head).toNat).any fun i =>
    let c := s.ringEntryAt (s.cmd.head.toNat + i)
    c.op = 0x44 && sets c.a0 c.a1)

/-- RING_SET. -/
def ringSetChecked (x : Ctx) (s t : State) : Verdict :=
  let c := x.cmd
  let p := fld c.a0 0 1
  let op := fld c.a0 1 3
  let ix := fld c.a0 8 4
  let ok := fun ch => Verdict.config s s.effectOrd [ch] 0
  if (c.a0 &&& 0xFFFFF0F0#32) ≠ 0 || 5 ≤ op || ((op = 0 || op = 4) && ix ≠ 0) then .reject stBadarg
  else if op = 0 then
    if netPortOk c then ok (.netPort p c.a1 c.a2 c.a3 c.a4 c.a5) else .reject stBadarg
  else if op = 1 || op = 2 then
    let tx := op = 2
    let r := tget ({} : NetRing) (t.netP p).rings (if tx then 16 + ix else ix)
    if !netRingOk t p tx ix c then .reject stBadarg
    else if bit c.a2 31 && bit r.a2 31 &&
        (c.a1 ≠ r.a1 || c.a2 ≠ r.a2 || c.a3 ≠ r.a3 || c.a4 ≠ r.a4 || fld c.a5 0 16 ≠ fld r.a5 0 16) then .reject stState
    else ok (.netRing p tx ix c.a1 c.a2 c.a3 c.a4 c.a5)
  else if op = 3 then
    if (c.a1 &&& 0xE00E0000#32) ≠ 0 || (c.a2 &&& 0x0FE00000#32) ≠ 0 || (c.a3 &&& 0x7FFFFFF0#32) ≠ 0 || fld c.a3 0 4 = 15 ||
        c.a4 ≠ 0 || c.a5 ≠ 0 then .reject stBadarg
    else ok (.netRule p ix c.a1 c.a2 c.a3)
  else
    let other := (t.netP (otherPort p)).ptpRole
    if !netPtpOk c || (fld c.a1 0 2 = 2 && other ≠ 2 && !s.pairs p) then .reject stBadarg
    else ok (.netPtp p c.a1 c.a2 c.a3)

/-! ### Registers (R262, R277 to R279) -/

/-- Mean load over STEP_HOLD, Mbit/s (R254, R277): over the Periods seen where they are fewer. -/
def Net.loadMean (n : Net) : Nat :=
  let seen := n.loads.take (n.stepHold * 2000)
  if seen.isEmpty then 0 else loadBps (seen.foldl (· + ·) 0) / (1000000 * seen.length)

/-- A PAUSE is in force at an instant (R272). -/
def Net.paused (n : Net) (mono : Nat) : Bool :=
  (match n.pauseTo with | some t => decide (mono < t) && decide (n.pauseFrom ≤ mono) | none => false) ||
    (match n.pauseNext with | some q => decide (mono < q.2) && decide (q.1 ≤ mono) | none => false)

/-- STATE to EVENTS of word 0x040 (R277). -/
def State.netStatus (s : State) (p : Nat) : Word :=
  let n := s.netP p
  pack [(0, linkCode n.state), (3, rateCode n.rate), (5, match n.fec with | .none => 0 | .baseR => 1 | .rs => 2),
    (7, b2n (s.healthy (otherPort p) n.stepHold)), (8, s.ptpCode p), (10, b2n (n.paused s.monoNs)),
    (11, b2n (match n.suppress with | none => false | some o => decide (s.time.ord < o))), (16, n.events.toNat)]

/-- A ring of a port. -/
def Net.ring (n : Net) (k : Nat) : NetRing := tget {} n.rings k

/-- The registers of a port's block by offset, none where nothing is populated (R262, R277 to R279, R481). -/
def State.netReg (s : State) (p off : Nat) : Option Word :=
  let n := s.netP p
  if off < 0x20 then some (let r := n.ring (off / 2); if off % 2 = 0 then r.tail else r.head)
  else if off < 0x2A then some (let r := n.ring (16 + (off - 0x20) / 2); if off % 2 = 0 then r.tail else r.head)
  else if off = 0x40 then some (s.netStatus p)
  else if off = 0x41 then some (w32 (loadBps (n.loads.headD 0) / 1000000))
  else if off = 0x42 then 
    some (w32 n.loadMean)
  else if off = 0x43 then some n.changed
  else if off = 0x44 then some (w32 n.partner.toNat)
  else if 0x100 ≤ off && off < 0x180 then
    some (if off % 2 = 0 then (tget 0 n.ctr ((off - 0x100) / 2)).setWidth 32 else n.ctrHi)
  else if 0x200 ≤ off && off < 0x280 then
    some (let c := tget 0 n.bank ((off - 0x200) / 2); if off % 2 = 0 then c.setWidth 32 else c.extractLsb' 32 32)
  else if off = 0x280 then some n.bankHdr.1
  else if off = 0x281 then some n.bankHdr.2.1
  else if off = 0x282 then some n.bankHdr.2.2.1
  else if off = 0x283 then some n.bankHdr.2.2.2
  else none

/-- A read of a counter's low word latches its high word (R278). -/
def State.netLatch (s : State) (p off : Nat) : State :=
  if 0x100 ≤ off && off < 0x180 && off % 2 = 0 then
    s.onNetP p fun n => { n with ctrHi := (tget 0 n.ctr ((off - 0x100) / 2)).extractLsb' 32 32 }
  else s

/-- A TAIL write (R262): none where it is ignored and counted as denied. -/
def State.netTail (s : State) (p off : Nat) (v : Word) : Option State :=
  let k := if off < 0x20 then off / 2 else 16 + (off - 0x20) / 2
  let r := (s.netP p).ring k
  let entries := fld r.a2 0 13
  if off % 2 = 1 || 0x2A ≤ off || k = 15 then none
  else if !bit r.a2 31 || entries < (v - r.head).toNat then none
  else some (s.onNetP p fun n => { n with rings := tmod {} k (fun r => { r with tail := v }) n.rings })

/-! ### Interrupt moderation (R281) -/

/-- A ring reports its completions. -/
def State.ringReport (s : State) (p k : Nat) : State :=
  (s.onNetP p fun n => { n with rings := tmod {} k (fun r => { r with unrep := 0, unrepFrom := none }) n.rings }).raise irqNet

/-- A frame completed on a ring: NET after IRQ_FRAMES. -/
def State.ringDone (s : State) (p k : Nat) : State :=
  let s := s.onNetP p fun n => { n with rings := tmod {} k (fun r =>
    { r with unrep := r.unrep + 1, unrepFrom := match r.unrepFrom with | none => some s.monoNs | x => x }) n.rings }
  let r := (s.netP p).ring k
  if fld r.a5 16 8 ≠ 0 && fld r.a5 16 8 ≤ r.unrep then s.ringReport p k else s

/-- RING_IRQ_DELAY_EXPIRY (R281): IRQ_DELAY after the first completion not yet reported. -/
def execRingIrqDelayExpiry (p : NetIx) (k : Fin 21) (s : State) : Host.Outcome State Fault Refusal :=
  let r := (s.netP p).ring k
  match r.unrepFrom with
  | none => .next s
  | some t =>
    if fld r.a5 24 8 ≠ 0 && t + fld r.a5 24 8 * 10000 ≤ s.monoNs then .next (s.ringReport p k) else .next s

end Sys2Proof.Machine
end

