-- ==== Sys2Proof/Machine/Frames.lean ====
section
/-! DEFINITION. Ethernet frames as the ports read and write them (R250, R265, R268 to R271): fields, checksums, steering. -/

namespace Sys2Proof.Machine

/-! ### Checksums (R270, R271) -/

/-- Sum of the 16-bit big-endian words of a byte string, an odd last byte padded with zero. -/
def ocSum : List Byte → Nat
  | a :: b :: r => a.toNat * 256 + b.toNat + ocSum r
  | [a] => a.toNat * 256
  | [] => 0

/-- Ones'-complement fold of a sum below 2^32. -/
def ocFold (n : Nat) : Nat :=
  let a := n % 65536 + n / 65536
  let b := a % 65536 + a / 65536
  b % 65536 + b / 65536

/-- The Internet checksum of a byte string. -/
def ocCheck (bs : List Byte) : Nat := 65535 - ocFold (ocSum bs)

/-- Replacing two bytes at an offset, most significant first. -/
def putBe2 (o v : Nat) (bs : List Byte) : List Byte := bs.take o ++ beBytes 2 v ++ bs.drop (o + 2)

/-- Half-word at an offset in network order. -/
def beHalf (bs : List Byte) (o : Nat) : Nat := byteAt bs o * 256 + byteAt bs (o + 1)

/-! ### Parsing -/

/-- What the device finds in a frame (bytes before the FCS). -/
structure Parsed where
  /-- R250: one 802.1Q tag: PCP and VID. -/
  tag : Option (Nat × Nat)
  /-- EtherType after any tag. -/
  et  : Nat
  /-- offset of the byte after the EtherType -/
  l3  : Nat
  ip4 : Bool
  ip6 : Bool
  /-- UDP header found, and its offset -/
  udp : Option Nat
  /-- UDP length agrees with the IP payload length and lies in the frame -/
  lenOk : Bool
  deriving DecidableEq, Repr

/-- Next header and its offset after at most n extension headers of types 0, 43 and 60 (R270). -/
def extChain (bs : List Byte) : Nat → Nat → Nat → Nat × Nat
  | 0, h, o => (h, o)
  | n + 1, h, o =>
    if (h = 0 || h = 43 || h = 60) && o + 8 ≤ bs.length then extChain bs n (byteAt bs o) (o + 8 * (byteAt bs (o + 1) + 1))
    else (h, o)

/-- Parsing through at most one tag (R270). -/
def parseFrame (bs : List Byte) : Parsed :=
  let tagged := beHalf bs 12 = 0x8100 && decide (18 ≤ bs.length)
  let l3 := if tagged then 18 else 14
  let et := beHalf bs (l3 - 2)
  let v := byteAt bs l3 / 16
  let ihl := byteAt bs l3 % 16
  let ip4 := et = 0x0800 && v = 4 && decide (5 ≤ ihl) && decide (l3 + 4 * ihl ≤ bs.length)
  let ip6 := et = 0x86DD && v = 6 && decide (l3 + 40 ≤ bs.length)
  let x := if ip4 then (byteAt bs (l3 + 9), l3 + 4 * ihl) else extChain bs 2 (byteAt bs (l3 + 6)) (l3 + 40)
  let whole := if ip4 then beHalf bs (l3 + 6) % 16384 = 0 else decide (x.2 + 8 ≤ 256)
  let udp := if (ip4 || ip6) && x.1 = 17 && whole && x.2 + 8 ≤ bs.length then some x.2 else none
  let ipPay := if ip4 then beHalf bs (l3 + 2) - 4 * ihl else beHalf bs (l3 + 4) - (x.2 - (l3 + 40))
  let n := beHalf bs (x.2 + 4)
  { tag := if tagged then some (byteAt bs 14 / 32, beHalf bs 14 % 4096) else none
    et := et
    l3 := l3
    ip4 := ip4
    ip6 := ip6
    udp := udp
    lenOk := udp.isSome && n = ipPay && decide (8 ≤ n) && decide (x.2 + n ≤ bs.length) }

/-- IP source and destination, 16 bytes each with an IPv4 address first (R289). -/
def ipSrc (f : Parsed) (bs : List Byte) : List Byte :=
  if f.ip4 then padTo 16 ((bs.drop (f.l3 + 12)).take 4) else (bs.drop (f.l3 + 8)).take 16
def ipDst (f : Parsed) (bs : List Byte) : List Byte :=
  if f.ip4 then padTo 16 ((bs.drop (f.l3 + 16)).take 4) else (bs.drop (f.l3 + 24)).take 16

/-- DSCP of the IP header. -/
def ipDscp (f : Parsed) (bs : List Byte) : Nat :=
  if f.ip4 then byteAt bs (f.l3 + 1) / 4 else beHalf bs f.l3 / 64 % 64

/-- The IPv4 header. -/
def ip4Header (f : Parsed) (bs : List Byte) : List Byte := (bs.drop f.l3).take (4 * (byteAt bs f.l3 % 16))

/-- Sum over the pseudo-header, the UDP header and the UDP length bytes. -/
def udpSum (f : Parsed) (bs : List Byte) (o : Nat) : Nat :=
  let n := beHalf bs (o + 4)
  ocSum (ipSrc f bs) + ocSum (ipDst f bs) + 17 + n + ocSum ((bs.drop o).take n)

/-- IPv4 header checksum wrong (R271). -/
def ipBad (f : Parsed) (bs : List Byte) : Bool := f.ip4 && ocFold (ocSum (ip4Header f bs)) ≠ 65535

/-- UDP checksum: none where not checked, else whether it is right (R271). -/
def udpCheck (f : Parsed) (bs : List Byte) : Option Bool :=
  match f.udp with
  | none => none
  | some o =>
    if !f.lenOk then none
    else if beHalf bs (o + 6) = 0 then (if f.ip4 then none else some false)
    else some (ocFold (udpSum f bs o) = 65535)

/-- The IPv4 header checksum written (R270, R314). -/
def putIpCsum (f : Parsed) (bs : List Byte) : List Byte :=
  if !f.ip4 then bs
  else
    let z := putBe2 (f.l3 + 10) 0 bs
    putBe2 (f.l3 + 10) (ocCheck (ip4Header f z)) z

/-- The UDP checksum written; a computed zero is sent as 0xFFFF (R270). -/
def putUdpCsum (f : Parsed) (bs : List Byte) (o : Nat) : List Byte :=
  let z := putBe2 (o + 6) 0 bs
  let c := 65535 - ocFold (udpSum f z o)
  putBe2 (o + 6) (if c = 0 then 65535 else c) z

/-- Checksums that a TX frame asks for (R270): the frame, and whether one could not be generated. A frame with a
checksum that cannot be generated is sent unchanged. -/
def txChecksums (ip l4 : Bool) (bs : List Byte) : List Byte × Bool :=
  let f := parseFrame bs
  if (ip && !f.ip4) || (l4 && !(f.udp.isSome && f.lenOk)) then (bs, true)
  else
    let b1 := if ip then putIpCsum f bs else bs
    (match l4, f.udp with
      | true, some o => putUdpCsum f b1 o
      | _, _ => b1, false)

/-- DSCP rewritten, with the IPv4 header checksum (R314). -/
def remark (f : Parsed) (d : Nat) (bs : List Byte) : List Byte :=
  if f.ip4 then
    let b := byteAt bs (f.l3 + 1) % 4 + 4 * d
    putIpCsum f (bs.take (f.l3 + 1) ++ [BitVec.ofNat 8 b] ++ bs.drop (f.l3 + 2))
  else if f.ip6 then putBe2 f.l3 (beHalf bs f.l3 / 4096 * 4096 + d * 64 + beHalf bs f.l3 % 64) bs
  else bs

/-! ### Steering and matching (R264, R265, R300, R312) -/

/-- An enabled steering rule matches when every enabled field matches (R265). -/
def ruleMatches (r : Word × Word × Word) (f : Parsed) (bs : List Byte) : Bool :=
  bit r.2.2 31 &&
  (!bit r.1 16 || f.et = fld r.1 0 16) &&
  (!bit r.1 28 || (match f.tag with | some t => t.2 = fld r.1 20 8 * 16 + fld r.2.1 28 4 | none => false)) &&
  (!bit r.2.1 16 || (match f.udp with | some o => beHalf bs (o + 2) = fld r.2.1 0 16 | none => false)) &&
  (!bit r.2.1 20 || (match f.tag with | some t => t.1 = fld r.2.1 17 3 | none => false))

/-- A frame on a port matches an RX stream's block, whatever the stream's state (R300). -/
def streamMatches (b : List Byte) (port : Nat) (f : Parsed) (bs : List Byte) : Bool :=
  match f.udp with
  | none => false
  | some o =>
    let r := strPath b port
    let vl := pathVlan r
    strHasPort b port && strV6 b = f.ip6 && pathDst r = ipDst f bs && pathDstPort r = (bs.drop (o + 2)).take 2 &&
    (decide (vl < 32768) || (match f.tag with | some t => t.2 = vl % 4096 | none => false)) &&
    (allZero (pathSrc r) || pathSrc r = ipSrc f bs) &&
    (allZero (pathSrcPort r) || pathSrcPort r = (bs.drop o).take 2) &&
    (!strSsrcChk b || (decide (o + 20 ≤ bs.length) && w32 (ofBe ((bs.drop (o + 16)).take 4)) = strSsrc b))

/-- The scope of a policer matches a frame on a port (R312). -/
def State.policerMatches (s : State) (x : Policer) (port : Nat) (f : Parsed) (bs : List Byte) : Bool :=
  let arg := fld x.a5 16 12
  x.en && bit x.a5 (2 + port) &&
  (match fld x.a5 0 2 with
    | 0 => let y := s.rxS arg; y.conf && streamMatches y.block port f bs
    | 1 => (match f.tag with | some t => t.2 = arg | none => false)
    | 2 => (f.ip4 || f.ip6) && ipDscp f bs = arg
    | _ => true)

/-- Pre-colour of a frame (R313). -/
def State.preColour (s : State) (x : Policer) (f : Parsed) (bs : List Byte) : Colour :=
  if !bit x.a5 4 then .green
  else if bit x.a5 5 then (match f.tag with | some t => colourOf (s.media.pcp.toNat / 4 ^ t.1 % 4) | none => .green)
  else if f.ip4 || f.ip6 then colourOf (s.media.dscp.toNat / 4 ^ ipDscp f bs % 4) else .green

/-- Action of a colour: 0 pass, 1 remark, 2 drop (R312). -/
def Policer.action (x : Policer) : Colour → Nat
  | .green => 0
  | .yellow => fld x.a5 6 2
  | .red => fld x.a5 8 2

/-- Policing of a frame of n bytes through the FCS (R312, R314, R315): the state, and the bytes that continue, none where it is
dropped. -/
def State.police (s : State) (port n : Nat) (f : Parsed) (bs : List Byte) : State × Option (List Byte) :=
  match s.media.policers.find? (fun x => s.policerMatches x.2 port f bs) with
  | none => (s, some bs)
  | some x =>
    let y := (x.2.refill s.monoNs).meter n (s.preColour x.2 f bs)
    let act := x.2.action y.2
    let z := match y.2 with
      | .green => { y.1 with green := y.1.green + 1 }
      | .yellow => { y.1 with yellow := y.1.yellow + 1 }
      | .red => { y.1 with red := y.1.red + 1 }
    let z := if act = 2 then { z with dropped := z.dropped + 1 } else z
    let s := s.onMedia fun m => { m with policers := tput {} x.1 z m.policers }
    if act = 2 then (s.netCount port 14 1, none)
    else (s, some (if act = 1 then remark f (fld x.2.a5 10 6) bs else bs))

end Sys2Proof.Machine
end

