-- ==== Sys2Proof/Machine/NetRx.lean ====
section
/-! DEFINITION. FRAME_RECEIVED (R250, R263 to R267, R271, R272, R300 to R303): what a port does with a frame. -/

namespace Sys2Proof.Machine

/-- Greatest timestamp error of a rate in ns (R275). -/
def stampBound : Option NetRate → Int
  | some .g25 => 4
  | some .g10 => 6
  | _ => 16

/-- A network timestamp now (R275): whole timebase in ns, off by a free value within the bound of the rate. -/
def State.stamp (s : State) (r : Option NetRate) : Nat × State := s.stampIn (stampBound r)

/-! ### Rings (R263, R266) -/

/-- Byte address in Pantry of the descriptor of a free-running count c, which wraps at 2^32 (R262). -/
def NetRing.desc (r : NetRing) (c : Nat) : Nat := pantryByte r.a1 + 16 * (c % 2 ^ 32 % max 1 (fld r.a2 0 13))

/-- n bytes at a buffer's window address lie within the ring's region, and the address is aligned (R263, R268). -/
def NetRing.bufOk (r : NetRing) (buf : Word) (n : Nat) : Bool :=
  buf.toNat % 16 = 0 && (fld buf 28 4 = 8 || fld buf 28 4 = 10) &&
    decide (pantryByte r.a3 ≤ pantryByte buf) && decide (pantryByte buf + n ≤ pantryByte r.a3 + r.a4.toNat)

/-- Bytes a buffer holds (R260). -/
def NetRing.bufSize (r : NetRing) : Nat := fld r.a5 0 16

/-- The walk of a frame's bytes over posted descriptors (R266): the memory with the data, the descriptors taken in order with
the bytes each holds (none: its BUF is invalid), and what is left of the frame. -/
def rxFill (r : NetRing) : Nat → Nat → List Byte → Memory → List (Option Nat) → Memory × List (Option Nat) × List Byte
  | 0, _, bs, m, acc => (m, acc, bs)
  | n + 1, c, bs, m, acc =>
    if bs.isEmpty then (m, acc, bs)
    else
      let buf := Memory.readWord m.pantry (r.desc c)
      if !r.bufOk buf r.bufSize then rxFill r n (c + 1) bs m (acc ++ [none])
      else
        let chunk := bs.take r.bufSize
        rxFill r n (c + 1) (bs.drop r.bufSize) (m.putPantry (pantryByte buf) chunk) (acc ++ [some chunk.length])

/-- Words 1 to 3 of descriptors written back. -/
def rxBack (r : NetRing) (head : Nat) (ws : List (Word × Word × Word)) (m : Memory) : Memory :=
  (ws.zipIdx).foldl (fun m w => m.putPantry (r.desc (head + w.2) + 4) (wordBytes [w.1.1, w.1.2.1, w.1.2.2])) m

/-- Word 1 of a descriptor whose BUF is invalid, of a buffer of a dropped frame. -/
def rxErrWord : Word := pack [(19, 1), (31, 1)]
def rxDiscardWord : Word := pack [(18, 1), (31, 1)]

/-- Words 1 to 3 of the descriptors of a delivered frame: flags on the first buffer, the timestamp on the last. -/
def rxWords (flags ts : Nat) (untr : Bool) (ds : List (Option Nat)) : List (Word × Word × Word) :=
  let firstAt := ds.findIdx (·.isSome)
  let last := ds.length - 1
  (ds.zipIdx).map fun d => match d.1 with
    | none => (rxErrWord, 0, 0)
    | some n =>
      let eof := d.2 = last
      (pack [(0, n), (16, b2n (d.2 = firstAt)), (17, b2n eof), (20, if d.2 = firstAt then flags else 0),
        (28, b2n (eof && untr)), (31, 1)], if eof then w32 (ts % 1000000000) else 0, if eof then w32 (ts / 1000000000) else 0)

/-- A frame delivered to a host ring (R266). bad is the counter of the cause for which the frame proves bad. -/
def State.toRing (s : State) (p k n flags ts : Nat) (bs : List Byte) (bad : Option Nat) : State :=
  let r := (s.netP p).ring k
  let head := r.head.toNat
  let free := (r.tail - r.head).toNat
  if !bit r.a2 31 || fld r.a2 0 13 = 0 || free = 0 then s.netCount p 6 1
  else
    let w := rxFill r (min free 4096) head bs s.mem []
    let errs := (w.2.1.filter (·.isNone)).length
    let full := !w.2.2.isEmpty
    let ws := if full || bad.isSome then w.2.1.map fun d => (if d.isNone then rxErrWord else rxDiscardWord, 0#32, 0#32)
      else rxWords flags ts s.untrusted w.2.1
    let s := s.onMem fun _ => rxBack r head ws w.1
    let s := s.netCount p 7 errs
    let s := s.onNetP p fun x => { x with rings := tmod {} k (fun r => { r with head := r.head + w32 w.2.1.length }) x.rings }
    if full then s.netCount p 6 1
    else match bad with
      | some c => s.netCount p c 1
      | none => (((s.netCount p 0 1).netCount p 1 n).netCount p (40 + k) 1).ringDone p k

/-! ### PAUSE (R272) -/

/-- A PAUSE with its time in quanta of 512 bit times, from the end of the frame: until then the one before holds on (R272). -/
def State.pause (s : State) (p quanta endNs : Nat) : State :=
  let s := s.netCount p 11 1
  if !bit (s.netP p).a1 7 then s
  else
    let s := s.pauseSettle p
    let from_ := s.monoNs + endNs
    let ps := match (s.netP p).rate with | some r => bitPs r | none => 0
    let until_ := from_ + quanta * 512 * ps / 1000
    s.onNetP p fun x => match x.pauseTo with
      | some t => { x with pauseTo := some (min t from_), pauseNext := if quanta = 0 then none else some (from_, until_) }
      | none => if quanta = 0 then x else { x with pauseFrom := from_, pauseTo := some until_ }

/-- A MAC control frame. -/
def State.macControl (s : State) (p endNs : Nat) (bs : List Byte) : State :=
  let dst := bs.take 6
  if beHalf bs 14 = 1 && (dst = [0x01, 0x80, 0xC2, 0x00, 0x00, 0x01] || dst = (s.netP p).mac) then
    s.pause p (beHalf bs 16) endNs
  else s.netCount p 12 1

/-! ### Media (R300 to R303) -/

/-- Call bits of a packet: the element CALL_EXT of a one-byte header extension (R297, R303). -/
def callElem (id : Nat) : Nat → List Byte → Nat
  | 0, _ => 0
  | n + 1, bs =>
    match bs with
    | [] => 0
    | h :: r =>
      if h = 0 then callElem id n r
      else if h.toNat / 16 = 15 then 0
      else if h.toNat / 16 = id then byteAt r 0
      else callElem id n (r.drop (h.toNat % 16 + 1))

/-- What an RTP packet holds (R300): timestamp, call bits and payload; none for a format error. -/
def rtpOf (b : List Byte) (pl : List Byte) : Option (Nat × Nat × List Byte) :=
  let cc := byteAt pl 0 % 16
  let x := byteAt pl 0 / 16 % 2 = 1
  let o := 12 + 4 * cc
  let ext := if x then (pl.drop (o + 4)).take (4 * beHalf pl (o + 2)) else []
  let body := pl.drop (if x then o + 4 + 4 * beHalf pl (o + 2) else o)
  let want := packetSamples b * strCh b * (if strL16 b then 2 else 3)
  if pl.length < 12 || byteAt pl 0 / 64 ≠ 2 || byteAt pl 1 % 128 ≠ strPt b || body.length ≠ want then none
  else
    let call := if strCallExt b ≠ 0 && x && beHalf pl o = 0xBEDE then callElem (strCallExt b) ext.length ext else 0
    some (ofBe ((pl.drop 4).take 4), call, body)

/-- Sample i of channel c of a payload, as s24 (R285). -/
def rtpSample (b body : List Byte) (i c : Nat) : Int :=
  let w := if strL16 b then 2 else 3
  let v := ofBe ((body.drop ((i * strCh b + c) * w)).take w)
  if strL16 b then sgn 16 v * 256 else sgn 24 v

/-- Delivery slot of a packet's first sample, as a count of samples at the stream's rate (R301): of the sample instants with the
timestamp, the one nearest the arrival, plus JB. -/
def rtpSlot (b : List Byte) (ts arrival : Nat) : Int :=
  let k0 := arrival * rateHz (strRate b) / 1000000000
  (k0 : Int) + sgn 32 (ts + 2 ^ 32 - (strTsOfs b).toNat + (2 ^ 32 - k0 % 2 ^ 32))

/-- One sample placed (R302): slots, then whether it was late, found its slot filled, filled one. -/
def placeSample (b : List Byte) (arrival : Nat) (d : Int) (v : List Int) (slots : Tab (List Int)) :
    Tab (List Int) × Bool × Bool × Bool :=
  let n := d / rateSamples (strRate b)
  if (n + 1) * 500000 - 15000 < (arrival : Int) then (slots, true, false, false)
  else if (slots.lookup d.toNat).isSome then (slots, false, true, false)
  else (tins d.toNat v slots, false, false, true)

/-- A packet placed in a stream (R301, R302, R303). -/
def Stream.place (port arrival ts call : Nat) (body : List Byte) (x : Stream) : Stream :=
  let b := x.block
  let np := packetSamples b
  let hz := rateHz (strRate b)
  let k := rtpSlot b ts arrival
  let d0 := k + (strJb b * hz / 8000 : Nat)
  if ((arrival + 1000000) * hz : Nat) < (k + np - 1) * 1000000000 then { x with n5 := x.n5 + 1 }
  else
    let r := (upto np).foldl (fun (a : Tab (List Int) × Bool × Bool × List Nat) (i : Nat) =>
      let q := placeSample b arrival (d0 + (i : Int)) ((upto (strCh b)).map (rtpSample b body i)) a.1
      (q.1, a.2.1 || q.2.1, a.2.2.1 || q.2.2.1,
        if q.2.2.2 then ((d0 + (i : Int)) / rateSamples (strRate b)).toNat :: a.2.2.2 else a.2.2.2)) (x.slots, false, false, [])
    let ps := r.2.2.2
    { x with
      slots := r.1
      calls := ps.foldl (fun t n => tins n ((tget (0, 0) t n).1 ||| BitVec.ofNat 8 call, BitVec.ofNat 8 call) t) x.calls
      usedBy := ps.foldl (fun t n => tins n (tget 0 t n ||| BitVec.ofNat 2 (2 ^ port)) t) x.usedBy
      n1 := if ps.isEmpty then x.n1 else x.n1 + 1
      n2 := if r.2.1 then x.n2 + 1 else x.n2
      n3 := if r.2.2.1 then x.n3 + 1 else x.n3 }

/-- A matched frame on the media path. -/
def State.toMedia (s : State) (p n k arrival : Nat) (l3bad : Bool) (pl : List Byte) : State :=
  let s := s.netCount p 13 1
  if l3bad then s
  else match rtpOf (s.rxS k).block pl with
    | none => s.onRxS k fun x => { x with n5 := x.n5 + 1 }
    | some r => ((s.netCount p 0 1).netCount p 1 n).onRxS k (Stream.place p arrival r.1 r.2.1 r.2.2)

/-! ### The frame (R250, R264, R267) -/

/-- A port accepts a destination (R250). -/
def destOk (n : Net) (dst : List Byte) : Bool :=
  byteAt dst 0 % 2 = 1 || (dst = n.mac && !allZero n.mac)

/-- Flags [27:20] of word 1 as a number (R263, R271). -/
def rxFlags (f : Parsed) (bs : List Byte) : Nat :=
  b2n f.tag.isSome + 2 * b2n f.ip4 + 4 * b2n f.ip6 + 8 * b2n f.udp.isSome + 16 * b2n (f.ip4 && !ipBad f bs) +
  32 * b2n (ipBad f bs) + 64 * b2n (udpCheck f bs = some true) + 128 * b2n (udpCheck f bs = some false)

/-- Steps 4 to 6 of R264: the ring, none for a frame that is filtered. -/
def State.steer (s : State) (p : Nat) (f : Parsed) (bs : List Byte) : Option Nat :=
  let n := s.netP p
  match (upto 16).find? (fun i => ruleMatches (tget (0, 0, 0) n.rules i) f bs) with
  | some i => some (fld (tget (0, 0, 0) n.rules i).2.2 0 4)
  | none =>
    let mc := byteAt bs 0 % 2 = 1 && bs.take 6 ≠ List.replicate 6 0xFF
    if !mc || bit n.a1 9 then some 0 else none

/-- The stream that a frame matches (R300). -/
def State.matchStream (s : State) (p : Nat) (f : Parsed) (bs : List Byte) : Option Nat :=
  (s.media.rx.find? fun y => y.2.conf && y.2.state ≠ .idle && streamMatches y.2.block p f bs).map (·.1)

/-- A frame that a port accepts and that is good (R264). n is its length through the FCS. -/
def State.rxGood (s : State) (p n : Nat) (bs : List Byte) : State :=
  let port := s.netP p
  let f := parseFrame bs
  let endNs := match port.rate with | some r => n * 8 * bitPs r / 1000 | none => 0
  let st := s.stamp port.rate
  let s := st.2
  let dport := match f.udp with | some o => beHalf bs (o + 2) | none => 0
  if f.et = 0x8808 && f.tag.isNone then s.macControl p endNs bs
  else
    let s := if ipBad f bs then s.netCount p 9 1 else s
    let s := if udpCheck f bs = some false then s.netCount p 10 1 else s
    if (dport = 319 || dport = 320) && port.ptpRole ≠ 0 then (((s.netCount p 15 1).netCount p 0 1).netCount p 1 n).netCount p 55 1
    else match s.police p n f bs with
    | (s, none) => s
    | (s, some out) =>
      match s.matchStream p f out with
      | some k => s.toMedia p n k st.1 (ipBad f bs || udpCheck f bs = some false)
          (match f.udp with | some o => (out.drop (o + 8)).take (beHalf bs (o + 4) - 8) | none => [])
      | none => match s.steer p f out with
        | some k => s.toRing p k n (rxFlags f bs) st.1 out none
        | none => s.netCount p 8 1

/-- A frame that is found bad at its end (R266, R267): buffers that it has taken are discarded; no buffer, and it is counted
under its cause. -/
def State.rxBad (s : State) (p cause : Nat) (bs : List Byte) : State :=
  let f := parseFrame bs
  let dport := match f.udp with | some o => beHalf bs (o + 2) | none => 0
  let inner := f.et = 0x8808 || ((dport = 319 || dport = 320) && (s.netP p).ptpRole ≠ 0) || (s.matchStream p f bs).isSome
  if !destOk (s.netP p) (bs.take 6) || inner then s.netCount p cause 1
  else match s.steer p f bs with
    | some k => s.toRing p k 0 0 0 bs (some cause)
    | none => s.netCount p cause 1

/-- FRAME_RECEIVED: a port that is UP. The row runs at the frame's timestamp point. -/
def execFrameReceived (p : NetIx) (f : RxFrame) (s : State) : Host.Outcome State Fault Refusal :=
  let n := f.bytes.length
  let bs := f.bytes.take (n - 4)
  let port := s.netP p
  if port.state ≠ .up || !s.domOn (dNet p) then .next s
  else
    let s := s.onNetP p fun x => { x with
      rxLoad := x.rxLoad + n + 20
      badOrd := if f.fcsOk then x.badOrd else some s.time.ord }
    if n < 64 then .next (s.netCount p 3 1)
    else if f.fifoOver then .next (s.rxBad p 5 bs)
    else if 9216 < n then .next (s.rxBad p 4 bs)
    else if !f.fcsOk then .next (s.rxBad p 2 bs)
    else if destOk port (bs.take 6) then .next (s.rxGood p n bs)
    else .next (s.netCount p 8 1)

end Sys2Proof.Machine
end

