-- ==== Sys2Proof/Machine/Rate.lean ====
section
/-! DEFINITION. Linear-phase filters at the device's edges: the fixed-ratio conversion of R22 and R100. -/

namespace Sys2Proof.Machine

/-- A linear-phase filter with its centre c samples back, at index i of the sequence u: tap j and tap 2c - j are one value. The order
and the precision of its sum are not stated (log 90). -/
def firAt (tap : Nat → F32) (c : Nat) (u : Int → F32) (i : Int) : F32 :=
  dot ((upto (2 * c + 1)).map fun j => (tap (min j (2 * c - j)), u (i - j)))

/-- A sample by its index from the start of the newest block, over three blocks of n samples, newest first. -/
def windowAt (bs : List (List F32)) (n : Nat) (i : Int) : F32 :=
  let q := (i + 2 * n).toNat
  (bs.getD (2 - q / n) []).getD (q % n) 0#32

/-- 48 kHz as a ratio of an outer rate (R100), by rate code. -/
def rateRatio (code : Nat) : Nat × Nat :=
  if code = 0 then (1, 1) else if code = 1 then (3, 2) else if code = 2 then (2, 1) else if code = 3 then (3, 1) else (6, 1)

/-- A sequence of outer samples among zeros at the common rate of a conversion. -/
def spaced (l : Nat) (u : Int → F32) (i : Int) : F32 := if i % l = 0 then u (i / l) else 0#32

/-- Conversion of an input to 48 kHz (R22, R100): 24 samples from the blocks of this data and of the two Periods before, the filter
centred 500 µs back. -/
def convertIn (code : Nat) (bs : List (List F32)) : Block :=
  let r := rateRatio code
  (upto 24).map fun k => firAt (Config.rateTap false code) (24 * r.2) (spaced r.1 (windowAt bs (24 * r.2 / r.1))) (r.2 * k : Nat)

/-- Conversion of an output to its outer rate (R22, R100), centred 500 µs back. -/
def convertOut (code : Nat) (bs : List Block) : List F32 :=
  let r := rateRatio code
  (upto (24 * r.2 / r.1)).map fun i => firAt (Config.rateTap true code) (24 * r.2) (spaced r.2 (windowAt bs 24)) (r.1 * i : Nat)

/-- The three blocks that a conversion reaches: this data's, and those kept of the two Periods before; zeros where none is kept. -/
def threeBlocks (ord : Nat) (cur : List F32) (old : List (Nat × List F32)) : List (List F32) :=
  [cur, (old.lookup (ord - 1)).getD [], (old.lookup (ord - 2)).getD []]

end Sys2Proof.Machine
end

