-- ==== Sys2Proof/Machine/NetTx.lean ====
section
/-! DEFINITION. Transmit (R258, R259, R268 to R270, R298, R299, R306, R309, R311): queues, descriptors, frames on the wire. -/

namespace Sys2Proof.Machine

/-! ### Host rings (R268, R269) -/

/-- What stands at the head of a TX ring. -/
inductive TxHead where
  /-- no whole frame is posted -/
  | wait
  /-- a descriptor error over this many descriptors -/
  | bad (n : Nat)
  /-- a frame of n descriptors, before padding and FCS, its checksum request, TS -/
  | frame (n : Nat) (bytes : List Byte) (ip l4 ts : Bool)
  deriving DecidableEq, Repr

/-- The descriptors (words 0 and 1) from the head to the frame's EOF; fuel is the number posted. -/
def txScan (r : NetRing) (m : List Host.Cell) : Nat → Nat → List (Word × Word) → Option (Bool × List (Word × Word))
  | 0, _, _ => none
  | n + 1, c, acc =>
    let w0 := Memory.readWord m (r.desc c)
    let w1 := Memory.readWord m (r.desc c + 4)
    if acc.isEmpty && !bit w1 16 then some (false, [(w0, w1)])
    else if !acc.isEmpty && bit w1 16 then some (false, acc)
    else if bit w1 17 then some (true, acc ++ [(w0, w1)])
    else txScan r m n (c + 1) (acc ++ [(w0, w1)])

/-- A word of the frame's buffers or descriptors reads uncorrectable (R376). -/
def State.txWordBad (s : State) (r : NetRing) (ds : List (Word × Word)) : Bool :=
  (ds.zipIdx).any fun d => (s.badIn (pantryByte d.1.1) (fld d.1.2 0 16)).isSome || (s.badIn (r.desc (r.head.toNat + d.2)) 16).isSome

/-- The head of TX ring t of a port (R269). -/
def State.txHead (s : State) (p t : Nat) : TxHead :=
  let r := (s.netP p).ring (16 + t)
  if !bit r.a2 31 || fld r.a2 0 13 = 0 then .wait
  else match txScan r s.mem.pantry (min 4096 (r.tail - r.head).toNat) r.head.toNat [] with
    | none => .wait
    | some (false, ds) => .bad ds.length
    | some (true, ds) =>
      let ok := ds.all fun d => decide (fld d.2 0 16 ≤ r.bufSize) && r.bufOk d.1 (max 1 (fld d.2 0 16)) && (d.2 &&& 0xFFE00000#32) = 0
      let total := ds.foldl (fun a d => a + fld d.2 0 16) 0
      if !ok || 32 < ds.length || total < 14 || 9212 < total || s.txWordBad r ds then .bad ds.length
      else
        let w1 := (ds.headD (0, 0)).2
        .frame ds.length (ds.flatMap fun d => Memory.readBytes s.mem.pantry (pantryByte d.1) (fld d.2 0 16)) (bit w1 18) (bit w1 19) (bit w1 20)

/-- Writing back n descriptors from the head of a ring as it stood when the frame started (R261, R268), and advancing HEAD where the ring still
owns the frame. ts is the timestamp of the EOF descriptor. -/
def State.txBackTo (s : State) (p t n flags : Nat) (ts : Option Nat) (r : NetRing) (own : Bool) : State :=
  let s := s.onMem fun q => (upto n).foldl (fun m i =>
    let a := r.desc (r.head.toNat + i)
    let w1 := (Memory.readWord m.pantry (a + 4) &&& 0x001FFFFF#32) ||| pack [(28, flags % 2), (29, flags / 2 % 2), (30, flags / 4 % 2), (31, 1)]
    let x := if i + 1 = n then ts else none
    m.putPantry (a + 4) (wordBytes [w1, match x with | some v => w32 (v % 1000000000) | none => 0,
      match x with | some v => w32 (v / 1000000000) | none => 0])) q
  if own then
    (s.onNetP p fun x => { x with rings := tmod {} (16 + t) (fun r => { r with head := r.head + w32 n }) x.rings }).ringDone p (16 + t)
  else s

/-- Writing back n descriptors from HEAD (R268). -/
def State.txBack (s : State) (p t n flags : Nat) (ts : Option Nat) : State := s.txBackTo p t n flags ts ((s.netP p).ring (16 + t)) true

/-- The first word in error that the k descriptors from a ring's head, or their buffers, hold is counted (R376, R390). -/
def State.txEcc (s : State) (p t k : Nat) : State :=
  let r := (s.netP p).ring (16 + t)
  let at_ := fun i => r.desc (r.head.toNat + i)
  let hit := (upto k).findSome? fun i =>
    match s.badIn (at_ i) 16 with
    | some w => some w
    | none => s.badIn (pantryByte (Memory.readWord s.mem.pantry (at_ i))) (fld (Memory.readWord s.mem.pantry (at_ i + 4)) 0 16)
  match hit with
  | some w => (s.eccUncorr 8 (3 + p) 0xFFFF (pantryWindow (4 * w))).slvErr (3 + p)
  | none => s

/-- Descriptor errors at the head of a ring, up to n of them (R269). -/
def State.txErrors (p t : Nat) : Nat → State → State
  | 0, s => s
  | n + 1, s =>
    match s.txHead p t with
    | .bad k => State.txErrors p t n (((s.txEcc p t k).netCount p 18 1).txBack p t k 4 none)
    | _ => s

/-- Frames of a ring completed DROPPED, up to n of them (R258). -/
def State.txDrops (p t : Nat) : Nat → State → State
  | 0, s => s
  | n + 1, s =>
    match s.txHead p t with
    | .bad k => State.txDrops p t n (((s.txEcc p t k).netCount p 18 1).txBack p t k 4 none)
    | .frame k _ _ _ _ => State.txDrops p t n ((s.netCount p 19 1).txBack p t k 2 none)
    | .wait => s

/-- LINKDOWN_DROP_TIMEOUT (R258): 1 s continuously not UP. -/
def execLinkdownDropTimeout (p : NetIx) (s : State) : Host.Outcome State Fault Refusal :=
  let n := s.netP p
  if n.state ≠ .up && s.domOn (dNet p) && n.notUpFrom + 1000000000 ≤ s.monoNs && n.wire.isNone then
    .next (s.forAll (upto 5) fun s t => State.txDrops p t 4096 s)
  else .next s

/-! ### Queues (R259, R311) -/

/-- A queue of a port. -/
def Net.queue (n : Net) (q : Nat) : List TxFrame := tget [] n.queues q
def Net.setQueue (q : Nat) (l : List TxFrame) (n : Net) : Net := { n with queues := tput [] q l n.queues }

/-- Shaper of a queue. -/
def Net.shaper (n : Net) (q : Nat) : Shaper := tget {} n.shapers q

/-- Bytes of a frame through the FCS, after padding. -/
def wireLen (bytes : List Byte) : Nat := max 60 bytes.length + 4

/-- A frame arrives at flow f of Q5 (R311). -/
def State.q5Put (s : State) (p f kind : Nat) (bytes : List Byte) : State :=
  s.onNetP p fun n =>
    let start := max n.v (tget 0 n.flast f)
    let fin := start + (wireLen bytes + (n.shaper 5).ovhd) * 65536 / max 1 (tget (weight0 f) n.weights f)
    let n := { n with flast := tput 0 f fin n.flast }
    n.setQueue 5 (n.queue 5 ++ [TxFrame.mk (.flow f kind) bytes start fin (decide (f = 0))])

/-- Flow of a Q5 frame. -/
def flowOf (x : TxFrame) : Nat := match x.src with | .flow f _ => f | _ => 3

/-- The head of Q5: the least finish among the flows' heads, ties to the lower flow (R311). -/
def q5Head (l : List TxFrame) : Option TxFrame :=
  ((upto 3).filterMap fun f => l.find? fun x => flowOf x = f).foldl (fun b x => match b with
    | none => some x
    | some y => if x.finish < y.finish then some x else some y) none

/-- A frame leaves Q5 (R311). -/
def Net.q5Take (x : TxFrame) (n : Net) : Net :=
  let l := (n.queue 5).erase x
  let n := n.setQueue 5 l
  if l.isEmpty then { n with v := 0, flast := [] } else { n with v := x.finish }

/-- Duration of a frame on the wire in ps (R306). -/
def durPs (r : NetRate) (len : Nat) : Nat := (len + 20) * 8 * bitPs r

/-- The window of R306 allows a frame of a queue to start now. -/
def windowOk (n : Net) (t q dur : Nat) : Bool :=
  let ws := fld n.w1 0 9 * 1000000
  let wl := fld n.w1 16 9 * 1000000
  let now := t * 1000
  if wl = 0 then true
  else if 6 ≤ q then decide (ws ≤ now) && decide (now + dur ≤ ws + wl)
  else (decide (now ≤ ws) && decide (now + dur ≤ ws)) || (decide (ws + wl ≤ now) && decide (now + dur ≤ 500000000 + ws))

/-- A PAUSE holds a queue now (R272). -/
def pauseHolds (n : Net) (mono q : Nat) : Bool := n.paused mono && (bit n.a1 8 || q ≤ 4)

/-- The frame at the head of a queue. -/
def State.headOf (s : State) (p q : Nat) : Option TxFrame :=
  let n := s.netP p
  if 6 ≤ q then (n.queue q).head?
  else if q = 5 then q5Head (n.queue 5)
  else match s.txHead p q with
    | .frame k bytes ip l4 ts => some (TxFrame.mk (.ring q (n.ring (16 + q)).head.toNat k) (txChecksums ip l4 bytes).1 0 0 ts)
    | _ => none

/-- A checksum asked for at a ring's head could not be generated (R270). -/
def State.headSkips (s : State) (p q : Nat) : Bool :=
  match s.txHead p q with
  | .frame _ bytes ip l4 _ => (txChecksums ip l4 bytes).2
  | _ => false

/-- Media frames longer than the window leave their queues and are counted (R306). -/
def State.winOversize (s : State) (p : Nat) : State :=
  let n := s.netP p
  match n.rate with
  | none => s
  | some r =>
    let wl := fld n.w1 16 9 * 1000000
    if wl = 0 then s
    else s.forAll [6, 7] fun s q =>
      let tooLong := fun (x : TxFrame) => decide (wl < durPs r (wireLen x.bytes))
      let l := (s.netP p).queue q
      let s1 := s.forAll ((l.filter tooLong).filterMap fun x => match x.src with | .media k => some k | _ => none) fun s k =>
        (s.netCount p 23 1).onTxS k fun y => { y with n4 := y.n4 + 1 }
      s1.onNetP p (Net.setQueue q (l.filter fun x => !tooLong x))

/-- The queue that starts (R259, R309): of the heads that the window and PAUSE allow, the highest GREEN one, else the highest
YELLOW one. -/
def State.pickQueue (s : State) (p : Nat) (r : NetRate) : Option (Nat × TxFrame × Colour) :=
  let n := s.netP p
  let hs := [7, 6, 5, 4, 3, 2, 1, 0].filterMap fun q => match s.headOf p q with
    | none => none
    | some x =>
      if windowOk n s.time.inPeriod q (durPs r (wireLen x.bytes)) && !pauseHolds n s.monoNs q then
        some (q, x, (n.shaper q).colour)
      else none
  match hs.find? (fun h => h.2.2 = .green) with
  | some h => some h
  | none => hs.find? fun h => h.2.2 = .yellow

/-- A PTP message with a timestamp in its body (R275): the first ten bytes after the header of 34, seconds and nanoseconds (PRESUMED, log 124:
IEEE 1588-2019, which the spec names and does not print). -/
def ptpStamped (at_ ns : Nat) (bs : List Byte) : List Byte :=
  bs.take (at_ + 34) ++ (beBytes 6 (ns / 1000000000) ++ beBytes 4 (ns % 1000000000)).take (bs.length - (at_ + 34)) ++ bs.drop (at_ + 44)

/-- Place of the PTP message in a frame of the firmware, after its UDP header. -/
def ptpAt (bs : List Byte) : Nat := match (parseFrame bs).udp with | some o => o + 8 | none => bs.length

/-- A one-step Sync as it leaves (R275): originTimestamp written, twoStepFlag cleared, UDP checksum zero. -/
def oneStep (ns : Nat) (bs : List Byte) : List Byte :=
  let o := ptpAt bs
  if bs.length ≤ o + 6 then bs
  else (ptpStamped o ns bs).zipIdx.map fun q =>
    if q.2 = o - 2 || q.2 = o - 1 then 0 else if q.2 = o + 6 then q.1 &&& 0xFD else q.1

/-- What stands on the wire of a frame that starts at an instant: padded, and a Sync of a port with ONE_STEP stamped. -/
def Net.sentBytes (n : Net) (x : TxFrame) (ns : Nat) : List Byte :=
  let bs := match x.src with
    | .flow _ kind => if kind = 0 && bit n.p1 12 then oneStep ns x.bytes else x.bytes
    | _ => x.bytes
  padTo (max 60 bs.length) bs

/-- TX_FRAME_START (R259, R308, R309). -/
def execTxFrameStart (p : NetIx) (s : State) : Host.Outcome State Fault Refusal :=
  let n := s.netP p
  match n.state, n.rate, n.wire with
  | .up, some r, none =>
    if !s.domOn (dNet p) then .next s
    else
      let s := s.forAll (upto 5) fun s t => State.txErrors p t 4096 s
      let s := s.winOversize p
      let s := s.onNetP p fun n => { n with shapers := n.shapers.map fun x => (x.1, if x.2.en then x.2.refill s.monoNs else x.2) }
      match s.pickQueue p r with
      | none => .next s
      | some (q, x, c) =>
        let st := s.stamp (some r)
        let skip := decide (q ≤ 4) && s.headSkips p q
        let len := wireLen x.bytes
        let s := st.2.onNetP p fun n =>
          let n := if q = 5 then n.q5Take x else if 6 ≤ q then n.setQueue q ((n.queue q).drop 1) else n
          let sent := { x with bytes := n.sentBytes x st.1 }
          { n with
            shapers := tmod {} q (Shaper.charge len c) n.shapers
            wire := some { frame := sent, queue := q, sec := w32 (st.1 / 1000000000), ns := w32 (st.1 % 1000000000)
                           untr := s.untrusted, ring := n.ring (16 + q), total := st.1 }
            txLoad := n.txLoad + len + 20 }
        .next (if skip then s.netCount p 20 1 else s)
  | _, _, _ => .next s

/-! ### Completion and PTP on Q5 (R268, R273 to R275) -/

/-- The port is in a master part of PTP (R274): a boundary clock port that is not SLAVE, or an ordinary clock's active port that
follows no grandmaster; never with SLAVE_ONLY. -/
def State.ptpMaster (s : State) (p : Nat) : Bool :=
  let n := s.netP p
  !n.slaveOnly && ((n.ptpRole = 2 && !n.ptpSlave) || (n.ptpRole = 1 && s.ptpPort = some p && !s.time.ptpQual))

/-- The port is in a slave part of PTP (R274). -/
def State.ptpSlavePart (s : State) (p : Nat) : Bool :=
  let n := s.netP p
  (n.ptpRole = 2 && n.ptpSlave) || (n.ptpRole = 1 && s.ptpPort = some p && n.ptpGm.isSome)

/-- A PTP message of a kind goes to its flow of Q5 (R273, R311): Sync and Delay_Req are event messages. -/
def State.ptpPut (s : State) (p kind : Nat) : State :=
  let d := s.drawn
  (d.2.q5Put p (if kind = 0 || kind = 2 then 0 else 1) kind (Config.ptpFrame p kind d.1)).onNetP p fun n =>
    { n with ptpSent := n.ptpSent + 1 }

/-- The Follow_Up of a two-step Sync carries its transmit timestamp (R275). -/
def State.followUp (s : State) (p ns : Nat) : State :=
  let d := s.drawn
  let bs := Config.ptpFrame p 3 d.1
  (d.2.q5Put p 1 3 (ptpStamped (ptpAt bs) ns bs)).onNetP p fun n => { n with ptpSent := n.ptpSent + 1 }

/-- Exponent of the interval of a periodic PTP message (R273): as set, or the default of the profile. -/
def Net.ptpLog (n : Net) (kind : Nat) : Int :=
  let v := fld n.p2 (8 * kind) 8
  if v ≠ 0x80 then sgn 8 v
  else match fld n.p1 2 2, kind with
    | 0, 1 => -2
    | 0, _ => -3
    | 1, 0 => -3
    | _, 1 => 1
    | _, _ => 0

/-- That interval in ns. -/
def Net.ptpEvery (n : Net) (kind : Nat) : Nat :=
  let k := n.ptpLog kind
  if k < 0 then 1000000000 / 2 ^ (-k).toNat else 1000000000 * 2 ^ k.toNat

/-- A periodic PTP message is due (R92): the first starts its schedule. -/
def Net.ptpDue (n : Net) (kind mono : Nat) : Bool :=
  match n.ptpMono.lookup kind with
  | none => true
  | some t => decide (t + n.ptpEvery kind ≤ mono)

/-- The schedule after a message (R92): the instants that have passed count as one, and the next stays on the schedule. -/
def Net.ptpNext (kind mono : Nat) (n : Net) : Net :=
  { n with ptpMono := tins kind (match n.ptpMono.lookup kind with
      | none => mono
      | some t => t + (mono - t) / n.ptpEvery kind * n.ptpEvery kind) n.ptpMono }

/-- A periodic PTP message leaves when it is due and the port's part calls for it (R273). -/
def State.ptpSend (s : State) (p kind : Nat) (part : Bool) : State :=
  if part && (s.netP p).ptpDue kind s.monoNs then (s.ptpPut p kind).onNetP p (Net.ptpNext kind s.monoNs) else s

/-- TX_FRAME_COMPLETE (R268): counters, write-back, and the Follow_Up of a two-step Sync (R275). -/
def execTxFrameComplete (p : NetIx) (s : State) : Host.Outcome State Fault Refusal :=
  match (s.netP p).wire with
  | none => .next s
  | some w =>
    let x := w.frame
    let s := s.onNetP p fun n => { n with wire := none }
    let s := ((s.netCount p 16 1).netCount p 17 (wireLen x.bytes)).netCount p (32 + w.queue) 1
    let s := if x.ts then s.netCount p 25 1 else s
    .next (match x.src with
      | .ring t _ k => s.txBackTo p t k (b2n (x.ts && w.untr)) (if x.ts then some (w.sec.toNat * 1000000000 + w.ns.toNat) else none) w.ring w.own
      | .media k => s.onTxS k fun y => { y with n1 := y.n1 + 1 }
      | .flow _ kind => if kind = 0 && !bit (s.netP p).p1 12 then s.followUp p w.total else s)

/-- PTP_MESSAGE_TIMER (R92, R273): the firmware sends what the port's part calls for and is due. -/
def execPtpMessageTimer (p : NetIx) (m : PtpSend) (s : State) : Host.Outcome State Fault Refusal :=
  if !s.domOn (dNet p) || !s.domOn dMgmt then .next s
  else match m with
    | .sync => .next (s.ptpSend p 0 (s.ptpMaster p))
    | .announce => .next (s.ptpSend p 1 (s.ptpMaster p))
    | .delayReq => .next (s.ptpSend p 2 (s.ptpSlavePart p))

/-! ### Membership reports (R304) -/

/-- An IGMPv3 report (RFC 3376) as an IPv4 packet to 224.0.0.22 with the router alert option (PRESUMED, log 136). -/
def igmpPacket (r : Report) : List Byte :=
  let one := !allZero r.src
  let body := [0x22, 0, 0, 0, 0, 0, 0, 1, BitVec.ofNat 8 r.kind, 0, 0, BitVec.ofNat 8 (b2n one)] ++ r.group.take 4 ++ (if one then r.src.take 4 else [])
  let head := [0x46, 0xC0] ++ beBytes 2 (24 + body.length) ++ [0, 0, 0x40, 0, 1, 2, 0, 0, 0, 0, 0, 0, 224, 0, 0, 22, 0x94, 4, 0, 0]
  putBe2 10 (ocCheck head) head ++ putBe2 2 (ocCheck body) body

/-- An MLDv2 report (RFC 3810) as an IPv6 packet to ff02::16 from the port's link-local address, with the router alert option (PRESUMED,
log 136). -/
def mldPacket (mac : List Byte) (r : Report) : List Byte :=
  let one := !allZero r.src
  let body := [143, 0, 0, 0, 0, 0, 0, 1, BitVec.ofNat 8 r.kind, 0, 0, BitVec.ofNat 8 (b2n one)] ++ r.group ++ (if one then r.src else [])
  let src := [0xFE, 0x80, 0, 0, 0, 0, 0, 0] ++ (match mac with | m :: t => (m ^^^ 2#8) :: t.take 2 | [] => []) ++ [0xFF, 0xFE] ++ mac.drop 3
  let dst := [0xFF, 0x02, 0, 0, 0, 0, 0, 0, 0, 0, 0, 0, 0, 0, 0, 0x16]
  let check := ocCheck (src ++ dst ++ beBytes 4 body.length ++ beBytes 4 58 ++ body)
  beBytes 4 (6 * 2 ^ 28) ++ beBytes 2 (8 + body.length) ++ [0, 1] ++ src ++ dst ++ [58, 0, 5, 2, 0, 0, 1, 0] ++ putBe2 2 check body

/-- A membership report as it leaves a port (R304): tagged as the path is where it has a VLAN. -/
def reportFrame (mac : List Byte) (r : Report) : List Byte :=
  let tag := if r.vlan < 32768 then [] else [0x81, 0x00] ++ beBytes 2 (r.vlan / 4096 % 8 * 8192 + r.vlan % 4096)
  (if r.v6 then [0x33, 0x33, 0, 0, 0, 0x16] else [0x01, 0x00, 0x5E, 0, 0, 0x16]) ++ mac ++ tag ++
    (if r.v6 then [0x86, 0xDD] ++ mldPacket mac r else [0x08, 0x00] ++ igmpPacket r)

/-- Reports that have been formed go to flow 2 of Q5 of their ports. -/
def State.flushReports (s : State) : State :=
  (s.media.reportsDue.foldl (fun s r => s.q5Put r.port 2 5 (reportFrame (s.netP r.port).mac r)) s).onMedia fun m => { m with reportsDue := [] }

/-- The schedule of a stream's reports, 10 s apart from its entry to ARMED (R304): the instants that have passed count as one, and the
next one stays on the schedule (R92). -/
def Stream.reportNext (now : Nat) (x : Stream) : Stream := { x with reportMono := x.reportMono + (now - x.reportMono) / 10000000000 * 10000000000 }

/-- A report of a stream is due (R304). -/
def Stream.reportDue (now : Nat) (x : Stream) : Bool := x.state ≠ .idle && decide (x.reportMono + 10000000000 ≤ now)

/-- MEMBERSHIP_REPORT_TIMER (R304): every stream whose 10 s have passed reports again. -/
def execMembershipReportTimer (s : State) : Host.Outcome State Fault Refusal :=
  if !s.domOn dMgmt then .next s
  else
    let now := s.monoNs
    .next ((s.media.rx.map (·.1)).foldl (fun s k => if (s.rxS k).reportDue now then (s.report k false false).onRxS k (Stream.reportNext now) else s)
      s).flushReports

/-! ### Media packets (R295 to R299) -/

/-- A packet enters its queue, or is counted where the port is not UP (R258, R298). None is launched from B2 of a removal on (R420). -/
def State.launch (s : State) (k : Packet) : State :=
  if (match s.boot.b2 with | some b => decide (b ≤ k.ord) | none => false) || s.boot.removal = 8 then s
  else if (s.netP k.port).state = .up then
    s.onNetP k.port fun n => n.setQueue k.queue (n.queue k.queue ++ [{ src := .media k.stream, bytes := k.bytes, start := 0, finish := 0, ts := false }])
  else (s.netCount k.port 19 1).onTxS k.stream fun y => { y with n5 := y.n5 + 1 }

/-- A packet that was held past its launch instant is released now (R299). -/
def State.launchLate (s : State) (k : Packet) : State :=
  let late := (s.time.ord - k.ord) * 500000 + s.time.inPeriod - k.ofs * 1000
  if late ≤ fld (s.netP k.port).w2 0 8 * 1000 then
    ((s.netCount k.port 21 1).onTxS k.stream fun y => { y with n2 := y.n2 + 1 }).launch k
  else (s.netCount k.port 22 1).onTxS k.stream fun y => { y with n3 := y.n3 + 1 }

/-- MEDIA_PACKET_LAUNCH (R298): the packets whose launch instant it is. Launch-time queues hold while UNTRUSTED (R91). -/
def execMediaPacketLaunch (us : Fin 500) (s : State) : Host.Outcome State Fault Refusal :=
  let s := s.at_ (us.val * 1000)
  let due := fun (k : Packet) => k.ofs = us.val && k.ord = s.time.ord
  if s.untrusted then
    .next (s.onMedia fun m => { m with packets := m.packets.map fun k => if due k then { k with held := true } else k })
  else
    .next ((s.media.packets.filter due).foldl State.launch (s.onMedia fun m => { m with packets := m.packets.filter fun k => !due k }))

/-- Packets at a boundary: those of a Period that is over leave, held ones late; all of them hold while UNTRUSTED (R91, R299). The boundary
at which the state leaves UNTRUSTED is the first boundary after it, and releases them (DESIGN CHOICE, log 111). -/
def State.launchBoundary (s : State) : State :=
  let old := fun (k : Packet) => decide (k.ord < s.time.ord)
  if s.untrusted then s.onMedia fun m => { m with packets := m.packets.map fun k => if old k then { k with held := true } else k }
  else (s.media.packets.filter old).foldl (fun s k => if k.held then s.launchLate k else s.launch k)
    (s.onMedia fun m => { m with packets := m.packets.filter fun k => !old k })

/-- DST_MAC of a path, derived from a multicast address where zero (R289). -/
def pathDstMac (v6 : Bool) (r : List Byte) : List Byte :=
  if !allZero (pathMac r) then pathMac r
  else if v6 then [0x33, 0x33] ++ (pathDst r).drop 12
  else [0x01, 0x00, 0x5E, BitVec.ofNat 8 (byteAt (pathDst r) 1 % 128), BitVec.ofNat 8 (byteAt (pathDst r) 2), BitVec.ofNat 8 (byteAt (pathDst r) 3)]

/-- An RTP packet on the port of a path (R295 to R297). -/
def mediaFrame (mac : List Byte) (b r : List Byte) (t0 call : Nat) (samples : List Byte) : List Byte :=
  let v6 := strV6 b
  let vl := pathVlan r
  let ext := if strCallExt b = 0 then [] else [0xBE, 0xDE, 0, 1, BitVec.ofNat 8 (strCallExt b * 16), BitVec.ofNat 8 call, 0, 0]
  let rtp := [BitVec.ofNat 8 (0x80 + (if strCallExt b = 0 then 0 else 0x10)), BitVec.ofNat 8 (strPt b)] ++ beBytes 2 (t0 / packetNs b) ++
    beBytes 4 (t0 * rateHz (strRate b) / 1000000000 + (strTsOfs b).toNat) ++ beBytes 4 (strSsrc b).toNat ++ ext ++ samples
  let ulen := 8 + rtp.length
  let udp := pathSrcPort r ++ pathDstPort r ++ beBytes 2 ulen ++ [0, 0] ++ rtp
  let ip := if v6 then beBytes 4 (6 * 2 ^ 28 + strDscp b * 2 ^ 22) ++ beBytes 2 ulen ++ [17, 64] ++ pathSrc r ++ pathDst r
    else [0x45, BitVec.ofNat 8 (strDscp b * 4)] ++ beBytes 2 (20 + ulen) ++ [0, 0, 0x40, 0, 64, 17, 0, 0] ++ (pathSrc r).take 4 ++ (pathDst r).take 4
  let tag := if vl < 32768 then [] else [0x81, 0x00] ++ beBytes 2 (vl / 4096 % 8 * 8192 + vl % 4096)
  (txChecksums (!v6) true (pathDstMac v6 r ++ mac ++ tag ++ beBytes 2 (if v6 then 0x86DD else 0x0800) ++ ip ++ udp)).1

/-- Samples of one channel for a data Period at the stream's rate (R100, R284, R285): one value a sample, s24 or s16. A converted channel
runs on over the Periods before, also where the Leg has no output now. -/
def txChannel (b : List Byte) (ord : Nat) (old : List (Nat × Block)) (o : Option LegOut) : List Int :=
  let code := strRate b
  if code = 0 then
    match o with
    | none => List.replicate (rateSamples code) 0
    | some x => if strL16 b then x.y.map s16OfF32 else x.s24
  else (convertOut code (threeBlocks ord (match o with | some x => x.y | none => zero24) old)).map (if strL16 b then s16OfF32 else s24OfF32)

/-- The Leg bound to a channel of a TX stream in a data Period's configuration (R284). -/
def legOfTx (cfg : MixView) (n c : Nat) : Option Nat :=
  (cfg.legs.find? fun l => isNetLeg l.1 && l.2.bound && txEn l.2.a1 && txStream l.2.a1 = n && txCh l.2.a1 = c).map (·.1)

/-- Payload bytes of samples, one list a channel (R285). -/
def interleave (b : List Byte) (chs : List (List Int)) (i n : Nat) : List Byte :=
  let w := if strL16 b then 2 else 3
  (upto n).flatMap fun j => chs.flatMap fun c => beBytes w (twos (8 * w) (c.getD (i + j) 0))

/-- The block under which packets leave in the next Period (R298): a configure accepted for its boundary is in it (DEDUCED, log 17). -/
def State.blockNext (s : State) (n : Nat) : List Byte := s.blockBy true n s.nextOrd

/-- The port's own address in the next Period (R34, R252): a RING_SET accepted for its boundary is in it. -/
def State.macNext (s : State) (p : Nat) : List Byte :=
  let new := s.cmd.staged.filterMap fun g => match g.change with
    | .netPort q _ _ _ a4 a5 => if q = p && g.ord ≤ s.nextOrd then some ({ s.netP p with a4 := a4, a5 := a5 } : Net).mac else none
    | _ => none
  new.getLast?.getD (s.netP p).mac

/-- Packets of one stream from one data Period (R298), with what a 1 ms packet keeps for the second. -/
def State.streamPackets (s : State) (d : DataSet) (n : Nat) (x : Stream) : State :=
  let b := s.blockNext n
  let legs := (upto (strCh b)).map (legOfTx d.cfg n)
  let out := fun (l : Option Nat) => match l with | none => none | some k => d.outs.lookup k
  let chs := legs.map fun l => txChannel b d.ord (match l with | some k => tget [] s.mix.rcOut k | none => []) (out l)
  let call := (legs.zipIdx).foldl (fun a l => match out l.1 with | some o => if o.callOut then a + 2 ^ l.2 else a | none => a) 0
  let live := x.state = .run || x.state = .lost || (x.state = .armed && (match x.armed with | a :: _ => decide (a.ord ≤ s.nextOrd) | [] => false))
  let two := strPtime b = 3
  let second := d.startNs / 500000 % 2 = 1
  let s := s.onTxS n fun x => { x with anyCall := decide (call ≠ 0) }
  if two && !second then s.onTxS n fun x => { x with part := chs, partCall := BitVec.ofNat 8 call }
  else
    let rs := rateSamples (strRate b)
    let all := if two then (chs.zipIdx).map fun c => padI rs (x.part.getD c.2 []) ++ c.1 else chs
    let bits := if two then (x.partCall ||| BitVec.ofNat 8 call).toNat else call
    let t0 := if two then d.startNs - 500000 else d.startNs
    let np := packetSamples b
    let s := s.onTxS n fun x => { x with part := [], partCall := 0 }
    if !live then s
    else
      let pk := fun (j port : Nat) => Packet.mk n port (strQueue b)
        (mediaFrame (s.macNext port) b (strPath b port) (t0 + j * packetNs b) bits (interleave b all (j * np) np)) (strLaunch b) s.nextOrd false
      let new := (upto (if two then 1 else 2 ^ (2 - strPtime b))).flatMap fun j => ((upto 2).filter (strHasPort b)).map (pk j)
      s.onMedia fun m => { m with packets := m.packets ++ new }
where
  padI (n : Nat) (l : List Int) : List Int := (l ++ List.replicate (n - l.length) 0).take n

/-- Outputs that a later conversion reaches (R100): those of this data and of the Period before it. -/
def keepOut (d : DataSet) (old : Tab (List (Nat × Block))) : Tab (List (Nat × Block)) :=
  let kept := (old.map fun e => (e.1, e.2.filter fun b => decide (d.ord ≤ b.1 + 1))).filter fun e => !e.2.isEmpty
  (d.outs.filter fun o => isNetLeg o.1).foldl (fun t o => tins o.1 ((d.ord, o.2.y) :: tget [] kept o.1) t) kept

/-- The packetiser at the emit cut-off (R298). -/
def State.formPackets (s : State) (d : DataSet) : State :=
  let s := s.media.tx.foldl (fun s x => if (s.blockNext x.1).isEmpty then s else s.streamPackets d x.1 x.2) s
  s.onMix fun m => { m with rcOut := keepOut d m.rcOut }

/-! ### RX streams at the close of a gather Period (R284, R294, R302, R303) -/

/-- What a stream delivers for a gather Period with a given full count: samples by instant, call bits. A slot that stays unfilled holds the
bits of the last packet used (R302): one of this Period, whose bits count already, or before its first filled slot one of an earlier
Period. -/
def Stream.deliver (n : Nat) (x : Stream) : List (List Int) × BitVec 8 :=
  let rs := rateSamples (strRate x.block)
  let got := (upto rs).map fun i => x.slots.lookup (n * rs + i)
  let c := (tget (0, 0) x.calls n).1
  if x.state = .run || x.state = .starved || (x.state = .lost && got.any (·.isSome)) then
    (got.map fun g => g.getD (List.replicate (strCh x.block) 0),
     if x.state = .lost || (match got with | some _ :: _ => true | _ => false) then c else c ||| x.held)
  else ([], 0)

/-- The stream after that Period: counts, state, pruned slots. -/
def Stream.close (n : Nat) (x : Stream) : Stream :=
  let rs := rateSamples (strRate x.block)
  let miss := ((upto rs).filter fun i => (x.slots.lookup (n * rs + i)).isNone).length
  let active := x.state = .run || x.state = .starved || x.state = .lost
  let st := if !active then x.state else if miss = 0 then .run else if x.state = .lost && miss = rs then .lost else .starved
  let u := tget 0 x.usedBy n
  let c := x.calls.lookup n
  { x with
    state := st
    n4 := if active then x.n4 + BitVec.ofNat 16 miss else x.n4
    empty := if active && miss = rs then x.empty + 1 else 0
    held := match c with | some v => v.2 | none => x.held
    anyCall := active && decide ((x.deliver n).2 ≠ 0)
    used0 := u.getLsbD 0
    used1 := u.getLsbD 1
    slots := x.slots.filter fun e => (n + 1) * rs ≤ e.1
    calls := x.calls.filter fun e => n < e.1
    usedBy := x.usedBy.filter fun e => n < e.1 }

/-- One RX stream at the boundary that closes Period n (full count): NET for an entry to or exit from STARVED or LOST. -/
def State.closeStream (s : State) (n k : Nat) : State :=
  let x := s.rxS k
  if !x.conf then s
  else
    let y := x.close n
    let s := s.countN (256 + k / 8) (y.n4 - x.n4).toNat
    let s := s.onRxS k fun _ => { y with state := x.state }
    if y.state = x.state then s else (s.strState false k y.state).raise irqNet

/-- TX streams at a boundary (R294): LOST with no port of PATHS UP, RUN again with one. -/
def State.txStreamBoundary (s : State) (k : Nat) : State :=
  let x := s.txS k
  let up := (upto 2).any fun p => strHasPort x.block p && (s.netP p).state = .up
  let s := if x.state = .run && !up then (s.strState true k .lost).raise irqNet
    else if x.state = .lost && up then (s.strState true k .run).raise irqNet
    else s
  s.onTxS k fun y => { y with
    used0 := y.state = .run && strHasPort y.block 0 && (s.netP 0).state = .up
    used1 := y.state = .run && strHasPort y.block 1 && (s.netP 1).state = .up }

/-- STREAM_LOST_TIMEOUT (R294): 200 consecutive gather Periods with no slot filled. -/
def execStreamLostTimeout (k : Fin 2048) (s : State) : Host.Outcome State Fault Refusal :=
  let x := s.rxS k
  if x.state = .starved && 200 ≤ x.empty then .next ((s.strState false k .lost).raise irqNet) else .next s

end Sys2Proof.Machine
end

