-- ==== Sys2Proof/Machine/Mix.lean ====
section
/-! DEFINITION. Mixing (R110 to R130): what keys apply in a data Period, admission, group sums, listen mixes, call flags. -/

namespace Sys2Proof.Machine

/-! ### The configuration of a data Period -/

def MixView.legCfg (v : MixView) (l : Nat) : LegCfg := tget (legCfg0 l) v.legs l
def MixView.legSt (v : MixView) (l : Nat) : LegSt := tget (legSt0 l) v.st l
def MixView.state (v : MixView) (l : Nat) : LegState := (v.legSt l).state
def MixView.grp (v : MixView) (g : Nat) : GroupCfg := tget {} v.groups g

/-- A Leg is ACTIVE and carried by the member of the view (R101, R362). -/
def MixView.active (v : MixView) (l : Nat) : Bool := legCarried v.wings l && v.state l = .active

/-- A group is in use and carried (R114, R362). -/
def MixView.inUse (v : MixView) (g : Nat) : Bool := decide (g < memberGroups v.wings) && (v.grp g).state ≠ .unused

/-- The configuration in force as a view (R33). -/
def State.mixView (s : State) : MixView :=
  { legs := s.mix.legs, st := s.mix.st, groups := s.mix.groups, wings := s.tiles.wings }

/-- Legs that a view can name: fixed Legs and the network Legs that are configured. -/
def MixView.legList (v : MixView) : List Nat :=
  upto (memberPorts v.wings) ++ ((upto 32).map (· + 48)).filter (legCarried v.wings ·) ++
    ((v.legs.map (·.1)).filter fun l => decide (80 ≤ l) && legCarried v.wings l)

/-- The group has been closed at the boundary that opens the gather Period (R112, R131): over this data Period its mix still fades, under
the settings that it had. -/
def DataSet.closing (d : DataSet) (g : Nat) : Bool :=
  !d.cfg.inUse g && d.prev.inUse g && decide (g < memberGroups d.cfg.wings)

/-- Settings of a group for a data Period. -/
def DataSet.grp (d : DataSet) (g : Nat) : GroupCfg := if d.closing g then d.prev.grp g else d.cfg.grp g

/-- A group has a sum in a data Period. -/
def DataSet.live (d : DataSet) (g : Nat) : Bool := d.cfg.inUse g || d.closing g

/-- The Leg leaves at the boundary that closes the gather Period (R362). -/
def DataSet.legLeaves (d : DataSet) (l : Nat) : Bool := match d.fallTo with | some w => !legCarried w l | none => false

/-- The group leaves, or talk into its shared part ends, at that boundary (R325, R362). -/
def DataSet.groupLeaves (d : DataSet) (talk : Bool) (g : Nat) : Bool :=
  (match d.fallTo with | some w => decide (memberGroups w ≤ g) | none => false) || (talk && d.departs && (d.grp g).state = .shared)

/-- A key of a Leg applies a gain under a view (R112, R363): enabled, not mute, its Leg ACTIVE, its group in use. -/
def MixView.keyOn (v : MixView) (l : Nat) (k : Word) : Bool :=
  keyEn k && keyGain k ≠ 0 && v.active l && v.inUse (keyGroup k)

/-- The key of a slot that applies in this data Period as a steady or a new key. -/
def DataSet.keyNew (d : DataSet) (talk : Bool) (l : Nat) (k : Word) : Bool :=
  d.cfg.keyOn l k && !d.legLeaves l && !d.groupLeaves talk (keyGroup k)

/-- The Leg was unbound and bound again at the boundary that opens the gather Period (R103): it returns as a new one, and nothing of what it was before
is gathered or sent. -/
def DataSet.boundAnew (d : DataSet) (l : Nat) : Bool := decide ((d.cfg.legSt l).bindOrd ≠ (d.prev.legSt l).bindOrd)

/-- The key of a slot that applied until this data Period (R112); a withdrawn Leg or group faded one Period before (R362). -/
def DataSet.keyOld (d : DataSet) (talk : Bool) (l : Nat) (cur prev : Word) : Option Word :=
  if d.cfg.keyOn l cur && (d.legLeaves l || d.groupLeaves talk (keyGroup cur)) then some cur
  else if !d.boundAnew l && d.prev.keyOn l prev && legCarried d.cfg.wings l && decide (keyGroup prev < memberGroups d.cfg.wings) &&
      !(talk && d.afterDepart && (d.prev.grp (keyGroup prev)).state = .shared) then some prev
  else none

/-- How one key acts over a data Period: group, linear gain, weight by sample (R112). -/
structure KeyUse where
  leg   : Nat
  slot  : Nat
  group : Nat
  gain  : F32
  w     : Nat → F32

/-- Weights of a fade. -/
def weightOne (_ : Nat) : F32 := f32One

/-- Uses of one key slot from its word in this Period and in the one before (R112): a steady gain, a fade in, a fade out, or
both on a change of group; the old part comes first. -/
def DataSet.keyUses (d : DataSet) (talk : Bool) (l slot : Nat) (cur prev : Word) : List KeyUse :=
  let use := fun (k : Word) (w : Nat → F32) => KeyUse.mk l slot (keyGroup k) (gainOf (keyGain k)) w
  match d.keyOld talk l cur prev, d.keyNew talk l cur with
  | some o, true => if keyGroup o = keyGroup cur then [use cur weightOne] else [use o wOut, use cur wIn]
  | some o, false => [use o wOut]
  | none, true => [use cur wIn]
  | none, false => []

/-- Uses of a Leg's talk keys and listen keys. -/
def DataSet.talkUses (d : DataSet) (l : Nat) : List KeyUse :=
  (upto 4).flatMap fun i => d.keyUses true l i ((d.cfg.legCfg l).talkKey i) ((d.prev.legCfg l).talkKey i)
def DataSet.listenUses (d : DataSet) (l : Nat) : List (List KeyUse) :=
  (upto 16).map fun i => d.keyUses false l i ((d.cfg.legCfg l).listenKey i) ((d.prev.legCfg l).listenKey i)

/-- Legs that can take part in a data Period. -/
def DataSet.legs (d : DataSet) : List Nat :=
  let a := d.cfg.legList
  a ++ d.prev.legList.filter fun l => !a.contains l && legCarried d.cfg.wings l

/-- Processed input x of a Leg (R124); zero where its work is lost for good (log 41). -/
def DataSet.xOf (d : DataSet) (l : Nat) : Block :=
  if d.legDead l then zero24 else match d.phaseA.lookup l with | some a => a.x | none => zero24

/-- Score of a Leg (R152). -/
def DataSet.scoreOf (d : DataSet) (l : Nat) : Nat :=
  if d.legDead l then 0 else match d.phaseA.lookup l with | some a => a.score.toNat | none => 0

/-! ### Admission (R119 to R122) -/

/-- An entry of the decision: a candidate of this device or of the ring. -/
structure Cand where
  leg      : Option Nat
  slot     : Nat
  key      : Nat
  score    : Nat
  cls      : Nat
  hold     : Nat
  admitted : Bool
  speak    : Bool
  now      : Bool
  deriving DecidableEq, Repr

def grpAdmit (g : GroupCfg) : Nat := fld g.a1 0 6
def grpHold (g : GroupCfg) : Nat := fld g.a1 8 12
def grpMargin (g : GroupCfg) : Nat := fld g.a1 20 8
def grpOn (g : GroupCfg) : Nat := fld g.a2 0 8
def grpOff (g : GroupCfg) : Nat := fld g.a2 8 8
def intGroup (g : GroupCfg) : Nat := fld g.a3 0 10
def duckCode (g : GroupCfg) : Nat := fld g.a3 16 8
def intGainCode (g : GroupCfg) : Nat := fld g.a3 24 8

/-- Speaking, hold and class of a talker (R121). -/
def classify (g : GroupCfg) (force : Bool) (sc : Nat) (admitted : Bool) (hold : Nat) : Bool × Nat × Nat :=
  let speak := decide ((if admitted then grpOff g else grpOn g) ≤ sc)
  let hold := min hold (grpHold g)
  let h := if speak then grpHold g else if admitted then hold - 1 else 0
  let c := if force && (speak || decide (0 < h)) then 0
    else if admitted && speak then 1
    else if !admitted && speak then 2
    else if admitted && decide (0 < h) then 3
    else 4
  (speak, h, c)

/-- The Leg has an input (R119). -/
def DataSet.hasInput (d : DataSet) (l : Nat) : Bool := legHasInput l (d.cfg.legCfg l).a1

/-- Candidates of this device for a Conference group (R119), from the admission state of the data Period before. -/
def DataSet.cands (d : DataSet) (index : Nat) (adm : List AdmEntry) (g : Nat) : List Cand :=
  d.legs.flatMap fun l =>
    if !d.hasInput l then []
    else (upto 4).filterMap fun i =>
      let k := (d.cfg.legCfg l).talkKey i
      if d.keyNew true l k && keyGroup k = g then
        let e := if d.boundAnew l then none else adm.find? fun e => e.leg = l
        let a := (e.map (·.admitted)).getD false
        let r := classify (d.grp g) (bit (d.cfg.legCfg l).a2 8) (d.scoreOf l) a ((e.map (·.hold)).getD 0)
        some { leg := some l, slot := i, key := index * 4096 + l, score := d.scoreOf l, cls := r.2.2, hold := r.2.1, admitted := a,
               speak := r.1, now := false }
      else none

/-- The order of R121. -/
def candBefore (a b : Cand) : Bool :=
  decide (a.cls < b.cls) || (a.cls = b.cls &&
    (if a.cls ≤ 2 then decide (b.score < a.score) || (a.score = b.score && decide (a.key < b.key))
     else if a.cls = 3 then decide (b.hold < a.hold) || (a.hold = b.hold && decide (a.key < b.key))
     else decide (a.key < b.key)))

/-- Insertion in the order of R121. -/
def insertCand (c : Cand) : List Cand → List Cand
  | [] => [c]
  | x :: r => if candBefore c x then c :: x :: r else x :: insertCand c r

def sortCands (l : List Cand) : List Cand := l.foldl (fun a c => insertCand c a) []

/-- The first ADMIT selectable entries (R121). -/
def selectCands (most : Nat) : Nat → List Cand → List Cand
  | _, [] => []
  | n, c :: r =>
    let now := decide (c.cls ≤ 3) && decide (n < most)
    { c with now := now } :: selectCands most (if now then n + 1 else n) r

/-- The quietest selected speaking incumbent, ties to the higher key (R121). -/
def quietest (l : List Cand) : Option Cand :=
  l.foldl (fun b c => if c.cls = 1 && c.now then (match b with
    | none => some c
    | some x => if c.score < x.score || (c.score = x.score && x.key < c.key) then some c else some x) else b) none

/-- The barge of R121 over the unselected class 2 entries, in order. -/
def barge (margin : Nat) : List Cand → List Cand → List Cand
  | [], l => l
  | c :: r, l => match quietest l with
    | none => l
    | some i =>
      if i.score + margin < c.score then
        barge margin r (l.map fun x => if x.key = i.key then { x with now := false } else if x.key = c.key then { x with now := true } else x)
      else l

/-- The decision of R121 on a list of candidates. -/
def decide121 (g : GroupCfg) (l : List Cand) : List Cand :=
  let s := selectCands (grpAdmit g) 0 (sortCands l)
  barge (grpMargin g) (s.filter fun c => c.cls = 2 && !c.now) s

/-- Fade of a talker (R121). -/
def fadeOf (now admitted : Bool) : Fade :=
  if now then (if admitted then .one else .fadeIn) else if admitted then .fadeOut else .zero

/-- Talkers of this device after the decision: candidates, then those released because they are candidates no longer. -/
def decidedOf (all : List Cand) (adm : List AdmEntry) : List Decided :=
  (all.filterMap fun c => c.leg.map fun l =>
    { leg := l, slot := c.slot, speak := c.speak, now := c.now, hold := if c.now then c.hold else 0, fade := fadeOf c.now c.admitted }) ++
  (adm.filter fun e => e.admitted && !(all.any fun c => c.leg = some e.leg)).map fun e =>
    { leg := e.leg, slot := 4, speak := false, now := false, hold := 0, fade := .fadeOut }

/-- Weight of a fade (R122). -/
def fadeWeight (f : Fade) (k : Nat) : F32 :=
  match f with
  | .fadeIn => wIn k
  | .fadeOut => wOut k
  | .one => f32One
  | .zero => 0#32

/-! ### Contributions and sums (R124) -/

/-- A converted contribution of 24 samples: x times the rounded product of gain and weight, 45 fractional bits. -/
def contribution (x : Block) (gain : F32) (w : Nat → F32) : List Int :=
  (upto 24).map fun k => f32ToFix 45 (f32Mul (x.getD k 0#32) (f32Mul gain (w k)))

def zeroSum : List Int := List.replicate 24 0
def addSum (a b : List Int) : List Int := a.zipWith (· + ·) b
def subSum (a b : List Int) : List Int := a.zipWith (· - ·) b

/-- Talk gain of a talker of a Conference group: that of its key, or its previous one where it is released (R122). -/
def DataSet.talkGain (d : DataSet) (g l : Nat) : F32 :=
  match ((upto 4).map fun i => (d.cfg.legCfg l).talkKey i).find? fun k => d.keyNew true l k && keyGroup k = g with
  | some k => gainOf (keyGain k)
  | none =>
    match (d.talkUses l).find? fun u => u.group = g with
    | some u => u.gain
    | none =>
      match (upto 4).find? fun i => keyEn ((d.prev.legCfg l).talkKey i) && keyGroup ((d.prev.legCfg l).talkKey i) = g with
      | some i => gainOf (keyGain ((d.prev.legCfg l).talkKey i))
      | none => 0#32

/-- Own contributions of a Leg to a group (R124). -/
def DataSet.own (d : DataSet) (l g : Nat) : List Int :=
  if (d.grp g).kind = 0 then
    ((tget [] d.decided g).filter fun t => t.leg = l && t.fade ≠ .zero).foldl
      (fun a t => addSum a (contribution (d.xOf l) (d.talkGain g l) (fadeWeight t.fade))) zeroSum
  else ((d.talkUses l).filter fun u => u.group = g).foldl (fun a u => addSum a (contribution (d.xOf l) u.gain u.w)) zeroSum

/-- Sum of this device's contributions to a group. -/
def DataSet.localSum (d : DataSet) (g : Nat) : List Int :=
  if (d.grp g).kind = 0 then
    (((tget [] d.decided g).map (·.leg)).eraseDups).foldl (fun a l => addSum a (d.own l g)) zeroSum
  else d.legs.foldl (fun a l => addSum a (d.own l g)) zeroSum

/-- Provisional sum of a Conference group (R332): talkers admitted before that are still candidates at 1.0, released
non-candidates fading out. -/
def DataSet.provisional (d : DataSet) (cs : List Cand) (adm : List AdmEntry) (g : Nat) : List Int :=
  let keep := (cs.filter (·.admitted)).foldl (fun a c => match c.leg with
    | some l => addSum a (contribution (d.xOf l) (d.talkGain g l) weightOne)
    | none => a) zeroSum
  (adm.filter fun e => e.admitted && !(cs.any fun c => c.leg = some e.leg)).foldl
    (fun a e => addSum a (contribution (d.xOf e.leg) (d.talkGain g e.leg) wOut)) keep

/-! ### Listen mixes (R125 to R128) -/

/-- Duck gain of a sample (R126). -/
def duck (gd : F32) (before now : Bool) (k : Nat) : F32 :=
  match before, now with
  | false, false => f32One
  | false, true => f32Add f32One (f32Mul (f32Sub gd f32One) (wIn k))
  | true, true => gd
  | true, false => f32Add gd (f32Mul (f32Sub f32One gd) (wIn k))

/-- Final sum of a group, 24 samples (zero where none is formed). -/
def DataSet.sumOf (d : DataSet) (g : Nat) : List Int := (d.sums.lookup g).getD zeroSum

/-- The group mix m that a listener receives (R125). -/
def DataSet.groupMix (d : DataSet) (l g : Nat) : Block :=
  let c := d.grp g
  let s := d.sumOf g
  if !d.live g then zero24
  else if c.kind = 0 then (subSum s (d.own l g)).map fun v => f32OfFix v 45
  else if c.kind = 1 then s.map fun v => f32OfFix v 45
  else
    let i := intGroup c
    let r := if d.live i then (subSum (d.sumOf i) (d.own l i)).map fun v => f32OfFix v 45 else zero24
    (upto 24).map fun k =>
      f32Add (f32Mul (f32OfFix (s.getD k 0) 45) (duck (gainOf (duckCode c)) (d.intPrev.contains g) (d.intNow.contains g) k))
        (f32Mul (r.getD k 0#32) (gainOf (intGainCode c)))

/-- Output gain of a Leg by sample: a step, or a fade to or from mute (R112). -/
def outGain (cur prev : Nat) (k : Nat) : F32 :=
  if cur = 0 && prev = 0 then 0#32
  else if cur = 0 then f32Mul (gainOf prev) (wOut k)
  else if prev = 0 then f32Mul (gainOf cur) (wIn k)
  else gainOf cur

/-- The output y of R127, before the soft clip. -/
def DataSet.listen (d : DataSet) (l : Nat) : Block :=
  let uses := (d.listenUses l).flatMap fun us => us.map fun u => (u, d.groupMix l u.group)
  let og := fld (d.cfg.legCfg l).a2 0 8
  let op := if d.prev.active l && !d.boundAnew l then fld (d.prev.legCfg l).a2 0 8 else og
  (upto 24).map fun k =>
    let acc := uses.foldl (fun a q => f32Add a (f32Mul (f32Mul q.1.gain (q.1.w k)) (q.2.getD k 0#32))) 0#32
    f32Mul acc (outGain og op k)

/-- The soft clip (R128). -/
def softClip (y : F32) : F32 :=
  let a := f32Abs y
  let q := f32OfRatio 3 4
  if f32Le a q then y
  else
    let u := f32Mul (f32Sub a q) (f32OfRatio 4 1)
    let v := f32Div u (f32Add f32One u)
    f32Add q (f32Mul (f32OfRatio 1 4) v) ||| (y &&& 0x80000000#32)

/-! ### Call flags (R129, R130) -/

/-- Enabled talk keys of a Leg into a group (its share, at most one under R110). -/
def DataSet.share (d : DataSet) (l g : Nat) : Nat :=
  if d.cfg.active l && !d.legLeaves l && d.cfg.inUse g then
    ((upto 4).filter fun i => keyEn ((d.cfg.legCfg l).talkKey i) && keyGroup ((d.cfg.legCfg l).talkKey i) = g).length
  else 0

/-- Calls of this device into a group. -/
def DataSet.localCalls (d : DataSet) (g : Nat) : Nat :=
  (d.callIn.map fun l => d.share l g).foldl (· + ·) 0

/-- Calls of the ring into a group, from the first-pass records received. -/
def DataSet.ringCalls (d : DataSet) (g : Nat) : Nat :=
  if (d.grp g).state = .shared then
    (d.recs.filter fun r => r.2.first && r.2.ringNo.val = (d.grp g).ringNo.toNat).foldl (fun a r => a + r.2.calls) 0
  else 0

/-- Call count of a group (R130). -/
def DataSet.calls (d : DataSet) (g : Nat) : Nat := d.localCalls g + d.ringCalls g

/-- Another Leg's call reaches the listener through a group. -/
def DataSet.calledBy (d : DataSet) (l g : Nat) : Bool :=
  decide ((if d.callIn.contains l then d.share l g else 0) < d.calls g)

/-- Call-out of a Leg (R130). -/
def DataSet.callOut (d : DataSet) (l : Nat) : Bool :=
  d.cfg.active l && !d.legLeaves l && (upto 16).any fun i =>
    let k := (d.cfg.legCfg l).listenKey i
    let g := keyGroup k
    keyEn k && d.cfg.inUse g &&
      (d.calledBy l g || ((d.grp g).kind = 2 && d.cfg.inUse (intGroup (d.grp g)) && d.calledBy l (intGroup (d.grp g))))

/-- A Leg forms an output in a data Period (R101, R103, R127): it is ACTIVE, or fades as it was until now; a Leg whose source has stopped
delivering is BOUND and forms none. -/
def DataSet.plays (d : DataSet) (l : Nat) : Bool :=
  legHasOutput l (d.cfg.legCfg l).a1 && legCarried d.cfg.wings l && (d.cfg.active l || (d.prev.active l && d.cfg.state l ≠ .bound))

/-- Output of a Leg for a data Period (R127 to R130), with y before the soft clip; none for a Leg without an output. -/
def DataSet.legOut (d : DataSet) (l : Nat) : Option (Block × LegOut) :=
  if !d.plays l then none
  else
    let y := d.listen l
    let z := y.map softClip
    some (y, { y := z, s24 := z.map s24OfF32, callOut := d.callOut l, concealed := false })

end Sys2Proof.Machine
end

