-- ==== Sys2Proof/Machine/Tiles.lean ====
section
/-! DEFINITION. Tiles, the Timetable, Substitutes and the presented member (R346 to R369). -/

namespace Sys2Proof.Machine

/-! ### Members (R359, R413) -/

/-- The next member up (R360, R413). -/
def memberUp (w : Nat) : Nat := if w = 0 then 1 else if w < 8 then 2 * w else 8

/-- The member that MEMBER_PIN names, QRB7740 where there is none (R411, R413). -/
def pinnedWings (pin : BitVec 2) : Nat := if pin = 1 then 1 else if pin = 2 then 2 else if pin = 3 then 4 else 8

/-! ### Counts of tiles (R352, R368) -/

def tileProven (t : Tile) : Bool := t.state = .working || t.state = .substitute

/-- Wing of a tile number (R365). -/
def wingOf (t : Nat) : Nat := t / 9

def State.wingOn (s : State) (w : Nat) : Bool := s.domOn (dWing w)
def State.proven (s : State) : Nat := ((upto 72).filter fun t => tileProven (s.tile t)).length

/-- The pool: SUBSTITUTE tiles in ON Wings (R352). -/
def State.pool (s : State) : List Nat := (upto 72).filter fun t => (s.tile t).state = .substitute && s.wingOn (wingOf t)

/-! ### Units and charges (R348, R349) -/

/-- A unit of work: a Leg or the admission decision of a group, its charge, and whether it is a shared decision. -/
structure WorkUnit where
  isLeg  : Bool
  id     : Nat
  charge : Nat
  shared : Bool
  deriving DecidableEq, Repr

/-- Charge of a Leg unit (R348). -/
def legCharge (c : LegCfg) : Nat :=
  11264 + (if echoMode c.a3 = 1 then 36000 else if echoMode c.a3 = 2 then 250504 else 0) + (if humEn c.a3 then 3840 else 0)

/-- Units of a configuration: bound and carried Legs in order, then Conference groups. -/
def MixView.units (v : MixView) : List WorkUnit :=
  ((v.legList.filter fun l => (v.legCfg l).bound).map fun l => WorkUnit.mk true l (legCharge (v.legCfg l)) false) ++
  ((v.groups.filter fun g => v.inUse g.1 && g.2.kind = 0).map fun g => WorkUnit.mk false g.1 1760 (g.2.state = .shared))

/-- Tile of a unit. -/
def Timetable.at (tt : Timetable) (u : WorkUnit) : Option Nat := if u.isLeg then tt.legs.lookup u.id else tt.grps.lookup u.id

/-- Placing a unit. -/
def Timetable.put (tt : Timetable) (u : WorkUnit) (t : Nat) : Timetable :=
  if u.isLeg then { tt with legs := tins u.id t tt.legs } else { tt with grps := tins u.id t tt.grps }

/-- Load of a tile under a Timetable. -/
def loadOf (us : List WorkUnit) (tt : Timetable) (t : Nat) : Load :=
  us.foldl (fun a u => if tt.at u = some t then
    { charge := a.charge + u.charge, legs := a.legs + b2n u.isLeg, shared := a.shared + b2n u.shared } else a) { charge := 0, legs := 0, shared := 0 }

/-- Packing limit of R24 and the capacity of a fall Period (R361). -/
def packLimit : Nat := 7040000
def fallLimit : Nat := 8800000

/-- A unit fits beside a load (R24, R349). -/
def fits (limit : Nat) (a : Load) (u : WorkUnit) : Bool :=
  decide (a.charge + u.charge ≤ limit) && (!u.isLeg || decide (a.legs < 128)) && (!u.shared || decide (a.shared < 24))

/-- The tile with the most room that holds the unit, lower number among equals (R350). -/
def roomiest (limit : Nat) (us : List WorkUnit) (tt : Timetable) (ts : List Nat) (u : WorkUnit) : Option Nat :=
  ((ts.map fun t => (t, loadOf us tt t)).filter fun q => fits limit q.2 u).foldl
    (fun b q => match b with
      | none => some q
      | some x => if q.2.charge < x.2.charge then some q else some x) (none : Option (Nat × Load)) |>.map (·.1)

/-! ### Placement (R350), repack (R357) -/

/-- WORKING tiles of ON Wings. -/
def State.workingTiles (s : State) : List Nat := (upto 72).filter fun t => (s.tile t).state = .working && s.wingOn (wingOf t)

/-- One new unit placed (R350): on a WORKING tile, else on the SUBSTITUTE of the lowest number; where neither has room a repack
places it with every Wing ON (R369), and else a Wing is woken (State.wingWanted). -/
def State.placeUnit (limit : Nat) (us : List WorkUnit) (s : State) (u : WorkUnit) : State :=
  match roomiest limit us s.tiles.tt s.workingTiles u with
  | some t => s.onTiles fun x => { x with tt := x.tt.put u t }
  | none => match s.pool.find? fun t => fits limit (loadOf us s.tiles.tt t) u with
    | some t =>
      let s := (s.onTile t fun x => { x with state := .working }).onTiles fun x => { x with tt := x.tt.put u t }
      if s.pool.isEmpty then s.onTiles fun x => { x with repackDue := true } else s
    | none => if (upto 8).all s.wingOn then s.onTiles fun x => { x with repackDue := true } else s

/-- A failed tile keeps its units until the first boundary at least 20 µs after detection (R356). -/
def State.clings (s : State) (t : Nat) : Bool := !tileProven (s.tile t) && decide (s.monoNs < (s.tile t).failMono + 20000)

/-- A placed unit keeps its tile (R349, R350, R356): the tile serves, and it has room or the unit has not changed; a failed
tile keeps its units until the boundary from which they are placed again. -/
def State.keepsTile (s : State) (limit : Nat) (us old : List WorkUnit) (u : WorkUnit) (t : Nat) : Bool :=
  if tileProven (s.tile t) then
    let a := loadOf us s.tiles.tt t
    old.contains u || (decide (a.charge ≤ limit) && (!u.isLeg || decide (a.legs ≤ 128)) && (!u.shared || decide (a.shared ≤ 24)))
  else s.clings t

/-- The Timetable kept in step with the configuration (R350): units that are gone leave, units that no longer fit move, new
units are placed. -/
def State.placeAll (limit : Nat) (old v : MixView) (s : State) : State :=
  let us := v.units
  let ous := old.units
  let has := fun (isLeg : Bool) (k : Nat) => us.any fun u => u.isLeg = isLeg && u.id = k
  let s := s.onTiles fun x => { x with tt := {
    legs := x.tt.legs.filter fun e => has true e.1
    grps := x.tt.grps.filter fun e => has false e.1 } }
  let s := us.foldl (fun s u => match s.tiles.tt.at u with
    | some t => if s.keepsTile limit us ous u t then s
        else s.onTiles fun x => { x with tt := if u.isLeg then { x.tt with legs := tdel u.id x.tt.legs }
          else { x.tt with grps := tdel u.id x.tt.grps } }
    | none => s) s
  us.foldl (fun s u => if (s.tiles.tt.at u).isSome then s else s.placeUnit limit us u) s

/-- Units of failed tiles pass to their Substitutes in the Timetable (R355). -/
def State.recordSubs (s : State) : State :=
  s.onTiles fun x =>
    let move := fun (e : Nat × Nat) => (e.1, (x.redo.lookup e.2).getD e.2)
    { x with tt := { legs := x.tt.legs.map move, grps := x.tt.grps.map move } }

/-- Largest unit first, in order among equals (R357). -/
def insertUnit (u : WorkUnit) : List WorkUnit → List WorkUnit
  | [] => [u]
  | x :: r => if x.charge < u.charge then u :: x :: r else x :: insertUnit u r
def sortUnits (us : List WorkUnit) : List WorkUnit := us.foldl (fun a u => insertUnit u a) []

/-- The spread of R357 over empty tiles; the flag says that every unit found a place. -/
def spread (us : List WorkUnit) (ts : List Nat) : Timetable × Bool :=
  (sortUnits us).foldl (fun q u => match roomiest packLimit us q.1 ts u with
    | some t => (q.1.put u t, q.2)
    | none => (q.1, false)) ({}, true)

/-- The least number of tiles over which the spread places every unit, at most a given one. -/
def leastTiles (us : List WorkUnit) (most : Nat) : Option Nat := (upto (most + 1)).find? fun n => (spread us (upto n)).2

/-- Choosing the pool (R357): one tile per Wing in each turn, lowest Wing first, the highest tile of a Wing first. -/
def choosePool (ts : List Nat) (n : Nat) : List Nat :=
  let ranked := ts.map fun t => ((ts.filter fun u => wingOf u = wingOf t && decide (t < u)).length, wingOf t, t)
  let order := (upto 9).flatMap fun r => (upto 8).flatMap fun w => (ranked.filter fun q => q.1 = r && q.2.1 = w).map (·.2.2)
  order.take n

/-- Proven tiles of the ON Wings, with some Wings left out (R357). -/
def State.packTiles (s : State) (without : List Nat) : List Nat :=
  (upto 72).filter fun t => tileProven (s.tile t) && s.wingOn (wingOf t) && !without.contains (wingOf t)

/-- The Wings, of those whose votes have been withdrawn, without which the units still fit (R357): the lower Wing is tried first, and one
that does not fit stays in. -/
def State.leaveOut (s : State) (us : List WorkUnit) (evict : List Nat) : List Nat :=
  evict.foldl (fun out w => if (leastTiles us (s.packTiles (out ++ [w])).length).isSome then out ++ [w] else out) []

/-- Units that a boundary may not place yet stay with their failed tile (R356). -/
def Timetable.cling (old new : Timetable) (stays : Nat → Bool) : Timetable :=
  { legs := (old.legs.filter fun e => stays e.2).foldl (fun t e => tins e.1 e.2 t) new.legs
    grps := (old.grps.filter fun e => stays e.2).foldl (fun t e => tins e.1 e.2 t) new.grps }

/-- A repack takes effect (R357); where it was asked for by the votes of Wings and none of them can be left out, the Timetable stands. -/
def State.repack (s : State) (evict : List Nat) : State :=
  let us := s.mixView.units
  let without := s.leaveOut us evict
  if !evict.isEmpty && without.isEmpty then s
  else
    let h := s.packTiles without
    let n := leastTiles us h.length
    let pool := choosePool h (min 8 (h.length - n.getD h.length))
    let work := h.filter fun t => !pool.contains t
    let s := work.foldl (fun s t => s.onTile t fun x => { x with state := .working }) s
    let s := pool.foldl (fun s t => s.onTile t fun x => { x with state := .substitute }) s
    s.onTiles fun x => { x with tt := x.tt.cling (spread us work).1 s.clings, replace := [] }

/-- Clock code of a tile (R347). A tile that neither works nor stands by keeps its step, but for the steps above 1.1 GHz, which stand in a fall
Period alone; it goes to the reference clock (DESIGN CHOICE, log 36). -/
def clockCode (fall : Bool) (st : TileState) (charge : Nat) (old : BitVec 8) : BitVec 8 :=
  if fall then 8
  else match st with
    | .working => BitVec.ofNat 8 ((upto 9).find? (fun c => decide (1100 * charge ≤ (800 + 50 * c) * 7040000)) |>.getD 8)
    | .substitute => 6
    | _ => if decide (6 < old.toNat) then 6 else old

/-- States and clocks of the tiles that are not as after reset (R351). -/
def State.ttStates (s : State) : Tab (TileState × BitVec 8) :=
  (upto 72).foldl (fun a t => tput (TileState.test, (6 : BitVec 8)) t ((s.tile t).state, (s.tile t).clock) a) []

/-- A new Timetable is in force where a unit's tile, a tile's state or a clock has changed (R347, R351); TIMETABLE_GET shows it (R365). -/
def State.newTimetable (s : State) (us : List WorkUnit) : State :=
  let loads := (upto 72).foldl (fun a t => tput {} t (loadOf us s.tiles.tt t) a) []
  let s := s.forAll (upto 72) fun s t =>
    s.onTile t fun x => { x with clock := clockCode s.tiles.fallPeriod x.state (tget {} loads t).charge x.clock }
  let now := s.ttStates
  let old := s.tiles
  let s := s.onTiles fun x => { x with shown := x.tt, loads := loads, ttLast := now }
  if now = old.ttLast && old.shown = s.tiles.tt then s
  else s.onTiles fun x => { x with serial := x.serial + 1, ttPidx := s.pidx }

/-! ### Failure and Substitutes (R352 to R356) -/

def causeCode : FailCause → Nat
  | .deadline => 1
  | .uncorrectable => 2
  | .signature => 3
  | .clock => 4
  | .selfTest => 5

/-- An entry of the Substitution log, the SUBST source and trace class 0x04 (R367, R431). -/
def State.substLog (s : State) (pidx : Word) (tile sub cause outcome concealed : Nat) : State :=
  let q := seqNext s.tiles.logSeq
  ((s.onTiles fun t => { t with
      logSeq := q
      log := logPut (·.seq) 64 (SubstEntry.mk q pidx (BitVec.ofNat 8 tile) (BitVec.ofNat 8 sub) (BitVec.ofNat 8 cause) (BitVec.ofNat 8 outcome)
        (BitVec.ofNat 16 concealed)) t.log }).raise irqSubst).record 4
    (pack [(0, tile), (8, sub), (16, cause), (24, outcome)])

/-- Data Periods of a tile's work that are concealed (R29, R368, R438). -/
def State.countLost (s : State) (n : Nat) : State :=
  (s.onTiles fun t => { t with lost := satAdd t.lost n }).countN 218 n

/-- The Substitute for a failed tile of a Wing (R354). -/
def State.chooseSub (s : State) (w : Nat) : Option Nat :=
  let dist := fun t => if wingOf t ≤ w then w - wingOf t else wingOf t - w
  s.pool.foldl (fun b t => match b with
    | none => some t
    | some x =>
      if dist t < dist x || (dist t = dist x && (wingOf t < wingOf x || (wingOf t = wingOf x && x < t))) then some t else some x) none

/-- Changing the data sets in the compute and the emit Period. -/
def State.onCompute (s : State) (f : DataSet → DataSet) : State := s.onMix fun m => { m with compute := m.compute.map f }
def State.onEmit (s : State) (f : DataSet → DataSet) : State := s.onMix fun m => { m with emit := m.emit.map f }

/-- A Leg's unit of a data Period is on a tile. -/
def DataSet.legOn (d : DataSet) (t l : Nat) : Bool := d.legTile.lookup l = some t

/-- A tile has units of a data Period. -/
def DataSet.holds (d : DataSet) (t : Nat) : Bool := (d.legTile.any fun e => e.2 = t) || (d.grpTile.any fun e => e.2 = t)

/-- PIDX of the data in its compute Period. -/
def State.computePidx (s : State) : Word := match s.mix.compute with | some d => d.pidx | none => s.pidx

/-- Tiles whose work of the emit data this tile is redoing. -/
def State.redoing (s : State) (t : Nat) : List Nat :=
  match s.mix.emit with
  | some d => d.lost.filter fun x => !d.dead.contains x && d.stage < 6 && (x = t || s.tiles.redo.lookup x = some t)
  | none => []

/-- Failed tiles whose work of the data in its compute Period this tile is redoing. -/
def State.redoingNow (s : State) (t : Nat) : List Nat :=
  match s.mix.compute with
  | some d => d.lost.filter fun x => x ≠ t && !d.dead.contains x && s.tiles.redo.lookup x = some t
  | none => []

/-- Every result of a tile for a data Period is discarded (R26): its outputs, and its write-back, so that its Legs stand again as the tile
read them (R25). -/
def State.discard (s : State) (t : Nat) : State :=
  match s.mix.compute with
  | none => s
  | some d =>
    let s := (d.back.filter (d.legOn t)).foldl (fun s l => match d.kept.lookup l with
      | some k => ((s.onEchoL l fun _ => k.1).onVadL l fun _ => k.2.1).onHumL l fun _ => k.2.2
      | none => s) s
    s.onCompute fun d => { d with
      outs := d.outs.filter fun o => !d.legOn t o.1
      summed := d.summed.filter fun x => x ≠ t
      back := d.back.filter fun l => !d.legOn t l
      done := d.done.filter fun x => x ≠ t }

/-- The tile of a data Period is lost for good (R29). -/
def DataSet.kill (d : DataSet) (ts : List Nat) : DataSet :=
  { d with
    lost := ts.foldl (fun l t => if l.contains t then l else t :: l) d.lost
    dead := ts.foldl (fun l t => if l.contains t then l else t :: l) d.dead }

/-- The boundary that ends the Period falls less than 20 µs after now, so that the units of a tile that fails now keep it over one more
Period (R356). -/
def State.tooLate (s : State) : Bool := decide (500000 < s.time.inPeriod + 20000)

/-- The tile has units to compute in the data that the boundary ahead brings, under the Substitutions that it records (R355). -/
def State.serves (s : State) (t : Nat) : Bool :=
  (s.tiles.tt.legs ++ s.tiles.tt.grps).any fun e => e.2 = t || s.tiles.redo.lookup e.2 = some t

/-- PIDX of the data in its emit Period. -/
def State.emitPidx (s : State) : Word := match s.mix.emit with | some d => d.pidx | none => s.pidx

/-- The tile has work of the data in its compute Period that is not lost yet. -/
def State.holdsWork (s : State) (t : Nat) : Bool := match s.mix.compute with | some d => d.holds t && !d.dead.contains t | none => false

/-- Entries of the Substitution log for redone data that is lost with a tile (R29, R367): one for each failed tile whose work it was redoing, and
its own for each data Period. -/
def State.logLost (s : State) (t sub cause : Nat) (older now : List Nat) : State :=
  let entries := fun (s : State) (pidx : Word) (ts : List Nat) =>
    let s := (ts.filter fun x => x ≠ t).foldl (fun s x => s.substLog pidx x t (s.tile x).cause.toNat 2 1) s
    if ts.isEmpty then s else s.substLog pidx t sub cause 2 ts.length
  entries (entries s s.emitPidx older) s.computePidx now

/-- A failed WORKING tile (R26, R29, R354 to R356): its results are discarded; a redo that it carried is lost; its work goes to a
Substitute, or is concealed and placed again at a boundary; in a fall Period it is concealed (R361). -/
def State.failWork (s : State) (t cause : Nat) : State :=
  let older := s.redoing t
  let now := s.redoingNow t
  let holds := s.holdsWork t
  let sub := if s.tiles.fallPeriod then none else s.chooseSub (wingOf t)
  let s := s.discard t
  let s := if older.isEmpty && now.isEmpty then s
    else (((s.onEmit fun d => d.kill older).onCompute fun d => d.kill now).countLost (older.length + now.length)).logLost t (sub.getD 0xFF) cause
      older now
  match sub with
  | some u =>
    let had := s.pool.length
    let s := s.onCompute fun d => { d with lost := if d.holds t && !d.lost.contains t then t :: d.lost else d.lost }
    let s := s.onTile u fun x => { x with state := .working, catching := true, catchOrd := s.time.ord }
    let s := s.onTiles fun x => { x with
      redo := tins t u (x.redo.map fun e => if e.2 = t then (e.1, u) else e)
      substs := satAdd x.substs 1
      total := x.total + 1
      repackDue := x.repackDue || had = 1 }
    if older.isEmpty && now.isEmpty && !holds then s.substLog s.computePidx t u cause 0 0 else s
  | none =>
    let n := b2n holds + b2n (s.tooLate && s.serves t)
    let s := s.onCompute fun d => d.kill [t]
    let s := s.onTiles fun x => { x with replace := x.replace ++ (x.tt.legs.filter fun e => e.2 = t).map (·.1) }
    if n = 0 && !(older.isEmpty && now.isEmpty) then s
    else (if n = 0 then s else s.countLost n).substLog s.computePidx t 0xFF cause 2 n

/-- A tile fails (R352, R353); one in TEST fails its self-test, and is RETIRED from the next boundary. -/
def State.failTile (s : State) (t cause : Nat) : State :=
  let x := s.tile t
  match x.state with
  | .out => s
  | .retired => s
  | .test =>
    if s.tiles.failedTest.contains t then s
    else
      let s := s.onTile t fun x => { x with cause := 5, fails := satAdd x.fails 1, failOrd := some s.time.ord }
      let s := s.onTiles fun q => { q with passed := q.passed.filter (fun k => k ≠ t), failedTest := q.failedTest ++ [t] }
      (s.count t).substLog s.pidx t 0xFF 5 5 0
  | st =>
    let again := match x.failOrd with | some o => decide (s.time.ord ≤ o + 7200000) | none => false
    let s := s.onTile t fun x => { x with
      state := if again then .retired else .out
      catching := false
      cause := BitVec.ofNat 8 cause
      fails := satAdd x.fails 1
      failOrd := some s.time.ord
      failMono := s.monoNs }
    let s := s.count t
    let s := if st = .working then s.failWork t cause
      else
        let s := s.substLog s.pidx t 0xFF cause 3 0
        if s.pool.isEmpty then s.onTiles fun q => { q with repackDue := true } else s
    if again then s.substLog s.pidx t 0xFF cause 5 0 else s

/-- Source and address of the next error in a tile's memories (R383): which memory and which word are free values. -/
def State.tileErr (s : State) (t : Nat) : Nat × Word :=
  let k := Config.tileWord t s.draw
  (10 + k % 2, w32 (k / 2 % (if k % 2 = 0 then 2 ^ 17 else 2 ^ 14)))

/-- An uncorrectable error in a tile's memory counts in ECC_UNCORR with its source (R376). -/
def State.tileUncorr (s : State) (t : Nat) : State :=
  let e := s.tileErr t
  (s.eccUncorr e.1 7 t e.2).onDraw (· + 1)

/-- A corrected error in a tile's memory (R346, R366). -/
def State.tileCorr (s : State) (t : Nat) : State :=
  if s.wingOn (wingOf t) then
    let e := s.tileErr t
    (((s.onTile t fun x => { x with corr := satAdd x.corr 1 }).eccCorr e.1 false 7 t e.2)).onDraw (· + 1)
  else s

/-- TILE_FAILURE (R353, R376): a tile of a Wing that is ON meets a condition of the table. -/
def execTileFailure (t : TileIx) (cause : FailCause) (s : State) : Host.Outcome State Fault Refusal :=
  if !s.wingOn (wingOf t) || (s.tile t).state = .out || (s.tile t).state = .retired then .next s
  else .next ((if cause = .uncorrectable then s.tileUncorr t else s).failTile t (causeCode cause))

/-- Work of the data in its compute Period that a Substitute has still to finish. -/
def State.behind (s : State) (t : Nat) : Bool :=
  match s.mix.compute with
  | some d => d.lost.any fun x => !d.dead.contains x && (x = t || s.tiles.redo.lookup x = some t)
  | none => false

/-- A tile holds up a repack (R369): it catches up, and the boundary ahead is not yet the sixth of R26. -/
def State.holdsRepack (s : State) (t : Nat) : Bool := (s.tile t).catching && decide (s.nextOrd < (s.tile t).catchOrd + 6)

/-- SUBSTITUTE_CATCH_UP (R26): the Substitute is back on the normal schedule. -/
def execSubstituteCatchUp (t : TileIx) (s : State) : Host.Outcome State Fault Refusal :=
  if (s.tile t).state = .working && (s.tile t).catching && (s.redoing t).isEmpty && !s.behind t then
    .next (s.onTile t fun x => { x with catching := false })
  else .next s

/-- RETEST_TIMER (R352): 2,000 boundaries after a failure, the Wing ON. -/
def execRetestTimer (t : TileIx) (s : State) : Host.Outcome State Fault Refusal :=
  let x := s.tile t
  let due := match x.failOrd with | some o => decide (o + 2000 ≤ s.time.ord) | none => false
  if x.state = .out && due && s.wingOn (wingOf t) then .next (s.onTile t fun x => { x with state := .test }) else .next s

/-- Every tile has left TEST at least once (R413). -/
def State.allTested (s : State) : Bool := (upto 72).all fun t => (s.tile t).leftTest

/-- SELF_TEST_COMPLETE (R352, R413): the new state is in force from the next boundary. -/
def execSelfTestComplete (t : TileIx) (pass : Bool) (s : State) : Host.Outcome State Fault Refusal :=
  if (s.tile t).state ≠ .test || !s.wingOn (wingOf t) || s.tiles.passed.contains t.val || s.tiles.failedTest.contains t.val then .next s
  else if pass then .next (s.onTiles fun x => { x with passed := x.passed ++ [t.val] })
  else .next (s.failTile t 5)

/-- The last tile has left TEST for the first time (R413). -/
def State.testOver (s : State) : State :=
  if s.tiles.testedAt.isNone && s.allTested then s.onTiles fun x => { x with testedAt := some s.monoNs } else s

/-- A tile that passed its self-test leaves TEST at a boundary (R352), and a repack is due (R357). -/
def State.leaveTest (s : State) (t : Nat) : State :=
  if (s.tile t).state ≠ .test then s
  else
    let st := if s.pool.length < 8 then TileState.substitute else TileState.working
    let back := (s.tile t).failOrd.isSome
    let cause := (s.tile t).cause.toNat
    let s := s.onTile t fun x => { x with state := st, leftTest := true }
    let s := s.onTiles fun x => { x with repackDue := true }
    (if back then s.substLog s.pidx t 0xFF cause 4 0 else s).testOver

/-- A tile that failed its self-test is RETIRED from a boundary (R352); it has left TEST (R357). -/
def State.retireTest (s : State) (t : Nat) : State :=
  if (s.tile t).state ≠ .test then s
  else
    let s := s.onTile t fun x => { x with state := .retired, leftTest := true, failMono := s.monoNs }
    (s.onTiles fun x => { x with repackDue := true }).testOver

/-- The firmware runs: repacks and member changes wait for it (R418). -/
def State.firmware (s : State) : Bool := s.boot.boot = 4

/-- REPACK (R357): a repack that is due is laid out for the next boundary; while a Substitute catches up it waits (R369). -/
def execRepack (s : State) : Host.Outcome State Fault Refusal :=
  let busy := (upto 72).any s.holdsRepack
  if !s.firmware || busy then .next s
  else if s.tiles.repackDue then .next (s.onTiles fun x => { x with next := some [], repackDue := false })
  else if !s.tiles.evict.isEmpty then .next (s.onTiles fun x => { x with next := some x.evict, evict := [] })
  else .next s

/-! ### The presented member (R360, R413) -/

/-- MEMBER_FALL (R360): healthy tiles are fewer than the member requires. -/
def execMemberFall (s : State) : Host.Outcome State Fault Refusal :=
  if s.firmware && s.healthyTiles < requirement s.wingsNext then
    .next (s.onTiles fun x => { x with nextWings := some (honoured s.wingsNext s.healthyTiles), riseRun := 0 })
  else .next s

/-- The member that a rise may reach: the next one, not beyond the pin (R413). -/
def State.mayRise (s : State) : Bool := decide (s.tiles.wings < pinnedWings s.boot.memberPin)

/-- MEMBER_RISE (R360): 2,000 boundaries in service with enough proven tiles. -/
def execMemberRise (s : State) : Host.Outcome State Fault Refusal :=
  if s.firmware && !s.tiles.stepping && s.tiles.nextWings.isNone && s.mayRise && 2000 ≤ s.tiles.riseRun &&
      requirement (memberUp s.tiles.wings) ≤ s.proven then
    .next (s.onTiles fun x => { x with nextWings := some (memberUp x.wings), riseRun := 0 })
  else .next s

/-- A step up is due at the next boundary (R413): 20 µs after the last tile left TEST, then every 16th boundary. -/
def State.stepDue (s : State) : Bool :=
  s.tiles.testedAt.isSome && (match s.tiles.stepOrd with | none => true | some o => decide (o + 16 ≤ s.nextOrd))

/-- MEMBER_STEP_UP (R413): one member up, or the end of the step-up where the next one cannot be presented. -/
def execMemberStepUp (s : State) : Host.Outcome State Fault Refusal :=
  if !s.tiles.stepping || !s.firmware || !s.stepDue || s.tiles.nextWings.isSome then .next s
  else if s.mayRise && requirement (memberUp s.tiles.wings) ≤ s.proven then
    .next (s.onTiles fun x => { x with nextWings := some (memberUp x.wings), lostAt := x.testedAt.getD x.lostAt })
  else .next (s.onTiles fun x => { x with stepping := false })

/-- A member change takes effect at the boundary just opened (R12, R360 to R362, R413): CAPS, and the tails over the new
limit truncated from the highest carried Leg down (R135). -/
def State.presentMember (s : State) (w : Nat) : State :=
  let up := decide (s.tiles.wings < w)
  let s := s.onTiles fun x => { x with
    wings := w
    nextWings := none
    fallPeriod := !up
    riseRun := 0
    repackDue := true
    stepOrd := if x.stepping && up then some s.time.ord else x.stepOrd }
  let s := s.onTiles fun x => { x with stepping := x.stepping && s.mayRise }
  let tails := (s.mixView.legList.filter fun l => echoMode (s.legCfg l).a3 = 2).reverse
  let extra := tails.take (tails.length - memberTails w)
  let s := extra.foldl (fun s l => s.onLegCfg l fun c => { c with a3 := (c.a3 &&& 0xFFFFFFFC#32) ||| 1#32 }) s
  (s.raise irqCaps).ringRecord

/-! ### TIMETABLE_GET (R365) -/

/-- A tile entry of R366, with the state and the clock of the Timetable in force (R351, R365). -/
def State.tileEntry (s : State) (t : Nat) : List Byte :=
  let q := tget (TileState.test, (6 : BitVec 8)) s.tiles.ttLast t
  let x := { s.tile t with state := q.1, clock := q.2 }
  let a := tget {} s.tiles.loads t
  let code := match x.state with | .test => 0 | .working => 1 | .substitute => 2 | .out => 3 | .retired => 4
  let dec := (s.tiles.shown.grps.filter fun e => e.2 = t).length
  [BitVec.ofNat 8 code, BitVec.ofNat 8 (b2n x.catching + 2 * b2n (s.wingOn (wingOf t)) + 4 * b2n (decide (0 < a.shared))),
    x.clock, x.cause] ++ leBytes 4 a.charge ++ leBytes 2 a.legs ++ leBytes 2 dec ++ leBytes 2 x.fails.toNat ++ leBytes 2 x.corr.toNat

/-- The result block of a part (R365), from the Timetable in force at the latest boundary. -/
def State.timetablePart (s : State) (part : Nat) : List Byte :=
  if part = 0 then (upto 72).flatMap s.tileEntry
  else if part = 1 then (upto 4096).map fun l => BitVec.ofNat 8 ((s.tiles.shown.legs.lookup l).getD 0xFF)
  else (upto 1024).map fun g => BitVec.ofNat 8 ((s.tiles.shown.grps.lookup g).getD 0xFF)

/-- TIMETABLE_GET (R365): its own checks and results. -/
def timetableGetChecked (x : Ctx) (s : State) : Verdict :=
  let c := x.cmd
  let part := fld c.a0 0 2
  let n := if part = 0 then 1152 else if part = 1 then 4096 else 1024
  if part = 3 || (c.a0 &&& 0xFFFFFFFC#32) ≠ 0 || c.a2 ≠ 0 || c.a3 ≠ 0 || c.a4 ≠ 0 || c.a5 ≠ 0 || !x.resultOk s c.a1 n then .reject stBadarg
  else .done s s.tiles.ttPidx s.tiles.serial (some (c.a1, s.timetablePart part))

end Sys2Proof.Machine
end

