-- ==== Sys2Proof/Machine/Pipeline.lean ====
section
/-! DEFINITION. One Period through the pipeline (R20 to R31, R132, R331 to R334): the fixed instants of the compute and of the emit
Period, the round on the ring, redo, late round and concealment. -/

namespace Sys2Proof.Machine

/-! ### Memory errors that a tile meets in a canceller slot (R373, R376) -/

/-- Byte address of a Leg's canceller slot, both stacks laid end to end (R373). -/
def slotBase (l : Nat) : Nat := l % 2 * 2 ^ 31 + 0x40000000 + 0x40000 * (l / 2)

/-- Words in error in the history record at an index of a canceller's list (R149, R373). -/
def State.badHist (s : State) (l : Nat) (c : Echo) (i : Nat) : List Nat :=
  s.badAll (slotBase l + 0x12000 + 72 * ((c.histOrd + c.hist.length - i) % c.hist.length)) 72

/-- What a tile meets as it reads a Leg's canceller slot (R149, R376): the canceller as read, with history records in error as zero, and the
word addresses in error. -/
def State.readSlot (s : State) (l : Nat) (c : Echo) : Echo × List Nat :=
  if s.mem.badPantry.isEmpty || c.state = .off then (c, [])
  else
    let b := slotBase l
    let f := s.badAll b (72 * c.w.length)
    let q := s.badAll (b + 0x1B000) 0xC0
    let h := (upto c.hist.length).map (s.badHist l c)
    ({ c with
       hist := (c.hist.zip h).map fun q => if q.2.isEmpty then q.1 else zeroRecord
       bad := c.bad || !f.isEmpty
       badCtl := c.badCtl || !q.isEmpty }, f ++ q ++ h.flatten)

/-- Words in error in a Leg's checkpoint, which is read at a revert alone (R149). -/
def State.badCheck (s : State) (l : Nat) (c : Echo) : List Nat :=
  match c.check with
  | some k => s.badAll (slotBase l + 0x9000) (72 * k.w.length) ++ s.badAll (slotBase l + 0x1B100) 0xC0
  | none => []

/-! ### Phase A (R23, R132) -/

/-- The Leg's input of a data Period at 48 kHz as binary32 (R100, R123). -/
def State.legInput (s : State) (d : DataSet) (l : Nat) : Block :=
  match d.inputs.lookup l with
  | none => zero24
  | some xs =>
    let rate := tget 0 d.rates l
    let old := ((tget [] s.mix.rcIn l).filter fun b => b.2.1 = rate).map fun b => (b.1, b.2.2.map f32OfS24)
    if rate = 0 then (upto 24).map fun k => f32OfS24 (xs.getD k 0)
    else convertIn rate (threeBlocks d.ord (xs.map f32OfS24) old)

/-- Inputs that a later conversion reaches (R100): those of this data and of the Period before it. -/
def keepIn (d : DataSet) (old : Tab (List (Nat × Nat × List Int))) : Tab (List (Nat × Nat × List Int)) :=
  let kept := (old.map fun e => (e.1, e.2.filter fun b => decide (d.ord ≤ b.1 + 1))).filter fun e => !e.2.isEmpty
  (d.inputs.filter fun i => isNetLeg i.1).foldl (fun t i => tins i.1 ((d.ord, tget 0 d.rates i.1, i.2) :: tget [] kept i.1) t) kept

/-- Byte address of the block of the output line that is a Leg's reference (R137, R373). -/
def DataSet.refAt (d : DataSet) (l : Nat) : Nat :=
  let a3 := (d.cfg.legCfg l).a3
  slotBase (if refOther a3 then refLeg a3 else l) + 0x1C000 + 96 * ((d.ord + 258 * 2 - (3 + echoDelay a3)) % 258)

/-- Words in error in the block of the output line that an enabled canceller reads (R376). -/
def State.badRef (s : State) (d : DataSet) (l : Nat) : List Nat :=
  let a3 := (d.cfg.legCfg l).a3
  if echoMode a3 = 0 || d.ord < 3 + echoDelay a3 then [] else s.badAll (d.refAt l) 96

/-- The canceller's reference (R137): the output of the Leg or of REF_LEG three Periods and DELAY earlier, zero where none was
formed. -/
def State.reference (s : State) (d : DataSet) (l : Nat) : Block :=
  let a3 := (d.cfg.legCfg l).a3
  let r := if refOther a3 then refLeg a3 else l
  let back := 3 + echoDelay a3
  if d.ord < back || !legCarried d.cfg.wings r || !(s.badRef d l).isEmpty then zero24
  else ((tget [] s.mix.outLine r).lookup (d.ord - back)).getD zero24

/-- What one data Period gives a Leg's canceller: what has changed since its chain last ran acts now (R136, R147). -/
def State.echoIn (s : State) (d : DataSet) (l : Nat) (input : Block) (c : Echo) : EchoIn :=
  let cur := d.cfg.legCfg l
  let st := d.cfg.legSt l
  let since := fun (b : Nat) => decide (c.ran.ord < b)
  { leg := l
    ord := d.ord
    pidx := d.pidx
    a3 := cur.a3
    off := if since st.offOrd then some st.offOrd else none
    cut := since st.cutOrd
    grown := since st.growOrd
    refMoved := since st.refOrd
    resMoved := since st.resOrd
    rebound := c.ran.bindOrd = st.bindOrd && c.ran.moveOrd ≠ st.moveOrd
    anew := c.ran.zeroOrd ≠ st.zeroOrd
    active := d.cfg.active l
    conceal := d.conceal.contains l
    frozen := tget [] d.frozen l
    input := input
    ref := s.reference d l
    changes := st.changes
    reseed := s.seedOf l
    noCheck := !(s.badCheck l c).isEmpty }

/-- The hum canceller that a data Period finds (R136, R364): none after a bind or where HUM_EN was off between, in SEARCH with coefficients of
zero after a rise. -/
def humFor (bind back moved : Bool) (h : Hum) : Hum :=
  if bind || moved then {}
  else if back && h.state ≠ .off then { state := .search, a := List.replicate 15 0, b := List.replicate 15 0 } else h

/-- The voice activity that a data Period finds (R106, R153, R364): a new binding and a rise restart its floor, and keep the state of its
band-pass (DESIGN CHOICE, log 132); a bind restarts both. -/
def vadFor (bind restart : Bool) (v : Vad) : Vad :=
  if bind then {} else if restart then { v with ring := [], runMin := none, count := 0 } else v

/-- Phase A of one Leg (R132), with the memory words in error that its tile met. -/
def State.chainLeg (s : State) (d : DataSet) (l : Nat) : PhaseA × List Nat :=
  let cur := d.cfg.legCfg l
  let st := d.cfg.legSt l
  let chain := s.lastChain l
  let ran := chain.1.ran
  if !cur.bound then
    ({ e := zero24, d := zero24, yh := zero24, x := zero24, score := 0, echo := {}, vad := {}, hum := {}, fixed := false }, [])
  else
    let bind := decide (ran.bindOrd ≠ st.bindOrd)
    let back := decide (ran.ord < st.awayOrd)
    let active := d.cfg.active l
    let input := s.legInput d l
    let hum0 := humFor bind back (decide (ran.ord < st.humOrd)) chain.2.2
    let h := if isLineLeg l then hum0.run (humEn cur.a3) active (d.conceal.contains l) s.untrusted d.pidx input else (input, {})
    let x := s.echoIn d l input chain.1
    let rd := s.readSlot l (if bind then {} else chain.1)
    let rise := back && rd.1.state ≠ .off && echoMode cur.a3 ≠ 0
    let o := (if rise then rd.1.revert x else rd.1).run x h.1
    let vad0 := vadFor bind (x.rebound || back) chain.2.1
    let v := if active then vad0.step (!x.conceal && !d.noFloor.contains l) o.es else (0#32, vad0)
    ({ e := o.e, d := o.d, yh := o.yh, x := o.x, score := if active then score v.1 v.2.floor (vadOfs cur.a3) else 0,
       echo := { o.echo with ran := { ord := d.ord, bindOrd := st.bindOrd, moveOrd := st.moveOrd, zeroOrd := st.zeroOrd } },
       vad := v.2, hum := h.2, fixed := o.fixed }, rd.2 ++ s.badRef d l ++ (if rise || o.reread then s.badCheck l rd.1 else []))

/-- Legs that phase A treats: those of the data Period, and those that were unbound at its boundary. -/
def DataSet.chainLegs (d : DataSet) : List Nat :=
  d.legs ++ ((d.prev.legs.map (·.1)).filter fun l => !d.legs.contains l && legCarried d.cfg.wings l)

/-- Phase A of the data in its compute Period; every word in error that a tile met counts (R376). -/
def State.phaseA (s : State) (d : DataSet) : State :=
  let rs := d.chainLegs.map fun l => (l, s.chainLeg d l)
  let kept := d.chainLegs.map fun l => (l, s.lastChain l)
  let s := s.onCompute fun d => { d with stage := 1, phaseA := rs.map (fun r => (r.1, r.2.1)), kept := kept }
  let s := rs.foldl (fun s r => r.2.2.foldl (fun s w => s.eccCorr 1 true 7 r.1 (pantryWindow (4 * w))) s) s
  s.onMix fun m => { m with rcIn := keepIn d m.rcIn }

/-- Tag that a consumer expects of the data gathered a number of Periods before the one in progress (R30): low 8 bits of the PIDX that the
token of that gather Period carried; none before the device has received it. -/
def State.tagOf (s : State) (back : Nat) : Option (BitVec 8) := s.time.tokens[back]?.map (·.setWidth 8)

/-- A buffer is delivered where it carries the expected tag (R30). -/
def State.delivered (s : State) (back : Nat) (d : DataSet) : Bool :=
  match s.tagOf back with
  | some g => g = d.pidx.setWidth 8
  | none => true

/-- The tile has work of a data Period that it still misses. -/
def DataSet.miss (d : DataSet) (t : Nat) : DataSet :=
  { d with lost := if d.holds t && !d.lost.contains t then t :: d.lost else d.lost }

/-- Tiles in their order, in which they choose a Substitute where they fail together (R354). -/
def tilesIn (ts : List Nat) : List Nat := (upto 72).filter ts.contains

/-- Tiles of a data Period whose work a tile is doing: its own, and that of the failed tiles that it stands for. -/
def State.standsFor (s : State) (d : DataSet) (t : Nat) : List Nat :=
  d.lost.filter fun x => !d.dead.contains x && (x = t || s.tiles.redo.lookup x = some t)

/-- Substitutes that miss the late-round cut-off of R27 on the data in its emit Period (R26, R353): a redone partial sum is not in the hub. -/
def State.slowTiles (s : State) (missing : List Nat) : List Nat :=
  match s.mix.emit with
  | none => []
  | some d => missing.filter fun t => (s.tile t).state = .working && (s.tile t).catching && decide (d.stage < 6) &&
      (s.standsFor d t).any fun x => !d.summed.contains x

/-- Redone partial sums that are in the hub at the cut-off: those of the data in its emit Period, and those of the data in its compute Period
whose Substitute is in time (R23, R26). -/
def State.markSummed (s : State) (missing slow : List Nat) : State :=
  let s := s.onEmit fun d => { d with
    summed := d.lost.filter fun x => !d.dead.contains x && (d.summed.contains x || !(slow.any fun t => (s.standsFor d t).contains x)) }
  s.onCompute fun d => { d with
    summed := d.lost.filter fun x => !d.dead.contains x && (match s.tiles.redo.lookup x with
      | some u => !missing.contains u && (s.tile u).state = .working && (s.redoing u).isEmpty
      | none => false) }

/-- PARTIAL_SUM_CUTOFF (R23, R26, R30, R353): phase A is done; a tile on the normal schedule whose partial sums are missing, or to which its
inputs were not delivered, has failed; a Substitute that still redoes older data, or misses this cut-off on its way back, keeps the
deadlines of R26. Tiles that fail here together, a Substitute at the late-round cut-off among them, do so in their order (R354). -/
def State.partialSumCutoff (s : State) (missing : List Nat) : State :=
  let s := s.at_ 200000
  let missing := tilesIn missing
  match s.mix.compute with
  | none => s
  | some d =>
    if d.stage ≠ 0 then s
    else
      let missing := if s.delivered 1 d then missing else tilesIn (missing ++ (upto 72).filter d.holds)
      let s := s.phaseA d
      let slow := s.slowTiles missing
      let s := s.markSummed missing slow
      let s := s.forAll (upto 72) fun s t =>
        if (s.tile t).state = .working && (s.tile t).catching && !(s.redoing t).isEmpty then s.onCompute (·.miss t) else s
      missing.foldl (fun s t =>
        if (s.tile t).state ≠ .working then s
        else if (s.tile t).catching && !slow.contains t then s.onCompute (·.miss t)
        else s.failTile t 1) s

/-! ### The round (R331 to R333) -/

/-- Segment and seam of the rounds that the device takes part in (R320, R325): a device that has departed takes part in those of the
data gathered before its boundary, in the Period that opened there and in the late round of the next. -/
def State.ringOf (s : State) : Option (BitVec 8 × Option (BitVec 3)) :=
  if s.imdal.state = .enrolled then some (s.imdal.segment, s.imdal.seam)
  else match s.imdal.left with
    | some (o, seg, sm) => if s.time.ord ≤ o + 1 then some (seg, sm) else none
    | none => none

/-- The device takes part in rounds. -/
def State.inRounds (s : State) : Bool := s.ringOf.isSome

/-- A side carries reduction traffic (R330): its link is UP to a device of the segment and is not the seam. -/
def State.carries (s : State) (side : Nat) : Bool :=
  let m := s.imdal
  let up := if side = 0 then m.linkE = .up else m.linkW = .up
  let peer := if side = 0 then m.peerE else m.peerW
  match peer, s.ringOf with
  | some p, some (seg, seam) => up && seg.getLsbD p.val && seam ≠ some (if side = 0 then m.index else BitVec.ofNat 3 p.val)
  | _, _ => false

/-- A side is awaited in a round (R27, R330): it carried reduction traffic when the Period in progress opened. -/
def State.awaits (s : State) (side : Nat) : Bool := if side = 0 then s.imdal.lineE else s.imdal.lineW

/-- SHARED groups of a data Period with their ring numbers, in ring-number order (R331). -/
def DataSet.sharedGroups (d : DataSet) : List (Nat × Nat) :=
  let gs := (d.cfg.groups.filter fun g => d.cfg.inUse g.1 && g.2.state = .shared).map fun g => (g.1, g.2.ringNo.toNat)
  (upto 1024).flatMap fun r => gs.filter fun g => g.2 = r

/-- The record of a side for a ring number and a pass. -/
def DataSet.recFrom (d : DataSet) (side ringNo : Nat) (first : Bool) : Option RedRecord :=
  (d.recs.find? fun r => r.1 = side && r.2.ringNo.val = ringNo && r.2.first = first).map (·.2)

/-- Device index of R119. -/
def State.ringIndex (s : State) : Nat := if s.inRounds then s.imdal.index.toNat else 0

/-- Candidates of this device with the admission state before this data. -/
def State.candsOf (s : State) (d : DataSet) (g : Nat) : List Cand := d.cands s.ringIndex (tget [] s.mix.adm g) g

/-- Entries that travel: the first ADMIT in the order of R121 and the first ADMIT of class 2 (R120, R332). -/
def cutCands (most : Nat) (l : List Cand) : List Cand :=
  let s := (sortCands l).filter fun c => decide (c.cls ≤ 3)
  let a := s.take most
  a ++ (((s.filter fun c => c.cls = 2).take most).filter fun c => !a.any fun x => x.key = c.key)

/-- A candidate received (R331). -/
def ofRingCand (c : RingCand) : Cand :=
  { leg := none, slot := 0, key := c.key, score := c.score, cls := c.cls, hold := c.hold, admitted := c.admitted, speak := false, now := false }
def toRingCand (c : Cand) : RingCand := { key := c.key, score := c.score, cls := c.cls, hold := c.hold, admitted := c.admitted }

/-- Own first-pass record of a group (R332). -/
def State.firstRecord (s : State) (d : DataSet) (g ringNo : Nat) : RedRecord :=
  let conf := (d.grp g).kind = 0
  let cs := s.candsOf d g
  { tag := d.pidx.setWidth 8
    ringNo := Fin.ofNat 1024 ringNo
    first := true
    calls := min 3 (d.localCalls g)
    sums := if conf then d.provisional cs (tget [] s.mix.adm g) g else d.localSum g
    cands := if conf then (cutCands (grpAdmit (d.grp g)) cs).map toRingCand else [] }

/-- Two records of one group added at a hop (R332). -/
def addRecord (most : Nat) (a b : RedRecord) : RedRecord :=
  { a with
    calls := min 3 (a.calls + b.calls)
    sums := addSum a.sums b.sums
    cands := (cutCands most ((a.cands ++ b.cands).map ofRingCand)).map toRingCand }

/-- A record sent on a side (R331, R342): it goes where the side carries reduction traffic. -/
def State.sendRecord (s : State) (side : Nat) (r : RedRecord) : State :=
  if s.carries side then
    (s.sendBy side (.record r)).onImdal fun m => { m with
      sent := (side, r) :: m.sent
      passBytes := if r.first && side = 0 then m.passBytes + w32 (196 + 5 * r.cands.length) else m.passBytes }
  else s

/-- ADMIT of the group that a ring number names in a data Period; where this device does not carry it, that of the peers' settings (R117), else 32,
its largest. -/
def State.ringAdmit (s : State) (d : DataSet) (ringNo : Nat) : Nat :=
  match d.sharedGroups.find? fun g => g.2 = ringNo with
  | some g => grpAdmit (d.grp g.1)
  | none => match s.imdal.peerGroups.lookup ringNo with
    | some q => fld q.2.1 0 6
    | none => 32

/-- A record with nothing in it, which this device sends for a ring number that is in use by others alone (R331). -/
def DataSet.emptyRecord (d : DataSet) (ringNo : Nat) : RedRecord :=
  { tag := d.pidx.setWidth 8, ringNo := Fin.ofNat 1024 ringNo, first := true, calls := 0, sums := zeroSum, cands := [] }

/-- Tiles whose contributions to a data Period are awaited (R26, R27): results that are missing, that are not lost for good, and whose redone
partial sums are not yet in. -/
def DataSet.awaited (d : DataSet) : List Nat := d.lost.filter fun t => !d.dead.contains t && !d.summed.contains t

/-- Legs with a talk use on a group. -/
def DataSet.talkers (d : DataSet) (g : Nat) : List Nat := d.legs.filter fun l => (d.talkUses l).any fun u => u.group = g

/-- An own contribution to a group is awaited: a talker's tile is still to redo this data. -/
def DataSet.ownMissing (d : DataSet) (g : Nat) : Bool :=
  (d.talkers g).any fun l => match d.legTile.lookup l with | none => false | some t => d.awaited.contains t

/-- Own first-pass records that can leave now, in ring-number order, one for each shared group of the ring (R331): those not formed before whose
contributions are complete; in a late round also those formed in the normal one, which are the same (R27). -/
def State.ownFirsts (s : State) (late : Bool) (d : DataSet) : List RedRecord :=
  (upto 1024).filterMap fun r => match d.firsts.lookup r with
    | some q => if late then some q else none
    | none => match d.sharedGroups.find? fun g => g.2 = r with
      | some g => if d.ownMissing g.1 then none else some (s.firstRecord d g.1 r)
      | none => if (s.imdal.peerGroups.lookup r).isSome || (d.recs.any fun q => q.2.first && q.2.ringNo.val = r) then some (d.emptyRecord r) else none

/-- One data set changes: that in its emit Period, or that in its compute Period. -/
def State.onData (s : State) (emit : Bool) (f : DataSet → DataSet) : State := if emit then s.onEmit f else s.onCompute f

/-- A record of the first pass leaves by a side, once in a round. -/
def State.sendFirst (s : State) (emit : Bool) (side : Nat) (r : RedRecord) : State :=
  (s.onData emit fun d => { d with firstOut := (side, r.ringNo.val) :: d.firstOut }).sendRecord side r

/-- Own first-pass records leave: away from an awaited side they go with the record that arrives there. -/
def State.sendOwn (s : State) (emit : Bool) (d : DataSet) (rs : List RedRecord) : State :=
  rs.foldl (fun s r => (upto 2).foldl (fun s side =>
    if d.firstOut.contains (side, r.ringNo.val) then s
    else if s.awaits (1 - side) then
      match d.recFrom (1 - side) r.ringNo.val true with
      | some q => s.sendFirst emit side (addRecord (s.ringAdmit d r.ringNo.val) q r)
      | none => s
    else s.sendFirst emit side r) s) s

/-- Places the first pass of a data Period, or what of it had to wait; its records are kept as they were formed. -/
def State.firstPass (s : State) (emit : Bool) (d : DataSet) : State :=
  let rs := s.ownFirsts emit d
  let s := if (if emit then d.latePlaced else d.placed) then s else s.onImdal fun m => { m with sent := [], passBytes := 0, passNs := 0 }
  let f := fun (d : DataSet) => { d with
    firsts := rs.foldl (fun t r => tins r.ringNo.val r t) d.firsts
    placed := d.placed || !emit
    latePlaced := d.latePlaced || emit }
  (s.onData emit f).sendOwn emit d rs

/-- ROUND_START (R23, R333): the local reduction is complete at P+220 µs and the first pass leaves; the record of a group whose contributions of this
device are not complete waits for the redo, or for the late round. -/
def State.roundStart (s : State) : State :=
  let s := s.at_ 220000
  match s.mix.compute with
  | none => s
  | some d =>
    if d.stage ≠ 1 then s
    else
      (s.onCompute fun d => { d with stage := 2 }).firstPass false { d with stage := 2 }

def execRoundStart (s : State) : Host.Outcome State Fault Refusal := .next s.roundStart

/-- Own correction record of a Conference group: the difference between its contributions and its provisional ones (R332). -/
def DataSet.correction (d : DataSet) (g ringNo : Nat) : RedRecord :=
  { tag := d.pidx.setWidth 8
    ringNo := Fin.ofNat 1024 ringNo
    first := false
    calls := 0
    sums := subSum (d.localSum g) ((d.sums.lookup g).getD zeroSum)
    cands := [] }

/-- Ring numbers in order for which a correction record exists, own or received on the other side. -/
def DataSet.corrNums (d : DataSet) (side : Nat) : List Nat :=
  let ns := d.corrs.map (·.1) ++ (d.recs.filter fun q => q.1 = 1 - side && !q.2.first).map (fun q => q.2.ringNo.val)
  if ns.isEmpty then [] else (upto 1024).filter ns.contains

/-- The correction record of a ring number that leaves by a side: what arrived on the other side plus the device's own (R332). -/
def DataSet.corrRecord (d : DataSet) (side ringNo : Nat) : RedRecord :=
  match d.recFrom (1 - side) ringNo false, d.corrs.lookup ringNo with
  | some q, some c => { q with sums := addSum q.sums c.sums }
  | some q, none => q
  | none, some c => c
  | none, none => { d.emptyRecord ringNo with first := false }

/-- The correction pass by a side (R331, R332): one record for a group, in ring-number order. Away from an awaited side an own correction waits
for the record of its number, or for one of a higher number, from there; at the end of the pass it leaves alone (DESIGN CHOICE, log 126: the
spec gives the pass no end mark). In a late round it is run for the groups whose first-pass records have left. -/
def State.corrPass (s : State) (emit last : Bool) (side : Nat) : State :=
  match (if emit then s.mix.emit else s.mix.compute) with
  | none => s
  | some d =>
    let nums := d.corrNums side
    let far := fun (r : Nat) => (d.recFrom (1 - side) r false).isSome
    let due := nums.filter fun r => !d.corrOut.contains (side, r) && (!emit || d.firstOut.any fun o => o.2 = r) &&
      (!s.awaits (1 - side) || last || far r || nums.any fun q => decide (r < q) && far q)
    due.foldl (fun s r => s.sendRecord side (d.corrRecord side r))
      (s.onData emit fun d => { d with corrOut := due.map (fun r => (side, r)) ++ d.corrOut })

/-- The correction pass by both sides. -/
def State.corrBoth (s : State) (emit last : Bool) : State := (s.corrPass emit last 0).corrPass emit last 1

/-- A first-pass record that has joined a data Period travels on: with this device's own once that has been formed, by itself where the device
carries no group of its number. -/
def State.passFirst (s : State) (emit : Bool) (d : DataSet) (side : Nat) (r : RedRecord) : State :=
  match d.firsts.lookup r.ringNo.val with
  | some q => s.sendOwn emit d [q]
  | none =>
    if (d.sharedGroups.any fun g => g.2 = r.ringNo.val) || !(if emit then d.latePlaced else d.placed) || d.firstOut.contains (side, r.ringNo.val) then s
    else s.sendFirst emit side r

/-- A record travels on by the other side; a second correction of one number goes by itself. -/
def State.passOn (s : State) (emit : Bool) (d : DataSet) (side : Nat) (r : RedRecord) : State :=
  if r.first then s.passFirst emit d side r
  else if d.corrOut.contains (side, r.ringNo.val) then s.sendRecord side r
  else s.corrPass emit false side

/-- A record joins a data Period: a first-pass record once for a side and a ring number, a correction added to an earlier one (R332). -/
def DataSet.join (d : DataSet) (side : Nat) (r : RedRecord) : DataSet :=
  let same := fun (q : Nat × RedRecord) => q.1 = side && q.2.ringNo = r.ringNo && q.2.first = r.first
  let sum := if r.first then r else
    { r with sums := (d.recs.filter same).foldl (fun a q => addSum a q.2.sums) r.sums }
  { d with recs := (side, sum) :: d.recs.filter fun q => !same q }

/-- A late record counts for a group that the late round affects, and for a ring number that this device does not carry (R27, R334). -/
def DataSet.lateFor (d : DataSet) (ringNo : Nat) : Bool :=
  match d.sharedGroups.find? fun g => g.2 = ringNo with
  | some g => d.lateGrps.contains g.1
  | none => true

/-- REDUCTION_RECORD_RECEIVED (R331 to R334): the record joins the data whose tag it carries, and travels on with this device's
own part; a record of other data is discarded. In a late round a device that holds the totals of a group already places its records of the group
once more, as every device does (R27). -/
def execReductionRecordReceived (side : SideIx) (r : RedRecord) (s : State) : Host.Outcome State Fault Refusal :=
  let tagged := fun (d : Option DataSet) => match d with | some d => decide (d.pidx.setWidth 8 = r.tag && d.stage < 6) | none => false
  let other := 1 - side.val
  if !s.carries side then .next s
  else if tagged s.mix.compute then
    let s1 := s.onCompute fun d => d.join side.val r
    let s2 := if r.first then s1.onImdal fun m => { m with passNs := w32 (s.time.inPeriod - 220000) } else s1
    match s2.mix.compute with
    | some d => .next (if (r.first && 2 ≤ d.stage) || 4 ≤ d.stage then s2.passOn false d other r else s2)
    | none => .next s2
  else if tagged s.mix.emit then
    let s1 := s.onEmit fun d => if d.lateFor r.ringNo.val then d.join side.val r else d
    match s1.mix.emit with
    | some d =>
      if d.lateFor r.ringNo.val then .next (if d.latePlaced || !d.late then s1.passOn true d other r else s1)
      else .next ((s1.sendOwn true d ((d.firsts.lookup r.ringNo.val).toList)).corrBoth true false)
    | none => .next s1
  else .next s

/-! ### The decision (R23, R27, R121, R126) -/

/-- First-pass records of a shared group that this device awaits have arrived. -/
def State.heard (s : State) (d : DataSet) (ringNo : Nat) : Bool :=
  (upto 2).all fun side => !s.awaits side || (d.recFrom side ringNo true).isSome

/-- A contribution to a group is missing (R27): a talker's tile is still to redo this data, the tile of the decision has lost
it, or a record of the ring has not arrived. What is lost for good is not awaited (log 41). -/
def State.groupMissing (s : State) (d : DataSet) (g : Nat) : Bool :=
  d.ownMissing g || (match d.grpTile.lookup g with | none => false | some t => d.awaited.contains t) ||
    ((d.grp g).state = .shared && s.inRounds && !s.heard d (d.grp g).ringNo.toNat)

/-- The decision of a group is lost for good with its tile (R29): nothing of the group can be formed. -/
def DataSet.grpDead (d : DataSet) (g : Nat) : Bool := match d.grpTile.lookup g with | none => false | some t => d.dead.contains t

/-- A Leg's work for a data Period exists: its unit had a tile, and the tile's results stand. -/
def DataSet.legDone (d : DataSet) (l : Nat) : Bool :=
  match d.legTile.lookup l with | none => false | some t => !d.lost.contains t

/-- Groups of a data Period. -/
def DataSet.groupList (d : DataSet) : List Nat :=
  (d.cfg.groups.filter fun g => d.cfg.inUse g.1).map (·.1) ++ (d.prev.groups.filter fun g => d.closing g.1).map (·.1)

/-- Remote part of a group's sum: both passes, both sides (R332). -/
def DataSet.ringSum (d : DataSet) (ringNo : Nat) : List Int :=
  (d.recs.filter fun r => r.2.ringNo.val = ringNo).foldl (fun a r => addSum a r.2.sums) zeroSum

/-- The decision of one group (R121): the data with its talkers, and the admission state that follows. -/
def State.decideGroup (s : State) (emit : Bool) (d : DataSet) (g : Nat) : State :=
  let c := d.grp g
  let on := fun (s : State) (f : DataSet → DataSet) => if emit then s.onEmit f else s.onCompute f
  if c.kind ≠ 0 then on s fun d => { d with decided := tins g [] d.decided }
  else
    let adm := tget [] s.mix.adm g
    let own := s.candsOf d g
    let ring := if c.state = .shared && s.inRounds then
        (d.recs.filter fun r => r.2.first && r.2.ringNo.val = c.ringNo.toNat).flatMap fun r => r.2.cands.map ofRingCand
      else []
    let all := decide121 c (own ++ ring)
    let dec := decidedOf all adm
    let s := s.onMix fun m => { m with
      adm := tput [] g ((dec.filter (·.now)).map fun t => { leg := t.leg, admitted := true, hold := t.hold }) m.adm
      ringAdmitted := tput 0 g ((all.filter (·.now)).length) m.ringAdmitted }
    let prov := d.provisional own adm g
    on s fun d => { d with decided := tins g dec d.decided, sums := tins g prov d.sums }

/-- IFB groups whose interrupt is active in a data Period (R126): the interrupt group has an admitted talker, ring-wide. -/
def State.interruptsNow (s : State) (d : DataSet) : List Nat :=
  d.groupList.filter fun g => (d.grp g).kind = 2 && d.cfg.inUse (intGroup (d.grp g)) &&
    decide (0 < tget 0 s.mix.ringAdmitted (intGroup (d.grp g)))

/-- The decisions of a data Period that can be taken; the data goes through a late round where a contribution is missing. An IFB that is opened,
or given another interrupt group, keeps its own interrupt state of the Period before: one opened anew ramps from 1.0 (DESIGN CHOICE,
log 133). -/
def State.decideData (s : State) (emit : Bool) (d : DataSet) : State :=
  let todo := d.groupList.filter fun g => (d.decided.lookup g).isNone
  let ready := todo.filter fun g => !s.groupMissing d g && !d.grpDead g
  let s := ready.foldl (fun s g => s.decideGroup emit d g) s
  let now := s.interruptsNow d
  let prev := s.mix.intActive
  let f := fun (d : DataSet) => { d with intNow := now, intPrev := if d.stage ≤ 2 then prev else d.intPrev }
  let s := if emit then s.onEmit f else s.onCompute f
  s.onMix fun m => { m with
    intActive := now
    adm := if emit then m.adm else m.adm.filter fun e => d.live e.1 && (d.grp e.1).kind = 0
    ringAdmitted := if emit then m.ringAdmitted else m.ringAdmitted.filter fun e => d.live e.1 && (d.grp e.1).kind = 0 }

/-! ### The late round (R27, R334) -/

/-- Own correction records are formed for the Conference groups that have been decided (R332, R333), and the correction pass runs. -/
def State.sendCorrections (s : State) (emit : Bool) (d : DataSet) : State :=
  let rs := (d.sharedGroups.filter fun g => (d.grp g.1).kind = 0 && (d.decided.lookup g.1).isSome && (d.corrs.lookup g.2).isNone &&
    (!emit || d.lateGrps.contains g.1)).map fun g => d.correction g.1 g.2
  let rs := rs.filter fun r => r.sums.any fun v => decide (v ≠ 0)
  (s.onData emit fun d => { d with corrs := rs.foldl (fun t r => tins r.ringNo.val r t) d.corrs }).corrBoth emit false

/-- Contributions placed in the late round (R27): what of this device is complete. -/
def State.latePlace (s : State) : State :=
  match s.mix.emit with
  | none => s
  | some d => s.firstPass true d

/-- The late round on the data in its emit Period: contributions placed, the decisions that had waited, and their corrections. A device whose
own totals are complete takes part where the late round is called for. -/
def State.lateRoundRun (s : State) (called : Bool) : State :=
  match s.mix.emit with
  | none => s
  | some d =>
    let later := match s.mix.compute with | some c => decide (3 ≤ c.stage) | none => false
    if !(d.late || called) || 6 ≤ d.stage || later then s
    else
      let s := s.latePlace
      let s := match s.mix.emit with
        | some d => if d.late then s.decideData true d else s
        | none => s
      match s.mix.emit with
      | some d => s.sendCorrections true d
      | none => s

/-- The data moves to its emit Period (R20, R27): the groups that go through the late round wait for its records. -/
def DataSet.toEmit (d : DataSet) : DataSet :=
  { d with
    recs := d.recs.filter fun r => !(d.late && d.lateFor r.2.ringNo.val)
    corrs := d.corrs.filter fun r => !(d.late && d.lateFor r.1)
    firstOut := []
    corrOut := [] }

/-- LATE_ROUND (R27, R334): the final sums are held by P+300 µs of the emit Period. -/
def execLateRound (s : State) : Host.Outcome State Fault Refusal := .next (s.lateRoundRun true)

/-- At the late-round cut-off, P+200 µs, what is complete of late data is placed (R27). -/
def State.latePlaceDue (s : State) : State :=
  match s.mix.emit with
  | some d => if d.late && decide (d.stage < 6) then s.latePlace else s
  | none => s

def execPartialSumCutoff (missing : List TileIx) (s : State) : Host.Outcome State Fault Refusal :=
  .next (s.partialSumCutoff (missing.map (·.val))).latePlaceDue

/-- ADMISSION_DECISION (R23, R27): at P+300 µs the totals are held and every group without a missing contribution is decided. -/
def State.admissionDecision (s : State) : State :=
  let s := s.at_ 300000
  match s.mix.compute with
  | none => s
  | some d =>
    if d.stage ≠ 2 then s
    else
      let s := (s.lateRoundRun false).corrBoth true true
      let late := d.groupList.filter fun g => s.groupMissing d g
      let missing := !d.awaited.isEmpty || !late.isEmpty
      let s := s.decideData false d
      let s := s.onCompute fun d => { d with stage := 3, late := missing, lateGrps := late }
      if missing then (s.count 217).onImdal fun m => { m with lates := m.lates + 1 } else s

def execAdmissionDecision (s : State) : Host.Outcome State Fault Refusal := .next s.admissionDecision

/-- CORRECTION_PASS (R332, R333): at P+305 µs the correction records leave, for the groups with a delta. -/
def State.correctionPass (s : State) : State :=
  let s := s.at_ 305000
  match s.mix.compute with
  | none => s
  | some d =>
    if d.stage ≠ 3 then s
    else
      (s.onCompute fun d => { d with stage := 4 }).sendCorrections false d

def execCorrectionPass (s : State) : Host.Outcome State Fault Refusal := .next s.correctionPass

/-! ### Outputs (R127 to R130) and write-back (R25) -/

/-- Final sums of the decided groups (R124, R332). -/
def DataSet.finalSums (d : DataSet) : DataSet :=
  { d with sums := (d.groupList.filter fun g => (d.decided.lookup g).isSome).map fun g =>
      (g, if (d.grp g).state = .shared then addSum (d.localSum g) (d.ringSum (d.grp g).ringNo.toNat) else d.localSum g) }

/-- Groups that a Leg's output needs. -/
def DataSet.needs (d : DataSet) (l : Nat) : List Nat :=
  ((d.listenUses l).flatMap fun us => us.map (·.group)).flatMap fun g =>
    if (d.grp g).kind = 2 then [g, intGroup (d.grp g)] else [g]

/-- A Leg's output can be formed: its tile's results stand and every group it listens to is decided. -/
def DataSet.canForm (d : DataSet) (l : Nat) : Bool :=
  d.legDone l && (d.needs l).all fun g => !d.live g || (d.decided.lookup g).isSome

/-- Outputs formed for the Legs that have none yet and whose output can be formed, with the output line (R127, R373). -/
def State.formOutputs (s : State) (emit : Bool) (d : DataSet) : State :=
  let f := d.finalSums
  let outs := (d.legs.filter fun l => (d.outs.lookup l).isNone && d.canForm l).filterMap fun l => (f.legOut l).map fun o => (l, o)
  let s := outs.foldl (fun s o => s.onMix fun m => { m with
    outLine := tput [] o.1 ((d.ord, o.2.1) :: (tget [] m.outLine o.1).filter fun e => e.1 % 258 ≠ d.ord % 258) m.outLine }) s
  let s := outs.foldl (fun s o => s.clearBad (slotBase o.1 + 0x1C000 + 96 * (d.ord % 258)) 96) s
  let put := fun (d : DataSet) => { d with sums := f.sums, outs := outs.foldl (fun t o => tins o.1 o.2.2 t) d.outs }
  if emit then s.onEmit put else s.onCompute put

/-- The view of a Leg for LEG_GET (R107, R154). A talk key at mute on a Program or IFB group is shown as not speaking (DESIGN CHOICE,
log 133). -/
def DataSet.legView (d : DataSet) (l : Nat) : LegView :=
  let conf := fun (i : Nat) => (d.grp (keyGroup ((d.cfg.legCfg l).talkKey i))).kind = 0
  let dec := fun (i : Nat) => (tget [] d.decided (keyGroup ((d.cfg.legCfg l).talkKey i))).find? fun t => t.leg = l && t.slot = i
  let bits := fun (p : Nat → Bool) => (upto 4).foldl (fun a i => if p i then a + 2 ^ i else a) 0
  { admitted := BitVec.ofNat 4 (bits fun i => conf i && (match dec i with | some t => t.now | none => false))
    speaking := BitVec.ofNat 4 (bits fun i => d.keyNew true l ((d.cfg.legCfg l).talkKey i) &&
      (if conf i then (match dec i with | some t => t.speak | none => false) else decide (96 ≤ d.scoreOf l)))
    callIn := d.callIn.contains l
    callOut := d.callOut l
    score := BitVec.ofNat 8 (d.scoreOf l) }

/-- The views that LEG_GET and GRP_GET show of the latest data Period (R107, R118). -/
def State.showData (s : State) (d : DataSet) : State :=
  s.onMix fun m => { m with
    views := d.legs.foldl (fun t l => tput {} l (d.legView l) t) []
    callGroups := d.groupList.filter fun g => decide (0 < d.calls g) }

/-- A write-back of n filter records of a slot, with its history and control records, and with a checkpoint. -/
def SlotUse.note (n : Nat) (cp : Bool) (u : SlotUse) : SlotUse :=
  { w := max u.w n, check := if cp then max u.check n else u.check, hist := true, ctl := true, cctl := u.cctl || cp }

/-- Write-back of one Leg's states (R25): its records are whole again. -/
def State.writeBack (s : State) (emit : Bool) (d : DataSet) (l : Nat) : State :=
  match d.phaseA.lookup l with
  | none => s
  | some a =>
    let s := ((s.onEchoL l fun _ => a.echo).onVadL l fun _ => a.vad).onHumL l fun _ => a.hum
    let b := slotBase l
    let cp := a.echo.check.isSome && a.echo.checkAge = 0
    let s := if a.echo.state = .off then s else s.onMem fun m => { m with slots := tmod {} l (SlotUse.note a.echo.w.length cp) m.slots }
    let s := if a.echo.state = .off then s else
      ((((s.clearBad b (72 * a.echo.w.length)).clearBad (b + 0x1B000) 0xC0).clearBad (b + 0x12000 + 72 * (d.ord % 512)) 72))
    let s := if cp then (s.clearBad (b + 0x9000) (72 * a.echo.w.length)).clearBad (b + 0x1B100) 0xC0 else s
    let f := fun (d : DataSet) => { d with back := l :: d.back }
    if emit then s.onEmit f else s.onCompute f

/-- Write-back of every Leg whose tile's results stand and that is still held back. -/
def State.writeBackAll (s : State) (emit : Bool) (d : DataSet) : State :=
  (d.phaseA.filter fun a => !d.back.contains a.1 && (d.legDone a.1 || !(d.cfg.legCfg a.1).bound)).foldl (fun s a => s.writeBack emit d a.1) s

/-- PRIMARY_DEADLINE (R23, R26, R353): at P+480 µs a tile on the normal schedule that has not finished has failed; the others
have written back, and their outputs stand. -/
def State.primaryDeadline (s : State) (unfinished : List Nat) : State :=
  let s := s.at_ 480000
  match s.mix.compute with
  | none => s
  | some d0 =>
    if d0.stage < 4 || 5 ≤ d0.stage then s
    else
      let s := s.corrBoth false true
      let s := (tilesIn unfinished).foldl (fun s t =>
        if (s.tile t).state ≠ .working then s
        else if (s.tile t).catching then s.onCompute (·.miss t)
        else s.failTile t 1) s
      match s.mix.compute with
      | none => s
      | some d =>
        let s := (s.formOutputs false d).writeBackAll false d
        let s := s.onCompute fun d => { d with stage := 5 }
        if d.late then s else match s.mix.compute with | some d => s.showData d | none => s

def execPrimaryDeadline (unfinished : List TileIx) (s : State) : Host.Outcome State Fault Refusal :=
  .next (s.primaryDeadline (unfinished.map (·.val)))

/-- Groups whose contributions are complete by now are placed in the round in progress (R23, R27). -/
def State.firstRest (s : State) : State :=
  match s.mix.compute with
  | some d => if d.stage = 2 then s.firstPass false d else s
  | none => s

/-- TILE_WORK_COMPLETE (R25, R26): a tile finishes its work: the oldest data that it is still redoing, with an entry of the
Substitution log for the failed tile, or its work of the data in the compute Period. -/
def execTileWorkComplete (t : TileIx) (s : State) : Host.Outcome State Fault Refusal :=
  if (s.tile t).state ≠ .working then .next s
  else
    let older := s.redoing t
    match s.mix.emit, s.mix.compute with
    | some d, _ =>
      if !older.isEmpty then
        let s := s.onEmit fun d => { d with
          lost := d.lost.filter fun x => !older.contains x
          summed := d.summed.filter fun x => !older.contains x }
        .next ((older.filter fun x => x ≠ t.val).foldl
          (fun s x => s.substLog d.pidx x t (s.tile x).cause.toNat (if d.late then 1 else 0) 0) s)
      else computeDone s
    | none, _ => computeDone s
where
  computeDone (s : State) : Host.Outcome State Fault Refusal :=
    match s.mix.compute with
    | none => .next s
    | some d =>
      let mine := d.lost.filter fun x => !d.dead.contains x && (x = t.val || s.tiles.redo.lookup x = some t.val)
      let s := s.onCompute fun d => { d with
        lost := d.lost.filter fun x => !mine.contains x
        summed := d.summed.filter fun x => !mine.contains x
        done := if d.done.contains t.val then d.done else t.val :: d.done }
      .next ((mine.filter fun x => x ≠ t.val).foldl
        (fun s x => s.substLog d.pidx x t (s.tile x).cause.toNat (if d.late then 1 else 0) 0) s).firstRest

/-! ### The emit cut-off (R23, R29) -/

/-- A concealed output (R29): the previous Period faded to silence; call flags of a network packet are held. -/
def concealOut (net : Bool) (prev : Option LegOut) : LegOut :=
  let y := match prev with | some o => o.y | none => zero24
  let z := if net then zero24 else (upto 24).map fun k => f32Mul (y.getD k 0#32) (wOut k)
  { y := z, s24 := z.map s24OfF32, callOut := net && (match prev with | some o => o.callOut | none => false), concealed := true }

/-- Outputs as a removal leaves them (R420): faded over the Period from B1, silent from B2. -/
def State.removalOut (s : State) (o : LegOut) : LegOut :=
  match s.boot.b1 with
  | none => o
  | some b =>
    if s.time.ord + 1 < b then o
    else if s.time.ord + 1 = b then
      let z := (upto 24).map fun k => f32Mul (o.y.getD k 0#32) (wOut k)
      { o with y := z, s24 := z.map s24OfF32 }
    else { o with y := zero24, s24 := List.replicate 24 0, callOut := false }

/-- Legs of a data Period that have an output. -/
def DataSet.outLegs (d : DataSet) : List Nat :=
  d.legs.filter d.plays

/-- The results of a data Period are handed over (R30, R36): the hub is there to hand them over, and they carry the expected tag. -/
def State.handsOver (s : State) (d : DataSet) : Bool := s.domOn dHub && s.delivered 2 d

/-- The output of a Leg cannot leave though its results are not lost: no tile had room for its unit (R361), its emit buffer reads uncorrectable (R376),
or the results are not handed over (R30). -/
def State.silenced (s : State) (d : DataSet) (l : Nat) : Bool :=
  (d.legTile.lookup l).isNone || (!d.legDead l && (!s.handsOver d || d.spoilt.contains l))

/-- Such a data Period counts once for each tile whose work it was, and once for the units without a tile (R29). -/
def State.countSilent (s : State) (d : DataSet) : State :=
  let n := (((d.outLegs.filter (s.silenced d)).map fun l => d.legTile.lookup l).eraseDups).length
  if n = 0 then s else (s.countLost n).raise irqSubst

/-- EMIT_CUTOFF (R23, R26, R29): at P+460 µs of the emit Period what is formed is handed over and the rest is concealed; a
Substitute whose redo is still missing has failed. -/
def State.emitCutoff (s : State) : State :=
  let s := s.at_ 460000
  let s := s.lateRoundRun false
  match s.mix.emit with
  | none => s
  | some d0 =>
    if 6 ≤ d0.stage then s
    else
      let s := s.forAll [12, 13, 14, 15] fun s p => s.playback p 0
      let late := ((d0.lost.filter fun x => !d0.dead.contains x).filterMap fun x => if (s.tile x).catching then some x else s.tiles.redo.lookup x)
      let s := (tilesIn late).foldl (fun s u => s.failTile u 1) s
      match s.mix.emit with
      | none => s
      | some d =>
        let s := (s.formOutputs true d).writeBackAll true d
        match s.mix.emit with
        | none => s
        | some d =>
          let s := s.countSilent d
          let outs := d.outLegs.map fun l => (l, s.removalOut (match (if s.handsOver d && !d.spoilt.contains l then d.outs.lookup l else none) with
            | some o => o
            | none => concealOut (isNetLeg l) (s.mix.lastOut.lookup l)))
          let d := { d with outs := outs.foldl (fun t o => tins o.1 o.2 t) [], stage := 6 }
          let s := (s.onEmit fun _ => d).formPackets d
          let s := s.onMix fun m => { m with lastOut := d.outs }
          if d.late then s.showData d else s

def execEmitCutoff (s : State) : Host.Outcome State Fault Refusal := .next s.emitCutoff

/-- The fixed instants of the Period in progress that no command has brought, in their order (log 40): the device keeps its
schedule of R23 by itself. -/
def State.finishPeriod (s : State) : State :=
  let s := (s.partialSumCutoff []).latePlaceDue
  let s := s.roundStart
  let s := s.admissionDecision
  let s := s.correctionPass
  let s := s.emitCutoff
  s.primaryDeadline []

end Sys2Proof.Machine
end

