-- ==== Sys2Proof/Machine/TimeFam.lean ====
section
/-! DEFINITION. The timebase's references, discipline, captures and start trigger (R78 to R96). -/

namespace Sys2Proof.Machine

/-! ### Increment (R72) -/

def incrMin : Nat := 0x27F5C290
def incrMax : Nat := 0x280A3D70
def incrNominal : Word := 0x28000000#32

/-- A value of TIME_INCR within its range (R72). -/
def incrClamp (n : Nat) : Word := w32 (clampN incrMin incrMax n)

/-! ### The servo (R84, R85, R88, R90) -/

/-- Boundary count of the first boundary at least 20 µs after now (R88). -/
def State.jumpOrd (s : State) : Nat := if s.time.inPeriod ≤ 480000 then s.time.ord + 1 else s.time.ord + 2

/-- Periods of the jump that an offset calls for (R88). -/
def jumpOf (theta : Int) : Int := if 250000 ≤ theta.natAbs then divRha theta 500000 else 0

/-- Limits of TIME_INCR within ±500 ppm of a rate. -/
def slewMin (base : Word) : Nat := max incrMin (base.toNat - base.toNat * 5 / 10000)
def slewMax (base : Word) : Nat := min incrMax (base.toNat + base.toNat * 5 / 10000)

/-- TIME_INCR of a slew (R88): free, within ±500 ppm of the rate about which the servo slews, and faster than that rate where the
timebase is behind the reference, slower where it is ahead of it. -/
def slewIncr (base : Word) (rest : Int) (free : Nat) : Word :=
  w32 (if 0 < rest then min (slewMax base) (max (base.toNat + 1) free) else max (slewMin base) (min (base.toNat - 1) free))

/-- The servo at an offset (R88): a jump decided, the rest slewed at a free rate about a free reference rate. While a
decided jump waits for its boundary, the offset is taken as it will stand after that jump; one that calls for a further jump makes no
correction (DESIGN CHOICE, log 123: R88 does not say what a second decision does). -/
def State.correct (s : State) (theta : Int) : State :=
  let waiting := s.time.jumpDue.isSome
  let pend : Int := match s.time.jumpDue with | some j => j.1 | none => 0
  let eff := theta - pend * 500000
  let j := jumpOf eff
  if waiting && j ≠ 0 then s
  else
    let rest := eff - j * 500000
    let base := incrClamp (Config.servoRate s.draw)
    let rate := if rest = 0 then base else slewIncr base rest (Config.slewRate (s.draw + 1))
    (s.onDraw (· + 2)).onTime fun t => { t with
      jumpDue := if j ≠ 0 then some (j, s.jumpOrd) else t.jumpDue
      residual := rest
      slewed := 0
      slew := decide (rest ≠ 0)
      slewBase := base
      incr := rate
      taiDue := t.taiDue || (t.refAct = 1 && !t.tai) }

/-- A measurement against the reference in use (R84, R85): OFFSET, the run of good measurements, the run of bad ones while LOCKED,
then the correction. -/
def State.measure (s : State) (theta bound : Int) : State :=
  let good := decide ((theta.natAbs : Int) ≤ bound)
  let bad := if s.time.state = 0 && 10000 < theta.natAbs then s.time.badRun + 1 else 0
  let s := s.onTime fun t => { t with
    offset := w32 (twos 32 (clampI (-(2 ^ 31)) (2 ^ 31 - 1) theta))
    goodFrom := if good then (match t.goodFrom with | some g => some g | none => some t.mono.toNat) else none
    badRun := bad }
  let sl := s.time.slew
  let s := s.correct theta
  let s := if s.time.slew = sl then s else s.raise irqTime
  if s.time.state = 0 && 8 ≤ bad then (s.onTime fun t => { t with badRun := 0 }).timeState 1 else s

/-- The Period that closes enters the mean behind HO_RATE while LOCKED (R84). -/
def Time.hoPush (t : Time) : Time :=
  let h := if t.state = 0 then ((t.ticks, t.incrSum) :: t.hoHist).take 1024 else t.hoHist
  let n : Nat := h.foldl (fun a x => a + x.1) 0
  let m : Nat := h.foldl (fun a x => a + x.2) 0
  { t with
    hoHist := h
    hoRate := if t.state = 0 && n ≠ 0 then w32 (divRne (m : Int) n).toNat else t.hoRate
    ticks := 0
    incrSum := 0 }

/-- PPS_OUT is let go at a boundary (R93): from the instant of the boundary, so that a second that begins there has its pulse. -/
def Time.ppsFree (t : Time) : Time := if t.ppsHeld then { t with ppsHeld := false, ppsFrom := t.total / 500000 * 500000 } else t

/-- The jump whose boundary this is (R88, R90): it is applied after the boundary's count has gone up. PPS_OUT is held low in its Period
(R93). -/
def State.applyJump (s : State) : State :=
  match s.time.jumpDue with
  | none => s.onTime Time.ppsFree
  | some (j, o) =>
    if o ≠ s.time.ord then s.onTime Time.ppsFree
    else
      let total := ((s.time.total : Int) + j * 500000) % (2 ^ 48 * 1000000000 : Int)
      let n := total.toNat
      let s := s.onTime fun t => { t with
        jumpDue := none
        sec := BitVec.ofNat 48 (n / 1000000000)
        ns := n % 1000000000
        jumps := satAdd t.jumps 1
        lastJump := BitVec.ofNat 64 (twos 64 j)
        ppsHeld := true }
      let s := s.onTime fun t => { t with jumpPidx := t.pidxOf, pidx := t.pidxOf }
      let s := if s.time.state = 0 then s.onTime fun t => { t with state := 1, hoFrom := t.mono.toNat } else s
      (s.count 224).timeEvent true

/-- Minutes in HOLDOVER, saturating; zero outside it (R82). -/
def State.hoAge (s : State) : Nat := if s.time.state = 1 then min 255 ((s.monoNs - s.time.hoFrom) / 60000000000) else 0

/-- A minute more in HOLDOVER changes TIME_STAT (R67, R82): TIME is raised at the boundary at which HO_AGE first stands so. -/
def State.ageBoundary (s : State) : State :=
  if s.hoAge = s.time.ageShown then s
  else
    let s' := s.onTime fun t => { t with ageShown := s.hoAge }
    if s.hoAge = 0 then s' else s'.raise irqTime

/-- WCLK_IN is lost (R86, R87): its run of good edges starts again; a loss of what was qualified is a timebase event. -/
def State.wclkLost (s : State) : State :=
  let s1 := s.onTime fun t => { t with wclkFrom := none, wclkOk := false }
  if s.time.wclkOk then (s1.raise irqTime).refUpdate else s1

/-- The frequency of WCLK_IN is within 0.1 % of 48,000 Hz (R86, R87), in mHz. -/
def wclkFreqOk (mHz : Word) : Bool := decide (47952000 ≤ mHz.toNat) && decide (mHz.toNat ≤ 48048000)

/-- The frequency of WCLK_IN measured in the Period that closes (R86, R87): WCLK_FREQ reports it, qualified or not; out of range it is a
loss. -/
def State.wclkMeasured (s : State) (mHz : Word) : State :=
  let s := s.onTime fun t => { t with
    wclkFreq := mHz, wclkFrom := match t.wclkFrom with | some m => some m | none => some t.mono.toNat }
  if wclkFreqOk mHz then s else s.wclkLost

/-- Changes of the timebase at a boundary: the return to REFCLK (R91), TAI_VALID (R90), HO_AGE. -/
def State.timeBoundary (s : State) : State :=
  let s := s.ageBoundary
  let s := if s.time.refclkBack then
      (s.onTime fun t => { t with
        refclkBack := false
        refclkOk := true
        ppsFrom := t.total / 500000 * 500000
        incr := if t.lockedOnce then t.hoRate else incrNominal }).timeState (if s.time.lockedOnce then 1 else 3)
    else s
  if s.time.taiDue && s.time.jumpDue.isNone then (s.onTime fun t => { t with taiDue := false, tai := true }).raise irqTime else s

/-! ### Rows of references (R84 to R91) -/

/-- REFCLK_LOSS (R91): UNTRUSTED at the nominal rate; a slew ends. -/
def execRefclkLoss (s : State) : Host.Outcome State Fault Refusal :=
  if s.time.state = 2 then .next (s.onTime fun t => { t with refclkBack := false })
  else .next ((s.onTime fun t => { t.endSlew incrNominal with refclkOk := false, refclkBack := false, goodFrom := none, badRun := 0 }).timeState 2)

/-- REFCLK_RESTORED (R91): AON returns to REFCLK at the next boundary. -/
def execRefclkRestored (s : State) : Host.Outcome State Fault Refusal :=
  .next (s.onTime fun t => { t with refclkBack := t.state = 2 })

/-- PTP runs on a port for the servo: the ordinary clock's active port, or the SLAVE port of a boundary clock (R274). -/
def State.ptpServes (s : State) (p : Nat) : Bool :=
  let n := s.netP p
  if n.ptpRole = 1 then s.ptpPort = some p else n.ptpRole = 2 && n.ptpSlave

/-- A boundary clock's port is to be SLAVE by the grandmaster that it hears: the best master clock algorithm, which IEEE 1588 gives and the spec
does not print, prefers it to the one of the other port (log 124). -/
def State.bmcWins (s : State) (p gm : Nat) : Bool :=
  let o := s.netP (otherPort p)
  match o.ptpGm with
  | some h => !o.ptpSlave || Config.bmcBetter gm h
  | none => true

/-- An Announce of a grandmaster (R274): qualified, the port follows it; the better of a boundary clock's ports becomes SLAVE and the other is
not. -/
def State.ptpAnnounce (s : State) (p gm : Nat) (ok : Bool) : State :=
  let serves := s.ptpServes p
  let bc := decide ((s.netP p).ptpRole = 2) && s.bmcWins p gm
  if ok then
    let s := s.onNetP p fun n => { n with ptpGm := some gm, ptpSlave := bc }
    let s := if bc then s.onNetP (otherPort p) fun n => { n with ptpSlave := false } else s
    if serves || bc then (s.onTime fun t => { t with ptpQual := true, ptpGm := gm }).refUpdate else s
  else
    let s := s.onNetP p fun n => { n with ptpGm := none, ptpSlave := false }
    if serves then (s.onTime fun t => { t with ptpQual := false }).refUpdate else s

/-- PTP_MESSAGE_RECEIVED (R274). -/
def execPtpMessageReceived (p : NetIx) (m : PtpMsg) (s : State) : Host.Outcome State Fault Refusal :=
  let n := s.netP p
  if !s.domOn dMgmt || n.state ≠ .up || n.ptpRole = 0 then .next s
  else match m with
    | .announce gm ok => .next (s.ptpAnnounce p gm ok)
    | .sync off gm =>
      if !s.ptpServes p then .next (s.onNetP p fun n => { n with ptpGm := some gm })
      else if s.time.refAct = 1 && s.time.ptpGm = gm && s.time.state ≠ 2 then .next (s.measure off 1000)
      else .next s
    | .delayReq => .next (if s.ptpMaster p then s.ptpPut p 4 else s)
    | .delayResp => .next s
    | .peerDelay => .next s

/-- A slew has removed its residual (R88). -/
def Time.slewDone (t : Time) : Bool := t.slew && decide (t.residual.natAbs * 2 ^ 24 ≤ t.slewed.natAbs)

/-- SLEW_COMPLETE (R88): once the residual is removed, SLEW clears and TIME_INCR is the rate about which the servo slewed. -/
def execSlewComplete (s : State) : Host.Outcome State Fault Refusal :=
  if s.time.slewDone then .next ((s.onTime fun t => t.endSlew t.slewBase).raise irqTime) else .next s

/-- Ring time is lost (R84, R86, R329): HOLDOVER at HO_RATE, from FREE too; UNTRUSTED stays. A slew that ends changes TIME_STAT (R67). The
Homeroom's last word counts no more for the lock criterion (R85). -/
def State.ringTimeLost (s : State) : State :=
  let s := s.onImdal fun m => { m with heard := none, aligned := false }
  if s.untrusted then s
  else
    let s1 := s.onTime (Time.endSlew s.time.hoRate)
    if s.time.state ≠ 1 then s1.timeState 1 else if s.time.slew then s1.raise irqTime else s1

/-- REFERENCE_LOSS (R86): the reference is no longer qualified; loss of PTP on the active port makes the standby active (R274). -/
def execReferenceLoss (r : Ref) (s : State) : Host.Outcome State Fault Refusal :=
  match r with
  | .none => .next s
  | .ptp =>
    let s1 := match s.ptpPort with
      | some p =>
        if (s.netP 0).ptpRole = 1 && (s.netP 1).ptpRole = 1 then (s.onNetP p fun n => { n with ptpGm := none }).ptpSwap p
        else s.onTime fun t => { t with ptpQual := false }
      | none => s.onTime fun t => { t with ptpQual := false }
    .next s1.refUpdate
  | .wclk => .next ((s.onTime fun t => { t with wclkFreq := 0 }).wclkLost)
  | .imdal => .next (if s.time.refAct = 3 then s.ringTimeLost else s)

/-- The lock criterion of R85 is met; that of the ring counts the time words of the Homeroom that the device follows. -/
def State.lockMet (s : State) : Bool :=
  let held := fun (ns : Nat) => match s.time.goodFrom with | some g => decide (g + ns ≤ s.time.mono.toNat) | none => false
  match s.time.refAct.toNat with
  | 1 => held 8000000000
  | 2 => held 1000000000
  | 3 => s.imdal.aligned && s.imdal.hrState = 0 && decide (s.imdal.offsetPs.natAbs ≤ 2000)
  | _ => false

/-- LOCK_ACHIEVED (R84, R85): FREE or HOLDOVER goes to LOCKED. -/
def execLockAchieved (s : State) : Host.Outcome State Fault Refusal :=
  if (s.time.state = 1 || s.time.state = 3) && s.lockMet then
    .next ((s.onTime fun t => { t with lockedOnce := true, hoHist := [], badRun := 0 }).timeState 0)
  else .next s

/-- The edges of WCLK_IN have been good for 1 s (R87). -/
def Time.wclkGood (t : Time) : Bool :=
  match t.wclkFrom with
  | some m => decide (m + 1000000000 ≤ t.mono.toNat)
  | none => false

/-- WCLK_QUALIFIED (R86, R87): the measured frequency; within range it qualifies where every edge of the last second was good, out of
range it disqualifies. -/
def execWclkQualified (mHz : Word) (s : State) : Host.Outcome State Fault Refusal :=
  if !wclkFreqOk mHz then .next ((s.onTime fun t => { t with wclkFreq := mHz }).wclkLost)
  else
    let new := !s.time.wclkOk && s.time.wclkGood
    let s1 := s.onTime fun t => { t with wclkFreq := mHz, wclkOk := t.wclkOk || new }
    .next (if new then (s1.raise irqTime).refUpdate else s1)

/-- WCLK_GLITCH (R86): the word clock is lost at that edge. -/
def execWclkGlitch (s : State) : Host.Outcome State Fault Refusal := .next s.wclkLost

/-- The phase error of an edge against the nearest 48 kHz sample instant (R85): at most half a sample period, to the nanosecond. -/
def edgeError (err : Int) : Int := err - divRha (divRha (err * 48) 1000000 * 1000000) 48

/-- WCLK_IN_EDGE (R85, R87): an edge at its expected instant belongs to the run of good ones; while WCLK_IN is in use, its phase is
measured. An edge away from its expected instant is WCLK_GLITCH's. -/
def execWclkInEdge (err : Int) (s : State) : Host.Outcome State Fault Refusal :=
  let s := s.onTime fun t => { t with wclkFrom := match t.wclkFrom with | some m => some m | none => some t.mono.toNat }
  if s.time.wclkOk && s.time.refAct = 2 && s.time.state ≠ 2 then .next (s.measure (edgeError err) 100) else .next s

/-! ### Captures (R78, R79) -/

/-- The timebase at ns counted in full goes to the capture registers. -/
def Time.capture (n : Nat) (t : Time) : Time :=
  { t with
    capNs := BitVec.ofNat 30 (n % 1000000000)
    capSec := BitVec.ofNat 48 (n / 1000000000)
    capValid := true
    capUntr := t.state = 2 }

/-- The code of TRIG for a pin (R79). -/
def capCode : CapPin → BitVec 2
  | .ppsIn => 1
  | .startIn => 2
  | .wclkIn => 3

/-- PIN_CAPTURE (R79): an armed pin captures within ±10 ns, ARM clears and TIME is raised. -/
def execPinCapture (pin : CapPin) (s : State) : Host.Outcome State Fault Refusal :=
  if s.time.arm && s.time.trigSel = capCode pin then
    let q := s.stampIn 10
    .next ((q.2.onTime fun t => { t.capture q.1 with arm := false }).raise irqTime)
  else .next s

/-! ### Start trigger (R94 to R96) -/

/-- The first 48 kHz sample instant at least 100 µs from now (R94): boundary count and sample. -/
def State.startPoint (s : State) : Nat × Nat :=
  let k := ceilDiv ((s.time.inPeriod + 100000) * 24) 500000
  (s.time.ord + k / 24, k % 24)

/-- The ports of a trigger start in the Period in progress, from sample k on (R238). Where the emit cut-off of the Period has passed, the frames
of the next one are read at once (R243). -/
def State.trigPlace (s : State) (t : Trigger) (k : Nat) : State :=
  let cut := decide (460000 ≤ s.time.inPeriod) && (match s.mix.emit with | some d => decide (6 ≤ d.stage) | none => false)
  s.forAll ((portsOf t.ports).filter fun p => (s.dapP p).state = .armed) fun s p =>
    let s := if isPdm p then s.onDapP p (Dap.trigStart p s.time.ord s.pidx k)
      else ((s.onDapP p (Dap.trigStart p s.time.ord s.pidx k)).playback p k).dapOut p
    if cut then s.playback p 0 else s

/-- The armed trigger has its point, in a Period with this boundary count. -/
def State.pointIn (s : State) (ord : Nat) : Option (Trigger × Nat) :=
  match s.time.trig with
  | none => none
  | some t => match t.point with
    | none => none
    | some (o, k) => if o = ord && t.fromOrd ≤ ord then some (t, k) else none

/-- At the boundary that opens the Period of the trigger point, and where that point becomes known within its Period, the ports start. -/
def State.trigBoundary (s : State) : State :=
  match s.pointIn s.time.ord with
  | some (t, k) => s.trigPlace t k
  | none => s

/-- START_IN_EDGE (R94, R95): the armed trigger in START_IN mode takes its point, and forwards it. A second edge before the point is
reached has no effect (DESIGN CHOICE, log 107). -/
def execStartInEdge (s : State) : Host.Outcome State Fault Refusal :=
  match s.time.trig with
  | none => .next s
  | some t =>
    if t.mode = 1 && t.fromOrd ≤ s.time.ord && t.point.isNone then
      let p := s.startPoint
      let s1 := (s.onTime fun x => { x with trig := some { t with point := some p } }).trigBoundary
      .next (if t.fwd then s1.onImdal fun _ => s1.pointPlaced (s.pidxAt p.1) p.2 else s1)
    else .next s

/-- Sample of the Period in progress. -/
def State.sampleNow (s : State) : Nat := s.time.inPeriod * 24 / 500000

/-- A trigger point carried by the ring meets this device's trigger (R95): it arms one in ring mode, or has come too late. A second point replaces
the first (DESIGN CHOICE, log 107). -/
def State.pointHeard (s : State) (pidx : Word) (k : Nat) : State :=
  match s.time.trig with
  | none => s
  | some t =>
    if t.mode ≠ 2 || s.time.ord < t.fromOrd then s
    else if inFuture pidx s.time.pidx then
      s.onTime fun x => { x with trig := some { t with point := some (s.time.ord + (pidx - s.time.pidx).toNat, k) } }
    else if pidx = s.time.pidx && s.sampleNow < k then
      (s.onTime fun x => { x with trig := some { t with point := some (s.time.ord, k) } }).trigBoundary
    else (s.onTime fun x => { x with startMiss := satAdd x.startMiss 1 }).raise irqDap

/-- TRIGGER_POINT_RECEIVED (R94, R95): the point travels on, and meets the trigger. -/
def execTriggerPointReceived (p : PointIn) (k : Fin 24) (s : State) : Host.Outcome State Fault Refusal :=
  .next ((s.pointHeard p.pidx k.val).passPoint p.side p.pidx k.val)

/-- The trigger point (R95, R96): the ports have started, START_OUT goes high, START_PIDX and START_INFO are written, the trigger is
DISARMED. -/
def State.fireTrigger (s : State) (t : Trigger) (k : Nat) : State :=
  let s := (s.at_ (ceilDiv (k * 500000) 24)).trigPlace t k
  s.onTime fun x => { x with
    trig := none
    startPidx := s.pidx
    startSample := BitVec.ofNat 5 k
    startSource := t.mode
    startUntr := x.state = 2
    startFired := satAdd x.startFired 1
    startOut := some (s.pidx, k)
    startMono := some s.monoNs }

/-- A trigger point of the Period in progress is reached before that Period ends. -/
def State.finishTrigger (s : State) : State :=
  match s.pointIn s.time.ord with
  | some (t, k) => s.fireTrigger t k
  | none => s

/-- START_TRIGGER (R95, R96): the trigger point of the Period in progress is reached. -/
def execStartTrigger (s : State) : Host.Outcome State Fault Refusal := .next s.finishTrigger

end Sys2Proof.Machine
end

