-- ==== Sys2Proof/Machine/Imdal.lean ====
section
/-! DEFINITION. The Imdal ring (R317 to R345): links, membership, ring time, seam, segments, forwards. -/

namespace Sys2Proof.Machine

/-! ### Shared parts -/

/-- A ring event (R319, R323, R335): IMDAL; a change of membership or segment also stamps the table and leaves a record of class
0x07 (R342, R431). -/
def State.ringEvent (s : State) : State := s.raise irqImdal
def State.ringChange (s : State) : State := ((s.onImdal fun m => { m with changed := s.pidx }).ringEvent).ringRecord

/-- The lowest index of a set of devices (R327). -/
def lowestOf (b : BitVec 8) : Option (BitVec 3) := ((upto 8).find? fun i => b.getLsbD i).map (BitVec.ofNat 3)

/-- One device as a set. -/
def onlyDev (i : BitVec 3) : BitVec 8 := BitVec.ofNat 8 (2 ^ i.toNat)

/-- The device next to another one on its W side. -/
def westOf (m : Imdal) (h : BitVec 3) : BitVec 3 :=
  if h = m.index then (match m.peerW with | some p => BitVec.ofNat 3 p.val | none => Config.westOf h) else Config.westOf h

/-- Seam of a segment with no link DOWN or unwired between its devices (R330), named by the device whose E port carries it: the link between
the segment's ends, at the device that no other one has at its W port; on a closed ring the link at the Homeroom's W port; none in a
segment of one. -/
def segHome (m : Imdal) (seg : BitVec 8) : Option (BitVec 3) :=
  if popN 8 seg.toNat ≤ 1 then none
  else
    let ds := ((upto 8).filter fun i => seg.getLsbD i).map (BitVec.ofNat 3)
    match ds.find? fun d => ds.all fun h => westOf m h ≠ d with
    | some d => some d
    | none => (lowestOf seg).map (westOf m)

/-- Seam of a segment (R330): a link DOWN or unwired between two of its devices, of this device or as the ring tells; else as above. -/
def segSeam (m : Imdal) (seg : BitVec 8) : Option (BitVec 3) :=
  if popN 8 seg.toNat ≤ 1 then none
  else if m.linkE ≠ .up then some m.index
  else if m.linkW ≠ .up && seg.getLsbD (westOf m m.index).toNat then some (westOf m m.index)
  else if m.broken.isSome then m.broken
  else segHome m seg

/-- A set of devices becomes the segment (R320, R327, R330), at a boundary. -/
def State.setSegment (s : State) (seg : BitVec 8) : State :=
  let was := s.imdal.homeroom
  let s := s.onImdal fun m =>
    let wrapped := m.wrapped && decide (2 ≤ popN 8 seg.toNat) && (m.broken.isSome || m.linkE ≠ .up || m.linkW ≠ .up)
    { m with
      state := .enrolled
      segment := seg
      homeroom := lowestOf seg
      seam := segSeam m seg
      seamHome := segHome m seg
      seamNext := none
      heard := match m.heard with
        | some h => if seg.getLsbD h.toNat || m.reach.getLsbD h.toNat then some h else none
        | none => none
      upFrom := if wrapped then m.upFrom else none
      wrapped := wrapped
      offsetPs := if lowestOf seg = some m.index then 0 else m.offsetPs }
  let s := if was = s.imdal.homeroom then s else s.refUpdate
  s.ringChange

/-- SHARED groups become OPEN with their settings (R117, R325). -/
def State.unshareAll (s : State) (which : Nat → Bool) : State :=
  s.mix.groups.foldl (fun s g => if g.2.state = .shared && which g.2.ringNo.toNat then
    s.onGrp g.1 fun x => { x with state := .open_, ringNo := 0 } else s) s

/-- The device is SOLO again (R323, R325): its shared groups are OPEN, its peers' votes are withdrawn (R394), its references are its
own. -/
def State.goSolo (s : State) : State :=
  if s.imdal.state = .solo then s
  else
    let s := s.unshareAll fun _ => true
    let s := s.onImdal fun m => { m with
      state := .solo
      segment := 0
      homeroom := none
      seam := none
      seamNext := none
      seamHome := none
      upFrom := none
      wrapped := false
      split := false
      aligned := false
      unshared := false
      irqs := 0
      alignedRun := 0
      asked := false
      joins := []
      broken := none
      left := if m.state = .enrolled then some (s.time.ord, m.segment, m.seam) else none
      departAt := none
      cutDue := false
      mergeAt := none
      mergeWait := none
      peerGroups := [] }
    let s := s.onPower fun p => { p with peer := [] }
    s.refUpdate.ringChange

/-! ### Links (R319, R335) -/

/-- An ENROLLED device with the same index can be reached (R322, R323): the ring tells it, or a time word of a Homeroom does. -/
def Imdal.sameIndex (m : Imdal) : Bool := m.reach.getLsbD m.index.toNat || m.heard = some m.index

/-- A JOINING device that finds its own index on the ring is SOLO, with DUP flagged (R323). -/
def State.dupCheck (s : State) : State :=
  if s.imdal.state = .joining && s.imdal.sameIndex then (s.onImdal fun m => { m with dup := true }).goSolo else s

/-- IMDAL_LINK_UP (R319, R323). -/
def execImdalLinkUp (side : SideIx) (peer : RingIx) (s : State) : Host.Outcome State Fault Refusal :=
  let was := if side = 0 then s.imdal.linkE else s.imdal.linkW
  if !s.domOn dImdal || was = .up then .next s
  else
    let s1 := s.onImdal fun m =>
      if side = 0 then { m with linkE := .up, peerE := some peer, driveE := true } else { m with linkW := .up, peerW := some peer, driveW := true }
    let s2 := s1.onImdal fun m => { m with
      upFrom := if m.wrapped && m.broken.isNone && m.linkE = .up && m.linkW = .up then some s.monoNs else m.upFrom }
    .next s2.ringEvent.dupCheck

/-- Index of the device whose E port carries the link of a side. -/
def linkOwner (m : Imdal) (side : Nat) : Option (BitVec 3) := if side = 0 then some m.index else m.peerW.map fun p => BitVec.ofNat 3 p.val

/-- IMDAL_LINK_DOWN (R319, R335, R336): in a whole ring the seam goes to that link at the next boundary; any other break but one of the seam
splits the segment. -/
def execImdalLinkDown (side : SideIx) (s : State) : Host.Outcome State Fault Refusal :=
  let was := if side = 0 then s.imdal.linkE else s.imdal.linkW
  if was ≠ .up then .next s
  else
    let many := s.imdal.state = .enrolled && decide (2 ≤ popN 8 s.imdal.segment.toNat)
    let whole := s.imdal.state = .enrolled && s.imdal.whole
    let s1 := (s.onImdal fun _ => s.linked.drop side.val).resend (1 - side.val) fun f => f.side = side.val
    let s1 := s1.onImdal fun m => { m with
      linkE := if side = 0 then .down else m.linkE
      linkW := if side = 0 then m.linkW else .down
      downs := satAdd m.downs 1
      upFrom := none
      seamNext := if whole then some (linkOwner m side) else m.seamNext
      split := m.split || (many && !whole && linkOwner m side ≠ m.seam) }
    .next s1.ringEvent

/-- SEAM_RETURN (R335): the link has stayed UP for 1 s. -/
def execSeamReturn (s : State) : Host.Outcome State Fault Refusal :=
  match s.imdal.upFrom with
  | some t => if s.imdal.wrapped && t + 1000000000 ≤ s.monoNs then .next (s.onImdal fun m => { m with seamNext := some m.seamHome }) else .next s
  | none => .next s

/-! ### Ring time (R328, R329, R340) -/

/-- IRQ_CAUSE[31] of this device (R67, R340). -/
def State.ownIrq (s : State) : Bool := decide (s.hbi.irqStat &&& s.hbi.irqEn ≠ 0)

/-- The IRQ bits of a time word as it leaves a device: each device puts in its own bit (R340). -/
def State.withIrq (s : State) (b : BitVec 8) : BitVec 8 :=
  (b &&& ~~~ onlyDev s.imdal.index) ||| (if s.ownIrq then onlyDev s.imdal.index else 0)

/-- The time word of the Homeroom (R328): its PIDX and armed jump, TAI_VALID, TIME_STAT.STATE and the IRQ bits of its segment. Bits that no word has
brought back stay as the Homeroom last had them (DESIGN CHOICE, log 137). -/
def State.ownWord (s : State) : RingWord :=
  { pidx := s.pidx
    jump := s.time.jumpDue.map fun j => (j.1, s.pidxAt j.2)
    tai := s.time.tai
    state := s.time.state
    irqs := s.withIrq (s.imdal.irqs &&& s.imdal.segment)
    hops := 0
    homeroom := s.imdal.index }

/-- A time word travels on by the other port (R328), except at the Homeroom that sent it. -/
def State.passWord (s : State) (side : SideIx) (w : TimeWord) : State :=
  if BitVec.ofNat 3 w.homeroom.val = s.imdal.index then s
  else s.sendBy (1 - side.val) (.timeWord
    { pidx := w.pidx, jump := w.jump, tai := w.tai, state := w.state, irqs := s.withIrq w.irqs, hops := w.hops + 1,
      homeroom := BitVec.ofNat 3 w.homeroom.val })

/-- The bitmap of the peers' IRQ bits from a time word; IMDAL where a peer's bit has come on (R340). -/
def State.peerIrqs (s : State) (b : BitVec 8) : State :=
  let new := b &&& ~~~ s.imdal.irqs &&& ~~~ onlyDev s.imdal.index
  let s := s.onImdal fun m => { m with irqs := b }
  if new ≠ 0 then s.ringEvent else s

/-- The lowest Homeroom heard once a word has arrived; the own words of a Homeroom that come back to it tell of no other. -/
def Imdal.hears (m : Imdal) (h : BitVec 3) : Option (BitVec 3) :=
  if m.state = .enrolled && h = m.index then m.heard
  else match m.heard with
  | some q => if m.heardIn && q.toNat < h.toNat then some q else some h
  | none => some h

/-- Time words of a Homeroom that the device aligns to: of the lowest one heard where it is JOINING or its segment aligns to another, else
of a device of its segment. -/
def Imdal.follows (m : Imdal) (h : BitVec 3) : Bool :=
  if m.state = .enrolled && !m.aligns then m.segment.getLsbD h.toNat else m.heard = some h

/-- TIME_WORD_RECEIVED (R328, R336, R340): of two copies the one over fewer hops counts, the one from the W port where they are equal. -/
def execTimeWordReceived (side : SideIx) (w : TimeWord) (s : State) : Host.Outcome State Fault Refusal :=
  let m := s.imdal
  let up := if side = 0 then m.linkE = .up else m.linkW = .up
  let better := match m.word with
    | none => true
    | some q => decide (w.hops < q.1) || (w.hops = q.1 && side = 1 && !q.2)
  if !up then .next s
  else
    let s1 := s.onImdal fun m => { m with
      delayE := if side = 0 then w.delayPs else m.delayE
      delayW := if side = 1 then w.delayPs else m.delayW
      heard := m.hears (BitVec.ofNat 3 w.homeroom.val)
      heardIn := true }
    if m.state = .enrolled && BitVec.ofNat 3 w.homeroom.val = m.index then .next (s1.peerIrqs w.irqs)
    else if !better || !s1.follower || !s1.imdal.follows (BitVec.ofNat 3 w.homeroom.val) then .next (s1.passWord side w)
    else
      let s2 := s1.onImdal fun m => { m with
        word := some (w.hops, side = 1)
        homeroom := if m.aligns then m.homeroom else some (BitVec.ofNat 3 w.homeroom.val)
        offsetPs := w.offsetPs
        aligned := decide (w.offsetPs.natAbs ≤ 2000) && w.pidx = s.time.pidx
        hrState := w.state
        hrTai := w.tai }
      let s3 := s2.peerIrqs w.irqs
      let s4 := if s3.time.tai = w.tai then s3 else (s3.onTime fun t => { t with tai := w.tai }).raise irqTime
      let s5 := match w.jump with
        | some (j, b) => if s4.time.jumpDue.isNone && inFuture b s4.time.pidx then
            s4.onTime fun t => { t with jumpDue := some (j, t.ord + (b - t.pidx).toNat) } else s4
        | none => s4
      let s5 := s5.passWord side w
      if s5.untrusted then .next s5
      else
        let s6 := s5.measure (sgn 32 (w.pidx - s5.time.pidx).toNat * 500000 + divRha w.offsetPs 1000) 2
        .next (if w.state = 3 then s6.timeState 3 else s6)

/-- RING_TIME_LOSS (R329): a follower that no time word has reached within one Period goes to HOLDOVER. -/
def execRingTimeLoss (s : State) : Host.Outcome State Fault Refusal :=
  .next (if s.follower && s.imdal.word.isNone then s.ringTimeLost else s)

/-! ### Membership (R323 to R326) -/

/-- CUT_OFF (R326): an ENROLLED device forms a segment of its own at the next boundary. A follower that has lost ring time measures no offset: that
its boundaries have come to differ by more than 10 µs (R329) is told by this row. -/
def execCutOff (cause : CutCause) (s : State) : Host.Outcome State Fault Refusal :=
  let m := s.imdal
  let holds := match cause with
    | .noLink => m.linkE ≠ .up && m.linkW ≠ .up
    | .untrusted => s.untrusted
    | .misaligned => decide (10000000 < m.offsetPs.natAbs) || (s.follower && m.heard.isNone)
    | .silent => true
  if m.state = .enrolled && holds && m.segment ≠ onlyDev m.index then .next (s.onImdal fun m => { m with cutDue := true }) else .next s

/-- MEMBERSHIP_REQUEST (R323): aligned for 100 consecutive Periods, a JOINING device asks the Homeroom. -/
def execMembershipRequest (s : State) : Host.Outcome State Fault Refusal :=
  if s.imdal.state = .joining && 100 ≤ s.imdal.alignedRun then
    .next ((s.onImdal fun m => { m with asked := true }).sendBy s.imdal.fwdSide (.control (.request s.imdal.homeroom))) else .next s

/-- A boundary named under R324 travels on, and is acknowledged by the side by which it came; the Homeroom names it both ways. -/
def State.tellNamed (s : State) (h : Heard) (devs : BitVec 8) : State :=
  let e := s.pidxAt (s.time.ord + 4)
  if s.imdal.state ≠ .enrolled then s
  else if s.imdal.homeroom = some s.imdal.index then s.sendBoth (.control (.named e devs))
  else (s.sendBy (1 - h.side.val) (.control (.named e devs))).sendBy h.side.val (.control (.ack e))

/-- The agreement on a joining device; a later name for it takes the place of an earlier one. -/
def Imdal.agree (j : Join) (m : Imdal) : Imdal := { m with joins := (m.joins.filter fun k => k.devs &&& j.devs = 0) ++ [j] }

/-- MEMBERSHIP_REQUEST_RECEIVED (R324): the Homeroom names E four boundaries on, for each request its own; with an acknowledgement missing E waits
for a new name. A joiner hears the E of its own request. -/
def execMembershipRequestReceived (from_ : RingIx) (members : BitVec 8) (h : Heard) (s : State) : Host.Outcome State Fault Refusal :=
  let m := s.imdal
  let mine := BitVec.ofNat 3 from_.val = m.index
  let devs := onlyDev (BitVec.ofNat 3 from_.val) ||| (if mine then members else 0)
  if m.state = .enrolled && !mine || (m.state = .joining && mine && m.asked) then
    .next ((s.onImdal (Imdal.agree {
      devs := devs
      at_ := if h.acked then some (s.time.ord + 4) else none
      wait := if h.acked then none else some (s.time.ord + 3) })).tellNamed h devs)
  else .next s

/-- SEGMENT_MERGE (R336): the segments merge at a boundary that is named four boundaries on, under R324; clash lists the ring numbers with
different settings, which matter on the aligning segment. -/
def execSegmentMerge (devices : BitVec 8) (h : MergeHeard) (clash : List (Fin 1024)) (s : State) : Host.Outcome State Fault Refusal :=
  if s.imdal.state = .enrolled && s.imdal.mergeAt.isNone && (!h.aligned || 100 ≤ s.imdal.alignedRun) then
    .next ((s.onImdal fun m => { m with
      mergeAt := if h.named.acked then some (s.time.ord + 4) else none
      mergeWait := if h.named.acked || h.aligned then none else some (s.time.ord + 3)
      mergeWith := devices
      mergeClash := if h.aligned then clash.map (·.val) else [] }).tellNamed h.named devices)
  else .next s

/-- Enrol in effect (R323): ENROLLED as a segment of one, or JOINING where an ENROLLED device can be reached. -/
def State.enrol (s : State) : State :=
  if s.imdal.state ≠ .solo then s
  else if s.imdal.heard.isSome || s.imdal.reach ≠ 0 then
    (((s.onImdal fun m => { m with state := .joining, alignedRun := 0, asked := false, dup := false, homeroom := m.heard }).refUpdate).ringChange).dupCheck
  else (s.onImdal fun m => { m with aligned := true, dup := false }).setSegment (onlyDev s.imdal.index)

/-- What the Period that closes has told of the segment (R326, R330, R335, R336): devices that have gone from it, and a link that has gone
DOWN or come UP between two others. -/
def State.segmentNews (s : State) (n : RingNews) : State :=
  let far := n.broken.map fun p => BitVec.ofNat 3 p.val
  let whole := s.imdal.whole
  let s := if far.isSome && s.imdal.broken.isNone then (s.resend 1 fun f => f.side = 0) else s
  let s := s.onImdal fun m => { m with reach := n.reach, others := n.others, broken := far, driveE := n.driveE, driveW := n.driveW }
  if s.imdal.state ≠ .enrolled then s.dupCheck
  else
    let seg := (s.imdal.segment &&& n.members) ||| onlyDev s.imdal.index
    let s := if seg = s.imdal.segment then s
      else ((s.setSegment seg).onImdal fun m => { m with split := m.split || n.split, wrapped := m.wrapped && !n.split }).onPower
        fun p => { p with peer := p.peer.filter fun v => seg.getLsbD v.1 }
    s.onImdal fun m => { m with
      seamNext := if far.isSome && whole then some far else m.seamNext
      seam := if far.isSome && !whole && !m.wrapped then far else m.seam
      upFrom := if far.isSome then none
        else if m.wrapped && m.upFrom.isNone && m.linkE = .up && m.linkW = .up then some s.monoNs else m.upFrom }

/-- Ring numbers in use by peers (R117), and the segment, as the Period that closes has told them. -/
def State.ringNews (s : State) (m : PeriodInput) : State :=
  let s := if s.imdal.state = .solo then s
    else m.groups.foldl (fun s g => s.onImdal fun x => { x with peerGroups := match g.2 with
      | some p => tins g.1.val p x.peerGroups
      | none => tdel g.1.val x.peerGroups }) s
  match m.ring with
  | some n => s.segmentNews n
  | none => s.dupCheck

/-- A forward whose target has left the segment before it answered completes STATE (R338). -/
def State.forwardsLost (s : State) : State :=
  let gone := s.cmd.fwd.filter fun f => !s.imdal.segment.getLsbD f.target.val
  let s := s.onCmd fun m => { m with fwd := m.fwd.filter fun f => s.imdal.segment.getLsbD f.target.val }
  gone.foldl (fun s f => s.rejectCmd f.src f.cmd stState) s

/-- The device is cut off from the rest of its segment (R326). -/
def State.isCut (s : State) : Bool :=
  let m := s.imdal
  decide (m.state = .enrolled) && decide (m.segment ≠ onlyDev m.index) &&
    (m.cutDue || decide (m.linkE ≠ .up ∧ m.linkW ≠ .up) || s.untrusted || decide (10000000 < m.offsetPs.natAbs))

/-- Every device of the segment can be reached over the links (R324): those of this device's that are not the seam are UP. -/
def State.segmentWhole (s : State) : Bool :=
  let m := s.imdal
  !m.split && (m.broken.isNone || m.broken = m.seam) && m.seamNext.isNone &&
    (m.linkE = .up || m.seam = some m.index || popN 8 m.segment.toNat ≤ 1) && (m.linkW = .up || m.linkE = .up)

/-- Link of a port at a boundary (R319): it trains while the domain is ON and a partner drives the lanes. -/
def trainLink (on drive : Bool) (l : ImLink) : ImLink :=
  match l with
  | .down => if on && drive then .train else .down
  | .train => if on && drive then .train else .down
  | .up => .up

/-- What is named for a boundary is due: it is this one, or one that has passed. -/
def State.dueBy (s : State) (o : Option Nat) : Bool := match o with | some b => decide (b ≤ s.time.ord) | none => false

/-- Departures that are due: a device that retires says so first, and leaves (R324, R420). -/
def State.departDue (s : State) : State :=
  let s := if s.boot.b1 = some s.time.ord && s.imdal.departAt.isSome then s.sendBoth (.control .leave) else s
  if s.dueBy s.imdal.departAt then s.goSolo else s

/-- This device is the Homeroom of its segment (R327). -/
def State.isHomeroom (s : State) : Bool := s.imdal.state = .enrolled && s.imdal.homeroom = some s.imdal.index

/-- An agreement waits for a new name, and its time to look for the whole segment has come (R324). -/
def State.renames (s : State) (w : Option Nat) : Bool := match w with | some o => decide (o < s.time.ord) && s.segmentWhole | none => false

/-- The Homeroom names E anew, 4 boundaries after the Period in which it sees the segment whole again (R324). -/
def State.renameJoins (s : State) : State :=
  if !s.isHomeroom then s
  else (s.imdal.joins.filter fun j => s.renames j.wait).foldl (fun s j =>
    (s.onImdal (Imdal.agree { devs := j.devs, at_ := some (s.time.ord + 3), wait := none })).sendBoth
      (.control (.named (s.pidxAt (s.time.ord + 3)) j.devs))) s

/-- Joins (R323, R324): the Homeroom names E anew where it must; at an E every device that joins at it is in the segment. -/
def State.joinDue (s : State) : State :=
  let s := s.renameJoins
  let due := s.imdal.joins.filter fun j => s.dueBy j.at_
  if due.isEmpty || s.imdal.state = .solo then s
  else
    (s.onImdal fun m => { m with joins := m.joins.filter fun j => !s.dueBy j.at_, asked := false }).setSegment
      (due.foldl (fun b j => b ||| j.devs) (if s.imdal.state = .enrolled then s.imdal.segment else 0))

/-- A device that is cut off forms a segment of its own (R326). -/
def State.cutOffDue (s : State) : State :=
  if s.isCut then
    (((s.onImdal fun m => { m with cutDue := false }).setSegment (onlyDev s.imdal.index)).onImdal fun m => { m with split := true }).onPower
      fun p => { p with peer := [] }
  else s

/-- Every device of the segment to merge with can be reached (R336). -/
def State.mergeReach (s : State) : Bool := (s.imdal.mergeWith &&& ~~~ s.imdal.reach) = 0

/-- The lower Homeroom names the boundary of a merge anew once both segments are whole and reach each other (R324, R336). -/
def State.renameMerge (s : State) : State :=
  if s.isHomeroom && s.renames s.imdal.mergeWait && s.mergeReach then
    (s.onImdal fun m => { m with mergeAt := some (s.time.ord + 3), mergeWait := none }).sendBoth
      (.control (.named (s.pidxAt (s.time.ord + 3)) s.imdal.mergeWith))
  else s

/-- A merge that is due: groups of clashing RING_NO are unshared, and the segments are one (R336). Segments that have parted again do not merge: a
new boundary is named under R324 (R345). -/
def State.mergeDue (s : State) : State :=
  let s := s.renameMerge
  if !(s.dueBy s.imdal.mergeAt && s.imdal.state = .enrolled) then s
  else if !s.mergeReach then
    s.onImdal fun m => { m with mergeAt := none, mergeWait := if m.aligns then none else some s.time.ord }
  else
    let u := s.unshareAll fun r => s.imdal.mergeClash.contains r
    (u.setSegment (u.imdal.segment ||| u.imdal.mergeWith)).onImdal fun m => { m with
      mergeAt := none
      mergeWith := 0
      mergeClash := []
      split := false
      unshared := s.mix.groups.any fun g => g.2.state = .shared && s.imdal.mergeClash.contains g.2.ringNo.toNat }

/-- A seam that is announced takes effect (R335); where the missing link of a line has come UP, the ring is whole and its seam lies at the Homeroom's
W port (R330). -/
def State.seamDue (s : State) : State :=
  match s.imdal.seamNext with
  | some sm =>
    let back := s.imdal.wrapped && sm = s.imdal.seamHome && s.imdal.upFrom.isSome
    (s.onImdal fun m => { m with
      seam := sm
      seamNext := none
      wrapped := !back
      upFrom := none
      wraps := if back then m.wraps else satAdd m.wraps 1 }).ringEvent.ringRecord
  | none => if s.imdal.state = .enrolled && s.imdal.whole then s.onImdal fun m => { m with seam := m.seamHome } else s

/-- The ring at a boundary (R323 to R329, R335, R336, R338): departure, membership, cut-off, merge, seam, and the course of alignment. -/
def State.ringBoundary (s : State) : State :=
  let s := s.departDue.joinDue.cutOffDue.mergeDue.seamDue
  let s := if s.cmd.fwd.isEmpty then s else s.forwardsLost
  let s := if s.isHomeroom then s.sendBoth (.timeWord s.ownWord) else s.onImdal fun _ => s.linked
  let s := s.sendAnswers
  let on := s.domOn dImdal
  let le := trainLink on s.imdal.driveE s.imdal.linkE
  let lw := trainLink on s.imdal.driveW s.imdal.linkW
  let s := if le = s.imdal.linkE && lw = s.imdal.linkW then s else s.ringEvent
  let s := s.onImdal fun m => { m with
    lineE := s.carries 0
    lineW := s.carries 1
    alignedRun := if (m.state = .joining || m.aligns) && m.aligned && m.word.isSome then m.alignedRun + 1 else 0
    heard := if m.heardIn then m.heard else none
    heardIn := false
    word := none
    linkE := le
    linkW := lw }
  s.refUpdate

/-- The IMDAL domain leaves ON (R319, R323, R393): both links go DOWN and membership ends. -/
def State.imdalOff (s : State) : State :=
  let m := s.imdal
  let s := if m.linkE = .down && m.linkW = .down then s else s.ringEvent
  (s.onImdal fun m => { m with
    linkE := .down
    linkW := .down
    downs := satAdd m.downs (b2n (m.linkE = .up) + b2n (m.linkW = .up))
    peerE := none
    peerW := none
    heard := none
    heardIn := false
    reach := 0
    word := none }).goSolo

/-! ### IMDAL_JOIN (R321, R322, R337, R338) -/

/-- Operation and fields of IMDAL_JOIN (R321, R482): TARGET is a field of the forwards alone, REG of the register forwards, and a
register read takes no A1. -/
def joinArgsOk (s : State) (c : CmdWords) : Bool :=
  let op := fld c.a0 0 3
  let fwd := decide (2 ≤ op)
  decide (op ≤ 4) && (c.a0 &&& 0xFFC0F8F8#32) = 0 && c.a2 = 0 && c.a3 = 0 && c.a4 = 0 && c.a5 = 0 &&
    (if fwd then decide (fld c.a0 8 3 ≠ s.imdal.index.toNat) else fld c.a0 8 3 = 0) &&
    (if op < 3 then fld c.a0 16 6 = 0 else decide (fld c.a0 16 6 ≤ 0x34)) &&
    (op ≠ 2 || (blockAt [] c.a1 292).isSome) && (op ≠ 3 || c.a1 = 0)

/-- What a forward sends. -/
def forwardOf (s : State) (c : CmdWords) : Forward :=
  let op := fld c.a0 0 3
  if op = 2 then
    match blockAt [] c.a1 292 with
    | some b =>
      let bs := s.readBlock b 160
      let w := fun i => wordAt bs i
      .command { hdr := w 0, epoch := w 1, a0 := w 2, a1 := w 3, a2 := w 4, a3 := w 5, a4 := w 6, a5 := w 7 } (bs.drop 32)
    | none => .regRead 0
  else if op = 3 then .regRead (Fin.ofNat 53 (fld c.a0 16 6))
  else .regWrite (Fin.ofNat 53 (fld c.a0 16 6)) c.a1

/-- IMDAL_JOIN: its own checks (R53, R321, R322), against the ring state at the boundary of its effect. -/
def imdalJoinChecked (x : Ctx) (s : State) (tAt : Nat → State) : Verdict :=
  let c := x.cmd
  let op := fld c.a0 0 3
  if !joinArgsOk s c then .reject stBadarg
  else if !s.domOn dPantry then .wait dPantry
  else if op = 0 || op = 1 then
    match s.namedOrd c.a1 with
    | none => .reject stState
    | some ord =>
      let t := tAt ord
      if op = 0 then
        if t.imdal.state ≠ .solo || s.imdal.sameIndex then .reject stState
        else .config (s.selfVote dImdal 6) ord [.enrol] 0
      else if t.imdal.state = .solo then .reject stState
      else .config s ord [.depart] 0
  else
    let target := fld c.a0 8 3
    let t := tAt s.effectOrd
    if t.imdal.state ≠ .enrolled || !t.imdal.segment.getLsbD target || s.imdal.state ≠ .enrolled || !s.imdal.segment.getLsbD target then
      .reject stState
    else
      let f := forwardOf s c
      let side := s.imdal.fwdSide
      let s := if op = 2 then (match blockAt [] c.a1 292 with | some b => s.blockMet b 160 | none => s) else s
      let s := s.fwVote.sendBy side (.forward (Fin.ofNat 8 s.imdal.index.toNat) (Fin.ofNat 8 target) f)
      .later (s.onCmd fun m => { m with
        fwd := m.fwd ++ [{ src := x.src, cmd := c, target := Fin.ofNat 8 target, op := BitVec.ofNat 3 op, body := f, side := side }] })

/-- The answer, or its loss, completes the oldest forward in flight. -/
def State.forwardDone (s : State) (f : ForwardOut) (answer : Option ForwardAnswer) : State :=
  match answer with
  | none => s.rejectCmd f.src f.cmd stState
  | some a =>
    let s2 := if f.op = 2 then
        match blockAt [] f.cmd.a1 292 with
        | some (.sram b) => (s.writeBlock (.sram (b + 0xA0)) (padTo 128 a.data)).writeBlock (.sram (b + 0x120)) (leBytes 4 a.epoch.toNat)
        | _ => s
      else s
    let s3 := if a.status = 0 then s2.accept { src := f.src, cmd := f.cmd, param := none } s2.effectOrd [] else s2
    s3.complete f.src f.cmd a.status.toNat a.res0 a.res1

/-- FORWARD_COMPLETE (R337, R338): the target's answer, or its loss, completes the oldest forward in flight. The local command waits until then:
with OK it is accepted and counts in CFG_EPOCH (R52, R55), with any other status it has no effect (R54). An answer for another device travels on
by the other port (R341). -/
def execForwardComplete (answer : Option AnswerIn) (s : State) : Host.Outcome State Fault Refusal :=
  match answer with
  | some a =>
    if BitVec.ofNat 3 a.target.val ≠ s.imdal.index then .next (s.sendBy (1 - a.side.val) (.answer a.target a.body))
    else match s.cmd.fwd with
      | [] => .next s
      | f :: rest => .next ((s.onCmd fun m => { m with fwd := rest }).forwardDone f (some a.body))
  | none => match s.cmd.fwd with
    | [] => .next s
    | f :: rest => .next ((s.onCmd fun m => { m with fwd := rest }).forwardDone f none)

end Sys2Proof.Machine
end

