-- ==== Sys2Proof/Machine/Watch.lean ====
section
/-! DEFINITION. The line watch (R191 to R223): Attendance, line faults, soundings, calls, Proofing. Currents in 0.1 mA, voltages in
mV, leakage in 10 µA. -/

namespace Sys2Proof.Machine

/-! ### Attendance (R193 to R198) -/

/-- Magnitude of a rational. -/
def ratAbs (q : Rat) : Rat := if q < 0 then -q else q

/-- Mean of Period means. -/
def meanOf (xs : List Int) : Rat := if xs.isEmpty then 0 else (xs.foldl (· + ·) 0 : Int) / (xs.length : Int)

/-- Counts per class whose draws sum to at most a limit: every combination, larger counts of lower classes first, with its sum. caps are
the greatest counts by class. -/
def combos : List (Option Rat) → List Nat → Nat → Rat → List (List Nat × Rat)
  | d :: ds, c :: cs, lim, top =>
    match d with
    | none => (combos ds cs lim top).map fun r => (0 :: r.1, r.2)
    | some w =>
      let n := if w ≤ 0 then 0 else min (min c lim) (top / w).floor.toNat
      ((upto (n + 1)).reverse).flatMap fun k => (combos ds cs (lim - k) (top - k * w)).map fun r => (k :: r.1, k * w + r.2)
  | _, _, _, _ => [([], 0)]

/-- Stations of a combination. -/
def total (n : List Nat) : Nat := n.foldl (· + ·) 0

/-- Decomposition of a step size (R195): fewest stations, then smallest error, then lowest class. -/
def decompose (draws : List (Option Rat)) (caps : List Nat) (lim : Nat) (size : Rat) : Option (List Nat) :=
  let tol := max 30 (size * 6 / 100)
  let ok := (combos draws caps lim (size + tol)).filter fun r => decide (ratAbs (size - r.2) ≤ tol)
  let better := fun (a b : List Nat × Rat) =>
    total b.1 < total a.1 || (total b.1 = total a.1 && decide (ratAbs (size - b.2) < ratAbs (size - a.2)))
  (ok.foldl (fun (b : Option (List Nat × Rat)) r => match b with
    | none => some r
    | some x => if better x r then some r else some x) none).map (·.1)

/-- Index of the first class not yet learned. -/
def freeClass (ds : List (Option Rat)) : Option Nat := ds.findIdx? (·.isNone)

/-- Something freezes Attendance now (R193). -/
def freezes (x : PortSt) (w : Watch) (creg : Bool) : Bool :=
  creg || w.toneGen || w.toneFade || w.dcGen || w.tone || w.dc || x.slewing || x.conceal

/-- A freeze of a port whose bank is not ON runs down (R193). -/
def Watch.thaw (x : PortSt) (w : Watch) : Watch := { w with freeze := if freezes x w false then 40 else w.freeze - 1 }

/-- Attendance over the Period that closes (R193, R194): the settled current, the beginning and the course of a step. A freeze runs down in
every state. -/
def Watch.attend (pidx : Word) (ord : Nat) (x : PortSt) (m : LoopMeas) (w : Watch) : Watch :=
  if freezes x w (m.creg && deliversSt x.state) then
    if w.step.isSome then { w with freeze := 40, step := none, is_ := none, means := [] } else { w with freeze := 40 }
  else if 0 < w.freeze then { w with freeze := w.freeze - 1 }
  else if x.state ≠ .on then w
  else
    let i10 := loopI10 m
    match w.step, w.is_ with
    | some t, _ => { w with step := some { t with means := (i10 :: t.means).take 40 } }
    | none, some i =>
      if 120 ≤ ratAbs ((i10 : Rat) - i) then { w with step := some { pidx := pidx, ord := ord, means := [] } }
      else
        let l := (i10 :: w.means).take 40
        { w with means := l, is_ := some (meanOf l) }
    | none, none =>
      let l := (i10 :: w.means).take 40
      { w with means := l, is_ := if l.length = 40 then some (meanOf l) else none }

/-- A step is qualified (R194): 40 Period means within 3 mA of their mean. -/
def stepQualified (t : Step) : Bool :=
  t.means.length = 40 && t.means.all fun i => decide (ratAbs ((i : Rat) - meanOf t.means) ≤ 30)

/-- Counts as the detail of a watch-log entry (R222). -/
def countDetail (n : List Nat) : Nat := (n.zipIdx).foldl (fun a x => a + min 15 x.1 * 16 ^ x.2) 0

/-- An Attendance change (R147, R198, R206): its Period, a new sounding. -/
def State.attChange (s : State) (p : Nat) (pidx : Word) (ord : Nat) : State :=
  (s.onWatch p fun w => { w with attPidx := pidx, attOrd := ord, changes := w.changes + 1 }).soundAsk p

/-- The stations counted afresh from a settled current (R197), logged as kind 0x05. -/
def State.countAfresh (s : State) (p : Nat) (i : Rat) (pidx : Word) : State :=
  let w := s.watch p
  let known := w.draws.any (·.isSome)
  let r : Option (List Nat) × List (Option Rat) :=
    if i < 120 then (some [0, 0, 0, 0], w.draws)
    else if !known && 250 ≤ i && i ≤ 600 then (some [1, 0, 0, 0], [some i, none, none, none])
    else (decompose w.draws [64, 64, 64, 64] 256 i, w.draws)
  let s := s.onWatch p fun w => { w with
    count := r.1.map total
    counts := r.1.getD w.counts
    draws := r.2
    entry := false
    unsure := false }
  s.watchLog p 0x05 (match r.1 with | some n => total n | none => 0xFF) (w32 (ratRound i).toNat) pidx

/-- A qualified step (R195 to R198): join, leave, new class or UNEXPLAINED; while the count is unknown the stations are counted afresh. A
sounding whose eligibility waits on it is not eligible (R147). A step that no station explains within 3 mA changes nothing (DEDUCED, log 103). -/
def State.attStep (s : State) (p : Nat) (t : Step) (i : Rat) : State :=
  let w := s.watch p
  let now := meanOf t.means
  let delta := now - i
  let size := ratAbs delta
  let s := s.onWatch p fun w => { w with step := none, is_ := some now, means := t.means }
  let s := if (s.sounding p).waitsStep then s.onSounding p fun x => { x with waitsStep := false, eligible := false } else s
  let dw := w32 (twos 32 (ratRound delta))
  let join := decide (0 ≤ delta)
  match w.count with
  | none => s.countAfresh p now t.pidx
  | some _ =>
    match decompose w.draws (if join then [4, 4, 4, 4] else w.counts) 4 size with
    | some n =>
      if total n = 0 then s else
      let cs := (upto 4).map fun k => if join then w.counts.getD k 0 + n.getD k 0 else w.counts.getD k 0 - n.getD k 0
      let ds := if total n = 1 then (upto 4).map fun k => match w.draws.getD k none with
          | some d => if n.getD k 0 = 1 then some (d + (size - d) / 8) else some d
          | none => none
        else w.draws
      let s := s.onWatch p fun w => { w with counts := cs, count := some (total cs), draws := ds }
      (s.watchLog p (if join then 1 else 2) (countDetail n) dw t.pidx).attChange p t.pidx t.ord
    | none =>
      match freeClass w.draws with
        | some k =>
          if 250 ≤ size && size ≤ 600 then
            let s := s.onWatch p fun w => { w with
              draws := w.draws.set k (some size)
              counts := if join then w.counts.set k 1 else w.counts
              count := if join then some (total (w.counts.set k 1)) else w.count }
            (s.watchLog p 3 k (w32 (ratRound size).toNat) t.pidx).attChange p t.pidx t.ord
          else ((s.onWatch p fun w => { w with unsure := true }).watchLog p 4 0 dw t.pidx).attChange p t.pidx t.ord
        | none => ((s.onWatch p fun w => { w with unsure := true }).watchLog p 4 0 dw t.pidx).attChange p t.pidx t.ord

/-- ATTENDANCE_STEP (R194). -/
def execAttendanceStep (p : PortIx) (s : State) : Host.Outcome State Fault Refusal :=
  let w := s.watch p
  match w.step, w.is_ with
  | some t, some i => if stepQualified t then .next (s.attStep p t i) else .next s
  | _, _ => .next s

/-- ATTENDANCE_ENTRY_COUNT (R197): I_s has formed after the entry to ON. -/
def execAttendanceEntryCount (p : PortIx) (s : State) : Host.Outcome State Fault Refusal :=
  let w := s.watch p
  match w.entry, w.is_ with
  | true, some i => .next (s.countAfresh p i s.pidx)
  | _, _ => .next s

/-! ### Line faults and recovery (R199, R200) -/

/-- Cause code of a line fault. -/
def lineCause : LineCause → Nat
  | .short => cauShort
  | .open_ => cauOpen
  | .overcurrent => cauOver
  | .foldback => cauFold

/-- LEAK_TRIP, 10 µA; OT_TRIP, °C (R191). -/
def Line.leakTrip (l : Line) : Nat := 100 + 200 * fld l.card5 0 4
def Line.otTrip (l : Line) : Int := 90 + 2 * (fld l.card5 4 4 : Nat)

/-- The modulation of port i explains at least 80 % of the variation of the readings (R201): the square of their correlation. -/
def Bank.explains (x : Bank) (i : Nat) : Bool :=
  let q := x.locS.getD i (0, 0, 0)
  let n : Int := x.locN
  let c := n * q.1 - x.locX * q.2.1
  let v := (n * q.2.2 - q.2.1 * q.2.1) * (n * x.locXX - x.locX * x.locX)
  decide (0 < v) && decide (4 * v ≤ 5 * (c * c))

/-- The port's bank modulation explains its leak (R201), so that it qualifies with what else qualifies then. -/
def Bank.leaks (x : Bank) (trip ord p : Nat) : Bool :=
  x.localising && decide (x.locOrd + 4000 ≤ ord) && decide (trip ≤ x.leak) &&
    (x.explains (p % 8) || !(upto 8).any x.explains)

/-- The condition of a line fault stands (R199): the whole Periods seen so far are one fewer than the detection time, or more; for
OVERCURRENT the mean over 64 loop samples, in 0.1 mA, is above 1.25 × ILIM + 20 mA. -/
def State.faultStands (s : State) (p : Nat) (c : LineCause) (measured : Word) : Bool :=
  let x := s.port p
  let w := s.watch p
  match c with
  | .short => ((x.state = .ramp || x.state = .on || x.state = .fold) && decide (19 ≤ w.shortRun)) ||
      (x.state = .probe && w.probe = 3 && decide (2 ≤ w.probeRun))
  | .open_ => s.line.openEn && x.state = .on && decide (9999 ≤ w.openRun)
  | .overcurrent => (x.state = .ramp || x.state = .on || x.state = .fold) &&
      decide (5 * (s.portCfg p).ilim + 800 < 4 * measured.toNat)
  | .foldback => x.state = .fold && decide (1999 ≤ w.foldRun)

/-- OVERTEMP qualifies on a powered port (R202). -/
def State.tempStands (s : State) (p : Nat) : Bool :=
  let b := s.bank (bankOf p)
  poweredSt (s.port p).state && (if (s.portCfg p).cls = 0 then decide (1999 ≤ b.critRun) else decide (1999 ≤ b.tripRun))

/-- The cause recorded where a cause qualifies and others stand with it (R199): SHORT, OVERCURRENT, LEAK, OVERTEMP, FOLDBACK, OPEN. -/
def State.firstCause (s : State) (p cause : Nat) : Nat :=
  let stands : List (Nat × Bool) := [
    (cauShort, s.faultStands p .short 0),
    (cauOver, s.faultStands p .overcurrent (w32 (s.watch p).last64.toNat)),
    (cauLeak, poweredSt (s.port p).state && (s.bank (bankOf p)).leaks s.line.leakTrip s.time.ord p),
    (cauTemp, s.tempStands p),
    (cauFold, s.faultStands p .foldback 0),
    (cauOpen, s.faultStands p .open_ 0)]
  ((stands.find? fun q => q.1 = cause || q.2).map (·.1)).getD cause

/-- LINE_FAULT (R199). -/
def execLineFault (p : PortIx) (c : LineCause) (measured : Word) (s : State) : Host.Outcome State Fault Refusal :=
  if s.faultStands p c measured then .next (s.portFault p (s.firstCause p (lineCause c)) measured) else .next s

/-- The recovery rule of a port's cause is met (R199). -/
def State.recovers (s : State) (p : Nat) : Bool :=
  let x := s.port p
  let w := s.watch p
  let age := s.time.ord - w.faultOrd
  let c := x.cause.toNat
  if c = cauShort then decide (10 ≤ w.notShort)
  else if c = cauOpen then w.probe = 2 && decide (2 ≤ w.probeRun)
  else if c = cauOver then decide (2000 ≤ age)
  else if c = cauFold then decide (10000 ≤ age) && decide (1 ≤ w.notShort)
  else if c = cauTemp then decide (20000 ≤ (s.bank (bankOf p)).coolRun)
  else false

/-- A bank that is ON or in Proofing. -/
def State.bankUp (s : State) (b : Nat) : Bool := (s.dom (dBank b)).state = .on || (s.dom (dBank b)).state = .proofing

/-- FAULT_RECOVERY (R199, R200): it waits while the bank is neither ON nor in Proofing; the sixth recovery in 60 s latches instead; a recovered port goes OFF where its mode is OFF, else it asks
to enter RAMP. -/
def execFaultRecovery (p : PortIx) (s : State) : Host.Outcome State Fault Refusal :=
  let x := s.port p
  let w := s.watch p
  let c := x.cause.toNat
  let counted := c = cauShort || c = cauOver || c = cauFold
  if x.state ≠ .fault || x.ask || w.latched || (s.portCfg p).mode = 1 || !s.bankUp (bankOf p) || !s.recovers p then .next s
  else
    let rs := s.time.ord :: w.recoveries.filter fun o => decide (s.time.ord < o + 120000)
    if counted && 6 ≤ rs.length then
      .next ((s.onWatch p fun w => { w with latched := true, recoveries := rs }).watchLog p 0x12 c 0 s.pidx)
    else
      let s1 := (if counted then s.onWatch p fun w => { w with recoveries := rs } else s).watchLog p 0x11 c 0 s.pidx
      .next (if (s.portCfg p).mode = 0 then s1.portTo p .off 0 true else s1.onPort p fun x => { x with ask := true })

/-! ### Banks: leakage and temperature (R201, R202) -/

/-- A reading of a bank's leakage: the warning at half of LEAK_TRIP, the end of a localisation below LEAK_TRIP. -/
def State.leakRead (s : State) (b leak : Nat) : State :=
  let x := s.bank b
  let warn := decide (s.line.leakTrip ≤ 2 * leak)
  let s := s.onBank b fun x => { x with
    leak := leak
    leakWarn := warn
    leakRun := if s.line.leakTrip ≤ leak then x.leakRun else 0
    localising := x.localising && decide (s.line.leakTrip ≤ leak) }
  if warn && !x.leakWarn then s.watchLog (0x80 + b) 0x18 0 (w32 leak) s.pidx else s

/-- LEAKAGE_CHANGE. -/
def execLeakageChange (b : BankIx) (leak : Nat) (s : State) : Host.Outcome State Fault Refusal := .next (s.leakRead b leak)

/-- LEAK_LOCALISATION: 100 ms at or above LEAK_TRIP. -/
def execLeakLocalisation (b : BankIx) (s : State) : Host.Outcome State Fault Refusal :=
  let x := s.bank b
  if x.localising || x.leak < s.line.leakTrip || x.leakRun < 199 then .next s
  else
    let s1 := (s.onBank b fun x => { x with
      localising := true, locOrd := s.time.ord, locN := 0, locX := 0, locXX := 0, locS := List.replicate 8 (0, 0, 0) }).watchLog (0x80 + b.val) 0x18 1 (w32 x.leak) s.pidx
    .next (s1.forAll ((bankPorts b).filter fun p => poweredSt (s1.port p).state) fun s p => s.soundAbort p 3)

/-- The modulation of the setpoint of port i of a bank k Periods into a localisation (R201), in units of 2^-40 of its peak: 1.0 Hz and
0.25 Hz × i. -/
def leakWave (i k : Nat) : Int := (turn ((4 + i) * k % 8000) 8000).2 / 2 ^ 56

/-- A reading of the leakage while it is localised. -/
def Bank.locate (k leak : Nat) (x : Bank) : Bank :=
  { x with
    locN := x.locN + 1
    locX := x.locX + leak
    locXX := x.locXX + leak * leak
    locS := (upto 8).map fun i =>
      let q := x.locS.getD i (0, 0, 0)
      let v := leakWave i k
      (q.1 + leak * v, q.2.1 + v, q.2.2 + v * v) }

/-- LEAK_LOCALISED: after 2 s, the port that explains the leak, else every powered port of the bank; a leak below LEAK_TRIP ends it without
a fault. -/
def execLeakLocalised (b : BankIx) (leak : Nat) (s : State) : Host.Outcome State Fault Refusal :=
  let x := s.bank b
  if !x.localising || s.time.ord < x.locOrd + 4000 then .next s
  else
    let s1 := (s.leakRead b leak).onBank b fun x => { x with localising := false, leakRun := 0 }
    let ps := (bankPorts b).filter fun p => poweredSt (s1.port p).state
    let hit := ps.filter fun p => x.explains (p % 8)
    .next (if leak < s.line.leakTrip then s1
      else s1.forAll (if hit.isEmpty then ps else hit.take 1) fun s p => s.portFault p (s.firstCause p cauLeak) (w32 leak))

/-- BANK_TEMPERATURE: conditions held for 1 s. -/
def execBankTemperature (b : BankIx) (s : State) : Host.Outcome State Fault Refusal :=
  let x := s.bank b
  let t := w32 (twos 32 (x.temp.getD 0))
  let warn := decide (1999 ≤ x.warnRun) && !x.tempWarn
  let trip := decide (1999 ≤ x.tripRun) && !x.tempTrip
  let s1 := if warn then (s.onBank b fun x => { x with tempWarn := true }).watchLog (0x80 + b.val) 0x19 0 t s.pidx else s
  let s2 := if trip then (s1.onBank b fun x => { x with tempTrip := true }).watchLog (0x80 + b.val) 0x19 1 t s.pidx else s1
  .next (s2.forAll ((bankPorts b).filter s2.tempStands) fun s p => s.portFault p (s.firstCause p cauTemp) t)

/-- A condition that a reading meets has been held for n Periods more where the last one met it too; a first one begins its count. -/
def heldFor (meets : Bool) (n run : Nat) : Nat := if meets then run + (if run = 0 then 1 else n) else 0

/-- A bank's readings (R201, R202), n boundaries after the last: runs, warnings that end. A sensor fault gives no temperature (R470). -/
def State.bankRead (s : State) (b n : Nat) (m : BankMeas) : State :=
  let ot := s.line.otTrip
  let ge := fun (d : Int) => (match m.temp with | some t => decide (ot + d ≤ t) | none => false : Bool)
  let s := s.leakRead b m.leak
  s.onBank b fun x => { x with
    leakRun := heldFor (decide (s.line.leakTrip ≤ m.leak)) n x.leakRun
    temp := m.temp
    warnRun := heldFor (ge (-10)) n x.warnRun
    tripRun := heldFor (ge 0) n x.tripRun
    critRun := heldFor (ge 10) n x.critRun
    coolRun := heldFor (match m.temp with | some t => decide (t < ot - 20) | none => false) n x.coolRun
    tempWarn := x.tempWarn && ge (-10)
    tempTrip := x.tempTrip && ge 0 }

/-- A bank over the Period that closes. -/
def State.bankMeasure (s : State) (b : Nat) (m : BankMeas) : State :=
  let s := s.bankRead b 1 m
  if (s.bank b).localising then s.onBank b fun x => x.locate (s.time.ord - x.locOrd) m.leak else s

/-! ### Probe (R203, R219) -/

/-- The line resistance that a probe voltage in µV stands for, Ω to nearest (R203): 47 kΩ × V / (4.0 V - V); none at 4.0 V or more. -/
def probeOhms (uv : Nat) : Option Nat := if 4000000 ≤ uv then none else some (divRneN (47000 * uv) (4000000 - uv))

/-- Class of a probe voltage (R203): 1 open line, 2 station, 3 short, by the exact resistance at 500 Ω and 200 kΩ. -/
def probeClass (uv : Nat) : BitVec 8 :=
  if 4000000 ≤ uv then 1
  else if 47000 * uv < 500 * (4000000 - uv) then 3
  else if 47000 * uv ≤ 200000 * (4000000 - uv) then 2 else 1

/-- The probe resistance as a word: all ones for an open line. -/
def ohmsWord (ohms : Option Nat) : Word := match ohms with | some r => w32 (min r 0xFFFFFFFF) | none => 0xFFFFFFFF#32

/-- The last 2 ms of a bank's cycle (R219). -/
def Bank.inWindow (x : Bank) (now : Nat) : Bool := decide (x.interval * 1000000 ≤ (now - x.cycle0) % x.cycleNs)

/-- The number of the cycle whose 2 ms last began, counted by cycles ended. -/
def Bank.probing (x : Bank) (now : Nat) : Nat := x.cycle now + b2n (x.inWindow now)

/-- One probe of a port: its class, the runs, what PROBE does of it. -/
def State.probeRead (s : State) (p uv : Nat) : State :=
  let c := probeClass uv
  let ohms := probeOhms uv
  let s := s.onWatch p fun w => { w with
    probe := c
    ohms := ohms
    probeRun := if w.probe = c && w.probeRun ≠ 0 then w.probeRun + 1 else 1
    notShort := if c = 3 then 0 else w.notShort + 1
    probeMono := s.time.mono.toNat
    probeCycle := (s.bank (bankOf p)).probing s.time.mono.toNat }
  let w := s.watch p
  let twice := decide (2 ≤ w.probeRun)
  if (s.port p).state ≠ .probe || !twice then s
  else if c = 2 then
    let s1 := if w.reported = 2 then s else (s.onWatch p fun w => { w with reported := 2 }).watchLog p 0x31 0 (ohmsWord ohms) s.pidx
    if (s.portCfg p).mode = 3 then s1.onPort p fun x => { x with ask := true } else s1
  else if c = 1 && w.reported = 2 then (s.onWatch p fun w => { w with reported := 1 }).watchLog p 0x32 0 (ohmsWord ohms) s.pidx
  else s

/-- A probe is due (R199, R219): in FAULT 100 ms after the last; in PROBE, with the bank ON, once in a cycle, in its last 2 ms; in
Proofing the bank's window makes it. -/
def State.probeDue (s : State) (p : Nat) : Bool :=
  let b := bankOf p
  let now := s.time.mono.toNat
  let w := s.watch p
  match (s.port p).state with
  | .fault => s.bankUp b && decide (w.probeMono = 0 || w.probeMono + 100000000 ≤ now)
  | .probe => s.domOn (dBank b) && (s.bank b).inWindow now && decide (w.probeCycle < (s.bank b).probing now)
  | _ => false

/-- PROBE (R203, R219): a probe voltage of a port whose probe is due. -/
def execProbe (p : PortIx) (uv : Nat) (s : State) : Host.Outcome State Fault Refusal :=
  if s.probeDue p then .next (s.probeRead p uv) else .next s

/-- The cycle of a bank at a boundary (R216, R219): it starts when the bank is ON or in Proofing and keeps its phase between them; in ON a
new interval acts at the end of a cycle. -/
def State.cycleBoundary (s : State) (b : Nat) : State :=
  let now := s.time.mono.toNat
  if !s.bankUp b then s.onBank b fun x => { x with cycle0 := now, cycleN := x.cycle now, winRun := x.cycle now }
  else if s.domOn (dBank b) && (s.bank b).winRun < (s.bank b).cycle now then s.onBank b fun x => x.turn_ now
  else s

/-! ### Soundings (R204 to R209) -/

/-- SND_LVL. -/
def Line.sndLvl (l : Line) : Nat := fld l.card5 16 4

/-- A sounding starts (R204, R209): it keeps the SND_LVL in force (R192). -/
def State.soundStart (s : State) (p : Nat) (auto : Bool) : State :=
  s.onSounding p fun x => { x with
    prior := if x.status = 2 && x.eligible then some (x.startOrd, x.points) else x.prior
    status := 1
    lvl := s.line.sndLvl
    amps := []
    startOrd := s.time.ord
    startPidx := s.pidx
    auto := auto
    asked := false
    abort := 0
    eligible := false
    waitsStep := false }

/-- A running sounding ends without completing (R207, R208); an automatic one is asked for again. -/
def State.soundStop (s : State) (p : Nat) (reason : Nat) : State :=
  let x := s.sounding p
  (s.onSounding p fun x => { x with status := 3, endPidx := s.pidx, abort := 0, asked := x.asked || x.auto }).watchLog p 0x29 reason x.startPidx s.pidx

/-- PORT_SOUND in effect. -/
def State.portSound (s : State) (p : Nat) (start : Bool) : State :=
  if start then (if (s.port p).state = .on then s.soundStart p false else s)
  else if (s.sounding p).status = 1 then s.soundStop p 0 else s

/-- Soundings that a boundary ends (R180, R207): what aborts one came before this boundary, so that a change which takes effect at it ends the
sounding at the next. -/
def State.soundEnds (s : State) (p : Nat) : State :=
  let s := if (s.sounding p).status = 1 && !s.domOn (dBank (bankOf p)) then s.soundAbort p 5 else s
  let x := s.sounding p
  if x.status = 1 && (x.abort ≠ 0 || s.beyond p) then s.soundStop p x.abort.toNat else s

/-- Soundings at a boundary (R147, R206): an eligibility that waited on a step, then a requested sounding, once the slews and calls of the
boundary are known. -/
def State.soundBoundary (s : State) (p : Nat) : State :=
  let x := s.sounding p
  let w := s.watch p
  let s := if x.waitsStep && w.step.isNone then
      let s := s.onSounding p fun x => { x with waitsStep := false, eligible := x.eligible && decide (w.attOrd < x.startOrd) }
      s.seedFrom p (s.time.ord + 1)
    else s
  if x.asked && x.status ≠ 1 && !s.beyond p && (s.port p).state = .on && w.freeze = 0 && !freezes (s.port p) w (decide ((s.port p).cregRun ≠ 0)) then
    s.soundStart p true
  else s

/-- Z(f_i) of a sounding (R204): the quotient of the amplitudes where loop samples gave them, else the points that were measured. -/
def Sounding.point (x : Sounding) (points : List Cx) (i : Nat) : Cx :=
  match x.amps.lookup i with
  | some q => cxDiv q.1 q.2
  | none => points.getD i (0, 0)

/-- SOUNDING_COMPLETE (R147, R204, R208): in Period S + 399; where it is eligible and no step waits, it may seed. -/
def execSoundingComplete (p : PortIx) (points : List (F32 × F32)) (nf : Nat) (s : State) : Host.Outcome State Fault Refusal :=
  let x := s.sounding p
  if x.status ≠ 1 || s.time.ord < x.startOrd + 399 || x.abort ≠ 0 then .next s
  else
    let w := s.watch p
    let elig := decide (w.attOrd < x.startOrd) && decide (w.termOrd ≤ x.startOrd)
    let pts := (upto 32).map (x.point points)
    let waits := match w.step with | some t => elig && decide (x.startOrd ≤ t.ord) | none => false
    let s1 := s.onSounding p fun x => { x with
      status := 2
      endPidx := s.pidx
      eligible := elig
      waitsStep := waits
      nf := nf
      done := x.done + 1
      points := pts }
    let s2 := if waits then s1 else s1.seedFrom p (s.time.ord + 2)
    .next ((s2.watchLog p 0x28 (b2n elig) x.startPidx s.pidx).capEstimate p nf)

/-! ### Calls (R210 to R215) -/

/-- Call detection over the Period that closes (R210 to R212). -/
def Watch.detect (th drop : Nat) (x : PortSt) (m : LoopMeas) (w : Watch) : Watch :=
  if !deliversSt x.state then w
  else
    let w := if w.toneGen || w.toneFade || 0 < w.toneHeld || x.conceal then w
      else { w with
        toneOn := if m.toneLvl ≤ th then w.toneOn + 1 else 0
        toneOff := if th + 12 < m.toneLvl then w.toneOff + 1 else 0 }
    if w.dcGen || 0 < w.dcHeld || x.conceal || decide ((2 * m.mv : Rat) < x.setMv) then w
    else
      let here := decide ((m.mv : Rat) < x.setMv - drop)
      { w with dcOn := if here then w.dcOn + 1 else 0, dcOff := if here then 0 else w.dcOff + 1 }

/-- Holds of detection after generation (R212): 4 Periods after the tone has fallen, after the setpoint has returned. -/
def Watch.holds (slewing : Bool) (w : Watch) : Watch :=
  { w with
    toneHeld := if w.toneGen || w.toneFade then 4 else w.toneHeld - 1
    dcHeld := if w.dcGen || (w.dcHeld = 4 && slewing) then 4 else w.dcHeld - 1 }

/-- CALL_QUALIFIED (R210, R211): 40 Periods of tone, 20 of DC. -/
def execCallQualified (p : PortIx) (k : CallKind) (s : State) : Host.Outcome State Fault Refusal :=
  let w := s.watch p
  let st := (s.port p).state
  match k with
  | .tone =>
    if deliversSt st && !w.tone && 40 ≤ w.toneOn then
      .next ((((s.onWatch p fun w => { w with tone := true, toneOff := 0, callNow := true }).watchLog p 0x20 1 (w32 w.toneLvl.toNat) s.pidx).raise irqCall).soundAbort p 2)
    else .next s
  | .dc =>
    if deliversSt st && !w.dc && 20 ≤ w.dcOn then
      .next ((((s.onWatch p fun w => { w with dc := true, dcOff := 0, callNow := true }).watchLog p 0x20 2 (w32 (twos 32 (s.port p).mv)) s.pidx).raise irqCall).soundAbort p 2)
    else .next s

/-- CALL_ENDED (R210, R211): a call that has ended at a boundary is not in the data gathered from it (R212). -/
def execCallEnded (p : PortIx) (k : CallKind) (s : State) : Host.Outcome State Fault Refusal :=
  let w := s.watch p
  let close := fun (s : State) => s.onWatch p fun w => { w with callNow := w.tone || w.dc }
  match k with
  | .tone => .next (if w.tone && 40 ≤ w.toneOff then close (s.callEnd p 1) else s)
  | .dc => .next (if w.dc && 20 ≤ w.dcOff then close (s.callEnd p 2) else s)

/-- CALL_SEND in effect (R214). -/
def State.callSend (s : State) (p : Nat) (send : Bool) (kind : BitVec 2) (duration : Nat) : State :=
  if !send then s.onWatch p fun w => { w with host := none }
  else if deliversSt (s.port p).state then s.onWatch p fun w => { w with host := some { kind := kind, until_ := s.time.ord + duration } }
  else s

/-- HOST_CALL_END (R214): DURATION boundaries after B the call no longer runs; its record goes. -/
def execHostCallEnd (p : PortIx) (s : State) : Host.Outcome State Fault Refusal :=
  match (s.watch p).host with
  | none => .next s
  | some h => if h.until_ ≤ s.time.ord then .next (s.onWatch p fun w => { w with host := none }) else .next s

/-- Tone and DC that a kind asks for: 0 tone, 1 DC, 2 both (R191, R213). -/
def kindTone (k : Nat) : Bool := k = 0 || k = 2
def kindDc (k : Nat) : Bool := k = 1 || k = 2

/-- Generation for the Period that opens (R213): call-out of the samples that leave in it, or a host call that runs, each kind for at least
40 Periods; none on a port beyond the member (R180). The calls qualified at this boundary are those of the data gathered from it
(R212). -/
def State.callGenerate (s : State) (p : Nat) (out : Bool) : State :=
  let w := s.watch p
  let g := s.line.genKind
  let run := deliversSt (s.port p).state && !s.beyond p
  let hostKind := fun (h : HostCall) => if h.kind = 0 then g else h.kind.toNat - 1
  let want := fun (f : Nat → Bool) => (out && f g) || (match w.hostNow s.time.ord with | some h => f (hostKind h) | none => false)
  let next := fun (on want_ : Bool) (left : Nat) => if !run then (false, 0) else if want_ && !on then (true, 39)
    else (on && (want_ || 0 < left), left - 1)
  let t := next w.toneGen (want kindTone) w.toneLeft
  let d := next w.dcGen (want kindDc) w.dcLeft
  let s := s.onWatch p fun w => { w with
    toneGen := t.1, toneLeft := t.2, toneFade := w.toneGen && !t.1 && run, dcGen := d.1, dcLeft := d.2, callNow := w.tone || w.dc }
  if (t.1 && !w.toneGen) || (d.1 && !w.dcGen) then s.soundAbort p 2 else s

/-! ### Proofing (R216 to R219) -/

/-- Comparisons of R217 for a port, bits in table order; class is the last probe's where one was made. -/
def portHits (l : Line) (x : PortSt) (w : Watch) (tone voice : Bool) (mv i10 : Int) (class_ : BitVec 8) : Nat :=
  let held := match x.hold with
    | none => 0
    | some r =>
      b2n tone + 2 * b2n (decide (120 ≤ ratAbs ((i10 : Rat) - r.i10))) + 4 * b2n voice + 8 * b2n (decide ((mv : Rat) < r.setMv - l.dcDropMv)) +
      16 * b2n (decide (mv < 2000)) + 32 * b2n (decide (9 * (r.ilim : Int) ≤ 10 * i10))
  let probe := (x.state = .probe || x.state = .fault) && class_ ≠ 0 && class_ ≠ w.reported
  held + 64 * b2n probe

/-- Comparisons of R217 for a bank. -/
def bankHits (l : Line) (m : BankMeas) : Nat :=
  128 * b2n (decide (l.leakTrip ≤ 2 * m.leak)) + 256 * b2n (match m.temp with | some t => decide (l.otTrip - 10 ≤ t) | none => false)

/-- A hit (R218, R395): its event, and the votes on MGMT, which logs it, and on the bank. -/
def State.proofHit (s : State) (b who hits : Nat) : State :=
  let s := s.watchLog who 0x30 hits (w32 (s.bank b).windows.toNat) s.pidx
  ((s.onBank b fun x => { x with hitPidx := s.pidx, hitVote := true, hitLog := true, quiet := 0 }).selfVote dMgmt 7).selfVote (dBank b) 7

/-- One port in a window: its comparisons with the thresholds, its probe where one is made. -/
def State.windowPort (b : Nat) (s : State) (m : Fin 8 × ProofMeas) : State :=
  let p := 8 * b + m.1.val
  let x := s.port p
  let q := m.2
  let probed := x.state = .probe || (x.state = .fault && s.probeDue p)
  let hits := portHits s.line (if x.state = .hold then x else { x with hold := none }) (s.watch p) (decide (q.toneLvl ≤ s.line.toneTh))
    (decide (q.voiceLvl ≤ s.line.prfVoice)) q.mv q.i10 (if probed then probeClass q.probeUv else 0)
  let s := if probed then s.probeRead p q.probeUv else s
  if hits = 0 then s else s.proofHit b p hits

/-- PROOFING_WINDOW (R216, R217): a bank in Proofing, at the end of a cycle; its readings stand for the whole cycle. -/
def execProofingWindow (b : BankIx) (meas : List (Fin 8 × ProofMeas)) (bm : BankMeas) (s : State) : Host.Outcome State Fault Refusal :=
  let now := s.time.mono.toNat
  if (s.dom (dBank b)).state ≠ .proofing || (s.bank b).cycle now ≤ (s.bank b).winRun then .next s
  else
    let n := 2 * ((s.bank b).interval + 2)
    let s := s.onBank b fun x => { x with windows := x.windows + 1 }
    let s := meas.foldl (State.windowPort b) s
    let h := bankHits s.line bm
    let s := (s.bankRead b n bm).onBank b fun x => x.turn_ now
    .next (if h = 0 then s else s.proofHit b (0x80 + b.val) h)

/-- A bank that is ON judges its hit's vote at every boundary (R218). -/
def State.quietBoundary (s : State) (b : Nat) (loops : Nat → Option LoopMeas) (bm : Option BankMeas) : State :=
  if !(s.bank b).hitVote || !s.domOn (dBank b) then s
  else
    let port := fun p => match loops p with
      | some m => portHits s.line (s.port p) (s.watch p) (decide (m.toneLvl ≤ s.line.toneTh)) (decide (m.voiceLvl ≤ s.line.prfVoice))
        m.mv (loopI10 m) (s.watch p).probe
      | none => portHits s.line { s.port p with hold := none } (s.watch p) false false 0 0 (s.watch p).probe
    let hit := (bankPorts b).any (fun p => port p ≠ 0) || (match bm with | some m => bankHits s.line m ≠ 0 | none => false)
    s.onBank b fun x => { x with quiet := if hit then 0 else x.quiet + 1 }

/-- PROOFING_QUIET (R218): 2,000 boundaries without a hit. -/
def execProofingQuiet (b : BankIx) (s : State) : Host.Outcome State Fault Refusal :=
  let x := s.bank b
  if x.hitVote && 2000 ≤ x.quiet then .next (s.onBank b fun x => { x with hitVote := false }) else .next s

/-- A port over the Period that closes: loop, Attendance, calls. -/
def State.portMeasure (s : State) (p : Nat) (m : LoopMeas) : State :=
  let s := s.loopMeasure p m
  let x := s.port p
  s.onWatch p fun w => ((w.attend s.pidx s.time.ord x m).detect s.line.toneTh s.line.dcDropMv x m).holds x.slewing

/-- A line change in effect. -/
def State.applyLine (s : State) (c : Change) : State :=
  match c with
  | .portSet p cls a1 a2 => s.portSet p cls a1 a2
  | .portPower p m => s.portPower p m
  | .portSound p st => s.portSound p st
  | .callSend p send k d => s.callSend p send k d
  | .card a0 a1 a2 a3 a4 a5 => s.cardSet a0 a1 a2 a3 a4 a5
  | _ => s

/-! ### Commands (R205, R214) -/

/-- PORT_SOUND. A start and an abort act at the boundary of a configuration command and change no epoch. -/
def portSoundChecked (x : Ctx) (s t : State) : Verdict :=
  let c := x.cmd
  let p := fld c.a0 0 6
  let op := fld c.a0 8 2
  let st := (t.port p).state
  let running := (t.sounding p).status = 1
  let go := fun start => Verdict.done (s.onCmd fun m => { m with
    staged := m.staged ++ [Staged.mk s.effectOrd (.portSound p start) x.src x.cmd] }) (s.pidxAt s.effectOrd) (s.unstated 1) none
  if (c.a0 &&& 0xFFFFFCC0#32) ≠ 0 || c.a1 ≠ 0 || c.a2 ≠ 0 || c.a3 ≠ 0 || c.a4 ≠ 0 || c.a5 ≠ 0 || !portIxOk c || 2 ≤ op then .reject stBadarg
  else if portBeyond s c then .reject stNocap
  else if op = 0 then
    if st ≠ .on then .reject stState else if running then .reject stBusy else go true
  else if running then go false else .reject stState

/-- CALL_SEND. -/
def callSendChecked (x : Ctx) (s t : State) : Verdict :=
  let c := x.cmd
  let p := fld c.a0 0 6
  let op := fld c.a0 8 2
  let go := fun ch => Verdict.done (s.onCmd fun m => { m with
    staged := m.staged ++ [Staged.mk s.effectOrd ch x.src x.cmd] }) (s.pidxAt s.effectOrd) (s.unstated 1) none
  if (c.a0 &&& 0xFFFFF0C0#32) ≠ 0 || (c.a1 &&& 0xFFFF0000#32) ≠ 0 || c.a2 ≠ 0 || c.a3 ≠ 0 || c.a4 ≠ 0 || c.a5 ≠ 0 || !portIxOk c || 2 ≤ op ||
      fld c.a1 0 16 = 0 then .reject stBadarg
  else if portBeyond s c then .reject stNocap
  else if op = 0 then
    if deliversSt (t.port p).state then go (.callSend p true (c.a0.extractLsb' 10 2) (fld c.a1 0 16)) else .reject stState
  else if ((t.watch p).hostNow s.effectOrd).isSome then go (.callSend p false 0 0) else .reject stState

end Sys2Proof.Machine
end

