-- ==== Sys2Proof/Machine/Power.lean ====
section
/-! DEFINITION. Power domains (chapter 14): votes, the choice at a boundary, transitions, power-up, what OFF loses, the power
block, PWR_SET. -/

namespace Sys2Proof.Machine

/-- The vote word with one bit. -/
def domBit (d : Nat) : BitVec 22 := BitVec.ofNat 22 (2 ^ d)

/-- A vote word from a condition on domains. -/
def voteWord (f : Nat → Bool) : BitVec 22 := (upto 22).foldl (fun v d => if f d then v ||| domBit d else v) 0

/-! ### Votes (R394, R395) -/

/-- The PEER vote in force: the OR over the peers (R394). -/
def State.peerVotes (s : State) : BitVec 22 := s.power.peer.foldl (fun v e => v ||| e.2) 0

/-- ON votes on a domain from HOST, SHELF, FW, PEER and SELF, in the order of R407. -/
def State.votesOn (s : State) (d : Nat) : List Bool :=
  [s.power.hostEff, s.power.shelfEff, s.power.fw, s.peerVotes, s.power.self].map fun v => v.getLsbD d

/-- An ON vote stands. -/
def State.voted (s : State) (d : Nat) : Bool := (s.votesOn d).any id

/-- The firmware's need of MGMT (R395): PTP in use, or a Roll Call, snapshot, repack or forward in progress. -/
def State.fwNeeds (s : State) : Bool :=
  s.time.refAct = 1 || !s.cmd.rolls.isEmpty || s.boot.rcPending || !s.cmd.snaps.isEmpty || s.trace.copying ≠ 0 ||
    s.tiles.repackDue || s.tiles.next.isSome || !s.cmd.fwd.isEmpty

/-- Legs that are ACTIVE, or left ACTIVE fewer than two boundaries ago, or wait for an armed start (R395). -/
def State.legsNeeding (s : State) : List Nat :=
  (s.mix.st.filter fun e => e.2.state = .active ||
    (match e.2.leftActive with | some o => decide (s.time.ord < o + 2) | none => false) ||
    (match e.2.armed with | some a => !a.pause && decide (s.time.ord < a.ord) | none => false)).map (·.1)

/-- A resume or a start is armed for a boundary to come (R395). -/
def State.startsArmed (s : State) : Bool :=
  (s.cmd.staged.any fun g => decide (s.time.ord < g.ord) && (match g.change with
    | .legAct _ pause => !pause
    | .streamAct _ _ pause => !pause
    | .dapArm _ => true
    | .dapStart _ => true
    | _ => false)) ||
  ((s.media.rx ++ s.media.tx).any fun e => e.2.armed.any fun a => !a.pause && decide (s.time.ord < a.ord))

/-- Wings whose tiles hold work under the Timetable (R350). -/
def State.busyWings (s : State) : List Nat :=
  (upto 8).filter fun w => (s.tiles.tt.legs ++ s.tiles.tt.grps).any fun e => wingOf e.2 = w

/-- The lowest Wing that is not ON, while a unit has no tile (R350). -/
def State.wingWanted (s : State) : Option Nat :=
  if s.mixView.units.any fun u => (s.tiles.tt.at u).isNone then (upto 8).find? fun w => !s.wingOn w else none

/-- A command is under way (R395). -/
def State.commandPending (s : State) : Bool :=
  s.cmd.busy || s.cmd.taken.isSome || s.cmd.waiting.isSome || !s.cmd.peerQ.isEmpty || (s.cmd.en && s.cmd.head ≠ s.cmd.tail)

/-- A port needs its bank ON (R179, R215); so does one that is to enter RAMP. -/
def State.portNeedsOn (s : State) (p : Nat) : Bool :=
  let st := (s.port p).state
  st = .ramp || st = .fold || (st = .on && (s.legSt p).state = .active) || ((s.watch p).hostNow s.time.ord).isSome ||
    (s.sounding p).status = 1 || ((s.port p).starting && s.asks p)

/-- A port needs at least Proofing (R179). -/
def State.portNeedsProof (s : State) (p : Nat) : Bool :=
  let st := (s.port p).state
  st = .probe || st = .hold || st = .on

/-- The device's own need of a domain, but for the votes on parents (R395). -/
def State.selfNeeds (s : State) (d : Nat) : Bool :=
  let removing := s.boot.removal = 7
  (match s.cmd.waiting with | some w => w.why = .domain d | none => false) ||
  (if d = dMgmt then s.commandPending || ((upto 6).any fun b => (s.bank b).hitLog) || s.shelf.stretch || s.shelf.stale || removing
   else if d = dHub then !s.legsNeeding.isEmpty || s.startsArmed || removing
   else if d = dPantry then !s.legsNeeding.isEmpty || s.startsArmed
   else if 4 ≤ d && d ≤ 11 then s.busyWings.contains (d - 4) || s.wingWanted = some (d - 4)
   else if 12 ≤ d && d ≤ 17 then (s.bank (d - 12)).hitVote || (bankPorts (d - 12)).any s.portNeedsOn
   else if d = 18 || d = 19 then (s.netP (d - 18)).rates ≠ 0
   else if d = dDap then (upto 16).any fun p => Dap.votes p (s.dapP p)
   else if d = dImdal then s.imdal.state ≠ .solo || (s.cmd.staged.any fun g => g.change = .enrol)
   else false)

/-- The SELF ON votes: the device's own needs, and the parents of every domain that is ON or on its way there (R395). -/
def State.selfVotes (s : State) : BitVec 22 :=
  voteWord fun d => s.selfNeeds d || (upto 22).any fun c => (parents c).contains d && s.rising c

/-- SELF PROOFING votes on the banks (R179). -/
def State.proofVotes (s : State) : BitVec 6 :=
  (upto 6).foldl (fun v b => if (bankPorts b).any s.portNeedsProof then v ||| BitVec.ofNat 6 (2 ^ b) else v) 0

/-! ### The choice at a boundary (R398, R399) -/

def isBank (d : Nat) : Bool := decide (12 ≤ d) && decide (d ≤ 17)

/-- States that a domain may take, lowest first (R391). -/
def domStates (d : Nat) : List DomState :=
  if d = 0 then [.on] else if isBank d then [.off, .recess, .proofing, .on] else [.off, .recess, .on]

/-- State of a DEEPEST code (R402). -/
def ofDeepest (v : BitVec 2) : DomState := if v = 0 then .off else if v = 1 then .recess else if v = 2 then .proofing else .on

/-- The higher of two states. -/
def domMax (a b : DomState) : DomState := if domCode a < domCode b then b else a

/-- A withdrawn ON vote still counts (R399). -/
def State.dwelling (s : State) (d : Nat) : Bool :=
  match (s.dom d).withdrawn with | some o => decide (s.time.ord < o + fld s.power.ltolEff 24 8) | none => false

/-- floor(d) of R399. -/
def State.domFloor (s : State) (d : Nat) : DomState :=
  let deep := ofDeepest (s.dom d).deepest
  if s.voted d || s.dwelling d then .on
  else if isBank d && s.power.proof.getLsbD (d - 12) then domMax .proofing deep
  else deep

/-- The order in which R399 chooses. -/
def chooseOrder : List Nat := [2, 3, 1, 21, 4, 5, 6, 7, 8, 9, 10, 11, 12, 13, 14, 15, 16, 17, 18, 19, 20]

/-- A chosen state; AON is ON. -/
def chosen (t : Tab DomState) (d : Nat) : DomState := if d = 0 then .on else (t.lookup d).getD .on

/-- The states of R399: each domain's lowest state at or above its floor whose exit latency fits, then the raises of PANTRY and
MGMT, and of parents. -/
def State.choose (s : State) : Tab DomState :=
  let us := fld s.power.ltolEff 0 24
  let t := chooseOrder.foldl (fun t d =>
    let f := s.domFloor d
    let st := ((domStates d).find? fun st => decide (domCode f ≤ domCode st) && decide (exitLatency (chosen t) d st ≤ us)).getD .on
    tins d st t) ([] : Tab DomState)
  let raise := fun (t : Tab DomState) (p : Nat) (who : Nat → Bool) =>
    if chosen t p = .off && (upto 22).any (fun d => who d && chosen t d ≠ .off) then tins p .recess t else t
  let t := raise t dPantry fun d => d ≠ 0 && d ≠ dMgmt && d ≠ dPantry
  let t := raise t dMgmt fun d => d ≠ 0 && d ≠ dMgmt
  [dMgmt, dPantry, dHub].foldl (fun t p => raise t p fun d => (parents d).contains p) t

/-! ### What OFF loses (R393) -/

/-- MGMT SRAM and the firmware are lost (R393, R418): rings, tables, logs; the host area reads zero. The entries not yet
completed are lost with the ring; a mailbox command keeps its place. -/
def State.mgmtLost (s : State) : State :=
  let s := { s with shownOk := false }
  let s := s.onMem fun m => { m with sram := [], badSram := [], log := [], logSeq := 0 }
  let s := s.onLine fun l => { l with log := [], logSeq := 0 }
  let s := s.onTiles fun t => { t with log := [], logSeq := 0 }
  let s := s.onBoot fun b => { b with rcShown := [] }
  s.onCmd fun m => { m with
    en := false
    taken := none
    rejects := []
    held := m.held.filter fun l => l.src ≠ .ring
    rolls := m.rolls.filter fun l => l.src ≠ .ring
    snaps := m.snaps.filter fun l => l.src ≠ .ring
    fwd := m.fwd.filter fun f => f.src ≠ .ring
    mbox := (match m.waiting with | some w => if w.src = .mailbox then some w.cmd else m.mbox | none => m.mbox)
    waiting := none
    waitParam := none
    peerQ := [] }

/-- HUB loses the matrix's state; 2 slices on every path (R387, R393). -/
def State.hubLost (s : State) : State := s.onMem fun m => { m with locks := [], masters := [], slices := [] }

/-- Pantry reads zero, and the configuration tables take their power-on reset values (R380, R393). -/
def State.pantryZero (s : State) : State :=
  let s := s.onMem fun m => { m with pantry := [], badPantry := [], fresh := true, slots := [] }
  let s := s.forAll (upto 48) fun s p => if (s.port p).state = .off then s else s.portPower p 0
  let s := s.onLine fun l => { l with
    cfg := [], card0 := 0, card1 := 0x6964736E#32, card2 := 0x5850625A#32, card3 := 0x00014E46#32, card4 := 0x543C0614#32
    card5 := 0x000015A2#32 }
  let s := s.onMix fun m => { m with legs := [], st := [], groups := [], adm := [], ringAdmitted := [], outLine := [] }
  let s := ((s.onEcho fun _ => []).onVad fun _ => []).onHum fun _ => []
  let s := (s.onDap fun _ => []).onMedia fun _ => {}
  let s := s.onNet fun t => t.map fun e => (e.1, { e.2 with
    a1 := 0x000A00FF#32, a2 := 0x032002BC#32, a3 := 0x00500046#32, a4 := 0, a5 := 0
    p1 := 0x000047F1#32, p2 := 0x00808080#32, p3 := 0x00008080#32
    rings := [], rules := [], w1 := 0, w2 := 0x00000032#32, shapers := [], weights := [], queues := [], ctr := [], ctrHi := 0, bank := [],
    bankHdr := (0, 0, 0, 0) })
  let s := s.onPower fun p => { p with
    dom := (upto 22).foldl (fun t d => tmod (domain0 d) d (fun (x : Domain) => { x with deepest := deepest0 d }) t) p.dom
    cfgLost := true }
  s.forAll (upto 6) fun s b => s.onBank b fun x => { x with interval := 100, intervalNext := none }

/-- A bank loses the digital state of its loops (R393): filters, call tone, and what of the line's samples has been kept. Settings and states of its
ports come back from the configuration tables. -/
def State.bankLost (s : State) (b : Nat) : State :=
  s.forAll (bankPorts b) fun s p => s.onPort p fun x => { x with
    loop := {}, drive := [], heard := [], lastIn := [], spans := [], driveEv := [], tonePh := 0, conceal := false }

/-- The contents of a domain are lost as it reaches OFF (R393). -/
def State.domLost (s : State) (d : Nat) : State :=
  let s := s.onDom d fun x => { x with lost := true }
  if d = dMgmt then s.mgmtLost else if d = dHub then s.hubLost else if isBank d then s.bankLost (d - 12) else s

/-! ### Transitions (R400, R403) -/

/-- A Hall Pass holds a target of the domain (R388). -/
def State.locked (s : State) (d : Nat) : Bool :=
  s.mem.locks.any fun e => match e.2 with
    | some k => !k.broken && ((d = dMgmt && k.target = 1) || (d = dPantry && (k.target = 2 || k.target = 3)))
    | none => false

/-- A domain that has stopped being ON: network ports are DISABLED, Imdal links go DOWN (R282, R319), and a pool that becomes empty with its Wing
asks for a repack (R357). -/
def State.domDown (s : State) (d : Nat) : State :=
  if d = 18 || d = 19 then
    if (s.netP (d - 18)).state = .disabled then s
    else ((s.onNetP (d - 18) fun n => { n with rate := none, fec := .none, target := none }).ptpSwap (d - 18)).linkTo (d - 18) .disabled
  else if d = dImdal then s.imdalOff
  else if 4 ≤ d && d ≤ 11 && s.pool.isEmpty && (upto 72).any fun t => wingOf t = d - 4 && (s.tile t).state = .substitute then
    s.onTiles fun t => { t with repackDue := true }
  else s

/-- The start of an entry (R92, R177, R400). -/
def State.enterDom (s : State) (d : Nat) (st : DomState) : State :=
  let was := s.domOn d
  let s := if st = .proofing then s.bankHold (d - 12) else s
  let s := s.onDom d fun x => { x with transit := .enter st, entryMono := if was then s.monoNs else x.entryMono }
  if was then s.domDown d else s

/-- A command waits for the domain, or for a child of it (R59). -/
def State.waitsFor (s : State) (d : Nat) : Bool :=
  match s.cmd.waiting with
  | some w => (match w.why with | .domain q => q = d || (parents q).contains d | _ => false)
  | none => false

/-- The source of a wake that the choice of a boundary starts (R408). -/
def State.wakeSource (s : State) (d : Nat) : Nat :=
  match s.votesOn d with
  | [h, sh, f, p, self] =>
    if h then 1 else if sh then 2 else if f then 4 else if p then 5
    else if self then
      if d = dMgmt && ((upto 6).any fun b => (s.bank b).hitLog) then 7
      else if d = dMgmt || d = dImdal || s.waitsFor d then 6
      else if isBank d then (if (s.bank (d - 12)).hitVote then 7 else 8)
      else 9
    else if (s.dom d).deepest = 3 then 6 else 1
  | _ => 1

/-- A domain moves toward the state chosen at this boundary (R399, R400). -/
def State.moveDom (s : State) (d : Nat) (st : DomState) : State :=
  let x := s.dom d
  if d = 0 || x.failed || s.shutDown then s
  else match x.transit with
    | .rise dst k =>
      if dst = .on then s
      else if st = .on then s.wake d (s.wakeSource d)
      else if domCode dst < domCode st then s.onDom d fun x => { x with transit := .rise st k }
      else s
    | .enter _ => s
    | .none =>
      if st = x.state then s
      else if st = .on then s.wake d (s.wakeSource d)
      else if domCode st < domCode x.state then (if s.locked d then s else s.enterDom d st)
      else s.onDom d fun x => { x with transit := .rise st (firstStep x.state) }

/-- An entry completes (R400). -/
def State.entryComplete (s : State) (d : Nat) : State :=
  match (s.dom d).transit with
  | .enter st =>
    let s := s.onDom d fun x => { x with state := st, transit := .none }
    (if st = .off then s.domLost d else s).domChanged d st
  | _ => s

/-- Entries last at most 100 µs: those still in progress when a boundary falls are complete. -/
def State.finishEntries (s : State) : State := s.forAll (upto 22) State.entryComplete

/-- The votes of a boundary, their withdrawal, and the choice (R399, R400). -/
def State.powerBoundary (s : State) : State :=
  let s := if s.domOn dMgmt then s.forAll (upto 6) fun s b => s.onBank b fun x => { x with hitLog := false } else s
  let s := s.onPower fun p => { p with hostEff := p.host, shelfEff := p.shelf, ltolEff := p.ltol }
  let s := s.onPower fun p => { p with fw := if s.fwNeeds then domBit dMgmt else 0, self := s.selfVotes, proof := s.proofVotes }
  let s := s.forAll (upto 22) fun s d =>
    let v := s.voted d
    s.onDom d fun x => { x with
      withdrawn := if v then none else if x.voted then some s.time.ord else x.withdrawn
      voted := v }
  let t := s.choose
  let s := chooseOrder.foldl (fun s d => s.moveDom d (chosen t d)) s
  s.onTiles fun x => { x with
    evict := s.busyWings.filter fun w => !((s.votesOn (4 + w)).take 4).any id && !(s.dwelling (4 + w)) }

/-- Banks that are ON let their held ports go (R177, R396). -/
def State.releaseBanks (s : State) : State := s.forAll (upto 6) fun s b => if s.domOn (dBank b) then s.bankRelease b else s

/-- The boot loader starts in MGMT once MGMT's logic step has begun after OFF (R393, R412), whether or not the rise paused in RECESS. -/
def State.bootStart (s : State) : State :=
  let x := s.dom dMgmt
  let logic := (match x.transit with | .rise _ 4 => true | _ => false)
  if logic && s.domOn dHub && (s.boot.boot = 0 || x.lost) then
    (s.onBoot fun b => { b with boot := if b.bootSrc then 1 else 2, trySlot := false, going := false, passed := false }).onDom dMgmt
      fun x => { x with lost := false }
  else s

/-- What MONO has gained since a domain entered the state that it leaves (R92). -/
def State.slept (s : State) (d : Nat) : Nat := s.monoNs - (s.dom d).entryMono

/-- A network port's buckets refill by rate × elapsed over the sleep of its domain (R92). -/
def State.bringForward (s : State) (d : Nat) : State :=
  let from_ := (s.dom d).entryMono
  let dt := s.slept d
  s.onNetP (d - 18) fun n => { n with
    shapers := n.shapers.map fun x => (x.1, if x.2.en then (x.2.refill from_).refill (from_ + dt) else x.2) }

/-- What a domain restores when it becomes ON (R253, R380, R393). -/
def State.domUp (s : State) (d : Nat) (lost : Bool) : State :=
  let s := if d = 18 || d = 19 then s.bringForward d else s
  if d = dPantry && lost then s.pantryZero
  else if (d = 18 || d = 19) && (s.netP (d - 18)).rates ≠ 0 && (s.netP (d - 18)).state = .disabled then s.negotiate (d - 18)
  else s

/-- A domain reports ON. -/
def State.domIsOn (s : State) (d : Nat) : State :=
  let lost := (s.dom d).lost
  let s := s.onDom d fun x => { x with state := .on, transit := .none, onMono := s.monoNs, failed := false, lost := false }
  let s := s.onPower fun p => { p with first := p.first &&& ~~~domBit d }
  ((s.domUp d lost).domChanged d .on).bootStart

/-- The parents of a domain are all ON. -/
def State.parentsOn (s : State) (d : Nat) : Bool := (parents d).all s.domOn

/-- POWERUP_STEP_READY (R403): the next step starts; a rise to RECESS ends in retention before the logic step, which waits for the
parents and reports the domain ON. -/
def execPowerupStepReady (d : DomIx) (s : State) : Host.Outcome State Fault Refusal :=
  let x := s.dom d
  match x.transit with
  | .rise dst k =>
    if k = 4 then .next (if s.parentsOn d then s.domIsOn d else s)
    else
      let next := if k = 1 then 2 else if k = 2 && x.state = .off then 3 else 4
      if next = 4 && dst = .recess then
        .next ((s.onDom d fun x => { x with state := .recess, transit := .none }).domChanged d .recess)
      else .next (s.onDom d fun x => { x with transit := .rise dst next }).bootStart
  | _ => .next s

/-- The waiting command that needs the domain, or a child of it, completes STATE (R59, R403); one that waits for the boot needs MGMT. -/
def State.failWaiting (s : State) (d : Nat) : State :=
  match s.cmd.waiting with
  | some w => match w.why with
    | .domain q =>
      if q = d || (parents q).contains d then
        (s.onCmd fun m => { m with waiting := none, waitParam := none }).rejectCmd w.src w.cmd stState
      else s
    | .boot => if d = dMgmt || (parents dMgmt).contains d then
        (s.onCmd fun m => { m with waiting := none, waitParam := none }).rejectCmd w.src w.cmd stState
      else s
    | .limit => s
  | none => s

/-- POWERUP_FAILURE (R403): the domain stays OFF. -/
def execPowerupFailure (d : DomIx) (s : State) : Host.Outcome State Fault Refusal :=
  match (s.dom d).transit with
  | .rise _ _ =>
    let kept := (s.dom d).state ≠ .off
    let s := s.onDom d fun x => { x with state := .off, transit := .none, failed := true }
    let s := s.failWaiting d
    let s := if kept then s.domLost d else s
    let s := s.onPower fun p => { p with failDom := BitVec.ofNat 5 d.val }
    .next (s.domChanged d .off)
  | _ => .next s

/-- DOMAIN_ENTRY_COMPLETE (R400). -/
def execDomainEntryComplete (d : DomIx) (s : State) : Host.Outcome State Fault Refusal := .next (s.entryComplete d)

/-- DOMAIN_WAKE (R400): an ON vote that stands raises its domain. -/
def execDomainWake (d : DomIx) (s : State) : Host.Outcome State Fault Refusal :=
  .next (if s.voted d then s.wake d (s.wakeSource d) else s)

/-! ### Host votes and tolerance (R397, R401) -/

/-- A write of PWR_VOTE (R397): a set bit acts at once, a cleared one at the next boundary; AON reads 0b1. -/
def State.writeVote (s : State) (v : BitVec 22) : State :=
  let v := v ||| 1
  let up := (upto 22).filter fun d => v.getLsbD d && !s.power.hostEff.getLsbD d
  let s := s.onPower fun p => { p with host := v, hostEff := p.hostEff ||| v }
  s.forAll up fun s d => s.wake d 1

/-- A write of SHELF_VOTE (R70, R397). -/
def State.writeShelf (s : State) (v : BitVec 22) : State :=
  let v := v ||| 1
  let up := (upto 22).filter fun d => v.getLsbD d && !s.power.shelfEff.getLsbD d
  let s := s.onPower fun p => { p with shelf := v, shelfEff := p.shelfEff ||| v }
  s.forAll up fun s d => s.wake d 2

/-! ### PWR_SET (R402) -/

/-- Arguments of PWR_SET; OP 0b00 from any source but a peer has been DENIED before (R53). -/
def pwrArgsOk (c : CmdWords) : Bool :=
  let d := fld c.a0 0 5
  let op := fld c.a0 8 2
  (c.a0 &&& 0xFFFFFCE0#32) = 0 && c.a2 = 0 && c.a3 = 0 && c.a4 = 0 && c.a5 = 0 &&
    (if op = 0 then (c.a1 &&& 0xFFC00000#32) = 0
     else if op = 1 then
      (c.a1 &&& 0xFFFFFFFC#32) = 0 && decide (d ≤ 21) && (d ≠ 0 || fld c.a1 0 2 = 3) && (fld c.a1 0 2 ≠ 2 || isBank d)
     else if op = 2 then (c.a1 &&& 0xFFFFFC00#32) = 0 && isBank d && decide (1 ≤ fld c.a1 0 10) && decide (fld c.a1 0 10 ≤ 1000)
     else false)

/-- PWR_SET: its own checks. -/
def pwrSetChecked (x : Ctx) (s : State) : Verdict :=
  let c := x.cmd
  let d := fld c.a0 0 5
  let op := fld c.a0 8 2
  if !pwrArgsOk c then .reject stBadarg
  else
    let ch := if op = 0 then
        (match x.src with
         | .peer i => [Change.peerVote i.val (c.a1.setWidth 22)]
         | _ => [])
      else if op = 1 then [Change.deepest d (c.a1.setWidth 2)]
      else [Change.proofInterval (d - 12) (fld c.a1 0 10)]
    .config s s.effectOrd ch 0

/-- A change of PWR_SET in effect: a new interval waits for the end of the bank's next window; the vote of a peer that has left the segment is
withdrawn (R394). -/
def State.applyPower (s : State) (c : Change) : State :=
  match c with
  | .peerVote i v => if s.imdal.state = .enrolled && s.imdal.segment.getLsbD i then s.onPower fun p => { p with peer := tput 0 i v p.peer } else s
  | .deepest d v => s.onDom d fun x => { x with deepest := v }
  | .proofInterval b ms => s.onBank b fun x => { x with intervalNext := some ms }
  | _ => s

/-! ### Reports (R407, R408) -/

/-- The domain is between states. -/
def Domain.moving (x : Domain) : Bool := x.transit ≠ .none

/-- PWR_STATE (R407). -/
def State.pwrState (s : State) : Word :=
  pack [(0, (voteWord s.domOn).toNat),
    (22, (upto 6).foldl (fun v b => v + (if (s.dom (dBank b)).state = .proofing && !(s.dom (dBank b)).moving then 2 ^ b else 0)) 0),
    (28, b2n ((upto 22).any fun d => (s.dom d).moving)), (29, b2n s.power.cfgLost)]

/-- WAKE_SRC (R408). -/
def State.wakeReg (s : State) : Word :=
  pack [(0, s.power.wakeDom.toNat), (8, s.power.wakeSrc.toNat), (16, s.power.wakes.toNat)]

/-- Exit latency of the state in force, µs (R398). -/
def State.latencyNow (s : State) (d : Nat) : Nat := exitLatency (fun p => (s.dom p).state) d (s.dom d).state

/-- ON votes of a domain as five bits, HOST lowest. -/
def State.voteBits (s : State) (d : Nat) : Nat := (s.votesOn d).reverse.foldl (fun a v => 2 * a + b2n v) 0

/-- A word of the power block, by word offset from 0x200 (R407). -/
def State.powerWord (s : State) (k : Nat) : Word :=
  if k < 22 then
    let x := s.dom k
    pack [(0, domCode x.state), (2, b2n x.moving), (3, b2n (!s.voted k && s.dwelling k)), (4, s.voteBits k),
      (9, b2n (isBank k && s.power.proof.getLsbD (k - 12))), (10, x.deepest.toNat), (16, ceilDiv (s.latencyNow k) 10)]
  else if k = 0x16 then s.power.fw.setWidth 32
  else if k = 0x17 then s.peerVotes.setWidth 32
  else if k = 0x18 then s.power.self.setWidth 32
  else if k = 0x19 then s.power.changed
  else w32 (s.bank (k - 0x1A)).interval

end Sys2Proof.Machine
end

