-- ==== Sys2Proof/Machine/Flags.lean ====
section
/-! DEFINITION. The status words that the host registers show, each computed from the state that it reports (chapter 17). -/

namespace Sys2Proof.Machine

/-- IRQ_CAUSE (R67, R450). -/
def State.irqCause (s : State) : Word :=
  let act := (s.hbi.irqStat &&& s.hbi.irqEn).toNat
  let low := ((upto 16).find? fun i => act / 2 ^ i % 2 = 1).getD 0x1F
  pack [(0, act), (16, low), (31, b2n (act ≠ 0))]

/-- IRQ_N is driven low (R67). -/
def State.irqLow (s : State) : Bool := bit s.irqCause 31

/-- GSTAT (R417, R449). BOOT shows a removal before the loader's progress. -/
def State.bootCode (s : State) : BitVec 4 := if s.boot.removal ≠ 0 then s.boot.removal else s.boot.boot

def State.gstat (s : State) : Word :=
  let b := s.boot
  pack [(0, s.bootCode.toNat), (4, b.fail.toNat), (8, b2n b.slot), (9, b2n b.hostLoad), (10, b2n s.tiles.stepping),
    (11, b2n (b.memberPin ≠ 0)), (16, b.restarts.toNat)]

/-- Ports with a converter out of service (R187, R459). -/
def State.convPorts (s : State) : Nat := (s.line.port.filter fun e => e.2.outA || e.2.outB).length

/-- FAULT_SUMMARY (R459): every bit shows its condition as it stands. -/
def State.faultSummary (s : State) : Word :=
  let most := pinnedWings s.boot.memberPin
  pack [(0, b2n (s.convPorts ≠ 0)), (1, b2n (decide (s.healthyTiles < 72))), (2, b2n (s.tiles.shownYet && s.pool.isEmpty)),
    (3, b2n (!s.tiles.stepping && decide (s.tiles.wings < most))), (4, b2n ((upto 22).any fun d => (s.dom d).failed)),
    (5, b2n s.line.plantDiff), (6, b2n (s.boot.slot && !s.boot.hostLoad)), (7, b2n s.mem.mirrorLost), (8, b2n s.imdal.dup),
    (9, b2n s.boot.warn), (10, b2n s.boot.crit), (16, s.power.failDom.toNat), (24, s.convPorts)]

/-- SUBST_LOG (R368, R460): POOL and HEALTHY from the first boundary on. -/
def State.substReg (s : State) : Word :=
  let shown := s.tiles.shownYet
  pack [(0, if shown then s.pool.length else 0), (4, if shown then s.healthyTiles else 0), (16, s.tiles.substs.toNat), (24, s.tiles.lost.toNat)]

/-- TIME_STAT (R82, R457). -/
def State.timeStat (s : State) : Word :=
  let t := s.time
  pack [(0, t.state.toNat), (2, t.refAct.toNat), (4, b2n t.tai), (5, b2n t.slew), (6, b2n t.refclkOk), (7, b2n t.wclkOk),
    (8, t.refSel.toNat), (10, b2n t.wclkOutEn), (11, b2n t.ppsOutEn), (16, t.jumps.toNat), (24, s.hoAge)]

/-- TIME_LATCH (R79, R457). -/
def State.timeLatch (s : State) : Word :=
  let t := s.time
  pack [(1, t.trigSel.toNat), (3, b2n t.arm), (8, b2n t.capValid), (9, b2n t.capUntr)]

/-- CMD_STAT (R61, R454). -/
def State.cmdStat (s : State) : Word :=
  let c := s.cmd
  pack [(0, b2n c.busy), (4, c.status.toNat), (8, c.op.toNat), (16, c.seq.toNat)]

/-- CRING_BASE, CRING_HEAD (R62, R64). -/
def State.cringBase (s : State) : Word := pack [(14, s.cmd.base.toNat), (31, b2n s.cmd.en)]
def State.cringHead (s : State) : Word := pack [(0, s.cmd.head.toNat), (31, b2n s.cmd.ehalt)]

/-- HBI_CFG, HBI_ERR, WIN_STAT (R42, R48, R452, R453). -/
def State.hbiCfg (s : State) : Word := pack [(0, b2n s.hbi.w16), (1, b2n s.hbi.vio33)]
def State.hbiErrReg (s : State) : Word := pack [(0, s.hbi.err.toNat), (16, s.hbi.errCount.toNat)]
def State.winStat (s : State) : Word := pack [(0, s.hbi.winErr.toNat), (8, s.hbi.lastTgt.toNat), (16, s.hbi.wdrop.toNat)]

/-- RCALL (R424, R456). -/
def State.rcall (s : State) : Word := pack [(1, b2n s.boot.rcPending), (2, b2n s.boot.rcAuto), (16, s.boot.rcCount.toNat)]

/-- STATS_SNAP.BUSY, TRACE_CFG, TRACE_STAT (R279, R436, R437). -/
def State.statsSnap (s : State) : Word := pack [(8, b2n (s.trace.copying ≠ 0))]
def State.traceCfg (s : State) : Word :=
  let t := s.trace
  pack [(0, b2n t.portEn), (1, b2n t.ringEn), (2, t.ringSz.toNat), (8, t.classes.toNat)]
def State.traceStat (s : State) : Word :=
  let t := s.trace
  pack [(0, b2n t.portAct), (1, b2n t.ringAct), (2, b2n t.conflict), (3, b2n t.untr), (8, t.wrIdx.toNat)]

/-- ECC_CORR, ECC_UNCORR (R381, R382). -/
def State.eccCorrReg (s : State) : Word :=
  pack [(0, s.mem.corr.toNat), (16, s.mem.corrSrc.toNat), (24, s.mem.scrubH.toNat)]
def State.eccUncorrReg (s : State) : Word :=
  pack [(0, s.mem.uncorr.toNat), (16, s.mem.uncorrSrc.toNat), (24, b2n s.mem.mirrorLost)]

/-- DEV_ID, DEV_REV (R446). -/
def State.devId (s : State) : Word := pack [(0, s.boot.part.toNat), (16, 0x51), (24, 0xB2)]
def State.devRev (s : State) : Word := pack [(0, s.boot.hubRev.toNat), (8, s.boot.lfeRev.toNat), (16, s.boot.pkgRev.toNat)]

end Sys2Proof.Machine
end

