-- ==== Sys2Proof/Machine/Tables.lean ====
section
/-! DEFINITION. The read-only tables and logs of MGMT SRAM (R49, R159, R160, R189, R209, R220 to R222, R245, R246, R315, R316,
R342, R366, R367, R383, R384), formatted from the copies that the device last wrote. -/

namespace Sys2Proof.Machine

/-- One byte, two and four bytes of an entry. -/
def e1 (n : Nat) : List Byte := leBytes 1 n
def e2 (n : Nat) : List Byte := leBytes 2 n
def e4 (w : Word) : List Byte := leBytes 4 w.toNat
def zeros (n : Nat) : List Byte := List.replicate n 0

/-- A level of a positive power in 0.5 dB units below full scale; 0xFF for zero. -/
def dbBelow (k n d : Nat) : Nat := if n = 0 then 255 else (clampI 0 255 (-(log10Units k n d))).toNat

/-! ### Echo and hum tables (R159, R160) -/

/-- Entry of the Leg echo table. -/
def echoEntry (c : Echo) (v : Vad) : List Byte :=
  let a := (f32Val c.erle).natAbs
  e1 (echoCode c.state) ++ e1 (if a = 0 then 0 else (clampI 0 255 (log10Units 20 a (2 ^ 149))).toNat) ++
    e1 (dbBelow 40 (f32Val c.lastG).natAbs (2 ^ 149)) ++ e1 (dbBelow 20 (f32Val v.floor).natAbs (24 * 2 ^ 149)) ++
    e2 c.reverts.toNat ++ e2 c.seeds.toNat ++ e4 c.eventPidx ++ e4 c.dataPidx

def humCode : HumState → Nat
  | .off => 0
  | .search => 1
  | .locked => 2
  | .coast => 3

/-- Entry of the hum table. -/
def humEntry (c : Hum) : List Byte :=
  e4 (w32 c.freq) ++ e1 (humCode c.state) ++ e1 c.level.toNat ++ e1 c.atten.toNat ++ e1 (b2n c.untr) ++ zeros 4 ++ e4 c.dataPidx

/-- Numbers in rising order. -/
def insertNat (n : Nat) : List Nat → List Nat
  | [] => [n]
  | x :: r => if n ≤ x then n :: x :: r else x :: insertNat n r
def sortNat (l : List Nat) : List Nat := l.foldl (fun a n => insertNat n a) []

/-- The grid summary: the lower middle FREQ of the LOCKED ports (R157). -/
def gridEntry (t : Tab Hum) : List Byte :=
  let locked := (t.filter fun e => e.2.state = .locked).map (·.2)
  let fs := sortNat (locked.map (·.freq))
  let grid := fs.getD ((fs.length - 1) / 2) 0
  e4 (w32 grid) ++ e1 fs.length ++ e1 (b2n (locked.any (·.untr))) ++ zeros 6 ++ e4 (match t with | e :: _ => e.2.dataPidx | [] => 0)

/-! ### Line tables (R189, R209, R220 to R222) -/

/-- Signed value as 16 bits, saturating. -/
def s16 (i : Int) : Nat := twos 16 (clampI (-32768) 32767 i)

/-- Power delivered to a line, mW. -/
def PortSt.deliveredMw (x : PortSt) : Nat := ((x.mv * x.i10).toNat + 5000) / 10000

/-- Entry of the port table (R189). -/
def portEntry (wings : Nat) (pidx : Word) (l : Line) (p : Nat) : List Byte :=
  let x := tget {} l.port p
  let c : PortCfg := tget {} l.cfg p
  let b := decide (memberPorts wings ≤ p)
  e1 (portCode x.state) ++ e1 x.cause.toNat ++
    e1 (b2n x.outA + 2 * b2n x.outB + 4 * b2n x.conceal + 8 * b2n x.dropout + 16 * b2n x.budgetWait + 32 * b2n b + 64 * x.comp.toNat) ++
    e1 (c.cls.toNat + 4 * c.mode.toNat) ++ e2 (s16 (divRha x.mv 10)) ++ e2 (s16 x.i10) ++ e2 (min 65535 x.deliveredMw) ++
    e2 (min 65535 x.fetMw) ++ e2 x.surges.toNat ++ e2 x.flats.toNat ++ e4 x.changed ++ e2 x.events.toNat ++ e2 (min 65535 x.nf) ++
    zeros 4 ++ e4 pidx

/-- Ladder step as R69 codes it: the highest step in force. -/
def ladderCode (l : Line) : Nat := ((upto 5).reverse.find? fun i => l.steps.getLsbD i).map (· + 1) |>.getD 0

/-- Power delivered to all lines, mW. -/
def allMw (l : Line) : Nat := l.port.foldl (fun a e => a + e.2.deliveredMw) 0

/-- The card entry (R189). -/
def cardEntry (pidx : Word) (l : Line) : List Byte :=
  e1 (ladderCode l) ++ e1 (b2n l.budgetEn + 2 * b2n l.over0 + 4 * b2n l.plantDiff) ++ zeros 2 ++ e2 (min 65535 (l.plantMv / 10)) ++
    zeros 10 ++ e4 (w32 (l.draws.headD 0)) ++ e4 (w32 (allMw l)) ++ e4 (w32 (if l.budgetEn then l.budgetMw else 0)) ++ e4 pidx

/-- Entry of the watch table (R220). -/
def watchEntry (ord : Nat) (pidx : Word) (l : Line) (p : Nat) : List Byte :=
  let w : Watch := tget {} l.watch p
  let x := tget {} l.port p
  let snd : Sounding := tget {} l.sound p
  let known := (w.draws.zipIdx).foldl (fun a d => a + if d.1.isSome then 2 ^ d.2 else 0) 0
  let q := fun (r : Option Rat) => match r with | some v => min 65535 (ratRound v).toNat | none => 0
  let recent := (w.recoveries.filter fun o => decide (ord < o + 120000)).length
  e1 (w.count.getD 0xFF) ++ e1 (known + 16 * b2n w.unsure + 32 * b2n w.latched) ++ (upto 4).flatMap (fun i => e1 (min 255 (w.counts.getD i 0))) ++
    e2 (q w.is_) ++ (upto 4).flatMap (fun i => e2 (q (w.draws.getD i none))) ++
    e1 (b2n w.tone + 2 * b2n w.dc + 4 * b2n w.toneGen + 8 * b2n w.dcGen + 16 * b2n (w.hostNow ord).isSome +
      32 * b2n (decide (0 < w.freeze) || freezes x w (decide (x.cregRun ≠ 0)))) ++
    e1 snd.status.toNat ++ e1 w.probe.toNat ++ e1 (min 255 recent) ++ e4 w.attPidx ++
    e2 (match w.ohms with | some r => if 6550000 ≤ r then 0xFFFF else r / 100 | none => 0xFFFF) ++ e1 w.toneLvl.toNat ++ zeros 1 ++ e4 pidx

/-- Bank temperature as it reads: -128 °C for a sensor fault (R470). -/
def tempByte (t : Option Int) : Nat := twos 8 (match t with | some c => clampI (-127) 127 c | none => -128)

/-- Entry of a bank (R221). -/
def bankEntry (pidx : Word) (l : Line) (pw : Power) (b : Nat) : List Byte :=
  let x : Bank := tget {} l.bank b
  let proof := (tget (domain0 (dBank b)) pw.dom (dBank b)).state = .proofing
  e2 (min 65535 x.leak) ++ e1 (tempByte x.temp) ++
    e1 (b2n x.leakWarn + 2 * b2n x.localising + 4 * b2n x.tempWarn + 8 * b2n x.tempTrip + 16 * b2n proof) ++ e4 x.hitPidx ++
    e4 x.windows ++ e4 pidx

/-- Entry of the sounding table (R209). -/
def soundEntry (x : Sounding) : List Byte :=
  padTo 512 (e4 x.startPidx ++ e4 x.endPidx ++ e1 x.status.toNat ++ e1 (b2n x.eligible + 2 * b2n x.auto) ++ e2 (min 65535 x.nf) ++
    e4 x.done ++ x.points.flatMap fun z => e4 z.1 ++ e4 z.2)

/-- Entry of the watch log (R222). -/
def watchLogEntry (e : WatchEntry) : List Byte :=
  e4 e.seq ++ e4 e.pidx ++ e1 e.port.toNat ++ e1 e.kind.toNat ++ e2 e.detail.toNat ++ e4 e.value

/-! ### Digital audio tables (R245, R246) -/

/-- Entry of the DAP port table. -/
def dapEntry (pidx : Word) (t : Tab Dap) (p : Nat) : List Byte :=
  let d := tget (dap0 p) t p
  let own := isPdm p && d.master
  padTo 60 (e1 (dapCode d.state) ++ e1 d.mute.toNat ++
    e1 (b2n d.master + 2 * b2n d.autoResume + 4 * b2n d.vmute + 8 * b2n d.stopPend + 16 * classCode d.cls + 64 * b2n (d.untr || d.recUntr)) ++ zeros 1 ++
    e4 (w32 (if own then 48000 else d.measHz)) ++ e4 (w32 d.rateRec) ++ e2 d.drops.toNat ++ e2 d.repeats.toNat ++ e2 d.parity.toNat ++
    e2 d.vframes.toNat ++ e2 d.crccs.toNat ++ e2 d.losses.toNat ++ e4 d.capDrop ++ e4 d.playUnd ++ e4 d.startPidx ++
    e1 d.startSample.toNat ++ zeros 1 ++ e2 d.events.toNat ++ e4 d.eventPidx) ++ e4 pidx

/-- Receive table of a biphase port. -/
def dapRxEntry (d : Dap) : List Byte := padTo 96 d.rxBlock ++ e4 d.rxBlocks ++ zeros 24 ++ e4 d.rxPidx

/-! ### Streams, policers, ring, tiles, logs (R54, R315, R316, R342, R366, R367, R383, R384) -/

/-- Entry of the stream table. -/
def streamEntry (pidx : Word) (untr tx : Bool) (x : Stream) : List Byte :=
  e1 (strCode x.state) ++
    e1 (b2n x.conf + 2 * b2n x.used0 + 4 * b2n x.used1 + 8 * b2n x.anyCall + (if tx then 0 else 16 * b2n untr)) ++
    e2 x.n1.toNat ++ e2 x.n2.toNat ++ e2 x.n3.toNat ++ e2 x.n4.toNat ++ e2 x.n5.toNat ++ e4 pidx

/-- Counters of a policer. -/
def policerEntry (x : Policer) : List Byte := e4 x.green ++ e4 x.yellow ++ e4 x.red ++ e4 x.dropped

def linkCodeIm : ImLink → Nat
  | .down => 0
  | .train => 1
  | .up => 2

/-- The ring table. -/
def ringEntry64 (m : Imdal) (flags : Nat) (pidx : Word) : List Byte :=
  padTo 60 (e1 (ringCode m.state) ++ e1 m.index.toNat ++ e1 (match m.homeroom with | some h => h.toNat | none => 0xFF) ++ e1 flags ++
    e1 (linkCodeIm m.linkE) ++ e1 (linkCodeIm m.linkW) ++ e1 m.segment.toNat ++ e1 m.irqs.toNat ++ e4 m.changed ++
    e1 (match m.seam with | some k => k.toNat | none => 0x80) ++ zeros 3 ++ e4 (w32 (twos 32 (clampI (-2147483648) 2147483647 m.offsetPs))) ++
    e4 (w32 m.delayE) ++ e4 (w32 m.delayW) ++ e4 m.lates ++ e2 m.wraps.toNat ++ e2 m.downs.toNat ++ e4 m.served ++ e4 m.passBytes ++
    e4 m.passNs) ++ e4 pidx

/-- The state as the tile table was last written from it. -/
def State.tileView (s : State) : State :=
  { s with
    tiles := s.shownTiles
    mix := { s.mix with legs := s.shownMix.legs, st := s.shownMix.st, groups := s.shownMix.groups }
    power := { s.power with dom := (upto 22).foldl (fun t d => tmod (domain0 d) d (fun (x : Domain) =>
      { x with state := if s.shown16On.getLsbD d then .on else .off, transit := .none }) t) [] } }

/-- The header of the tile table (R366). -/
def State.tileHeader (s : State) : List Byte :=
  let us := s.mixView.units
  e1 s.healthyTiles ++ e1 s.pool.length ++ e1 (requirement s.tiles.wings) ++ e1 s.tiles.wings ++
    e4 (w32 (us.foldl (fun a u => a + u.charge) 0)) ++ zeros 8 ++ e4 s.tiles.serial ++ e4 s.tiles.ttPidx ++ e4 s.tiles.total ++ e4 s.shown16Pidx

/-- Entry of the Substitution log. -/
def substEntry (e : SubstEntry) : List Byte :=
  e4 e.seq ++ e4 e.pidx ++ e1 e.tile.toNat ++ e1 e.sub.toNat ++ e1 e.cause.toNat ++ e1 e.outcome.toNat ++ e2 e.concealed.toNat ++ zeros 2

/-- Entry of the memory error log. -/
def memEntry (e : MemEntry) : List Byte :=
  e4 e.seq ++ e4 e.pidx ++ e1 e.src.toNat ++ e1 e.flags.toNat ++ e2 e.owner.toNat ++ e4 e.addr

/-- Progress of the Pantry sweep, 0 to 255 (R384). -/
def Memory.progress (m : Memory) : Nat := min 255 (m.scrub0 / 2 ^ 23)

/-- Entry of the matrix table. -/
def masterEntry (pidx : Word) (t : Tab Master) (k : Nat) : List Byte :=
  let x : Master := tget {} t k
  e2 x.decerr.toNat ++ e2 x.slverr.toNat ++ e2 x.offerr.toNat ++ e2 x.timeout.toNat ++ e2 x.broken.toNat ++ e1 x.most.toNat ++
    e1 x.progress.toNat ++ e4 pidx

/-- Register slices by path, default 2 (R387). -/
def Memory.slice (m : Memory) (k : Nat) : Nat := tget 2 m.slices k

/-- Entry of the reject log (R54). -/
def rejectEntry (r : Reject) : List Byte :=
  wordBytes r.cmd.words ++ e1 r.status.toNat ++ e1 r.src.toNat ++ zeros 2 ++ e4 r.epoch ++ e4 r.pidx ++ zeros 4

/-- The entry in a slot of a log of n slots (R222, R367, R383). -/
def logAt {α : Type} (l : List α) (seq : α → Word) (n slot : Nat) (f : α → List Byte) (size : Nat) : List Byte :=
  match l.find? fun e => logSlot n (seq e) = slot with
  | some e => f e
  | none => zeros size

/-- The entry in a slot of the reject log (R54): newest first in the list, entry i of count i + 1 in slot i mod 64. -/
def rejectAt (l : List Reject) (count slot : Nat) : List Byte :=
  match l[((count + 2 ^ 32 - 1) % 64 + 64 - slot) % 64]? with
  | some e => rejectEntry e
  | none => zeros 48

/-- Byte o of table number i, from the bytes of its entries. -/
def inEntry (o size : Nat) (f : Nat → List Byte) : Byte := (f (o / size)).getD (o % size) 0

/-- A byte of the tables below the host area by byte offset; none in the gaps. -/
def State.tableByte (s : State) (a : Nat) : Option Byte :=
  if a < 0x78000 then some (inEntry (a - 0x70000) 16 fun n => streamEntry s.shown16Pidx s.shown16Untr false (tget {} s.shownMedia.rx n))
  else if a < 0x80000 then some (inEntry (a - 0x78000) 16 fun n => streamEntry s.shown16Pidx s.shown16Untr true (tget {} s.shownMedia.tx n))
  else if a < 0x90000 then some (inEntry (a - 0x80000) 16 fun l => echoEntry (tget {} s.shownEcho l) (tget {} s.shownVad l))
  else if a < 0x90300 then some (inEntry (a - 0x90000) 16 fun p => humEntry (tget {} s.shownHum p))
  else if a < 0x90310 then some (inEntry (a - 0x90300) 16 fun _ => gridEntry s.shownHum)
  else if a < 0xA0000 then none
  else if a < 0xA0600 then some (inEntry (a - 0xA0000) 32 (portEntry s.tiles.wings s.shownPidx s.shownLine))
  else if a < 0xA0620 then some (inEntry (a - 0xA0600) 32 fun _ => cardEntry s.shownPidx s.shownLine)
  else if a < 0xA0800 then none
  else if a < 0xA0E00 then some (inEntry (a - 0xA0800) 32 (watchEntry s.shownOrd s.shownPidx s.shownLine))
  else if a < 0xA0E60 then some (inEntry (a - 0xA0E00) 16 (bankEntry s.shownPidx s.shownLine s.shownPower))
  else if a < 0xA1000 then none
  else if a < 0xA7000 then some (inEntry (a - 0xA1000) 512 fun p => soundEntry (s.sounding p))
  else if a < 0xA8000 then none
  else if a < 0xA9000 then
    some (inEntry (a - 0xA8000) 16 fun k => logAt s.line.log (·.seq) 256 k watchLogEntry 16)
  else if a < 0xA9004 then some (inEntry (a - 0xA9000) 4 fun _ => e4 s.line.logSeq)
  else if a < 0xAC000 then none
  else if a < 0xAC400 then some (inEntry (a - 0xAC000) 64 (dapEntry s.shownPidx s.shownDap))
  else if a < 0xAC600 then some (inEntry (a - 0xAC400) 128 fun k => dapRxEntry (s.dapP (12 + k)))
  else if a < 0xB0000 then none
  else if a < 0xB0C00 then
    some (inEntry (a - 0xB0000) 48 fun k => rejectAt s.cmd.rejects s.cmd.rejectCount.toNat k)
  else if a < 0xB0C04 then some (inEntry (a - 0xB0C00) 4 fun _ => e4 s.cmd.rejectCount)
  else if a < 0xB1000 then none
  else if a < 0xB2000 then some (inEntry (a - 0xB1000) 16 fun n => policerEntry (tget {} s.media.policers n))
  else if a < 0xB2040 then some (inEntry (a - 0xB2000) 64 fun _ => ringEntry64 s.shownImdal ({ s with imdal := s.shownImdal } : State).ringFlags s.shownPidx)
  else if a < 0xB3000 then none
  else if a < 0xB3480 then some (inEntry (a - 0xB3000) 16 s.tileView.tileEntry)
  else if a < 0xB34A0 then some (inEntry (a - 0xB3480) 32 fun _ => s.tileView.tileHeader)
  else if a < 0xB3800 then none
  else if a < 0xB3C00 then some (inEntry (a - 0xB3800) 16 fun k => logAt s.tiles.log (·.seq) 64 k substEntry 16)
  else if a < 0xB3C04 then some (inEntry (a - 0xB3C00) 4 fun _ => e4 s.tiles.logSeq)
  else if a < 0xB4000 then none
  else if a < 0xB4400 then some (inEntry (a - 0xB4000) 16 fun k => logAt s.mem.log (·.seq) 64 k memEntry 16)
  else if a < 0xB4404 then some (inEntry (a - 0xB4400) 4 fun _ => e4 s.mem.logSeq)
  else if a < 0xB4800 then none
  else if a < 0xB48A0 then some (inEntry (a - 0xB4800) 16 (masterEntry s.shown16Pidx s.shownMasters))
  else if a < 0xB4900 then none
  else if a < 0xB496E then some (BitVec.ofNat 8 (s.mem.slice (a - 0xB4900)))
  else if a < 0xBF000 then none
  else if a < 0xC0000 then some (s.boot.rcShown.getD (a - 0xBF000) 0)
  else none

/-- The tables are written at a boundary (R161, R189, R245, R316, R342, R366, R384): some at each one, some at every 16th. -/
def State.showTables (s : State) (all : Bool) : State :=
  let s := { s with
    shownPidx := s.pidx
    shownOrd := s.time.ord
    shownLine := s.line
    shownDap := s.dap
    shownImdal := s.imdal
    shownPower := s.power }
  if all then
    { s with
      shown16Pidx := s.pidx
      shownEcho := s.echo
      shownVad := s.vad
      shownHum := s.hum
      shownMedia := s.media
      shownTiles := s.tiles
      shownMasters := tmod {} 9 (fun x => { x with progress := BitVec.ofNat 8 s.mem.progress }) s.mem.masters
      shownMix := s.mixView
      shown16On := voteWord s.domOn
      shown16Untr := s.untrusted }
  else s

/-- Tables are written while MGMT is ON and its firmware runs; all of them once MGMT SRAM has been lost. -/
def State.showBoundary (s : State) : State :=
  if s.serving && s.domOn dMgmt then { s.showTables (!s.shownOk || s.time.ord % 16 = 0) with shownOk := true } else s

end Sys2Proof.Machine
end

