-- ==== Sys2Proof/Machine/Trace.lean ====
section
/-! DEFINITION. Snapshots of counters (R279, R280, R439) and the trace configuration at a boundary (R433 to R436, R440). -/

namespace Sys2Proof.Machine

/-- The bits of a three-bit mask of banks: 0 NET0, 1 NET1, 2 event counters. -/
def bankList (m : BitVec 3) : List Nat := (upto 3).filter fun b => m.getLsbD b

/-- One bank takes its counters and its header but for the epoch word, which waits for the copy's end (R279, R439). -/
def State.copyBank (s : State) (b : Nat) : State :=
  let t := s.time
  if b < 2 then
    s.onNetP b fun n => { n with bank := n.ctr, bankHdr := (t.pidx, w32 t.ns, t.sec.setWidth 32, n.bankHdr.2.2.2) }
  else s.onTrace fun x => { x with bank := x.ctr, bankHdr := (t.pidx, w32 t.ns, x.bankHdr.2.2) }

/-- Banks are taken in one cycle (R279, R280). -/
def State.takeBanks (s : State) (m : BitVec 3) : State :=
  (s.forAll (bankList m) State.copyBank).onTrace fun t => { t with copying := t.copying ||| m }

/-- A register write asks for banks: at once, or when the copy in progress ends (R279, R440). -/
def State.askBanks (s : State) (m : BitVec 3) : State :=
  if m = 0 then s
  else if s.trace.copying ≠ 0 then s.onTrace fun t => { t with heldBanks := t.heldBanks ||| m }
  else s.takeBanks m

/-- One bank is complete: SNAP_EPOCH gains one, and the bank's header shows the new value. -/
def State.bankDone (s : State) (b : Nat) : State :=
  let s := s.onTrace fun t => { t with snapEpoch := t.snapEpoch + 1 }
  let e := s.trace.snapEpoch
  if b < 2 then s.onNetP b fun n => { n with bankHdr := (n.bankHdr.1, n.bankHdr.2.1, n.bankHdr.2.2.1, e) }
  else s.onTrace fun t => { t with bankHdr := (t.bankHdr.1, t.bankHdr.2.1, e) }

/-- The copy in progress ends (R279): its banks complete, then the SNAPSHOTs that named them, and the banks held start. -/
def State.snapshotDone (s : State) : State :=
  if s.trace.copying = 0 then s
  else
    let s := (s.forAll (bankList s.trace.copying) State.bankDone).onTrace fun t => { t with copying := 0 }
    let ready := s.cmd.snaps.filter (·.taken)
    let s := s.onCmd fun c => { c with snaps := c.snaps.filter fun l => !l.taken }
    let s := ready.foldl (fun s l => s.complete l.src l.cmd stOk l.pidx s.trace.snapEpoch) s
    let h := s.trace.heldBanks
    (s.onTrace fun t => { t with heldBanks := 0 }).takeBanks h

/-- SNAPSHOT_COMPLETE (R279). -/
def execSnapshotComplete (s : State) : Host.Outcome State Fault Refusal := .next s.snapshotDone

/-- The bank of a SNAPSHOT whose boundary this is. -/
def State.snapDue (s : State) : BitVec 3 :=
  (s.cmd.snaps.filter fun l => !l.taken && decide (l.ord ≤ s.time.ord)).foldl (fun m l => m ||| l.banks) 0

/-- SNAPSHOTs at a boundary (R280): every copy from before has ended within 2 µs; the named banks are taken in one cycle. -/
def State.snapBoundary (s : State) : State :=
  let s := s.snapshotDone.snapshotDone
  let m := s.snapDue
  if m = 0 then s
  else
    let s := s.takeBanks m
    s.onCmd fun c => { c with
      snaps := c.snaps.map fun l => if !l.taken && l.ord ≤ s.time.ord then { l with taken := true, pidx := s.pidx } else l }

/-- SNAPSHOT: its own checks (R280). -/
def snapshotChecked (x : Ctx) (s : State) : Verdict :=
  let c := x.cmd
  let m : BitVec 3 := c.a0.setWidth 3
  if (c.a0 &&& 0xFFFFFFF8#32) ≠ 0 || m = 0 || c.a1 ≠ 0 || c.a2 ≠ 0 || c.a3 ≠ 0 || c.a4 ≠ 0 || c.a5 ≠ 0 then .reject stBadarg
  else if s.cmd.snaps.any fun l => !l.taken && (l.banks &&& m) ≠ 0 then .reject stBusy
  else
    .later ((s.onCmd fun k => { k with
      snaps := k.snaps ++ [{ src := x.src, cmd := c, ord := s.effectOrd, banks := m, taken := false, pidx := 0 }] }).fwVote)

/-- The trace ring would overlap a host buffer in force (R435). -/
def State.ringClash (s : State) (sz : BitVec 3) : Bool := s.regions.any (overlaps (traceRegion sz))

/-- The ring as the boundary leaves it: started afresh, kept, or stopped by a host buffer (R435). -/
def State.traceRing (s : State) : State :=
  let t := s.trace
  if !t.ringEn then s.onTrace fun t => { t with ringAct := false }
  else if !t.enAct || t.ringSz ≠ t.szAct then
    if s.ringClash t.ringSz then s.onTrace fun t => { t with ringAct := false, conflict := true, wrIdx := 0 }
    else s.onTrace fun t => { t with ringAct := true, wrIdx := 0 }
  else if t.ringAct && s.ringClash t.szAct then s.onTrace fun t => { t with ringAct := false, conflict := true }
  else s

/-- TRACE_CFG takes effect at a boundary (R436), after the staged changes of the boundary. -/
def State.traceBoundary (s : State) : State :=
  s.traceRing.onTrace fun t => { t with enAct := t.ringEn, szAct := t.ringSz, portAct := t.portEn, clsAct := t.classes }

/-- The record of a boundary, class 0x08 (R431). -/
def State.boundaryRecord (s : State) : State :=
  s.record 8 (pack [(0, fld s.cmd.epoch 0 16), (16, fld s.tiles.serial 0 16)])

end Sys2Proof.Machine
end

