-- ==== Sys2Proof/Machine/Apply.lean ====
section
/-! DEFINITION. Configuration changes as they take effect at their boundary (R35, R57), and the configuration that accepted commands
will leave (R104). -/

namespace Sys2Proof.Machine

/-- A port of a stream's PATHS is UP (R294). -/
def State.pathUp (s : State) (tx : Bool) (n : Nat) : Bool :=
  (upto 2).any fun p => strHasPort (s.strm tx n).block p && (s.netP p).state = .up

/-- One change in effect. -/
def State.applyChange (s : State) (c : Change) : State :=
  match c with
  | .streamAct tx n pause => s.streamAct tx n pause (s.pathUp tx n)
  | .streamCancel tx n => s.streamCancel tx n
  | .streamSet tx n b => s.streamConf tx n b
  | .streamRelease tx n => s.streamRelease tx n
  | .enrol => s.enrol
  | .depart => s.goSolo
  | c => (((((s.applyMix c).applyDap c).applyNet c).applyShaping c).applyLine c).applyPower c

/-- Changes in the order of their acceptance. -/
def State.applyAll (s : State) (l : List Staged) : State := l.foldl (fun s g => s.applyChange g.change) s

/-- The state that the changes staged up to a boundary leave (R104). -/
def State.project (s : State) (ord : Nat) : State := s.applyAll (s.cmd.staged.filter fun g => decide (g.ord ≤ ord))

/-- The configuration as accepted, every staged change included (R107). -/
def State.accepted (s : State) : State := s.applyAll s.cmd.staged

/-- The change takes effect at the boundary just opened. -/
def State.isDue (s : State) (g : Staged) : Bool := decide (g.ord ≤ s.time.ord)

/-- The change is due, and its command names an object that the member in force no longer carries (R14). -/
def State.withdrawn (s : State) (g : Staged) : Bool :=
  s.isDue g && s.cmd.staged.any fun x => x.src = g.src && x.cmd = g.cmd && s.isDue x && uncarried s.tiles.wings x.change

/-- Changes due whose command names an object that the member in force no longer carries are discarded (R14, R363). -/
def State.dropUncarried (s : State) : State :=
  (s.cmd.staged.filter s.withdrawn).foldl (fun s g =>
    match g.change with
    | .legAct l _ => s.onLegSt l fun x => { x with armed := none }
    | .dapStart ps => s.forAll (portsOf ps) fun s p =>
        if (s.dapP p).state = .armed then s.onDapP p fun d => { d with state := .ready } else s
    | _ => s) (s.onCmd fun m => { m with staged := m.staged.filter fun g => !s.withdrawn g })

/-- The change takes effect at the boundary that R57 gave its command, which named no other (R58). -/
def Staged.unnamed (g : Staged) : Bool :=
  match g.change with
  | .legAct _ _ => g.cmd.a1 = 0
  | .dapStart _ => g.cmd.a1 = 0
  | .dapStop _ => g.cmd.a1 = 0
  | _ => true

/-- Commands that had completed at acceptance and are withdrawn at the boundary that R57 gave them stand as NOCAP in the reject log (R14,
log 15); an action for a later boundary is discarded only (R363). -/
def State.logWithdrawn (s : State) (dropped : List Staged) : State :=
  ((dropped.filter fun g => g.unnamed && !s.cmd.held.any fun h => h.src = g.src && h.cmd = g.cmd).map fun g => (g.src, g.cmd)).eraseDups.foldl
    (fun s q => (s.count 220).logReject q.1 q.2 stNocap) s

/-- The commands that complete at the boundary just opened (R14): NOCAP where the member in force no longer carries what they
name, else OK. -/
def State.heldDue (s : State) (dropped : List Staged) : State :=
  let due := s.cmd.held.filter fun h => decide (h.ord ≤ s.time.ord)
  due.foldl (fun s h =>
    if dropped.any fun g => g.src = h.src && g.cmd = h.cmd then s.rejectCmd h.src h.cmd stNocap
    else s.complete h.src h.cmd stOk s.pidx h.res1) (s.onCmd fun m => { m with held := m.held.filter fun h => !decide (h.ord ≤ s.time.ord) })

/-- The changes of the boundary just opened take effect in the order of acceptance (R35, R57). -/
def State.configBoundary (s : State) : State :=
  let dropped := s.cmd.staged.filter s.withdrawn
  let s := (s.dropUncarried.logWithdrawn dropped).heldDue dropped
  let due := s.cmd.staged.filter s.isDue
  (s.onCmd fun m => { m with staged := m.staged.filter fun g => !s.isDue g }).applyAll due

end Sys2Proof.Machine
end

