-- ==== Sys2Proof/Machine/RollCall.lean ====
section
/-! DEFINITION. Roll Call (R423 to R428): the block, its digests, its requests and its completion. -/

namespace Sys2Proof.Machine

/-! ### Digests (R426) -/

/-- A digest of n objects from the first. -/
def digest (first n : Nat) (f : Nat → List Byte) : Word := crc32c ((upto n).flatMap fun i => f (first + i))

/-- Canonical records. -/
def legDigestRec (acc : State) (l : Nat) : List Byte := wordBytes (legWords l (acc.legCfg l)) ++ legKeyBytes (acc.legCfg l)
def grpDigestRec (acc : State) (g : Nat) : List Byte := wordBytes (grpWords g (acc.grp g)) ++ e1 (grpCode (acc.grp g).state)
def portDigestRec (acc : State) (p : Nat) : List Byte :=
  let c := acc.portCfg p
  wordBytes [pack [(0, p), (8, c.cls.toNat)], c.a1, c.a2, w32 c.mode.toNat]
def dapDigestRec (acc : State) (p : Nat) : List Byte :=
  let d := acc.dapP p
  wordBytes [d.a0, d.a1, d.a2, d.a3, d.a4, d.a5]
def cardDigestRec (acc : State) : List Byte :=
  let l := acc.line
  wordBytes [l.card0, l.card1, l.card2, l.card3, l.card4, l.card5]
def strDigestRec (acc : State) (tx : Bool) (n : Nat) : List Byte :=
  let x := acc.strm tx n
  padTo 128 x.block ++ e4 (w32 (b2n x.conf))
def netDigestRec (acc : State) (p : Nat) : List Byte :=
  let n := acc.netP p
  let ring := fun k => let r := n.ring k; [r.a1, r.a2, r.a3, r.a4, r.a5]
  let rule := fun k => let r := tget (0#32, 0#32, 0#32) n.rules k; [r.1, r.2.1, r.2.2, 0, 0]
  wordBytes ([n.a1, n.a2, n.a3, n.a4, n.a5] ++ (upto 15).flatMap ring ++ ((upto 5).flatMap fun k => ring (16 + k)) ++
    (upto 16).flatMap rule ++ [n.p1, n.p2, n.p3, 0, 0])
def shaperDigestRec (acc : State) (p : Nat) : List Byte :=
  let n := acc.netP p
  let sh := fun q => let x : Shaper := tget {} n.shapers q; [x.a1, x.a2, x.a3, x.a4, x.a5]
  let wt := fun f => [w32 (tget (weight0 f) n.weights f), 0, 0, 0, 0]
  wordBytes ([n.w1, n.w2, 0, 0, 0] ++ (upto 8).flatMap sh ++ (upto 3).flatMap wt)
def policerDigestRec (acc : State) (k : Nat) : List Byte :=
  let x : Policer := tget {} acc.media.policers k
  wordBytes [x.a1, x.a2, x.a3, x.a4, x.a5]
def mapDigestRec (acc : State) : List Byte :=
  let d := acc.media.dscp
  wordBytes [d.extractLsb' 0 32, d.extractLsb' 32 32, d.extractLsb' 64 32, d.extractLsb' 96 32, 0, acc.media.pcp.setWidth 32, 0, 0, 0, 0]
def domDigestRec (acc : State) (d : Nat) : List Byte :=
  let b := acc.bank (d - 12)
  e2 (acc.dom d).deepest.toNat ++ e2 (if isBank d then b.intervalNext.getD b.interval else 0)

/-- The digests of bytes 0x1C0 to 0x2B7, from the configuration as accepted. -/
def digests (acc : State) : List Word :=
  ((upto 16).map fun i => digest (256 * i) 256 (legDigestRec acc)) ++
  ((upto 16).map fun i => digest (64 * i) 64 (grpDigestRec acc)) ++
  ((upto 6).map fun b => digest (8 * b) 8 (portDigestRec acc)) ++
  [digest 0 16 (dapDigestRec acc), crc32c (cardDigestRec acc)] ++
  ((upto 8).map fun i => digest (256 * i) 256 (strDigestRec acc false)) ++
  ((upto 8).map fun i => digest (256 * i) 256 (strDigestRec acc true)) ++
  ((upto 2).map fun p => crc32c (netDigestRec acc p)) ++
  ((upto 2).map fun p => crc32c (shaperDigestRec acc p)) ++
  [crc32c ((upto 256).flatMap (policerDigestRec acc) ++ mapDigestRec acc), digest 0 22 (domDigestRec acc)]

/-! ### The block (R425) -/

/-- Packed codes, n a byte, w bits each, the lowest index lowest. -/
def packed (w per count : Nat) (f : Nat → Nat) : List Byte :=
  (upto (count / per)).map fun i => BitVec.ofNat 8 ((upto per).foldl (fun a k => a + f (per * i + k) % 2 ^ w * 2 ^ (w * k)) 0)

/-- A completed command as the block shows it. -/
def doneWord (d : Option Done) : Word :=
  match d with
  | none => 0
  | some x => pack [(0, x.seq.toNat), (16, x.status.toNat), (24, 1)]

/-- Number of entries of a list that meet a condition, as two bytes. -/
def count2 {α : Type} (l : List α) (f : α → Bool) : List Byte := e2 (l.filter f).length

/-- Bytes 0x000 to 0x09F. -/
def State.rollHead (s : State) (auto : Bool) (count : Nat) : List Byte :=
  let t := s.time
  [1, BitVec.ofNat 8 (b2n auto + 2 * b2n (auto && s.boot.restarted) + 4 * b2n s.power.cfgLost)] ++ e2 count ++ e4 s.cmd.epoch ++ e4 t.pidx ++
    leBytes 8 t.mono.toNat ++ e1 s.tiles.wings ++ e1 (pinnedWings s.boot.memberPin) ++ zeros 2 ++
    wordBytes [capsA s.tiles.wings, capsB s.tiles.wings, s.timeStat, w32 t.ns, t.sec.setWidth 32, w32 (t.sec.toNat / 2 ^ 32),
      s.hbi.irqStat.setWidth 32, s.hbi.irqEn.setWidth 32, s.faultSummary, s.substReg, s.gstat, s.pwrState, s.power.host.setWidth 32,
      s.power.ltol, s.power.shelf.setWidth 32, s.boot.version] ++
    ((upto 22).flatMap fun d => e1 (domCode (s.dom d).state + 4 * b2n (s.dom d).moving + 8 * s.voteBits d)) ++ zeros 2 ++
    wordBytes [s.cmdStat, s.cringBase, s.cringHead, s.cmd.tail.setWidth 32, s.cmd.cplHead.setWidth 32, doneWord s.cmd.lastRing,
      doneWord s.cmd.lastMbox, s.cmd.rejectCount, s.line.logSeq, s.tiles.logSeq, s.mem.logSeq, 0]

/-- Bytes 0x0A0 to 0x1BF. -/
def State.rollObjects (s : State) : List Byte :=
  let l := s.line
  let tileByte := fun (n : Nat) =>
    let x := s.tile n
    let code := match x.state with | .test => 0 | .working => 1 | .substitute => 2 | .out => 3 | .retired => 4
    e1 (code + 8 * b2n (s.wingOn (wingOf n)) + 16 * x.cause.toNat)
  let str := fun (t : Tab Stream) (st : StreamState) => count2 t fun e => e.2.state = st
  let legs := (upto 4096).map fun k => (s.legSt k).state
  let grps := (upto 1024).map fun g => (s.grp g).state
  ((upto 72).flatMap tileByte) ++ e1 s.healthyTiles ++ e1 s.pool.length ++ e1 (requirement s.tiles.wings) ++ zeros 1 ++ e4 s.tiles.serial ++
    ((upto 48).flatMap fun p => e1 (portCode (s.port p).state) ++ e1 (s.port p).cause.toNat) ++
    e1 (ladderCode l) ++ e1 (b2n l.budgetEn + 2 * b2n l.over0 + 4 * b2n l.plantDiff) ++ e2 (min 65535 (l.plantMv / 10)) ++
    e4 (w32 (l.draws.headD 0)) ++ zeros 8 ++
    ((upto 16).flatMap fun p => e1 (dapCode (s.dapP p).state + 8 * (s.dapP p).mute.toNat)) ++ wordBytes [s.netStatus 0, s.netStatus 1] ++
    count2 s.media.rx (fun e => e.2.conf) ++ str s.media.rx .armed ++ str s.media.rx .run ++ str s.media.rx .starved ++ str s.media.rx .lost ++
    count2 s.media.tx (fun e => e.2.conf) ++ str s.media.tx .armed ++ str s.media.tx .run ++ str s.media.tx .lost ++ zeros 6 ++
    count2 legs (fun x => x = .free) ++ count2 legs (fun x => x = .bound) ++ count2 legs (fun x => x = .active) ++ count2 legs (fun x => x = .paused) ++
    count2 grps (fun x => x = .unused) ++ count2 grps (fun x => x = .open_) ++ count2 grps (fun x => x = .shared) ++ zeros 2 ++
    (ringEntry64 s.imdal s.ringFlags s.pidx).take 16 ++ zeros 16

/-- Bytes 0x1C0 to 0xFF7. -/
def State.rollMaps (s : State) : List Byte :=
  let str := fun (tx : Bool) (n : Nat) => let x := s.strm tx n; strCode x.state + 8 * b2n x.conf
  wordBytes (digests s.accepted) ++ zeros 8 ++ packed 2 4 4096 (fun l => legCode (s.legSt l).state) ++
    packed 2 4 1024 (fun g => grpCode (s.grp g).state) ++ packed 4 2 2048 (str false) ++ packed 4 2 2048 (str true) ++ zeros 56

/-- The 4,096 bytes of the block with a count. -/
def State.rollBlock (s : State) (auto : Bool) (count : Nat) : List Byte :=
  let bs := s.rollHead auto count ++ s.rollObjects ++ s.rollMaps ++ e2 count ++ zeros 2
  bs ++ e4 (crc32c bs)

/-! ### Requests, capture and completion (R423, R424) -/

/-- A Roll Call is requested: it joins a capture that is pending, else it falls at the boundary of R57. -/
def State.rollAsk (s : State) : State :=
  (s.onBoot fun b => { b with rcPending := true, rcAt := some (match b.rcAt with | some o => o | none => s.effectOrd) }).fwVote

/-- ROLL_CALL: its own checks (R423). -/
def rollCallChecked (x : Ctx) (s : State) : Verdict :=
  let c := x.cmd
  if c.a0 ≠ 0 || c.a1 ≠ 0 || c.a2 ≠ 0 || c.a3 ≠ 0 || c.a4 ≠ 0 || c.a5 ≠ 0 then .reject stBadarg
  else
    let s := s.rollAsk
    .later (s.onCmd fun k => { k with
      rolls := k.rolls ++ [{ src := x.src, cmd := c, ord := (s.boot.rcAt.getD s.effectOrd), banks := 0, taken := false, pidx := 0 }] })

/-- The block in writing is complete (R423): it is shown, ROLLCALL is raised, and the ROLL_CALLs that it serves complete. -/
def State.rollComplete (s : State) : State :=
  if s.boot.rcBlock.isEmpty then s
  else
    let s := s.onBoot fun b => { b with
      rcShown := b.rcBlock
      rcBlock := []
      rcCount := b.rcCount + 1
      rcAuto := b.rcAtAuto
      rcPending := b.rcAt.isSome }
    let ready := s.cmd.rolls.filter (·.taken)
    let s := ((s.onCmd fun c => { c with rolls := c.rolls.filter fun l => !l.taken }).raise irqRollcall).count 226
    ready.foldl (fun s l => s.complete l.src l.cmd stOk s.boot.rcPidx s.boot.rcEpoch) s

/-- The block is captured at the boundary just opened; a block still in writing is complete by then. Every request that waits for a
boundary up to this one is served. -/
def State.rollCapture (s : State) (auto : Bool) : State :=
  let s := s.rollComplete
  let bs := s.rollBlock auto ((s.boot.rcCount + 1).toNat)
  let s := s.onBoot fun b => { b with
    rcBlock := bs, rcPidx := s.pidx, rcEpoch := s.cmd.epoch, rcPending := true, rcAt := none, rcAtAuto := auto
    restarted := b.restarted && !auto }
  s.onCmd fun c => { c with rolls := c.rolls.map fun l => { l with taken := true } }

/-- A Roll Call at a boundary: the capture that falls at it, while the firmware runs. -/
def State.rollBoundary (s : State) : State :=
  match s.boot.rcAt with
  | none => s
  | some o => if o ≤ s.time.ord && s.serving && s.domOn dMgmt then s.rollCapture false else s

/-- ROLL_CALL_COMPLETE (R423, R425): by B + 2 ms. -/
def execRollCallComplete (s : State) : Host.Outcome State Fault Refusal :=
  .next (if s.domOn dMgmt then s.rollComplete else s)

end Sys2Proof.Machine
end

