-- ==== Sys2Proof/Machine/Boot.lean ====
section
/-! DEFINITION. Start-up, management restart, removal, thermal and supply supervision (chapters 15 and 18). -/

namespace Sys2Proof.Machine

/-! ### Reset (R411, R412, R465) -/

/-- The device right after the release of PORST_N: straps, fuses and sensed values taken, AON not yet ready. Commands that wait
outside the device, and the model's count of free values, stay. -/
def State.powerOn (k : Straps) (s : State) : State :=
  let r := State.reset
  { r with
    pending := s.pending
    draw := s.draw
    hbi := { r.hbi with ready := false, w16 := k.hbiW16, vio33 := k.vio33 }
    imdal := { r.imdal with index := k.istrap }
    boot := { r.boot with
      part := k.part, hubRev := k.hubRev, lfeRev := k.lfeRev, pkgRev := k.pkgRev, sspAddr := k.sspAddr, bootSrc := k.bootSrc
      memberPin := k.memberPin, testN := k.testN } }

/-- The device while PORST_N is low (R465). -/
def State.inReset (s : State) : State :=
  let r := State.reset
  { r with pending := s.pending, draw := s.draw, hbi := { r.hbi with ready := false }, boot := { r.boot with held := true } }

/-- POWER_ON_RESET (R412). -/
def execPowerOnReset (k : Straps) (s : State) : Host.Outcome State Fault Refusal := .next (s.powerOn k)

/-- RESET_ASSERT (R465). -/
def execResetAssert (s : State) : Host.Outcome State Fault Refusal := .next s.inReset

/-- CORE_SUPPLY_LOW (R466): handled as PORST_N low. -/
def execCoreSupplyLow (s : State) : Host.Outcome State Fault Refusal := .next s.inReset

/-- AON_READY (R412): the host bus, IRQ_N and the Shelf Serial Port leave high impedance. -/
def execAonReady (s : State) : Host.Outcome State Fault Refusal :=
  .next (if s.boot.held then s else s.onHbi fun h => { h with ready := true })

/-! ### The boot loader (R412 to R418) -/

/-- The loader runs in MGMT: in its logic step, or with MGMT ON. -/
def State.loaderRuns (s : State) : Bool :=
  s.domOn dMgmt || (match (s.dom dMgmt).transit with | .rise _ 4 => true | _ => false)

/-- The loader waits for the host (R414). -/
def State.loaderWaits (s : State) : Bool :=
  let b := s.boot
  s.loaderRuns && !b.going && !b.passed && (b.boot = 1 || b.boot = 5 || (b.boot = 6 && b.hostLoad))

/-- The loader reads the flash (R414, R418). -/
def State.loaderReads (s : State) : Bool :=
  let b := s.boot
  s.loaderRuns && !b.going && !b.passed && (b.boot = 2 || (b.boot = 6 && !b.hostLoad))

/-- IMAGE_READ_COMPLETE (R412, R414): authentication of the slot read begins. -/
def execImageReadComplete (s : State) : Host.Outcome State Fault Refusal :=
  .next (if s.loaderReads then
      (s.onBoot fun b => { b with boot := if b.boot = 6 then 6 else 3, going := true, fromHost := false }).onMem fun m =>
        { m with flashSize := some Config.flashBytes }
    else s)

/-- A write of GCTRL.FW_GO (R414): ignored unless the loader waits. -/
def State.fwGo (s : State) : State :=
  if s.loaderWaits then s.onBoot fun b => { b with boot := if b.boot = 6 then 6 else 3, going := true, fromHost := true } else s

/-- The FAIL code of the first check of R416 that fails; none where every check passes. -/
def imageFail (fromHost : Bool) (i : Image) : Option Nat :=
  if !fromHost && i.flashErr then some 7
  else if !i.magicOk then some 1
  else if i.length % 4 ≠ 0 || i.length < 384 || 458752 < i.length then some 2
  else if i.entry % 4 ≠ 0 || i.entry < 0x100 || i.length - 64 ≤ i.entry then some 8
  else if !i.keyOk then some 3
  else if !i.sigOk then some 4
  else if i.rollback < Config.rollbackMin then some 5
  else if i.slices.length ≠ 110 || i.slices.any (fun v => decide (2 < v)) || !i.zerosOk then some 6
  else none

/-- Register slices by path, the default of 2 not listed (R387). -/
def sliceTab (l : List Nat) : Tab Nat := (l.zipIdx).foldl (fun t v => tput 2 v.2 v.1 t) []

/-- The image under authentication: the header of one that the host has loaded lies in the load area (R414, R415). -/
def State.imageOf (s : State) (i : Image) : Image :=
  let byte := fun (a : Nat) => if s.mem.badSram.contains (a / 4) then 0 else Memory.readByte s.mem.sram a
  let word := fun a => w32 (ofLe [byte a, byte (a + 1), byte (a + 2), byte (a + 3)])
  let none_ := fun (a n : Nat) => (upto n).all fun k => byte (a + k) = 0
  if s.boot.fromHost then { i with
    magicOk := word 0 = 0x4F4A4441#32
    flashErr := false
    length := (word 4).toNat
    version := word 8
    rollback := (word 12).toNat
    entry := (word 16).toNat
    slices := (upto 110).map fun k => (byte (0x20 + k)).toNat
    zerosOk := none_ 0x14 12 && none_ 0x8E 2 && none_ 0xD0 48 }
  else i

/-- IMAGE_AUTHENTICATION (R416): a good image starts the firmware under its slices (R387); a bad one leaves FAIL, and the loader goes
to slot B, or fails. -/
def execImageAuthentication (i : Image) (s : State) : Host.Outcome State Fault Refusal :=
  let b := s.boot
  let i := s.imageOf i
  if !b.going || b.passed then .next s
  else match imageFail b.fromHost i with
    | none =>
      .next ((s.onBoot fun b => { b with
        going := false, passed := true, hostLoad := b.fromHost, slot := !b.fromHost && b.trySlot, version := i.version }).onMem fun m =>
          { m with slices := sliceTab i.slices })
    | some f =>
      .next (s.onBoot fun b =>
        let c := { b with going := false, fail := BitVec.ofNat 4 f }
        if b.fromHost || b.trySlot then { c with boot := 5 }
        else { c with boot := if b.boot = 6 then 6 else 2, trySlot := true })

/-- A Period boundary has just been issued: less than a tick has passed. -/
def State.atBoundary (s : State) : Bool := decide (s.time.inPeriod * 2 ^ 24 + s.time.frac.toNat < s.time.incr.toNat)

/-- RUN_BOUNDARY (R412, R418): with MGMT ON and the image authenticated the firmware is in service: tables, RUN, and the automatic Roll
Call. -/
def execRunBoundary (s : State) : Host.Outcome State Fault Refusal :=
  if s.boot.passed && (s.boot.boot = 3 || s.boot.boot = 6) && s.domOn dMgmt && s.atBoundary then
    let s := s.onBoot fun b => { b with boot := 4, unacked := 0, restartDue := false }
    let s := { s with shownOk := true }.showTables true
    .next (s.rollCapture true)
  else .next s

/-- WATCHDOG_EXPIRY (R418): 64 consecutive boundaries without acknowledgement. -/
def execWatchdogExpiry (s : State) : Host.Outcome State Fault Refusal :=
  .next (if s.boot.boot = 4 && 64 ≤ s.boot.unacked then s.onBoot fun b => { b with restartDue := true } else s)

/-- A write of GCTRL.RESTART (R418, R448): ignored unless GSTAT.BOOT is 0x4. -/
def State.orderRestart (s : State) : State :=
  if s.bootCode = 4 then s.onBoot fun b => { b with restartDue := true } else s

/-- MGMT restarts (R418, R444): the pipeline, loops and configuration stay; rings, tables and firmware are lost; PTP is lost. -/
def State.mgmtRestart (s : State) : State :=
  let s := s.mgmtLost.onBoot fun b => { b with
    boot := 6, restarts := satAdd b.restarts 1, going := false, passed := false, trySlot := false, restartDue := false, unacked := 0
    restarted := true }
  if s.time.refAct = 1 then (s.onTime fun t => { t with ptpQual := false }).refUpdate else s

/-- MGMT_RESTART: ordered by the host or the watchdog, else an uncorrectable instruction fetch (R376), which is counted. -/
def execMgmtRestart (s : State) : Host.Outcome State Fault Refusal :=
  if s.boot.boot ≠ 4 || !s.domOn dMgmt then .next s
  else if s.boot.restartDue then .next s.mgmtRestart
  else .next (s.eccUncorr 9 1 0xFFFF (w32 (2 ^ 28 + Config.fetchWord s.mem.logSeq.toNat % 0x1C000))).mgmtRestart

/-! ### Removal (R420 to R422) -/

/-- HOTSWAP_RDY_N is asserted and HOTSWAP raised. -/
def State.assertRdy (s : State) : State := (s.onBoot fun b => { b with rdy := true }).raise irqHotswap

/-- Every domain but AON goes OFF (R478). -/
def State.allOff (s : State) : State :=
  s.forAll ((upto 22).drop 1) fun s d =>
    let x := s.dom d
    if x.state = .off && x.transit = .none then s
    else
      let s := if s.domOn d then s.domDown d else s
      let lost := x.state ≠ .off
      let s := s.onDom d fun y => { y with state := .off, transit := .none, entryMono := s.monoNs }
      (if lost then s.domLost d else s).domChanged d .off

/-- The removal has ended: BOOT 0x8 and RDY, or BOOT as before where the request was released; a thermal removal turns every domain OFF. -/
def State.removalEnd (s : State) : State :=
  let gone := s.boot.released && !s.boot.thermOff
  let s := s.onBoot fun b => { b with removal := if gone then 0 else 8, released := false, b1 := none, b2 := none }
  let s := if gone then s else s.assertRdy
  if s.boot.thermOff then s.allOff else s

/-- The removal sequence starts at its qualification (R420): SELF votes on HUB and MGMT from source 0xB; B1 is the first boundary at least
200 µs later and B2 the one after it. -/
def State.removalStart (s : State) : State :=
  let b1 := if s.time.inPeriod ≤ 300000 then s.time.ord + 1 else s.time.ord + 2
  let s := s.onBoot fun b => { b with
    removal := 7, reqMono := s.monoNs, b1 := some b1, b2 := some (b1 + 1), released := false, unrecorded := true }
  let s := s.onTiles fun t => { t with stepping := false }
  let s := if s.imdal.state = .solo then s else s.onImdal fun m => { m with departAt := some (b1 + 1) }
  ((s.raise irqHotswap).selfVote dHub 11).selfVote dMgmt 11

/-- Every domain but AON is OFF. -/
def State.allDomOff (s : State) : Bool := (upto 22).all fun d => d = 0 || ((s.dom d).state = .off && (s.dom d).transit = .none)

/-- A removal asked for, by HOTSWAP_REQ_N or by temperature (R406, R420, R478). -/
def State.askRemoval (s : State) : State :=
  let early := s.boot.boot = 0 || s.boot.boot = 1 || s.boot.boot = 2 || s.boot.boot = 3 || s.boot.boot = 5
  if s.boot.removal = 7 then s.onBoot fun b => { b with released := false }
  else if s.boot.removal = 8 then s.onBoot fun b => { b with released := false, rdy := true }
  else if s.allDomOff || (early && !s.line.powered) then
    let s := s.assertRdy
    if s.boot.thermOff then (s.onBoot fun b => { b with removal := 8 }).allOff else s
  else s.removalStart

/-- HOTSWAP_REQUEST (R406, R420): the request is new, so HOTSWAP is raised, also where a removal already runs or has ended (R67). -/
def execHotswapRequest (s : State) : Host.Outcome State Fault Refusal :=
  if s.boot.req || !s.hbi.ready then .next s else .next ((s.onBoot fun b => { b with req := true }).askRemoval.raise irqHotswap)

/-- A port still carries loop current, or its setpoint is still being ramped to 0 V (R188, R420). -/
def State.loopLive (s : State) (p : Nat) : Bool :=
  let x := s.port p
  poweredSt x.state || x.dropping || decide (200 ≤ x.i10)

/-- The sequence has come to B2. -/
def State.pastB2 (s : State) : Bool := match s.boot.b2 with | some b => decide (b ≤ s.time.ord) | none => false

/-- At B2 every port goes OFF for the removal; a port whose FET cannot be opened stays as it is (R177, R420). -/
def State.removalBoundary (s : State) : State :=
  if s.boot.removal ≠ 7 || s.boot.b2 ≠ some s.time.ord then s
  else s.forAll (upto 48) fun s p =>
    let x := s.port p
    if x.state = .off || (x.state = .fault && x.cause = BitVec.ofNat 8 cauFet && 200 ≤ x.i10) then s
    else (s.portTo p .off cauRemoval false).onWatch p fun w => { w with latched := false }

/-- REMOVAL_READY (R420): the first boundary after the loop current is below 20 mA on every port. -/
def execRemovalReady (s : State) : Host.Outcome State Fault Refusal :=
  if s.boot.removal = 7 && s.pastB2 && s.atBoundary && !(upto 48).any s.loopLive then .next s.removalEnd else .next s

/-- REMOVAL_DEADLINE (R420): 20 ms after t_r; a port that still carries current is recorded with cause FET. -/
def execRemovalDeadline (s : State) : Host.Outcome State Fault Refusal :=
  if s.boot.removal = 7 && s.boot.reqMono + 20000000 ≤ s.monoNs then
    .next (s.forAll ((upto 48).filter s.loopLive) fun s p =>
      if (s.port p).state = .fault && (s.port p).cause = BitVec.ofNat 8 cauFet then s else s.portFault p cauFet 0).removalEnd
  else .next s

/-- REMOVAL_RECORD (R421): the firmware sets every mode to OFF and counts the removal in CFG_EPOCH. -/
def execRemovalRecord (s : State) : Host.Outcome State Fault Refusal :=
  if s.boot.unrecorded && s.serving && s.domOn dMgmt then
    let s := s.onLine fun l => { l with cfg := (upto 48).foldl (fun t p => tmod {} p (fun (c : PortCfg) => { c with mode := 0 }) t) l.cfg }
    .next ((s.onBoot fun b => { b with unrecorded := false }).onCmd fun c => { c with epoch := epochNext c.epoch })
  else .next s

/-- HOTSWAP_RELEASE (R422): RDY is released; BOOT returns at the next boundary, or at the removal's last one. A thermal removal stays. -/
def execHotswapRelease (s : State) : Host.Outcome State Fault Refusal :=
  if !s.boot.req then .next s
  else .next (s.onBoot fun b => { b with req := false, rdy := false, released := b.removal ≠ 0 })

/-- A removal that has been released ends at a boundary (R422). -/
def State.releaseBoundary (s : State) : State :=
  if s.boot.removal = 8 && s.boot.released && !s.boot.thermOff then s.onBoot fun b => { b with removal := 0, released := false } else s

/-! ### Temperature and supplies (R466, R478) -/

/-- One threshold with its 5 °C of hysteresis. -/
def thermBit (tj th : Int) (was : Bool) : Bool := if th ≤ tj then true else if tj < th - 5 then false else was

/-- TJ_MAX as measured: THERM_WARN and THERM_CRIT, THERM raised at each change. -/
def State.thermal (s : State) (tj : Int) : State :=
  let w := thermBit tj 100 s.boot.warn
  let c := thermBit tj 110 s.boot.crit
  let ch := w ≠ s.boot.warn || c ≠ s.boot.crit
  let s := s.onBoot fun b => { b with tjMax := tj, warn := w, crit := c }
  if ch then s.raise irqTherm else s

/-- THERMAL_THRESHOLD (R478): a value of 120 °C or more has stood for 1 ms; the removal runs and stays until power-on reset. -/
def execThermalThreshold (tj : Int) (s : State) : Host.Outcome State Fault Refusal :=
  let s := s.thermal tj
  if tj < 120 || s.boot.thermOff || s.boot.held then .next s
  else
    let s := s.onBoot fun b => { b with thermOff := true }
    .next (if s.boot.removal = 8 then (s.onBoot fun b => { b with released := false }).allOff
      else if s.boot.removal = 7 then s.onBoot fun b => { b with released := false }
      else s.askRemoval)

/-- A powered port of a die whose VDD_LFE is low goes to FAULT GATE (R466). -/
def State.lfeFault (s : State) (die : Nat) : State :=
  s.forAll ((upto 48).filter fun p => dieOf p = die && poweredSt (s.port p).state) fun s p =>
    let s := if (s.port p).state = .hold then s.bankWake (bankOf p) else s
    s.portFault p cauGate 0

/-- LFE_SUPPLY_LOW (R466, R480). -/
def execLfeSupplyLow (die : DieIx) (s : State) : Host.Outcome State Fault Refusal :=
  .next ((s.onLine fun l => if die = 0 then { l with lfeLowA := true } else { l with lfeLowB := true }).lfeFault die)

/-- LFE_SUPPLY_RESTORED (R466): no recovery of the ports. -/
def execLfeSupplyRestored (die : DieIx) (s : State) : Host.Outcome State Fault Refusal :=
  .next (s.onLine fun l => if die = 0 then { l with lfeLowA := false } else { l with lfeLowB := false })

/-- While VDD_LFE of a die is low its gates cannot close: a port powered meanwhile faults at the boundary. -/
def State.lfeBoundary (s : State) : State :=
  let s := if s.line.lfeLowA then s.lfeFault 0 else s
  if s.line.lfeLowB then s.lfeFault 1 else s

/-- PLANT_ABSENT (R466). -/
def execPlantAbsent (die : DieIx) (s : State) : Host.Outcome State Fault Refusal :=
  .next (s.onLine fun l => if die = 0 then { l with absentA := true } else { l with absentB := true })

/-- PLANT_RETURN (R466). -/
def execPlantReturn (die : DieIx) (s : State) : Host.Outcome State Fault Refusal :=
  .next (s.onLine fun l => if die = 0 then { l with absentA := false } else { l with absentB := false })

end Sys2Proof.Machine
end

