-- ==== Sys2Proof/Machine/Loop.lean ====
section
/-! DEFINITION. The loop of a line port at 768 kHz (R164 to R166, R178, R182, R187, R201, R204): what drives it in a Period, one loop
sample after another, and what follows from them. -/

namespace Sys2Proof.Machine

/-! ### What drives the loop (R164, R192, R204, R213) -/

/-- 10^(-n / 20) (R111: the gain of -n dB). -/
def attenuation (n : Nat) : F32 := gainOf (0x80 - 2 * n)

/-- Sample k of the call tone of a Period (R192, R213): phase in 1/480 turn, envelope on the first Period and on the one after the last. -/
def toneSample (l : Line) (w : Watch) (ph k : Nat) : F32 :=
  let env := if w.toneFade then wOut k else if w.toneGen then (if w.toneLeft = 39 then wIn k else f32One) else 0#32
  f32Mul env (f32Mul (f32Mul (f32OfRatio 1 4) (attenuation (fld l.card4 8 5))) (sinF ((ph + k * (180 + fld l.card4 0 6)) % 480) 480))

/-- Sample k of the sounding tones of the Period with a boundary count (R204). -/
def soundSample (x : Sounding) (ord k : Nat) : F32 :=
  if x.status ≠ 1 then 0#32
  else
    let r := (ord - x.startOrd) % 100
    let env := if r = 0 then wIn k else if r = 99 then wOut k else f32One
    let amp := f32Mul (f32OfRatio 1 64) (attenuation x.lvl)
    let n := (ord - x.startOrd) * 24 + k
    ((soundFreqs.zipIdx).filter fun q => q.2 % 4 = (ord - x.startOrd) / 100).foldl
      (fun a q => f32Add a (f32Mul env (f32Mul amp (sinF (q.1 * n % 1920) 1920)))) 0#32

/-- The drive of the Period that opens: audio, tone and sounding; silence on a port beyond the member (R180). The tone starts at phase zero
(DESIGN CHOICE, log 105). DRV_FS goes with the data (R174). -/
def State.driveBoundary (s : State) (p : Nat) : State :=
  let w := s.watch p
  let x := s.port p
  let aud := match s.mix.lastOut.lookup p with | some o => o.s24 | none => []
  let ph := if w.toneGen && w.toneLeft = 39 then 0 else x.tonePh.toNat
  let d := if s.beyond p || !deliversSt x.state then []
    else (upto 24).map fun k => f32Add (f32Add (f32OfFix (aud.getD k 0) 23) (toneSample s.line w ph k)) (soundSample (s.sounding p) s.time.ord k)
  s.onPort p fun x => { x with
    drive := if d.all (fun v => v = 0#32) then [] else d
    tonePh := if w.toneGen then w32 ((ph + 24 * (180 + fld s.line.card4 0 6)) % 480) else 0
    loop := { x.loop with fs := if deliversSt x.state then (fld (s.portCfg p).a2 0 2 :: x.loop.fs).take 4 else [] } }

/-- What the drive is weighted by at a sample after surge openings (R182): cut, then faded in. -/
def driveFactor (ev : List (Nat × Bool)) (k : Nat) : F32 :=
  match ev.find? fun e => decide (e.1 ≤ k) with
  | none => f32One
  | some (_, false) => 0#32
  | some (a, true) => if k - a < 24 then wIn (k - a) else f32One

/-! ### One loop sample (R164, R178, R187) -/

/-- 1.0 V, 2.0 V or 4.0 V (R172). -/
def fsVolts (code : Nat) : F32 := f32OfRatio (2 ^ code) 1

/-- The limit in force (R178): flat, or in FOLD below half the setpoint falling to FOLD_FLOOR × ILIM at 0 V. -/
def limitAmps (c : PortCfg) (fold : Bool) (set v : F32) : F32 :=
  let lim := f32OfRatio c.ilim 10000
  let half := f32Mul kHalf set
  if !fold || f32Le half v then lim
  else
    let lo := f32OfRatio (2 + fld c.a1 24 2) 10
    f32Mul lim (f32Add lo (f32Mul (f32Sub f32One lo) (f32Div (f32Max 0#32 v) half)))

/-- Which converter reads the reference at a loop sample of a Period (R187): A every 768 samples, B 384 later (DESIGN CHOICE, log 105: A at
the first sample of even boundary counts). -/
def readsRef (ord j : Nat) : Option Bool := if j = 0 then some (ord % 2 = 0) else none

/-- The value that the loop takes of a pair (R187): the mean, the converter in service, or the other one where one reads the reference. -/
def ConvPair.value (c : ConvPair) (ord j : Nat) (a b : F32) : F32 :=
  match readsRef ord j with
  | some true => b
  | some false => a
  | none =>
    let up := f32OfRatio (min 768 (384 + c.age + j)) 768
    let wa := if c.outB then up else if c.outA then f32Sub f32One up else kHalf
    f32Add (f32Mul wa a) (f32Mul (f32Sub f32One wa) b)

/-- The 2nd-order Butterworth high-pass at 4 Hz at the loop rate (R164), its coefficients nearest to the bilinear design (DEDUCED, log 101). -/
def highPass4 : Biquad := [0x3F7FFE7C#32, 0xBFFFFE7C#32, 0x3F7FFE7C#32, 0xBFFFFE7C#32, 0x3F7FFCF8#32]

/-- What one Period's loop samples work under. -/
structure LoopIn where
  ord   : Nat
  cfg   : PortCfg
  convV : ConvPair
  convI : ConvPair
  fold  : Bool
  comp  : Nat
  /-- setpoint in mV by time in the Period, ns -/
  set   : Rat → Rat
  /-- R201: the modulation of a localisation, by loop sample, in V -/
  wave  : Nat → F32
  /-- drive of this Period, with what surge openings leave of it -/
  drive : List F32
  fs    : F32

/-- The setpoint at the end of loop sample j (R164, R201), V. -/
def LoopIn.vset (x : LoopIn) (j : Nat) : F32 :=
  let v := x.set (500000 * (j + 1) / 384)
  f32Add (f32OfRatio v.num (v.den * 1000)) (x.wave j)

/-- The termination at loop sample j (R174), Ω: crossfaded over 384 samples. -/
def LoopIn.zt (x : LoopIn) (l : LoopSt) (j : Nat) : F32 :=
  let to_ : Int := (100 + 2 * fld x.cfg.a1 16 8 : Nat)
  let n : Nat := min 384 (l.ztAge + j + 1)
  f32OfRatio (384 * (l.ztFrom : Int) + (to_ - l.ztFrom) * n) 384

/-- The drive at loop sample j: interpolated by 16 from the samples of this Period and the one before, with a filter that is not stated. -/
def LoopIn.driveAt (x : LoopIn) (l : LoopSt) (j : Nat) : F32 :=
  dot ((upto 24).map fun i => (Config.loopTap true (16 * i + j % 16), (padded l.up ++ padded x.drive).getD (24 + j / 16 - i) 0#32))
where
  padded (b : List F32) : List F32 := (b ++ List.replicate 24 0#32).take 24

/-- One loop sample (R164): v, i, the received voltage after its high-pass, and the loop's state. -/
def LoopIn.sample (x : LoopIn) (j : Nat) (q : LoopSample) (l : LoopSt) : (F32 × F32 × F32) × LoopSt :=
  let v := x.convV.value x.ord j q.vA q.vB
  let i := x.convI.value x.ord j q.iA q.iB
  let hi := biquadStep highPass4 i l.hpI
  let hv := biquadStep highPass4 v l.hpV
  let set := x.vset j
  let vt := f32Sub (f32Add set (f32Mul x.fs (x.driveAt l j))) (f32Mul (x.zt l j) hi.1)
  let lim := limitAmps x.cfg x.fold set v
  let cm := f32Le lim i || (l.cmode && f32Lt v vt)
  let gate := Config.control cm x.comp (if cm then f32Sub lim i else f32Sub vt v) l.gate
  ((v, i, hv.1), { l with hpI := hi.2, hpV := hv.2, cmode := cm, gate := gate })

/-- The loop samples of a Period: values, loop in current mode at each, and the loop's state. -/
def LoopIn.samples (x : LoopIn) : Nat → List LoopSample → LoopSt → List (F32 × F32 × F32 × Bool) × LoopSt
  | _, [], l => ([], l)
  | j, q :: r, l =>
    let a := x.sample j q l
    let b := x.samples (j + 1) r a.2
    ((a.1.1, a.1.2.1, a.1.2.2, a.2.cmode) :: b.1, b.2)

/-! ### What follows from a Period's loop samples -/

/-- The mean of numbers as an integer in units of 1 / k. -/
def meanIn (k : Nat) (l : List F32) : Int :=
  if l.isEmpty then 0 else divRha (k * l.foldl (fun a v => a + f32Val v) 0) (l.length * 2 ^ 149)

/-- The check of a pair over a Period (R187), fs its full scale: means apart by more than 0.25 %, rms of the difference above 0.1 %, the
reference more than 0.1 % from its value. -/
def pairCheck (ord fs : Nat) (ab : List (F32 × F32)) : ConvMeas :=
  let d := (ab.drop 1).map fun q => f32Val q.1 - f32Val q.2
  let n := d.length
  let off := fun (v : F32) => decide (2 ^ 149 < 1000 * (f32Val v - 2 ^ 149).natAbs)
  let ref := ab.headD (f32One, f32One)
  { disagree := decide (n * fs * 2 ^ 149 < 400 * (d.foldl (· + ·) 0).natAbs) ||
      decide (n * (fs * 2 ^ 149) ^ 2 < 10 ^ 6 * (d.foldl (fun a v => a + v * v) 0).natAbs)
    suspectA := readsRef ord 0 = some true && off ref.1
    suspectB := readsRef ord 0 = some false && off ref.2 }

/-- Samples received (R164): decimated by 16 with a filter that is not stated, divided by RX_FS, rounded as R128 rounds. -/
def received (rx : F32) (old new : List F32) : List Int :=
  let u := (old ++ List.replicate (384 - old.length) 0#32) ++ new
  (upto 24).map fun k =>
    s24OfF32 (f32Div (dot ((upto 384).map fun i => (Config.loopTap false i, u.getD (384 + 16 * k + 15 - i) 0#32))) rx)

/-- The amplitude of a sequence at f × 25 Hz, n loop samples into a sounding (R204). -/
def amplitude (f n : Nat) (u : List F32) : Cx :=
  (dot (u.zipIdx.map fun q => (q.1, cosF (f * (n + q.2) % 30720) 30720)),
   dot (u.zipIdx.map fun q => (q.1, f32Neg (sinF (f * (n + q.2) % 30720) 30720))))

/-- A measuring Period of a sounding (R204): Periods 19 to 98 of a step. -/
def Sounding.measured (x : Sounding) (ord : Nat) (v i : List F32) : Sounding :=
  let k := ord - x.startOrd
  if x.status ≠ 1 || k % 100 < 19 || k % 100 = 99 then x
  else
    { x with amps := ((soundFreqs.zipIdx).filter fun q => q.2 % 4 = k / 100).foldl (fun t q =>
        let a := tget (cxZero, cxZero) t q.2
        tins q.2 (cxAdd a.1 (amplitude q.1 (384 * k) v), cxAdd a.2 (amplitude q.1 (384 * k) i)) t) x.amps }

/-- The loop of a port over the Period that closes, where its loop samples are given: the state, and the measurement with what follows from
them in place of its figures. -/
def State.loopRun (s : State) (p : Nat) (m : LoopMeas) : State × LoopMeas :=
  let x := s.port p
  let c := s.portCfg p
  if m.raw.isEmpty || !(x.state = .ramp || x.state = .on || x.state = .fold) then (s.onPort p fun x => { x with heard := [] }, m)
  else
    let b := s.bank (bankOf p)
    let n := 384 * (s.time.ord - b.locOrd)
    let k : LoopIn := {
      ord := s.time.ord
      cfg := c
      convV := x.convV
      convI := x.convI
      fold := x.state = .fold
      comp := x.comp.toNat
      set := x.setAt
      wave := fun j => if b.localising then f32Mul kHalf (sinF ((4 + p % 8) * (n + j) % 3072000) 3072000) else 0#32
      drive := (x.drive.zipIdx).map fun q => f32Mul (driveFactor x.driveEv (s.time.ord * 24 + q.2)) q.1
      fs := fsVolts (x.loop.fs.getD 3 (fld c.a2 0 2)) }
    let r := k.samples 0 m.raw x.loop
    let v := r.1.map (·.1)
    let i := r.1.map (·.2.1)
    let u := r.1.map (·.2.2.1)
    let mean := meanIn 1000000 i
    let low := i.foldl (fun a w => min a (f32Val w)) (2 ^ 149)
    let fet := r.1.foldl (fun (a : Int) q => a + ((s.line.plantMv : Int) * 2 ^ 149 - 1000 * f32Val q.1) * f32Val q.2.1) 0
    let s := s.onPort p fun x => { x with
      heard := received (fsVolts (fld c.a2 2 2)) x.loop.down u
      loop := { r.2 with up := k.drive, down := u } }
    let s := s.onSounding p fun q => q.measured s.time.ord v i
    let s := s.onWatch p fun w => { w with last64 := meanIn 10000 (i.drop 320) }
    (s, { m with
      mv := meanIn 1000 v
      ua := mean
      creg := r.1.all (·.2.2.2)
      cregPart := r.1.any (·.2.2.2)
      flat := decide (low * 1000 < 2 * 2 ^ 149) && decide (low * 1000000 < mean * 2 ^ 149)
      convV := pairCheck s.time.ord 50 (m.raw.map fun q => (q.vA, q.vB))
      convI := pairCheck s.time.ord 1 (m.raw.map fun q => (q.iA, q.iB))
      fetMw := (divRha fet (m.raw.length * 2 ^ 298)).toNat })

end Sys2Proof.Machine
end

