-- ==== Sys2Proof/Machine/Matrix.lean ====
section
/-! DEFINITION. The bus matrix and the memories' protection (chapter 13): targets, reach, Hall Passes, time-outs, the patrol scrub, and
what uncorrectable words do at a boundary. -/

namespace Sys2Proof.Machine

/-! ### Targets (R44, R384, R481) -/

/-- Target code of a window address, in the column order of R384: AONREG, MGMT SRAM, PANTRY0, PANTRY1, TILENET, LFE-A, LFE-B, NETREG,
DAPREG, SPI flash, default. -/
def targetOf (w : Word) : Nat :=
  match fld w 28 4 with
  | 0 => 0
  | 1 => 1
  | 2 => 4
  | 3 => 5
  | 4 => 6
  | 5 => 7
  | 6 => 8
  | 7 => 9
  | 8 => 2
  | 9 => 2
  | 10 => 3
  | 11 => 3
  | _ => 10

/-- Word offset within a target. -/
def offsetOf (w : Word) : Nat := fld w 0 28

/-- The domain by which an access at an offset of a target is judged (R481); none for the default target. -/
def targetDomain (t off : Nat) : Option Nat :=
  match t with
  | 0 => some 0
  | 1 => some dMgmt
  | 2 => some dPantry
  | 3 => some dPantry
  | 4 => some dHub
  | 5 => if off < 0x300000 then some (dBank (off / 0x100000)) else some 0
  | 6 => if off < 0x300000 then some (dBank (3 + off / 0x100000)) else some 0
  | 7 => if off < 0x2000 then some (dNet (off / 0x1000)) else some 0
  | 8 => some dDap
  | 9 => some dMgmt
  | _ => none

/-- Targets that a master reaches, in a direction (R384). -/
def mayReach (m t : Nat) (write : Bool) : Bool :=
  match m with
  | 0 => if write then t = 1 || t = 2 || t = 3 || t = 7 || t = 8 else decide (t ≤ 9)
  | 1 => !write && (t = 1 || t = 9)
  | 2 => decide (t ≤ 9)
  | 3 => t = 2 || t = 3
  | 4 => t = 2 || t = 3
  | 5 => t = 2 || t = 3
  | 6 => t = 1
  | 7 => t = 1
  | 8 => if write then t = 2 else decide (t ≤ 8)
  | _ => t = 1 || t = 2 || t = 3

/-- Targets that a master reaches at all (R384). -/
def reaches (m t : Nat) : Bool := mayReach m t false || mayReach m t true

/-- A saturating count of one kind in a master's entry (R384). -/
def Master.addDec (x : Master) : Master := { x with decerr := satAdd x.decerr 1 }
def Master.addSlv (x : Master) : Master := { x with slverr := satAdd x.slverr 1 }
def Master.addOff (x : Master) : Master := { x with offerr := satAdd x.offerr 1 }
def Master.addTime (x : Master) : Master := { x with timeout := satAdd x.timeout 1 }
def Master.addBroken (x : Master) : Master := { x with broken := satAdd x.broken 1 }
def Master.addLock (x : Master) : Master := { x with lockerr := satAdd x.lockerr 1 }
/-- A transaction was outstanding. -/
def Master.busy (x : Master) : Master := { x with most := if x.most = 0 then 1 else x.most }

/-- Every bank of a die that a target holds, or the one domain of another target, is ON: the target as a whole answers. -/
def State.targetOn (s : State) (t : Nat) : Bool :=
  s.domOn dHub && (match t with
    | 5 => [12, 13, 14].any s.domOn
    | 6 => [15, 16, 17].any s.domOn
    | 7 => s.domOn 18 || s.domOn 19
    | t => match targetDomain t 0 with | some d => s.domOn d | none => true)

/-! ### Hall Passes (R388, R389) and time-outs (R385) -/

/-- The Hall Pass that a master holds, not broken. -/
def State.passOf (s : State) (m : Nat) : Option HallPass :=
  match tget none s.mem.locks m with
  | some k => if k.broken then none else some k
  | none => none

/-- A target is held by a Hall Pass. -/
def State.heldTarget (s : State) (t : Nat) : Bool := s.mem.locks.any fun e => match e.2 with | some k => !k.broken && k.target = t | none => false

/-- An access of the window that ends in a row of R47: its bit, WDROP for a write. -/
def State.winFail (s : State) (b : BitVec 5) (write : Bool) : State :=
  s.onHbi fun h => { h with winErr := h.winErr ||| b, wdrop := if write then satAdd h.wdrop 1 else h.wdrop }

/-- A Hall Pass breaks (R389): the break is counted; with stalled, the holder's next access under it returns LOCKERR. -/
def State.breakPass (s : State) (m : Nat) (k : HallPass) (stalled : Bool) : State :=
  ((s.onMem fun x => { x with locks := tput none m (if stalled then some { k with broken := true } else none) x.locks }).onMaster m
    Master.addBroken).count 221

/-- Beats of a locked transaction under a Hall Pass (R388, R389): the 33rd is not performed and breaks the pass; a final transaction ends it. -/
def State.lockedBeats (s : State) (m : Nat) (k : HallPass) (a : LockedAccess) : State :=
  let n := k.beats + a.more.val + 1
  if 32 < n then (s.breakPass m k false).onMaster m Master.addLock
  else s.onMem fun x => { x with
    locks := tput none m (if a.final then none else some { k with beats := n, beatMono := s.monoNs }) x.locks }

/-- HALL_PASS_GRANT, a locked transaction (R388, R389): under a pass that the master holds it adds its beats; the first one after a pass that stalled
returns LOCKERR; else the pass is granted. The request is answered DECERR, OFFERR or SLVERR where it may not be granted; while another master
holds the target, nothing is granted. -/
def execHallPassGrant (m : Fin 10) (a : LockedAccess) (s : State) : Host.Outcome State Fault Refusal :=
  let t := a.target
  if m ≠ 2 && m ≠ 6 && m ≠ 7 then .next s
  else if !reaches m t then .next (s.onMaster m Master.addDec)
  else if !s.targetOn t then .next (s.onMaster m Master.addOff)
  else if t ≠ 1 && t ≠ 2 && t ≠ 3 then .next (s.onMaster m Master.addSlv)
  else match tget none s.mem.locks m with
    | some k =>
      if k.broken then
        if k.target = t.val then .next ((s.onMem fun x => { x with locks := tput none m none x.locks }).onMaster m Master.addLock)
        else .next (s.onMaster m Master.addSlv)
      else .next (if k.target = t.val then s.lockedBeats m k a else s.onMaster m Master.addSlv)
    | none =>
      if s.heldTarget t then .next s
      else .next ((s.lockedBeats m { target := t.val, broken := false } a).onMaster m Master.busy)

/-- HALL_PASS_BREAK (R389): no beat for 256 ns; the next access under it returns LOCKERR. -/
def execHallPassBreak (m : Fin 10) (s : State) : Host.Outcome State Fault Refusal :=
  match s.passOf m with
  | none => .next s
  | some k => .next (s.breakPass m k true)

/-- A Hall Pass whose holder has issued no beat for 256 ns breaks at a boundary at the latest (R389). -/
def State.passBoundary (s : State) : State :=
  s.mem.locks.foldl (fun s e => match e.2 with
    | some k => if !k.broken && k.beatMono + 256 ≤ s.monoNs then s.breakPass e.1 k true else s
    | none => s) s

/-- Most transactions outstanding (R384), as every 16th boundary shows them: the HBI has one at a time; of another master the number is free, up to
16 (R386; DESIGN CHOICE, log 139). -/
def State.mostBoundary (s : State) : State :=
  if s.time.ord % 16 ≠ 0 || !s.domOn dHub then s
  else (List.range 9).foldl (fun s i => s.onMaster (i + 1) fun x =>
    { x with most := BitVec.ofNat 8 (max x.most.toNat (Config.outstanding (i + 1) s.time.ord % 17)) }) s

/-- MATRIX_TIMEOUT (R385): a target that a master reaches, in a domain that is ON, has been silent for 10 µs. -/
def execMatrixTimeout (m : Fin 10) (a : MatrixAccess) (s : State) : Host.Outcome State Fault Refusal :=
  if mayReach m a.target a.write && s.targetOn a.target then
    let s := s.onMaster m fun x => x.addTime.busy
    .next (if m = 0 then s.winFail (BitVec.ofNat 5 8) a.write else s)
  else .next s

/-! ### Regions of Pantry (R371, R383) -/

/-- Source code of a byte of Pantry, both stacks laid end to end (R371, R383). -/
def pantrySrc (a : Nat) : Nat :=
  let o := a % 2 ^ 31
  if o < 0x40000000 then 8 else if o < 0x60000000 then 1 else if o < 0x62000000 then 2 else if o < 0x64000000 then 3
  else if o < 0x68000000 then 4 else if o < 0x70000000 then 6 else 7

/-- Leg, stream or tile that a word belongs to (R373, R371, R383); where the manual does not lay out the region, a free value. Running state
is of a Leg or a group, a Period buffer of a tile or a Leg, a configuration record of any object. -/
def wordOwner (a : Nat) : Nat :=
  let o := a % 2 ^ 31
  let st := a / 2 ^ 31
  let k := Config.wordOwner a
  match pantrySrc a with
  | 1 => 2 * ((o - 0x40000000) / 0x40000) + st
  | 6 => 2 * ((o - 0x68000000) / 0x20000) + st
  | 3 => if k % 2 = 0 then k / 2 % 4096 else 0xFFFF
  | 2 => if k % 2 = 0 then k / 2 % 72 else k / 2 % 4096
  | 4 => let r := Config.wordOwner o
    if r % 7 = 0 then r / 7 % 4096 else if r % 7 = 2 || r % 7 = 3 then r / 7 % 2048 else 0xFFFF
  | _ => 0xFFFF

/-! ### Patrol scrub (R378, R379) -/

/-- Bytes that one scrub read takes. -/
def scrubBeat : Nat := 32

/-- The word of a read meets a double-bit error: it is uncorrectable from now on, unless a master has written it meanwhile. -/
def addBad (w : Nat) (l : List Nat) : List Nat := if l.contains w then l else w :: l

/-- A scrub read of Pantry, at the address that the sweep of a stack has reached: every uncorrectable word of it counts, at its own address (R376,
R383). A new error of the read lies in its first word (DESIGN CHOICE, log 140). -/
def State.scrubPantry (s : State) (stack : Nat) (e : Ecc) (raced : Bool) : State :=
  let at_ := if stack = 0 then s.mem.scrub0 else s.mem.scrub1
  let a := stack * 2 ^ 31 + at_
  let w := a / 4
  let next := (at_ + scrubBeat) % 2 ^ 31
  let s := s.onMem fun m => if stack = 0 then { m with scrub0 := next } else { m with scrub1 := next }
  let met := if e = .double then addBad w (s.badAll a scrubBeat) else s.badAll a scrubBeat
  let s := if e = .double && !raced then s.onMem fun m => { m with badPantry := addBad w m.badPantry } else s
  let s := met.foldl (fun s w => (if pantrySrc a = 8 then s.eccUncorr 8 9 (wordOwner (4 * w)) (pantryWindow (4 * w))
    else s.eccCorr (pantrySrc a) true 9 (wordOwner (4 * w)) (pantryWindow (4 * w))).slvErr 9) s
  if e = .single then s.eccCorr (pantrySrc a) false 9 (wordOwner a) (pantryWindow a) else s

/-- A scrub read of MGMT SRAM. -/
def State.scrubSram (s : State) (e : Ecc) (raced : Bool) : State :=
  let a := s.mem.scrubS
  let s := s.onMem fun m => { m with scrubS := (a + scrubBeat) % 2 ^ 20 }
  let known := badWords s.mem.badSram a scrubBeat
  let met := if e = .double then addBad (a / 4) known else known
  let s := if e = .double && !raced then s.onMem fun m => { m with badSram := addBad (a / 4) m.badSram } else s
  let s := met.foldl (fun s w => (s.eccCorr 9 true 9 0xFFFF (w32 (2 ^ 28 + w))).slvErr 9) s
  if e = .single then s.eccCorr 9 false 9 0xFFFF (w32 (2 ^ 28 + a / 4)) else s

/-- SCRUB_READ (R378, R379): the Pantry sweep runs while PANTRY is ON and SCRUB_H is not zero, that of MGMT SRAM while MGMT is ON. -/
def execScrubRead (pantry : Bool) (stack : Fin 2) (e : Ecc) (raced : Bool) (s : State) : Host.Outcome State Fault Refusal :=
  if !s.domOn dHub then .next s
  else if pantry then .next (if s.domOn dPantry && s.mem.scrubH ≠ 0 then s.scrubPantry stack e raced else s)
  else .next (if s.domOn dMgmt then s.scrubSram e raced else s)

end Sys2Proof.Machine
end

