-- ==== Sys2Proof/Machine/Records.lean ====
section
/-! DEFINITION. What uncorrectable words do at a boundary (R376), and the two copies of the configuration records (R377, R390). -/

namespace Sys2Proof.Machine

/-! ### Configuration records (R377, R390) -/

/-- Which record lies at an offset of the configuration tables: its kind and its number. It is a free value: the manual does not lay the tables out
(R371). Kinds are Leg, group, RX stream, TX stream, port, DAP port, network port. -/
def recordAt (off : Nat) : Nat × Nat :=
  let k := Config.wordOwner off
  let most := [4096, 1024, 2048, 2048, 48, 16, 2]
  (k % 7, k / 7 % most.getD (k % 7) 1)

/-- The record that a change rewrites. -/
def Change.record : Change → Option (Nat × Nat)
  | .legSet l _ _ _ => some (0, l)
  | .legUnbind l => some (0, l)
  | .keySet l _ _ _ => some (0, l)
  | .grpSet g _ _ _ _ => some (1, g)
  | .grpClose g => some (1, g)
  | .grpShare g _ => some (1, g)
  | .grpUnshare g => some (1, g)
  | .streamSet tx n _ => some (if tx then 3 else 2, n)
  | .streamRelease tx n => some (if tx then 3 else 2, n)
  | .portSet p _ _ _ => some (4, p)
  | .portPower p _ => some (4, p)
  | .dapSet p _ _ _ _ _ _ _ => some (5, p)
  | .dapDisable p => some (5, p)
  | .window p _ _ => some (6, p)
  | .shaper p _ _ _ _ _ _ => some (6, p)
  | .weight p _ _ => some (6, p)
  | .netPort p _ _ _ _ _ => some (6, p)
  | .netRing p _ _ _ _ _ _ _ => some (6, p)
  | .netRule p _ _ _ _ => some (6, p)
  | .netPtp p _ _ _ => some (6, p)
  | _ => none

/-- A network port's record takes its power-on reset values (R377): a port that is enabled becomes DISABLED, and its rings no longer own the frame on
the wire. -/
def State.netReset (s : State) (p : Nat) : State :=
  (s.netPortSet p 0x000A00FF#32 0x032002BC#32 0x00500046#32 0 0).onNetP p fun n => { n with
    p1 := 0x000047F1#32, p2 := 0x00808080#32, p3 := 0x00008080#32, ptpMono := [], rings := [], rules := [], w1 := 0, w2 := 0x00000032#32
    shapers := [], weights := [], wire := n.wire.map fun w => { w with own := false } }

/-- A configuration record of which both copies are lost takes its power-on reset values, with the state changes that they imply under R103 and R291
(R377): a Leg is FREE, a stream IDLE, a port OFF. -/
def State.recordReset (s : State) (r : Nat × Nat) : State :=
  match r.1 with
  | 0 => s.legUnbind r.2
  | 1 => s.onGrp r.2 fun _ => {}
  | 2 => s.streamRelease false r.2
  | 3 => s.streamRelease true r.2
  | 4 => (s.portPower r.2 0).onPortCfg r.2 fun _ => {}
  | 5 => s.onDapP r.2 fun _ => dap0 r.2
  | _ => s.netReset r.2

/-- The other copy of a configuration word, primary on PANTRY0 and mirror on PANTRY1. -/
def otherCopy (w : Nat) : Nat := if w < 2 ^ 29 then w + 2 ^ 29 else w - 2 ^ 29

/-- The mirror's value is copied over the primary (R377). -/
def State.configMend (s : State) (w : Nat) : State :=
  ((s.clearBad (4 * w) 4).eccCorr 4 true 2 (wordOwner (4 * w)) (pantryWindow (4 * w))).slvErr 2

/-- A configuration word in error at a boundary (R377, R390). Reads go to the primary: an error of the mirror alone is not met. Of a primary in error
the mirror's value is used, unless a command that takes effect at this boundary has rewritten the record; with both copies lost the record takes its
reset values, and a command then applies at its own boundary. -/
def State.configWord (s : State) (w : Nat) : State :=
  let r := recordAt (4 * w)
  if !s.mem.badPantry.contains w || pantrySrc (4 * w) ≠ 4 || 2 ^ 29 ≤ w then s
  else if s.mem.badPantry.contains (otherCopy w) then
    ((((s.clearBad (4 * w) 4).clearBad (4 * otherCopy w) 4).recordReset r).eccUncorr 5 2 (wordOwner (4 * w)) (pantryWindow (4 * w))).slvErr 2
      |>.onMem fun m => { m with mirrorLost := true }
  else if s.cmd.staged.any fun g => s.isDue g && g.change.record = some r then s.clearBad (4 * w) 4
  else s.configMend w

/-- The configuration words in error that the boundary meets, before the commands that take effect at it (R390). -/
def State.configErrors (s : State) : State := if s.domOn dPantry then s.mem.badPantry.foldl State.configWord s else s

/-! ### The other regions (R376) -/

/-- A word of a Leg's or group's running state (R376): it restarts as at bind. -/
def State.runningWord (s : State) (w : Nat) : State :=
  let k := Config.wordOwner (4 * w)
  let l := k / 2 % 4096
  let s := if k % 2 = 0 then
      let s := (s.onVadL l fun v => { v with ring := [], runMin := none, count := 0 }).onHumL l fun h =>
        if h.state = .off then h else { h with state := .search, running := false, count := 0 }
      s.onMix fun m => { m with adm := m.adm.map fun g => (g.1, g.2.filter fun e => e.leg ≠ l) }
    else s.onMix fun m => { m with adm := tdel (k / 2 % 1024) m.adm }
  (s.clearBad (4 * w) 4).eccCorr 3 true 7 (wordOwner (4 * w)) (pantryWindow (4 * w))

/-- A word of a Period buffer (R376): the tile whose inputs it holds has failed, or the output of its Leg is concealed. -/
def State.periodWord (s : State) (w : Nat) : State :=
  let k := Config.wordOwner (4 * w)
  let s := (s.clearBad (4 * w) 4).eccUncorr 2 7 (wordOwner (4 * w)) (pantryWindow (4 * w))
  if k % 2 = 0 then
    (match s.mix.compute with
      | some d => if d.holds (k / 2 % 72) && (s.tile (k / 2 % 72)).state = .working then s.failTile (k / 2 % 72) 1 else s
      | none => s)
  else s.onEmit fun d => { d with spoilt := (k / 2 % 4096) :: d.spoilt }

/-- A word of a stream's jitter buffer (R376): one slot of samples, free which, counts as unfilled. -/
def State.jitterWord (s : State) (w : Nat) : State :=
  let n := wordOwner (4 * w)
  let s := s.onRxS n fun x => { x with slots := x.slots.eraseIdx (Config.wordOwner (4 * w) % max 1 x.slots.length) }
  (s.clearBad (4 * w) 4).eccUncorr 6 7 n (pantryWindow (4 * w))

/-- Uncorrectable words outside the canceller slots, the configuration tables and the host area are met by their region's own reader at a boundary (R376). -/
def State.wordBoundary (s : State) (w : Nat) : State :=
  if !s.mem.badPantry.contains w then s
  else match pantrySrc (4 * w) with
    | 2 => s.periodWord w
    | 3 => s.runningWord w
    | 6 => s.jitterWord w
    | 7 => ((s.clearBad (4 * w) 4).eccCorr 7 true 2 0xFFFF (pantryWindow (4 * w))).slvErr 2
    | _ => s

/-- An uncorrectable word of MGMT SRAM in which the firmware keeps its data, below the host area, is rebuilt (R376). -/
def State.dataWord (s : State) (w : Nat) : State :=
  if 0x70000 ≤ 4 * w && 4 * w < 0xC0000 then
    (s.onMem fun m => { m with badSram := m.badSram.filter (· ≠ w) }).eccCorr 9 true 2 0xFFFF (w32 (2 ^ 28 + w)) |>.slvErr 2
  else s

/-- The boundary's part; from then on the firmware has written its regions of Pantry (R380). -/
def State.eccBoundary (s : State) : State :=
  let s := if s.domOn dPantry && s.serving then s.onMem fun m => { m with fresh := false } else s
  let s := if s.domOn dPantry then s.mem.badPantry.foldl State.wordBoundary s else s
  if s.domOn dMgmt && s.serving then s.mem.badSram.foldl State.dataWord s else s

end Sys2Proof.Machine
end

