-- ==== Sys2Proof/Machine/Shelf.lean ====
section
/-! DEFINITION. The Shelf Serial Port (R68 to R70) and the Bell (R405). A transaction is one row; while SCL is held low its row has only
the Bell's effect (log 14). -/

namespace Sys2Proof.Machine

/-! ### The reduced status block (R69) -/

/-- Ports for which a predicate holds, as 6 bytes. -/
def portBits (s : State) (f : PortState → Bool) : List Byte :=
  leBytes 6 ((upto 48).foldl (fun a p => a + if f (s.port p).state then 2 ^ p else 0) 0)

/-- Bytes 0x00 to 0x3E. -/
def State.shelfFields (s : State) : List Byte :=
  let hr := s.imdal.state = .enrolled && s.imdal.homeroom = some s.imdal.index
  padTo 63 (e1 1 ++ e1 s.tiles.wings ++ e1 (s.imdal.index.toNat + 128 * b2n hr) ++ e1 s.time.state.toNat ++ e4 s.pidx ++ e4 s.faultSummary ++
    leBytes 4 (voteWord s.domOn).toNat ++ portBits s poweredSt ++ portBits s (fun x => x = .fault) ++
    e2 (min 65535 (s.line.plantMv / 100)) ++ e1 (ladderCode s.line) ++ e1 (twos 8 (clampI (-128) 127 s.boot.tjMax)) ++
    e1 (twos 8 (clampI (-128) 127 s.boot.tbMax)) ++ e1 (b2n s.boot.req + 2 * b2n s.boot.rdy) ++ e2 (min 65535 (allMw s.line / 100)) ++
    zeros 4 ++ e4 s.cmd.epoch ++ e4 (w32 (s.monoNs / 1000000000)))

/-- The byte that makes the sum of a block zero modulo 256. -/
def checkByte (bs : List Byte) : Byte := 0 - bs.foldl (· + ·) 0

/-- The block as it stands now. -/
def State.shelfBlock (s : State) : List Byte := s.shelfFields ++ [checkByte s.shelfFields]

/-- At a boundary, while MGMT is ON, the block is rebuilt; SCL is released, and the port answers again (R405). -/
def State.shelfBoundary (s : State) : State :=
  if s.domOn dMgmt then
    let b := s.shelfBlock
    s.onShelf fun x => { x with block := b, stretch := false, stale := false }
  else s

/-! ### The Bell (R405) -/

/-- The port's own address (R68). -/
def State.sspAddress (s : State) : BitVec 7 := 0x58 + s.boot.sspAddr.setWidth 7

/-- MGMT answers transactions. -/
def State.shelfReady (s : State) : Bool := s.hbi.ready && s.domOn dMgmt && !s.shelf.stretch && !s.shelf.stale

/-- MGMT is OFF, or on its way there: the Bell does not acknowledge. -/
def State.mgmtOff (s : State) : Bool := (s.dom dMgmt).state = .off || (s.dom dMgmt).transit = .enter .off

/-- The Bell at its own address. -/
def State.bellMatch (s : State) : State :=
  if !s.hbi.ready then s
  else if s.domOn dMgmt then s.onShelf fun x => { x with ack := !x.stale }
  else
    let off := s.mgmtOff || s.shelf.stale
    (s.onShelf fun x => { x with ack := !off, stretch := x.stretch || !off, stale := off }).selfVote dMgmt 3

/-- BELL: a transaction to another address has no effect. -/
def execBell (addr : BitVec 7) (s : State) : Host.Outcome State Fault Refusal :=
  .next (if addr = s.sspAddress then s.bellMatch else s)

/-! ### Transactions (R68, R70) -/

/-- Pointers that a transaction may use. -/
def ptrOk (p : BitVec 8) : Bool := decide (p.toNat ≤ 0x42)

/-- The next pointer of a read: it wraps within its range. -/
def readNext (p : BitVec 8) : BitVec 8 := if p = 0x3F then 0 else if p = 0x42 then 0x40 else p + 1

/-- The byte at a pointer. -/
def State.shelfByte (s : State) (p : BitVec 8) : Byte :=
  if p.toNat < 0x40 then s.shelf.block.getD p.toNat 0
  else (s.power.shelf ||| 1).toNat / 2 ^ (8 * (p.toNat - 0x40)) |> BitVec.ofNat 8

/-- n bytes read from a pointer onward, and the pointer after them. -/
def State.shelfRead (s : State) : Nat → BitVec 8 → List Byte × BitVec 8
  | 0, p => ([], p)
  | n + 1, p =>
    let r := s.shelfRead n (readNext p)
    (s.shelfByte p :: r.1, r.2)

/-- SSP_READ (R68). The pointer stays after the last byte read, for a next read that sets none (DESIGN CHOICE, log 121: R68 speaks only of the
increment of written bytes). -/
def execSspRead (count : Nat) (s : State) : Host.Outcome State Fault Refusal :=
  if !s.shelfReady then .next s.bellMatch
  else if !ptrOk s.shelf.ptr then .next (s.onShelf fun x => { x with out := [], ack := false })
  else
    let r := s.shelfRead count s.shelf.ptr
    .next (s.onShelf fun x => { x with out := r.1, ptr := r.2, ack := true })

/-- The data bytes of a write from a pointer: bytes at 0x40 to 0x42 are acknowledged, the first other byte ends the transaction. -/
def shelfData : List Byte → BitVec 8 → BitVec 8 × Bool
  | [], p => (p, true)
  | _ :: r, p => if 0x40 ≤ p.toNat && p.toNat ≤ 0x42 then shelfData r (p + 1) else (p, false)

/-- SSP_WRITE: a pointer, then data; SHELF_VOTE takes effect with all its three bytes. -/
def execSspWrite (bytes : List Byte) (s : State) : Host.Outcome State Fault Refusal :=
  if !s.shelfReady then .next s.bellMatch
  else match bytes with
    | [] => .next (s.onShelf fun x => { x with ack := true })
    | p :: d =>
      if !ptrOk p then .next (s.onShelf fun x => { x with ack := false })
      else
        let r := shelfData d p
        let s := s.onShelf fun x => { x with ptr := r.1, ack := r.2 }
        .next (if p = 0x40 && 3 ≤ d.length then s.writeShelf (BitVec.ofNat 22 (ofLe (d.take 3))) else s)

end Sys2Proof.Machine
end

