-- ==== Sys2Proof/Machine/Boundary.lean ====
section
/-! DEFINITION. PERIOD_BOUNDARY (R23, R31, R35, R400): what the closing Period leaves, the token, and what takes effect. -/

namespace Sys2Proof.Machine

/-! ### The Period that closes (R20, R25) -/

/-- Samples of a Leg's pin in the Period that closes, held to 24 bits (R20); zero where none is given. -/
def samplesOf (m : PeriodInput) (l : Nat) : List Int :=
  match m.audio.find? fun a => a.1.val = l with
  | some a => (upto 24).map fun k => clampI (-8388608) 8388607 (a.2.getD k 0)
  | none => List.replicate 24 0

/-- First Leg of a digital audio port (R97). -/
def dapLeg (p : Nat) : Nat := if isPdm p then 48 + 2 * p else 72 + 2 * (p - 12)

/-- Loops, banks, plant, budget and network loads over the Period that closes; a loop whose bank is not ON shows only the course of a
setpoint on its way to 0 V. -/
def State.measureAll (s : State) (m : PeriodInput) : State :=
  let s := s.plantBoundary m.plantA m.plantB
  let s := m.loops.foldl (fun s q =>
    if s.domOn (dBank (bankOf q.1)) then
      let r := s.loopRun q.1 q.2
      r.1.portMeasure q.1 r.2
    else if (s.port q.1).dropping then s.onPort q.1 fun x => { x with mv := q.2.mv, ua := q.2.ua, i10 := loopI10 q.2 }
    else s) s
  let s := s.forAll (upto 48) fun s p =>
    (if s.domOn (dBank (bankOf p)) || (s.watch p).freeze = 0 then s else s.onWatch p (Watch.thaw (s.port p))).onPort p
      (PortSt.rollSet s.time.mono.toNat s.line.plantMv)
  let s := m.banks.foldl (fun s q => if s.domOn (dBank q.1) then s.bankMeasure q.1 q.2 else s) s
  let loop := fun p => (m.loops.find? fun q => q.1.val = p).map (·.2)
  let s := s.forAll (upto 6) fun s b => s.quietBoundary b loop ((m.banks.find? fun q => q.1.val = b).map (·.2))
  let s := s.budgetBoundary
  let s := m.tileEcc.foldl (fun s t => s.tileCorr t) s
  let s := m.fec.foldl (fun s q => s.fecCodewords q.1 q.2.1 q.2.2) s
  let s := s.forAll [0, 1] State.netLoad
  let s := match m.wclk with | some f => s.wclkMeasured f | none => s
  if s.domOn dDap then
    s.forAll (upto 16) fun s p => s.dapBoundary p m (samplesOf m)
  else s

/-- Inputs of the line ports (R102, R182): the state, what each delivers, and the ports that conceal. -/
def State.lineInputs (s : State) (m : PeriodInput) : State × Tab (List Int) × List Nat :=
  let cfg := s.mix.gather.cfg
  (upto (memberPorts s.tiles.wings)).foldl (fun a p =>
    let live := deliversSt (a.1.port p).state || cfg.active p
    let heard := (a.1.port p).heard
    let r := a.1.lineInput p (if heard.isEmpty then samplesOf m p else heard)
    (r.1, if live then a.2.1 ++ [(p, r.2.1)] else a.2.1, if r.2.2 then a.2.2 ++ [p] else a.2.2)) (s, [], [])

/-- Inputs of the digital audio Legs (R239). -/
def State.dapInputs (s : State) : Tab (List Int) :=
  (upto 16).flatMap fun p =>
    let d := s.dapP p
    if d.state = .disabled then [] else (upto 2).map fun c => (dapLeg p + c, d.lastIn.getD c [])

/-- Network Legs of the closing Period with an input. -/
def State.netSources (s : State) : List (Nat × LegCfg) :=
  let cfg := s.mix.gather.cfg
  cfg.legs.filter fun e => isNetLeg e.1 && e.2.bound && rxEn e.2.a1 && legCarried cfg.wings e.1

/-- Inputs of the network Legs (R284, R302) for the gather Period with a full count. -/
def State.netInputs (s : State) (n : Nat) : Tab (List Int) :=
  s.netSources.map fun e => (e.1, ((s.rxS (rxStream e.2.a1)).deliver n).1.map fun v => v.getD (rxCh e.2.a1) 0)

/-- Network Legs whose channel carries a call (R129, R303). -/
def State.netCalls (s : State) (n : Nat) : List Nat :=
  (s.netSources.filter fun e => ((s.rxS (rxStream e.2.a1)).deliver n).2.getLsbD (rxCh e.2.a1)).map (·.1)

/-- Line Legs with a call that was qualified at the boundary that opened the gather Period (R129, R212). -/
def State.lineCalls (s : State) : List Nat := (upto 48).filter fun p => (s.watch p).callNow && !s.beyond p

/-- Legs whose voice-activity floor is not updated (R153): a digital audio port that is muted, a stream that is STARVED. -/
def State.floorless (s : State) : List Nat :=
  ((upto 16).filter fun p => (s.dapP p).state ≠ .run).flatMap (fun p => [dapLeg p, dapLeg p + 1]) ++
    (s.netSources.filter fun e => (s.rxS (rxStream e.2.a1)).state = .starved).map (·.1)

/-- Bins that the sounding tones of a step occupy, with their neighbours (R141). -/
def soundBins (step : Nat) : List Nat :=
  let near := fun f => let b := (divRne (f : Int) 40).toNat; [b - 1, b, b + 1]
  (((soundFreqs.zipIdx).filter fun q => q.2 % 4 = step).flatMap fun q => near q.1).filter (· < 24) |>.eraseDups

/-- Bins in which a line Leg's canceller does not adapt, from what its port generated in the Period that closes (R141). -/
def State.frozenBins (s : State) (p : Nat) : List Nat :=
  let x := s.sounding p
  (if x.status = 1 || (x.status = 2 && s.time.ord = x.startOrd + 399) then soundBins ((s.time.ord - x.startOrd) / 100) else []) ++
    (if (s.watch p).toneGen || (s.watch p).toneFade then [17, 18, 19, 20, 21, 22, 23] else [])

/-- The gather Period closes: its data with every input. n is the Period's full count on the timebase. -/
def State.closeGather (s : State) (m : PeriodInput) (n : Nat) : State × DataSet :=
  let g := s.mix.gather
  let line := s.lineInputs m
  let s := line.1
  let nets := s.netInputs n
  let rates := s.netSources.map fun e => (e.1, strRate (s.rxS (rxStream e.2.a1)).block)
  let calls := (s.lineCalls ++ s.netCalls n).filter g.cfg.active
  let s := (s.media.rx.map (·.1)).foldl (fun s k => s.closeStream n k) s
  (s, { g with
    inputs := line.2.1 ++ s.dapInputs ++ nets
    rates := rates
    callIn := calls
    conceal := line.2.2
    frozen := ((upto 48).map fun p => (p, s.frozenBins p)).filter fun e => !e.2.isEmpty
    noFloor := s.floorless })

/-! ### The token (R31, R74, R88) -/

/-- The timebase comes to the boundary. -/
def State.toBoundary (s : State) : State := s.ticks (s.time.ticksTo 500000)

/-- The boundary is issued: its count, its PIDX, the tokens of R30, counter 216, and a jump whose boundary it is. -/
def State.issueToken (s : State) : State :=
  let s := (s.onTime fun t => { t.hoPush with ord := t.ord + 1, pidx := t.pidxOf }).count 216
  let s := s.applyJump
  s.onTime fun t => { t with tokens := (t.pidx :: t.tokens).take 4 }

/-! ### Member and Timetable (R35, R350, R355 to R362) -/

/-- Tiles that left service less than 20 µs before the boundary: a fall does not count them yet (R360). -/
def State.justLost (s : State) : Nat :=
  ((upto 72).filter fun t => !tileHealthy (s.tile t) && decide (s.monoNs < (s.tile t).failMono + 20000)).length

/-- A change of member that is due, for the data whose gather Period closes (R12, R360 to R362): a fall takes the fall-Period Timetable. -/
def State.memberBoundary (s : State) (d : DataSet) : State × DataSet :=
  let s := s.onTiles fun x => { x with fallPeriod := false }
  match s.tiles.nextWings with
  | none => (s, d)
  | some w =>
    if w < s.tiles.wings then
      let due := honoured s.tiles.wings (s.healthyTiles + s.justLost)
      if due < s.tiles.wings then
        let s := (s.placeAll fallLimit d.cfg d.cfg).presentMember due
        (s.onTiles fun x => { x with next := some [], repackDue := false, nextWings := if w < due then some w else none },
          { d with fallTo := some due })
      else (s, d)
    else if s.monoNs < s.tiles.lostAt + 20000 then (s, d)
    else if s.tiles.wings < w then (s.presentMember w, d)
    else (s.onTiles fun x => { x with nextWings := none }, d)

/-- The Timetable under which the compute Period that opens works: a repack that is due, or the units of failed tiles placed again. -/
def State.timetableBoundary (s : State) (d : DataSet) : State :=
  if d.fallTo.isSome then s
  else
    let busy := (upto 72).any s.holdsRepack
    match s.tiles.next with
    | some w => if busy then s.placeAll packLimit d.cfg d.cfg else (s.onTiles fun x => { x with next := none }).repack w
    | none => s.placeAll packLimit d.cfg d.cfg

/-- Tiles whose self-test has ended leave TEST (R352). -/
def State.passedTiles (s : State) : State :=
  (s.tiles.passed.foldl State.leaveTest (s.tiles.failedTest.foldl State.retireTest s)).onTiles fun x => { x with passed := [], failedTest := [] }

/-! ### Leg states (R102, R103, R362 to R364, R396) -/

/-- A Leg's source is delivering (R102). -/
def State.delivering (s : State) (l : Nat) : Bool :=
  if isLineLeg l then deliversSt (s.port l).state
  else if isPdmLeg l then (s.dapP ((l - 48) / 2)).started
  else if isNetLeg l then
    let a1 := (s.legCfg l).a1
    let on := fun (x : Stream) => x.state = StreamState.run || x.state = .starved
    (rxEn a1 && on (s.rxS (rxStream a1))) || (txEn a1 && on (s.txS (txStream a1)))
  else (s.dapP (12 + (l - 72) / 2)).started

/-- A domain takes part in the pipeline: ON for 20 µs or more (R400). -/
def State.takesPart (s : State) (d : Nat) : Bool := s.domOn d && decide ((s.dom d).onMono + 20000 ≤ s.monoNs)

/-- The domains that a Leg needs before it becomes ACTIVE (R396). -/
def State.legDomains (s : State) (l : Nat) : Bool :=
  let wing := match s.tiles.tt.legs.lookup l with | some t => s.takesPart (dWing (wingOf t)) | none => true
  let own := if isLineLeg l then s.takesPart (dBank (bankOf l))
    else if isNetLeg l then
      let a1 := (s.legCfg l).a1
      (upto 2).any fun p => s.takesPart (dNet p) &&
        ((rxEn a1 && strHasPort (s.rxS (rxStream a1)).block p) || (txEn a1 && strHasPort (s.txS (txStream a1)).block p))
    else s.takesPart dDap
  s.takesPart dHub && s.takesPart dPantry && wing && own

/-- One Leg's state at the boundary. -/
def State.legBoundary (s : State) (l : Nat) : State :=
  let s := if legCarried s.tiles.wings l then s else s.onLegSt l fun x => { x with awayOrd := s.time.ord }
  let w := s.watch l
  let s := if isLineLeg l && ((s.legSt l).zeroOrd ≠ w.onOrd || (s.legSt l).changes ≠ w.changes) then
    s.onLegSt l fun x => { x with zeroOrd := w.onOrd, changes := w.changes } else s
  let st := (s.legSt l).state
  if st = .active then
    if legCarried s.tiles.wings l && s.delivering l then s else s.onLegSt l (leaveActive s.time.ord .bound)
  else if st = .bound && legCarried s.tiles.wings l && s.delivering l && s.legDomains l then s.onLegSt l fun x => { x with state := .active }
  else s

/-- Every Leg's state: the fixed Legs and those whose state is not as after reset. -/
def State.legStates (s : State) : State :=
  s.forAll (upto 80 ++ ((s.mix.st.map (·.1)).filter fun l => decide (80 ≤ l))) State.legBoundary

/-- The Timetable of the boundary (R350, R351): new work is placed; in a fall Period the one in force is that of the fall, and the new member's
begins with the repack of the next boundary (R361). -/
def State.boundaryTimetable (s : State) (d : DataSet) : State :=
  if d.fallTo.isSome then ((s.newTimetable d.cfg.units).placeAll packLimit d.cfg s.mixView).legStates
  else
    let s := (s.placeAll packLimit d.cfg s.mixView).legStates
    s.newTimetable s.mixView.units

/-! ### What takes effect (R34, R35) -/

/-- Line ports at the boundary: compensation, generated calls, setpoints, soundings, entries to RAMP. -/
def State.portsBoundary (s : State) : State :=
  let out := fun p => match s.mix.lastOut.lookup p with | some o => o.callOut | none => false
  let s := s.forAll (upto 6) State.cycleBoundary
  let s := s.forAll (upto 48) fun s p => ((((s.compBoundary p).callGenerate p (out p)).portSlew p).soundBoundary p).driveBoundary p
  s.rampStarts.lfeBoundary

/-- Streams, launches, rates and reports at the boundary. -/
def State.netBoundary (s : State) : State :=
  let s := (s.media.tx.map (·.1)).foldl State.txStreamBoundary s
  s.launchBoundary.rateSteps.flushReports

/-- Configuration and the states that follow it, in the order of R35 and R400. -/
def State.configPart (s : State) : State :=
  let s := s.forAll (upto 48) State.soundEnds
  let s := s.releaseBanks.removalBoundary.configBoundary.snapBoundary
  let s := s.ringBoundary.timeBoundary
  let s := s.netBoundary.portsBoundary
  s.trigBoundary.forAll (upto 16) State.dapOpen

/-! ### The pipeline moves on (R20) -/

/-- Groups of the data are shared, and the device has left its ring since the data's Period opened (R325). -/
def State.departed (s : State) (d : DataSet) : Bool :=
  (d.cfg.groups.any fun g => g.2.state = .shared) && s.imdal.state = .solo

/-- Compute becomes emit, the closed gather becomes compute under the Timetable of the new Period, and a new gather opens; a redo whose
data has left is over. -/
def State.shiftData (s : State) (d : DataSet) (legTile grpTile : Tab Nat) : State :=
  let gone := s.departed d
  let s := s.onMix fun m => { m with
    emit := m.compute.map DataSet.toEmit
    compute := some { d with departs := gone, legTile := legTile, grpTile := grpTile }
    shownViews := m.views
    shownAdm := m.adm
    shownRing := m.ringAdmitted
    shownInt := m.intActive
    shownCalls := m.callGroups
    gather := { ord := s.time.ord, pidx := s.time.pidx, cfg := s.mixView, prev := d.cfg, startNs := s.time.total, afterDepart := gone } }
  let open_ := (match s.mix.compute with | some d => d.lost | none => []) ++ (match s.mix.emit with | some d => d.lost | none => [])
  s.onTiles fun x => { x with
    redo := x.redo.filter fun e => open_.contains e.1
    riseRun := if s.firmware && requirement (memberUp x.wings) ≤ s.proven then x.riseRun + 1 else 0
    shownYet := true }

/-- Work of the compute Period that opens on tiles that have failed less than 20 µs before it is concealed (R29, R356); the failure has
counted it. -/
def State.killStale (s : State) : State :=
  match s.mix.compute with
  | none => s
  | some d =>
    let ts := ((upto 72).filter fun t => d.holds t && !tileProven (s.tile t))
    if ts.isEmpty then s else (s.onCompute fun d => d.kill ts).raise irqSubst

/-! ### Supervision -/

/-- The firmware's boundary task (R418), the limit of R57, bank temperatures, the junction temperature (R478). -/
def State.superviseBoundary (s : State) (m : PeriodInput) : State :=
  let hot := (upto 6).foldl (fun (a : Int) b => max a ((s.bank b).temp.getD (-128))) (-128)
  let ack := s.serving && s.domOn dMgmt
  let s := s.onBoot fun b => { b with tbMax := hot, unacked := if ack then (if m.fwAck then 0 else b.unacked + 1) else b.unacked }
  (s.onCmd fun c => { c with accepted := 0 }).thermal m.tjMax

/-- What is written at a boundary once everything has taken effect. -/
def State.writeBoundary (s : State) : State :=
  s.traceBoundary.boundaryRecord.showBoundary.shelfBoundary.releaseBoundary

/-! ### The whole -/

/-- A boundary of the audio Period. -/
def State.periodBoundary (s : State) (m : PeriodInput) : State :=
  let s := s.finishPeriod.finishTrigger.toBoundary.finishEntries
  let n := s.time.total / 500000 - 1
  let q := (s.measureAll m).closeGather m n
  let s := (q.1.issueToken.ringNews m).recordSubs
  let r := s.memberBoundary q.2
  let d := r.2
  let s := (r.1.passedTiles).timetableBoundary d
  let legTile := s.tiles.tt.legs
  let grpTile := s.tiles.tt.grps
  let s := s.configErrors.rollBoundary.configPart
  let s := s.boundaryTimetable d
  let s := (s.shiftData d legTile grpTile).killStale.powerBoundary.passBoundary.mostBoundary.eccBoundary
  (s.superviseBoundary m).writeBoundary

/-- PERIOD_BOUNDARY: none is issued while PORST_N is low. -/
def execPeriodBoundary (m : PeriodInput) (s : State) : Host.Outcome State Fault Refusal :=
  .next (if s.boot.held then s else s.periodBoundary m)

end Sys2Proof.Machine
end

