-- ==== Sys2Proof/Machine/Operands.lean ====
section
/-! DEFINITION. The operand forms of a host bus access (chapters 02 and 17): the register map by word address, byte enables and
write-one bits. The arguments of a command are read by the command's own family. -/

namespace Sys2Proof.Machine

/-! ### Word addresses of the host registers (R38, R43) -/

def regGctrl : Nat := 4
def regGstat : Nat := 5
def regIrqStat : Nat := 6
def regIrqEn : Nat := 7
def regIrqCause : Nat := 8
def regLtol : Nat := 9
def regPwrVote : Nat := 10
def regPwrState : Nat := 11
def regWakeSrc : Nat := 12
def regHbiErr : Nat := 14
def regScratch : Nat := 15
def regWinAddr : Nat := 16
def regWinData : Nat := 17
def regWinDataInc : Nat := 18
def regWinStat : Nat := 19
def regCmdOp : Nat := 20
def regCmdStat : Nat := 29
def regCringBase : Nat := 32
def regCringHead : Nat := 33
def regCringTail : Nat := 34
def regCplHead : Nat := 35
def regRcall : Nat := 36
def regCfgEpoch : Nat := 37
def regTimeLatch : Nat := 41
def regTimeIncr : Nat := 42
def regTimeStat : Nat := 43
def regStatsSnap : Nat := 45
def regTraceCfg : Nat := 47
def regTraceStat : Nat := 48
def regSubstLog : Nat := 50
def regEccCorr : Nat := 51
def regEccUncorr : Nat := 52

/-- Word addresses that the map holds (R38). -/
def regCount : Nat := 53

/-! ### Values of a write (R17, R40) -/

end Sys2Proof.Machine

namespace Sys2Proof

/-- A field of a register after a write of enabled bytes (R40). -/
def RegWrite.over (w : RegWrite) (old : Word) : Word := Machine.mergeBe old w.val w.be

/-- The ones written in enabled bytes: what W1C bits clear and WO bits do (R17, R40). -/
def RegWrite.ones (w : RegWrite) : Word := Machine.mergeBe 0 w.val w.be

/-- All four byte enables are low (R40). -/
def RegWrite.full (w : RegWrite) : Bool := w.be = 0xF#4

/-- W1C bits after a write. -/
def RegWrite.clears (w : RegWrite) (old : Word) : Word := old &&& ~~~ w.ones

end Sys2Proof

namespace Sys2Proof.Machine

/-- Bits of HBI_ERR (R42). -/
def errUnmapped : BitVec 6 := 1
def errPartial : BitVec 6 := 2
def errMboxBusy : BitVec 6 := 4
def errRingPtr : BitVec 6 := 8
def errRingCfg : BitVec 6 := 16
def errW16Order : BitVec 6 := 32

/-- Registers that take a write with all four enables low only (R40, R443). -/
def fullOnly (k : Nat) : Bool := k = regCmdOp || k = regCringTail || k = regCplHead

/-- Bits of WIN_STAT (R48). -/
def winOffBit : BitVec 5 := 1
def winDeniedBit : BitVec 5 := 2
def winDecodeBit : BitVec 5 := 4
def winTimeoutBit : BitVec 5 := 8
def winUncorrBit : BitVec 5 := 16

end Sys2Proof.Machine
end

