-- ==== Sys2Proof/Machine/Slots.lean ====
section
/-! DEFINITION. What a window read of the canceller slots in Pantry shows (R373): the records are laid out from the state that they
hold. -/

namespace Sys2Proof.Machine

/-- Record i of a list of 72-byte records, as bytes; records that the tail does not use are a free value. -/
def recordIn (rs : List Record) (o : Nat) : Option Byte :=
  match rs[o / 72]? with
  | some r => some ((recordBytes r).getD (o % 72) 0)
  | none => none

/-- The history record that lies at an index (R139, R373): that of data j at j modulo the tail (DEDUCED, log 128). -/
def Echo.histAt (c : Echo) (o : Nat) : Option Byte :=
  let k := c.hist.length
  let i := o / 72
  let age := (c.histOrd + k - i) % k
  if i < k && age ≤ c.histOrd then (c.hist[age]?).map fun r => (recordBytes r).getD (o % 72) 0 else none

/-- A byte of the output line (R373): the block of a data Period at its count modulo 258. -/
def lineAt (ls : List (Nat × Block)) (o : Nat) : Option Byte :=
  match ls.find? fun e => e.1 % 258 = o / 96 with
  | some e => some ((wordBytes e.2).getD (o % 96) 0)
  | none => none

/-- A byte of a Leg's slot by its offset: what its records hold; none for one that has been written since PANTRY was powered up and of which the state
no longer holds the contents; zero where nothing has been written since (R373, R380). -/
def State.slotByte (s : State) (l o : Nat) : Option Byte :=
  let c := s.echoL l
  let u : SlotUse := tget {} s.mem.slots l
  let or_ := fun (b : Option Byte) (used : Bool) => match b with | some v => some v | none => if used then none else some 0
  if o < 0x9000 then or_ (recordIn c.w o) (o / 72 < u.w)
  else if o < 0x12000 then or_ (match c.check with | some k => recordIn k.w (o - 0x9000) | none => none) ((o - 0x9000) / 72 < u.check)
  else if o < 0x1B000 then or_ (c.histAt (o - 0x12000)) u.hist
  else if o < 0x1B0C0 then
    if c.state ≠ .off then some (c.control.getD (o - 0x1B000) 0) else or_ (if o = 0x1B0A4 then some 0 else none) u.ctl
  else if o < 0x1B100 then some 0
  else if o < 0x1B1C0 then or_ (match c.check with | some k => some (k.ctl.getD (o - 0x1B100) 0) | none => none) u.cctl
  else if o < 0x1C000 then some 0
  else if o < 0x220C0 then some ((lineAt (tget [] s.mix.outLine l) (o - 0x1C000)).getD 0)
  else some 0

/-- A byte of Pantry, both stacks laid end to end: the host area as written, the canceller slots as laid out, and a free value where the manual does
not lay the region out (R371), zero until the firmware has written there since PANTRY was powered up (R380). -/
def State.pantryRead (s : State) (a : Nat) : Byte :=
  let o := a % 2 ^ 31
  if o < 0x40000000 then Memory.readByte s.mem.pantry a
  else if o < 0x60000000 then
    let l := 2 * ((o - 0x40000000) / 0x40000) + a / 2 ^ 31
    (s.slotByte l ((o - 0x40000000) % 0x40000)).getD (Config.pantryByte a s.draw)
  else if s.mem.fresh then 0
  else Config.pantryByte a s.draw

end Sys2Proof.Machine
end

