-- ==== Sys2Proof/Machine/HostBus.lean ====
section
/-! DEFINITION. The host bus: windows, registers, the 16-bit converter, and the rows that access them (chapters 02 and 17). Every row
of an access is the access itself, whatever the row's own effect is (log 13). -/

namespace Sys2Proof.Machine

/-! ### Misuse (R42) -/

/-- An event that sets bits of HBI_ERR: counted once. -/
def State.busErr (s : State) (e : BitVec 6) : State :=
  if e = 0 then s else s.onHbi fun h => { h with err := h.err ||| e, errCount := satAdd h.errCount 1 }

/-! ### Windows (R44 to R48, R481) -/

/-- A domain is in Recess or OFF, or between states (R47, R404): a bank in PROOFING answers. -/
def State.domDark (s : State) (d : Nat) : Bool :=
  !s.domOn d && !((s.dom d).state = .proofing && (s.dom d).transit = .none)

/-- The first row of R47: HUB, or the domain of the place, does not answer. The load area answers to a loader that waits (R414). -/
def State.winDark (s : State) (t off : Nat) : Bool :=
  s.domDark dHub || (match targetDomain t off with
    | some d => s.domDark d && !(t = 1 && off < 0x1C000 && s.loaderWaits)
    | none => false)

/-- A place that its target populates (R481). -/
def State.populated (s : State) (t off : Nat) : Bool :=
  match t with
  | 0 => (decide (0x100 ≤ off) && decide (off ≤ 0x10A)) || (decide (0x200 ≤ off) && decide (off ≤ 0x21F)) ||
      (decide (0x1000 ≤ off) && decide (off ≤ 0x1802))
  | 1 => decide (off < 0x40000)
  | 2 => true
  | 3 => true
  | 4 => decide (off < 0x100000)
  | 5 => decide (off < 0x300000)
  | 6 => decide (off < 0x300000)
  | 7 => decide (off < 0x2000) && (s.netReg (off / 0x1000) (off % 0x1000)).isSome
  | 8 => decide (0x100 ≤ off) && decide (off ≤ 0x13F)
  | 9 => (match s.mem.flashSize with | some n => decide (4 * off < n) | none => true)
  | _ => false

/-- Byte of Pantry, both stacks laid end to end, of a window address. -/
def winPantry (w : Word) : Nat := pantryByte w

/-- Word addresses in error of the memory that a window address names: MGMT SRAM or Pantry. -/
def State.winBad (s : State) (w : Word) : Bool :=
  match targetOf w with
  | 1 => s.mem.badSram.contains (offsetOf w)
  | 2 => s.mem.badPantry.contains (winPantry w / 4)
  | 3 => s.mem.badPantry.contains (winPantry w / 4)
  | _ => false

/-- The target is a memory with check bits (R375). -/
def hasEcc (t : Nat) : Bool := t = 1 || t = 2 || t = 3

/-- Source and owner of a word by window address (R383). -/
def winSrc (w : Word) : Nat := if targetOf w = 1 then 9 else pantrySrc (winPantry w)
def winOwner (w : Word) : Nat := if targetOf w = 1 then 0xFFFF else wordOwner (winPantry w)

/-- A failed access that reached the matrix, counted for master 0 (R385); the matrix lies in HUB. -/
def State.winCount (s : State) (f : Master → Master) : State := if s.domOn dHub then s.onMaster 0 f else s

/-- A byte of MGMT SRAM as the window reads it (R49): the host area and the load area as written, the tables as last written, a free
value elsewhere. -/
def State.sramRead (s : State) (a : Nat) : Byte :=
  if 0xC0000 ≤ a then Memory.readByte s.mem.sram a
  else if a < 0x70000 then (if s.loaderWaits then Memory.readByte s.mem.sram a else Config.sramByte a s.draw)
  else if s.shownOk then (s.tableByte a).getD (Config.sramByte a s.draw)
  else Config.sramByte a s.draw

/-- A word from four bytes. -/
def wordOf (f : Nat → Byte) (a : Nat) : Word := w32 (ofLe [f a, f (a + 1), f (a + 2), f (a + 3)])

/-- The time block of R81, by word offset from 0x100. -/
def State.timeWord (s : State) (k : Nat) : Word :=
  let t := s.time
  match k with
  | 0 => t.mono.setWidth 32
  | 1 => t.monoHi
  | 2 => t.lastJump.setWidth 32
  | 3 => t.lastJump.extractLsb' 32 32
  | 4 => t.jumpPidx
  | 5 => t.hoRate
  | 6 => t.offset
  | 7 => t.wclkFreq
  | 8 => t.startPidx
  | 9 => pack [(0, t.startSample.toNat), (8, t.startSource.toNat), (10, b2n t.startUntr), (16, t.startFired.toNat)]
  | _ => t.startMiss

/-- A word of AONREG (R81, R407, R439). -/
def State.aonWord (s : State) (off : Nat) : Word :=
  let x := s.trace
  if off < 0x200 then s.timeWord (off - 0x100)
  else if off < 0x1000 then s.powerWord (off - 0x200)
  else if off < 0x1400 then
    if off % 2 = 0 then (tget 0 x.ctr ((off - 0x1000) / 2)).setWidth 32 else x.ctrHi
  else if off < 0x1800 then
    let c := tget 0 x.bank ((off - 0x1400) / 2)
    if off % 2 = 0 then c.setWidth 32 else (c.extractLsb' 32 16).setWidth 32
  else if off = 0x1800 then x.bankHdr.1
  else if off = 0x1801 then x.bankHdr.2.1
  else x.bankHdr.2.2

/-- The word at a populated place. -/
def State.winWord (s : State) (w : Word) : Word :=
  let off := offsetOf w
  match targetOf w with
  | 0 => s.aonWord off
  | 1 => wordOf s.sramRead (4 * off)
  | 2 => wordOf s.pantryRead (winPantry w)
  | 3 => wordOf s.pantryRead (winPantry w)
  | 7 => (s.netReg (off / 0x1000) (off % 0x1000)).getD 0
  | 8 => s.dapReg off
  | 9 => wordOf Config.flashByte (4 * off)
  | _ => Config.diagWord w.toNat s.draw

/-- What a read of a place does besides: latches of R81, R278 and R439. -/
def State.winLatch (s : State) (w : Word) : State :=
  let off := offsetOf w
  match targetOf w with
  | 0 =>
    if off = 0x100 then s.onTime fun t => { t with monoHi := t.mono.extractLsb' 32 32 }
    else if 0x1000 ≤ off && off < 0x1400 && off % 2 = 0 then
      s.onTrace fun x => { x with ctrHi := ((tget 0 x.ctr ((off - 0x1000) / 2)).extractLsb' 32 16).setWidth 32 }
    else s
  | 7 => s.netLatch (off / 0x1000) (off % 0x1000)
  | _ => s

/-- The word at a window address is uncorrectable from now on (R375). -/
def State.winSpoil (s : State) (w : Word) : State :=
  s.onMem fun m => if targetOf w = 1 then { m with badSram := addBad (offsetOf w) m.badSram }
    else { m with badPantry := addBad (winPantry w / 4) m.badPantry }

/-- The most recent window access (R48). -/
def State.winTarget (s : State) : State := s.onHbi fun h => { h with lastTgt := BitVec.ofNat 4 (fld h.winAddr 28 4) }

/-- A read that meets an uncorrectable word (R47, R375). -/
def State.winUncorr (s : State) (w : Word) : State :=
  ((s.winFail winUncorrBit false).winCount Master.addSlv).eccUncorr (winSrc w) 0 (winOwner w) w

/-- A read that has passed the rows of R47: the next free value is another one. -/
def State.winGood (s : State) (w : Word) (e : Ecc) : State × Word :=
  let s := if e = .single && hasEcc (targetOf w) then s.eccCorr (winSrc w) false 0 (winOwner w) w else s
  (((s.winLatch w).winCount Master.busy).onDraw (· + 1), s.winWord w)

/-- The window reads a configuration word in error (R377): of the primary, the mirror's value where that is good; where both are lost, or the mirror
alone is read, the access fails; the latter counts in ECC_CORR, since the primary stands (DESIGN CHOICE, log 140). -/
def State.winConfig (s : State) (w : Word) (e : Ecc) : State × Word :=
  let k := winPantry w / 4
  if k < 2 ^ 29 && !s.mem.badPantry.contains (otherCopy k) then (s.configMend k).winGood w e
  else
    let s := (s.winFail winUncorrBit false).winCount Master.addSlv
    (if s.mem.badPantry.contains (otherCopy k) then (s.eccUncorr 5 0 (winOwner w) w).onMem fun m => { m with mirrorLost := true }
     else s.eccCorr 4 true 0 (winOwner w) w, 0)

/-- One matrix read at WIN_ADDR (R46, R47). -/
def State.winGet (s : State) (env : BusEnv) : State × Word :=
  let w := s.hbi.winAddr
  let t := targetOf w
  let off := offsetOf w
  let s := s.winTarget
  if s.winDark t off then ((s.winFail winOffBit false).winCount Master.addOff, 0)
  else if !s.populated t off then ((s.winFail winDecodeBit false).winCount Master.addDec, 0)
  else if env.timeout then ((s.winFail winTimeoutBit false).winCount Master.addTime, 0)
  else if hasEcc t && (s.winBad w || env.ecc = .double) then
    if winSrc w = 4 then (s.winSpoil w).winConfig w env.ecc else ((s.winSpoil w).winUncorr w, 0)
  else s.winGood w env.ecc

/-- The four bytes of Pantry lie in a host buffer region in force (R45). -/
def State.winRegion (s : State) (w : Word) : Bool := inRegions s.regions (winPantry w) 4

/-- What a permitted write does; none where it is not permitted (R45). The state is the one after the write. -/
def State.winPut (s : State) (w : Word) (v : RegWrite) : Option State :=
  let off := offsetOf w
  match targetOf w with
  | 1 =>
    if 0x30000 ≤ off || (off < 0x1C000 && s.loaderWaits) then
      some (s.onMem fun m => { m with sram := Memory.writeWord (4 * off) v.val v.be m.sram })
    else none
  | 2 => if s.winRegion w then some (s.onMem fun m => { m with pantry := Memory.writeWord (winPantry w) v.val v.be m.pantry }) else none
  | 3 => if s.winRegion w then some (s.onMem fun m => { m with pantry := Memory.writeWord (winPantry w) v.val v.be m.pantry }) else none
  | 7 => if v.full then s.netTail (off / 0x1000) (off % 0x1000) v.val else none
  | 8 => if v.full then s.dapRegWrite off v.val else none
  | _ => none

/-- A full-word write clears the word's error (R375). -/
def State.winHeal (s : State) (w : Word) : State :=
  s.onMem fun m => if targetOf w = 1 then { m with badSram := m.badSram.filter (· ≠ offsetOf w) }
    else if hasEcc (targetOf w) then { m with badPantry := m.badPantry.filter (· ≠ winPantry w / 4) }
    else m

/-- A partial write to a memory reads the word first (R375): dropped where it is uncorrectable. -/
def State.winMerge (s s' : State) (w : Word) (e : Ecc) : State :=
  if s.winBad w || e = .double then
    ((((s.winSpoil w).winFail winUncorrBit true).winCount Master.addSlv).eccUncorr (winSrc w) 0 (winOwner w) w)
  else
    let s' := if e = .single then s'.eccCorr (winSrc w) false 0 (winOwner w) w else s'
    s'.winCount Master.busy

/-- One matrix write at WIN_ADDR (R45 to R47). Whether a write that times out lands is a free value. -/
def State.winSet (s : State) (v : RegWrite) (env : BusEnv) : State :=
  let w := s.hbi.winAddr
  let t := targetOf w
  let off := offsetOf w
  let s := s.winTarget
  if s.winDark t off then (s.winFail winOffBit true).winCount Master.addOff
  else if !s.populated t off then (s.winFail winDecodeBit true).winCount Master.addDec
  else match s.winPut w v with
    | none => s.winFail winDeniedBit true
    | some s' =>
      if env.timeout then
        ((((if Config.timeoutLanded s.draw then s' else s).onDraw (· + 1)).winFail winTimeoutBit true).winCount Master.addTime)
      else if !hasEcc t || v.full then (s'.winHeal w).winCount Master.busy
      else if v.be = 0 then s'.winCount Master.busy
      else s.winMerge s' w env.ecc

/-- WIN_DATA_INC adds 1 to WIN_ADDR, whatever the access came to (R46). -/
def State.winStep (s : State) (inc : Bool) : State := if inc then s.onHbi fun h => { h with winAddr := h.winAddr + 1 } else s

/-- A read or a write of WIN_DATA or WIN_DATA_INC. -/
def State.winRead (s : State) (inc : Bool) (env : BusEnv) : State × Word :=
  let r := s.winGet env
  (r.1.winStep inc, r.2)
def State.winWrite (s : State) (inc : Bool) (v : RegWrite) (env : BusEnv) : State := (s.winSet v env).winStep inc

/-! ### Reads of registers (R39, R442, chapter 17) -/

/-- The value that a register holds, by word address; zero for the window data registers, which hold none. -/
def State.regValue (s : State) (k : Nat) : Word :=
  match k with
  | 0 => s.devId
  | 1 => s.devRev
  | 2 => capsA s.tiles.wings
  | 3 => capsB s.tiles.wings
  | 4 => w32 (b2n s.cmd.peerCmd)
  | 5 => s.gstat
  | 6 => s.hbi.irqStat.setWidth 32
  | 7 => s.hbi.irqEn.setWidth 32
  | 8 => s.irqCause
  | 9 => s.power.ltol
  | 10 => s.power.host.setWidth 32
  | 11 => s.pwrState
  | 12 => s.wakeReg
  | 13 => s.hbiCfg
  | 14 => s.hbiErrReg
  | 15 => s.hbi.scratch
  | 16 => s.hbi.winAddr
  | 19 => s.winStat
  | 20 => s.cmd.opReg
  | 21 => tget 0 s.cmd.args 0
  | 22 => tget 0 s.cmd.args 1
  | 23 => tget 0 s.cmd.args 2
  | 24 => tget 0 s.cmd.args 3
  | 25 => tget 0 s.cmd.args 4
  | 26 => tget 0 s.cmd.args 5
  | 27 => tget 0 s.cmd.args 6
  | 28 => tget 0 s.cmd.args 7
  | 29 => s.cmdStat
  | 30 => s.cmd.res0
  | 31 => s.cmd.res1
  | 32 => s.cringBase
  | 33 => s.cringHead
  | 34 => s.cmd.tail.setWidth 32
  | 35 => s.cmd.cplHead.setWidth 32
  | 36 => s.rcall
  | 37 => s.cmd.epoch
  | 38 => s.time.capNs.setWidth 32
  | 39 => s.time.capSec.setWidth 32
  | 40 => (s.time.capSec.extractLsb' 32 16).setWidth 32
  | 41 => s.timeLatch
  | 42 => s.time.incr
  | 43 => s.timeStat
  | 44 => s.time.pidx
  | 45 => s.statsSnap
  | 46 => s.trace.snapEpoch
  | 47 => s.traceCfg
  | 48 => s.traceStat
  | 49 => s.faultSummary
  | 50 => s.substReg
  | 51 => s.eccCorrReg
  | 52 => s.eccUncorrReg
  | _ => 0

/-- What a read clears: the RC fields (R17, R442). -/
def State.regClear (s : State) (k : Nat) : State :=
  match k with
  | 5 => s.onBoot fun b => { b with restarts := 0 }
  | 12 => s.onPower fun p => { p with wakes := 0 }
  | 14 => s.onHbi fun h => { h with errCount := 0 }
  | 19 => s.onHbi fun h => { h with wdrop := 0 }
  | 43 => s.onTime fun t => { t with jumps := 0 }
  | 50 => s.onTiles fun t => { t with substs := 0, lost := 0 }
  | 51 => s.onMem fun m => { m with corr := 0 }
  | 52 => s.onMem fun m => { m with uncorr := 0 }
  | _ => s

/-- A read of a register of the map: the value, and the state it leaves. -/
def State.regRead (s : State) (k : Nat) (env : BusEnv) : State × Word :=
  if k = regWinData then s.winRead false env
  else if k = regWinDataInc then s.winRead true env
  else (s.regClear k, s.regValue k)

/-! ### Writes of registers -/

/-- A write's effect: the state, and the bits of HBI_ERR that it sets. -/
abbrev Put := State × BitVec 6

/-- GCTRL (R448). -/
def State.putGctrl (s : State) (w : RegWrite) : State :=
  let s := s.onCmd fun c => { c with peerCmd := bit (w.over (w32 (b2n c.peerCmd))) 0 }
  let s := if bit w.ones 24 then s.fwGo else s
  if bit w.ones 25 then s.orderRestart else s

/-- The command that a write of CMD_OP latches, in ring-entry form (R50, R60). -/
def State.latched (s : State) (v : Word) : CmdWords :=
  let a := fun k => tget 0 s.cmd.args k
  { hdr := (v &&& 0x000003FF#32) ||| ((a 7) <<< 16), epoch := a 6, a0 := a 0, a1 := a 1, a2 := a 2, a3 := a 3, a4 := a 4, a5 := a 5 }

/-- CMD_OP (R60, R61): the command is latched and BUSY set, or the write is ignored while BUSY. -/
def State.putCmdOp (s : State) (v : Word) : Put :=
  if s.cmd.busy then (s, errMboxBusy)
  else
    let c := s.latched v
    let waits := !s.serving || !s.domOn dMgmt
    let s := s.onCmd fun k => { k with
      opReg := v &&& 0xFFFF03FF#32, busy := true, status := if waits then 6 else 0, op := BitVec.ofNat 8 c.op, seq := c.seq, mbox := some c }
    (s.selfVote dMgmt 6, 0)

/-- Completion Ring zeroed, pointers zero, EHALT clear (R63). -/
def State.ringStart (s : State) (base : Nat) : State :=
  let a := base * 16384 + 0x2000
  (s.onMem fun m => { m with sram := Memory.clear a (a + 4096) m.sram, badSram := healed a 4096 m.badSram }).onCmd fun c => { c with
    base := BitVec.ofNat 6 base, en := true, head := 0, tail := 0, cplHead := 0, ehalt := false }

/-- CRING_BASE (R62, R63). -/
def State.putCringBase (s : State) (w : RegWrite) : Put :=
  let v := w.over s.cringBase
  let en := bit v 31
  let base := fld v 14 6
  if s.boot.boot ≠ 4 || (s.cmd.en && en) || (en && (base < 0x30 || s.cmd.taken.isSome)) then (s, errRingCfg)
  else if en then (s.ringStart base, 0)
  else (s.onCmd fun c => { c with base := BitVec.ofNat 6 base, en := false }, 0)

/-- CRING_TAIL (R64, R395). -/
def State.putTail (s : State) (v : Word) : Put :=
  let t : BitVec 9 := v.setWidth 9
  if 256 < (t - s.cmd.head).toNat then (s, errRingPtr)
  else
    let s := s.onCmd fun c => { c with tail := t }
    (if s.cmd.en && s.cmd.head ≠ t then s.selfVote dMgmt 6 else s, 0)

/-- CPL_HEAD (R64): it moves no further than the last completion written. -/
def State.putCplHead (s : State) (v : Word) : Put :=
  let t : BitVec 9 := v.setWidth 9
  if (s.cmd.head - s.cmd.cplHead).toNat < (t - s.cmd.cplHead).toNat then (s, errRingPtr)
  else (s.onCmd fun c => { c with cplHead := t }, 0)

/-- TIME_LATCH (R79, R443). A CAP write stores the ARM that it carries (DESIGN CHOICE, log 108). -/
def State.putTimeLatch (s : State) (w : RegWrite) : State :=
  let v := w.over s.timeLatch
  let s := s.onTime fun t => { t with
    trigSel := BitVec.ofNat 2 (fld v 1 2), arm := bit v 3, capValid := t.capValid && !(bit v 3 && !t.arm) }
  if bit w.ones 0 then s.onTime fun t => Time.capture t.total t else s

/-- TIME_INCR (R72): the host's while REF_SEL is none and the state is not UNTRUSTED. -/
def State.putTimeIncr (s : State) (w : RegWrite) : State :=
  if s.time.refSel = 3 && s.time.state ≠ 2 then s.onTime fun t => { t with incr := incrClamp (w.over t.incr).toNat } else s

/-- REF_SEL is written (R83, R84, R88): none takes every state but UNTRUSTED to FREE, and a slew ends. -/
def State.selectRef (s : State) (sel : BitVec 2) : State :=
  let s := s.onTime fun t => { t with refSel := sel }
  let s := if sel = 3 && s.time.state ≠ 2 then
      let s := if s.time.slew then s.onTime fun t => t.endSlew t.slewBase else s
      if s.time.state = 3 then s else s.timeState 3
    else s
  s.refUpdate

/-- TIME_STAT (R82); REF_SEL lies in its second byte. A change of TIME_STAT raises TIME (R67). -/
def State.putTimeStat (s : State) (w : RegWrite) : State :=
  let v := w.over s.timeStat
  let t := s.onTime fun t => { t with
    wclkOutEn := bit v 10, ppsOutEn := bit v 11, ppsFrom := if bit v 11 && !t.ppsOutEn then t.total else t.ppsFrom }
  let t := if w.be.getLsbD 1 then t.selectRef (BitVec.ofNat 2 (fld v 8 2)) else t
  if t.timeStat = s.timeStat then t else t.raise irqTime

/-- TRACE_CFG (R436). -/
def State.putTraceCfg (s : State) (w : RegWrite) : State :=
  let v := w.over s.traceCfg
  let s := s.onTrace fun t => { t with
    portEn := bit v 0, ringEn := bit v 1, ringSz := BitVec.ofNat 3 (min 6 (fld v 2 3)), classes := BitVec.ofNat 8 (fld v 8 8) }
  if bit w.ones 16 then s.askBanks 4 else s

/-- CMD_ARG0 to CMD_ARG7 (R60, R454). -/
def State.putArg (s : State) (i : Nat) (w : RegWrite) : State :=
  s.onCmd fun c => { c with args := tput 0 i ((w.over (tget 0 c.args i)) &&& (if i = 7 then 0x0000FFFF#32 else 0xFFFFFFFF#32)) c.args }

/-- A write of a register of the map, by word address. A partial write of CMD_OP, CRING_TAIL or CPL_HEAD does nothing (R40); read-only
registers ignore writes. -/
def State.regPut (s : State) (k : Nat) (w : RegWrite) (env : BusEnv) : Put :=
  if fullOnly k && !w.full then (s, errPartial)
  else match k with
    | 4 => (s.putGctrl w, 0)
    | 6 => (s.onHbi fun h => { h with irqStat := (w.clears (h.irqStat.setWidth 32)).setWidth 16 }, 0)
    | 7 => (s.onHbi fun h => { h with irqEn := (w.over (h.irqEn.setWidth 32)).setWidth 16 }, 0)
    | 9 => (s.onPower fun p => { p with ltol := w.over p.ltol }, 0)
    | 10 => (s.writeVote ((w.over (s.power.host.setWidth 32)).setWidth 22), 0)
    | 11 => (s.onPower fun p => { p with cfgLost := p.cfgLost && !bit w.ones 29 }, 0)
    | 14 => (s.onHbi fun h => { h with err := (w.clears (h.err.setWidth 32)).setWidth 6 }, 0)
    | 15 => (s.onHbi fun h => { h with scratch := w.over h.scratch }, 0)
    | 16 => (s.onHbi fun h => { h with winAddr := w.over h.winAddr }, 0)
    | 17 => (s.winWrite false w env, 0)
    | 18 => (s.winWrite true w env, 0)
    | 19 => (s.onHbi fun h => { h with winErr := (w.clears (h.winErr.setWidth 32)).setWidth 5 }, 0)
    | 20 => s.putCmdOp w.val
    | 21 => (s.putArg 0 w, 0)
    | 22 => (s.putArg 1 w, 0)
    | 23 => (s.putArg 2 w, 0)
    | 24 => (s.putArg 3 w, 0)
    | 25 => (s.putArg 4 w, 0)
    | 26 => (s.putArg 5 w, 0)
    | 27 => (s.putArg 6 w, 0)
    | 28 => (s.putArg 7 w, 0)
    | 32 => s.putCringBase w
    | 33 => (s.onCmd fun c => { c with ehalt := c.ehalt && !bit w.ones 31 }, 0)
    | 34 => s.putTail w.val
    | 35 => s.putCplHead w.val
    | 36 => (if bit w.ones 0 then s.rollAsk else s, 0)
    | 41 => (s.putTimeLatch w, 0)
    | 42 => (s.putTimeIncr w, 0)
    | 43 => (s.putTimeStat w, 0)
    | 45 => (s.askBanks (BitVec.ofNat 3 (fld w.ones 0 2)), 0)
    | 47 => (s.putTraceCfg w, 0)
    | 48 => (s.onTrace fun t => { t with conflict := t.conflict && !bit w.ones 2 }, 0)
    | 51 => (s.onMem fun m => { m with scrubH := BitVec.ofNat 8 (min 0xA8 (fld (w.over s.eccCorrReg) 24 8)) }, 0)
    | 52 => (s.onMem fun m => { m with mirrorLost := m.mirrorLost && !bit w.ones 24 }, 0)
    | _ => (s, 0)

/-! ### Whole accesses (R37, R38, R41) -/

/-- What the environment shows where nothing goes wrong. -/
def cleanBus : BusEnv := { timeout := false, ecc := .clean }

/-- A halfword pair ends with any whole access, which in 16-bit mode is a pair of its own. -/
def State.pairDone (s : State) : State := s.onHbi fun h => { h with latch := none, held := none }

/-- HBI_D of a read. -/
def State.answer (r : State × Word) : State := r.1.onHbi fun h => { h with rdata := r.2 }

/-- A read of 32 bits at a word address. -/
def State.hostRead (s : State) (k : Nat) (env : BusEnv) : State :=
  if !s.hbi.ready then s
  else if regCount ≤ k then State.answer (s.pairDone.busErr errUnmapped, 0)
  else State.answer (s.pairDone.regRead k env)

/-- A write of 32 bits at a word address. -/
def State.hostWrite (s : State) (k : Nat) (w : RegWrite) (env : BusEnv) : State :=
  if !s.hbi.ready then s
  else if regCount ≤ k then s.pairDone.busErr errUnmapped
  else
    let r := s.pairDone.regPut k w env
    r.1.busErr r.2

/-- A low half in 16-bit mode (R41): a read performs the whole read and latches the upper half; a write is held. -/
def State.lowHalf (s : State) (d : Dir) (reg : BitVec 7) (data : BitVec 16) (be : BitVec 2) (env : BusEnv) : State :=
  match d with
  | .read =>
    let s := s.hostRead reg.toNat env
    s.onHbi fun h => { h with latch := some (reg, h.rdata.extractLsb' 16 16), held := none, rdata := h.rdata &&& 0x0000FFFF#32 }
  | .write => s.onHbi fun h => { h with held := some (reg, data, be), latch := none }

/-- The word and enables that a pair of halves makes. -/
def joinHalves (lo hi : BitVec 16) (beLo beHi : BitVec 2) : RegWrite := { val := hi ++ lo, be := beHi ++ beLo }

/-- A read of a high half without its low half (R41): bits [31:16] of what the register holds. -/
def State.loneRead (s : State) (k : Nat) : State :=
  if regCount ≤ k then State.answer (s.pairDone.busErr (errW16Order ||| errUnmapped), 0)
  else State.answer (s.pairDone.busErr errW16Order, s.regValue k >>> 16)

/-- A write of a high half without its low half (R41): bytes 2 and 3 of the word. -/
def State.loneWrite (s : State) (k : Nat) (data : BitVec 16) (env : BusEnv) : State :=
  if regCount ≤ k then s.pairDone.busErr (errW16Order ||| errUnmapped)
  else
    let r := s.pairDone.regPut k { val := data ++ (0 : BitVec 16), be := 0xC } env
    r.1.busErr (errW16Order ||| r.2)

/-- A high half in 16-bit mode (R41). -/
def State.highHalf (s : State) (d : Dir) (reg : BitVec 7) (data : BitVec 16) (be : BitVec 2) (env : BusEnv) : State :=
  match d with
  | .read =>
    match s.hbi.latch with
    | some (r, v) => if r = reg then State.answer (s.pairDone, v.setWidth 32) else s.loneRead reg.toNat
    | none => s.loneRead reg.toNat
  | .write =>
    match s.hbi.held with
    | some (r, lo, b) => if r = reg then s.hostWrite reg.toNat (joinHalves lo data b be) env else s.loneWrite reg.toNat data env
    | none => s.loneWrite reg.toNat data env

/-! ### The rows of the host bus -/

/-- CRING_TAIL_WRITE (R64). -/
def execCringTailWrite (w : RegWrite) (s : State) : Host.Outcome State Fault Refusal := .next (s.hostWrite regCringTail w cleanBus)

/-- CPL_HEAD_WRITE (R64). -/
def execCplHeadWrite (w : RegWrite) (s : State) : Host.Outcome State Fault Refusal := .next (s.hostWrite regCplHead w cleanBus)

/-- RING_ENABLE (R62, R63): a write of CRING_BASE. -/
def execRingEnable (w : RegWrite) (s : State) : Host.Outcome State Fault Refusal := .next (s.hostWrite regCringBase w cleanBus)

/-- RING_DISABLE (R63): a write of CRING_BASE. -/
def execRingDisable (w : RegWrite) (s : State) : Host.Outcome State Fault Refusal := .next (s.hostWrite regCringBase w cleanBus)

/-- EHALT_CLEAR (R64): a write of CRING_HEAD. -/
def execEhaltClear (w : RegWrite) (s : State) : Host.Outcome State Fault Refusal := .next (s.hostWrite regCringHead w cleanBus)

/-- WIN_DATA_READ (R46). -/
def execWinDataRead (inc : Bool) (env : BusEnv) (s : State) : Host.Outcome State Fault Refusal :=
  .next (s.hostRead (if inc then regWinDataInc else regWinData) env)

/-- WIN_DATA_WRITE (R46). -/
def execWinDataWrite (inc : Bool) (w : RegWrite) (env : BusEnv) (s : State) : Host.Outcome State Fault Refusal :=
  .next (s.hostWrite (if inc then regWinDataInc else regWinData) w env)

/-- HALFWORD_LOW_ACCESS (R41): in 16-bit mode. -/
def execHalfwordLowAccess (d : Dir) (reg : BitVec 7) (data : BitVec 16) (be : BitVec 2) (env : BusEnv) (s : State) :
    Host.Outcome State Fault Refusal :=
  .next (if s.hbi.ready && s.hbi.w16 then s.lowHalf d reg data be env else s)

/-- HALFWORD_HIGH_ACCESS (R41): in 16-bit mode. -/
def execHalfwordHighAccess (d : Dir) (reg : BitVec 7) (data : BitVec 16) (be : BitVec 2) (env : BusEnv) (s : State) :
    Host.Outcome State Fault Refusal :=
  .next (if s.hbi.ready && s.hbi.w16 then s.highHalf d reg data be env else s)

/-- UNMAPPED_ACCESS (R38); an address of the map is not one, and then nothing happens. -/
def execUnmappedAccess (d : Dir) (reg : BitVec 8) (s : State) : Host.Outcome State Fault Refusal :=
  .next (if reg.toNat < regCount then s
    else match d with
      | .read => s.hostRead reg.toNat cleanBus
      | .write => s.hostWrite reg.toNat { val := 0, be := 0xF } cleanBus)

/-- REG_READ_CLEAR (R37, R442): a read of a register, RC clearing included. -/
def execRegReadClear (reg : BitVec 8) (s : State) : Host.Outcome State Fault Refusal := .next (s.hostRead reg.toNat cleanBus)

/-- REG_WRITE (R37, R40). -/
def execRegWrite (reg : BitVec 8) (w : RegWrite) (s : State) : Host.Outcome State Fault Refusal :=
  .next (s.hostWrite reg.toNat w cleanBus)

/-- TIME_CAPTURE (R79): a write of TIME_LATCH. -/
def execTimeCapture (w : RegWrite) (s : State) : Host.Outcome State Fault Refusal := .next (s.hostWrite regTimeLatch w cleanBus)

/-- TIME_ARM (R79): a write of TIME_LATCH. -/
def execTimeArm (w : RegWrite) (s : State) : Host.Outcome State Fault Refusal := .next (s.hostWrite regTimeLatch w cleanBus)

/-- TIME_INCR_WRITE (R72). -/
def execTimeIncrWrite (w : RegWrite) (s : State) : Host.Outcome State Fault Refusal := .next (s.hostWrite regTimeIncr w cleanBus)

/-- REF_SEL_WRITE (R82, R84): a write of TIME_STAT. -/
def execRefSelWrite (w : RegWrite) (s : State) : Host.Outcome State Fault Refusal := .next (s.hostWrite regTimeStat w cleanBus)

/-- FW_GO (R414): a write of GCTRL. -/
def execFwGo (w : RegWrite) (s : State) : Host.Outcome State Fault Refusal := .next (s.hostWrite regGctrl w cleanBus)

/-- RESTART (R418): a write of GCTRL. -/
def execRestart (w : RegWrite) (s : State) : Host.Outcome State Fault Refusal := .next (s.hostWrite regGctrl w cleanBus)

/-- TAKE (R423): a write of RCALL. -/
def execTake (w : RegWrite) (s : State) : Host.Outcome State Fault Refusal := .next (s.hostWrite regRcall w cleanBus)

/-- SNAP0 (R279): a write of STATS_SNAP. -/
def execSnap0 (w : RegWrite) (s : State) : Host.Outcome State Fault Refusal := .next (s.hostWrite regStatsSnap w cleanBus)

/-- SNAP1 (R279): a write of STATS_SNAP. -/
def execSnap1 (w : RegWrite) (s : State) : Host.Outcome State Fault Refusal := .next (s.hostWrite regStatsSnap w cleanBus)

/-- CSNAP (R439): a write of TRACE_CFG. -/
def execCsnap (w : RegWrite) (s : State) : Host.Outcome State Fault Refusal := .next (s.hostWrite regTraceCfg w cleanBus)

/-- TRACE_CFG_WRITE (R436). -/
def execTraceCfgWrite (w : RegWrite) (s : State) : Host.Outcome State Fault Refusal := .next (s.hostWrite regTraceCfg w cleanBus)

/-- PWR_VOTE_WRITE (R397). -/
def execPwrVoteWrite (w : RegWrite) (s : State) : Host.Outcome State Fault Refusal := .next (s.hostWrite regPwrVote w cleanBus)

/-- LTOL_WRITE (R401). -/
def execLtolWrite (w : RegWrite) (s : State) : Host.Outcome State Fault Refusal := .next (s.hostWrite regLtol w cleanBus)

end Sys2Proof.Machine
end

