-- ==== Sys2Proof/Machine/Commands.lean ====
section
/-! DEFINITION. The commands of R51 as rows: each opcode's own checks with the waits of R59 that it needs, the release of a waiting
command, and forwards from peers (R337 to R339). -/

namespace Sys2Proof.Machine

/-! ### Waits (R59, R176, R214, R247, R350) -/

/-- A command that changes or reads the configuration tables, which lie in Pantry (R371), needs PANTRY. -/
def needPantry (h : Handler) : Handler := fun x s => if s.domOn dPantry then h x s else .wait dPantry

/-- A command on the digital audio ports needs their domain. -/
def needDap (h : Handler) : Handler := fun x s => if s.domOn dDap then h x s else .wait dDap

/-- A command whose block lies in Pantry needs PANTRY. -/
def needBlock (h : Handler) : Handler := fun x s => if fld x.cmd.a1 31 1 = 1 && !s.domOn dPantry then .wait dPantry else h x s

/-- A command on a port that the member carries waits for the port's bank where it needs it, before its own checks (R59). -/
def Verdict.orWait (v : Verdict) (s : State) (p : Nat) (need : Bool) : Verdict :=
  if need && decide (p < 48) && decide (p < memberPorts s.wingsNext) then .wait (dBank (bankOf p)) else v

/-- The state at the boundary of the effect, a woken bank's ports back from HOLD (R176, R214). -/
def State.released (t : State) (p : Nat) : State := t.bankRelease (bankOf p)

/-- A host call or a sounding on a port in HOLD needs its bank ON. -/
def holdNeeds (s t : State) (p : Nat) : Bool := (t.port p).state = .hold && !s.domOn (dBank (bankOf p))

/-- A power command needs its bank ON for a port that leaves HOLD or enters RAMP, and at least Proofing to probe (R176). -/
def powerNeeds (s t : State) (p mode : Nat) : Bool :=
  let d := dBank (bankOf p)
  if mode = 0 then holdNeeds s t p
  else if mode = 2 then !s.domOn d
  else !(s.domOn d || ((s.dom d).state = .proofing && (s.dom d).transit = .none))

/-- Units that a projected configuration adds or grows and for which no tile of an ON Wing has room (R350). -/
def State.homeless (s t : State) : Bool :=
  let old := s.mixView.units
  let u := t.placeAll packLimit s.mixView t.mixView
  (u.mixView.units.filter fun k => !old.contains k).any fun k => (u.tiles.tt.at k).isNone

/-- A command that adds or grows a unit waits for the lowest Wing that is not ON where no tile has room; with every Wing ON a repack
places the unit (R350, R357). -/
def needWing (h : Handler) : Handler := fun x s =>
  match h x s with
  | .config s' ord cs r1 =>
    if s.homeless ((s'.project ord).applyAll (cs.map fun c => { ord := ord, change := c, src := x.src, cmd := x.cmd })) then
      match (upto 8).find? fun w => !s.wingOn w with
      | some w => .wait (dWing w)
      | none => .config (s'.onTiles fun q => { q with repackDue := true }) ord cs r1
    else .config s' ord cs r1
  | v => v

/-! ### Each opcode's checks (R51, R53) -/

/-- No word of A0 to A5 is set: the command's rule assigns none of them (R482). -/
def noArgs (c : CmdWords) : Bool := c.a0 = 0 && c.a1 = 0 && c.a2 = 0 && c.a3 = 0 && c.a4 = 0 && c.a5 = 0

/-- NOP: CFG_EPOCH and PIDX (R51); its six words are reserved (R482). -/
def onNop : Handler := fun x s => if noArgs x.cmd then .done s s.cmd.epoch s.pidx none else .reject stBadarg

def onLegSet : Handler := needPantry (needWing fun x s => legSetChecked x s (s.project s.effectOrd))
def onLegGet : Handler := needPantry fun x s => legGetChecked x s s.accepted
def onLegPause : Handler := needPantry fun x s => legPauseChecked x s s.project
def onGrpSet : Handler := needPantry (needWing fun x s => grpSetChecked x s (s.project s.effectOrd))
def onGrpGet : Handler := needPantry fun x s => grpGetChecked x s s.accepted
def onKeySet : Handler := needPantry fun x s => keySetChecked x s (s.project s.effectOrd)
def onPortSet : Handler := needPantry portSetChecked

def onPortPower : Handler := needPantry fun x s =>
  let p := fld x.cmd.a0 0 6
  let t := s.project s.effectOrd
  (portPowerChecked x s (t.released p)).orWait s p (powerNeeds s t p (fld x.cmd.a0 8 2))

def onPortSound : Handler := fun x s =>
  let p := fld x.cmd.a0 0 6
  let t := s.project s.effectOrd
  if fld x.cmd.a0 8 2 = 0 then (portSoundChecked x s (t.released p)).orWait s p (holdNeeds s t p)
  else portSoundChecked x s t

def onCallSend : Handler := fun x s =>
  let p := fld x.cmd.a0 0 6
  let t := s.project s.effectOrd
  if fld x.cmd.a0 8 2 = 0 then (callSendChecked x s (t.released p)).orWait s p (holdNeeds s t p)
  else callSendChecked x s t

def onCardBudget : Handler := needPantry cardBudgetChecked
def onDapSet : Handler := needPantry (needDap fun x s => dapSetChecked x s (s.project s.effectOrd))
def onDapStart : Handler := needPantry (needDap fun x s => dapStartChecked x s s.project)
def onStreamSet : Handler := needPantry fun x s => streamSetChecked x s (s.project s.effectOrd)
def onStreamPause : Handler := needPantry fun x s => streamPauseChecked x s s.project
def onShaperSet : Handler := needPantry shaperSetChecked
def onPolicerSet : Handler := needPantry policerSetChecked
def onRingSet : Handler := needPantry fun x s => ringSetChecked x s (s.project s.effectOrd)
def onImdalJoin : Handler := fun x s => imdalJoinChecked x s s.project
def onTimetableGet : Handler := needBlock timetableGetChecked
def onPwrSet : Handler := needPantry pwrSetChecked

/-- An opcode that R51 does not define. -/
def onUndefined : Handler := fun _ _ => .reject stBadop

/-- The checks of an opcode. -/
def handlerOf (op : Nat) : Handler :=
  match op with
  | 0x00 => onNop
  | 0x10 => onLegSet
  | 0x11 => onLegGet
  | 0x12 => onLegPause
  | 0x18 => onGrpSet
  | 0x19 => onGrpGet
  | 0x1A => onKeySet
  | 0x20 => onPortSet
  | 0x21 => onPortPower
  | 0x22 => onPortSound
  | 0x23 => onCallSend
  | 0x24 => onCardBudget
  | 0x30 => onDapSet
  | 0x31 => onDapStart
  | 0x40 => onStreamSet
  | 0x41 => onStreamPause
  | 0x42 => onShaperSet
  | 0x43 => onPolicerSet
  | 0x44 => onRingSet
  | 0x50 => onImdalJoin
  | 0x60 => onTimetableGet
  | 0x70 => onPwrSet
  | 0x78 => rollCallChecked
  | 0x79 => snapshotChecked
  | _ => onUndefined

/-! ### The rows of R51 -/

/-- NOP (R51). -/
def execNop (src : CmdSrc) (s : State) : Host.Outcome State Fault Refusal := .next (s.runRow (· = 0x00) onNop src)

/-- UNDEFINED_OPCODE (R51, R54). -/
def execUndefinedOpcode (src : CmdSrc) (s : State) : Host.Outcome State Fault Refusal :=
  .next (s.runRow (fun op => !isDefined op) onUndefined src)

/-- LEG_SET (R106). -/
def execLegSet (src : CmdSrc) (s : State) : Host.Outcome State Fault Refusal := .next (s.runRow (· = 0x10) onLegSet src)

/-- LEG_GET (R107). -/
def execLegGet (src : CmdSrc) (s : State) : Host.Outcome State Fault Refusal := .next (s.runRow (· = 0x11) onLegGet src)

/-- LEG_PAUSE (R108). -/
def execLegPause (src : CmdSrc) (s : State) : Host.Outcome State Fault Refusal := .next (s.runRow (· = 0x12) onLegPause src)

/-- GRP_SET (R115). -/
def execGrpSet (src : CmdSrc) (s : State) : Host.Outcome State Fault Refusal := .next (s.runRow (· = 0x18) onGrpSet src)

/-- GRP_GET (R118). -/
def execGrpGet (src : CmdSrc) (s : State) : Host.Outcome State Fault Refusal := .next (s.runRow (· = 0x19) onGrpGet src)

/-- KEY_SET (R110). -/
def execKeySet (src : CmdSrc) (s : State) : Host.Outcome State Fault Refusal := .next (s.runRow (· = 0x1A) onKeySet src)

/-- PORT_SET (R172). -/
def execPortSet (src : CmdSrc) (s : State) : Host.Outcome State Fault Refusal := .next (s.runRow (· = 0x20) onPortSet src)

/-- PORT_POWER (R176). -/
def execPortPower (src : CmdSrc) (s : State) : Host.Outcome State Fault Refusal := .next (s.runRow (· = 0x21) onPortPower src)

/-- PORT_SOUND (R205). -/
def execPortSound (src : CmdSrc) (s : State) : Host.Outcome State Fault Refusal := .next (s.runRow (· = 0x22) onPortSound src)

/-- CALL_SEND (R214). -/
def execCallSend (src : CmdSrc) (s : State) : Host.Outcome State Fault Refusal := .next (s.runRow (· = 0x23) onCallSend src)

/-- CARD_BUDGET (R184, R191). -/
def execCardBudget (src : CmdSrc) (s : State) : Host.Outcome State Fault Refusal := .next (s.runRow (· = 0x24) onCardBudget src)

/-- DAP_SET (R234). -/
def execDapSet (src : CmdSrc) (s : State) : Host.Outcome State Fault Refusal := .next (s.runRow (· = 0x30) onDapSet src)

/-- DAP_START (R235). -/
def execDapStart (src : CmdSrc) (s : State) : Host.Outcome State Fault Refusal := .next (s.runRow (· = 0x31) onDapStart src)

/-- STREAM_SET (R287). -/
def execStreamSet (src : CmdSrc) (s : State) : Host.Outcome State Fault Refusal := .next (s.runRow (· = 0x40) onStreamSet src)

/-- STREAM_PAUSE (R292). -/
def execStreamPause (src : CmdSrc) (s : State) : Host.Outcome State Fault Refusal := .next (s.runRow (· = 0x41) onStreamPause src)

/-- SHAPER_SET (R307). -/
def execShaperSet (src : CmdSrc) (s : State) : Host.Outcome State Fault Refusal := .next (s.runRow (· = 0x42) onShaperSet src)

/-- POLICER_SET (R312). -/
def execPolicerSet (src : CmdSrc) (s : State) : Host.Outcome State Fault Refusal := .next (s.runRow (· = 0x43) onPolicerSet src)

/-- RING_SET (R251). -/
def execRingSet (src : CmdSrc) (s : State) : Host.Outcome State Fault Refusal := .next (s.runRow (· = 0x44) onRingSet src)

/-- IMDAL_JOIN (R321). -/
def execImdalJoin (src : CmdSrc) (s : State) : Host.Outcome State Fault Refusal := .next (s.runRow (· = 0x50) onImdalJoin src)

/-- TIMETABLE_GET (R365). -/
def execTimetableGet (src : CmdSrc) (s : State) : Host.Outcome State Fault Refusal := .next (s.runRow (· = 0x60) onTimetableGet src)

/-- PWR_SET (R402). -/
def execPwrSet (src : CmdSrc) (s : State) : Host.Outcome State Fault Refusal := .next (s.runRow (· = 0x70) onPwrSet src)

/-- ROLL_CALL (R423). -/
def execRollCall (src : CmdSrc) (s : State) : Host.Outcome State Fault Refusal := .next (s.runRow (· = 0x78) rollCallChecked src)

/-- SNAPSHOT (R280). -/
def execSnapshot (src : CmdSrc) (s : State) : Host.Outcome State Fault Refusal := .next (s.runRow (· = 0x79) snapshotChecked src)

/-! ### Forwards from peers (R337 to R339) -/

/-- The answer to a register forward of a peer. -/
def State.answerReg (s : State) (q : RingIx) (st : Nat) (r0 : Word) : State :=
  let a : ForwardAnswer :=
    { status := BitVec.ofNat 4 st, res0 := r0, res1 := Config.forwardWord 1 s.imdal.served.toNat, epoch := s.cmd.epoch, data := [] }
  s.onCmd fun m => { m with answer := some a, answers := m.answers ++ [(q, a)] }

/-- The first result word of a register forward that returns none (R339): free (log 12). -/
def State.noResult (s : State) : Word := Config.forwardWord 0 s.imdal.served.toNat

/-- A register forward (R339): a host bus access, a write to IRQ_STAT and IRQ_EN alone. -/
def State.serveReg (s : State) (q : RingIx) (f : Forward) : State :=
  match f with
  | .regRead k =>
    if !s.cmd.peerCmd then s.answerReg q stDenied s.noResult
    else
      let r := s.regRead k.val cleanBus
      r.1.answerReg q stOk r.2
  | .regWrite k v =>
    if !s.cmd.peerCmd || !(k.val = regIrqStat || k.val = regIrqEn) then s.answerReg q stDenied s.noResult
    else (s.regPut k.val { val := v, be := 0xF } cleanBus).1.answerReg q stOk s.noResult
  | .command _ _ => s

/-- One forward of a peer is run (R338), and counted as served (R342); its answer leaves once it stands. -/
def State.serveForward (s : State) (from_ : RingIx) (f : Forward) : State :=
  let s := s.onImdal fun m => { m with served := m.served + 1 }
  (match f with
  | .command c param => s.serve (handlerOf c.op) { src := .peer from_, cmd := c, param := some param }
  | f => s.serveReg from_ f).sendAnswers

/-- A source is a peer. -/
def isPeer : Source → Bool
  | .peer _ => true
  | _ => false

/-- A peer's forward has been taken and not yet answered (R338): it waits for its Roll Call, its SNAPSHOT, its boundary or a forward of its own. -/
def State.peerBusy (s : State) : Bool :=
  s.cmd.rolls.any (isPeer ·.src) || s.cmd.snaps.any (isPeer ·.src) || s.cmd.held.any (isPeer ·.src) || s.cmd.fwd.any (isPeer ·.src)

/-- The arrival of a peer's command places a SELF vote on MGMT (R395). -/
def State.peerArrives (s : State) (f : Forward) : State := match f with | .command _ _ => s.selfVote dMgmt 6 | _ => s

/-- FORWARD_RECEIVED (R338): forwards run one at a time in the sequence of R66, behind a command that waits and behind a forward that has no answer yet.
A forward to another device travels on by the other port (R341). A device that is not ENROLLED, or a sender outside its segment, carries none. -/
def execForwardReceived (from_ : RingIx) (f : ForwardIn) (s : State) : Host.Outcome State Fault Refusal :=
  if s.imdal.state ≠ .enrolled || !s.imdal.segment.getLsbD from_.val then .next s
  else if BitVec.ofNat 3 f.target.val ≠ s.imdal.index then .next (s.sendBy (1 - f.side.val) (.forward from_ f.target f.body))
  else
    let s := s.peerArrives f.body
    if s.cmd.waiting.isSome || s.peerBusy || !s.cmd.peerQ.isEmpty then
      .next (s.onCmd fun m => { m with peerQ := m.peerQ ++ [(from_, f.body)] })
    else .next (s.serveForward from_ f.body)

/-! ### COMMAND_WAIT_RELEASE (R57, R59, R412) -/

/-- What a waiting command waited for has come. -/
def State.waitOver (s : State) (w : Waiting) : Bool :=
  match w.why with
  | .boot => s.serving
  | .limit => decide (s.cmd.accepted < 64)
  | .domain d => s.domOn d

/-- Peers' forwards that arrived behind a waiting command, or behind another forward, are served in their order, until one has no answer; n bounds
their number. -/
def State.drainPeers : Nat → State → State
  | 0, s => s
  | n + 1, s =>
    if s.peerBusy then s
    else match s.cmd.waiting, s.cmd.peerQ with
    | none, (from_, f) :: rest => State.drainPeers n ((s.onCmd fun m => { m with peerQ := rest }).serveForward from_ f)
    | _, _ => s

/-- The waiting command is checked again, and accepted where it can be; then the forwards of peers behind it, in their order. A mailbox
command written during the wait is served by its own row, so after them (DESIGN CHOICE, log 110). -/
def State.releaseWait (s : State) : State :=
  let s := match s.cmd.waiting with
    | some w =>
      if s.waitOver w then
        let t := s.serve (handlerOf w.cmd.op) { src := w.src, cmd := w.cmd, param := s.cmd.waitParam }
        if isPeer w.src then t.sendAnswers else t
      else s
    | none => s
  s.drainPeers s.cmd.peerQ.length

/-- COMMAND_WAIT_RELEASE. -/
def execCommandWaitRelease (s : State) : Host.Outcome State Fault Refusal := .next s.releaseWait

end Sys2Proof.Machine
end

