-- ==== Sys2Proof/Machine/Dispatch.lean ====
section
/-! DEFINITION. The dispatch: every command of the table to its meaning. -/

namespace Sys2Proof.Machine

def exec (i : Instr) (s : State) : Host.Outcome State Fault Refusal :=
  match i with
  | .nop src => Sys2Proof.Machine.execNop src s
  | .undefinedOpcode src => Sys2Proof.Machine.execUndefinedOpcode src s
  | .legSet src => Sys2Proof.Machine.execLegSet src s
  | .legGet src => Sys2Proof.Machine.execLegGet src s
  | .legPause src => Sys2Proof.Machine.execLegPause src s
  | .grpSet src => Sys2Proof.Machine.execGrpSet src s
  | .grpGet src => Sys2Proof.Machine.execGrpGet src s
  | .keySet src => Sys2Proof.Machine.execKeySet src s
  | .portSet src => Sys2Proof.Machine.execPortSet src s
  | .portPower src => Sys2Proof.Machine.execPortPower src s
  | .portSound src => Sys2Proof.Machine.execPortSound src s
  | .callSend src => Sys2Proof.Machine.execCallSend src s
  | .cardBudget src => Sys2Proof.Machine.execCardBudget src s
  | .dapSet src => Sys2Proof.Machine.execDapSet src s
  | .dapStart src => Sys2Proof.Machine.execDapStart src s
  | .streamSet src => Sys2Proof.Machine.execStreamSet src s
  | .streamPause src => Sys2Proof.Machine.execStreamPause src s
  | .shaperSet src => Sys2Proof.Machine.execShaperSet src s
  | .policerSet src => Sys2Proof.Machine.execPolicerSet src s
  | .ringSet src => Sys2Proof.Machine.execRingSet src s
  | .imdalJoin src => Sys2Proof.Machine.execImdalJoin src s
  | .timetableGet src => Sys2Proof.Machine.execTimetableGet src s
  | .pwrSet src => Sys2Proof.Machine.execPwrSet src s
  | .rollCall src => Sys2Proof.Machine.execRollCall src s
  | .snapshot src => Sys2Proof.Machine.execSnapshot src s
  | .commandWaitRelease => Sys2Proof.Machine.execCommandWaitRelease s
  | .cringTailWrite w => Sys2Proof.Machine.execCringTailWrite w s
  | .cplHeadWrite w => Sys2Proof.Machine.execCplHeadWrite w s
  | .ringEnable w => Sys2Proof.Machine.execRingEnable w s
  | .ringDisable w => Sys2Proof.Machine.execRingDisable w s
  | .ehaltClear w => Sys2Proof.Machine.execEhaltClear w s
  | .winDataRead inc env => Sys2Proof.Machine.execWinDataRead inc env s
  | .winDataWrite inc w env => Sys2Proof.Machine.execWinDataWrite inc w env s
  | .halfwordLowAccess dir reg data be env => Sys2Proof.Machine.execHalfwordLowAccess dir reg data be env s
  | .halfwordHighAccess dir reg data be env => Sys2Proof.Machine.execHalfwordHighAccess dir reg data be env s
  | .unmappedAccess dir reg => Sys2Proof.Machine.execUnmappedAccess dir reg s
  | .regReadClear reg => Sys2Proof.Machine.execRegReadClear reg s
  | .regWrite reg w => Sys2Proof.Machine.execRegWrite reg w s
  | .timeCapture w => Sys2Proof.Machine.execTimeCapture w s
  | .timeArm w => Sys2Proof.Machine.execTimeArm w s
  | .timeIncrWrite w => Sys2Proof.Machine.execTimeIncrWrite w s
  | .refSelWrite w => Sys2Proof.Machine.execRefSelWrite w s
  | .fwGo w => Sys2Proof.Machine.execFwGo w s
  | .restart w => Sys2Proof.Machine.execRestart w s
  | .take w => Sys2Proof.Machine.execTake w s
  | .snap0 w => Sys2Proof.Machine.execSnap0 w s
  | .snap1 w => Sys2Proof.Machine.execSnap1 w s
  | .csnap w => Sys2Proof.Machine.execCsnap w s
  | .traceCfgWrite w => Sys2Proof.Machine.execTraceCfgWrite w s
  | .pwrVoteWrite w => Sys2Proof.Machine.execPwrVoteWrite w s
  | .ltolWrite w => Sys2Proof.Machine.execLtolWrite w s
  | .sspRead count => Sys2Proof.Machine.execSspRead count s
  | .sspWrite bytes => Sys2Proof.Machine.execSspWrite bytes s
  | .bell addr => Sys2Proof.Machine.execBell addr s
  | .periodBoundary m => Sys2Proof.Machine.execPeriodBoundary m s
  | .partialSumCutoff missing => Sys2Proof.Machine.execPartialSumCutoff missing s
  | .roundStart => Sys2Proof.Machine.execRoundStart s
  | .reductionRecordReceived side r => Sys2Proof.Machine.execReductionRecordReceived side r s
  | .admissionDecision => Sys2Proof.Machine.execAdmissionDecision s
  | .lateRound => Sys2Proof.Machine.execLateRound s
  | .correctionPass => Sys2Proof.Machine.execCorrectionPass s
  | .primaryDeadline unfinished => Sys2Proof.Machine.execPrimaryDeadline unfinished s
  | .tileWorkComplete tile => Sys2Proof.Machine.execTileWorkComplete tile s
  | .emitCutoff => Sys2Proof.Machine.execEmitCutoff s
  | .tileFailure tile cause => Sys2Proof.Machine.execTileFailure tile cause s
  | .substituteCatchUp tile => Sys2Proof.Machine.execSubstituteCatchUp tile s
  | .retestTimer tile => Sys2Proof.Machine.execRetestTimer tile s
  | .selfTestComplete tile pass => Sys2Proof.Machine.execSelfTestComplete tile pass s
  | .repack => Sys2Proof.Machine.execRepack s
  | .memberFall => Sys2Proof.Machine.execMemberFall s
  | .memberRise => Sys2Proof.Machine.execMemberRise s
  | .memberStepUp => Sys2Proof.Machine.execMemberStepUp s
  | .refclkLoss => Sys2Proof.Machine.execRefclkLoss s
  | .refclkRestored => Sys2Proof.Machine.execRefclkRestored s
  | .ptpMessageReceived port msg => Sys2Proof.Machine.execPtpMessageReceived port msg s
  | .slewComplete => Sys2Proof.Machine.execSlewComplete s
  | .referenceLoss ref => Sys2Proof.Machine.execReferenceLoss ref s
  | .lockAchieved => Sys2Proof.Machine.execLockAchieved s
  | .wclkQualified mHz => Sys2Proof.Machine.execWclkQualified mHz s
  | .wclkGlitch => Sys2Proof.Machine.execWclkGlitch s
  | .pinCapture pin => Sys2Proof.Machine.execPinCapture pin s
  | .startInEdge => Sys2Proof.Machine.execStartInEdge s
  | .triggerPointReceived p sample => Sys2Proof.Machine.execTriggerPointReceived p sample s
  | .startTrigger => Sys2Proof.Machine.execStartTrigger s
  | .surgeOpening port mv => Sys2Proof.Machine.execSurgeOpening port mv s
  | .surgeReramp port => Sys2Proof.Machine.execSurgeReramp port s
  | .surgeRecovered port => Sys2Proof.Machine.execSurgeRecovered port s
  | .surgeTimeout port => Sys2Proof.Machine.execSurgeTimeout port s
  | .rampComplete port mv => Sys2Proof.Machine.execRampComplete port mv s
  | .rampTimeout port => Sys2Proof.Machine.execRampTimeout port s
  | .foldEntry port => Sys2Proof.Machine.execFoldEntry port s
  | .foldExit port => Sys2Proof.Machine.execFoldExit port s
  | .gateFault port => Sys2Proof.Machine.execGateFault port s
  | .fetFault port => Sys2Proof.Machine.execFetFault port s
  | .ladderEnter step mv => Sys2Proof.Machine.execLadderEnter step mv s
  | .ladderLeave step => Sys2Proof.Machine.execLadderLeave step s
  | .budgetShed => Sys2Proof.Machine.execBudgetShed s
  | .budgetReturn => Sys2Proof.Machine.execBudgetReturn s
  | .attendanceStep port => Sys2Proof.Machine.execAttendanceStep port s
  | .attendanceEntryCount port => Sys2Proof.Machine.execAttendanceEntryCount port s
  | .lineFault port cause measured => Sys2Proof.Machine.execLineFault port cause measured s
  | .faultRecovery port => Sys2Proof.Machine.execFaultRecovery port s
  | .leakLocalisation bank => Sys2Proof.Machine.execLeakLocalisation bank s
  | .leakLocalised bank leak => Sys2Proof.Machine.execLeakLocalised bank leak s
  | .bankTemperature bank => Sys2Proof.Machine.execBankTemperature bank s
  | .probe port uv => Sys2Proof.Machine.execProbe port uv s
  | .soundingComplete port points nf => Sys2Proof.Machine.execSoundingComplete port points nf s
  | .callQualified port kind => Sys2Proof.Machine.execCallQualified port kind s
  | .callEnded port kind => Sys2Proof.Machine.execCallEnded port kind s
  | .hostCallEnd port => Sys2Proof.Machine.execHostCallEnd port s
  | .proofingWindow bank meas bm => Sys2Proof.Machine.execProofingWindow bank meas bm s
  | .proofingQuiet bank => Sys2Proof.Machine.execProofingQuiet bank s
  | .fastExpiry leg => Sys2Proof.Machine.execFastExpiry leg s
  | .doubleTalkExpiry leg => Sys2Proof.Machine.execDoubleTalkExpiry leg s
  | .vadBlockClose leg => Sys2Proof.Machine.execVadBlockClose leg s
  | .humSearch port found => Sys2Proof.Machine.execHumSearch port found s
  | .humStateTimer port ev => Sys2Proof.Machine.execHumStateTimer port ev s
  | .dapInputQualified port hz cls => Sys2Proof.Machine.execDapInputQualified port hz cls s
  | .dapInputLoss port why => Sys2Proof.Machine.execDapInputLoss port why s
  | .dapResume port => Sys2Proof.Machine.execDapResume port s
  | .slip port kind => Sys2Proof.Machine.execSlip port kind s
  | .channelStatusBlock port block crccOk => Sys2Proof.Machine.execChannelStatusBlock port block crccOk s
  | .zeroCrossingSwitch port ch out => Sys2Proof.Machine.execZeroCrossingSwitch port ch out s
  | .zcTimeout port ch out => Sys2Proof.Machine.execZcTimeout port ch out s
  | .negotiationResolved port rate fec partner => Sys2Proof.Machine.execNegotiationResolved port rate fec partner s
  | .trainingComplete port => Sys2Proof.Machine.execTrainingComplete port s
  | .linkTimeout port => Sys2Proof.Machine.execLinkTimeout port s
  | .linkLoss port => Sys2Proof.Machine.execLinkLoss port s
  | .linkdownDropTimeout port => Sys2Proof.Machine.execLinkdownDropTimeout port s
  | .frameReceived port f => Sys2Proof.Machine.execFrameReceived port f s
  | .pauseExpiry port => Sys2Proof.Machine.execPauseExpiry port s
  | .txFrameStart port => Sys2Proof.Machine.execTxFrameStart port s
  | .txFrameComplete port => Sys2Proof.Machine.execTxFrameComplete port s
  | .mediaPacketLaunch us => Sys2Proof.Machine.execMediaPacketLaunch us s
  | .ringIrqDelayExpiry port ring => Sys2Proof.Machine.execRingIrqDelayExpiry port ring s
  | .snapshotComplete => Sys2Proof.Machine.execSnapshotComplete s
  | .streamLostTimeout stream => Sys2Proof.Machine.execStreamLostTimeout stream s
  | .membershipReportTimer => Sys2Proof.Machine.execMembershipReportTimer s
  | .imdalLinkUp side peer => Sys2Proof.Machine.execImdalLinkUp side peer s
  | .imdalLinkDown side => Sys2Proof.Machine.execImdalLinkDown side s
  | .seamReturn => Sys2Proof.Machine.execSeamReturn s
  | .timeWordReceived side w => Sys2Proof.Machine.execTimeWordReceived side w s
  | .ringTimeLoss => Sys2Proof.Machine.execRingTimeLoss s
  | .cutOff cause => Sys2Proof.Machine.execCutOff cause s
  | .membershipRequest => Sys2Proof.Machine.execMembershipRequest s
  | .membershipRequestReceived from_ members h => Sys2Proof.Machine.execMembershipRequestReceived from_ members h s
  | .segmentMerge devices h clash => Sys2Proof.Machine.execSegmentMerge devices h clash s
  | .forwardReceived from_ f => Sys2Proof.Machine.execForwardReceived from_ f s
  | .forwardComplete answer => Sys2Proof.Machine.execForwardComplete answer s
  | .scrubRead pantry stack ecc raced => Sys2Proof.Machine.execScrubRead pantry stack ecc raced s
  | .hallPassGrant master a => Sys2Proof.Machine.execHallPassGrant master a s
  | .hallPassBreak master => Sys2Proof.Machine.execHallPassBreak master s
  | .matrixTimeout master a => Sys2Proof.Machine.execMatrixTimeout master a s
  | .domainWake dom => Sys2Proof.Machine.execDomainWake dom s
  | .powerupStepReady dom => Sys2Proof.Machine.execPowerupStepReady dom s
  | .powerupFailure dom => Sys2Proof.Machine.execPowerupFailure dom s
  | .domainEntryComplete dom => Sys2Proof.Machine.execDomainEntryComplete dom s
  | .powerOnReset straps => Sys2Proof.Machine.execPowerOnReset straps s
  | .resetAssert => Sys2Proof.Machine.execResetAssert s
  | .aonReady => Sys2Proof.Machine.execAonReady s
  | .imageReadComplete => Sys2Proof.Machine.execImageReadComplete s
  | .imageAuthentication img => Sys2Proof.Machine.execImageAuthentication img s
  | .runBoundary => Sys2Proof.Machine.execRunBoundary s
  | .watchdogExpiry => Sys2Proof.Machine.execWatchdogExpiry s
  | .mgmtRestart => Sys2Proof.Machine.execMgmtRestart s
  | .hotswapRequest => Sys2Proof.Machine.execHotswapRequest s
  | .removalReady => Sys2Proof.Machine.execRemovalReady s
  | .removalRecord => Sys2Proof.Machine.execRemovalRecord s
  | .hotswapRelease => Sys2Proof.Machine.execHotswapRelease s
  | .rollCallComplete => Sys2Proof.Machine.execRollCallComplete s
  | .thermalThreshold tj => Sys2Proof.Machine.execThermalThreshold tj s
  | .lfeSupplyLow die => Sys2Proof.Machine.execLfeSupplyLow die s
  | .plantAbsent die => Sys2Proof.Machine.execPlantAbsent die s
  | .coreSupplyLow => Sys2Proof.Machine.execCoreSupplyLow s
  | .plantReturn die => Sys2Proof.Machine.execPlantReturn die s
  | .lfeSupplyRestored die => Sys2Proof.Machine.execLfeSupplyRestored die s
  | .leakageChange bank leak => Sys2Proof.Machine.execLeakageChange bank leak s
  | .wclkInEdge errNs => Sys2Proof.Machine.execWclkInEdge errNs s
  | .ptpMessageTimer port msg => Sys2Proof.Machine.execPtpMessageTimer port msg s
  | .removalDeadline => Sys2Proof.Machine.execRemovalDeadline s

end Sys2Proof.Machine
end

