-- ==== Sys2Proof/Machine/Step.lean ====
section
/-! DEFINITION. The step: the command at the front of the queue, or one AON tick where nothing waits. -/

namespace Sys2Proof.Machine

/-- One step. On an empty queue the block idles for one AON tick of R71 (log 1): the timebase moves, and stands still one
tick before a Period boundary, which the row PERIOD_BOUNDARY takes. -/
def step (s : State) : Host.Outcome State Fault Refusal :=
  match s.pending with
  | [] => .next s.idle
  | c :: rest => exec c { s with pending := rest }

/-- The state with the command that a word spells in front of its queue; the state as it is where it spells none. -/
def State.withFetchWord (s : State) (nbits w : Nat) : State :=
  match decodeTableWord nbits w with
  | some c => { s with pending := c :: s.pending }
  | none => s

end Sys2Proof.Machine
end

