-- ==== Sys2Proof/Safety.lean ====
section
/-! DEFINITION. What counts as a safe step, in the terms that statements use: completion, what a command leaves as it was,
and the facts that hold of every state a run reaches. -/

namespace Sys2Proof

/-- The outcome is a next state: neither a fault nor a refusal. -/
def Completes (o : Host.Outcome Machine.State Machine.Fault Machine.Refusal) : Prop := ∃ t, o = .next t

/-- A command completes in a state and its next state has a property. -/
def CompletesWith (c : Instr) (s : Machine.State) (P : Machine.State → Prop) : Prop :=
  ∃ t, Machine.exec c s = .next t ∧ P t

end Sys2Proof

namespace Sys2Proof.Machine

/-! ### Frames -/

/-- The parts of the state, one for each field of State; the copies that the status tables show count as one part. -/
inductive Part where
  | time | hbi | cmd | mix | echo | vad | hum | line | dap | net | media | imdal | tiles | mem | power | boot | trace | shelf
  | draw | shown | pending
  deriving DecidableEq, Repr

/-- A part is the same after as before. -/
def Part.same : Part → State → State → Prop
  | .time, s, t => t.time = s.time
  | .hbi, s, t => t.hbi = s.hbi
  | .cmd, s, t => t.cmd = s.cmd
  | .mix, s, t => t.mix = s.mix
  | .echo, s, t => t.echo = s.echo
  | .vad, s, t => t.vad = s.vad
  | .hum, s, t => t.hum = s.hum
  | .line, s, t => t.line = s.line
  | .dap, s, t => t.dap = s.dap
  | .net, s, t => t.net = s.net
  | .media, s, t => t.media = s.media
  | .imdal, s, t => t.imdal = s.imdal
  | .tiles, s, t => t.tiles = s.tiles
  | .mem, s, t => t.mem = s.mem
  | .power, s, t => t.power = s.power
  | .boot, s, t => t.boot = s.boot
  | .trace, s, t => t.trace = s.trace
  | .shelf, s, t => t.shelf = s.shelf
  | .draw, s, t => t.draw = s.draw
  | .shown, s, t =>
    t.shownPidx = s.shownPidx ∧ t.shownOrd = s.shownOrd ∧ t.shownLine = s.shownLine ∧ t.shownDap = s.shownDap ∧ t.shownImdal = s.shownImdal ∧
      t.shown16Pidx = s.shown16Pidx ∧ t.shownEcho = s.shownEcho ∧ t.shownVad = s.shownVad ∧ t.shownHum = s.shownHum ∧
      t.shownMedia = s.shownMedia ∧ t.shownTiles = s.shownTiles ∧ t.shownMasters = s.shownMasters ∧
      t.shownPower = s.shownPower ∧ t.shownMix = s.shownMix ∧ t.shown16On = s.shown16On ∧
      t.shown16Untr = s.shown16Untr ∧ t.shownOk = s.shownOk
  | .pending, s, t => t.pending = s.pending

/-- Every part that is not listed is the same after as before: all registers, queues, tables and every byte of memory in
those parts. -/
def SameOutside (ps : List Part) (s t : State) : Prop := ∀ p, p ∉ ps → p.same s t

/-- A command completes: its next state differs from the one before in the listed parts alone, and has a property. -/
def Does (c : Instr) (s : State) (ps : List Part) (P : State → Prop) : Prop :=
  ∃ t, exec c s = .next t ∧ SameOutside ps s t ∧ P t

/-- The host bus part after a whole access, which ends a pair of halves (R41), apart from what the access itself does. -/
def Hbi.whole (h : Hbi) : Hbi := { h with latch := none, held := none }

/-! ### What statements about several rows share -/

/-- Bits of IRQ_STAT may become set, counters count and records wait for the trace port; nothing else of these two parts changes. -/
def Reports (s t : State) : Prop :=
  t.hbi = { s.hbi with irqStat := t.hbi.irqStat } ∧ (∀ i, s.hbi.irqStat.getLsbD i = true → t.hbi.irqStat.getLsbD i = true) ∧
    t.trace = { s.trace with seq := t.trace.seq, gap := t.trace.gap, fifo := t.trace.fifo, ctr := t.trace.ctr }

/-- A command completes with a property: beside the listed parts only its reports are new, and the draw of the free values that time
stamps hold. -/
def DoesR (c : Instr) (s : State) (ps : List Part) (P : State → Prop) : Prop :=
  Does c s (.hbi :: .trace :: .draw :: ps) fun t => Reports s t ∧ P t

/-- The line part but for one port with its watch and its soundings, the watch log and the mark that a port was powered; the port's settings
change only where a PORT_SET was recorded in HOLD (R174). -/
def State.PortOnly (p : Nat) (s t : State) : Prop :=
  (∀ q, q ≠ p → t.port q = s.port q ∧ t.watch q = s.watch q ∧ t.sounding q = s.sounding q ∧ t.portCfg q = s.portCfg q) ∧
    ((s.port p).later = none → t.line.cfg = s.line.cfg) ∧
    t.line = { s.line with
      cfg := t.line.cfg
      port := t.line.port
      watch := t.line.watch
      sound := t.line.sound
      log := t.line.log
      logSeq := t.line.logSeq
      powered := t.line.powered }

/-- Every tile but one is as before. -/
def State.TileOnly (k : Nat) (s t : State) : Prop := ∀ j, j ≠ k → t.tile j = s.tile j

/-- Every digital audio port but one is as before. -/
def State.DapOnly (p : Nat) (s t : State) : Prop := ∀ q, q ≠ p → t.dapP q = s.dapP q

/-- Every network port but one is as before. -/
def State.NetOnly (p : Nat) (s t : State) : Prop := ∀ q, q ≠ p → t.netP q = s.netP q

/-- Every stream but one is as before. -/
def State.StrmOnly (tx : Bool) (n : Nat) (s t : State) : Prop := ∀ d m, (d ≠ tx ∨ m ≠ n) → t.strm d m = s.strm d m

/-- Every power domain but one is as before. -/
def State.DomOnly (d : Nat) (s t : State) : Prop := ∀ q, q ≠ d → t.dom q = s.dom q

/-! ### Commands of the device's own host -/

/-- A ring command's entry holds no word in error (R376). -/
abbrev State.cleanEntry (s : State) (src : CmdSrc) : Prop := src = .ring → badWords s.mem.badSram (s.ringAddr s.cmd.head.toNat) 32 = []

/-- Nothing that R53 places before a command's own checks stops the command in front at a source: the firmware runs and no removal does,
MGMT and PANTRY are ON, fewer than 64 configuration commands were accepted in this Period, the epoch asked for holds. No loss of a Wing's
nine tiles would lower the member, and no word of a ring command's entry is in error. -/
def State.Offers (s : State) (src : CmdSrc) (c : CmdWords) : Prop :=
  s.front src = some c ∧ s.boot.boot = 4 ∧ s.boot.removal ≠ 7 ∧ s.domOn dMgmt = true ∧ s.domOn dPantry = true ∧
    s.cmd.accepted < 64 ∧ (c.chk = true → c.epoch = s.cmd.epoch ∧ (src = .ring → s.cmd.ehalt = false)) ∧ s.wingsNext ≤ s.lowMember ∧
    s.cleanEntry src

/-- The state that a command's own checks read: the command has left its source. -/
def State.checking (s : State) (src : CmdSrc) (c : CmdWords) : State :=
  (s.takeEntry src c).onCmd fun m => { m with
    waiting := none
    mbox := match src with | .mailbox => none | .ring => m.mbox
    status := match src with | .mailbox => 0 | .ring => m.status }

/-- The command path once a command has completed at its source (R61, R64, R65). -/
def CmdPath.answered (m : CmdPath) (src : CmdSrc) (c : CmdWords) (st : Nat) (r0 r1 : Word) : CmdPath :=
  let last := some (Done.mk c.seq (BitVec.ofNat 8 st))
  match src with
  | .mailbox => { m with mbox := none, busy := false, status := BitVec.ofNat 4 st, res0 := r0, res1 := r1, lastMbox := last }
  | .ring => { m with head := m.head + 1, taken := none, takenBase := m.base, ehalt := m.ehalt || st == stEpoch, lastRing := last }

/-- Memory once a command has completed: a ring command's Completion entry is written, which ends the error of each word that it writes
(R65, R375). -/
def State.answeredMem (s : State) (m : Memory) (src : CmdSrc) (c : CmdWords) (st : Nat) (epoch r0 r1 : Word) : Memory :=
  match src with
  | .mailbox => m
  | .ring =>
    let a := ringBase s.cmd.base + 0x2000 + 16 * (s.cmd.head.toNat % 256)
    m.putSram a (completionBytes c st (phaseOf s.cmd.head) epoch r0 r1)

/-- The interrupt of a completion is set (R61, R65). -/
def answerIrq (src : CmdSrc) (c : CmdWords) (st : Nat) (before after : BitVec 16) : Prop :=
  bit (after.setWidth 32) (match src with | .mailbox => irqCmdDone | .ring => irqCring) =
    (bit (before.setWidth 32) (match src with | .mailbox => irqCmdDone | .ring => irqCring) ||
      match src with | .mailbox => true | .ring => c.notify || decide (st ≠ stOk))

/-- A command completes at its source with a status and results; apart from that its effect on the command path is k, on memory m. -/
def Answers (row : Instr) (s : State) (src : CmdSrc) (c : CmdWords) (st : Nat) (r0 r1 : Word) (k : CmdPath → CmdPath) (m : Memory)
    (ps : List Part) (P : State → Prop) : Prop :=
  DoesR row s (.cmd :: .mem :: ps) fun t =>
    t.cmd = (k s.cmd).answered src c st r0 r1 ∧ t.mem = s.answeredMem m src c st t.cmd.epoch r0 r1 ∧
      answerIrq src c st s.hbi.irqStat t.hbi.irqStat ∧
      P t

/-- The changes of one command, staged for a boundary count. -/
def stage (src : CmdSrc) (c : CmdWords) (ord : Nat) (cs : List Change) : List Staged :=
  cs.map fun k => { ord := ord, change := k, src := srcOf src, cmd := c }

/-- Acceptance of a configuration command (R55, R57): CFG_EPOCH steps, the changes are staged. -/
def CmdPath.accepts (src : CmdSrc) (c : CmdWords) (ord : Nat) (cs : List Change) (m : CmdPath) : CmdPath :=
  { m with epoch := epochNext m.epoch, accepted := m.accepted + 1, staged := m.staged ++ stage src c ord cs }

/-- The reject log and its count after one more rejected command (R54). -/
def CmdPath.rejected (src : CmdSrc) (c : CmdWords) (st : Nat) (pidx : Word) (m : CmdPath) : CmdPath :=
  { m with
    rejects := (Reject.mk c (BitVec.ofNat 8 st) (BitVec.ofNat 8 (sourceCode (srcOf src))) m.epoch pidx :: m.rejects).take 64
    rejectCount := m.rejectCount + 1 }

/-- A configuration command is accepted and completes OK with the PIDX of its boundary and a second result word. -/
def AcceptsWith (r1 : Word) (row : Instr) (s : State) (src : CmdSrc) (c : CmdWords) (ord : Nat) (cs : List Change) (ps : List Part)
    (P : State → Prop) : Prop :=
  Answers row s src c stOk (s.pidxAt ord) r1 (CmdPath.accepts src c ord cs) s.mem ps P

/-- A configuration command whose rule returns zero in the second result word is accepted. -/
def Accepts (row : Instr) (s : State) (src : CmdSrc) (c : CmdWords) (ord : Nat) (cs : List Change) (ps : List Part)
    (P : State → Prop) : Prop :=
  AcceptsWith 0 row s src c ord cs ps P

/-- A configuration command is accepted whose rule states no second result word, which is free (log 12). -/
def AcceptsFree (row : Instr) (s : State) (src : CmdSrc) (c : CmdWords) (ord : Nat) (cs : List Change) (ps : List Part)
    (P : State → Prop) : Prop :=
  AcceptsWith (s.unstated 1) row s src c ord cs ps P

/-- A command is rejected: its result words, for which no rule states a value, are free (log 12), it enters the reject log (R54), and on
the command path it has the effect k and no other. -/
def Rejects (row : Instr) (s : State) (src : CmdSrc) (c : CmdWords) (st : Nat) (k : CmdPath → CmdPath) : Prop :=
  Answers row s src c st (s.unstated 0) (s.unstated 1) (fun m => CmdPath.rejected src c st s.pidx (k m)) s.mem [] fun _ => True

/-- The argument words of a command from a given one onward are zero. -/
def zeroFrom (c : CmdWords) (n : Nat) : Prop :=
  (n ≤ 0 → c.a0 = 0) ∧ (n ≤ 1 → c.a1 = 0) ∧ (n ≤ 2 → c.a2 = 0) ∧ (n ≤ 3 → c.a3 = 0) ∧ (n ≤ 4 → c.a4 = 0) ∧ (n ≤ 5 → c.a5 = 0)

/-- The row of a defined opcode (R51). -/
def rowOf (op : Nat) (src : CmdSrc) : Instr :=
  match op with
  | 0x00 => .nop src
  | 0x10 => .legSet src
  | 0x11 => .legGet src
  | 0x12 => .legPause src
  | 0x18 => .grpSet src
  | 0x19 => .grpGet src
  | 0x1A => .keySet src
  | 0x20 => .portSet src
  | 0x21 => .portPower src
  | 0x22 => .portSound src
  | 0x23 => .callSend src
  | 0x24 => .cardBudget src
  | 0x30 => .dapSet src
  | 0x31 => .dapStart src
  | 0x40 => .streamSet src
  | 0x41 => .streamPause src
  | 0x42 => .shaperSet src
  | 0x43 => .policerSet src
  | 0x44 => .ringSet src
  | 0x50 => .imdalJoin src
  | 0x60 => .timetableGet src
  | 0x70 => .pwrSet src
  | 0x78 => .rollCall src
  | 0x79 => .snapshot src
  | _ => .undefinedOpcode src

/-! ### Facts of every reachable state -/

/-- A rate within the range of TIME_INCR (R72). -/
def rateOk (w : Word) : Prop := incrMin ≤ w.toNat ∧ w.toNat ≤ incrMax

/-- A sum of TIME_INCR over n ticks, each within the range of R72. -/
def rateSumOk (n m : Nat) : Prop := n * incrMin ≤ m ∧ m ≤ n * incrMax

/-- The timebase: nanoseconds below one second (R71), every rate within its range (R72), HO_RATE's mean over sums of such rates (R84). -/
def Time.Ok (t : Time) : Prop :=
  t.ns < 1000000000 ∧ rateOk t.incr ∧ rateOk t.hoRate ∧ rateOk t.slewBase ∧ rateSumOk t.ticks t.incrSum ∧
    (∀ x ∈ t.hoHist, rateSumOk x.1 x.2) ∧ t.hoHist.length ≤ 1024

/-- Every entry of a log of n slots has a slot of its own, so that it holds at most n of them. -/
def slotsOk {α : Type} (seq : α → Word) (n : Nat) (l : List α) : Prop := (l.map fun x => logSlot n (seq x)).Nodup

/-- The reject log holds at most 64 entries (R54). -/
def CmdPath.Ok (c : CmdPath) : Prop := c.rejects.length ≤ 64

/-- Both byte memories are canonical, and every entry of the memory error log stands in a slot of its own (R383). -/
def Memory.Ok (m : Memory) : Prop :=
  Memory.wf m.sram = true ∧ Memory.wf m.pantry = true ∧ slotsOk (·.seq) 64 m.log

/-- Every entry of the watch log stands in a slot of its own (R222). -/
def Line.Ok (l : Line) : Prop := slotsOk (·.seq) 256 l.log

/-- Every entry of the Substitution log stands in a slot of its own (R367). -/
def Tiles.Ok (t : Tiles) : Prop := slotsOk (·.seq) 64 t.log

/-- At most 256 trace records wait (R434). -/
def Trace.Ok (t : Trace) : Prop := t.fifo.length ≤ 256

/-- What every step keeps: the slots of the logs, the bounds of the queues, the range of the rates, the canonical form of the memories. -/
def State.Ok (s : State) : Prop :=
  s.time.Ok ∧ s.cmd.Ok ∧ s.mem.Ok ∧ s.line.Ok ∧ s.tiles.Ok ∧ s.trace.Ok

end Sys2Proof.Machine
end

