-- ==== Sys2Proof/Certificates/Slice0/Obligations.lean ====
section
/-! DEFINITION. The statements about the model, each a proposition to be proved; most come from the spec's numbered rules. -/

open Sys2Proof Sys2Proof.Machine

/-! ### The step -/

/-- A step takes the command at the front of the queue and is that command's effect on the state with the queue's rest. -/
def Obligations.StepRunsFront : Prop :=
  ∀ (s : State) (c : Instr) (rest : List Instr), s.pending = c :: rest → step s = exec c { s with pending := rest }

/-- THE MODEL'S CHOICE (log 1): on an empty queue the block idles for one AON tick, and stands still where that tick would reach the
next Period boundary and while PORST_N is low. -/
def Obligations.StepIdles : Prop :=
  ∀ s : State, s.pending = [] →
    (s.boot.held = false → s.time.inPeriod * 2 ^ 24 + s.time.frac.toNat + s.time.incr.toNat < 500000 * 2 ^ 24 →
      ∃ t, step s = .next t ∧ t.time = Time.ticksOn 1 s.time ∧ SameOutside [.time, .mem, .trace] s t) ∧
    ((s.boot.held = true ∨ 500000 * 2 ^ 24 ≤ s.time.inPeriod * 2 ^ 24 + s.time.frac.toNat + s.time.incr.toNat) →
      step s = .next s)

/-- Every command completes, in every state, and leaves the queue as it was. -/
def Obligations.EveryCommandCompletes : Prop :=
  ∀ (c : Instr) (s : State), ∃ t, exec c s = .next t ∧ t.pending = s.pending

/-- What every step keeps: the slots of the logs and the bounds of the queues (R54, R222, R367, R383, R434), every rate within the range of TIME_INCR
(R72), nanoseconds below one second (R71), both byte memories canonical. -/
def Obligations.StepKeepsOk : Prop := ∀ s t : State, s.Ok → step s = .next t → t.Ok

/-- The state after reset has what every step keeps. -/
def Obligations.ResetOk : Prop := State.reset.Ok

/-- Registers and status that the spec gives a reset value, as the host reads them. -/
def Obligations.ResetRegisters : Prop :=
  let s := State.reset
  s.regValue regIrqEn = 0 ∧ s.regValue regHbiErr = 0 ∧ s.regValue regWinStat = 0 ∧ s.regValue regCringTail = 0 ∧
    s.regValue regCplHead = 0 ∧ s.regValue regCringHead = 0 ∧ s.regValue regCringBase = 0 ∧ s.regValue regCfgEpoch = 0 ∧
    s.regValue regTimeIncr = 0x28000000#32 ∧ s.regValue regTimeLatch = 0 ∧ s.regValue regLtol = 0x14000000#32 ∧
    s.regValue regPwrVote = 0x003FFFFF#32 ∧ s.regValue regTraceCfg = 0x00000008#32 ∧ s.power.shelf = 1 ∧
    s.time.sec = 0 ∧ s.time.ns = 0 ∧ s.time.frac = 0

/-! ### Host bus registers (chapters 02, 17) -/

/-- Registers read and cleared: a read of a register of the map returns its value, and clears its RC fields and nothing else. -/
def Obligations.RegisterRead : Prop :=
  ∀ (s : State) (reg : BitVec 8), s.hbi.ready = true → reg.toNat < regCount → reg.toNat ≠ regWinData →
    reg.toNat ≠ regWinDataInc →
    Does (.regReadClear reg) s [.time, .hbi, .tiles, .mem, .power, .boot] fun t =>
      t.hbi = { s.hbi.whole with
        rdata := s.regValue reg.toNat
        errCount := if reg.toNat = regHbiErr then 0 else s.hbi.errCount
        wdrop := if reg.toNat = regWinStat then 0 else s.hbi.wdrop } ∧
      t.time = { s.time with jumps := if reg.toNat = regTimeStat then 0 else s.time.jumps } ∧
      t.tiles = { s.tiles with
        substs := if reg.toNat = regSubstLog then 0 else s.tiles.substs
        lost := if reg.toNat = regSubstLog then 0 else s.tiles.lost } ∧
      t.mem = { s.mem with
        corr := if reg.toNat = regEccCorr then 0 else s.mem.corr
        uncorr := if reg.toNat = regEccUncorr then 0 else s.mem.uncorr } ∧
      t.power = { s.power with wakes := if reg.toNat = regWakeSrc then 0 else s.power.wakes } ∧
      t.boot = { s.boot with restarts := if reg.toNat = regGstat then 0 else s.boot.restarts }

/-- Writes of registers: SCRATCH, IRQ_EN and WIN_ADDR take the enabled bytes; ones written to IRQ_STAT, HBI_ERR and WIN_STAT clear
their bits; read-only registers ignore the write. -/
def Obligations.RegisterWrite : Prop :=
  ∀ (s : State) (w : RegWrite), s.hbi.ready = true →
    Does (.regWrite 15 w) s [.hbi] (fun t => t.hbi = { s.hbi.whole with scratch := w.over s.hbi.scratch }) ∧
    Does (.regWrite 7 w) s [.hbi] (fun t =>
      t.hbi = { s.hbi.whole with irqEn := (w.over (s.hbi.irqEn.setWidth 32)).setWidth 16 }) ∧
    Does (.regWrite 16 w) s [.hbi] (fun t => t.hbi = { s.hbi.whole with winAddr := w.over s.hbi.winAddr }) ∧
    Does (.regWrite 6 w) s [.hbi] (fun t => t.hbi = { s.hbi.whole with irqStat := s.hbi.irqStat &&& ~~~(w.ones.setWidth 16) }) ∧
    Does (.regWrite 14 w) s [.hbi] (fun t => t.hbi = { s.hbi.whole with err := s.hbi.err &&& ~~~(w.ones.setWidth 6) }) ∧
    Does (.regWrite 19 w) s [.hbi] (fun t => t.hbi = { s.hbi.whole with winErr := s.hbi.winErr &&& ~~~(w.ones.setWidth 5) }) ∧
    ∀ reg : BitVec 8, reg.toNat ∈ [0, 1, 2, 3, 5, 8, 12, 13, 29, 30, 31, 37, 38, 39, 40, 44, 46, 49, 50] →
      Does (.regWrite reg w) s [.hbi] fun t => t.hbi = s.hbi.whole

/-- Accesses beyond the map read zero or are ignored and set HBI_ERR.UNMAPPED; a write with a byte not enabled to CMD_OP, CRING_TAIL or CPL_HEAD is
ignored and sets HBI_ERR.PARTIAL. -/
def Obligations.FaultyAccesses : Prop :=
  (regCount = 53 ∧ ∀ (s : State) (d : Dir) (reg : BitVec 8), s.hbi.ready = true → regCount ≤ reg.toNat →
      Does (.unmappedAccess d reg) s [.hbi] fun t =>
        t.hbi = { s.hbi.whole with
          err := s.hbi.err ||| 1
          errCount := satAdd s.hbi.errCount 1
          rdata := match d with | .read => 0 | .write => s.hbi.rdata }) ∧
  (∀ (s : State) (w : RegWrite) (c : Instr), s.hbi.ready = true → w.be ≠ 0xF#4 →
      (c = .cringTailWrite w ∨ c = .cplHeadWrite w ∨ c = .regWrite 20 w) →
      Does c s [.hbi] fun t => t.hbi = { s.hbi.whole with err := s.hbi.err ||| 2, errCount := satAdd s.hbi.errCount 1 })

/-- Ring pointers: a TAIL that places at most 256 entries beyond HEAD, and a CPL_HEAD no further than the last completion, are taken;
other values are ignored and set HBI_ERR.RING_PTR. -/
def Obligations.RingPointers : Prop :=
  ∀ (s : State) (w : RegWrite), s.hbi.ready = true → w.be = 0xF#4 →
    ((w.val.setWidth 9 - s.cmd.head).toNat ≤ 256 →
      Does (.cringTailWrite w) s [.hbi, .cmd, .power, .trace] fun t => t.cmd = { s.cmd with tail := w.val.setWidth 9 }) ∧
    (256 < (w.val.setWidth 9 - s.cmd.head).toNat →
      Does (.cringTailWrite w) s [.hbi] fun t =>
        t.hbi = { s.hbi.whole with err := s.hbi.err ||| 8, errCount := satAdd s.hbi.errCount 1 }) ∧
    ((w.val.setWidth 9 - s.cmd.cplHead).toNat ≤ (s.cmd.head - s.cmd.cplHead).toNat →
      Does (.cplHeadWrite w) s [.hbi, .cmd] fun t => t.cmd = { s.cmd with cplHead := w.val.setWidth 9 } ∧ t.hbi = s.hbi.whole) ∧
    ((s.cmd.head - s.cmd.cplHead).toNat < (w.val.setWidth 9 - s.cmd.cplHead).toNat →
      Does (.cplHeadWrite w) s [.hbi] fun t =>
        t.hbi = { s.hbi.whole with err := s.hbi.err ||| 8, errCount := satAdd s.hbi.errCount 1 })

/-- Enabling the rings zeroes the Completion Ring and no other byte, the pointers and EHALT. Disabling clears EN, BASE takes the written bytes, the
pointers hold; before the first RUN boundary the write is ignored and sets HBI_ERR.RING_CFG. Clearing EHALT changes nothing else of the ring. -/
def Obligations.RingEnableDisable : Prop :=
  (∀ (s : State) (w : RegWrite), s.hbi.ready = true → s.boot.boot = 4 → s.cmd.en = false → s.cmd.taken = none →
      bit (w.over s.cringBase) 31 = true → 0x30 ≤ fld (w.over s.cringBase) 14 6 →
      Does (.ringEnable w) s [.hbi, .cmd, .mem] fun t =>
        t.hbi = s.hbi.whole ∧
        t.cmd = { s.cmd with
          base := BitVec.ofNat 6 (fld (w.over s.cringBase) 14 6), en := true, head := 0, tail := 0, cplHead := 0, ehalt := false } ∧
        t.mem = { s.mem with
          sram := t.mem.sram, badSram := healed (fld (w.over s.cringBase) 14 6 * 16384 + 0x2000) 4096 s.mem.badSram } ∧
        ∀ a, Memory.readByte t.mem.sram a =
          if fld (w.over s.cringBase) 14 6 * 16384 + 0x2000 ≤ a ∧ a < fld (w.over s.cringBase) 14 6 * 16384 + 0x3000 then 0
          else Memory.readByte s.mem.sram a) ∧
  (∀ (s : State) (w : RegWrite), s.hbi.ready = true →
      (s.boot.boot = 4 → bit (w.over s.cringBase) 31 = false →
        Does (.ringDisable w) s [.hbi, .cmd] fun t =>
          t.hbi = s.hbi.whole ∧ t.cmd = { s.cmd with base := BitVec.ofNat 6 (fld (w.over s.cringBase) 14 6), en := false }) ∧
      (s.boot.boot ≠ 4 →
        Does (.ringDisable w) s [.hbi] fun t =>
          t.hbi = { s.hbi.whole with err := s.hbi.err ||| 16, errCount := satAdd s.hbi.errCount 1 }) ∧
      Does (.ehaltClear w) s [.hbi, .cmd] fun t =>
        t.hbi = s.hbi.whole ∧ t.cmd = { s.cmd with ehalt := s.cmd.ehalt && !bit w.ones 31 })

/-- The window on the host area of MGMT SRAM: a read returns the word as written, a write changes its word and no other byte of either memory; a write to
AONREG is dropped, counted and sets DENIED. WIN_DATA_INC adds one to WIN_ADDR. -/
def Obligations.WindowAccess : Prop :=
  (∀ (s : State) (inc : Bool), s.hbi.ready = true → s.domOn dHub = true → s.domOn dMgmt = true →
      targetOf s.hbi.winAddr = 1 → 0x30000 ≤ offsetOf s.hbi.winAddr → offsetOf s.hbi.winAddr < 0x40000 →
      s.mem.badSram.contains (offsetOf s.hbi.winAddr) = false →
      Does (.winDataRead inc cleanBus) s [.hbi, .mem, .draw] fun t =>
        t.hbi = { s.hbi.whole with
          rdata := Memory.readWord s.mem.sram (4 * offsetOf s.hbi.winAddr)
          lastTgt := 1
          winAddr := if inc then s.hbi.winAddr + 1 else s.hbi.winAddr } ∧
        t.mem = { s.mem with masters := t.mem.masters }) ∧
  (∀ (s : State) (inc : Bool) (w : RegWrite), s.hbi.ready = true → s.domOn dHub = true → s.domOn dMgmt = true →
      (targetOf s.hbi.winAddr = 1 → 0x30000 ≤ offsetOf s.hbi.winAddr → offsetOf s.hbi.winAddr < 0x40000 → w.be = 0xF#4 →
        Does (.winDataWrite inc w cleanBus) s [.hbi, .mem] fun t =>
          t.hbi = { s.hbi.whole with lastTgt := 1, winAddr := if inc then s.hbi.winAddr + 1 else s.hbi.winAddr } ∧
          t.mem.pantry = s.mem.pantry ∧
          Memory.readWord t.mem.sram (4 * offsetOf s.hbi.winAddr) = w.val ∧
          ∀ a, (a < 4 * offsetOf s.hbi.winAddr ∨ 4 * offsetOf s.hbi.winAddr + 4 ≤ a) →
            Memory.readByte t.mem.sram a = Memory.readByte s.mem.sram a) ∧
      (targetOf s.hbi.winAddr = 0 → s.populated 0 (offsetOf s.hbi.winAddr) = true →
        Does (.winDataWrite inc w cleanBus) s [.hbi] fun t =>
          t.hbi = { s.hbi.whole with
            lastTgt := 0
            winErr := s.hbi.winErr ||| 2
            wdrop := satAdd s.hbi.wdrop 1
            winAddr := if inc then s.hbi.winAddr + 1 else s.hbi.winAddr }))

/-- Halves in 16-bit mode: every access completes. A low read is the whole read and latches the upper half, which the high read of the same
register then returns; a low write is held, and the high write of the same register then commits the whole word as one access. A high half
alone sets HBI_ERR.W16_ORDER: a read returns bits 31 to 16 and clears nothing, a write changes bytes 2 and 3. Outside 16-bit mode and before
the bus is ready nothing happens. -/
def Obligations.Halfwords : Prop :=
  ∀ (s : State) (reg : BitVec 7) (data : BitVec 16) (be : BitVec 2),
    (s.hbi.ready = true → s.hbi.w16 = true →
      (∃ u, exec (.regReadClear (reg.setWidth 8)) s = .next u ∧
        exec (.halfwordLowAccess .read reg data be cleanBus) s = .next { u with
          hbi := { u.hbi with latch := some (reg, u.hbi.rdata.extractLsb' 16 16), held := none, rdata := u.hbi.rdata &&& 0xFFFF#32 } }) ∧
      (reg.toNat < regCount → reg.toNat ≠ regWinData → reg.toNat ≠ regWinDataInc →
        Does (.halfwordLowAccess .read reg data be cleanBus) s [.time, .hbi, .tiles, .mem, .power, .boot] fun t =>
          t.hbi.rdata = s.regValue reg.toNat &&& 0xFFFF#32 ∧
            t.hbi.latch = some (reg, (s.regValue reg.toNat).extractLsb' 16 16) ∧ t.hbi.held = none) ∧
      (∀ env, exec (.halfwordLowAccess .write reg data be env) s =
        .next { s with hbi := { s.hbi with held := some (reg, data, be), latch := none } }) ∧
      (∀ v env, s.hbi.latch = some (reg, v) →
        exec (.halfwordHighAccess .read reg data be env) s = .next { s with hbi := { s.hbi.whole with rdata := v.setWidth 32 } }) ∧
      (∀ lo b, s.hbi.held = some (reg, lo, b) →
        ∃ u, exec (.halfwordHighAccess .write reg data be cleanBus) s = .next u ∧
          exec (.regWrite (reg.setWidth 8) { val := data ++ lo, be := be ++ b }) s = .next u ∧
          (reg = 15 → SameOutside [.hbi] s u ∧ u.hbi = { s.hbi.whole with scratch := mergeBe s.hbi.scratch (data ++ lo) (be ++ b) })) ∧
      ((∀ v, s.hbi.latch ≠ some (reg, v)) → reg.toNat < regCount →
        ∀ env, exec (.halfwordHighAccess .read reg data be env) s = .next { s with
          hbi := { s.hbi.whole with
            err := s.hbi.err ||| 32, errCount := satAdd s.hbi.errCount 1, rdata := s.regValue reg.toNat >>> 16 } }) ∧
      ((∀ lo b, s.hbi.held ≠ some (reg, lo, b)) → reg = 15 →
        ∀ env, exec (.halfwordHighAccess .write reg data be env) s = .next { s with
          hbi := { s.hbi.whole with
            err := s.hbi.err ||| 32, errCount := satAdd s.hbi.errCount 1
            scratch := data ++ s.hbi.scratch.extractLsb' 0 16 } }) ∧
      (∀ env,
        ((∀ v, s.hbi.latch ≠ some (reg, v)) →
          ∃ t, exec (.halfwordHighAccess .read reg data be env) s = .next t ∧ t.hbi.err.getLsbD 5 = true) ∧
        ((∀ lo b, s.hbi.held ≠ some (reg, lo, b)) →
          ∃ t, exec (.halfwordHighAccess .write reg data be env) s = .next t ∧ t.hbi.err.getLsbD 5 = true))) ∧
    ((s.hbi.ready = false ∨ s.hbi.w16 = false) → ∀ d env,
      exec (.halfwordLowAccess d reg data be env) s = .next s ∧ exec (.halfwordHighAccess d reg data be env) s = .next s)

/-- Captures, the rate, REF_SEL: a CAP write captures the timebase at once; TRIG and ARM are written; TIME_INCR is clamped to its range while REF_SEL is none
and the state is not UNTRUSTED, else ignored; REF_SEL and the output enables are written, and the choice of no reference leads to FREE. -/
def Obligations.TimeAndReferenceRegisters : Prop :=
  (∀ (s : State) (w : RegWrite), s.hbi.ready = true →
      (bit w.ones 0 = true →
        Does (.timeCapture w) s [.time, .hbi] fun t =>
          t.hbi = s.hbi.whole ∧ t.time.capNs.toNat = s.time.total % 1000000000 % 2 ^ 30 ∧
            t.time.capSec = BitVec.ofNat 48 (s.time.total / 1000000000) ∧ t.time.capValid = true ∧
            t.time.capUntr = s.untrusted ∧ t.time.ns = s.time.ns ∧ t.time.sec = s.time.sec ∧ t.time.incr = s.time.incr) ∧
      (bit w.ones 0 = false →
        Does (.timeArm w) s [.time, .hbi] fun t =>
          t.hbi = s.hbi.whole ∧
          t.time = { s.time with
            trigSel := BitVec.ofNat 2 (fld (w.over s.timeLatch) 1 2)
            arm := bit (w.over s.timeLatch) 3
            capValid := s.time.capValid && !(bit (w.over s.timeLatch) 3 && !s.time.arm) }) ∧
      (s.time.refSel = 3 → s.time.state ≠ 2 →
        Does (.timeIncrWrite w) s [.time, .hbi] fun t =>
          t.hbi = s.hbi.whole ∧ t.time = { s.time with incr := t.time.incr } ∧
            t.time.incr.toNat = min 0x280A3D70 (max 0x27F5C290 (w.over s.time.incr).toNat)) ∧
      ((s.time.refSel ≠ 3 ∨ s.time.state = 2) →
        Does (.timeIncrWrite w) s [.hbi] fun t => t.hbi = s.hbi.whole)) ∧
  (∀ (s : State) (w : RegWrite), s.hbi.ready = true →
      Does (.refSelWrite w) s [.time, .hbi, .trace, .draw] (fun t =>
        t.time.refSel = BitVec.ofNat 2 (fld (w.over s.timeStat) 8 2) ∧ t.time.wclkOutEn = bit (w.over s.timeStat) 10 ∧
          t.time.ppsOutEn = bit (w.over s.timeStat) 11 ∧ t.time.sec = s.time.sec ∧ t.time.ns = s.time.ns ∧ t.time.mono = s.time.mono) ∧
      ((s.time.refSel ≠ 3 ∨ w.be.getLsbD 1 = true) → s.time.state ≠ 2 → s.follower = false → fld (w.over s.timeStat) 8 2 = 3 →
        Does (.refSelWrite w) s [.time, .hbi, .trace, .draw] fun t => t.time.state = 3 ∧ t.time.refAct = 0 ∧ t.time.slew = false))

/-- GCTRL and RCALL: FW_GO starts authentication while the loader waits for the host and is ignored otherwise; RESTART orders a restart in RUN; TAKE
leaves a Roll Call pending, joined to one that already is. -/
def Obligations.StartAndRestart : Prop :=
  (∀ (s : State) (w : RegWrite), s.hbi.ready = true → bit w.ones 24 = true → bit w.ones 25 = false →
      (s.loaderWaits = true →
        Does (.fwGo w) s [.hbi, .cmd, .boot] fun t =>
          t.boot = { s.boot with boot := if s.boot.boot = 6 then 6 else 3, going := true, fromHost := true } ∧
            t.cmd = { s.cmd with peerCmd := bit (w.over (w32 (b2n s.cmd.peerCmd))) 0 }) ∧
      (s.loaderWaits = false → Does (.fwGo w) s [.hbi, .cmd] fun t =>
        t.cmd = { s.cmd with peerCmd := bit (w.over (w32 (b2n s.cmd.peerCmd))) 0 })) ∧
  (∀ (s : State) (w : RegWrite), s.hbi.ready = true →
      (bit w.ones 24 = false → bit w.ones 25 = true → s.bootCode = 4 →
        Does (.restart w) s [.hbi, .cmd, .boot] fun t =>
          t.boot = { s.boot with restartDue := true } ∧
            t.cmd = { s.cmd with peerCmd := bit (w.over (w32 (b2n s.cmd.peerCmd))) 0 }) ∧
      (bit w.ones 0 = true →
        Does (.take w) s [.hbi, .power, .boot, .trace] fun t =>
          t.boot = { s.boot with rcPending := true, rcAt := some (s.boot.rcAt.getD s.effectOrd) }))

/-- Snapshots by register: with no copy in progress the named banks are taken at once; while one is in progress they are held. TRACE_CFG, LTOL and PWR_VOTE
take their bytes; RING_SZ 0b111 is written as 0b110; AON's bit reads 0b1. -/
def Obligations.SnapshotAndConfigRegisters : Prop :=
  (∀ (s : State) (w : RegWrite), s.hbi.ready = true →
      (s.trace.copying ≠ 0 → fld w.ones 0 2 ≠ 0 →
        Does (.snap0 w) s [.hbi, .trace] (fun t =>
          t.trace = { s.trace with heldBanks := s.trace.heldBanks ||| BitVec.ofNat 3 (fld w.ones 0 2) }) ∧
        Does (.snap1 w) s [.hbi, .trace] fun t =>
          t.trace = { s.trace with heldBanks := s.trace.heldBanks ||| BitVec.ofNat 3 (fld w.ones 0 2) }) ∧
      (s.trace.copying = 0 → fld w.ones 0 2 = 1 →
        Does (.snap0 w) s [.hbi, .net, .trace] fun t =>
          t.trace.copying = 1 ∧ (t.netP 0).bank = (s.netP 0).ctr ∧ t.netP 1 = s.netP 1) ∧
      (s.trace.copying = 0 → fld w.ones 0 2 = 2 →
        Does (.snap1 w) s [.hbi, .net, .trace] fun t =>
          t.trace.copying = 2 ∧ (t.netP 1).bank = (s.netP 1).ctr ∧ t.netP 0 = s.netP 0) ∧
      (s.trace.copying = 0 → bit w.ones 16 = true →
        Does (.csnap w) s [.hbi, .trace] fun t => t.trace.copying = 4 ∧ t.trace.bank = s.trace.ctr)) ∧
  (∀ (s : State) (w : RegWrite), s.hbi.ready = true →
      (bit w.ones 16 = false →
        Does (.traceCfgWrite w) s [.hbi, .trace] fun t =>
          t.trace = { s.trace with
            portEn := bit (w.over s.traceCfg) 0
            ringEn := bit (w.over s.traceCfg) 1
            ringSz := BitVec.ofNat 3 (min 6 (fld (w.over s.traceCfg) 2 3))
            classes := BitVec.ofNat 8 (fld (w.over s.traceCfg) 8 8) }) ∧
      Does (.ltolWrite w) s [.hbi, .power] (fun t => t.power = { s.power with ltol := w.over s.power.ltol }) ∧
      Does (.pwrVoteWrite w) s [.hbi, .power, .trace] fun t =>
        t.power.host = (w.over (s.power.host.setWidth 32)).setWidth 22 ||| 1 ∧
          t.power.hostEff = s.power.hostEff ||| t.power.host)

/-! ### Commands (chapters 02, 04, 06 to 12, 14 to 16) -/

/-- LEG_SET: a Leg the member carries is unbound (a network Leg that is bound and has nothing armed), or takes the words whose ranges, canceller
and stream channels allow it; a unit without room in any ON Wing leaves a repack due. -/
def Obligations.LegSetAccepted : Prop :=
  ∀ (s : State) (src : CmdSrc) (c : CmdWords), s.Offers src c → c.op = 0x10 → c.a0 &&& 0xFFFFC000#32 = 0 →
    let u := s.checking src c
    let t := u.project u.effectOrd
    let l := fld c.a0 0 12
    let fits := fun ch => u.homeless (t.applyAll (stage src c u.effectOrd [ch])) = true → ∀ w, w < 8 → u.wingOn w = true
    let takes := fun ch => Accepts (.legSet src) s src c s.effectOrd [ch] [.tiles] fun z =>
      z.tiles = { s.tiles with
        repackDue := s.tiles.repackDue || u.homeless (t.applyAll (stage src c u.effectOrd [ch])) }
    legCarried s.wingsNext l = true →
    (fld c.a0 12 2 = 1 → c.a4 = 0 → c.a5 = 0 → isNetLeg l = true → (t.legCfg l).bound = true → (t.legSt l).armed = none →
      fits (.legUnbind l) → takes (.legUnbind l)) ∧
    (fld c.a0 12 2 = 0 → legSetArgsOk c = true → (refOther c.a3 = true → legCarried s.wingsNext (refLeg c.a3) = true) →
      (echoMode c.a3 = 2 → echoMode (t.legCfg l).a3 ≠ 2 → (t.longTails s.wingsNext).length < memberTails s.wingsNext) →
      (isNetLeg l = true → legSetStateOk t l c.a1 = true) → fits (.legSet l c.a1 c.a2 c.a3) → takes (.legSet l c.a1 c.a2 c.a3))

/-- LEG_PAUSE: a pause of a Leg that is BOUND or ACTIVE, or a continuation of one that is PAUSED, is armed for its boundary; act 2 withdraws what is armed
for a boundary still to come. KEY_SET: a key of a bound Leg of the member takes its word, where an enabled key names a group in use that no other key of
its kind names. -/
def Obligations.LegPauseAndKeySetAccepted : Prop :=
  (∀ (s : State) (src : CmdSrc) (c : CmdWords), s.Offers src c → c.op = 0x12 → c.a0 &&& 0xFFFFC000#32 = 0 → zeroFrom c 2 →
      let u := s.checking src c
      let l := fld c.a0 0 12
      legCarried s.wingsNext l = true →
      (∀ ord, fld c.a0 12 2 = 0 → s.namedOrd c.a1 = some ord → (s.legSt l).armed = none →
        (((u.project ord).legSt l).state = .bound ∨ ((u.project ord).legSt l).state = .active) →
        AcceptsFree (.legPause src) s src c ord [.legAct l true] [.mix] fun t =>
          t.legSt l = { s.legSt l with armed := some { pause := true, ord := ord } } ∧ ∀ j, j ≠ l → t.legSt j = s.legSt j) ∧
      (∀ ord, fld c.a0 12 2 = 1 → s.namedOrd c.a1 = some ord → (s.legSt l).armed = none →
        ((u.project ord).legSt l).state = .paused →
        AcceptsFree (.legPause src) s src c ord [.legAct l false] [.mix, .power] fun t =>
          t.legSt l = { s.legSt l with armed := some { pause := false, ord := ord } } ∧ ∀ j, j ≠ l → t.legSt j = s.legSt j) ∧
      (∀ a, fld c.a0 12 2 = 2 → (s.legSt l).armed = some a → s.effectOrd ≤ a.ord →
        Answers (.legPause src) s src c stOk (s.pidxAt s.effectOrd) (s.unstated 1)
          (fun m => { m with epoch := epochNext m.epoch, accepted := m.accepted + 1, staged := dropLegAct l m.staged }) s.mem [.mix]
          fun t => t.legSt l = { s.legSt l with armed := none } ∧ ∀ j, j ≠ l → t.legSt j = s.legSt j)) ∧
  (∀ (s : State) (src : CmdSrc) (c : CmdWords), s.Offers src c → c.op = 0x1A → c.a0 &&& 0xFFFE0000#32 = 0 →
      c.a1 &&& 0xFE00FC00#32 = 0 → zeroFrom c 2 → gainOk (keyGain c.a1) = true →
      let u := s.checking src c
      let t := u.project u.effectOrd
      let l := fld c.a0 0 12
      let talk := bit c.a0 12
      let slot := fld c.a0 13 4
      let key := fun i => if talk then (t.legCfg l).talkKey i else (t.legCfg l).listenKey i
      (talk = true → slot < 4) → legCarried s.wingsNext l = true → keyGroup c.a1 < memberGroups s.wingsNext → (t.legCfg l).bound = true →
      (keyEn c.a1 = true → (t.grp (keyGroup c.a1)).state ≠ .unused ∧
        ∀ i, i < (if talk then 4 else 16) → i ≠ slot → keyEn (key i) = true → keyGroup (key i) ≠ keyGroup c.a1) →
      AcceptsFree (.keySet src) s src c s.effectOrd [.keySet l talk slot c.a1] [] fun _ => True)

/-- GRP_SET: a group the member carries takes its words, closes once nothing names it, is shared while its words agree with the segment, and is
unshared once no interrupt group rests on it. -/
def Obligations.GrpSetAccepted : Prop :=
  ∀ (s : State) (src : CmdSrc) (c : CmdWords), s.Offers src c → c.op = 0x18 → c.a0 &&& 0xFC00C000#32 = 0 → c.a4 = 0 → c.a5 = 0 →
    let u := s.checking src c
    let t := u.project u.effectOrd
    let g := fld c.a0 0 10
    let kind := fld c.a0 10 2
    let cur := t.grp g
    let int := t.grp (fld c.a3 0 10)
    let fits := fun ch => u.homeless (t.applyAll (stage src c u.effectOrd [ch])) = true → ∀ w, w < 8 → u.wingOn w = true
    let takes := fun ch => AcceptsFree (.grpSet src) s src c s.effectOrd [ch] [.tiles] fun z =>
      z.tiles = { s.tiles with
        repackDue := s.tiles.repackDue || u.homeless (t.applyAll (stage src c u.effectOrd [ch])) }
    g < memberGroups s.wingsNext →
    (fld c.a0 12 2 = 0 → kind ≠ 3 → grpArgsOk kind c = true → cur.state ≠ .shared →
      (cur.state = .open_ → cur.kind.toNat ≠ kind → t.keyNames g = false ∧ t.interrupts g = false) →
      (kind = 2 → fld c.a3 0 10 < memberGroups s.wingsNext ∧ int.state ≠ .unused ∧ int.kind = 0 ∧ fld c.a3 0 10 ≠ g) →
      fits (.grpSet g (BitVec.ofNat 2 kind) c.a1 c.a2 c.a3) → takes (.grpSet g (BitVec.ofNat 2 kind) c.a1 c.a2 c.a3)) ∧
    (fld c.a0 12 2 = 1 → cur.state = .open_ → t.keyNames g = false → t.interrupts g = false →
      fits (.grpClose g) → takes (.grpClose g)) ∧
    (fld c.a0 12 2 = 2 → cur.state = .open_ → shareBlocked u t g (fld c.a0 16 10) = false →
      fits (.grpShare g (fld c.a0 16 10)) → takes (.grpShare g (fld c.a0 16 10))) ∧
    (fld c.a0 12 2 = 3 → cur.state = .shared →
      (cur.kind = 0 → ∀ y ∈ t.mix.groups, y.2.state = .shared → y.2.kind = 2 → fld y.2.a3 0 10 ≠ g) →
      fits (.grpUnshare g) → takes (.grpUnshare g))

/-- PORT_SET, PORT_POWER, CARD_BUDGET: within their ranges and on a port of the member they are staged; PORT_POWER powers a port that is OFF or in
PROBE once its bank is ON or, to probe, in Proofing, and takes any other port OFF. -/
def Obligations.LineCommandsAccepted : Prop :=
  ∀ (s : State) (src : CmdSrc) (c : CmdWords), s.Offers src c →
    let u := s.checking src c
    let p := fld c.a0 0 6
    let mode := fld c.a0 8 2
    let t := (u.project u.effectOrd).released p
    (c.op = 0x20 → c.a0 &&& 0xFFFFFCC0#32 = 0 → c.a1 &&& 0xC0008000#32 = 0 → c.a2 &&& 0xFFFFFF80#32 = 0 → fld c.a1 0 8 ≤ 0x8C →
      fld c.a1 8 7 ≤ 0x4B → fld c.a1 16 8 ≤ 0xFA → fld c.a2 0 2 ≠ 3 → fld c.a2 2 2 ≠ 3 → zeroFrom c 3 → p < 48 →
      p < memberPorts s.wingsNext →
      Accepts (.portSet src) s src c s.effectOrd [.portSet p (c.a0.extractLsb' 8 2) c.a1 c.a2] [] fun _ => True) ∧
    (c.op = 0x21 → c.a0 &&& 0xFFFFFCC0#32 = 0 → zeroFrom c 1 → p < 48 → p < memberPorts s.wingsNext →
      (mode = 0 → (t.port p).state ≠ .off) → (mode ≠ 0 → (t.port p).state = .off ∨ (t.port p).state = .probe) →
      powerNeeds u (u.project u.effectOrd) p mode = false →
      Accepts (.portPower src) s src c s.effectOrd [.portPower p (BitVec.ofNat 2 mode)] [] fun _ => True) ∧
    (c.op = 0x24 → cardOk c = true →
      Accepts (.cardBudget src) s src c s.effectOrd [.card c.a0 c.a1 c.a2 c.a3 c.a4 c.a5] [] fun _ => True)

/-- PORT_SOUND and CALL_SEND complete OK with the PIDX of the boundary at which they act, without a step of CFG_EPOCH: a sounding starts on a
port that is ON and not being sounded, and is stopped while it runs; a call is sent on a port that delivers, and ended while it lasts. The
second result word is free (log 12). -/
def Obligations.LineActionsAccepted : Prop :=
  ∀ (s : State) (src : CmdSrc) (c : CmdWords), s.Offers src c →
    let u := s.checking src c
    let p := fld c.a0 0 6
    let t := u.project u.effectOrd
    let acts := fun (row : Instr) (ch : Change) =>
      Answers row s src c stOk (s.pidxAt s.effectOrd) (s.unstated 1)
        (fun m => { m with staged := m.staged ++ stage src c s.effectOrd [ch] }) s.mem []
        fun _ => True
    p < 48 → p < memberPorts s.wingsNext →
    (c.op = 0x22 → c.a0 &&& 0xFFFFFCC0#32 = 0 → zeroFrom c 1 →
      (fld c.a0 8 2 = 0 → ((t.released p).port p).state = .on → ((t.released p).sounding p).status ≠ 1 → holdNeeds u t p = false →
        acts (.portSound src) (.portSound p true)) ∧
      (fld c.a0 8 2 = 1 → (t.sounding p).status = 1 → acts (.portSound src) (.portSound p false))) ∧
    (c.op = 0x23 → c.a0 &&& 0xFFFFF0C0#32 = 0 → c.a1 &&& 0xFFFF0000#32 = 0 → zeroFrom c 2 → fld c.a1 0 16 ≠ 0 →
      (fld c.a0 8 2 = 0 → deliversSt ((t.released p).port p).state = true → holdNeeds u t p = false →
        acts (.callSend src) (.callSend p true (c.a0.extractLsb' 10 2) (fld c.a1 0 16))) ∧
      (fld c.a0 8 2 = 1 → ((t.watch p).hostNow s.effectOrd).isSome = true → acts (.callSend src) (.callSend p false 0 0)))

/-- DAP_SET: with DAP ON, a port takes its words (the fixed ones while it is not started), is disabled while READY, is acknowledged while MUTED for its
input, or has a standing trigger disarmed. DAP_START: with no trigger standing, ports that are READY start at the named boundary or are armed for a
trigger, and ports that run stop. -/
def Obligations.DapCommandsAccepted : Prop :=
  (∀ (s : State) (src : CmdSrc) (c : CmdWords), s.Offers src c → c.op = 0x30 → s.domOn dDap = true →
      let u := s.checking src c
      let t := u.project u.effectOrd
      let p := fld c.a0 0 4
      let d := t.dapP p
      let takes := fun m ch => Answers (.dapSet src) s src c stOk (s.pidxAt s.effectOrd) 0 (CmdPath.accepts src c s.effectOrd [ch]) m [] fun _ =>
        True
      let sets := fun block => Change.dapSet p (c.a0 &&& 0x003F01CF#32) c.a1 c.a2 c.a3 c.a4 c.a5 block
      (s.wingsNext ≠ 0 → fld c.a0 4 2 = 0 → dapSetArgsOk t c = true → d.state ≠ .armed → (d.started = true → dapFixedChange c d = false) →
        (c.a5 = 0 → takes s.mem (sets [])) ∧
        (∀ b, c.a5 ≠ 0 → blockAt u.regions c.a5 96 = some b → takes (u.blockMet b 96).mem (sets (s.readBlock b 96)))) ∧
      (dapA0Ok c.a0 = true →
        (s.wingsNext ≠ 0 → fld c.a0 4 2 = 1 → d.state = .ready → takes s.mem (.dapDisable p)) ∧
        (s.wingsNext ≠ 0 → fld c.a0 4 2 = 2 → d.state = .muted → d.mute = 3 → d.qual = true → classOk d.cls = true →
          takes s.mem (.dapAck p)) ∧
        (fld c.a0 4 2 = 3 → t.time.trig ≠ none → takes s.mem .dapDisarm))) ∧
  (∀ (s : State) (src : CmdSrc) (c : CmdWords) (ord : Nat), s.Offers src c → c.op = 0x31 → s.domOn dDap = true →
      c.a0 &&& 0xFFE00000#32 = 0 → c.a2 &&& 0xFFFFFFE0#32 = 0 → zeroFrom c 3 → s.namedOrd c.a1 = some ord →
      let u := s.checking src c
      let ports := c.a0.extractLsb' 0 16
      let mode := fld c.a0 18 2
      let fwd := bit c.a0 20
      let t := u.project (if fld c.a0 16 2 = 0 ∧ mode = 0 then u.effectOrd else ord)
      s.wingsNext ≠ 0 → ports ≠ 0 → t.time.trig = none → s.time.trig = none →
      (fld c.a0 16 2 = 1 → (∀ p ∈ portsOf ports, (t.dapP p).state = .run ∨ (t.dapP p).state = .muted ∨ (t.dapP p).state = .armed) →
        Accepts (.dapStart src) s src c ord [.dapStop ports] [] fun _ => True) ∧
      (fld c.a0 16 2 = 0 → (∀ p ∈ portsOf ports, (t.dapP p).state = .ready) →
        (mode = 3 → ord ≤ s.effectOrd → Accepts (.dapStart src) s src c ord [.dapStart ports] [.power] fun _ => True) ∧
        (mode = 3 → s.effectOrd < ord →
          Answers (.dapStart src) s src c stOk (s.pidxAt ord) 0
            (fun m => CmdPath.accepts src c ord [.dapStart ports] { m with staged := m.staged ++ stage src c s.effectOrd [.dapArm ports] })
            s.mem [.power] fun _ => True) ∧
        ((mode = 1 ∨ mode = 2) → (fwd = true → s.imdal.state = .enrolled) →
          Answers (.dapStart src) s src c stOk (s.pidxAt ord) 0 (CmdPath.accepts src c ord [.dapArm ports]) s.mem [.time, .power] fun z =>
            z.time = { s.time with trig := some (Trigger.mk (BitVec.ofNat 2 mode) ports fwd ord none) }) ∧
        (mode = 0 → fld c.a2 0 5 < 24 → (fwd = true → s.imdal.state = .enrolled) →
          Answers (.dapStart src) s src c stOk (s.pidxAt ord) 0 (CmdPath.accepts src c s.effectOrd [.dapArm ports]) s.mem [.time, .imdal, .power]
            fun z =>
            z.time = { s.time with trig := some (Trigger.mk 0 ports fwd s.effectOrd (some (ord, fld c.a2 0 5))) } ∧
            z.imdal = if fwd then s.pointPlaced (s.pidxAt ord) (fld c.a2 0 5) else s.imdal)))

/-- STREAM_SET and STREAM_PAUSE: an idle stream that no Leg uses is released; a stream takes a configuration block that clashes with nothing;
a stream that flows is paused, a configured idle one is armed to start, and a cancel of what is armed is staged (STREAM_PAUSE's second result
word is free, log 12). -/
def Obligations.StreamCommandsAccepted : Prop :=
  ∀ (s : State) (src : CmdSrc) (c : CmdWords), s.Offers src c → c.a0 &&& 0xFFFFC000#32 = 0 → zeroFrom c 2 →
    let u := s.checking src c
    let t := u.project u.effectOrd
    let n := fld c.a0 0 11
    let tx := bit c.a0 11
    let cur := t.strm tx n
    (c.op = 0x40 → fld c.a0 12 2 = 1 → cur.conf = true → cur.state = .idle → cur.armed = [] → t.legsOn tx n = [] →
      Accepts (.streamSet src) s src c s.effectOrd [.streamRelease tx n] [] fun _ => True) ∧
    (∀ at_, c.op = 0x40 → fld c.a0 12 2 = 0 → blockAt u.regions c.a1 128 = some at_ →
      let b := s.readBlock at_ 128
      strBlockOk b tx = true → (tx = false → ∀ y ∈ t.media.rx, y.1 ≠ n → y.2.conf = true → strClash b y.2.block = false) →
      (∀ l ∈ t.legsOn tx n, (if tx then txCh l.2.a1 else rxCh l.2.a1) < strCh b) →
      (cur.conf = true → t.legsOn tx n ≠ [] → strRate b = strRate cur.block) →
      (cur.state ≠ .idle → strFixed tx b = strFixed tx cur.block) →
      Answers (.streamSet src) s src c stOk (s.pidxAt s.effectOrd) 0 (CmdPath.accepts src c s.effectOrd [.streamSet tx n b])
        (u.blockMet at_ 128).mem [] fun _ => True) ∧
    (∀ ord, c.op = 0x41 → s.namedOrd c.a1 = some ord →
      let then_ := (u.project ord).strm tx n
      then_.armed = [] →
      (fld c.a0 12 2 = 0 → then_.state ≠ .idle → then_.state ≠ .armed →
        AcceptsFree (.streamPause src) s src c ord [.streamAct tx n true] [.media] fun z =>
          z.strm tx n = { s.strm tx n with armed := (s.strm tx n).armed ++ [{ pause := true, ord := ord }] } ∧ State.StrmOnly tx n s z) ∧
      (fld c.a0 12 2 = 1 → then_.conf = true → then_.state = .idle →
        AcceptsFree (.streamPause src) s src c ord [.streamAct tx n false] [.media, .power] fun z =>
          z.strm tx n = { s.strm tx n with
            armed := (s.strm tx n).armed ++ [{ pause := false, ord := ord }]
            state := if (s.strm tx n).state = .idle then .armed else (s.strm tx n).state
            reportMono := (z.strm tx n).reportMono } ∧ State.StrmOnly tx n s z)) ∧
    (∀ a ∈ (s.strm tx n).armed, c.op = 0x41 → fld c.a0 12 2 = 2 → s.effectOrd ≤ a.ord →
      Answers (.streamPause src) s src c stOk (s.pidxAt s.effectOrd) (s.unstated 1)
        (fun m => CmdPath.accepts src c s.effectOrd [.streamCancel tx n] { m with staged := dropStreamAct tx n s.effectOrd m.staged }) s.mem []
        fun _ => True)

/-- SHAPER_SET, POLICER_SET, RING_SET, IMDAL_JOIN, PWR_SET: shapers, windows, weights, policers, colour maps, ports, rings, steering rules and PTP parts within
their ranges are staged; a SOLO device enrols and another departs; a deepest state and a Proofing interval are set, the own host's PEER vote is DENIED. -/
def Obligations.NetworkAndPowerCommandsAccepted : Prop :=
  (∀ (s : State) (src : CmdSrc) (c : CmdWords), s.Offers src c →
      let p := fld c.a0 0 1
      let q := fld c.a0 4 3
      let takes := fun row ch => AcceptsFree row s src c s.effectOrd [ch] [] fun _ => True
      (c.op = 0x42 →
        (fld c.a0 1 2 = 0 → c.a0 &&& 0xFFFFFF88#32 = 0 → ratesOk c = true → c.a5 &&& 0xFFFFFEC0#32 = 0 →
          takes (.shaperSet src) (.shaper p q c.a1 c.a2 c.a3 c.a4 c.a5)) ∧
        (fld c.a0 1 2 = 1 → c.a0 &&& 0xFFFFFFF8#32 = 0 → c.a1 &&& 0xFE00FE00#32 = 0 → fld c.a1 0 9 ≤ 499 → fld c.a1 16 9 ≤ 400 →
          fld c.a1 0 9 + fld c.a1 16 9 ≤ 500 → c.a2 &&& 0xFFFFFF00#32 = 0 → fld c.a2 0 8 ≤ 250 → zeroFrom c 3 →
          takes (.shaperSet src) (.window p c.a1 c.a2)) ∧
        (fld c.a0 1 2 = 2 → c.a0 &&& 0xFFFFFF88#32 = 0 → q ≤ 2 → fld c.a1 0 8 ≠ 0 → c.a1 &&& 0xFFFFFF00#32 = 0 → zeroFrom c 2 →
          takes (.shaperSet src) (.weight p q c.a1))) ∧
      (c.op = 0x43 → c.a0 &&& 0xFFFFFC00#32 = 0 →
        (fld c.a0 8 2 = 0 → ratesOk c = true → policerA5Ok c.a5 = true →
          takes (.policerSet src) (.policer (fld c.a0 0 8) c.a1 c.a2 c.a3 c.a4 c.a5)) ∧
        (fld c.a0 8 2 = 1 → mapOk c.a1 16 = true → mapOk c.a2 16 = true → mapOk c.a3 16 = true → mapOk c.a4 16 = true → c.a5 = 0 →
          takes (.policerSet src) (.dscpMap c.a1 c.a2 c.a3 c.a4)) ∧
        (fld c.a0 8 2 = 2 → mapOk c.a1 8 = true → c.a1 &&& 0xFFFF0000#32 = 0 → zeroFrom c 2 → takes (.policerSet src) (.pcpMap c.a1)))) ∧
  (∀ (s : State) (src : CmdSrc) (c : CmdWords), s.Offers src c →
      let u := s.checking src c
      let t := u.project u.effectOrd
      let p := fld c.a0 0 1
      let ix := fld c.a0 8 4
      let takes := fun row ch => Accepts row s src c s.effectOrd [ch] [] fun _ => True
      (c.op = 0x44 → c.a0 &&& 0xFFFFF0F0#32 = 0 →
        (fld c.a0 1 3 = 0 → ix = 0 → netPortOk c = true → takes (.ringSet src) (.netPort p c.a1 c.a2 c.a3 c.a4 c.a5)) ∧
        (∀ tx : Bool, fld c.a0 1 3 = (if tx then 2 else 1) → netRingOk t p tx ix c = true →
          (bit c.a2 31 = true → bit ((t.netP p).ring (if tx then 16 + ix else ix)).a2 31 = true →
            let r := (t.netP p).ring (if tx then 16 + ix else ix)
            c.a1 = r.a1 ∧ c.a2 = r.a2 ∧ c.a3 = r.a3 ∧ c.a4 = r.a4 ∧ fld c.a5 0 16 = fld r.a5 0 16) →
          takes (.ringSet src) (.netRing p tx ix c.a1 c.a2 c.a3 c.a4 c.a5)) ∧
        (fld c.a0 1 3 = 3 → c.a1 &&& 0xE00E0000#32 = 0 → c.a2 &&& 0x0FE00000#32 = 0 → c.a3 &&& 0x7FFFFFF0#32 = 0 → fld c.a3 0 4 ≠ 15 →
          zeroFrom c 4 → takes (.ringSet src) (.netRule p ix c.a1 c.a2 c.a3)) ∧
        (fld c.a0 1 3 = 4 → ix = 0 → netPtpOk c = true →
          (fld c.a1 0 2 = 2 → (t.netP (otherPort p)).ptpRole = 2 ∨ u.pairs p = true) →
          takes (.ringSet src) (.netPtp p c.a1 c.a2 c.a3))) ∧
      (c.op = 0x50 → joinArgsOk u c = true → ∀ ord, s.namedOrd c.a1 = some ord →
        (fld c.a0 0 3 = 0 → (u.project ord).imdal.state = .solo → s.imdal.sameIndex = false →
          Accepts (.imdalJoin src) s src c ord [.enrol] [.power] fun _ => True) ∧
        (fld c.a0 0 3 = 1 → (u.project ord).imdal.state ≠ .solo → Accepts (.imdalJoin src) s src c ord [.depart] [] fun _ => True)) ∧
      (c.op = 0x70 → pwrArgsOk c = true →
        (fld c.a0 8 2 = 1 → takes (.pwrSet src) (.deepest (fld c.a0 0 5) (c.a1.setWidth 2))) ∧
        (fld c.a0 8 2 = 2 → takes (.pwrSet src) (.proofInterval (fld c.a0 0 5 - 12) (fld c.a1 0 10)))) ∧
      (c.op = 0x70 → fld c.a0 8 2 = 0 → Rejects (.pwrSet src) s src c stDenied id))

/-- NOP and the reads, with no need of PANTRY but for the tables that lie there: NOP answers CFG_EPOCH and PIDX; LEG_GET, GRP_GET and TIMETABLE_GET
write their record to the block named, in the host area of MGMT SRAM or in a buffer in Pantry, and change nothing else. -/
def Obligations.ReadCommandsComplete : Prop :=
  ∀ (s : State) (src : CmdSrc) (c : CmdWords), s.front src = some c → s.boot.boot = 4 → s.domOn dMgmt = true → s.cleanEntry src →
    (c.chk = true → c.epoch = s.cmd.epoch ∧ (src = .ring → s.cmd.ehalt = false)) →
    let u := s.checking src c
    let reads := fun row r0 r1 m => Answers row s src c stOk r0 r1 id m [] fun _ => True
    (c.op = 0x00 → zeroFrom c 0 → reads (.nop src) s.cmd.epoch s.pidx s.mem) ∧
    (∀ b, c.op = 0x11 → c.a0 &&& 0xFFFFF000#32 = 0 → zeroFrom c 2 → blockAt u.regions c.a1 128 = some b → s.domOn dPantry = true →
      legCarried s.wingsNext (fld c.a0 0 12) = true →
      reads (.legGet src) s.pidx s.cmd.epoch (b.put (legRecord u u.accepted (fld c.a0 0 12)) s.mem)) ∧
    (∀ b, c.op = 0x19 → c.a0 &&& 0xFFFFFC00#32 = 0 → zeroFrom c 2 → blockAt u.regions c.a1 32 = some b → s.domOn dPantry = true →
      fld c.a0 0 10 < memberGroups s.wingsNext →
      reads (.grpGet src) s.pidx s.cmd.epoch (b.put (grpRecord u u.accepted (fld c.a0 0 10)) s.mem)) ∧
    (∀ b, c.op = 0x60 → c.a0 &&& 0xFFFFFFFC#32 = 0 → fld c.a0 0 2 ≠ 3 → zeroFrom c 2 →
      blockAt u.regions c.a1 (if fld c.a0 0 2 = 0 then 1152 else if fld c.a0 0 2 = 1 then 4096 else 1024) = some b →
      (fld c.a1 31 1 = 1 → s.domOn dPantry = true) →
      reads (.timetableGet src) s.tiles.ttPidx s.tiles.serial (b.put (u.timetablePart (fld c.a0 0 2)) s.mem))

/-- ROLL_CALL and SNAPSHOT wait for their boundary with the command at its source; MGMT gets the firmware's vote. An opcode that R51 does not define
completes BADOP: it enters the reject log and changes no configuration. -/
def Obligations.LaterAndUndefinedCommands : Prop :=
  ∀ (s : State) (src : CmdSrc) (c : CmdWords), s.Offers src c →
    let u := (s.checking src c).cmd
    (c.op = 0x78 → zeroFrom c 0 →
      DoesR (.rollCall src) s [.cmd, .power, .boot] fun t =>
        t.boot = { s.boot with rcPending := true, rcAt := some (s.boot.rcAt.getD s.effectOrd) } ∧
          t.cmd = { u with rolls := u.rolls ++
            [{ src := srcOf src, cmd := c, ord := s.boot.rcAt.getD s.effectOrd, banks := 0, taken := false, pidx := 0 }] } ∧
          t.power = { s.power with fw := s.power.fw ||| domBit dMgmt }) ∧
    (c.op = 0x79 → c.a0 &&& 0xFFFFFFF8#32 = 0 → c.a0 ≠ 0 → zeroFrom c 1 →
      (∀ l ∈ s.cmd.snaps, l.taken = false → l.banks &&& c.a0.setWidth 3 = 0) →
      DoesR (.snapshot src) s [.cmd, .power] fun t =>
        t.cmd = { u with snaps := u.snaps ++
          [{ src := srcOf src, cmd := c, ord := s.effectOrd, banks := c.a0.setWidth 3, taken := false, pidx := 0 }] } ∧
          t.power = { s.power with fw := s.power.fw ||| domBit dMgmt }) ∧
    (isDefined c.op = false →
      Rejects (.undefinedOpcode src) s src c stBadop id)

/-- Every defined opcode: a command whose EPOCH_CHK asks for another epoch than CFG_EPOCH completes EPOCH, enters the reject log and has no other effect; from
the ring it sets EHALT. A 65th configuration command of a Period waits: no status, no effect but that it leaves its source and holds the one sequence. -/
def Obligations.EpochAndLimit : Prop :=
  (∀ (s : State) (src : CmdSrc) (c : CmdWords), s.front src = some c → isDefined c.op = true → s.boot.boot = 4 → s.domOn dMgmt = true →
      s.cmd.accepted < 64 → (c.op = 0x70 → fld c.a0 8 2 ≠ 0) → c.chk = true → c.epoch ≠ s.cmd.epoch →
      ((s.checking src c).ownChecks (handlerOf c.op) { src := srcOf src, cmd := c, param := none }).waits = false →
      Rejects (rowOf c.op src) s src c stEpoch id) ∧
  (∀ (s : State) (src : CmdSrc) (c : CmdWords), s.front src = some c → isConfig c.op = true → s.boot.boot = 4 → s.domOn dMgmt = true →
      64 ≤ s.cmd.accepted →
      Does (rowOf c.op src) s [.cmd] fun t =>
        t.cmd = { (s.checking src c).cmd with waiting := some { src := srcOf src, cmd := c, why := .limit }, waitParam := none })

/-- A waiting command whose wait is over runs as if it had just been taken from the mailbox; the forwards behind it follow. -/
def Obligations.WaitReleased : Prop :=
  ∀ (s : State) (w : Waiting), s.cmd.waiting = some w → w.src = .mailbox → s.cmd.waitParam = none → s.waitOver w = true →
    ∃ t, exec (rowOf w.cmd.op .mailbox) (s.onCmd fun m => { m with waiting := none, mbox := some w.cmd }) = .next t ∧
      exec .commandWaitRelease s = .next (t.drainPeers t.cmd.peerQ.length)

/-- Forwards. One that is for another device travels on, as does an answer for another. A peer's forward queues behind a command that waits or is
unanswered; else a register forward is answered (a write to IRQ_EN alone takes it, DENIED while PEER_CMD is clear), and a forwarded NOP answers
CFG_EPOCH and PIDX. IMDAL_JOIN sends a forward to a device of the segment and completes with its answer, STATE where none comes; only an OK steps
CFG_EPOCH. -/
def Obligations.Forwards : Prop :=
  (∀ (s : State) (q : RingIx) (f : ForwardIn),
      ((s.imdal.state ≠ .enrolled ∨ s.imdal.segment.getLsbD q.val = false) → exec (.forwardReceived q f) s = .next s) ∧
      (s.imdal.state = .enrolled → s.imdal.segment.getLsbD q.val = true →
      let v := s.onImdal fun m => { m with served := m.served + 1 }
      let free := fun w => Config.forwardWord w v.imdal.served.toNat
      let tells := fun (t : State) (st : BitVec 4) (r0 r1 : Word) (data : List Byte) =>
        let a : ForwardAnswer := { status := st, res0 := r0, res1 := r1, epoch := s.cmd.epoch, data := data }
        t.cmd = { s.cmd with answer := some a, answers := [] } ∧
          t.imdal = (s.cmd.answers ++ [(q, a)]).foldl (fun m x => m.put m.fwdSide (.answer x.1 x.2)) v.linked
      (BitVec.ofNat 3 f.target.val ≠ s.imdal.index →
        Does (.forwardReceived q f) s [.imdal] fun t => t.imdal = s.linked.put (1 - f.side.val) (.forward q f.target f.body)) ∧
      (BitVec.ofNat 3 f.target.val = s.imdal.index →
        ((s.cmd.waiting ≠ none ∨ s.cmd.peerQ ≠ [] ∨ s.peerBusy = true) →
          DoesR (.forwardReceived q f) s [.cmd, .power] fun t => t.cmd = { s.cmd with peerQ := s.cmd.peerQ ++ [(q, f.body)] }) ∧
        (s.cmd.waiting = none → s.cmd.peerQ = [] → s.peerBusy = false →
          (s.cmd.peerCmd = false → (∀ c d, f.body ≠ .command c d) →
            Does (.forwardReceived q f) s [.cmd, .imdal] fun t => tells t 8 (free 0) (free 1) []) ∧
          (s.cmd.peerCmd = true → ∀ k : Fin 53, f.body = .regRead k → k.val ≠ regWinData → k.val ≠ regWinDataInc →
            Does (.forwardReceived q f) s [.time, .hbi, .tiles, .mem, .power, .boot, .cmd, .imdal] fun t =>
              tells t 0 (s.regValue k.val) (free 1) []) ∧
          (s.cmd.peerCmd = true → ∀ w, f.body = .regWrite 7 w →
            Does (.forwardReceived q f) s [.hbi, .cmd, .imdal] fun t =>
              t.hbi = { s.hbi with irqEn := w.setWidth 16 } ∧ tells t 0 (free 0) (free 1) []) ∧
          (s.cmd.peerCmd = true → ∀ c d, f.body = .command c d → c.op = 0 → zeroFrom c 0 → c.chk = false → s.boot.boot = 4 →
            s.domOn dMgmt = true → badWords s.mem.badSram peerResultAt 128 = [] →
            DoesR (.forwardReceived q f) s [.cmd, .mem, .imdal, .power] fun t =>
              t.mem = s.mem.putSram peerParamAt (padTo 128 d) ∧
                tells t 0 s.cmd.epoch s.pidx (Memory.readBytes s.mem.sram peerResultAt 128)))))) ∧
  (∀ (s : State) (src : CmdSrc) (c : CmdWords),
      (s.Offers src c → c.op = 0x50 → joinArgsOk (s.checking src c) c = true → 2 ≤ fld c.a0 0 3 → s.imdal.state = .enrolled →
        s.imdal.segment.getLsbD (fld c.a0 8 3) = true →
        let u := s.checking src c
        let n := (u.project u.effectOrd).imdal
        let target : RingIx := Fin.ofNat 8 (fld c.a0 8 3)
        n.state = .enrolled → n.segment.getLsbD (fld c.a0 8 3) = true →
        DoesR (.imdalJoin src) s [.cmd, .imdal, .power, .mem] fun t =>
          t.imdal = s.linked.put s.imdal.fwdSide (.forward (Fin.ofNat 8 s.imdal.index.toNat) target (forwardOf u c)) ∧
          t.cmd = { u.cmd with
            fwd := s.cmd.fwd ++ [ForwardOut.mk (srcOf src) c target (BitVec.ofNat 3 (fld c.a0 0 3)) (forwardOf u c) s.imdal.fwdSide] } ∧
          t.power.fw = s.power.fw ||| domBit dMgmt ∧
          (fld c.a0 0 3 ≠ 2 → t.mem = s.mem) ∧
          ∀ b, fld c.a0 0 3 = 2 → blockAt [] c.a1 292 = some b → t.mem = (u.blockMet b 160).mem) ∧
      (∀ a : AnswerIn, BitVec.ofNat 3 a.target.val ≠ s.imdal.index →
        Does (.forwardComplete (some a)) s [.imdal] fun t => t.imdal = s.linked.put (1 - a.side.val) (.answer a.target a.body)) ∧
      (∀ f rest, s.cmd.fwd = f :: rest → f.src = srcOf src → f.cmd = c → s.cmd.takenBase = s.cmd.base →
        (src = .mailbox → s.cmd.mbox = none) →
        Rejects (.forwardComplete none) s src c stState (fun m => { m with fwd := rest }) ∧
        ∀ a : AnswerIn, BitVec.ofNat 3 a.target.val = s.imdal.index →
          let r := a.body
          let k := fun m : CmdPath =>
            if r.status = 0 then CmdPath.accepts src c s.effectOrd [] { m with fwd := rest }
            else CmdPath.rejected src c r.status.toNat s.pidx { m with fwd := rest }
          (f.op ≠ 2 → Answers (.forwardComplete (some a)) s src c r.status.toNat r.res0 r.res1 k s.mem [] fun _ => True) ∧
          (∀ b, f.op = 2 → blockAt [] c.a1 292 = some (.sram b) →
            Answers (.forwardComplete (some a)) s src c r.status.toNat r.res0 r.res1 k
              ((s.mem.putSram (b + 0xA0) (padTo 128 r.data)).putSram (b + 0x120) (leBytes 4 r.epoch.toNat)) [] fun _ => True)))

/-! ### Shelf Serial Port (chapters 02, 14) -/

/-- While MGMT answers, a read returns bytes from the pointer onward, which wraps within its range, and a write of pointer 0x40 with three bytes
sets SHELF_VOTE. The Bell acknowledges at its own address while MGMT is ON, wakes MGMT otherwise, and leaves other addresses alone. -/
def Obligations.ShelfPort : Prop :=
  ∀ s : State,
    (∀ n, s.shelfReady = true → s.shelf.ptr.toNat ≤ 0x42 →
      Does (.sspRead n) s [.shelf] fun t =>
        t.shelf = { s.shelf with out := t.shelf.out, ptr := Nat.repeat readNext n s.shelf.ptr, ack := true } ∧
          t.shelf.out.length = n ∧ ∀ i, i < n → t.shelf.out[i]? = some (s.shelfByte (Nat.repeat readNext i s.shelf.ptr))) ∧
    (∀ b0 b1 b2 : Byte, s.shelfReady = true →
      DoesR (.sspWrite [0x40, b0, b1, b2]) s [.power, .shelf] fun t =>
        t.shelf = { s.shelf with ptr := 0x43, ack := true } ∧ t.power.shelf = (b2 ++ b1 ++ b0).setWidth 22 ||| 1 ∧
          t.power.shelfEff = s.power.shelfEff ||| t.power.shelf ∧ t.power.host = s.power.host) ∧
    (∀ p : Byte, s.shelfReady = true → p.toNat ≤ 0x42 →
      Does (.sspWrite [p]) s [.shelf] fun t => t.shelf = { s.shelf with ptr := p, ack := true }) ∧
    (∀ a : BitVec 7, s.hbi.ready = true →
      (a = s.sspAddress → s.domOn dMgmt = true →
        Does (.bell a) s [.shelf] fun t => t.shelf = { s.shelf with ack := !s.shelf.stale }) ∧
      (a = s.sspAddress → s.domOn dMgmt = false →
        DoesR (.bell a) s [.power, .shelf] fun t => t.power.self.getLsbD dMgmt = true ∧
          t.shelf = { s.shelf with
            ack := !(s.mgmtOff || s.shelf.stale)
            stretch := s.shelf.stretch || !(s.mgmtOff || s.shelf.stale)
            stale := s.mgmtOff || s.shelf.stale }) ∧
      (a ≠ s.sspAddress → Does (.bell a) s [] fun _ => True))

/-! ### Timebase (chapter 03) -/

/-- The timebase at a tick: 48-bit seconds, nanoseconds and a 24-bit fraction gain TIME_INCR together, with a carry into the seconds at one second; MONO
gains the same. At reset all three parts are zero. -/
def Obligations.TimebaseTick : Prop :=
  (∀ t : Time, t.ns < 1000000000 →
    let u := t.ticksOn 1
    let value := fun x : Time => x.total * 2 ^ 24 + x.frac.toNat
    let mono := fun x : Time => x.mono.toNat * 2 ^ 24 + x.monoFrac.toNat
    u.ns < 1000000000 ∧ value u = (value t + t.incr.toNat) % (2 ^ 48 * 1000000000 * 2 ^ 24) ∧
      mono u = (mono t + t.incr.toNat) % 2 ^ 88 ∧ u.incr = t.incr ∧ u.ord = t.ord ∧ u.pidx = t.pidx) ∧
  State.reset.time.sec = 0 ∧ State.reset.time.ns = 0 ∧ State.reset.time.frac = 0

/-- Timebase states: losing REFCLK enters UNTRUSTED at the nominal rate; a slew that has removed its residual ends at the rate about which it
slewed; the lock conditions lead to LOCKED; lost ring time leads from LOCKED and FREE to HOLDOVER at HO_RATE. The timebase itself is not stepped by any of them. -/
def Obligations.TimebaseStates : Prop :=
  ∀ s : State,
    (s.time.state ≠ 2 →
      DoesR .refclkLoss s [.time] fun t => t.time = { s.time with
        state := 2, incr := 0x28000000#32, slew := false, residual := 0, slewed := 0, refclkOk := false, refclkBack := false, goodFrom := none, badRun := 0 }) ∧
    Does .refclkRestored s [.time] (fun t => t.time = { s.time with refclkBack := decide (s.time.state = 2) }) ∧
    (s.time.slew = true → s.time.residual.natAbs * 2 ^ 24 ≤ s.time.slewed.natAbs →
      Does .slewComplete s [.time, .hbi] fun t =>
        t.time = { s.time with slew := false, residual := 0, slewed := 0, incr := s.time.slewBase } ∧ t.hbi = (s.raise irqTime).hbi) ∧
    ((s.time.state = 1 ∨ s.time.state = 3) →
      ((s.time.refAct = 1 ∧ ∃ g, s.time.goodFrom = some g ∧ g + 8000000000 ≤ s.time.mono.toNat) ∨
        (s.time.refAct = 2 ∧ ∃ g, s.time.goodFrom = some g ∧ g + 1000000000 ≤ s.time.mono.toNat) ∨
        (s.time.refAct = 3 ∧ s.imdal.aligned = true ∧ s.imdal.hrState = 0 ∧ s.imdal.offsetPs.natAbs ≤ 2000)) →
      DoesR .lockAchieved s [.time] fun t =>
        t.time = { s.time with state := 0, lockedOnce := true, hoHist := [], badRun := 0 } ∧
          t.hbi = (s.raise irqTime).hbi) ∧
    (s.time.refAct = 3 → (s.time.state = 0 ∨ s.time.state = 3) →
      DoesR (.referenceLoss .imdal) s [.time, .imdal] fun t =>
        t.time = { s.time with
          state := 1, hoFrom := s.time.mono.toNat, incr := s.time.hoRate, slew := false, residual := 0, slewed := 0 } ∧
          t.imdal = { s.imdal with heard := none, aligned := false })

/-- Word clock: a frequency within 0.1 % of 48 kHz after 1 s of good edges qualifies WCLK_IN and, chosen alone by REF_SEL, brings it into use; a
glitch ends that, and LOCKED goes to HOLDOVER at HO_RATE; an edge's error against the nearest sample instant, and a Sync in use, give the
measured offset. -/
def Obligations.ReferenceEvents : Prop :=
  ∀ s : State,
    (∀ f : Word, 47952000 ≤ f.toNat → f.toNat ≤ 48048000 → s.time.wclkOk = false →
      (∃ g, s.time.wclkFrom = some g ∧ g + 1000000000 ≤ s.time.mono.toNat) →
      DoesR (.wclkQualified f) s [.time] fun t => t.time.wclkFreq = f ∧ t.time.wclkOk = true ∧ t.time.sec = s.time.sec ∧ t.time.ns = s.time.ns ∧
        (s.follower = false → s.time.refSel = 2 → t.time.refAct = 2)) ∧
    (s.time.wclkOk = true →
      DoesR .wclkGlitch s [.time] fun t => t.time.wclkOk = false ∧ t.time.wclkFrom = none ∧ t.time.sec = s.time.sec ∧ t.time.ns = s.time.ns ∧
        (s.follower = false → s.time.refSel = 2 → s.time.refAct = 2 → s.time.state = 0 →
          t.time.refAct = 0 ∧ t.time.state = 1 ∧ t.time.incr = s.time.hoRate)) ∧
    (∀ e : Int, s.time.wclkOk = true → s.time.refAct = 2 → s.time.state ≠ 2 →
      DoesR (.wclkInEdge e) s [.time] fun t => t.time.offset = BitVec.ofInt 32 (edgeError e) ∧ (e.natAbs ≤ 10416 → edgeError e = e) ∧
        t.time.sec = s.time.sec ∧ t.time.ns = s.time.ns) ∧
    (∀ (p : NetIx) (e : Int) (gm : Nat), s.domOn dMgmt = true → (s.netP p).state = .up → (s.netP p).ptpRole ≠ 0 → s.ptpServes p = true →
      s.time.refAct = 1 → s.time.ptpGm = gm → s.time.state ≠ 2 → -(2 ^ 31) ≤ e → e < 2 ^ 31 →
      DoesR (.ptpMessageReceived p (.sync e gm)) s [.time] fun t =>
        t.time.offset = BitVec.ofInt 32 e ∧ t.time.sec = s.time.sec ∧ t.time.ns = s.time.ns)

/-- Capture and start trigger: an armed pin captures within 10 ns; START_IN sets the point at the first sample instant at least 100 µs ahead; a ring
point travels on, and one in the future, or later in this Period, is taken, a late one counted; the ARMED ports start in the Period of the point; at the point the
trigger is gone and START_OUT goes high. -/
def Obligations.CaptureAndTrigger : Prop :=
  ∀ s : State,
    let starts := fun (t : State) (g : Trigger) =>
      ∀ p ∈ portsOf g.ports, (s.dapP p).state = .armed → (t.dapP p).state = .run ∨ (t.dapP p).state = .muted
    (∀ pin, s.time.arm = true → s.time.trigSel = capCode pin →
      Does (.pinCapture pin) s [.time, .hbi, .draw] fun t => t.hbi = (s.raise irqTime).hbi ∧
        ∃ n : Nat, (n : Int) ≤ s.time.total + 10 ∧ (s.time.total : Int) - 10 ≤ n ∧
          t.time = { s.time with
            arm := false
            capNs := BitVec.ofNat 30 (n % 1000000000)
            capSec := BitVec.ofNat 48 (n / 1000000000)
            capValid := true
            capUntr := decide (s.time.state = 2) }) ∧
    (∀ g, s.time.trig = some g → g.mode = 1 → g.fromOrd ≤ s.time.ord → g.point = none →
      Does .startInEdge s [.time, .hbi, .dap, .imdal, .mem, .trace, .draw] fun t =>
        (∀ p, p ∉ portsOf g.ports → t.dapP p = s.dapP p) ∧ ∃ o k, s.time.ord ≤ o ∧ k < 24 ∧
        (s.time.inPeriod + 100000) * 24 ≤ ((o - s.time.ord) * 24 + k) * 500000 ∧
        ((o - s.time.ord) * 24 + k) * 500000 < (s.time.inPeriod + 100000) * 24 + 500000 ∧
        t.time = { s.time with trig := some { g with point := some (o, k) } } ∧
        (t.imdal = if g.fwd then s.pointPlaced (s.pidxAt o) k else s.imdal) ∧
        (s.time.ord < o → SameOutside [.time, .imdal] s t) ∧
        (o = s.time.ord → starts t g)) ∧
    (∀ (w : PointIn) (k : Fin 24),
      let on := if s.imdal.trigOut = some (w.pidx, k.val) then s.imdal else s.linked.put (1 - w.side.val) (.trigger w.pidx k.val)
      (s.time.trig = none → Does (.triggerPointReceived w k) s [.imdal] fun t => t.imdal = on) ∧
      ∀ g, s.time.trig = some g → g.mode = 2 → g.fromOrd ≤ s.time.ord →
        (inFuture w.pidx s.time.pidx = true →
          Does (.triggerPointReceived w k) s [.time, .imdal] fun t =>
            t.time = { s.time with trig := some { g with point := some (s.time.ord + (w.pidx - s.time.pidx).toNat, k.val) } } ∧
              t.imdal = on) ∧
        (w.pidx = s.time.pidx → s.sampleNow < k.val →
          Does (.triggerPointReceived w k) s [.time, .hbi, .dap, .mem, .trace, .draw, .imdal] fun t =>
            t.time = { s.time with trig := some { g with point := some (s.time.ord, k.val) } } ∧ starts t g ∧
              (∀ p, p ∉ portsOf g.ports → t.dapP p = s.dapP p) ∧ t.imdal = on) ∧
        (inFuture w.pidx s.time.pidx = false → (w.pidx = s.time.pidx → k.val ≤ s.sampleNow) →
          Does (.triggerPointReceived w k) s [.time, .hbi, .imdal] fun t =>
            t.time = { s.time with startMiss := satAdd s.time.startMiss 1 } ∧ t.hbi = (s.raise irqDap).hbi ∧ t.imdal = on)) ∧
    (∀ g k, s.time.trig = some g → g.point = some (s.time.ord, k) → g.fromOrd ≤ s.time.ord →
      Does .startTrigger s [.time, .hbi, .dap, .mem, .trace, .draw] fun t =>
        t.time.trig = none ∧ t.time.startPidx = s.pidx ∧ t.time.startSample = BitVec.ofNat 5 k ∧ t.time.startSource = g.mode ∧
          t.time.startFired = satAdd s.time.startFired 1 ∧ t.time.startOut = some (s.pidx, k) ∧ t.time.ord = s.time.ord ∧
          t.time.startLevel = true ∧ starts t g ∧
          ∀ p, p ∉ portsOf g.ports → t.dapP p = s.dapP p)

/-! ### Line ports (chapter 06) -/

/-- Ports between RAMP, ON and FOLD, and into FAULT by the gate or the FET: the state, its cause and its PIDX change for that port alone; a fault
enters the watch log. -/
def Obligations.PortTransitions : Prop :=
  ∀ (s : State) (p : PortIx),
    let goes := fun (row : Instr) (st : PortState) (cause : BitVec 8) =>
      DoesR row s [.line] fun t =>
        (t.port p).state = st ∧ (t.port p).cause = cause ∧ (t.port p).changed = s.pidx ∧ s.PortOnly p t ∧
          (st = .fault → ∃ e ∈ t.line.log, e.kind = 0x10 ∧ e.port = BitVec.ofNat 8 p ∧ e.detail = cause.setWidth 16 ∧ e.pidx = s.pidx)
    (∀ mv : Int, (s.port p).state = .ramp → (s.targetMv p : Int) - 500 ≤ mv → mv ≤ s.targetMv p + 500 →
      goes (.rampComplete p mv) .on 0) ∧
    ((s.port p).state = .ramp → (s.port p).rampOrd + (s.port p).rampT + 100 ≤ s.time.ord → goes (.rampTimeout p) .fold 0) ∧
    ((s.port p).state = .on → 3 ≤ (s.port p).cregRun → goes (.foldEntry p) .fold 0) ∧
    ((s.port p).state = .fold → 39 ≤ (s.port p).vregRun → goes (.foldExit p) .on 0) ∧
    (((s.port p).state = .probe ∨ poweredSt (s.port p).state = true) → goes (.gateFault p) .fault 9) ∧
    (∀ off, (s.port p).gateOff = some off → off + 1000000 ≤ s.time.mono.toNat → 200 < (s.port p).i10 →
      ¬((s.port p).state = .fault ∧ (s.port p).cause = 10) → goes (.fetFault p) .fault 10)

/-- Surges: an opening whose voltage or current change trips the comparator is counted and measured, and the ninth in 2,000 boundaries is FAULT; other
readings open nothing. The reconnection sets the setpoint at the loop's present voltage; recovery within 2 ms ends the span, and past 2 ms the port
ramps again. -/
def Obligations.Surges : Prop :=
  ∀ (s : State) (p : PortIx),
    let x := s.port p
    let recent := x.surgeOrds.filter fun o => decide (s.time.ord < o + 2000)
    let now : Rat := (max 0 (Config.loopNow p s.monoNs) : Int)
    (∀ a, (poweredSt x.state = false ∨ surgeTrips (s.portCfg p) a = false) → exec (.surgeOpening p a) s = .next s) ∧
    (∀ a, poweredSt x.state = true → surgeTrips (s.portCfg p) a = true → recent.length ≤ 7 →
      DoesR (.surgeOpening p a) s [.line, .power] fun t =>
        (x.state ≠ .hold → t.power = s.power) ∧
        (t.port p).state = x.state ∧ (t.port p).mv = a.mv ∧ (t.port p).surges = satAdd x.surges 1 ∧
          (t.port p).surgeOrds = s.time.ord :: recent ∧ (t.port p).events = x.events + 1 ∧
          (t.port p).gateOff = some s.time.mono.toNat ∧ (deliversSt x.state = true → (t.port p).spans = openSpan s.sampleCeil x.spans) ∧
          (x.state ≠ .ramp → (t.port p).surgeFrom = some (x.surgeFrom.getD s.time.mono.toNat)) ∧ s.PortOnly p t) ∧
    (∀ a, poweredSt x.state = true → surgeTrips (s.portCfg p) a = true → 8 ≤ recent.length →
      DoesR (.surgeOpening p a) s [.line, .power] fun t =>
        (t.port p).state = .fault ∧ (t.port p).cause = 7 ∧ (t.port p).surges = satAdd x.surges 1 ∧ s.PortOnly p t) ∧
    (x.state = .ramp → x.gateOff ≠ none → 0 < x.rampStep → s.time.inPeriod < 500000 →
      Does (.surgeReramp p) s [.line] fun t =>
        (t.port p).gateOff = none ∧ (t.port p).rampOrd = s.time.ord ∧ (t.port p).state = .ramp ∧ (t.port p).setAt s.time.inPeriod = now ∧
          s.PortOnly p t) ∧
    (∀ from_, x.surgeFrom = some from_ → (x.state = .on ∨ x.state = .fold ∨ x.state = .hold) →
      (s.time.inPeriod < 500000 →
        Does (.surgeReramp p) s [.line] fun t =>
          (t.port p).gateOff = none ∧ (t.port p).reramp = true ∧ (t.port p).surgeFrom = some from_ ∧ (t.port p).state = x.state ∧
            (t.port p).setAt s.time.inPeriod = now ∧ s.PortOnly p t) ∧
      (s.time.mono.toNat ≤ from_ + 2000000 →
        let goal : Rat := if x.state = .hold then s.holdTarget x else s.targetMv p
        Does (.surgeRecovered p) s [.line] fun t =>
          t.port p = { x with
            surgeFrom := none, reramp := false, gateOff := none, spans := (t.port p).spans, driveEv := (t.port p).driveEv
            setMv := goal, setFrom := goal, bends := [] } ∧ s.PortOnly p t) ∧
      (from_ + 2000000 ≤ s.time.mono.toNat →
        DoesR (.surgeTimeout p) s [.line] fun t =>
          (t.port p).state = .ramp ∧ (t.port p).cause = 0 ∧ (t.port p).surgeFrom = none ∧ (t.port p).rampOrd = s.time.ord ∧ s.PortOnly p t))

/-- The voltage ladder and the budget: a step below its threshold is entered at once and sheds its class; it is left, the ports free to return, after
100 Periods above its threshold with no higher step in force; over budget the next port by class and number is shed, and returns after 2,000 fits. -/
def Obligations.LadderAndBudget : Prop :=
  ∀ s : State,
    (∀ (i : Fin 5) (mv : Nat), s.line.ladderEn = true → s.line.steps.getLsbD i = false → mv < s.line.enterMv i →
      let sheds := fun p => 2 ≤ i.val ∧ (s.portCfg p).cls.toNat = 5 - i.val ∧ (poweredSt (s.port p).state = true ∨ (s.port p).state = .shed)
      DoesR (.ladderEnter i mv) s [.line, .power] fun t =>
        t.line.steps = s.line.steps ||| BitVec.ofNat 5 (2 ^ i.val) ∧ t.hbi.irqStat.getLsbD irqPwr = true ∧
          ∀ p, p < 48 →
            (sheds p → (t.port p).state = .shed ∧ (t.port p).cause = 0x10 ∧ (t.port p).byLadder = true) ∧
            (¬sheds p → (i.val ≠ 1 ∨ poweredSt (s.port p).state = false) → t.port p = s.port p) ∧
            (i.val = 1 → t.port p = { s.port p with
              setMv := (t.port p).setMv, setFrom := (t.port p).setFrom, bends := (t.port p).bends, slewing := (t.port p).slewing }) ∧
            ((s.port p).later = none → t.portCfg p = s.portCfg p)) ∧
    (∀ i : Fin 5, s.line.steps.getLsbD i = true → s.line.steps.toNat < 2 ^ (i.val + 1) → 100 ≤ s.line.above.getD i 0 →
      DoesR (.ladderLeave i) s [.line] fun t =>
        t.line.steps = s.line.steps &&& ~~~(BitVec.ofNat 5 (2 ^ i.val)) ∧ t.hbi.irqStat.getLsbD irqPwr = true ∧
          ∀ p, p < 48 → (t.port p).state = (s.port p).state ∧
            (t.port p).byLadder = ((s.port p).byLadder &&
              (!(decide (2 ≤ i.val) && decide ((s.port p).ladderCls = 5 - i.val)) || t.line.sheds (s.portCfg p).cls.toNat))) ∧
    (s.line.overBudget = true →
      (∀ p, s.shedNext = some p →
        DoesR .budgetShed s [.line] fun t =>
          (t.port p).state = .shed ∧ (t.port p).cause = 0x11 ∧ (t.port p).byBudget = true ∧ (t.port p).shedMw = s.portMw p ∧
            t.line.draws = [] ∧ t.line.shedOrd = some s.time.ord ∧ ∀ q, q ≠ p → t.port q = s.port q) ∧
      (s.shedNext = none → s.line.over0 = false →
        DoesR .budgetShed s [.line] fun t => t.line = { s.line with over0 := true } ∧ t.hbi.irqStat.getLsbD irqPwr = true)) ∧
    (∀ p, s.returnNext = some p → s.line.fitPort = some p → 2000 ≤ s.line.fitRun →
      Does .budgetReturn s [.line] fun t =>
        t.port p = { s.port p with
          byBudget := false
          cause := if (s.port p).state = .shed ∧ (s.port p).byLadder = true then 0x10 else (s.port p).cause } ∧
          t.line = { s.line with port := t.line.port, fitRun := 0 } ∧ ∀ q, q ≠ p → t.port q = s.port q)

/-! ### Line watch (chapter 07) -/

/-- Attendance: a qualified step settles the current at its mean, and the first join of 25 to 60 mA makes class 0; a current below 12 mA after the
entry to ON counts no station. Calls: a tone held 40 Periods or a DC state held 20 qualifies and ends by the same durations. -/
def Obligations.AttendanceAndCalls : Prop :=
  ∀ (s : State) (p : PortIx),
    let w := s.watch p
    let logs := fun (t : State) (kind : BitVec 8) (detail : BitVec 16) =>
      ∃ e ∈ t.line.log, e.kind = kind ∧ e.port = BitVec.ofNat 8 p ∧ e.detail = detail
    (∀ st i, w.step = some st → w.is_ = some i → stepQualified st = true →
      DoesR (.attendanceStep p) s [.line] fun t =>
        (t.watch p).step = none ∧ (t.watch p).is_ = some (meanOf st.means) ∧ (t.watch p).means = st.means ∧ s.PortOnly p t ∧
          (w.count = some 0 → w.draws = [none, none, none, none] → w.counts = [0, 0, 0, 0] → 250 ≤ meanOf st.means - i →
            meanOf st.means - i ≤ 600 →
            (t.watch p).count = some 1 ∧ (t.watch p).draws = [some (meanOf st.means - i), none, none, none] ∧
              (t.watch p).attPidx = st.pidx ∧ logs t 3 0)) ∧
    (∀ i, w.entry = true → w.is_ = some i → i < 120 →
      DoesR (.attendanceEntryCount p) s [.line] fun t =>
        (t.watch p).count = some 0 ∧ (t.watch p).counts = [0, 0, 0, 0] ∧ (t.watch p).entry = false ∧ logs t 5 0 ∧ s.PortOnly p t) ∧
    (deliversSt (s.port p).state = true →
      (w.tone = false → 40 ≤ w.toneOn →
        DoesR (.callQualified p .tone) s [.line] fun t =>
          t.watch p = { w with tone := true, toneOff := 0, callNow := true } ∧ logs t 0x20 1 ∧ t.hbi.irqStat.getLsbD irqCall = true ∧ s.PortOnly p t) ∧
      (w.dc = false → 20 ≤ w.dcOn →
        DoesR (.callQualified p .dc) s [.line] fun t =>
          t.watch p = { w with dc := true, dcOff := 0, callNow := true } ∧ logs t 0x20 2 ∧ t.hbi.irqStat.getLsbD irqCall = true ∧ s.PortOnly p t)) ∧
    (w.tone = true → 40 ≤ w.toneOff →
      DoesR (.callEnded p .tone) s [.line] fun t =>
        t.watch p = { w with tone := false, toneOn := 0, toneOff := 0, callNow := w.dc } ∧ logs t 0x21 1 ∧ t.hbi.irqStat.getLsbD irqCall = true ∧
          s.PortOnly p t) ∧
    (w.dc = true → 20 ≤ w.dcOff →
      DoesR (.callEnded p .dc) s [.line] fun t =>
        t.watch p = { w with dc := false, dcOn := 0, dcOff := 0, callNow := w.tone } ∧ logs t 0x21 2 ∧ t.hbi.irqStat.getLsbD irqCall = true ∧
          s.PortOnly p t) ∧
    (∀ h, w.host = some h → h.until_ ≤ s.time.ord →
      Does (.hostCallEnd p) s [.line] fun t => t.line = (s.onWatch p fun _ => { w with host := none }).line)

/-- Faults, recovery, probing, sounding: a line fault whose condition stands is FAULT with its cause and measured value; a port that recovers in mode 0
goes OFF, in mode 2 or 3 it asks to ramp; a probe keeps its class and count; a sounding's points complete it, and a capacitance above 1.25 µF is FAULT. -/
def Obligations.FaultsAndSoundings : Prop :=
  ∀ (s : State) (p : PortIx),
    let w := s.watch p
    (∀ c v, s.faultStands p c v = true →
      DoesR (.lineFault p c v) s [.line] fun t =>
        (t.port p).state = .fault ∧ (t.port p).cause = BitVec.ofNat 8 (s.firstCause p (lineCause c)) ∧ s.PortOnly p t ∧
          ∃ e ∈ t.line.log, e.kind = 0x10 ∧ e.port = BitVec.ofNat 8 p ∧ e.detail = BitVec.ofNat 16 (s.firstCause p (lineCause c)) ∧
            e.value = v) ∧
    ((s.port p).state = .fault → (s.port p).ask = false → w.latched = false → (s.portCfg p).mode = 0 → s.recovers p = true →
      s.bankUp (bankOf p) = true →
      (w.recoveries.filter fun o => decide (s.time.ord < o + 120000)).length ≤ 4 →
      DoesR (.faultRecovery p) s [.line] fun t => (t.port p).state = .off ∧ (t.port p).cause = 0 ∧ s.PortOnly p t ∧
        ∃ e ∈ t.line.log, e.kind = 0x11 ∧ e.port = BitVec.ofNat 8 p ∧ e.detail = (s.port p).cause.setWidth 16) ∧
    ((s.port p).state = .fault → (s.port p).ask = false → w.latched = false → (s.portCfg p).mode.toNat ∈ [2, 3] → s.recovers p = true →
      s.bankUp (bankOf p) = true →
      (w.recoveries.filter fun o => decide (s.time.ord < o + 120000)).length ≤ 4 →
      DoesR (.faultRecovery p) s [.line] fun t =>
        t.port p = { s.port p with ask := true, events := (s.port p).events + 1 } ∧ s.PortOnly p t) ∧
    (∀ uv, s.probeDue p = true →
      DoesR (.probe p uv) s [.line] fun t =>
        (t.watch p).probe = probeClass uv ∧ (t.watch p).ohms = probeOhms uv ∧ (t.port p).state = (s.port p).state ∧ s.PortOnly p t ∧
          (t.watch p).probeRun = (if w.probe = probeClass uv ∧ w.probeRun ≠ 0 then w.probeRun + 1 else 1)) ∧
    (∀ points nf, (s.sounding p).status = 1 → (s.sounding p).startOrd + 399 ≤ s.time.ord → (s.sounding p).abort = 0 →
      let over_ := (s.portCfg p).autoComp = true ∧ 1250 < nf
      DoesR (.soundingComplete p points nf) s [.mix, .echo, .vad, .hum, .line] fun t =>
        (t.sounding p).status = 2 ∧ (t.sounding p).endPidx = s.pidx ∧ (t.sounding p).nf = nf ∧
          (t.sounding p).done = (s.sounding p).done + 1 ∧ (t.sounding p).points = (upto 32).map ((s.sounding p).point points) ∧
          (t.sounding p).eligible = (decide (w.attOrd < (s.sounding p).startOrd) && decide (w.termOrd ≤ (s.sounding p).startOrd)) ∧
          (t.port p).nf = nf ∧ (over_ → (t.port p).state = .fault ∧ (t.port p).cause = 11) ∧
          (¬over_ → (t.port p).state = (s.port p).state) ∧ s.PortOnly p t)

/-- Banks: a leakage reading at half the trip or more warns and is logged on its rise; 199 Periods at the trip begin localisation, which 4,000 Periods
later faults the port found, or every powered port; temperature warns and trips after its runs, and faults the ports that it reaches; a Proofing window
counts, and a hit votes; a quiet bank drops its vote. -/
def Obligations.Banks : Prop :=
  ∀ (s : State) (b : BankIx),
    let x := s.bank b
    let others := fun (t : State) => ∀ c, c ≠ b.val → t.bank c = s.bank c
    let logs := fun (t : State) (kind : BitVec 8) (detail : BitVec 16) =>
      ∃ e ∈ t.line.log, e.kind = kind ∧ e.port = BitVec.ofNat 8 (0x80 + b.val) ∧ e.detail = detail
    (∀ leak, DoesR (.leakageChange b leak) s [.line] fun t =>
      t.bank b = { x with
        leak := leak, leakWarn := decide (s.line.leakTrip ≤ 2 * leak), localising := x.localising && decide (s.line.leakTrip ≤ leak)
        leakRun := if s.line.leakTrip ≤ leak then x.leakRun else 0 } ∧
        (∀ q, t.port q = s.port q) ∧ others t ∧
        (s.line.leakTrip ≤ 2 * leak → x.leakWarn = false → logs t 0x18 0) ∧
        ((2 * leak < s.line.leakTrip ∨ x.leakWarn = true) → t.line.log = s.line.log)) ∧
    (x.localising = false → s.line.leakTrip ≤ x.leak → 199 ≤ x.leakRun →
      DoesR (.leakLocalisation b) s [.line] fun t => t.bank b = { x with
        localising := true, locOrd := s.time.ord, locN := 0, locX := 0, locXX := 0, locS := List.replicate 8 (0, 0, 0) } ∧
        logs t 0x18 1 ∧ (∀ q, t.port q = s.port q) ∧ others t) ∧
    (∀ leak, x.localising = true → x.locOrd + 4000 ≤ s.time.ord →
      let hit := ((bankPorts b).filter fun q => poweredSt (s.port q).state).find? fun q => x.explains (q % 8)
      DoesR (.leakLocalised b leak) s [.line] fun t =>
        (t.bank b).localising = false ∧ (t.bank b).leak = leak ∧ others t ∧
          (leak < s.line.leakTrip → ∀ q, t.port q = s.port q) ∧
          ∀ q, q < 48 → s.line.leakTrip ≤ leak →
            (q / 8 = b.val → poweredSt (s.port q).state = true → (∀ i, hit = some i → q = i) →
              (t.port q).state = .fault ∧ (t.port q).cause = BitVec.ofNat 8 (s.firstCause q 3)) ∧
            ((q / 8 ≠ b.val ∨ poweredSt (s.port q).state = false ∨ ∃ i, hit = some i ∧ q ≠ i) → t.port q = s.port q)) ∧
    (DoesR (.bankTemperature b) s [.line] fun t =>
      t.bank b = { x with tempWarn := x.tempWarn || decide (1999 ≤ x.warnRun), tempTrip := x.tempTrip || decide (1999 ≤ x.tripRun) } ∧
        others t ∧ (1999 ≤ x.warnRun → x.tempWarn = false → (∀ q, q / 8 = b.val → s.tempStands q = false) → x.tripRun < 1999 → logs t 0x19 0) ∧
        ∀ q, q < 48 →
          (q / 8 = b.val → s.tempStands q = true → (t.port q).state = .fault ∧ (t.port q).cause = BitVec.ofNat 8 (s.firstCause q 6)) ∧
          ((q / 8 ≠ b.val ∨ s.tempStands q = false) → t.port q = s.port q)) ∧
    (∀ (meas : List (Fin 8 × ProofMeas)) (bm : BankMeas), (s.dom (dBank b)).state = .proofing → x.winRun < x.cycle s.time.mono.toNat →
      DoesR (.proofingWindow b meas bm) s [.line, .power] fun t =>
        (t.bank b).windows = x.windows + 1 ∧ (t.bank b).temp = bm.temp ∧ (t.bank b).leak = bm.leak ∧
          (t.bank b).interval = x.intervalNext.getD x.interval ∧ (t.bank b).intervalNext = none ∧ others t ∧
          (∀ q, (t.port q).state = (s.port q).state) ∧
          (bankHits s.line bm ≠ 0 → (t.bank b).hitVote = true ∧ t.power.self.getLsbD (dBank b) = true) ∧
          (meas = [] → bankHits s.line bm = 0 → (t.bank b).hitVote = x.hitVote ∧ t.power = s.power ∧ ∀ q, t.port q = s.port q)) ∧
    (x.hitVote = true → 2000 ≤ x.quiet →
      Does (.proofingQuiet b) s [.line] fun t => t.line = (s.onBank b fun _ => { x with hitVote := false }).line)

/-! ### Tiles, Timetable, member (chapter 12) -/

/-- Tiles: a failure takes a WORKING or SUBSTITUTE tile OUT, RETIRED within an hour of its last failure, and a WORKING tile's work to a Substitute of
the pool, or without one to be placed anew; a failure by an uncorrectable error counts that error too; a Substitute catches up; a tile OUT for 2,000
boundaries is tested again; a self-test passes its tile, or has it RETIRED from the next boundary. -/
def Obligations.TileStates : Prop :=
  ∀ (s : State) (k : TileIx),
    let x := s.tile k
    let recent := match x.failOrd with | some o => decide (s.time.ord ≤ o + 7200000) | none => false
    let counted := fun (t : State) (cause : FailCause) =>
      (cause ≠ .uncorrectable → t.mem = s.mem) ∧ (cause = .uncorrectable → t.mem.uncorr = satAdd s.mem.uncorr 1)
    let logs := fun (t : State) (outcome : BitVec 8) =>
      ∃ e ∈ t.tiles.log, e.tile = BitVec.ofNat 8 k ∧ e.outcome = outcome ∧ e.pidx = s.pidx
    (∀ cause, s.wingOn (wingOf k) = true → x.state = .substitute →
      DoesR (.tileFailure k cause) s [.tiles, .mem] fun t =>
        t.tile k = { x with
          state := if recent then .retired else .out
          catching := false
          cause := BitVec.ofNat 8 (causeCode cause)
          fails := satAdd x.fails 1
          failOrd := some s.time.ord
          failMono := s.monoNs } ∧ s.TileOnly k t ∧ logs t 3 ∧ (recent = true → logs t 5) ∧ counted t cause) ∧
    (∀ cause, s.wingOn (wingOf k) = true → x.state = .working → s.tiles.fallPeriod = false → s.pool ≠ [] →
      DoesR (.tileFailure k cause) s [.mix, .echo, .vad, .hum, .tiles, .mem] fun t =>
        (t.tile k).state = (if recent then .retired else .out) ∧ (t.tile k).fails = satAdd x.fails 1 ∧ counted t cause ∧
          ∃ u ∈ s.pool, t.tile u = { s.tile u with state := .working, catching := true, catchOrd := s.time.ord } ∧ ∀ j, j ≠ k.val → j ≠ u → t.tile j = s.tile j) ∧
    (∀ cause, s.wingOn (wingOf k) = true → x.state = .working → (s.tiles.fallPeriod = true ∨ s.pool = []) →
      DoesR (.tileFailure k cause) s [.mix, .echo, .vad, .hum, .tiles, .mem] fun t =>
        (t.tile k).state = (if recent then .retired else .out) ∧ (t.tile k).fails = satAdd x.fails 1 ∧ counted t cause ∧ s.TileOnly k t ∧
          t.tiles.replace = s.tiles.replace ++ (s.tiles.tt.legs.filter fun e => e.2 = k.val).map (·.1)) ∧
    (x.state = .working → x.catching = true → s.redoing k = [] → s.behind k = false →
      Does (.substituteCatchUp k) s [.tiles] fun t => t.tiles = (s.onTile k fun _ => { x with catching := false }).tiles) ∧
    (∀ o, x.state = .out → x.failOrd = some o → o + 2000 ≤ s.time.ord → s.wingOn (wingOf k) = true →
      Does (.retestTimer k) s [.tiles] fun t => t.tiles = (s.onTile k fun _ => { x with state := .test }).tiles) ∧
    (x.state = .test → s.wingOn (wingOf k) = true → k.val ∉ s.tiles.passed → k.val ∉ s.tiles.failedTest →
      Does (.selfTestComplete k true) s [.tiles] (fun t => t.tiles = { s.tiles with passed := s.tiles.passed ++ [k.val] }) ∧
      DoesR (.selfTestComplete k false) s [.tiles] fun t =>
        t.tile k = { x with cause := 5, fails := satAdd x.fails 1, failOrd := some s.time.ord } ∧
          t.tiles.failedTest = s.tiles.failedTest ++ [k.val] ∧ s.TileOnly k t ∧ logs t 5)

/-- A repack that is due, or to empty Wings, is laid out unless a Substitute still catches up beyond the boundary ahead. The member falls at the next boundary to the largest that the healthy tiles allow,
rises one step after 2,000 boundaries of enough proven tiles, and steps up at start-up. -/
def Obligations.RepackAndMember : Prop :=
  ∀ s : State, s.boot.boot = 4 →
    ((∀ k, k < 72 → s.holdsRepack k = false) →
      (s.tiles.repackDue = true →
        Does .repack s [.tiles] fun t => t.tiles = { s.tiles with next := some [], repackDue := false }) ∧
      (s.tiles.repackDue = false → s.tiles.evict ≠ [] →
        Does .repack s [.tiles] fun t => t.tiles = { s.tiles with next := some s.tiles.evict, evict := [] })) ∧
    (s.healthyTiles < requirement s.wingsNext →
      Does .memberFall s [.tiles] fun t => ∃ w, t.tiles = { s.tiles with nextWings := some w, riseRun := 0 } ∧
        w < s.wingsNext ∧ (w = 0 ∨ requirement w ≤ s.healthyTiles) ∧
        ∀ v ∈ [8, 4, 2, 1], w < v → v ≤ s.wingsNext → s.healthyTiles < requirement v) ∧
    (s.tiles.stepping = false → s.tiles.nextWings = none → s.tiles.wings < pinnedWings s.boot.memberPin → 2000 ≤ s.tiles.riseRun →
      requirement (memberUp s.tiles.wings) ≤ s.proven →
      Does .memberRise s [.tiles] fun t => t.tiles = { s.tiles with nextWings := some (memberUp s.tiles.wings), riseRun := 0 }) ∧
    (s.tiles.stepping = true → s.stepDue = true → s.tiles.nextWings = none →
      (s.tiles.wings < pinnedWings s.boot.memberPin → requirement (memberUp s.tiles.wings) ≤ s.proven →
        Does .memberStepUp s [.tiles] fun t =>
          t.tiles = { s.tiles with nextWings := some (memberUp s.tiles.wings), lostAt := s.tiles.testedAt.getD s.tiles.lostAt }) ∧
      ((pinnedWings s.boot.memberPin ≤ s.tiles.wings ∨ s.proven < requirement (memberUp s.tiles.wings)) →
        Does .memberStepUp s [.tiles] fun t => t.tiles = { s.tiles with stepping := false }))

/-! ### The Period and its fixed instants (chapter 01) -/

/-- The fixed instants of the compute Period lead its data from stage to stage: phase A of every Leg with its chain, the round, the decision of every
group (here on a device outside every segment, with no tile's work missing), the correction pass, the primary deadline. -/
def Obligations.ComputePeriod : Prop :=
  ∀ (s : State) (d : DataSet), s.mix.compute = some d →
    let keeps := fun (t : State) (e : DataSet) =>
      t.mix.compute = some e ∧ e.ord = d.ord ∧ e.pidx = d.pidx ∧ e.cfg = d.cfg ∧ e.inputs = d.inputs ∧ t.time.ord = s.time.ord
    (d.stage = 0 → s.delivered 1 d = true →
      Does (.partialSumCutoff []) s [.time, .hbi, .mix, .imdal, .mem, .trace] fun t =>
        ∃ e, keeps t e ∧ e.stage = 1 ∧ e.phaseA.map (·.1) = d.chainLegs ∧
          ((∀ x, s.mix.emit = some x → x.late = false) → t.imdal = s.imdal ∧
            t.mix.emit = s.mix.emit.map fun x => { x with summed := x.lost.filter fun k => !x.dead.contains k })) ∧
    (d.stage = 1 →
      Does .roundStart s [.time, .mix, .imdal, .mem, .trace] fun t =>
        ∃ e, keeps t e ∧ t.mix.emit = s.mix.emit ∧
          e = { d with
            stage := 2
            placed := true
            firsts := (s.ownFirsts false { d with stage := 2 }).foldl (fun f r => tins r.ringNo.val r f) d.firsts
            firstOut := e.firstOut } ∧
          ∀ g, (d.sharedGroups.find? fun x => x.2 = g.2) = some g → d.ownMissing g.1 = true → ∀ o ∈ e.firstOut, o.2 = g.2 → o ∈ d.firstOut) ∧
    (d.stage = 2 → d.lost = [] → d.dead = [] → s.mix.emit = none → s.inRounds = false →
      Does .admissionDecision s [.time, .mix, .mem, .trace] fun t =>
        ∃ e, keeps t e ∧ e.stage = 3 ∧ e.late = false ∧ ∀ g ∈ d.groupList, (e.decided.lookup g).isSome = true) ∧
    (d.stage = 3 →
      Does .correctionPass s [.time, .mix, .imdal, .mem, .trace] fun t =>
        ∃ e, keeps t e ∧ e.stage = 4 ∧ e.decided = d.decided ∧ e.sums = d.sums ∧ (d.sharedGroups = [] → d.recs = [] → d.corrs = [] → e = { d with stage := 4 }) ∧ (s.inRounds = false → t.imdal = s.imdal)) ∧
    (d.stage = 4 →
      Does (.primaryDeadline []) s [.time, .mix, .echo, .vad, .hum, .imdal, .mem, .trace] fun t =>
        (∃ e, keeps t e ∧ e.stage = 5) ∧ (s.inRounds = false → t.imdal = s.imdal))

/-- The emit Period and the work of single tiles: the late round decides every group (on a device outside every segment), the emit cut-off hands over the outputs, a
tile's finished work is no longer missing, and a reduction record joins the data whose tag it carries. -/
def Obligations.EmitPeriod : Prop :=
  ∀ (s : State) (d : DataSet),
    (s.mix.emit = some d → d.late = true → d.stage < 6 → s.mix.compute = none → d.lost = [] → d.dead = [] → s.inRounds = false →
      Does .lateRound s [.mix, .imdal] fun t =>
        ∃ e, t.mix.emit = some e ∧ e.ord = d.ord ∧ e.cfg = d.cfg ∧ ∀ g ∈ d.groupList, (e.decided.lookup g).isSome = true) ∧
    (s.mix.emit = some d → d.stage < 6 → d.late = false → d.lost = [] →
      Does .emitCutoff s [.time, .hbi, .mix, .echo, .vad, .hum, .dap, .media, .tiles, .mem, .trace, .draw] fun t =>
        ∃ e, t.mix.emit = some e ∧ e.stage = 6 ∧ e.ord = d.ord ∧ e.cfg = d.cfg ∧ t.mix.lastOut = e.outs ∧
          t.mix.rcOut = keepOut e s.mix.rcOut) ∧
    (∀ k : TileIx, s.mix.emit = none → s.mix.compute = some d → (s.tile k).state = .working → d.lost = [] → d.stage ≠ 2 →
      Does (.tileWorkComplete k) s [.mix] fun t =>
        t.mix = { s.mix with compute := some { d with done := if d.done.contains k.val then d.done else k.val :: d.done } }) ∧
    (∀ (side : SideIx) (r : RedRecord), s.carries side = true → s.mix.compute = some d → d.pidx.setWidth 8 = r.tag → d.stage < 2 →
      Does (.reductionRecordReceived side r) s [.mix, .imdal] fun t =>
        t.mix = { s.mix with compute := some (d.join side.val r) } ∧
          t.imdal = { s.imdal with passNs := if r.first then w32 (s.time.inPeriod - 220000) else s.imdal.passNs })

/-- A Period boundary: the boundary count steps by one, whatever the Period has gathered and measured, and the count of accepted configuration
commands starts again at zero. -/
def Obligations.PeriodBoundary : Prop :=
  ∀ (s : State) (m : PeriodInput), s.boot.held = false →
    Does (.periodBoundary m) s
      [.time, .hbi, .cmd, .mix, .echo, .vad, .hum, .line, .dap, .net, .media, .imdal, .tiles, .mem, .power, .boot, .trace, .shelf, .draw, .shown]
      fun t => t.time.ord = s.time.ord + 1 ∧ t.cmd.accepted = 0

/-! ### Cancellers, voice activity, hum (chapter 05) -/

/-- State timers of the chains: FAST ends when its time has run out; DOUBLE TALK ends in FAST or ADAPT; a block of 200 floor updates closes into the ring
of 16; a hum search ends with the strongest component, if one is loud enough; the hum canceller moves between SEARCH, LOCKED and COAST. Other chains stay. -/
def Obligations.ChainTimers : Prop :=
  ∀ (s : State) (l : LegIx),
    let c := s.lastChain l
    let moves := fun (row : Instr) (fe : Echo → Echo) (fv : Vad → Vad) (fh : Hum → Hum) =>
      Does row s [.mix, .echo, .vad, .hum] fun t =>
        t.echoL l = fe (s.echoL l) ∧ t.vadL l = fv (s.vadL l) ∧ t.humL l = fh (s.humL l) ∧
          t.lastChain l = (fe c.1, fv c.2.1, fh c.2.2) ∧
          ∀ j, j ≠ l.val → t.lastChain j = s.lastChain j ∧ t.echoL j = s.echoL j ∧ t.vadL j = s.vadL j ∧ t.humL j = s.humL j
    (c.1.state = .fast → c.1.fastLeft = 0 →
      moves (.fastExpiry l) (fun e => if e.state = .fast then { e with state := .adapt } else e) id id) ∧
    (c.1.state = .dt → c.1.dtLeft = 0 →
      moves (.doubleTalkExpiry l) (fun e => if e.state = .dt then { e with state := if e.fastLeft = 0 then .adapt else .fast } else e) id id) ∧
    (200 ≤ c.2.1.count →
      moves (.vadBlockClose l) id
        (fun v => match v.runMin with
          | some q => { v with ring := (q :: v.ring).take 16, runMin := none, count := 0 }
          | none => v) id) ∧
    (∀ (p : PortIx) (found : Option F32), l.val = p.val → c.2.2.state = .search → 8000 ≤ c.2.2.count → c.2.2.paused = false →
      moves (.humSearch p found) id id fun h => match c.2.2.strongest with
        | some f => { h with count := 0, f0 := f, loopI := f, heldF0 := f, heldRun := 0, running := true }
        | none => { h with count := 0 }) ∧
    (∀ p : PortIx, l.val = p.val → c.2.2.paused = false →
      (c.2.2.state = .search → c.2.2.running = true → 4000 ≤ c.2.2.heldRun →
        moves (.humStateTimer p .held) id id (Hum.move .held s.untrusted) ∧
        (Hum.move .held s.untrusted c.2.2).state = .locked ∧ (Hum.move .held s.untrusted c.2.2).freq = humMean c.2.2.hist) ∧
      (c.2.2.state = .locked → 2000 ≤ c.2.2.lowRun →
        moves (.humStateTimer p .lowLevel) id id (Hum.move .lowLevel s.untrusted) ∧ (Hum.move .lowLevel s.untrusted c.2.2).state = .coast) ∧
      (c.2.2.state = .locked → c.2.2.fast = true →
        moves (.humStateTimer p .fastChange) id id (Hum.move .fastChange s.untrusted) ∧ (Hum.move .fastChange s.untrusted c.2.2).state = .search))

/-! ### Digital audio ports (chapter 08) -/

/-- Digital audio inputs: an input whose frames were good for 100 ms qualifies at their mean rate; a qualified one is lost; a MUTED port whose
condition is met resumes at the boundary after DAP_RESUME; slips count; a channel status block is taken, or its CRCC error counted; a key that
waits switches at its crossing, or with a fade at its timeout; other ports stay. -/
def Obligations.DigitalAudioInputs : Prop :=
  ∀ (s : State) (p : DapIx),
    let d := s.dapP p
    (∀ hz cls, d.measured p = true → d.qual = false → 200 ≤ d.good.length → hz = d.meanHz → cls = classOf p hz →
      (classOk cls = true ∨ s.untrusted = true) →
      DoesR (.dapInputQualified p hz cls) s [.dap] fun t =>
        (t.dapP p).qual = true ∧ (t.dapP p).cls = cls ∧ (d.state ≠ .muted → (t.dapP p).rateRec = hz) ∧ (t.dapP p).eventPidx = s.pidx ∧ t.hbi.irqStat.getLsbD irqDap = true ∧ s.DapOnly p t) ∧
    (∀ why, d.measured p = true → d.qual = true → (why = .newRate → s.untrusted = false ∧ d.strays = true) →
      DoesR (.dapInputLoss p why) s [.dap] fun t =>
        (t.dapP p).qual = false ∧ (t.dapP p).state = (if d.state = .run then .muted else d.state) ∧
          (d.state = .run → (t.dapP p).zeroFrom = some (sampleAt s.time.inPeriod + 1)) ∧ (t.dapP p).eventPidx = s.pidx ∧ t.hbi.irqStat.getLsbD irqDap = true ∧ s.DapOnly p t) ∧
    (d.state = .muted → d.resume = true →
      Does (.dapResume p) s [.dap] fun t => t.dapP p = { d with resumeDue := true } ∧ s.DapOnly p t ∧
        let u := t.dapOpen p
        (u.dapP p).state = .run ∧ (u.dapP p).mute = 0 ∧ (u.dapP p).resume = false ∧ (u.dapP p).eventPidx = s.pidx ∧ t.DapOnly p u) ∧
    (d.measured p = true → d.state ≠ .disabled →
      Does (.slip p .drop) s [.dap] (fun t =>
        t.dapP p = { d with drops := satAdd d.drops 1, rowDrops := d.rowDrops + 1 } ∧ s.DapOnly p t) ∧
      Does (.slip p .repeat_) s [.dap] fun t =>
        t.dapP p = { d with repeats := satAdd d.repeats 1, rowRepeats := d.rowRepeats + 1 } ∧ s.DapOnly p t) ∧
    (∀ (bs : List Byte) (told : Bool), isPdm p = false → d.state ≠ .disabled →
      (statusHolds (padTo 96 bs) = false →
        Does (.channelStatusBlock p bs told) s [.dap] fun t => t.dapP p = { d with crccs := satAdd d.crccs 1 } ∧ s.DapOnly p t) ∧
      (statusHolds (padTo 96 bs) = true → DoesR (.channelStatusBlock p bs told) s [.dap] fun t =>
        (t.dapP p).rxBlock = padTo 96 bs ∧ (t.dapP p).rxBlocks = d.rxBlocks + 1 ∧ (t.dapP p).rxPidx = s.pidx ∧
          (d.rxBlocks ≠ 0 → (padTo 96 bs).take 48 ≠ d.rxBlock.take 48 → t.hbi.irqStat.getLsbD irqDap = true) ∧ s.DapOnly p t)) ∧
    (∀ (ch : Fin 2) (out : Bool) (z : ZcPend), tget none d.pend (switchKey ch out) = some z →
      let key := switchKey ch out
      let now := sampleAt s.time.inPeriod
      let switched := fun (t : State) (k : Nat) (fade : Bool) =>
        t.dapP p = { d with
          pend := tput none key none d.pend
          sw := tput none key (some ((k : Int), z, fade)) d.sw } ∧ s.DapOnly p t
      (∀ k, d.crossedAt ch out s.time.ord now = some k →
        Does (.zeroCrossingSwitch p ch out) s [.dap] fun t => switched t k false) ∧
      (tget 0 d.pendOrd key + 2 * d.zcTo ≤ s.time.ord → Does (.zcTimeout p ch out) s [.dap] fun t => switched t now true))

/-! ### Network ports (chapter 09) -/

/-- Link states of a network port: negotiation, training, a lost link, a second without progress, a step's retrain; each change reports NET. A lost link
drops the media frames that wait and counts them. A PAUSE that has run out is counted, and one after it holds on; a ring that has waited IRQ_DELAY
reports. -/
def Obligations.NetworkLinks : Prop :=
  ∀ (s : State) (p : NetIx),
    let n := s.netP p
    let moves := fun (t : State) (st : LinkState) =>
      (t.netP p).state = st ∧ (t.netP p).changed = s.pidx ∧ (t.netP p).since = s.time.ord ∧ t.hbi.irqStat.getLsbD irqNet = true ∧ s.NetOnly p t
    let counts := fun (t : State) (i k : Nat) => s.domOn (dNet p) = true → tget 0 (t.netP p).ctr i = tget 0 n.ctr i + BitVec.ofNat 64 k
    (∀ r f partner, n.state = .an → n.enabled r = true → n.fecSet r f = true → (n.anEn = true ∨ n.highest = some r) →
      DoesR (.negotiationResolved p r f partner) s [.net] fun t =>
        moves t .train ∧ (t.netP p).rate = some r ∧ (t.netP p).fec = f ∧ (t.netP p).partner = partner) ∧
    (n.state = .train → DoesR (.trainingComplete p) s [.net] fun t => moves t .up ∧ (t.netP p).rate = n.rate) ∧
    (∀ r f partner, n.state = .retrain → n.target = some r → n.fecSet r f = true →
      Does (.negotiationResolved p r f partner) s [.net] fun t =>
        t.net = (s.onNetP p fun x => { x with rate := some r, fec := f, partner := partner }).net) ∧
    (n.state = .retrain → n.rate = n.target →
      DoesR (.trainingComplete p) s [.net] fun t =>
        moves t .up ∧ (t.netP p).rate = n.rate ∧ (t.netP p).target = none ∧ counts t (if n.stepUp then 28 else 27) 1) ∧
    (n.anMono + 1000000000 ≤ s.monoNs →
      ((n.state = .an ∨ n.state = .train) →
        DoesR (.linkTimeout p) s [.net] fun t => moves t .an ∧ (t.netP p).rate = none ∧ counts t 26 1) ∧
      (n.state = .retrain →
        DoesR (.linkTimeout p) s [.net] fun t => moves t .an ∧ (t.netP p).rate = none ∧ (t.netP p).suppress = some (s.time.ord + 1200000))) ∧
    (n.state = .up →
      let dropped := (n.queue 6 ++ n.queue 7).filterMap fun y => match y.src with | .media k => some k | _ => none
      DoesR (.linkLoss p) s [.time, .net, .media] fun t =>
        (t.netP p).state = .an ∧ (t.netP p).rate = none ∧ (t.netP p).notUpFrom = s.monoNs ∧
          counts t 31 (if n.rate = some .g1 then 0 else 1) ∧ (t.netP p).badOrd = some s.time.ord ∧
          (t.netP p).queue 6 = [] ∧ (t.netP p).queue 7 = [] ∧ (∀ q, q ≠ 6 → q ≠ 7 → (t.netP p).queue q = n.queue q) ∧
          counts t 19 dropped.length ∧ t.media.rx = s.media.rx ∧
          (∀ k, t.txS k = { s.txS k with n5 := (s.txS k).n5 + BitVec.ofNat 16 (dropped.count k) }) ∧
          (t.netP p).events = n.events + 2 ∧ (t.netP p).changed = s.pidx ∧ t.hbi.irqStat.getLsbD irqNet = true ∧
          (s.ptpPort ≠ some p.val → t.time = s.time ∧ s.NetOnly p t) ∧
          ((s.netP 0).ptpRole = 1 → (s.netP 1).ptpRole = 1 → s.ptpPort = some p.val → t.ptpPort = some (otherPort p))) ∧
    (∀ e, n.pauseTo = some e → e ≤ s.monoNs →
      (n.pauseNext = none →
        Does (.pauseExpiry p) s [.net] fun t => (t.netP p).pauseTo = none ∧ counts t 24 (e - n.pauseFrom) ∧ s.NetOnly p t) ∧
      ∀ from_ e2, n.pauseNext = some (from_, e2) → s.monoNs < e2 →
        Does (.pauseExpiry p) s [.net] fun t =>
          (t.netP p).pauseFrom = from_ ∧ (t.netP p).pauseTo = some e2 ∧ (t.netP p).pauseNext = none ∧ counts t 24 (e - n.pauseFrom) ∧
            s.NetOnly p t) ∧
    (∀ (k : Fin 21) e, (n.ring k).unrepFrom = some e → fld (n.ring k).a5 24 8 ≠ 0 → e + fld (n.ring k).a5 24 8 * 10000 ≤ s.monoNs →
      DoesR (.ringIrqDelayExpiry p k) s [.net] fun t =>
        (t.netP p).ring k = { n.ring k with unrep := 0, unrepFrom := none } ∧ t.hbi.irqStat.getLsbD irqNet = true ∧ s.NetOnly p t)

/-- Reception: a runt, and a frame for another station, are counted alone; a PTP frame is PTP's, and a wrong checksum in it is counted; a good frame that its rule steers to a ring is written into the posted buffer
with its descriptor, and HEAD steps; an RTP packet of a stream is placed in its delivery slots. -/
def Obligations.NetworkReceive : Prop :=
  ∀ (s : State) (p : NetIx) (x : RxFrame), (s.netP p).state = .up → s.domOn (dNet p) = true →
    let n := s.netP p
    let len := x.bytes.length
    let bs := x.bytes.take (len - 4)
    let f := parseFrame bs
    let port := match f.udp with | some o => beHalf bs (o + 2) | none => 0
    let counted := fun (i : Nat) => { n with
      rxLoad := n.rxLoad + len + 20
      badOrd := if x.fcsOk then n.badOrd else some s.time.ord
      ctr := tmod 0 i (fun c => c + 1) n.ctr }
    let plus := fun (t : State) (i k : Nat) => tget 0 (t.netP p).ctr i = tget 0 n.ctr i + BitVec.ofNat 64 k
    (len < 64 → Does (.frameReceived p x) s [.net] fun t => t.netP p = counted 3 ∧ s.NetOnly p t) ∧
    (64 ≤ len → destOk n (bs.take 6) = false →
      Does (.frameReceived p x) s [.net] fun t =>
        t.netP p = counted (if x.fifoOver then 5 else if 9216 < len then 4 else if x.fcsOk then 8 else 2) ∧ s.NetOnly p t) ∧
    (64 ≤ len → len ≤ 9216 → x.fcsOk = true → x.fifoOver = false → destOk n (bs.take 6) = true → (f.et ≠ 0x8808 ∨ f.tag.isSome = true) →
      n.ptpRole ≠ 0 → (port = 319 ∨ port = 320) →
      Does (.frameReceived p x) s [.net, .draw] fun t =>
        plus t 0 1 ∧ plus t 1 len ∧ plus t 15 1 ∧ plus t 55 1 ∧ plus t 9 (b2n (ipBad f bs)) ∧ plus t 10 (b2n (udpCheck f bs == some false)) ∧
          (t.netP p).rings = n.rings ∧ s.NetOnly p t) ∧
    (64 ≤ len → len ≤ 9216 → x.fcsOk = true → x.fifoOver = false → destOk n (bs.take 6) = true → (f.et ≠ 0x8808 ∨ f.tag.isSome = true) →
      (n.ptpRole = 0 ∨ (port ≠ 319 ∧ port ≠ 320)) → ipBad f bs = false → udpCheck f bs ≠ some false →
      (∀ y ∈ s.media.policers, s.policerMatches y.2 p f bs = false) →
      (∀ k, s.matchStream p f bs = none → s.steer p f bs = some k →
        let r := n.ring k
        let buf := Memory.readWord s.mem.pantry (r.desc r.head.toNat)
        bit r.a2 31 = true → fld r.a2 0 13 ≠ 0 → r.tail ≠ r.head → r.bufOk buf r.bufSize = true → bs.length ≤ r.bufSize →
        DoesR (.frameReceived p x) s [.net, .mem] fun t =>
          let ts := (s.stamp n.rate).1
          t.mem = (s.mem.putPantry (pantryByte buf) bs).putPantry (r.desc r.head.toNat + 4)
              (wordBytes [pack [(0, bs.length), (16, 1), (17, 1), (20, rxFlags f bs), (28, b2n s.untrusted), (31, 1)], w32 (ts % 1000000000),
                w32 (ts / 1000000000)]) ∧
            ((t.netP p).ring k).head = r.head + 1 ∧ ((t.netP p).ring k).tail = r.tail ∧
            plus t 0 1 ∧ plus t 1 len ∧ plus t (40 + k) 1 ∧ s.NetOnly p t) ∧
      (∀ k o d, s.matchStream p f bs = some k → f.udp = some o →
        rtpOf (s.rxS k).block ((bs.drop (o + 8)).take (beHalf bs (o + 4) - 8)) = some d →
        Does (.frameReceived p x) s [.net, .media, .draw] fun t =>
          t.rxS k = (s.rxS k).place p (s.stamp n.rate).1 d.1 d.2.1 d.2.2 ∧ (∀ j, j ≠ k → t.rxS j = s.rxS j) ∧ t.media.tx = s.media.tx ∧
            plus t 0 1 ∧ plus t 1 len ∧ plus t 13 1 ∧ s.NetOnly p t))

/-- The queue that TX_FRAME_START starts: a head that window and PAUSE allow is eligible when its colour is GREEN, or YELLOW while no such head is GREEN; the
highest eligible queue is the one, and there is none where no head is eligible. -/
def Obligations.TransmitChoice : Prop :=
  ∀ (s : State) (p : NetIx) (r : NetRate) (q : Nat) (x : TxFrame) (c : Colour),
    let n := s.netP p
    let allowed := fun (j : Nat) (y : TxFrame) =>
      s.headOf p j = some y ∧ windowOk n s.time.inPeriod j (durPs r (wireLen y.bytes)) = true ∧ pauseHolds n s.monoNs j = false
    let eligible := fun (j : Nat) (y : TxFrame) =>
      allowed j y ∧ ((n.shaper j).colour = .green ∨
        (n.shaper j).colour = .yellow ∧ ∀ i z, i < 8 → allowed i z → (n.shaper i).colour ≠ .green)
    s.pickQueue p r = some (q, x, c) ↔
      q < 8 ∧ eligible q x ∧ c = (n.shaper q).colour ∧ ∀ j y, j < 8 → q < j → ¬eligible j y

/-- Transmission: a port that is UP and idle starts the frame that the window, PAUSE and the shapers leave first; at its end the frame is counted, and
its descriptors are written back or its stream counts it; a second without a link drops what a ring holds; PTP sends its messages when they are due. -/
def Obligations.NetworkTransmit : Prop :=
  ∀ (s : State) (p : NetIx),
    let n := s.netP p
    (∀ r q x c, n.state = .up → n.rate = some r → n.wire = none → s.domOn (dNet p) = true → (∀ j k, j < 5 → s.txHead p j ≠ .bad k) →
      (∀ j, 6 ≤ j → ∀ y ∈ n.queue j, fld n.w1 16 9 = 0 ∨ durPs r (wireLen y.bytes) ≤ fld n.w1 16 9 * 1000000) →
      let u := s.onNetP p fun m => { m with shapers := m.shapers.map fun y => (y.1, if y.2.en then y.2.refill s.monoNs else y.2) }
      u.pickQueue p r = some (q, x, c) →
      Does (.txFrameStart p) s [.net, .draw] fun t =>
        (t.netP p).wire.map (fun w => (w.frame, w.queue, w.untr, w.ring, w.own)) =
            some ({ x with bytes := n.sentBytes x (s.stamp (some r)).1 }, q, s.untrusted, n.ring (16 + q), true) ∧
          (t.netP p).queue q = (if q = 5 then (n.queue 5).erase x else if 6 ≤ q then (n.queue q).drop 1 else n.queue q) ∧
          (∀ j, j ≠ q → (t.netP p).queue j = n.queue j) ∧ (t.netP p).shapers = tmod {} q (Shaper.charge (wireLen x.bytes) c) (u.netP p).shapers ∧
          (t.netP p).txLoad = n.txLoad + wireLen x.bytes + 20 ∧ (t.netP p).rings = n.rings ∧ s.NetOnly p t) ∧
    (∀ w, n.wire = some w → s.domOn (dNet p) = true →
      DoesR (.txFrameComplete p) s [.net, .media, .mem] fun t =>
        let plus := fun (i k : Nat) => tget 0 (t.netP p).ctr i = tget 0 n.ctr i + BitVec.ofNat 64 k
        (t.netP p).wire = none ∧ plus 16 1 ∧ plus 17 (wireLen w.frame.bytes) ∧ plus (32 + w.queue) 1 ∧ plus 25 (b2n w.frame.ts) ∧
          t.mem.sram = s.mem.sram ∧ s.NetOnly p t ∧
          match w.frame.src with
          | .ring j _ k =>
            ((t.netP p).ring (16 + j)).head = (if w.own then (n.ring (16 + j)).head + w32 k else (n.ring (16 + j)).head) ∧
              t.media = s.media ∧
              ∀ a, (∀ i, i < k → a < w.ring.desc (w.ring.head.toNat + i) + 4 ∨ w.ring.desc (w.ring.head.toNat + i) + 16 ≤ a) →
                Memory.readByte t.mem.pantry a = Memory.readByte s.mem.pantry a
          | .media k => t.txS k = { s.txS k with n1 := (s.txS k).n1 + 1 } ∧ (∀ j, j ≠ k → t.txS j = s.txS j) ∧ t.mem = s.mem
          | .flow _ kind =>
            t.mem = s.mem ∧ t.media = s.media ∧
              ((t.netP p).queue 5).length = (n.queue 5).length + if kind = 0 ∧ bit n.p1 12 = false then 1 else 0) ∧
    (∀ j k bytes ip l4 ts, j < 5 → n.state ≠ .up → s.domOn (dNet p) = true → n.notUpFrom + 1000000000 ≤ s.monoNs → n.wire = none →
      s.txHead p j = .frame k bytes ip l4 ts → w32 k = (n.ring (16 + j)).tail - (n.ring (16 + j)).head →
      (∀ i, i < 5 → i ≠ j → (n.ring (16 + i)).tail = (n.ring (16 + i)).head) →
      DoesR (.linkdownDropTimeout p) s [.net, .mem] fun t =>
        ((t.netP p).ring (16 + j)).head = (n.ring (16 + j)).tail ∧ tget 0 (t.netP p).ctr 19 = tget 0 n.ctr 19 + 1 ∧ s.NetOnly p t) ∧
    (∀ m, s.domOn (dNet p) = true → s.domOn dMgmt = true → (if m = .delayReq then s.ptpSlavePart p else s.ptpMaster p) = true →
      let kind := match m with | .sync => 0 | .announce => 1 | .delayReq => 2
      (n.ptpDue kind s.monoNs = true →
        Does (.ptpMessageTimer p m) s [.net, .draw] fun t =>
          (∃ y, (t.netP p).queue 5 = n.queue 5 ++ [y] ∧ y.bytes = Config.ptpFrame p kind s.draw) ∧ (t.netP p).ptpMono = (n.ptpNext kind s.monoNs).ptpMono ∧
            s.NetOnly p t) ∧
      (n.ptpDue kind s.monoNs = false → exec (.ptpMessageTimer p m) s = .next s))

/-- Streams: the packets whose launch instant it is enter their ports' queues, or are held while UNTRUSTED; a stream STARVED for 200 Periods is LOST;
every RX stream whose 10 s have passed reports its multicast groups again. -/
def Obligations.StreamEvents : Prop :=
  ∀ s : State,
    (∀ us : Fin 500,
      let due := fun (k : Packet) => decide (k.ofs = us.val ∧ k.ord = s.time.ord)
      (s.untrusted = true →
        Does (.mediaPacketLaunch us) s [.time, .media, .mem, .trace] fun t =>
          t.media = { s.media with packets := s.media.packets.map fun k => if due k then { k with held := true } else k }) ∧
      (s.untrusted = false → s.boot.b2 = none → s.boot.removal ≠ 8 → (∀ k ∈ s.media.packets, due k = true → (s.netP k.port).state = .up) →
        Does (.mediaPacketLaunch us) s [.time, .net, .media, .mem, .trace] fun t =>
          t.media = { s.media with packets := s.media.packets.filter fun k => !due k } ∧
            ∀ k ∈ s.media.packets, due k = true → ∃ y ∈ (t.netP k.port).queue k.queue, y.src = .media k.stream ∧ y.bytes = k.bytes)) ∧
    (∀ k : Fin 2048, (s.rxS k).state = .starved → 200 ≤ (s.rxS k).empty →
      DoesR (.streamLostTimeout k) s [.media] fun t =>
        t.rxS k = { s.rxS k with state := .lost } ∧ (∀ j, j ≠ k.val → t.rxS j = s.rxS j) ∧ t.hbi.irqStat.getLsbD irqNet = true) ∧
    (s.domOn dMgmt = true →
      Does .membershipReportTimer s [.net, .media] fun t =>
        t.media = { s.media with rx := t.media.rx, reports := t.media.reports, reportsDue := [] } ∧
          (∀ k, t.rxS k = if (s.rxS k).reportDue s.monoNs then (s.rxS k).reportNext s.monoNs else s.rxS k) ∧
          ∀ k p, p < 2 → (s.rxS k).reportDue s.monoNs = true → strHasPort (s.reportBlock k) p = true →
            ipMulticast (strV6 (s.reportBlock k)) (pathDst (strPath (s.reportBlock k) p)) = true →
            (k, p, false) ∈ t.media.reports ∧
              ∃ y ∈ (t.netP p).queue 5, y.bytes = reportFrame (s.netP p).mac (reportOf (s.reportBlock k) k p false false))

/-! ### Snapshots and Roll Call (chapters 15, 16) -/

/-- A snapshot's copy ends: its banks are complete, SNAP_EPOCH counts each, the banks held start, the SNAPSHOTs it served complete. A Roll Call's block is
shown when it has been written, ROLLCALL is raised and the ROLL_CALLs that it served complete. -/
def Obligations.SnapshotAndRollCall : Prop :=
  ∀ s : State,
    (s.trace.copying ≠ 0 →
      Does .snapshotComplete s [.hbi, .cmd, .net, .mem, .trace, .draw] fun t =>
        t.trace.copying = s.trace.heldBanks ∧ t.trace.heldBanks = 0 ∧
          t.trace.snapEpoch = s.trace.snapEpoch + BitVec.ofNat _ (bankList s.trace.copying).length ∧
          t.cmd.snaps = s.cmd.snaps.filter fun l => !l.taken) ∧
    (s.domOn dMgmt = true → s.boot.rcBlock ≠ [] →
      Does .rollCallComplete s [.hbi, .cmd, .mem, .boot, .trace, .draw] fun t =>
        t.boot = { s.boot with
          rcShown := s.boot.rcBlock, rcBlock := [], rcCount := s.boot.rcCount + 1, rcAuto := s.boot.rcAtAuto, rcPending := s.boot.rcAt.isSome } ∧
          t.hbi.irqStat.getLsbD irqRollcall = true ∧ t.cmd.rolls = s.cmd.rolls.filter fun l => !l.taken)

/-! ### The Imdal ring (chapter 11) -/

/-- The Imdal ring: links, the seam, ring time, cut-off, requests for membership, merges. What is named for a boundary waits for it; a link that goes
DOWN loses what waits at its port, and the forwards sent by it leave by the other one; a boundary that is named travels on. -/
def Obligations.ImdalRing : Prop :=
  ∀ s : State,
    let m := s.imdal
    let linked := fun (side : SideIx) => if side = 0 then m.linkE else m.linkW
    let told := fun (u : State) (h : Heard) (devs : BitVec 8) =>
      let e := s.pidxAt (s.time.ord + 4)
      (if u.imdal.state ≠ .enrolled then u
        else if u.imdal.homeroom = some u.imdal.index then u.sendBoth (.control (.named e devs))
        else (u.sendBy (1 - h.side.val) (.control (.named e devs))).sendBy h.side.val (.control (.ack e))).imdal
    (∀ side peer, s.domOn dImdal = true → linked side ≠ .up →
      let e := if side = 0 then { m with linkE := .up, peerE := some peer, driveE := true }
        else { m with linkW := .up, peerW := some peer, driveW := true }
      (m.state = .joining → e.sameIndex = false) →
      DoesR (.imdalLinkUp side peer) s [.imdal] fun t =>
        t.imdal = { e with
          upFrom := if e.wrapped = true ∧ e.broken = none ∧ e.linkE = .up ∧ e.linkW = .up then some s.monoNs else e.upFrom } ∧
          t.hbi.irqStat.getLsbD irqImdal = true) ∧
    (∀ side peer, s.domOn dImdal = true → linked side ≠ .up → m.sameIndex = true → m.state = .joining →
      Does (.imdalLinkUp side peer) s [.time, .hbi, .mix, .imdal, .power, .trace, .draw] fun t =>
        t.imdal.state = .solo ∧ t.imdal.dup = true ∧ t.imdal.changed = s.pidx ∧ t.power.peer = []) ∧
    (∀ side : SideIx, linked side = .up →
      DoesR (.imdalLinkDown side) s [.cmd, .imdal] fun t =>
        t.cmd = { s.cmd with fwd := s.cmd.fwd.map fun f => if f.side = side.val then { f with side := 1 - side.val } else f } ∧
          (if side = 0 then t.imdal.portE.queue else t.imdal.portW.queue) = [] ∧
        (if side = 0 then t.imdal.linkE else t.imdal.linkW) = .down ∧ (if side = 0 then t.imdal.linkW = m.linkW else t.imdal.linkE = m.linkE) ∧
          t.imdal.downs = satAdd m.downs 1 ∧ t.imdal.seam = m.seam ∧ t.imdal.state = m.state ∧ t.imdal.segment = m.segment ∧
          t.hbi.irqStat.getLsbD irqImdal = true ∧
          (m.state = .enrolled → m.whole = true → t.imdal.seamNext = some (linkOwner m side) ∧ t.imdal.split = m.split) ∧
          (m.state = .enrolled → 2 ≤ popN 8 m.segment.toNat → m.whole = false → linkOwner m side ≠ m.seam → t.imdal.split = true)) ∧
    (∀ e, m.wrapped = true → m.upFrom = some e → e + 1000000000 ≤ s.monoNs →
      Does .seamReturn s [.imdal] fun t => t.imdal = { m with seamNext := some m.seamHome }) ∧
    (s.follower = true → m.word = none → (s.time.state = 0 ∨ s.time.state = 3) →
      DoesR .ringTimeLoss s [.time, .imdal] fun t =>
        t.imdal = { m with heard := none, aligned := false } ∧
          t.time = { s.time with slew := false, residual := 0, slewed := 0, incr := s.time.hoRate, state := 1, hoFrom := s.time.mono.toNat } ∧
          t.hbi.irqStat.getLsbD irqTime = true) ∧
    (∀ cause, m.state = .enrolled → m.segment ≠ onlyDev m.index → (cause = .noLink → m.linkE ≠ .up ∧ m.linkW ≠ .up) →
      (cause = .untrusted → s.untrusted = true) → (cause = .misaligned → 10000000 < m.offsetPs.natAbs ∨ (s.follower = true ∧ m.heard = none)) →
      Does (.cutOff cause) s [.imdal] fun t => t.imdal = { m with cutDue := true }) ∧
    (m.state = .joining → 100 ≤ m.alignedRun → Does .membershipRequest s [.imdal] fun t =>
      t.imdal = (s.onImdal fun x => { x with asked := true }).linked.put m.fwdSide (.control (.request m.homeroom))) ∧
    (∀ from_ members h,
      let mine := BitVec.ofNat 3 from_.val = m.index
      ((m.state = .enrolled ∧ ¬mine) ∨ (m.state = .joining ∧ mine ∧ m.asked = true)) →
      Does (.membershipRequestReceived from_ members h) s [.imdal] fun t =>
        let devs := onlyDev (BitVec.ofNat 3 from_.val) ||| (if mine then members else 0)
        t.imdal = told (s.onImdal fun _ => { m with
          joins := (m.joins.filter fun k => k.devs &&& devs = 0) ++ [Join.mk devs (if h.acked then some (s.time.ord + 4) else none)
            (if h.acked then none else some (s.time.ord + 3))] }) h devs) ∧
    (∀ devices h clash, m.state = .enrolled → m.mergeAt = none → (h.aligned = true → 100 ≤ m.alignedRun) →
      Does (.segmentMerge devices h clash) s [.imdal] fun t =>
        t.imdal = told (s.onImdal fun _ => { m with
          mergeAt := if h.named.acked then some (s.time.ord + 4) else none
          mergeWait := if h.named.acked ∨ h.aligned then none else some (s.time.ord + 3)
          mergeWith := devices
          mergeClash := if h.aligned then clash.map (·.val) else [] }) h.named devices) ∧
    (∀ (side : SideIx) (w : TimeWord), linked side = .up →
      let e := { m with
        delayE := if side = 0 then w.delayPs else m.delayE
        delayW := if side = 1 then w.delayPs else m.delayW
        heard := m.hears (BitVec.ofNat 3 w.homeroom.val)
        heardIn := true }
      let u := s.onImdal fun _ => e
      let hr := BitVec.ofNat 3 w.homeroom.val
      let passed := fun (x : Imdal) (irqs : BitVec 8) =>
        (if hr = m.index then s.onImdal fun _ => x
          else (s.onImdal fun _ => x).sendBy (1 - side.val) (.timeWord (RingWord.mk w.pidx w.jump w.tai w.state irqs (w.hops + 1) hr))).imdal
      (m.state = .enrolled → hr = m.index → DoesR (.timeWordReceived side w) s [.imdal] fun t =>
        t.imdal = { e with irqs := w.irqs } ∧
          (w.irqs &&& ~~~m.irqs &&& ~~~onlyDev m.index ≠ 0 → t.hbi.irqStat.getLsbD irqImdal = true)) ∧
      (¬(m.state = .enrolled ∧ hr = m.index) → (u.follower = false ∨ e.follows hr = false) →
        Does (.timeWordReceived side w) s [.imdal] fun t => t.imdal = passed e (s.withIrq w.irqs)) ∧
      (¬(m.state = .enrolled ∧ hr = m.index) → u.follower = true → m.word = none → e.follows hr = true →
        Does (.timeWordReceived side w) s [.time, .hbi, .imdal, .trace, .draw] fun t => ∃ irqs,
          irqs &&& ~~~onlyDev m.index = w.irqs &&& ~~~onlyDev m.index ∧ t.time.tai = w.tai ∧ t.imdal = passed { e with
            word := some (w.hops, side = 1)
            homeroom := if e.aligns then m.homeroom else some hr
            offsetPs := w.offsetPs
            aligned := decide (w.offsetPs.natAbs ≤ 2000 ∧ w.pidx = s.time.pidx)
            hrState := w.state
            hrTai := w.tai
            irqs := w.irqs } irqs))

/-! ### Memories and the bus matrix (chapter 13) -/

/-- The patrol scrub steps through a memory, corrects single errors, marks a double one and counts every uncorrectable word that it meets. A Hall Pass is
granted on a free target, takes up to 32 beats, ends with a final access, and is counted when it breaks; the holder's next access after a stall ends in
LOCKERR. A silent target ends the access and is counted. -/
def Obligations.ScrubAndMatrix : Prop :=
  ∀ s : State,
    (∀ (stack : Fin 2) e raced, s.domOn dHub = true → s.domOn dPantry = true → s.mem.scrubH ≠ 0 →
      let at_ := if stack = 0 then s.mem.scrub0 else s.mem.scrub1
      let a := stack.val * 2 ^ 31 + at_
      let next := (at_ + scrubBeat) % 2 ^ 31
      let known := badWords s.mem.badPantry a scrubBeat
      let met := (if e = .double then addBad (a / 4) known else known).length
      let single := b2n (e == .single)
      DoesR (.scrubRead true stack e raced) s [.mem] fun t =>
        (if stack = 0 then t.mem.scrub0 = next ∧ t.mem.scrub1 = s.mem.scrub1 else t.mem.scrub1 = next ∧ t.mem.scrub0 = s.mem.scrub0) ∧
          t.mem.pantry = s.mem.pantry ∧ t.mem.sram = s.mem.sram ∧
          t.mem.badPantry = (if e = .double ∧ raced = false then addBad (a / 4) s.mem.badPantry else s.mem.badPantry) ∧
          (if pantrySrc a = 8 then t.mem.uncorr = satAdd s.mem.uncorr met ∧ t.mem.corr = satAdd s.mem.corr single
            else t.mem.corr = satAdd s.mem.corr (met + single) ∧ t.mem.uncorr = s.mem.uncorr) ∧
          tget {} t.mem.masters 9 = { tget {} s.mem.masters 9 with slverr := satAdd (tget {} s.mem.masters 9).slverr met } ∧
          (e = .single → t.mem.corrSrc = BitVec.ofNat 8 (pantrySrc a)) ∧ (met + single ≠ 0 → t.hbi.irqStat.getLsbD irqEcc = true)) ∧
    (∀ (stack : Fin 2) e raced, s.domOn dHub = true → s.domOn dMgmt = true →
      let a := s.mem.scrubS
      let known := badWords s.mem.badSram a scrubBeat
      let met := (if e = .double then addBad (a / 4) known else known).length
      let single := b2n (e == .single)
      DoesR (.scrubRead false stack e raced) s [.mem] fun t =>
        t.mem.scrubS = (a + scrubBeat) % 2 ^ 20 ∧ t.mem.sram = s.mem.sram ∧ t.mem.pantry = s.mem.pantry ∧ t.mem.uncorr = s.mem.uncorr ∧
          t.mem.badSram = (if e = .double ∧ raced = false then addBad (a / 4) s.mem.badSram else s.mem.badSram) ∧
          t.mem.corr = satAdd s.mem.corr (met + single) ∧ (met + single ≠ 0 → t.mem.corrSrc = 9 ∧ t.hbi.irqStat.getLsbD irqEcc = true)) ∧
    (∀ (m : Fin 10) (a : LockedAccess), (m = 2 ∨ m = 6 ∨ m = 7) →
      let entry := fun (x : State) => tget {} x.mem.masters m
      let others := fun (t : State) => (∀ j, j ≠ m.val → t.passOf j = s.passOf j) ∧ t.mem.pantry = s.mem.pantry ∧ t.mem.sram = s.mem.sram
      (reaches m a.target = false →
        Does (.hallPassGrant m a) s [.mem] fun t => entry t = (entry s).addDec ∧ t.passOf m = s.passOf m ∧ others t) ∧
      (reaches m a.target = true → s.targetOn a.target = false →
        Does (.hallPassGrant m a) s [.mem] fun t => entry t = (entry s).addOff ∧ t.passOf m = s.passOf m ∧ others t) ∧
      (reaches m a.target = true → s.targetOn a.target = true → (a.target = 1 ∨ a.target = 2 ∨ a.target = 3) →
        (tget none s.mem.locks m = none → s.heldTarget a.target = false →
          Does (.hallPassGrant m a) s [.mem] fun t =>
            t.passOf m = (if a.final then none else some { target := a.target.val, beats := a.more.val + 1, beatMono := s.monoNs, broken := false }) ∧
              entry t = (entry s).busy ∧ others t) ∧
        (tget none s.mem.locks m = none → s.heldTarget a.target = true → exec (.hallPassGrant m a) s = .next s) ∧
        (∀ k, s.passOf m = some k → k.target = a.target.val →
          (k.beats + a.more.val < 32 →
            Does (.hallPassGrant m a) s [.mem] fun t =>
              t.passOf m = (if a.final then none else some { k with beats := k.beats + a.more.val + 1, beatMono := s.monoNs }) ∧
                entry t = entry s ∧ others t) ∧
          (32 ≤ k.beats + a.more.val →
            DoesR (.hallPassGrant m a) s [.mem] fun t =>
              t.passOf m = none ∧ entry t = (entry s).addBroken.addLock ∧ others t ∧ tget 0 t.trace.ctr 221 = tget 0 s.trace.ctr 221 + 1)) ∧
        (∀ k, s.passOf m = some k → k.target ≠ a.target.val →
          Does (.hallPassGrant m a) s [.mem] fun t => t.passOf m = some k ∧ entry t = (entry s).addSlv ∧ others t) ∧
        (∀ k, tget none s.mem.locks m = some k → k.broken = true → k.target = a.target.val →
          Does (.hallPassGrant m a) s [.mem] fun t =>
            tget none t.mem.locks m = none ∧ entry t = (entry s).addLock ∧ others t))) ∧
    (∀ (m : Fin 10) k, s.passOf m = some k →
      DoesR (.hallPassBreak m) s [.mem] fun t =>
        t.passOf m = none ∧ tget none t.mem.locks m = some { k with broken := true } ∧ (∀ j, j ≠ m.val → t.passOf j = s.passOf j) ∧
          tget {} t.mem.masters m = (tget {} s.mem.masters m).addBroken ∧ tget 0 t.trace.ctr 221 = tget 0 s.trace.ctr 221 + 1) ∧
    (∀ (m : Fin 10) (a : MatrixAccess), mayReach m a.target a.write = true → s.targetOn a.target = true →
      Does (.matrixTimeout m a) s [.hbi, .mem] fun t =>
        tget {} t.mem.masters m = (tget {} s.mem.masters m).addTime.busy ∧
          t.hbi = (if m = 0 then { s.hbi with
            winErr := s.hbi.winErr ||| 8
            wdrop := if a.write then satAdd s.hbi.wdrop 1 else s.hbi.wdrop } else s.hbi))

/-! ### Power domains (chapter 14) -/

/-- Transitions of a power domain: a wake raises it with its parents and is named in WAKE_SRC; power-up goes step by step and ends ON once the parents
are ON; a failure leaves it OFF; an entry ends in the state entered. -/
def Obligations.DomainTransitions : Prop :=
  ∀ (s : State) (d : DomIx),
    let x := s.dom d
    let reports := fun (t : State) => t.power.changed = s.pidx ∧ t.hbi.irqStat.getLsbD irqPwr = true
    (s.voted d = true → s.rising d = false → s.shutDown = false → s.power.first.getLsbD d = false →
      DoesR (.domainWake d) s [.power] fun t =>
        t.dom d = x.up ∧ (∀ q ∈ parents d, t.rising q = true) ∧ (∀ q, q ≠ d.val → q ∉ parents d → t.dom q = s.dom q) ∧
          t.power.wakeDom = BitVec.ofNat 5 d ∧ t.power.wakeSrc = BitVec.ofNat 4 (s.wakeSource d) ∧ t.power.wakes = satAdd s.power.wakes 1 ∧
          t.hbi.irqStat.getLsbD irqWake = true) ∧
    (∀ k, x.transit = .rise .on k → (k = 1 ∨ k = 2 ∨ k = 3) →
      Does (.powerupStepReady d) s [.power, .boot] fun t =>
        (t.dom d).transit = .rise .on (if k = 1 then 2 else if k = 2 ∧ x.state = .off then 3 else 4) ∧ (t.dom d).state = x.state) ∧
    (∀ dst, x.transit = .rise dst 4 → s.parentsOn d = true →
      Does (.powerupStepReady d) s [.hbi, .mix, .echo, .vad, .hum, .line, .dap, .net, .media, .tiles, .mem, .power, .boot, .trace, .draw] fun t =>
        t.domOn d = true ∧ (t.dom d).onMono = s.monoNs ∧ reports t) ∧
    (∀ dst k, x.transit = .rise dst k →
      Does (.powerupFailure d) s [.hbi, .cmd, .line, .tiles, .mem, .power, .boot, .trace, .draw, .shown] fun t =>
        t.dom d = { x with state := .off, transit := .none, failed := true, lost := x.lost || decide (x.state ≠ .off) } ∧
          t.power.failDom = BitVec.ofNat 5 d ∧ reports t ∧ s.DomOnly d t ∧
          ∀ w, s.cmd.waiting = some w → (∃ q, (w.why = .domain q ∨ w.why = .boot ∧ q = dMgmt) ∧ (q = d.val ∨ d.val ∈ parents q)) →
            t.cmd.waiting = none) ∧
    (∀ st, x.transit = .enter st →
      Does (.domainEntryComplete d) s [.hbi, .cmd, .line, .tiles, .mem, .power, .boot, .trace, .draw, .shown] fun t =>
        t.dom d = { x with state := st, transit := .none, lost := x.lost || decide (st = .off) } ∧ reports t ∧ s.DomOnly d t)

/-! ### Reset, start-up, removal, supervision (chapters 15, 18) -/

/-- Reset: POWER_ON_RESET leaves every part at its reset values with the straps, fuses and sensed values taken; while PORST_N or the core supply is low the
device is held; the host bus answers once AON is ready. Waiting commands and the count of free values, the model's own (log 18), stay. -/
def Obligations.ResetRows : Prop :=
  ∀ s : State,
    (∀ k : Straps, CompletesWith (.powerOnReset k) s fun t =>
      t = { State.reset with
        pending := s.pending
        draw := s.draw
        hbi := { State.reset.hbi with ready := false, w16 := k.hbiW16, vio33 := k.vio33 }
        imdal := { State.reset.imdal with index := k.istrap }
        boot := { State.reset.boot with
          part := k.part, hubRev := k.hubRev, lfeRev := k.lfeRev, pkgRev := k.pkgRev, sspAddr := k.sspAddr, bootSrc := k.bootSrc
          memberPin := k.memberPin, testN := k.testN } }) ∧
    (∀ row ∈ [Instr.resetAssert, Instr.coreSupplyLow], CompletesWith row s fun t =>
      t.boot.held = true ∧ t.hbi.ready = false ∧ t.time = State.reset.time ∧ t.cmd = State.reset.cmd ∧ t.line = State.reset.line ∧
        t.power = State.reset.power ∧ t.mem = State.reset.mem ∧ t.pending = s.pending) ∧
    (s.boot.held = false → Does .aonReady s [.hbi] fun t => t.hbi = { s.hbi with ready := true })

/-- Start-up: the image read is authenticated; a good image starts the firmware, a bad one leaves FAIL and leads to slot B or FAILED; the firmware is in
service at a boundary with MGMT ON. The watchdog orders a restart after 64 boundaries; a restart loses MGMT SRAM and keeps the audio. -/
def Obligations.StartUp : Prop :=
  ∀ s : State,
    let b := s.boot
    (s.loaderReads = true →
      Does .imageReadComplete s [.mem, .boot] fun t =>
        t.boot = { b with boot := if b.boot = 6 then 6 else 3, going := true, fromHost := false } ∧ t.mem.sram = s.mem.sram ∧ t.mem.pantry = s.mem.pantry) ∧
    (∀ given : Image, b.going = true → b.passed = false →
      let i := s.imageOf given
      (imageFail b.fromHost i = none →
        Does (.imageAuthentication given) s [.mem, .boot] fun t =>
          t.boot = { b with
            going := false, passed := true, hostLoad := b.fromHost, slot := !b.fromHost && b.trySlot, version := i.version } ∧
            t.mem = { s.mem with slices := sliceTab i.slices }) ∧
      (∀ f, imageFail b.fromHost i = some f →
        Does (.imageAuthentication given) s [.boot] fun t => t.boot = { b with
          going := false
          fail := BitVec.ofNat 4 f
          boot := if b.fromHost || b.trySlot then 5 else if b.boot = 6 then 6 else 2
          trySlot := b.trySlot || !b.fromHost })) ∧
    (b.passed = true → (b.boot = 3 ∨ b.boot = 6) → s.domOn dMgmt = true → s.atBoundary = true →
      Does .runBoundary s [.hbi, .cmd, .mem, .boot, .trace, .draw, .shown] fun t =>
        t.boot.boot = 4 ∧ t.boot.unacked = 0 ∧ t.boot.restartDue = false ∧ t.shownOk = true ∧ t.boot.rcPending = true ∧ t.boot.rcAtAuto = true) ∧
    (b.boot = 4 → 64 ≤ b.unacked → Does .watchdogExpiry s [.boot] fun t => t.boot = { b with restartDue := true }) ∧
    (b.boot = 4 → s.domOn dMgmt = true → b.restartDue = true →
      Does .mgmtRestart s [.time, .hbi, .cmd, .line, .tiles, .mem, .boot, .trace, .draw, .shown] fun t =>
        t.boot.boot = 6 ∧ t.boot.restarts = satAdd b.restarts 1 ∧ t.boot.restartDue = false ∧ t.boot.restarted = true ∧ t.mem.sram = [] ∧
          t.mem.pantry = s.mem.pantry ∧ t.cmd.en = false ∧ t.cmd.epoch = s.cmd.epoch ∧ t.line = { s.line with log := [], logSeq := 0 } ∧
          (s.time.refAct ≠ 1 → t.time = s.time))

/-- Removal: the request names B1, at least 200 µs ahead, and B2 and raises HOTSWAP; its end asserts RDY, at the deadline with cause FET for a port that
still carries current; the firmware records it; the request's release withdraws RDY. -/
def Obligations.Removal : Prop :=
  ∀ s : State,
    let b := s.boot
    (b.req = false → s.hbi.ready = true → b.boot = 4 → b.removal = 0 → s.allDomOff = false →
      DoesR .hotswapRequest s [.imdal, .tiles, .power, .boot] fun t =>
        let b1 := if s.time.inPeriod ≤ 300000 then s.time.ord + 1 else s.time.ord + 2
        t.boot = { b with
          req := true, removal := 7, reqMono := s.monoNs, b1 := some b1, b2 := some (b1 + 1), released := false, unrecorded := true } ∧
          t.hbi.irqStat.getLsbD irqHotswap = true ∧ t.power.self.getLsbD dHub = true ∧ t.power.self.getLsbD dMgmt = true ∧
          (s.imdal.state = .solo → t.imdal = s.imdal) ∧ (s.imdal.state ≠ .solo → t.imdal = { s.imdal with departAt := some (b1 + 1) })) ∧
    (b.removal = 7 → b.thermOff = false → b.released = false →
      (s.pastB2 = true → s.atBoundary = true → (∀ p, p < 48 → s.loopLive p = false) →
        DoesR .removalReady s [.boot] fun t =>
          t.boot = { b with removal := 8, rdy := true, b1 := none, b2 := none } ∧ t.hbi.irqStat.getLsbD irqHotswap = true) ∧
      (b.reqMono + 20000000 ≤ s.monoNs →
        DoesR .removalDeadline s [.line, .boot] fun t =>
          t.boot = { b with removal := 8, rdy := true, b1 := none, b2 := none } ∧ t.hbi.irqStat.getLsbD irqHotswap = true ∧
            (∀ p, p < 48 → s.loopLive p = true → (t.port p).state = .fault ∧ (t.port p).cause = BitVec.ofNat 8 cauFet) ∧
            ∀ p, s.loopLive p = false → t.port p = s.port p)) ∧
    (b.unrecorded = true → s.serving = true → s.domOn dMgmt = true →
      Does .removalRecord s [.cmd, .line, .boot] fun t =>
        t.boot = { b with unrecorded := false } ∧ t.cmd = { s.cmd with epoch := epochNext s.cmd.epoch } ∧
          t.line = { s.line with cfg := t.line.cfg } ∧ ∀ p, t.portCfg p = if p < 48 then { s.portCfg p with mode := 0 } else s.portCfg p) ∧
    (b.req = true →
      Does .hotswapRelease s [.boot] fun t => t.boot = { b with req := false, rdy := false, released := decide (b.removal ≠ 0) })

/-- Supervision: TJ_MAX sets THERM_WARN and THERM_CRIT with their hysteresis and reports a change; 120 °C starts a removal; a low VDD_LFE faults its
die's powered ports with cause GATE and its return recovers none; the plant's absence is seen. -/
def Obligations.Supervision : Prop :=
  ∀ s : State,
    (∀ tj : Int, tj < 120 →
      DoesR (.thermalThreshold tj) s [.boot] fun t =>
        t.boot = { s.boot with tjMax := tj, warn := thermBit tj 100 s.boot.warn, crit := thermBit tj 110 s.boot.crit } ∧
          ((t.boot.warn ≠ s.boot.warn ∨ t.boot.crit ≠ s.boot.crit) → t.hbi.irqStat.getLsbD irqTherm = true)) ∧
    (∀ tj : Int, 120 ≤ tj → s.boot.thermOff = false → s.boot.held = false → s.boot.boot = 4 → s.boot.removal = 0 → s.allDomOff = false →
      DoesR (.thermalThreshold tj) s [.imdal, .tiles, .power, .boot] fun t =>
        t.boot.thermOff = true ∧ t.boot.removal = 7 ∧ t.boot.tjMax = tj ∧ t.boot.warn = true ∧ t.boot.crit = true ∧
          t.hbi.irqStat.getLsbD irqHotswap = true) ∧
    (∀ die : DieIx,
      let low := fun (l : Line) (v : Bool) => if die = 0 then { l with lfeLowA := v } else { l with lfeLowB := v }
      let absent := fun (l : Line) (v : Bool) => if die = 0 then { l with absentA := v } else { l with absentB := v }
      DoesR (.lfeSupplyLow die) s [.line, .power] (fun t =>
        (∀ p, p < 48 → dieOf p = die → poweredSt (s.port p).state = true →
          (t.port p).state = .fault ∧ (t.port p).cause = BitVec.ofNat 8 cauGate ∧ (t.port p).changed = s.pidx) ∧
        (∀ p, (dieOf p ≠ die ∨ poweredSt (s.port p).state = false) → t.port p = s.port p) ∧
        t.line.lfeLowA = (s.line.lfeLowA || decide (die = 0)) ∧ t.line.lfeLowB = (s.line.lfeLowB || decide (die ≠ 0))) ∧
      Does (.lfeSupplyRestored die) s [.line] (fun t => t.line = low s.line false) ∧
      Does (.plantAbsent die) s [.line] (fun t => t.line = absent s.line true) ∧
      Does (.plantReturn die) s [.line] fun t => t.line = absent s.line false)
end

