-- ==== Sys2Proof/Laws/Foot.lean ====
section
/-! SUPPORT. Footprints: which parts an operation may change, and that it keeps the facts of every reachable state. One lemma for
each update; every later lemma composes them. -/

namespace Sys2Proof.Machine

set_option Elab.async false

/-- From one state to another only the listed parts change, and what every step keeps is kept. -/
def Foot (ps : List Part) (s t : State) : Prop := SameOutside ps s t ∧ (s.Ok → t.Ok)

theorem Foot.refl (ps : List Part) (s : State) : Foot ps s s :=
  ⟨fun p _ => by cases p <;> simp [Part.same], id⟩

theorem Foot.trans {ps : List Part} {s t u : State} (h : Foot ps s t) (k : Foot ps t u) : Foot ps s u := by
  refine ⟨fun p hn => ?_, fun x => k.2 (h.2 x)⟩
  have a := h.1 p hn
  have b := k.1 p hn
  cases p <;> simp only [Part.same] at a b ⊢ <;> simp [a, b]

theorem Foot.mono {ps qs : List Part} {s t : State} (h : Foot ps s t) (hq : ps ⊆ qs) : Foot qs s t :=
  ⟨fun p hn => h.1 p fun x => hn (hq x), h.2⟩

theorem slotsOk_put {α : Type} {seq : α → Word} {n : Nat} {l : List α} (e : α) (h : slotsOk seq n l) :
    slotsOk seq n (logPut seq n e l) := by
  unfold slotsOk logPut at *
  rw [List.map_cons, List.nodup_cons]
  refine ⟨fun hm => ?_, List.Nodup.sublist (List.Sublist.map _ (List.filter_sublist ..)) h⟩
  obtain ⟨x, hx, he⟩ := List.mem_map.1 hm
  simp only [List.mem_filter, decide_eq_true_eq] at hx
  exact hx.2 he

theorem foot_foldl {α : Type} {ps : List Part} {s t : State} {f : State → α → State} {l : List α}
    (hf : ∀ u a, Foot ps s u → Foot ps s (f u a)) (h : Foot ps s t) : Foot ps s (l.foldl f t) := by
  induction l generalizing t with
  | nil => exact h
  | cons a l ih => exact ih (hf t a h)

theorem foot_foldl_fst {α β : Type} {ps : List Part} {s : State} {f : State × β → α → State × β} {l : List α} {a : State × β}
    (hf : ∀ a x, Foot ps s a.1 → Foot ps s (f a x).1) (h : Foot ps s a.1) : Foot ps s (l.foldl f a).1 := by
  induction l generalizing a with
  | nil => exact h
  | cons x l ih => exact ih (hf a x h)

theorem foot_forAll {ps : List Part} {s t : State} {f : State → Nat → State} {l : List Nat}
    (hf : ∀ u a, Foot ps s u → Foot ps s (f u a)) (h : Foot ps s t) : Foot ps s (t.forAll l f) := foot_foldl hf h

theorem foot_ite {ps : List Part} {s a b : State} {c : Prop} [Decidable c] (ha : c → Foot ps s a) (hb : ¬c → Foot ps s b) :
    Foot ps s (if c then a else b) := by
  split
  · exact ha ‹_›
  · exact hb ‹_›

/-! ### One part -/

theorem foot_onTime {ps : List Part} {s t : State} {f : Time → Time} (h : Foot ps s t) (hp : .time ∈ ps)
    (hf : t.time.Ok → (f t.time).Ok) : Foot ps s (t.onTime f) := by
  refine ⟨fun p hn => ?_, fun k => ⟨hf (h.2 k).1, (h.2 k).2.1, (h.2 k).2.2.1, (h.2 k).2.2.2.1, (h.2 k).2.2.2.2.1, (h.2 k).2.2.2.2.2⟩⟩
  have := h.1 p hn
  cases p <;> first | exact this | exact absurd hp hn

theorem foot_onHbi {ps : List Part} {s t : State} {f : Hbi → Hbi} (h : Foot ps s t) (hp : .hbi ∈ ps) :
    Foot ps s (t.onHbi f) := by
  refine ⟨fun p hn => ?_, h.2⟩
  have := h.1 p hn
  cases p <;> first | exact this | exact absurd hp hn

theorem foot_onCmd {ps : List Part} {s t : State} {f : CmdPath → CmdPath} (h : Foot ps s t) (hp : .cmd ∈ ps)
    (hf : t.cmd.Ok → (f t.cmd).Ok) : Foot ps s (t.onCmd f) := by
  refine ⟨fun p hn => ?_, fun k => ⟨(h.2 k).1, hf (h.2 k).2.1, (h.2 k).2.2.1, (h.2 k).2.2.2.1, (h.2 k).2.2.2.2.1, (h.2 k).2.2.2.2.2⟩⟩
  have := h.1 p hn
  cases p <;> first | exact this | exact absurd hp hn

theorem foot_onMix {ps : List Part} {s t : State} {f : Mix → Mix} (h : Foot ps s t) (hp : .mix ∈ ps) :
    Foot ps s (t.onMix f) := by
  refine ⟨fun p hn => ?_, h.2⟩
  have := h.1 p hn
  cases p <;> first | exact this | exact absurd hp hn

theorem foot_onEcho {ps : List Part} {s t : State} {f : Tab Echo → Tab Echo} (h : Foot ps s t) (hp : .echo ∈ ps) :
    Foot ps s (t.onEcho f) := by
  refine ⟨fun p hn => ?_, h.2⟩
  have := h.1 p hn
  cases p <;> first | exact this | exact absurd hp hn

theorem foot_onVad {ps : List Part} {s t : State} {f : Tab Vad → Tab Vad} (h : Foot ps s t) (hp : .vad ∈ ps) :
    Foot ps s (t.onVad f) := by
  refine ⟨fun p hn => ?_, h.2⟩
  have := h.1 p hn
  cases p <;> first | exact this | exact absurd hp hn

theorem foot_onHum {ps : List Part} {s t : State} {f : Tab Hum → Tab Hum} (h : Foot ps s t) (hp : .hum ∈ ps) :
    Foot ps s (t.onHum f) := by
  refine ⟨fun p hn => ?_, h.2⟩
  have := h.1 p hn
  cases p <;> first | exact this | exact absurd hp hn

theorem foot_onLine {ps : List Part} {s t : State} {f : Line → Line} (h : Foot ps s t) (hp : .line ∈ ps)
    (hf : t.line.Ok → (f t.line).Ok) : Foot ps s (t.onLine f) := by
  refine ⟨fun p hn => ?_, fun k => ⟨(h.2 k).1, (h.2 k).2.1, (h.2 k).2.2.1, hf (h.2 k).2.2.2.1, (h.2 k).2.2.2.2.1, (h.2 k).2.2.2.2.2⟩⟩
  have := h.1 p hn
  cases p <;> first | exact this | exact absurd hp hn

theorem foot_onDap {ps : List Part} {s t : State} {f : Tab Dap → Tab Dap} (h : Foot ps s t) (hp : .dap ∈ ps) :
    Foot ps s (t.onDap f) := by
  refine ⟨fun p hn => ?_, h.2⟩
  have := h.1 p hn
  cases p <;> first | exact this | exact absurd hp hn

theorem foot_onNet {ps : List Part} {s t : State} {f : Tab Net → Tab Net} (h : Foot ps s t) (hp : .net ∈ ps) :
    Foot ps s (t.onNet f) := by
  refine ⟨fun p hn => ?_, h.2⟩
  have := h.1 p hn
  cases p <;> first | exact this | exact absurd hp hn

theorem foot_onMedia {ps : List Part} {s t : State} {f : Media → Media} (h : Foot ps s t) (hp : .media ∈ ps) :
    Foot ps s (t.onMedia f) := by
  refine ⟨fun p hn => ?_, h.2⟩
  have := h.1 p hn
  cases p <;> first | exact this | exact absurd hp hn

theorem foot_onImdal {ps : List Part} {s t : State} {f : Imdal → Imdal} (h : Foot ps s t) (hp : .imdal ∈ ps) :
    Foot ps s (t.onImdal f) := by
  refine ⟨fun p hn => ?_, h.2⟩
  have := h.1 p hn
  cases p <;> first | exact this | exact absurd hp hn

theorem foot_onTiles {ps : List Part} {s t : State} {f : Tiles → Tiles} (h : Foot ps s t) (hp : .tiles ∈ ps)
    (hf : t.tiles.Ok → (f t.tiles).Ok) : Foot ps s (t.onTiles f) := by
  refine ⟨fun p hn => ?_, fun k => ⟨(h.2 k).1, (h.2 k).2.1, (h.2 k).2.2.1, (h.2 k).2.2.2.1, hf (h.2 k).2.2.2.2.1, (h.2 k).2.2.2.2.2⟩⟩
  have := h.1 p hn
  cases p <;> first | exact this | exact absurd hp hn

theorem foot_onMem {ps : List Part} {s t : State} {f : Memory → Memory} (h : Foot ps s t) (hp : .mem ∈ ps)
    (hf : t.mem.Ok → (f t.mem).Ok) : Foot ps s (t.onMem f) := by
  refine ⟨fun p hn => ?_, fun k => ⟨(h.2 k).1, (h.2 k).2.1, hf (h.2 k).2.2.1, (h.2 k).2.2.2.1, (h.2 k).2.2.2.2.1, (h.2 k).2.2.2.2.2⟩⟩
  have := h.1 p hn
  cases p <;> first | exact this | exact absurd hp hn

theorem foot_onPower {ps : List Part} {s t : State} {f : Power → Power} (h : Foot ps s t) (hp : .power ∈ ps) :
    Foot ps s (t.onPower f) := by
  refine ⟨fun p hn => ?_, h.2⟩
  have := h.1 p hn
  cases p <;> first | exact this | exact absurd hp hn

theorem foot_onBoot {ps : List Part} {s t : State} {f : Boot → Boot} (h : Foot ps s t) (hp : .boot ∈ ps) :
    Foot ps s (t.onBoot f) := by
  refine ⟨fun p hn => ?_, h.2⟩
  have := h.1 p hn
  cases p <;> first | exact this | exact absurd hp hn

theorem foot_onTrace {ps : List Part} {s t : State} {f : Trace → Trace} (h : Foot ps s t) (hp : .trace ∈ ps)
    (hf : t.trace.Ok → (f t.trace).Ok) : Foot ps s (t.onTrace f) := by
  refine ⟨fun p hn => ?_, fun k => ⟨(h.2 k).1, (h.2 k).2.1, (h.2 k).2.2.1, (h.2 k).2.2.2.1, (h.2 k).2.2.2.2.1, hf (h.2 k).2.2.2.2.2⟩⟩
  have := h.1 p hn
  cases p <;> first | exact this | exact absurd hp hn

theorem foot_onShelf {ps : List Part} {s t : State} {f : Shelf → Shelf} (h : Foot ps s t) (hp : .shelf ∈ ps) :
    Foot ps s (t.onShelf f) := by
  refine ⟨fun p hn => ?_, h.2⟩
  have := h.1 p hn
  cases p <;> first | exact this | exact absurd hp hn

theorem foot_onDraw {ps : List Part} {s t : State} {f : Nat → Nat} (h : Foot ps s t) (hp : .draw ∈ ps) :
    Foot ps s (t.onDraw f) := by
  refine ⟨fun p hn => ?_, h.2⟩
  have := h.1 p hn
  cases p <;> first | exact this | exact absurd hp hn

theorem oFoot_none {ps : List Part} {s : State} : ∀ u, (none : Option State) = some u → Foot ps s u := by
  intro u hu
  exact nomatch hu

theorem oFoot_some {ps : List Part} {s t : State} (h : Foot ps s t) : ∀ u, some t = some u → Foot ps s u := by
  intro u hu
  injection hu with hu
  exact hu ▸ h

theorem foot_fst {ps : List Part} {s t : State} {β : Type} {b : β} {p : State × β} (e : p = (t, b)) (h : Foot ps s p.1) :
    Foot ps s t := by
  subst e
  exact h

theorem foot_snd {ps : List Part} {s t : State} {β : Type} {b : β} {p : β × State} (e : p = (b, t)) (h : Foot ps s p.2) :
    Foot ps s t := by
  subst e
  exact h

/-- A change of the memories whose result is canonical because of the state from which the footprint starts. -/
theorem foot_onMem_of {ps : List Part} {s t : State} {f : Memory → Memory} (h : Foot ps s t) (hp : .mem ∈ ps)
    (hf : s.Ok → (f t.mem).Ok) : Foot ps s (t.onMem f) := by
  refine ⟨fun p hn => ?_, fun k => ?_⟩
  · have := h.1 p hn
    cases p <;> first | exact this | exact absurd hp hn
  · obtain ⟨h1, h2, h3, h4⟩ := h.2 k
    exact ⟨h1, h2, hf k, h4⟩

theorem foot_onTime_of {ps : List Part} {s t : State} {f : Time → Time} (h : Foot ps s t) (hp : .time ∈ ps)
    (hf : s.Ok → t.time.Ok → (f t.time).Ok) : Foot ps s (t.onTime f) := by
  refine ⟨fun p hn => ?_, fun k => ?_⟩
  · have := h.1 p hn
    cases p <;> first | exact this | exact absurd hp hn
  · obtain ⟨h1, h2⟩ := h.2 k
    exact ⟨hf k h1, h2⟩

theorem foot_shownOk {ps : List Part} {s t : State} {b : Bool} (h : Foot ps s t) (hp : .shown ∈ ps) :
    Foot ps s { t with shownOk := b } := by
  refine ⟨fun p hn => ?_, h.2⟩
  have := h.1 p hn
  cases p <;> first | exact this | exact absurd hp hn

/-- An outcome is a next state with a footprint. -/
def OFoot (ps : List Part) (s : State) (o : Host.Outcome State Fault Refusal) : Prop := ∃ t, o = .next t ∧ Foot ps s t

theorem OFoot.next {ps : List Part} {s t : State} (h : Foot ps s t) : OFoot ps s (.next t) := ⟨t, rfl, h⟩

theorem OFoot.ite {ps : List Part} {s : State} {a b : Host.Outcome State Fault Refusal} {c : Prop} [Decidable c]
    (ha : c → OFoot ps s a) (hb : ¬c → OFoot ps s b) : OFoot ps s (if c then a else b) := by
  split
  · exact ha ‹_›
  · exact hb ‹_›

/-- What a command's own checks answer has a footprint. -/
def VFoot (ps : List Part) (s : State) : Verdict → Prop
  | .reject _ => True
  | .wait _ => True
  | .config t _ _ _ => Foot ps s t
  | .done t _ _ _ => Foot ps s t
  | .later t => Foot ps s t

theorem VFoot.ite {ps : List Part} {s : State} {a b : Verdict} {c : Prop} [Decidable c]
    (ha : c → VFoot ps s a) (hb : ¬c → VFoot ps s b) : VFoot ps s (if c then a else b) := by
  split
  · exact ha ‹_›
  · exact hb ‹_›

theorem VFoot.reject {ps : List Part} {s : State} (st : Nat) : VFoot ps s (.reject st) := trivial
theorem VFoot.wait {ps : List Part} {s : State} (d : Nat) : VFoot ps s (.wait d) := trivial
theorem VFoot.config {ps : List Part} {s t : State} {o : Nat} {cs : List Change} {r : Word} (h : Foot ps s t) :
    VFoot ps s (.config t o cs r) := h
theorem VFoot.done {ps : List Part} {s t : State} {r0 r1 : Word} {out : Option (Word × List Byte)} (h : Foot ps s t) :
    VFoot ps s (.done t r0 r1 out) := h
theorem VFoot.later {ps : List Part} {s t : State} (h : Foot ps s t) : VFoot ps s (.later t) := h

end Sys2Proof.Machine
end

