-- ==== Sys2Proof/Laws/Tab.lean ====
section
/-! SUPPORT. Sparse tables: reads after writes, and every operation keeps the canonical form. -/

namespace Sys2Proof.Machine

set_option Elab.async false

variable {α : Type}

/-! ### Order of the indices -/

/-- Every index of a table lies above a bound. -/
def tabAbove (b : Nat) (t : Tab α) : Prop := ∀ e ∈ t, b < e.1

theorem tabSorted_cons {i : Nat} {u : α} {t : Tab α} :
    tabSorted ((i, u) :: t) = true ↔ tabAbove i t ∧ tabSorted t = true := by
  induction t generalizing i u with
  | nil => simp [tabSorted, tabAbove]
  | cons e r ih =>
    obtain ⟨j, v⟩ := e
    have k := @ih j v
    simp only [tabSorted, Bool.and_eq_true, decide_eq_true_eq]
    constructor
    · rintro ⟨h, g⟩
      refine ⟨fun e he => ?_, g⟩
      rcases List.mem_cons.1 he with rfl | he
      · exact h
      · exact Nat.lt_trans h ((k.1 g).1 e he)
    · rintro ⟨h, g⟩
      exact ⟨h _ List.mem_cons_self, g⟩

theorem tins_mem {k : Nat} {v : α} {t : Tab α} {e : Nat × α} (h : e ∈ tins k v t) : e = (k, v) ∨ e ∈ t := by
  induction t with
  | nil => exact Or.inl (by simpa [tins] using h)
  | cons f r ih =>
    obtain ⟨j, u⟩ := f
    simp only [tins] at h
    split at h
    · rcases List.mem_cons.1 h with h | h
      · exact Or.inl h
      · exact Or.inr h
    · split at h
      · rcases List.mem_cons.1 h with h | h
        · exact Or.inl h
        · exact Or.inr (List.mem_cons_of_mem _ h)
      · rcases List.mem_cons.1 h with h | h
        · exact Or.inr (h ▸ List.mem_cons_self)
        · exact (ih h).imp id fun h => List.mem_cons_of_mem _ h

theorem tins_sorted {k : Nat} {v : α} {t : Tab α} (h : tabSorted t = true) : tabSorted (tins k v t) = true := by
  induction t with
  | nil => rfl
  | cons f r ih =>
    obtain ⟨j, u⟩ := f
    have ⟨ha, hs⟩ := tabSorted_cons.1 h
    simp only [tins]
    split
    · rename_i hk
      exact tabSorted_cons.2 ⟨fun e he => by
        rcases List.mem_cons.1 he with rfl | he
        · exact hk
        · exact Nat.lt_trans hk (ha e he), h⟩
    · split
      · rename_i _ hk
        subst hk
        exact tabSorted_cons.2 ⟨ha, hs⟩
      · refine tabSorted_cons.2 ⟨fun e he => ?_, ih hs⟩
        rcases tins_mem he with rfl | he
        · rename_i h1 h2
          exact Nat.lt_of_le_of_ne (Nat.le_of_not_lt h1) (fun x => h2 x.symm)
        · exact ha e he

theorem filter_sorted {p : Nat × α → Bool} {t : Tab α} (h : tabSorted t = true) : tabSorted (t.filter p) = true := by
  induction t with
  | nil => rfl
  | cons f r ih =>
    obtain ⟨j, u⟩ := f
    have ⟨ha, hs⟩ := tabSorted_cons.1 h
    rw [List.filter_cons]
    split
    · exact tabSorted_cons.2 ⟨fun e he => ha e (List.mem_filter.1 he).1, ih hs⟩
    · exact ih hs

theorem tdel_sorted {k : Nat} {t : Tab α} (h : tabSorted t = true) : tabSorted (tdel k t) = true := filter_sorted h

theorem tput_sorted [DecidableEq α] {d v : α} {k : Nat} {t : Tab α} (h : tabSorted t = true) :
    tabSorted (tput d k v t) = true := by
  unfold tput
  split
  · exact tdel_sorted h
  · exact tins_sorted h

/-! ### Canonical form -/

theorem tabWf_nil [DecidableEq α] (d : α) : tabWf d ([] : Tab α) = true := rfl

/-- Writing a value keeps the canonical form. -/
theorem tput_wf [DecidableEq α] {d v : α} {k : Nat} {t : Tab α} (h : tabWf d t = true) : tabWf d (tput d k v t) = true := by
  simp only [tabWf, Bool.and_eq_true, List.all_eq_true, decide_eq_true_eq] at h ⊢
  refine ⟨tput_sorted h.1, fun e he => ?_⟩
  unfold tput at he
  split at he
  · exact h.2 e (List.mem_filter.1 he).1
  · rcases tins_mem he with rfl | he
    · assumption
    · exact h.2 e he

/-- Removing entries keeps the canonical form. -/
theorem filter_wf [DecidableEq α] {d : α} {p : Nat × α → Bool} {t : Tab α} (h : tabWf d t = true) :
    tabWf d (t.filter p) = true := by
  simp only [tabWf, Bool.and_eq_true, List.all_eq_true] at h ⊢
  exact ⟨filter_sorted h.1, fun e he => h.2 e (List.mem_filter.1 he).1⟩

/-! ### Reads after writes -/

theorem tget_nil (d : α) (k : Nat) : tget d [] k = d := rfl

theorem lookup_above {k : Nat} {t : Tab α} (h : tabAbove k t) : t.lookup k = none := by
  induction t with
  | nil => rfl
  | cons f r ih =>
    obtain ⟨j, u⟩ := f
    have hj : k < j := h _ List.mem_cons_self
    have : (k == j) = false := by simp; omega
    simp only [List.lookup_cons, this]
    exact ih fun e he => h e (List.mem_cons_of_mem _ he)

theorem lookup_tins {k j : Nat} {v : α} {t : Tab α} :
    (tins k v t).lookup j = if j = k then some v else t.lookup j := by
  by_cases h : j = k
  · subst h
    rw [if_pos rfl]
    induction t with
    | nil => simp [tins]
    | cons f r ih =>
      obtain ⟨i, u⟩ := f
      simp only [tins]
      split
      · simp
      · split
        · simp
        · rename_i _ h2
          have : (j == i) = false := by simp [h2]
          simp only [List.lookup_cons, this, ih]
  · have e : (j == k) = false := by simp [h]
    rw [if_neg h]
    induction t with
    | nil => simp only [tins, List.lookup_cons, e, List.lookup_nil]
    | cons f r ih =>
      obtain ⟨i, u⟩ := f
      simp only [tins]
      split
      · simp only [List.lookup_cons, e]
      · split
        · rename_i _ h2
          subst h2
          simp only [List.lookup_cons, e]
        · simp only [List.lookup_cons, ih]

theorem lookup_tdel_ne {k j : Nat} {t : Tab α} (h : j ≠ k) : (tdel k t).lookup j = t.lookup j := by
  induction t with
  | nil => rfl
  | cons f r ih =>
    obtain ⟨i, u⟩ := f
    unfold tdel at ih ⊢
    rw [List.filter_cons]
    split
    · simp only [List.lookup_cons, ih]
    · rename_i hi
      have hi : i = k := by simpa using hi
      have : (j == i) = false := by simp [hi, h]
      simp only [List.lookup_cons, this, ih]

theorem lookup_tdel_self {k : Nat} {t : Tab α} : (tdel k t).lookup k = none := by
  induction t with
  | nil => rfl
  | cons f r ih =>
    obtain ⟨i, u⟩ := f
    unfold tdel at ih ⊢
    rw [List.filter_cons]
    split
    · rename_i hi
      have hi : i ≠ k := by simpa using hi
      have : (k == i) = false := by simp; exact fun x => hi x.symm
      simp only [List.lookup_cons, this, ih]
    · exact ih

/-- Reading the index that was written gives the value. -/
@[simp] theorem tget_tput_self [DecidableEq α] (d v : α) (k : Nat) (t : Tab α) : tget d (tput d k v t) k = v := by
  unfold tget tput
  split
  · rename_i h
    rw [lookup_tdel_self, h]
    rfl
  · rw [lookup_tins, if_pos rfl]
    rfl

/-- Reading another index gives what it gave; the defaults may differ. -/
theorem tget_tput_ne [DecidableEq α] (d e v : α) {k j : Nat} (h : j ≠ k) (t : Tab α) :
    tget e (tput d k v t) j = tget e t j := by
  unfold tget tput
  split
  · rw [lookup_tdel_ne h]
  · rw [lookup_tins, if_neg h]

@[simp] theorem tget_tmod_self [DecidableEq α] (d : α) (k : Nat) (f : α → α) (t : Tab α) :
    tget d (tmod d k f t) k = f (tget d t k) := tget_tput_self ..

theorem tget_tmod_ne [DecidableEq α] (d e : α) (f : α → α) {k j : Nat} (h : j ≠ k) (t : Tab α) :
    tget e (tmod d k f t) j = tget e t j := tget_tput_ne _ _ _ h _

theorem tmod_wf [DecidableEq α] {d : α} {f : α → α} {k : Nat} {t : Tab α} (h : tabWf d t = true) :
    tabWf d (tmod d k f t) = true := tput_wf h

end Sys2Proof.Machine
end

