-- ==== Sys2Proof/Laws/Mem.lean ====
section
/-! SUPPORT. Byte memories: every operation keeps the canonical form; what a read gives after a write. -/

namespace Sys2Proof.Machine

set_option Elab.async false

/-! ### Canonical form -/

theorem Memory.wf_nil : Memory.wf [] = true := rfl

theorem Memory.writeByte_wf {a : Nat} {b : Byte} {m : List Host.Cell} (h : Memory.wf m = true) :
    Memory.wf (Memory.writeByte a b m) = true := tput_wf h

theorem Memory.writeBytes_wf {a : Nat} {bs : List Byte} {m : List Host.Cell} (h : Memory.wf m = true) :
    Memory.wf (Memory.writeBytes a bs m) = true := by
  induction bs generalizing a m with
  | nil => exact h
  | cons b bs ih => exact ih (Memory.writeByte_wf h)

theorem Memory.foldl_wf {α : Type} {f : List Host.Cell → α → List Host.Cell} {l : List α} {m : List Host.Cell}
    (hf : ∀ m a, Memory.wf m = true → Memory.wf (f m a) = true) (h : Memory.wf m = true) :
    Memory.wf (l.foldl f m) = true := by
  induction l generalizing m with
  | nil => exact h
  | cons a l ih => exact ih (hf m a h)

theorem Memory.writeWord_wf {a : Nat} {w : Word} {be : BitVec 4} {m : List Host.Cell} (h : Memory.wf m = true) :
    Memory.wf (Memory.writeWord a w be m) = true := by
  refine Memory.foldl_wf (fun m i hm => ?_) h
  split
  · exact Memory.writeByte_wf hm
  · exact hm

theorem Memory.clear_wf {lo hi : Nat} {m : List Host.Cell} (h : Memory.wf m = true) :
    Memory.wf (Memory.clear lo hi m) = true := filter_wf h

theorem Memory.putBytes_wf {bad : List Nat} {a : Nat} {bs : List Byte} {m : List Host.Cell} (h : Memory.wf m = true) :
    Memory.wf (putBytes bad a bs m) = true := by
  unfold putBytes
  split
  · exact Memory.writeBytes_wf h
  · refine Memory.foldl_wf (fun m b hm => ?_) h
    split
    · exact hm
    · exact Memory.writeByte_wf hm

/-! ### Reads after writes -/

@[simp] theorem Memory.read_writeByte_self (a : Nat) (b : Byte) (m : List Host.Cell) :
    Memory.readByte (Memory.writeByte a b m) a = b := tget_tput_self ..

theorem Memory.read_writeByte_ne {a k : Nat} (h : k ≠ a) (b : Byte) (m : List Host.Cell) :
    Memory.readByte (Memory.writeByte a b m) k = Memory.readByte m k := tget_tput_ne _ _ _ h _

theorem Memory.read_writeBytes_out {a k : Nat} {bs : List Byte} (h : k < a ∨ a + bs.length ≤ k) (m : List Host.Cell) :
    Memory.readByte (Memory.writeBytes a bs m) k = Memory.readByte m k := by
  induction bs generalizing a m with
  | nil => rfl
  | cons b bs ih =>
    simp only [List.length_cons] at h
    rw [Memory.writeBytes, ih (by omega), Memory.read_writeByte_ne (by omega)]

theorem Memory.read_writeBytes_in {a k : Nat} {bs : List Byte} (h : a ≤ k) (g : k < a + bs.length) (m : List Host.Cell) :
    Memory.readByte (Memory.writeBytes a bs m) k = bs.getD (k - a) 0 := by
  induction bs generalizing a m with
  | nil => simp at g; omega
  | cons b bs ih =>
    simp only [List.length_cons] at g
    rw [Memory.writeBytes]
    by_cases e : k = a
    · subst e
      rw [Memory.read_writeBytes_out (by omega), Memory.read_writeByte_self]
      simp
    · rw [ih (by omega) (by omega)]
      obtain ⟨n, rfl⟩ : ∃ n, k = a + 1 + n := ⟨k - (a + 1), by omega⟩
      have h1 : a + 1 + n - (a + 1) = n := by omega
      have h2 : a + 1 + n - a = n + 1 := by omega
      rw [h1, h2]
      simp

theorem Memory.read_foldl_out {k : Nat} {a : Nat} {w : Word} {be : BitVec 4} {m : List Host.Cell} {l : List Nat}
    (h : ∀ i ∈ l, a + i ≠ k) :
    Memory.readByte (l.foldl (fun m i => if be.getLsbD i then Memory.writeByte (a + i) (w.extractLsb' (8 * i) 8) m else m) m) k =
      Memory.readByte m k := by
  induction l generalizing m with
  | nil => rfl
  | cons i l ih =>
    rw [List.foldl_cons, ih fun j hj => h j (List.mem_cons_of_mem _ hj)]
    split
    · exact Memory.read_writeByte_ne (fun e => h i List.mem_cons_self e.symm) ..
    · rfl

/-- A word write leaves every byte outside the word as it was. -/
theorem Memory.read_writeWord_out {a k : Nat} (h : k < a ∨ a + 4 ≤ k) (w : Word) (be : BitVec 4) (m : List Host.Cell) :
    Memory.readByte (Memory.writeWord a w be m) k = Memory.readByte m k := by
  refine Memory.read_foldl_out fun i hi => ?_
  have := List.mem_range.1 hi
  omega

theorem lookup_filter_key {α : Type} {p : Nat → Bool} {t : Tab α} {k : Nat} (h : p k = true) :
    (t.filter fun e => p e.1).lookup k = t.lookup k := by
  induction t with
  | nil => rfl
  | cons e r ih =>
    obtain ⟨i, u⟩ := e
    rw [List.filter_cons]
    split
    · simp only [List.lookup_cons, ih]
    · rename_i hi
      have : (k == i) = false := by
        rw [beq_eq_false_iff_ne]
        rintro rfl
        exact hi h
      simp only [List.lookup_cons, this, ih]

/-- Clearing a range leaves every byte outside it as it was. -/
theorem Memory.read_clear_out {lo hi k : Nat} (h : k < lo ∨ hi ≤ k) (m : List Host.Cell) :
    Memory.readByte (Memory.clear lo hi m) k = Memory.readByte m k := by
  unfold Memory.readByte tget Memory.clear
  rw [lookup_filter_key (p := fun i => decide (i < lo) || decide (hi ≤ i))]
  simpa using h

/-- Bytes written to a memory in which no word is in error are the bytes that stand there, and no word is in error after (R375). -/
@[simp] theorem putBytes_nil (a : Nat) (bs : List Byte) (m : List Host.Cell) : putBytes [] a bs m = Memory.writeBytes a bs m := rfl
@[simp] theorem healed_nil (a n : Nat) : healed a n [] = [] := rfl

/-- A write of bytes changes no other byte (R375). -/
theorem read_putBytes_out {bad : List Nat} {a k : Nat} {bs : List Byte} (h : k < a ∨ a + bs.length ≤ k) (m : List Host.Cell) :
    Memory.readByte (putBytes bad a bs m) k = Memory.readByte m k := by
  unfold putBytes
  split
  · exact Memory.read_writeBytes_out h m
  · have key : ∀ (l : List (Byte × Nat)) (m : List Host.Cell), (∀ b ∈ l, b.2 < bs.length) →
        Memory.readByte (l.foldl (fun m b => if (healed a bs.length bad).contains ((a + b.2) / 4) then m
          else Memory.writeByte (a + b.2) b.1 m) m) k = Memory.readByte m k := by
      intro l
      induction l with
      | nil => intro m _; rfl
      | cons b l ih =>
        intro m hl
        rw [List.foldl_cons, ih _ fun c hc => hl c (List.mem_cons_of_mem _ hc)]
        split
        · rfl
        · have := hl b List.mem_cons_self
          exact Memory.read_writeByte_ne (by omega) _ _
    refine key _ _ fun b hb => ?_
    have := List.snd_lt_of_mem_zipIdx hb
    omega

end Sys2Proof.Machine
end

