-- ==== Sys2Proof/Laws/Rates.lean ====
section
/-! SUPPORT. The timebase's rates stay within the range of TIME_INCR (R72). -/

namespace Sys2Proof.Machine

set_option Elab.async false

theorem rateOk_nominal : rateOk incrNominal := by
  unfold rateOk
  decide

theorem clampN_bounds {lo hi n : Nat} (h : lo ≤ hi) : lo ≤ clampN lo hi n ∧ clampN lo hi n ≤ hi := by
  unfold clampN
  omega

theorem w32_toNat {n : Nat} (h : n < 2 ^ 32) : (w32 n).toNat = n := by
  unfold w32
  rw [BitVec.toNat_ofNat]
  omega

theorem rateOk_w32 {n : Nat} (h : incrMin ≤ n ∧ n ≤ incrMax) : rateOk (w32 n) := by
  have := h.2
  unfold incrMax at this
  unfold rateOk
  rw [w32_toNat (by omega)]
  exact h

theorem rateOk_clamp (n : Nat) : rateOk (incrClamp n) := rateOk_w32 (clampN_bounds (by decide))

theorem slew_le {w : Word} (h : rateOk w) : slewMin w ≤ slewMax w := by
  obtain ⟨h1, h2⟩ := h
  unfold slewMin slewMax
  unfold incrMin incrMax at *
  omega

theorem rateOk_slew {w : Word} (h : rateOk w) (n : Nat) : rateOk (w32 (clampN (slewMin w) (slewMax w) n)) := by
  have ⟨a, b⟩ := clampN_bounds (n := n) (slew_le h)
  refine rateOk_w32 ⟨Nat.le_trans ?_ a, Nat.le_trans b ?_⟩
  · exact Nat.le_max_left ..
  · exact Nat.min_le_left ..

theorem rateOk_slewIncr {w : Word} (h : rateOk w) (rest : Int) (n : Nat) : rateOk (slewIncr w rest n) := by
  obtain ⟨h1, h2⟩ := h
  unfold slewIncr
  refine rateOk_w32 ?_
  unfold slewMin slewMax
  unfold incrMin incrMax at *
  split <;> omega

theorem rateSumOk_zero : rateSumOk 0 0 := ⟨by simp, by simp⟩

theorem rateSumOk_add {n m k : Nat} {w : Word} (h : rateSumOk n m) (hw : rateOk w) : rateSumOk (n + k) (m + k * w.toNat) := by
  obtain ⟨h1, h2⟩ := h
  have a := Nat.mul_le_mul_left k hw.1
  have b := Nat.mul_le_mul_left k hw.2
  constructor
  · rw [Nat.add_mul]; omega
  · rw [Nat.add_mul]; omega

theorem rateSumOk_append {n m n' m' : Nat} (h : rateSumOk n m) (k : rateSumOk n' m') : rateSumOk (n + n') (m + m') := by
  obtain ⟨h1, h2⟩ := h
  obtain ⟨k1, k2⟩ := k
  constructor <;> rw [Nat.add_mul] <;> omega

theorem rateSumOk_foldl {l : List (Nat × Nat)} (h : ∀ x ∈ l, rateSumOk x.1 x.2) {a b : Nat} (hab : rateSumOk a b) :
    rateSumOk (l.foldl (fun a x => a + x.1) a) (l.foldl (fun a x => a + x.2) b) := by
  induction l generalizing a b with
  | nil => exact hab
  | cons e l ih =>
    exact ih (fun x hx => h x (List.mem_cons_of_mem _ hx)) (rateSumOk_append hab (h e List.mem_cons_self))

/-- A mean of rates within the range lies in the range (R84). -/
theorem rateOk_mean {n m : Nat} (h : rateSumOk n m) (hn : n ≠ 0) : rateOk (w32 (divRne (m : Int) n).toNat) := by
  obtain ⟨h1, h2⟩ := h
  have hp : 0 < n := Nat.pos_of_ne_zero hn
  have q1 : incrMin ≤ m / n := (Nat.le_div_iff_mul_le hp).2 (by rw [Nat.mul_comm]; exact h1)
  have q2 : m / n ≤ incrMax := (Nat.div_le_iff_le_mul_add_pred hp).2 (by omega)
  have hd : ((m : Int).fdiv n) = ((m / n : Nat) : Int) := by
    rw [Int.fdiv_eq_ediv_of_nonneg _ (by omega)]; rfl
  have hm : ((m : Int).fmod n) = ((m % n : Nat) : Int) := by
    rw [Int.fmod_eq_emod_of_nonneg _ (by omega)]; rfl
  have up : m / n = incrMax → m % n = 0 := by
    intro e
    have := Nat.div_add_mod m n
    rw [e] at this
    omega
  unfold divRne
  simp only [hd, hm]
  refine rateOk_w32 ?_
  have : incrMin ≤ m / n := q1
  split
  · simp only [Int.toNat_natCast]; exact ⟨q1, q2⟩
  · split
    · have : m % n ≠ 0 := by omega
      have : m / n ≠ incrMax := fun e => this (up e)
      have e : (((m / n : Nat) : Int) + 1).toNat = m / n + 1 := by omega
      rw [e]; omega
    · split
      · simp only [Int.toNat_natCast]; exact ⟨q1, q2⟩
      · have : m % n ≠ 0 := by omega
        have : m / n ≠ incrMax := fun e => this (up e)
        have e : (((m / n : Nat) : Int) + 1).toNat = m / n + 1 := by omega
        rw [e]; omega

theorem Time.ok_ticksOn {t : Time} (n : Nat) (h : t.Ok) : (Time.ticksOn n t).Ok := by
  obtain ⟨_, h2, h3, h4, h5, h6⟩ := h
  unfold Time.ticksOn Time.Ok
  dsimp only
  exact ⟨Nat.mod_lt _ (by omega), h2, h3, h4, rateSumOk_add h5 h2, h6⟩

theorem Time.ok_endSlew {t : Time} {w : Word} (hw : rateOk w) (h : t.Ok) : (Time.endSlew w t).Ok := by
  obtain ⟨h1, _, h3, h4, h5, h6⟩ := h
  unfold Time.endSlew Time.Ok
  exact ⟨h1, hw, h3, h4, h5, h6⟩

theorem Time.ok_ppsFree {t : Time} (h : t.Ok) : t.ppsFree.Ok := by
  unfold Time.ppsFree
  split <;> exact h

theorem Time.ok_hoPush {t : Time} (h : t.Ok) : t.hoPush.Ok := by
  obtain ⟨h1, h2, h3, h4, h5, h6, h7⟩ := h
  unfold Time.hoPush Time.Ok
  dsimp only
  by_cases hs : t.state = 0
  · simp only [hs, if_true]
    have hh : ∀ x ∈ ((t.ticks, t.incrSum) :: t.hoHist).take 1024, rateSumOk x.1 x.2 := by
      intro x hx
      rcases List.mem_cons.1 (List.mem_of_mem_take hx) with rfl | hx
      · exact h5
      · exact h6 x hx
    have hl : (((t.ticks, t.incrSum) :: t.hoHist).take 1024).length ≤ 1024 := List.length_take_le ..
    generalize ((t.ticks, t.incrSum) :: t.hoHist).take 1024 = l at hh hl
    refine ⟨h1, h2, ?_, h4, rateSumOk_zero, hh, hl⟩
    split
    · rename_i hc
      exact rateOk_mean (rateSumOk_foldl hh rateSumOk_zero) (by simpa using hc)
    · exact h3
  · simp only [hs, if_false]
    exact ⟨h1, h2, h3, h4, rateSumOk_zero, h6, h7⟩

end Sys2Proof.Machine
end

