-- ==== Sys2Proof/Laws/FootBase.lean ====
section
/-! SUPPORT. What the footprints of every file rest on. -/

namespace Sys2Proof.Machine

set_option Elab.async false

/-- Writes to either memory keep what every step keeps (R375). -/
theorem Memory.ok_putSram {a : Nat} {bs : List Byte} {m : Memory} (h : m.Ok) : (m.putSram a bs).Ok :=
  ⟨Memory.putBytes_wf h.1, h.2⟩

theorem Memory.ok_putPantry {a : Nat} {bs : List Byte} {m : Memory} (h : m.Ok) : (m.putPantry a bs).Ok :=
  ⟨h.1, Memory.putBytes_wf h.2.1, h.2.2⟩

theorem BlockAt.ok_put {b : BlockAt} {bs : List Byte} {m : Memory} (h : m.Ok) : (b.put bs m).Ok := by
  cases b
  · exact Memory.ok_putSram h
  · exact Memory.ok_putPantry h

theorem Memory.ok_foldl {α : Type} {f : Memory → α → Memory} {l : List α} {m : Memory} (hf : ∀ m x, m.Ok → (f m x).Ok) (h : m.Ok) :
    (l.foldl f m).Ok := by
  induction l generalizing m with
  | nil => exact h
  | cons x l ih => exact ih (hf m x h)

end Sys2Proof.Machine
end

