-- ==== Sys2Proof/Laws/FootObjects.lean ====
section
/-! SUPPORT. Footprints of the operations of Machine/Objects.lean: the parts each may change, and that it keeps what every
step keeps. -/

namespace Sys2Proof.Machine

set_option Elab.async false

theorem foot_onBank {ps : List Part} {s0 s : State} {b : Nat} {f : Bank → Bank} (h : Foot ps s0 s) (hp : [.line] ⊆ ps) :
    Foot ps s0 (State.onBank s b f) := by
  unfold State.onBank
  repeat' first
    | with_reducible exact h
    | with_reducible assumption
    | (extract_lets +onlyGivenNames y; first
       | (have e : y = _ := rfl; clear_value y; refine (fun hy => ?_ : Foot ps s0 y → _) ?_; (clear e); (subst e))
       | subst y)
    | with_reducible refine foot_ite (fun _ => ?_) (fun _ => ?_)
    | ((with_reducible refine foot_onLine ?_ ?m ?k); (case k => first | exact (fun k => k) | exact (slotsOk_put _)); (case m => exact hp (by decide)))
    | with_reducible refine foot_fst (by with_reducible assumption) ?_
    | with_reducible refine foot_snd (by with_reducible assumption) ?_
    | split
    | with_reducible refine foot_foldl (fun u a hu => ?_) ?_

theorem foot_onDapP {ps : List Part} {s0 s : State} {p : Nat} {f : Dap → Dap} (h : Foot ps s0 s) (hp : [.dap] ⊆ ps) :
    Foot ps s0 (State.onDapP s p f) := by
  unfold State.onDapP
  repeat' first
    | with_reducible exact h
    | with_reducible assumption
    | (extract_lets +onlyGivenNames y; first
       | (have e : y = _ := rfl; clear_value y; refine (fun hy => ?_ : Foot ps s0 y → _) ?_; (clear e); (subst e))
       | subst y)
    | with_reducible refine foot_ite (fun _ => ?_) (fun _ => ?_)
    | ((with_reducible refine foot_onDap ?_ ?m); (case m => exact hp (by decide)))
    | with_reducible refine foot_fst (by with_reducible assumption) ?_
    | with_reducible refine foot_snd (by with_reducible assumption) ?_
    | split
    | with_reducible refine foot_foldl (fun u a hu => ?_) ?_

theorem foot_onDom {ps : List Part} {s0 s : State} {d : Nat} {f : Domain → Domain} (h : Foot ps s0 s) (hp : [.power] ⊆ ps) :
    Foot ps s0 (State.onDom s d f) := by
  unfold State.onDom
  repeat' first
    | with_reducible exact h
    | with_reducible assumption
    | (extract_lets +onlyGivenNames y; first
       | (have e : y = _ := rfl; clear_value y; refine (fun hy => ?_ : Foot ps s0 y → _) ?_; (clear e); (subst e))
       | subst y)
    | with_reducible refine foot_ite (fun _ => ?_) (fun _ => ?_)
    | ((with_reducible refine foot_onPower ?_ ?m); (case m => exact hp (by decide)))
    | with_reducible refine foot_fst (by with_reducible assumption) ?_
    | with_reducible refine foot_snd (by with_reducible assumption) ?_
    | split
    | with_reducible refine foot_foldl (fun u a hu => ?_) ?_

theorem foot_onEchoL {ps : List Part} {s0 s : State} {l : Nat} {f : Echo → Echo} (h : Foot ps s0 s) (hp : [.echo] ⊆ ps) :
    Foot ps s0 (State.onEchoL s l f) := by
  unfold State.onEchoL
  repeat' first
    | with_reducible exact h
    | with_reducible assumption
    | (extract_lets +onlyGivenNames y; first
       | (have e : y = _ := rfl; clear_value y; refine (fun hy => ?_ : Foot ps s0 y → _) ?_; (clear e); (subst e))
       | subst y)
    | with_reducible refine foot_ite (fun _ => ?_) (fun _ => ?_)
    | ((with_reducible refine foot_onEcho ?_ ?m); (case m => exact hp (by decide)))
    | with_reducible refine foot_fst (by with_reducible assumption) ?_
    | with_reducible refine foot_snd (by with_reducible assumption) ?_
    | split
    | with_reducible refine foot_foldl (fun u a hu => ?_) ?_

theorem foot_onGrp {ps : List Part} {s0 s : State} {g : Nat} {f : GroupCfg → GroupCfg} (h : Foot ps s0 s) (hp : [.mix] ⊆ ps) :
    Foot ps s0 (State.onGrp s g f) := by
  unfold State.onGrp
  repeat' first
    | with_reducible exact h
    | with_reducible assumption
    | (extract_lets +onlyGivenNames y; first
       | (have e : y = _ := rfl; clear_value y; refine (fun hy => ?_ : Foot ps s0 y → _) ?_; (clear e); (subst e))
       | subst y)
    | with_reducible refine foot_ite (fun _ => ?_) (fun _ => ?_)
    | ((with_reducible refine foot_onMix ?_ ?m); (case m => exact hp (by decide)))
    | with_reducible refine foot_fst (by with_reducible assumption) ?_
    | with_reducible refine foot_snd (by with_reducible assumption) ?_
    | split
    | with_reducible refine foot_foldl (fun u a hu => ?_) ?_

theorem foot_onHumL {ps : List Part} {s0 s : State} {l : Nat} {f : Hum → Hum} (h : Foot ps s0 s) (hp : [.hum] ⊆ ps) :
    Foot ps s0 (State.onHumL s l f) := by
  unfold State.onHumL
  repeat' first
    | with_reducible exact h
    | with_reducible assumption
    | (extract_lets +onlyGivenNames y; first
       | (have e : y = _ := rfl; clear_value y; refine (fun hy => ?_ : Foot ps s0 y → _) ?_; (clear e); (subst e))
       | subst y)
    | with_reducible refine foot_ite (fun _ => ?_) (fun _ => ?_)
    | ((with_reducible refine foot_onHum ?_ ?m); (case m => exact hp (by decide)))
    | with_reducible refine foot_fst (by with_reducible assumption) ?_
    | with_reducible refine foot_snd (by with_reducible assumption) ?_
    | split
    | with_reducible refine foot_foldl (fun u a hu => ?_) ?_

theorem foot_onLegCfg {ps : List Part} {s0 s : State} {l : Nat} {f : LegCfg → LegCfg} (h : Foot ps s0 s) (hp : [.mix] ⊆ ps) :
    Foot ps s0 (State.onLegCfg s l f) := by
  unfold State.onLegCfg
  repeat' first
    | with_reducible exact h
    | with_reducible assumption
    | (extract_lets +onlyGivenNames y; first
       | (have e : y = _ := rfl; clear_value y; refine (fun hy => ?_ : Foot ps s0 y → _) ?_; (clear e); (subst e))
       | subst y)
    | with_reducible refine foot_ite (fun _ => ?_) (fun _ => ?_)
    | ((with_reducible refine foot_onMix ?_ ?m); (case m => exact hp (by decide)))
    | with_reducible refine foot_fst (by with_reducible assumption) ?_
    | with_reducible refine foot_snd (by with_reducible assumption) ?_
    | split
    | with_reducible refine foot_foldl (fun u a hu => ?_) ?_

theorem foot_onLegSt {ps : List Part} {s0 s : State} {l : Nat} {f : LegSt → LegSt} (h : Foot ps s0 s) (hp : [.mix] ⊆ ps) :
    Foot ps s0 (State.onLegSt s l f) := by
  unfold State.onLegSt
  repeat' first
    | with_reducible exact h
    | with_reducible assumption
    | (extract_lets +onlyGivenNames y; first
       | (have e : y = _ := rfl; clear_value y; refine (fun hy => ?_ : Foot ps s0 y → _) ?_; (clear e); (subst e))
       | subst y)
    | with_reducible refine foot_ite (fun _ => ?_) (fun _ => ?_)
    | ((with_reducible refine foot_onMix ?_ ?m); (case m => exact hp (by decide)))
    | with_reducible refine foot_fst (by with_reducible assumption) ?_
    | with_reducible refine foot_snd (by with_reducible assumption) ?_
    | split
    | with_reducible refine foot_foldl (fun u a hu => ?_) ?_

theorem foot_onNetP {ps : List Part} {s0 s : State} {p : Nat} {f : Net → Net} (h : Foot ps s0 s) (hp : [.net] ⊆ ps) :
    Foot ps s0 (State.onNetP s p f) := by
  unfold State.onNetP
  repeat' first
    | with_reducible exact h
    | with_reducible assumption
    | (extract_lets +onlyGivenNames y; first
       | (have e : y = _ := rfl; clear_value y; refine (fun hy => ?_ : Foot ps s0 y → _) ?_; (clear e); (subst e))
       | subst y)
    | with_reducible refine foot_ite (fun _ => ?_) (fun _ => ?_)
    | ((with_reducible refine foot_onNet ?_ ?m); (case m => exact hp (by decide)))
    | with_reducible refine foot_fst (by with_reducible assumption) ?_
    | with_reducible refine foot_snd (by with_reducible assumption) ?_
    | split
    | with_reducible refine foot_foldl (fun u a hu => ?_) ?_

theorem foot_onPort {ps : List Part} {s0 s : State} {p : Nat} {f : PortSt → PortSt} (h : Foot ps s0 s) (hp : [.line] ⊆ ps) :
    Foot ps s0 (State.onPort s p f) := by
  unfold State.onPort
  repeat' first
    | with_reducible exact h
    | with_reducible assumption
    | (extract_lets +onlyGivenNames y; first
       | (have e : y = _ := rfl; clear_value y; refine (fun hy => ?_ : Foot ps s0 y → _) ?_; (clear e); (subst e))
       | subst y)
    | with_reducible refine foot_ite (fun _ => ?_) (fun _ => ?_)
    | ((with_reducible refine foot_onLine ?_ ?m ?k); (case k => first | exact (fun k => k) | exact (slotsOk_put _)); (case m => exact hp (by decide)))
    | with_reducible refine foot_fst (by with_reducible assumption) ?_
    | with_reducible refine foot_snd (by with_reducible assumption) ?_
    | split
    | with_reducible refine foot_foldl (fun u a hu => ?_) ?_

theorem foot_onPortCfg {ps : List Part} {s0 s : State} {p : Nat} {f : PortCfg → PortCfg} (h : Foot ps s0 s) (hp : [.line] ⊆ ps) :
    Foot ps s0 (State.onPortCfg s p f) := by
  unfold State.onPortCfg
  repeat' first
    | with_reducible exact h
    | with_reducible assumption
    | (extract_lets +onlyGivenNames y; first
       | (have e : y = _ := rfl; clear_value y; refine (fun hy => ?_ : Foot ps s0 y → _) ?_; (clear e); (subst e))
       | subst y)
    | with_reducible refine foot_ite (fun _ => ?_) (fun _ => ?_)
    | ((with_reducible refine foot_onLine ?_ ?m ?k); (case k => first | exact (fun k => k) | exact (slotsOk_put _)); (case m => exact hp (by decide)))
    | with_reducible refine foot_fst (by with_reducible assumption) ?_
    | with_reducible refine foot_snd (by with_reducible assumption) ?_
    | split
    | with_reducible refine foot_foldl (fun u a hu => ?_) ?_

theorem foot_onRxS {ps : List Part} {s0 s : State} {n : Nat} {f : Stream → Stream} (h : Foot ps s0 s) (hp : [.media] ⊆ ps) :
    Foot ps s0 (State.onRxS s n f) := by
  unfold State.onRxS
  repeat' first
    | with_reducible exact h
    | with_reducible assumption
    | (extract_lets +onlyGivenNames y; first
       | (have e : y = _ := rfl; clear_value y; refine (fun hy => ?_ : Foot ps s0 y → _) ?_; (clear e); (subst e))
       | subst y)
    | with_reducible refine foot_ite (fun _ => ?_) (fun _ => ?_)
    | ((with_reducible refine foot_onMedia ?_ ?m); (case m => exact hp (by decide)))
    | with_reducible refine foot_fst (by with_reducible assumption) ?_
    | with_reducible refine foot_snd (by with_reducible assumption) ?_
    | split
    | with_reducible refine foot_foldl (fun u a hu => ?_) ?_

theorem foot_onSounding {ps : List Part} {s0 s : State} {p : Nat} {f : Sounding → Sounding} (h : Foot ps s0 s) (hp : [.line] ⊆ ps) :
    Foot ps s0 (State.onSounding s p f) := by
  unfold State.onSounding
  repeat' first
    | with_reducible exact h
    | with_reducible assumption
    | (extract_lets +onlyGivenNames y; first
       | (have e : y = _ := rfl; clear_value y; refine (fun hy => ?_ : Foot ps s0 y → _) ?_; (clear e); (subst e))
       | subst y)
    | with_reducible refine foot_ite (fun _ => ?_) (fun _ => ?_)
    | ((with_reducible refine foot_onLine ?_ ?m ?k); (case k => first | exact (fun k => k) | exact (slotsOk_put _)); (case m => exact hp (by decide)))
    | with_reducible refine foot_fst (by with_reducible assumption) ?_
    | with_reducible refine foot_snd (by with_reducible assumption) ?_
    | split
    | with_reducible refine foot_foldl (fun u a hu => ?_) ?_

theorem foot_onTile {ps : List Part} {s0 s : State} {t : Nat} {f : Tile → Tile} (h : Foot ps s0 s) (hp : [.tiles] ⊆ ps) :
    Foot ps s0 (State.onTile s t f) := by
  unfold State.onTile
  repeat' first
    | with_reducible exact h
    | with_reducible assumption
    | (extract_lets +onlyGivenNames y; first
       | (have e : y = _ := rfl; clear_value y; refine (fun hy => ?_ : Foot ps s0 y → _) ?_; (clear e); (subst e))
       | subst y)
    | with_reducible refine foot_ite (fun _ => ?_) (fun _ => ?_)
    | ((with_reducible refine foot_onTiles ?_ ?m ?k); (case k => first | exact (fun k => k) | exact (slotsOk_put _)); (case m => exact hp (by decide)))
    | with_reducible refine foot_fst (by with_reducible assumption) ?_
    | with_reducible refine foot_snd (by with_reducible assumption) ?_
    | split
    | with_reducible refine foot_foldl (fun u a hu => ?_) ?_

theorem foot_onTxS {ps : List Part} {s0 s : State} {n : Nat} {f : Stream → Stream} (h : Foot ps s0 s) (hp : [.media] ⊆ ps) :
    Foot ps s0 (State.onTxS s n f) := by
  unfold State.onTxS
  repeat' first
    | with_reducible exact h
    | with_reducible assumption
    | (extract_lets +onlyGivenNames y; first
       | (have e : y = _ := rfl; clear_value y; refine (fun hy => ?_ : Foot ps s0 y → _) ?_; (clear e); (subst e))
       | subst y)
    | with_reducible refine foot_ite (fun _ => ?_) (fun _ => ?_)
    | ((with_reducible refine foot_onMedia ?_ ?m); (case m => exact hp (by decide)))
    | with_reducible refine foot_fst (by with_reducible assumption) ?_
    | with_reducible refine foot_snd (by with_reducible assumption) ?_
    | split
    | with_reducible refine foot_foldl (fun u a hu => ?_) ?_

theorem foot_onVadL {ps : List Part} {s0 s : State} {l : Nat} {f : Vad → Vad} (h : Foot ps s0 s) (hp : [.vad] ⊆ ps) :
    Foot ps s0 (State.onVadL s l f) := by
  unfold State.onVadL
  repeat' first
    | with_reducible exact h
    | with_reducible assumption
    | (extract_lets +onlyGivenNames y; first
       | (have e : y = _ := rfl; clear_value y; refine (fun hy => ?_ : Foot ps s0 y → _) ?_; (clear e); (subst e))
       | subst y)
    | with_reducible refine foot_ite (fun _ => ?_) (fun _ => ?_)
    | ((with_reducible refine foot_onVad ?_ ?m); (case m => exact hp (by decide)))
    | with_reducible refine foot_fst (by with_reducible assumption) ?_
    | with_reducible refine foot_snd (by with_reducible assumption) ?_
    | split
    | with_reducible refine foot_foldl (fun u a hu => ?_) ?_

theorem foot_onWatch {ps : List Part} {s0 s : State} {p : Nat} {f : Watch → Watch} (h : Foot ps s0 s) (hp : [.line] ⊆ ps) :
    Foot ps s0 (State.onWatch s p f) := by
  unfold State.onWatch
  repeat' first
    | with_reducible exact h
    | with_reducible assumption
    | (extract_lets +onlyGivenNames y; first
       | (have e : y = _ := rfl; clear_value y; refine (fun hy => ?_ : Foot ps s0 y → _) ?_; (clear e); (subst e))
       | subst y)
    | with_reducible refine foot_ite (fun _ => ?_) (fun _ => ?_)
    | ((with_reducible refine foot_onLine ?_ ?m ?k); (case k => first | exact (fun k => k) | exact (slotsOk_put _)); (case m => exact hp (by decide)))
    | with_reducible refine foot_fst (by with_reducible assumption) ?_
    | with_reducible refine foot_snd (by with_reducible assumption) ?_
    | split
    | with_reducible refine foot_foldl (fun u a hu => ?_) ?_

end Sys2Proof.Machine
end

