-- ==== Sys2Proof/Laws/FootOps.lean ====
section
/-! SUPPORT. Footprints of the operations of Machine/Ops.lean: the parts each may change, and that it keeps what every
step keeps. -/

namespace Sys2Proof.Machine

set_option Elab.async false

theorem foot_countN {ps : List Part} {s0 s : State} {i : Nat} {k : Nat} (h : Foot ps s0 s) (hp : [.trace] ⊆ ps) :
    Foot ps s0 (State.countN s i k) := by
  unfold State.countN
  repeat' first
    | with_reducible exact h
    | with_reducible assumption
    | (extract_lets +onlyGivenNames y; first
       | (have e : y = _ := rfl; clear_value y; refine (fun hy => ?_ : Foot ps s0 y → _) ?_; (clear e); (subst e))
       | subst y)
    | with_reducible refine foot_ite (fun _ => ?_) (fun _ => ?_)
    | ((with_reducible refine foot_onTrace ?_ ?m ?k); (case k => exact (fun k => k)); (case m => exact hp (by decide)))
    | with_reducible refine foot_fst (by with_reducible assumption) ?_
    | with_reducible refine foot_snd (by with_reducible assumption) ?_
    | split
    | with_reducible refine foot_foldl (fun u a hu => ?_) ?_

theorem foot_drawn {ps : List Part} {s0 s : State}  (h : Foot ps s0 s) (hp : [.draw] ⊆ ps) :
    Foot ps s0 (State.drawn s).2 := by
  unfold State.drawn
  repeat' first
    | with_reducible exact h
    | with_reducible assumption
    | (extract_lets +onlyGivenNames y; first
       | (have e : y = _ := rfl; clear_value y; refine (fun hy => ?_ : Foot ps s0 y → _) ?_; (clear e); (subst e))
       | subst y)
    | with_reducible refine foot_ite (fun _ => ?_) (fun _ => ?_)
    | ((with_reducible refine foot_onDraw ?_ ?m); (case m => exact hp (by decide)))
    | with_reducible refine foot_fst (by with_reducible assumption) ?_
    | with_reducible refine foot_snd (by with_reducible assumption) ?_
    | split
    | with_reducible refine foot_foldl (fun u a hu => ?_) ?_

theorem foot_logMem {ps : List Part} {s0 s : State} {src : Nat} {uncorr : Bool} {master : Nat} {owner : Nat} {addr : Word} (h : Foot ps s0 s) (hp : [.mem] ⊆ ps) :
    Foot ps s0 (State.logMem s src uncorr master owner addr) := by
  unfold State.logMem
  repeat' first
    | with_reducible exact h
    | with_reducible assumption
    | (extract_lets +onlyGivenNames y; first
       | (have e : y = _ := rfl; clear_value y; refine (fun hy => ?_ : Foot ps s0 y → _) ?_; (clear e); (subst e))
       | subst y)
    | with_reducible refine foot_ite (fun _ => ?_) (fun _ => ?_)
    | ((with_reducible refine foot_onMem ?_ ?m ?k); (case k => first | exact (fun k => k) | exact (Memory.ok_foldl (fun _ _ h => Memory.ok_putPantry h)) | exact Memory.ok_putSram | exact Memory.ok_putPantry | exact BlockAt.ok_put | exact (fun k => ⟨Memory.putBytes_wf k.1, k.2⟩) | exact (fun k => ⟨k.1, Memory.putBytes_wf k.2.1, k.2.2⟩) | exact (fun k => ⟨Memory.writeBytes_wf k.1, k.2⟩) | exact (fun k => ⟨k.1, Memory.writeBytes_wf k.2.1, k.2.2⟩) | exact (fun k => ⟨Memory.writeWord_wf k.1, k.2⟩) | exact (fun k => ⟨k.1, Memory.writeWord_wf k.2.1, k.2.2⟩) | exact (fun k => ⟨Memory.clear_wf k.1, k.2⟩) | exact (fun k => ⟨k.1, k.2.1, slotsOk_put _ k.2.2⟩) | exact (fun k => ⟨k.1, Memory.foldl_wf (fun _ _ h => Memory.writeBytes_wf h) k.2.1, k.2.2⟩)); (case m => exact hp (by decide)))
    | with_reducible refine foot_fst (by with_reducible assumption) ?_
    | with_reducible refine foot_snd (by with_reducible assumption) ?_
    | split
    | with_reducible refine foot_foldl (fun u a hu => ?_) ?_

theorem foot_onMaster {ps : List Part} {s0 s : State} {m : Nat} {f : Master → Master} (h : Foot ps s0 s) (hp : [.mem] ⊆ ps) :
    Foot ps s0 (State.onMaster s m f) := by
  unfold State.onMaster
  repeat' first
    | with_reducible exact h
    | with_reducible assumption
    | (extract_lets +onlyGivenNames y; first
       | (have e : y = _ := rfl; clear_value y; refine (fun hy => ?_ : Foot ps s0 y → _) ?_; (clear e); (subst e))
       | subst y)
    | with_reducible refine foot_ite (fun _ => ?_) (fun _ => ?_)
    | ((with_reducible refine foot_onMem ?_ ?m ?k); (case k => first | exact (fun k => k) | exact (Memory.ok_foldl (fun _ _ h => Memory.ok_putPantry h)) | exact Memory.ok_putSram | exact Memory.ok_putPantry | exact BlockAt.ok_put | exact (fun k => ⟨Memory.putBytes_wf k.1, k.2⟩) | exact (fun k => ⟨k.1, Memory.putBytes_wf k.2.1, k.2.2⟩) | exact (fun k => ⟨Memory.writeBytes_wf k.1, k.2⟩) | exact (fun k => ⟨k.1, Memory.writeBytes_wf k.2.1, k.2.2⟩) | exact (fun k => ⟨Memory.writeWord_wf k.1, k.2⟩) | exact (fun k => ⟨k.1, Memory.writeWord_wf k.2.1, k.2.2⟩) | exact (fun k => ⟨Memory.clear_wf k.1, k.2⟩) | exact (fun k => ⟨k.1, k.2.1, slotsOk_put _ k.2.2⟩) | exact (fun k => ⟨k.1, Memory.foldl_wf (fun _ _ h => Memory.writeBytes_wf h) k.2.1, k.2.2⟩)); (case m => exact hp (by decide)))
    | with_reducible refine foot_fst (by with_reducible assumption) ?_
    | with_reducible refine foot_snd (by with_reducible assumption) ?_
    | split
    | with_reducible refine foot_foldl (fun u a hu => ?_) ?_

theorem foot_raise {ps : List Part} {s0 s : State} {b : Nat} (h : Foot ps s0 s) (hp : [.hbi] ⊆ ps) :
    Foot ps s0 (State.raise s b) := by
  unfold State.raise
  repeat' first
    | with_reducible exact h
    | with_reducible assumption
    | (extract_lets +onlyGivenNames y; first
       | (have e : y = _ := rfl; clear_value y; refine (fun hy => ?_ : Foot ps s0 y → _) ?_; (clear e); (subst e))
       | subst y)
    | with_reducible refine foot_ite (fun _ => ?_) (fun _ => ?_)
    | ((with_reducible refine foot_onHbi ?_ ?m); (case m => exact hp (by decide)))
    | with_reducible refine foot_fst (by with_reducible assumption) ?_
    | with_reducible refine foot_snd (by with_reducible assumption) ?_
    | split
    | with_reducible refine foot_foldl (fun u a hu => ?_) ?_

theorem foot_stampIn {ps : List Part} {s0 s : State} {bound : Int} (h : Foot ps s0 s) (hp : [.draw] ⊆ ps) :
    Foot ps s0 (State.stampIn s bound).2 := by
  unfold State.stampIn
  repeat' first
    | with_reducible exact h
    | with_reducible assumption
    | (extract_lets +onlyGivenNames y; first
       | (have e : y = _ := rfl; clear_value y; refine (fun hy => ?_ : Foot ps s0 y → _) ?_; (clear e); (subst e))
       | subst y)
    | with_reducible refine foot_ite (fun _ => ?_) (fun _ => ?_)
    | ((with_reducible refine foot_onDraw ?_ ?m); (case m => exact hp (by decide)))
    | with_reducible refine foot_fst (by with_reducible assumption) ?_
    | with_reducible refine foot_snd (by with_reducible assumption) ?_
    | split
    | with_reducible refine foot_foldl (fun u a hu => ?_) ?_

theorem foot_writeBlock {ps : List Part} {s0 s : State} {b : BlockAt} {bs : List Byte} (h : Foot ps s0 s) (hp : [.mem] ⊆ ps) :
    Foot ps s0 (State.writeBlock s b bs) := by
  unfold State.writeBlock
  repeat' first
    | with_reducible exact h
    | with_reducible assumption
    | (extract_lets +onlyGivenNames y; first
       | (have e : y = _ := rfl; clear_value y; refine (fun hy => ?_ : Foot ps s0 y → _) ?_; (clear e); (subst e))
       | subst y)
    | with_reducible refine foot_ite (fun _ => ?_) (fun _ => ?_)
    | ((with_reducible refine foot_onMem ?_ ?m ?k); (case k => first | exact (fun k => k) | exact (Memory.ok_foldl (fun _ _ h => Memory.ok_putPantry h)) | exact Memory.ok_putSram | exact Memory.ok_putPantry | exact BlockAt.ok_put | exact (fun k => ⟨Memory.putBytes_wf k.1, k.2⟩) | exact (fun k => ⟨k.1, Memory.putBytes_wf k.2.1, k.2.2⟩) | exact (fun k => ⟨Memory.writeBytes_wf k.1, k.2⟩) | exact (fun k => ⟨k.1, Memory.writeBytes_wf k.2.1, k.2.2⟩) | exact (fun k => ⟨Memory.writeWord_wf k.1, k.2⟩) | exact (fun k => ⟨k.1, Memory.writeWord_wf k.2.1, k.2.2⟩) | exact (fun k => ⟨Memory.clear_wf k.1, k.2⟩) | exact (fun k => ⟨k.1, k.2.1, slotsOk_put _ k.2.2⟩) | exact (fun k => ⟨k.1, Memory.foldl_wf (fun _ _ h => Memory.writeBytes_wf h) k.2.1, k.2.2⟩)); (case m => exact hp (by decide)))
    | with_reducible refine foot_fst (by with_reducible assumption) ?_
    | with_reducible refine foot_snd (by with_reducible assumption) ?_
    | split
    | with_reducible refine foot_foldl (fun u a hu => ?_) ?_

theorem foot_count {ps : List Part} {s0 s : State} {i : Nat} (h : Foot ps s0 s) (hp : [.trace] ⊆ ps) :
    Foot ps s0 (State.count s i) := by
  unfold State.count
  repeat' first
    | with_reducible exact h
    | with_reducible assumption
    | (extract_lets +onlyGivenNames y; first
       | (have e : y = _ := rfl; clear_value y; refine (fun hy => ?_ : Foot ps s0 y → _) ?_; (clear e); (subst e))
       | subst y)
    | with_reducible refine foot_ite (fun _ => ?_) (fun _ => ?_)
    | ((with_reducible refine foot_countN ?_ ?m); (case m => exact List.Subset.trans (by decide) hp))
    | with_reducible refine foot_fst (by with_reducible assumption) ?_
    | with_reducible refine foot_snd (by with_reducible assumption) ?_
    | split
    | with_reducible refine foot_foldl (fun u a hu => ?_) ?_

theorem foot_slvErr {ps : List Part} {s0 s : State} {m : Nat} (h : Foot ps s0 s) (hp : [.mem] ⊆ ps) :
    Foot ps s0 (State.slvErr s m) := by
  unfold State.slvErr
  repeat' first
    | with_reducible exact h
    | with_reducible assumption
    | (extract_lets +onlyGivenNames y; first
       | (have e : y = _ := rfl; clear_value y; refine (fun hy => ?_ : Foot ps s0 y → _) ?_; (clear e); (subst e))
       | subst y)
    | with_reducible refine foot_ite (fun _ => ?_) (fun _ => ?_)
    | ((with_reducible refine foot_onMaster ?_ ?m); (case m => exact List.Subset.trans (by decide) hp))
    | with_reducible refine foot_fst (by with_reducible assumption) ?_
    | with_reducible refine foot_snd (by with_reducible assumption) ?_
    | split
    | with_reducible refine foot_foldl (fun u a hu => ?_) ?_

theorem foot_drainOne {ps : List Part} {s0 s : State}  (h : Foot ps s0 s) (hp : [.mem, .trace] ⊆ ps) :
    Foot ps s0 (State.drainOne s) := by
  unfold State.drainOne
  split
  · exact h
  · rename_i r rest hf
    extract_lets +onlyGivenNames y
    have h1 : Foot ps s0 y := by
      refine foot_onTrace h (hp (by decide)) fun k => ?_
      have : s.trace.fifo.length ≤ 256 := k
      rw [hf] at this
      exact Nat.le_of_succ_le this
    clear_value y
    split
    · split
      · refine foot_onTrace ?_ (hp (by decide)) (fun k => k)
        exact foot_onMem h1 (hp (by decide)) Memory.ok_putPantry
      · refine foot_count ?_ (List.Subset.trans (by decide) hp)
        exact foot_onTrace h1 (hp (by decide)) (fun k => k)
    · exact h1

theorem foot_eccCorr {ps : List Part} {s0 s : State} {src : Nat} {uncorr : Bool} {master : Nat} {owner : Nat} {addr : Word} (h : Foot ps s0 s) (hp : [.hbi, .mem, .trace] ⊆ ps) :
    Foot ps s0 (State.eccCorr s src uncorr master owner addr) := by
  unfold State.eccCorr
  repeat' first
    | with_reducible exact h
    | with_reducible assumption
    | (extract_lets +onlyGivenNames y; first
       | (have e : y = _ := rfl; clear_value y; refine (fun hy => ?_ : Foot ps s0 y → _) ?_; (clear e); (subst e))
       | subst y)
    | with_reducible refine foot_ite (fun _ => ?_) (fun _ => ?_)
    | ((with_reducible refine foot_raise ?_ ?m); (case m => exact List.Subset.trans (by decide) hp))
    | ((with_reducible refine foot_count ?_ ?m); (case m => exact List.Subset.trans (by decide) hp))
    | ((with_reducible refine foot_logMem ?_ ?m); (case m => exact List.Subset.trans (by decide) hp))
    | ((with_reducible refine foot_onMem ?_ ?m ?k); (case k => first | exact (fun k => k) | exact (Memory.ok_foldl (fun _ _ h => Memory.ok_putPantry h)) | exact Memory.ok_putSram | exact Memory.ok_putPantry | exact BlockAt.ok_put | exact (fun k => ⟨Memory.putBytes_wf k.1, k.2⟩) | exact (fun k => ⟨k.1, Memory.putBytes_wf k.2.1, k.2.2⟩) | exact (fun k => ⟨Memory.writeBytes_wf k.1, k.2⟩) | exact (fun k => ⟨k.1, Memory.writeBytes_wf k.2.1, k.2.2⟩) | exact (fun k => ⟨Memory.writeWord_wf k.1, k.2⟩) | exact (fun k => ⟨k.1, Memory.writeWord_wf k.2.1, k.2.2⟩) | exact (fun k => ⟨Memory.clear_wf k.1, k.2⟩) | exact (fun k => ⟨k.1, k.2.1, slotsOk_put _ k.2.2⟩) | exact (fun k => ⟨k.1, Memory.foldl_wf (fun _ _ h => Memory.writeBytes_wf h) k.2.1, k.2.2⟩)); (case m => exact hp (by decide)))
    | with_reducible refine foot_fst (by with_reducible assumption) ?_
    | with_reducible refine foot_snd (by with_reducible assumption) ?_
    | split
    | with_reducible refine foot_foldl (fun u a hu => ?_) ?_

theorem foot_eccUncorr {ps : List Part} {s0 s : State} {src : Nat} {master : Nat} {owner : Nat} {addr : Word} (h : Foot ps s0 s) (hp : [.hbi, .mem, .trace] ⊆ ps) :
    Foot ps s0 (State.eccUncorr s src master owner addr) := by
  unfold State.eccUncorr
  repeat' first
    | with_reducible exact h
    | with_reducible assumption
    | (extract_lets +onlyGivenNames y; first
       | (have e : y = _ := rfl; clear_value y; refine (fun hy => ?_ : Foot ps s0 y → _) ?_; (clear e); (subst e))
       | subst y)
    | with_reducible refine foot_ite (fun _ => ?_) (fun _ => ?_)
    | ((with_reducible refine foot_raise ?_ ?m); (case m => exact List.Subset.trans (by decide) hp))
    | ((with_reducible refine foot_count ?_ ?m); (case m => exact List.Subset.trans (by decide) hp))
    | ((with_reducible refine foot_logMem ?_ ?m); (case m => exact List.Subset.trans (by decide) hp))
    | ((with_reducible refine foot_onMem ?_ ?m ?k); (case k => first | exact (fun k => k) | exact (Memory.ok_foldl (fun _ _ h => Memory.ok_putPantry h)) | exact Memory.ok_putSram | exact Memory.ok_putPantry | exact BlockAt.ok_put | exact (fun k => ⟨Memory.putBytes_wf k.1, k.2⟩) | exact (fun k => ⟨k.1, Memory.putBytes_wf k.2.1, k.2.2⟩) | exact (fun k => ⟨Memory.writeBytes_wf k.1, k.2⟩) | exact (fun k => ⟨k.1, Memory.writeBytes_wf k.2.1, k.2.2⟩) | exact (fun k => ⟨Memory.writeWord_wf k.1, k.2⟩) | exact (fun k => ⟨k.1, Memory.writeWord_wf k.2.1, k.2.2⟩) | exact (fun k => ⟨Memory.clear_wf k.1, k.2⟩) | exact (fun k => ⟨k.1, k.2.1, slotsOk_put _ k.2.2⟩) | exact (fun k => ⟨k.1, Memory.foldl_wf (fun _ _ h => Memory.writeBytes_wf h) k.2.1, k.2.2⟩)); (case m => exact hp (by decide)))
    | with_reducible refine foot_fst (by with_reducible assumption) ?_
    | with_reducible refine foot_snd (by with_reducible assumption) ?_
    | split
    | with_reducible refine foot_foldl (fun u a hu => ?_) ?_

theorem foot_record {ps : List Part} {s0 s : State} {cls : Nat} {pay : Word} (h : Foot ps s0 s) (hp : [.trace, .draw] ⊆ ps) :
    Foot ps s0 (State.record s cls pay) := by
  unfold State.record
  dsimp only
  split
  · split
    · rename_i hl
      refine foot_onTrace (foot_onDraw h (hp (by decide))) (hp (by decide)) (fun _ => ?_)
      show (s.trace.fifo ++ _).length ≤ 256
      rw [List.length_append]
      exact hl
    · refine foot_count ?_ (List.Subset.trans (by decide) hp)
      exact foot_onTrace h (hp (by decide)) (fun k => k)
  · exact h

theorem foot_riseOne {ps : List Part} {s0 s : State} {d : Nat} (h : Foot ps s0 s) (hp : [.power, .trace] ⊆ ps) :
    Foot ps s0 (State.riseOne s d) := by
  unfold State.riseOne
  repeat' first
    | with_reducible exact h
    | with_reducible assumption
    | (extract_lets +onlyGivenNames y; first
       | (have e : y = _ := rfl; clear_value y; refine (fun hy => ?_ : Foot ps s0 y → _) ?_; (clear e); (subst e))
       | subst y)
    | with_reducible refine foot_ite (fun _ => ?_) (fun _ => ?_)
    | ((with_reducible refine foot_count ?_ ?m); (case m => exact List.Subset.trans (by decide) hp))
    | ((with_reducible refine foot_onDom ?_ ?m); (case m => exact List.Subset.trans (by decide) hp))
    | with_reducible refine foot_fst (by with_reducible assumption) ?_
    | with_reducible refine foot_snd (by with_reducible assumption) ?_
    | split
    | with_reducible refine foot_foldl (fun u a hu => ?_) ?_

theorem foot_domChanged {ps : List Part} {s0 s : State} {d : Nat} {st : DomState} (h : Foot ps s0 s) (hp : [.hbi, .power, .trace, .draw] ⊆ ps) :
    Foot ps s0 (State.domChanged s d st) := by
  unfold State.domChanged
  repeat' first
    | with_reducible exact h
    | with_reducible assumption
    | (extract_lets +onlyGivenNames y; first
       | (have e : y = _ := rfl; clear_value y; refine (fun hy => ?_ : Foot ps s0 y → _) ?_; (clear e); (subst e))
       | subst y)
    | with_reducible refine foot_ite (fun _ => ?_) (fun _ => ?_)
    | ((with_reducible refine foot_record ?_ ?m); (case m => exact List.Subset.trans (by decide) hp))
    | ((with_reducible refine foot_raise ?_ ?m); (case m => exact List.Subset.trans (by decide) hp))
    | ((with_reducible refine foot_onPower ?_ ?m); (case m => exact hp (by decide)))
    | with_reducible refine foot_fst (by with_reducible assumption) ?_
    | with_reducible refine foot_snd (by with_reducible assumption) ?_
    | split
    | with_reducible refine foot_foldl (fun u a hu => ?_) ?_

theorem foot_drain {ps : List Part} {s0 : State} (n : Nat) {s : State} (h : Foot ps s0 s)
    (hp : [.mem, .trace] ⊆ ps) : Foot ps s0 (State.drain n s) := by
  induction n generalizing s with
  | zero => exact h
  | succ n ih => exact ih (foot_drainOne h hp)

theorem foot_ringRecord {ps : List Part} {s0 s : State}  (h : Foot ps s0 s) (hp : [.trace, .draw] ⊆ ps) :
    Foot ps s0 (State.ringRecord s) := by
  unfold State.ringRecord
  repeat' first
    | with_reducible exact h
    | with_reducible assumption
    | (extract_lets +onlyGivenNames y; first
       | (have e : y = _ := rfl; clear_value y; refine (fun hy => ?_ : Foot ps s0 y → _) ?_; (clear e); (subst e))
       | subst y)
    | with_reducible refine foot_ite (fun _ => ?_) (fun _ => ?_)
    | ((with_reducible refine foot_record ?_ ?m); (case m => exact List.Subset.trans (by decide) hp))
    | with_reducible refine foot_fst (by with_reducible assumption) ?_
    | with_reducible refine foot_snd (by with_reducible assumption) ?_
    | split
    | with_reducible refine foot_foldl (fun u a hu => ?_) ?_

theorem foot_sramMet {ps : List Part} {s0 s : State} {a : Nat} {n : Nat} (h : Foot ps s0 s) (hp : [.hbi, .mem, .trace] ⊆ ps) :
    Foot ps s0 (State.sramMet s a n) := by
  unfold State.sramMet
  repeat' first
    | with_reducible exact h
    | with_reducible assumption
    | (extract_lets +onlyGivenNames y; first
       | (have e : y = _ := rfl; clear_value y; refine (fun hy => ?_ : Foot ps s0 y → _) ?_; (clear e); (subst e))
       | subst y)
    | with_reducible refine foot_ite (fun _ => ?_) (fun _ => ?_)
    | ((with_reducible refine foot_slvErr ?_ ?m); (case m => exact List.Subset.trans (by decide) hp))
    | ((with_reducible refine foot_eccCorr ?_ ?m); (case m => exact List.Subset.trans (by decide) hp))
    | with_reducible refine foot_fst (by with_reducible assumption) ?_
    | with_reducible refine foot_snd (by with_reducible assumption) ?_
    | split
    | with_reducible refine foot_foldl (fun u a hu => ?_) ?_

theorem foot_timeEvent {ps : List Part} {s0 s : State} {jump : Bool} (h : Foot ps s0 s) (hp : [.hbi, .trace, .draw] ⊆ ps) :
    Foot ps s0 (State.timeEvent s jump) := by
  unfold State.timeEvent
  repeat' first
    | with_reducible exact h
    | with_reducible assumption
    | (extract_lets +onlyGivenNames y; first
       | (have e : y = _ := rfl; clear_value y; refine (fun hy => ?_ : Foot ps s0 y → _) ?_; (clear e); (subst e))
       | subst y)
    | with_reducible refine foot_ite (fun _ => ?_) (fun _ => ?_)
    | ((with_reducible refine foot_record ?_ ?m); (case m => exact List.Subset.trans (by decide) hp))
    | ((with_reducible refine foot_raise ?_ ?m); (case m => exact List.Subset.trans (by decide) hp))
    | with_reducible refine foot_fst (by with_reducible assumption) ?_
    | with_reducible refine foot_snd (by with_reducible assumption) ?_
    | split
    | with_reducible refine foot_foldl (fun u a hu => ?_) ?_

theorem foot_wake {ps : List Part} {s0 s : State} {d : Nat} {src : Nat} (h : Foot ps s0 s) (hp : [.hbi, .power, .trace] ⊆ ps) :
    Foot ps s0 (State.wake s d src) := by
  unfold State.wake
  repeat' first
    | with_reducible exact h
    | with_reducible assumption
    | (extract_lets +onlyGivenNames y; first
       | (have e : y = _ := rfl; clear_value y; refine (fun hy => ?_ : Foot ps s0 y → _) ?_; (clear e); (subst e))
       | subst y)
    | with_reducible refine foot_ite (fun _ => ?_) (fun _ => ?_)
    | ((with_reducible refine foot_riseOne ?_ ?m); (case m => exact List.Subset.trans (by decide) hp))
    | ((with_reducible refine foot_raise ?_ ?m); (case m => exact List.Subset.trans (by decide) hp))
    | ((with_reducible refine foot_onPower ?_ ?m); (case m => exact hp (by decide)))
    | ((with_reducible refine foot_onTrace ?_ ?m ?k); (case k => exact (fun k => k)); (case m => exact hp (by decide)))
    | with_reducible refine foot_fst (by with_reducible assumption) ?_
    | with_reducible refine foot_snd (by with_reducible assumption) ?_
    | split
    | with_reducible refine foot_foldl (fun u a hu => ?_) ?_

theorem foot_blockMet {ps : List Part} {s0 s : State} {b : BlockAt} {n : Nat} (h : Foot ps s0 s) (hp : [.hbi, .mem, .trace] ⊆ ps) :
    Foot ps s0 (State.blockMet s b n) := by
  unfold State.blockMet
  repeat' first
    | with_reducible exact h
    | with_reducible assumption
    | (extract_lets +onlyGivenNames y; first
       | (have e : y = _ := rfl; clear_value y; refine (fun hy => ?_ : Foot ps s0 y → _) ?_; (clear e); (subst e))
       | subst y)
    | with_reducible refine foot_ite (fun _ => ?_) (fun _ => ?_)
    | ((with_reducible refine foot_sramMet ?_ ?m); (case m => exact List.Subset.trans (by decide) hp))
    | ((with_reducible refine foot_slvErr ?_ ?m); (case m => exact List.Subset.trans (by decide) hp))
    | ((with_reducible refine foot_eccUncorr ?_ ?m); (case m => exact List.Subset.trans (by decide) hp))
    | with_reducible refine foot_fst (by with_reducible assumption) ?_
    | with_reducible refine foot_snd (by with_reducible assumption) ?_
    | split
    | with_reducible refine foot_foldl (fun u a hu => ?_) ?_

theorem foot_fwVote {ps : List Part} {s0 s : State}  (h : Foot ps s0 s) (hp : [.hbi, .power, .trace] ⊆ ps) :
    Foot ps s0 (State.fwVote s) := by
  unfold State.fwVote
  repeat' first
    | with_reducible exact h
    | with_reducible assumption
    | (extract_lets +onlyGivenNames y; first
       | (have e : y = _ := rfl; clear_value y; refine (fun hy => ?_ : Foot ps s0 y → _) ?_; (clear e); (subst e))
       | subst y)
    | with_reducible refine foot_ite (fun _ => ?_) (fun _ => ?_)
    | ((with_reducible refine foot_wake ?_ ?m); (case m => exact List.Subset.trans (by decide) hp))
    | ((with_reducible refine foot_onPower ?_ ?m); (case m => exact hp (by decide)))
    | with_reducible refine foot_fst (by with_reducible assumption) ?_
    | with_reducible refine foot_snd (by with_reducible assumption) ?_
    | split
    | with_reducible refine foot_foldl (fun u a hu => ?_) ?_

theorem foot_selfVote {ps : List Part} {s0 s : State} {d : Nat} {src : Nat} (h : Foot ps s0 s) (hp : [.hbi, .power, .trace] ⊆ ps) :
    Foot ps s0 (State.selfVote s d src) := by
  unfold State.selfVote
  repeat' first
    | with_reducible exact h
    | with_reducible assumption
    | (extract_lets +onlyGivenNames y; first
       | (have e : y = _ := rfl; clear_value y; refine (fun hy => ?_ : Foot ps s0 y → _) ?_; (clear e); (subst e))
       | subst y)
    | with_reducible refine foot_ite (fun _ => ?_) (fun _ => ?_)
    | ((with_reducible refine foot_wake ?_ ?m); (case m => exact List.Subset.trans (by decide) hp))
    | ((with_reducible refine foot_onPower ?_ ?m); (case m => exact hp (by decide)))
    | with_reducible refine foot_fst (by with_reducible assumption) ?_
    | with_reducible refine foot_snd (by with_reducible assumption) ?_
    | split
    | with_reducible refine foot_foldl (fun u a hu => ?_) ?_

theorem foot_ticks {ps : List Part} {s0 s : State} {n : Nat} (h : Foot ps s0 s) (hp : [.time, .mem, .trace] ⊆ ps) :
    Foot ps s0 (State.ticks s n) := by
  unfold State.ticks
  exact foot_drain _ (foot_onTime h (hp (by decide)) (Time.ok_ticksOn _)) (List.Subset.trans (by decide) hp)

theorem foot_timeState {ps : List Part} {s0 s : State} {st : BitVec 2} (h : Foot ps s0 s) (hp : [.time, .hbi, .trace, .draw] ⊆ ps) :
    Foot ps s0 (State.timeState s st) := by
  unfold State.timeState
  repeat' first
    | with_reducible exact h
    | with_reducible assumption
    | (extract_lets +onlyGivenNames y; first
       | (have e : y = _ := rfl; clear_value y; refine (fun hy => ?_ : Foot ps s0 y → _) ?_; (clear e); (subst e))
       | subst y)
    | with_reducible refine foot_ite (fun _ => ?_) (fun _ => ?_)
    | ((with_reducible refine foot_timeEvent ?_ ?m); (case m => exact List.Subset.trans (by decide) hp))
    | ((with_reducible refine foot_onTime ?_ ?m ?k); (case k => first | exact (fun k => k) | exact (Time.ok_ticksOn _) | exact (fun k => Time.ok_endSlew k.2.2.1 k) | exact (fun k => Time.ok_endSlew k.2.2.2.1 k) | exact (fun k => ⟨k.1, k.2.1, k.2.2.1, k.2.2.2.1, k.2.2.2.2.1, fun _ hx => nomatch hx, Nat.zero_le _⟩) | exact Time.ok_hoPush); (case m => exact hp (by decide)))
    | with_reducible refine foot_fst (by with_reducible assumption) ?_
    | with_reducible refine foot_snd (by with_reducible assumption) ?_
    | split
    | with_reducible refine foot_foldl (fun u a hu => ?_) ?_

theorem foot_armVotes {ps : List Part} {s0 s : State} {legs : List Nat} (h : Foot ps s0 s) (hp : [.hbi, .power, .trace] ⊆ ps) :
    Foot ps s0 (State.armVotes s legs) := by
  unfold State.armVotes
  repeat' first
    | with_reducible exact h
    | with_reducible assumption
    | (extract_lets +onlyGivenNames y; first
       | (have e : y = _ := rfl; clear_value y; refine (fun hy => ?_ : Foot ps s0 y → _) ?_; (clear e); (subst e))
       | subst y)
    | with_reducible refine foot_ite (fun _ => ?_) (fun _ => ?_)
    | ((with_reducible refine foot_selfVote ?_ ?m); (case m => exact List.Subset.trans (by decide) hp))
    | with_reducible refine foot_fst (by with_reducible assumption) ?_
    | with_reducible refine foot_snd (by with_reducible assumption) ?_
    | split
    | with_reducible refine foot_foldl (fun u a hu => ?_) ?_

theorem foot_at_ {ps : List Part} {s0 s : State} {inst : Nat} (h : Foot ps s0 s) (hp : [.time, .mem, .trace] ⊆ ps) :
    Foot ps s0 (State.at_ s inst) := by
  unfold State.at_
  repeat' first
    | with_reducible exact h
    | with_reducible assumption
    | (extract_lets +onlyGivenNames y; first
       | (have e : y = _ := rfl; clear_value y; refine (fun hy => ?_ : Foot ps s0 y → _) ?_; (clear e); (subst e))
       | subst y)
    | with_reducible refine foot_ite (fun _ => ?_) (fun _ => ?_)
    | ((with_reducible refine foot_ticks ?_ ?m); (case m => exact List.Subset.trans (by decide) hp))
    | with_reducible refine foot_fst (by with_reducible assumption) ?_
    | with_reducible refine foot_snd (by with_reducible assumption) ?_
    | split
    | with_reducible refine foot_foldl (fun u a hu => ?_) ?_

theorem foot_idle {ps : List Part} {s0 s : State}  (h : Foot ps s0 s) (hp : [.time, .mem, .trace] ⊆ ps) :
    Foot ps s0 (State.idle s) := by
  unfold State.idle
  repeat' first
    | with_reducible exact h
    | with_reducible assumption
    | (extract_lets +onlyGivenNames y; first
       | (have e : y = _ := rfl; clear_value y; refine (fun hy => ?_ : Foot ps s0 y → _) ?_; (clear e); (subst e))
       | subst y)
    | with_reducible refine foot_ite (fun _ => ?_) (fun _ => ?_)
    | ((with_reducible refine foot_ticks ?_ ?m); (case m => exact List.Subset.trans (by decide) hp))
    | with_reducible refine foot_fst (by with_reducible assumption) ?_
    | with_reducible refine foot_snd (by with_reducible assumption) ?_
    | split
    | with_reducible refine foot_foldl (fun u a hu => ?_) ?_

theorem foot_refUpdate {ps : List Part} {s0 s : State}  (h : Foot ps s0 s) (hp : [.time, .hbi, .trace, .draw] ⊆ ps) :
    Foot ps s0 (State.refUpdate s) := by
  unfold State.refUpdate
  extract_lets +onlyGivenNames r t
  refine foot_ite (fun _ => h) (fun _ => ?_)
  extract_lets +onlyGivenNames y
  have h1 : Foot ps s0 y := foot_onTime h (hp (by decide)) (fun k => k)
  clear_value y r
  have ht : s0.Ok → t.Ok := fun k => (h.2 k).1
  clear_value t
  refine foot_ite (fun _ => ?_) (fun _ => foot_ite (fun _ => ?_) (fun _ => foot_ite (fun _ => ?_) (fun _ => ?_)))
  · exact foot_timeEvent h1 (List.Subset.trans (by decide) hp)
  · refine foot_timeState (foot_onTime_of h1 (hp (by decide)) fun k g => ?_) (List.Subset.trans (by decide) hp)
    exact Time.ok_endSlew (ht k).2.2.1 g
  · refine foot_timeEvent (foot_onTime_of h1 (hp (by decide)) fun k g => ?_) (List.Subset.trans (by decide) hp)
    exact Time.ok_endSlew (ht k).2.2.1 g
  · refine foot_timeEvent (foot_onTime_of h1 (hp (by decide)) fun k g => Time.ok_endSlew ?_ g) (List.Subset.trans (by decide) hp)
    split
    · exact (ht k).2.2.2.1
    · exact (ht k).2.1

end Sys2Proof.Machine
end

