-- ==== Sys2Proof/Laws/FootRegions.lean ====
section
/-! SUPPORT. Footprints of the operations of Machine/Regions.lean: the parts each may change, and that it keeps what every
step keeps. -/

namespace Sys2Proof.Machine

set_option Elab.async false

theorem foot_clearBad {ps : List Part} {s0 s : State} {lo : Nat} {n : Nat} (h : Foot ps s0 s) (hp : [.mem] ⊆ ps) :
    Foot ps s0 (State.clearBad s lo n) := by
  unfold State.clearBad
  repeat' first
    | with_reducible exact h
    | with_reducible assumption
    | (extract_lets +onlyGivenNames y; first
       | (have e : y = _ := rfl; clear_value y; refine (fun hy => ?_ : Foot ps s0 y → _) ?_; (clear e); (subst e))
       | subst y)
    | with_reducible refine foot_ite (fun _ => ?_) (fun _ => ?_)
    | ((with_reducible refine foot_onMem ?_ ?m ?k); (case k => first | exact (fun k => k) | exact (Memory.ok_foldl (fun _ _ h => Memory.ok_putPantry h)) | exact Memory.ok_putSram | exact Memory.ok_putPantry | exact BlockAt.ok_put | exact (fun k => ⟨Memory.putBytes_wf k.1, k.2⟩) | exact (fun k => ⟨k.1, Memory.putBytes_wf k.2.1, k.2.2⟩) | exact (fun k => ⟨Memory.writeBytes_wf k.1, k.2⟩) | exact (fun k => ⟨k.1, Memory.writeBytes_wf k.2.1, k.2.2⟩) | exact (fun k => ⟨Memory.writeWord_wf k.1, k.2⟩) | exact (fun k => ⟨k.1, Memory.writeWord_wf k.2.1, k.2.2⟩) | exact (fun k => ⟨Memory.clear_wf k.1, k.2⟩) | exact (fun k => ⟨k.1, k.2.1, slotsOk_put _ k.2.2⟩) | exact (fun k => ⟨k.1, Memory.foldl_wf (fun _ _ h => Memory.writeBytes_wf h) k.2.1, k.2.2⟩)); (case m => exact hp (by decide)))
    | with_reducible refine foot_fst (by with_reducible assumption) ?_
    | with_reducible refine foot_snd (by with_reducible assumption) ?_
    | split
    | with_reducible refine foot_foldl (fun u a hu => ?_) ?_

theorem foot_hostWordBad {ps : List Part} {s0 s : State} {master : Nat} {lo : Nat} {n : Nat} (h : Foot ps s0 s) (hp : [.hbi, .mem, .trace] ⊆ ps) :
    Foot ps s0 (State.hostWordBad s master lo n) := by
  unfold State.hostWordBad
  repeat' first
    | with_reducible exact h
    | with_reducible assumption
    | (extract_lets +onlyGivenNames y; first
       | (have e : y = _ := rfl; clear_value y; refine (fun hy => ?_ : Foot ps s0 y → _) ?_; (clear e); (subst e))
       | subst y)
    | with_reducible refine foot_ite (fun _ => ?_) (fun _ => ?_)
    | ((with_reducible refine foot_slvErr ?_ ?m); (case m => exact List.Subset.trans (by decide) hp))
    | ((with_reducible refine foot_eccUncorr ?_ ?m); (case m => exact List.Subset.trans (by decide) hp))
    | with_reducible refine foot_fst (by with_reducible assumption) ?_
    | with_reducible refine foot_snd (by with_reducible assumption) ?_
    | split
    | with_reducible refine foot_foldl (fun u a hu => ?_) ?_

end Sys2Proof.Machine
end

