-- ==== Sys2Proof/Laws/FootCommand.lean ====
section
/-! SUPPORT. Footprints of the operations of Machine/Command.lean: the parts each may change, and that it keeps what every
step keeps. -/

namespace Sys2Proof.Machine

set_option Elab.async false

theorem foot_accept {ps : List Part} {s0 s : State} {x : Ctx} {ord : Nat} {cs : List Change} (h : Foot ps s0 s) (hp : [.cmd] ⊆ ps) :
    Foot ps s0 (State.accept s x ord cs) := by
  unfold State.accept
  repeat' first
    | with_reducible exact h
    | with_reducible assumption
    | (extract_lets +onlyGivenNames y; first
       | (have e : y = _ := rfl; clear_value y; refine (fun hy => ?_ : Foot ps s0 y → _) ?_; (clear e); (subst e))
       | subst y)
    | with_reducible refine foot_ite (fun _ => ?_) (fun _ => ?_)
    | ((with_reducible refine foot_onCmd ?_ ?m ?k); (case k => first | exact (fun k => k) | exact (fun _ => List.length_take_le ..)); (case m => exact hp (by decide)))
    | with_reducible refine foot_fst (by with_reducible assumption) ?_
    | with_reducible refine foot_snd (by with_reducible assumption) ?_
    | split
    | with_reducible refine foot_foldl (fun u a hu => ?_) ?_

theorem foot_holdAccepted {ps : List Part} {s0 s : State} {x : Ctx} {r1 : Word} (h : Foot ps s0 s) (hp : [.cmd] ⊆ ps) :
    Foot ps s0 (State.holdAccepted s x r1) := by
  unfold State.holdAccepted
  repeat' first
    | with_reducible exact h
    | with_reducible assumption
    | (extract_lets +onlyGivenNames y; first
       | (have e : y = _ := rfl; clear_value y; refine (fun hy => ?_ : Foot ps s0 y → _) ?_; (clear e); (subst e))
       | subst y)
    | with_reducible refine foot_ite (fun _ => ?_) (fun _ => ?_)
    | ((with_reducible refine foot_onCmd ?_ ?m ?k); (case k => first | exact (fun k => k) | exact (fun _ => List.length_take_le ..)); (case m => exact hp (by decide)))
    | with_reducible refine foot_fst (by with_reducible assumption) ?_
    | with_reducible refine foot_snd (by with_reducible assumption) ?_
    | split
    | with_reducible refine foot_foldl (fun u a hu => ?_) ?_

theorem foot_logReject {ps : List Part} {s0 s : State} {src : Source} {c : CmdWords} {st : Nat} (h : Foot ps s0 s) (hp : [.cmd] ⊆ ps) :
    Foot ps s0 (State.logReject s src c st) := by
  unfold State.logReject
  repeat' first
    | with_reducible exact h
    | with_reducible assumption
    | (extract_lets +onlyGivenNames y; first
       | (have e : y = _ := rfl; clear_value y; refine (fun hy => ?_ : Foot ps s0 y → _) ?_; (clear e); (subst e))
       | subst y)
    | with_reducible refine foot_ite (fun _ => ?_) (fun _ => ?_)
    | ((with_reducible refine foot_onCmd ?_ ?m ?k); (case k => first | exact (fun k => k) | exact (fun _ => List.length_take_le ..)); (case m => exact hp (by decide)))
    | with_reducible refine foot_fst (by with_reducible assumption) ?_
    | with_reducible refine foot_snd (by with_reducible assumption) ?_
    | split
    | with_reducible refine foot_foldl (fun u a hu => ?_) ?_

theorem foot_putParam {ps : List Part} {s0 s : State} {x : Ctx} (h : Foot ps s0 s) (hp : [.mem] ⊆ ps) :
    Foot ps s0 (State.putParam s x) := by
  unfold State.putParam
  repeat' first
    | with_reducible exact h
    | with_reducible assumption
    | (extract_lets +onlyGivenNames y; first
       | (have e : y = _ := rfl; clear_value y; refine (fun hy => ?_ : Foot ps s0 y → _) ?_; (clear e); (subst e))
       | subst y)
    | with_reducible refine foot_ite (fun _ => ?_) (fun _ => ?_)
    | ((with_reducible refine foot_onMem ?_ ?m ?k); (case k => first | exact (fun k => k) | exact (Memory.ok_foldl (fun _ _ h => Memory.ok_putPantry h)) | exact Memory.ok_putSram | exact Memory.ok_putPantry | exact BlockAt.ok_put | exact (fun k => ⟨Memory.putBytes_wf k.1, k.2⟩) | exact (fun k => ⟨k.1, Memory.putBytes_wf k.2.1, k.2.2⟩) | exact (fun k => ⟨Memory.writeBytes_wf k.1, k.2⟩) | exact (fun k => ⟨k.1, Memory.writeBytes_wf k.2.1, k.2.2⟩) | exact (fun k => ⟨Memory.writeWord_wf k.1, k.2⟩) | exact (fun k => ⟨k.1, Memory.writeWord_wf k.2.1, k.2.2⟩) | exact (fun k => ⟨Memory.clear_wf k.1, k.2⟩) | exact (fun k => ⟨k.1, k.2.1, slotsOk_put _ k.2.2⟩) | exact (fun k => ⟨k.1, Memory.foldl_wf (fun _ _ h => Memory.writeBytes_wf h) k.2.1, k.2.2⟩)); (case m => exact hp (by decide)))
    | with_reducible refine foot_fst (by with_reducible assumption) ?_
    | with_reducible refine foot_snd (by with_reducible assumption) ?_
    | split
    | with_reducible refine foot_foldl (fun u a hu => ?_) ?_

theorem VFoot.whileRemoving {ps : List Part} {s : State} {v : Verdict} : VFoot ps s v.whileRemoving := by
  cases v <;> exact trivial

theorem VFoot.removing {ps : List Part} {s : State} {v : Verdict} {c : Prop} [Decidable c] (h : VFoot ps s v) :
    VFoot ps s (if c then v.whileRemoving else v) := by
  split
  · exact VFoot.whileRemoving
  · exact h

theorem foot_ownChecks {ps : List Part} {s0 s : State} {k : Handler} {x : Ctx}
    (hk : ∀ x t, Foot ps s0 t → VFoot ps s0 (k x t)) (h : Foot ps s0 s) : VFoot ps s0 (State.ownChecks s k x) :=
  VFoot.removing (hk _ _ h)

theorem foot_putResult {ps : List Part} {s0 s : State} {out : Option (Word × List Byte)} (h : Foot ps s0 s) (hp : [.mem] ⊆ ps) :
    Foot ps s0 (State.putResult s out) := by
  unfold State.putResult
  repeat' first
    | with_reducible exact h
    | with_reducible assumption
    | (extract_lets +onlyGivenNames y; first
       | (have e : y = _ := rfl; clear_value y; refine (fun hy => ?_ : Foot ps s0 y → _) ?_; (clear e); (subst e))
       | subst y)
    | with_reducible refine foot_ite (fun _ => ?_) (fun _ => ?_)
    | ((with_reducible refine foot_writeBlock ?_ ?m); (case m => exact List.Subset.trans (by decide) hp))
    | with_reducible refine foot_fst (by with_reducible assumption) ?_
    | with_reducible refine foot_snd (by with_reducible assumption) ?_
    | split
    | with_reducible refine foot_foldl (fun u a hu => ?_) ?_

theorem foot_answerSource {ps : List Part} {s0 s : State} {src : Source} {c : CmdWords} {st : Nat} {r0 : Word} {r1 : Word} (h : Foot ps s0 s) (hp : [.hbi, .cmd, .mem, .trace] ⊆ ps) :
    Foot ps s0 (State.answerSource s src c st r0 r1) := by
  unfold State.answerSource
  repeat' first
    | with_reducible exact h
    | with_reducible assumption
    | (extract_lets +onlyGivenNames y; first
       | (have e : y = _ := rfl; clear_value y; refine (fun hy => ?_ : Foot ps s0 y → _) ?_; (clear e); (subst e))
       | subst y)
    | with_reducible refine foot_ite (fun _ => ?_) (fun _ => ?_)
    | ((with_reducible refine foot_raise ?_ ?m); (case m => exact List.Subset.trans (by decide) hp))
    | ((with_reducible refine foot_sramMet ?_ ?m); (case m => exact List.Subset.trans (by decide) hp))
    | ((with_reducible refine foot_onCmd ?_ ?m ?k); (case k => first | exact (fun k => k) | exact (fun _ => List.length_take_le ..)); (case m => exact hp (by decide)))
    | ((with_reducible refine foot_onMem ?_ ?m ?k); (case k => first | exact (fun k => k) | exact (Memory.ok_foldl (fun _ _ h => Memory.ok_putPantry h)) | exact Memory.ok_putSram | exact Memory.ok_putPantry | exact BlockAt.ok_put | exact (fun k => ⟨Memory.putBytes_wf k.1, k.2⟩) | exact (fun k => ⟨k.1, Memory.putBytes_wf k.2.1, k.2.2⟩) | exact (fun k => ⟨Memory.writeBytes_wf k.1, k.2⟩) | exact (fun k => ⟨k.1, Memory.writeBytes_wf k.2.1, k.2.2⟩) | exact (fun k => ⟨Memory.writeWord_wf k.1, k.2⟩) | exact (fun k => ⟨k.1, Memory.writeWord_wf k.2.1, k.2.2⟩) | exact (fun k => ⟨Memory.clear_wf k.1, k.2⟩) | exact (fun k => ⟨k.1, k.2.1, slotsOk_put _ k.2.2⟩) | exact (fun k => ⟨k.1, Memory.foldl_wf (fun _ _ h => Memory.writeBytes_wf h) k.2.1, k.2.2⟩)); (case m => exact hp (by decide)))
    | with_reducible refine foot_fst (by with_reducible assumption) ?_
    | with_reducible refine foot_snd (by with_reducible assumption) ?_
    | split
    | with_reducible refine foot_foldl (fun u a hu => ?_) ?_

theorem foot_takeEntry {ps : List Part} {s0 s : State} {src : CmdSrc} {c : CmdWords} (h : Foot ps s0 s) (hp : [.hbi, .cmd, .mem, .trace] ⊆ ps) :
    Foot ps s0 (State.takeEntry s src c) := by
  unfold State.takeEntry
  repeat' first
    | with_reducible exact h
    | with_reducible assumption
    | (extract_lets +onlyGivenNames y; first
       | (have e : y = _ := rfl; clear_value y; refine (fun hy => ?_ : Foot ps s0 y → _) ?_; (clear e); (subst e))
       | subst y)
    | with_reducible refine foot_ite (fun _ => ?_) (fun _ => ?_)
    | ((with_reducible refine foot_sramMet ?_ ?m); (case m => exact List.Subset.trans (by decide) hp))
    | ((with_reducible refine foot_onCmd ?_ ?m ?k); (case k => first | exact (fun k => k) | exact (fun _ => List.length_take_le ..)); (case m => exact hp (by decide)))
    | with_reducible refine foot_fst (by with_reducible assumption) ?_
    | with_reducible refine foot_snd (by with_reducible assumption) ?_
    | split
    | with_reducible refine foot_foldl (fun u a hu => ?_) ?_

theorem foot_complete {ps : List Part} {s0 s : State} {src : Source} {c : CmdWords} {st : Nat} {r0 : Word} {r1 : Word} (h : Foot ps s0 s) (hp : [.hbi, .cmd, .mem, .trace, .draw] ⊆ ps) :
    Foot ps s0 (State.complete s src c st r0 r1) := by
  unfold State.complete
  repeat' first
    | with_reducible exact h
    | with_reducible assumption
    | (extract_lets +onlyGivenNames y; first
       | (have e : y = _ := rfl; clear_value y; refine (fun hy => ?_ : Foot ps s0 y → _) ?_; (clear e); (subst e))
       | subst y)
    | with_reducible refine foot_ite (fun _ => ?_) (fun _ => ?_)
    | ((with_reducible refine foot_count ?_ ?m); (case m => exact List.Subset.trans (by decide) hp))
    | ((with_reducible refine foot_logReject ?_ ?m); (case m => exact List.Subset.trans (by decide) hp))
    | ((with_reducible refine foot_answerSource ?_ ?m); (case m => exact List.Subset.trans (by decide) hp))
    | ((with_reducible refine foot_record ?_ ?m); (case m => exact List.Subset.trans (by decide) hp))
    | with_reducible refine foot_fst (by with_reducible assumption) ?_
    | with_reducible refine foot_snd (by with_reducible assumption) ?_
    | split
    | with_reducible refine foot_foldl (fun u a hu => ?_) ?_

theorem foot_hold {ps : List Part} {s0 s : State} {x : Ctx} {why : WaitWhy} (h : Foot ps s0 s) (hp : [.hbi, .cmd, .power, .trace] ⊆ ps) :
    Foot ps s0 (State.hold s x why) := by
  unfold State.hold
  repeat' first
    | with_reducible exact h
    | with_reducible assumption
    | (extract_lets +onlyGivenNames y; first
       | (have e : y = _ := rfl; clear_value y; refine (fun hy => ?_ : Foot ps s0 y → _) ?_; (clear e); (subst e))
       | subst y)
    | with_reducible refine foot_ite (fun _ => ?_) (fun _ => ?_)
    | ((with_reducible refine foot_selfVote ?_ ?m); (case m => exact List.Subset.trans (by decide) hp))
    | ((with_reducible refine foot_onCmd ?_ ?m ?k); (case k => first | exact (fun k => k) | exact (fun _ => List.length_take_le ..)); (case m => exact hp (by decide)))
    | with_reducible refine foot_fst (by with_reducible assumption) ?_
    | with_reducible refine foot_snd (by with_reducible assumption) ?_
    | split
    | with_reducible refine foot_foldl (fun u a hu => ?_) ?_

theorem foot_rejectCmd {ps : List Part} {s0 s : State} {src : Source} {c : CmdWords} {st : Nat} (h : Foot ps s0 s) (hp : [.hbi, .cmd, .mem, .trace, .draw] ⊆ ps) :
    Foot ps s0 (State.rejectCmd s src c st) := by
  unfold State.rejectCmd
  repeat' first
    | with_reducible exact h
    | with_reducible assumption
    | (extract_lets +onlyGivenNames y; first
       | (have e : y = _ := rfl; clear_value y; refine (fun hy => ?_ : Foot ps s0 y → _) ?_; (clear e); (subst e))
       | subst y)
    | with_reducible refine foot_ite (fun _ => ?_) (fun _ => ?_)
    | ((with_reducible refine foot_complete ?_ ?m); (case m => exact List.Subset.trans (by decide) hp))
    | with_reducible refine foot_fst (by with_reducible assumption) ?_
    | with_reducible refine foot_snd (by with_reducible assumption) ?_
    | split
    | with_reducible refine foot_foldl (fun u a hu => ?_) ?_

theorem foot_settle {ps : List Part} {s0 s : State} {x : Ctx} {v : Verdict} (h : Foot ps s0 s) (hv : VFoot ps s0 v)
    (hp : [.hbi, .cmd, .mem, .power, .trace, .draw] ⊆ ps) : Foot ps s0 (State.settle s x v) := by
  cases v with
  | reject st =>
    unfold State.settle
    exact foot_rejectCmd h (List.Subset.trans (by decide) hp)
  | wait d =>
    unfold State.settle
    exact foot_hold h (List.Subset.trans (by decide) hp)
  | config t o cs r =>
    unfold State.settle
    dsimp only
    have h1 : Foot ps s0 (t.accept x o cs) := foot_accept hv (List.Subset.trans (by decide) hp)
    generalize t.accept x o cs = u at h1
    split
    · exact foot_holdAccepted h1 (List.Subset.trans (by decide) hp)
    · exact foot_complete h1 (List.Subset.trans (by decide) hp)
  | done t r0 r1 out =>
    unfold State.settle
    dsimp only
    have h1 : Foot ps s0 (t.putResult out) := foot_putResult hv (List.Subset.trans (by decide) hp)
    generalize t.putResult out = u at h1
    split
    · exact foot_holdAccepted h1 (List.Subset.trans (by decide) hp)
    · exact foot_complete h1 (List.Subset.trans (by decide) hp)
  | later t =>
    unfold State.settle
    exact hv

theorem foot_serve {ps : List Part} {s0 s : State} {k : Handler} {x : Ctx}
    (hk : ∀ x t, Foot ps s0 t → VFoot ps s0 (k x t)) (h : Foot ps s0 s)
    (hp : [.hbi, .cmd, .mem, .power, .trace, .draw] ⊆ ps) : Foot ps s0 (State.serve s k x) := by
  unfold State.serve
  extract_lets +onlyGivenNames y
  have h1 : Foot ps s0 y := foot_onCmd h (hp (by decide)) (fun k => k)
  clear_value y
  split
  · exact foot_hold h1 (List.Subset.trans (by decide) hp)
  split
  · exact foot_hold h1 (List.Subset.trans (by decide) hp)
  split
  · exact foot_hold h1 (List.Subset.trans (by decide) hp)
  have h2 : Foot ps s0 (y.putParam x) := foot_putParam h1 (List.Subset.trans (by decide) hp)
  have h3 := foot_settle h2 (foot_ownChecks (k := k) (x := x) hk h2) (List.Subset.trans (by decide) hp) (x := x)
  split
  · exact h3
  split
  · exact foot_rejectCmd h1 (List.Subset.trans (by decide) hp)
  split
  · exact foot_rejectCmd h1 (List.Subset.trans (by decide) hp)
  split
  · exact foot_rejectCmd h1 (List.Subset.trans (by decide) hp)
  exact h3

theorem foot_runRow {ps : List Part} {s0 s : State} {isOp : Nat → Bool} {h_ : Handler} {src : CmdSrc} (hk : ∀ x t, Foot ps s0 t → VFoot ps s0 (h_ x t)) (h : Foot ps s0 s) (hp : [.hbi, .cmd, .mem, .power, .trace, .draw] ⊆ ps) :
    Foot ps s0 (State.runRow s isOp h_ src) := by
  unfold State.runRow
  repeat' first
    | with_reducible exact h
    | with_reducible assumption
    | exact hk _ _ (by with_reducible assumption)
    | (extract_lets +onlyGivenNames y; first
       | (have e : y = _ := rfl; clear_value y; refine (fun hy => ?_ : Foot ps s0 y → _) ?_; (clear e); (subst e))
       | subst y)
    | with_reducible refine foot_ite (fun _ => ?_) (fun _ => ?_)
    | ((with_reducible refine foot_serve (fun x t ht => ?_) ?_ ?m); (case m => exact List.Subset.trans (by decide) hp))
    | ((with_reducible refine foot_takeEntry ?_ ?m); (case m => exact List.Subset.trans (by decide) hp))
    | with_reducible refine foot_fst (by with_reducible assumption) ?_
    | with_reducible refine foot_snd (by with_reducible assumption) ?_
    | split
    | with_reducible refine foot_foldl (fun u a hu => ?_) ?_

end Sys2Proof.Machine
end

