-- ==== Sys2Proof/Laws/State.lean ====
section
/-! SUPPORT. What each update of one part does to every field of the state, and what the reads of one object give after the
updates of one object: no later proof unfolds a record update. -/

namespace Sys2Proof.Machine

set_option Elab.async false

section
variable (s : State) (f : Time → Time)
@[simp] theorem onTime_time : (s.onTime f).time = f s.time := rfl
@[simp] theorem onTime_hbi : (s.onTime f).hbi = s.hbi := rfl
@[simp] theorem onTime_cmd : (s.onTime f).cmd = s.cmd := rfl
@[simp] theorem onTime_mix : (s.onTime f).mix = s.mix := rfl
@[simp] theorem onTime_echo : (s.onTime f).echo = s.echo := rfl
@[simp] theorem onTime_vad : (s.onTime f).vad = s.vad := rfl
@[simp] theorem onTime_hum : (s.onTime f).hum = s.hum := rfl
@[simp] theorem onTime_line : (s.onTime f).line = s.line := rfl
@[simp] theorem onTime_dap : (s.onTime f).dap = s.dap := rfl
@[simp] theorem onTime_net : (s.onTime f).net = s.net := rfl
@[simp] theorem onTime_media : (s.onTime f).media = s.media := rfl
@[simp] theorem onTime_imdal : (s.onTime f).imdal = s.imdal := rfl
@[simp] theorem onTime_tiles : (s.onTime f).tiles = s.tiles := rfl
@[simp] theorem onTime_mem : (s.onTime f).mem = s.mem := rfl
@[simp] theorem onTime_power : (s.onTime f).power = s.power := rfl
@[simp] theorem onTime_boot : (s.onTime f).boot = s.boot := rfl
@[simp] theorem onTime_trace : (s.onTime f).trace = s.trace := rfl
@[simp] theorem onTime_shelf : (s.onTime f).shelf = s.shelf := rfl
@[simp] theorem onTime_draw : (s.onTime f).draw = s.draw := rfl
@[simp] theorem onTime_pending : (s.onTime f).pending = s.pending := rfl
@[simp] theorem onTime_shownOk : (s.onTime f).shownOk = s.shownOk := rfl
end

section
variable (s : State) (f : Hbi → Hbi)
@[simp] theorem onHbi_time : (s.onHbi f).time = s.time := rfl
@[simp] theorem onHbi_hbi : (s.onHbi f).hbi = f s.hbi := rfl
@[simp] theorem onHbi_cmd : (s.onHbi f).cmd = s.cmd := rfl
@[simp] theorem onHbi_mix : (s.onHbi f).mix = s.mix := rfl
@[simp] theorem onHbi_echo : (s.onHbi f).echo = s.echo := rfl
@[simp] theorem onHbi_vad : (s.onHbi f).vad = s.vad := rfl
@[simp] theorem onHbi_hum : (s.onHbi f).hum = s.hum := rfl
@[simp] theorem onHbi_line : (s.onHbi f).line = s.line := rfl
@[simp] theorem onHbi_dap : (s.onHbi f).dap = s.dap := rfl
@[simp] theorem onHbi_net : (s.onHbi f).net = s.net := rfl
@[simp] theorem onHbi_media : (s.onHbi f).media = s.media := rfl
@[simp] theorem onHbi_imdal : (s.onHbi f).imdal = s.imdal := rfl
@[simp] theorem onHbi_tiles : (s.onHbi f).tiles = s.tiles := rfl
@[simp] theorem onHbi_mem : (s.onHbi f).mem = s.mem := rfl
@[simp] theorem onHbi_power : (s.onHbi f).power = s.power := rfl
@[simp] theorem onHbi_boot : (s.onHbi f).boot = s.boot := rfl
@[simp] theorem onHbi_trace : (s.onHbi f).trace = s.trace := rfl
@[simp] theorem onHbi_shelf : (s.onHbi f).shelf = s.shelf := rfl
@[simp] theorem onHbi_draw : (s.onHbi f).draw = s.draw := rfl
@[simp] theorem onHbi_pending : (s.onHbi f).pending = s.pending := rfl
@[simp] theorem onHbi_shownOk : (s.onHbi f).shownOk = s.shownOk := rfl
end

section
variable (s : State) (f : CmdPath → CmdPath)
@[simp] theorem onCmd_time : (s.onCmd f).time = s.time := rfl
@[simp] theorem onCmd_hbi : (s.onCmd f).hbi = s.hbi := rfl
@[simp] theorem onCmd_cmd : (s.onCmd f).cmd = f s.cmd := rfl
@[simp] theorem onCmd_mix : (s.onCmd f).mix = s.mix := rfl
@[simp] theorem onCmd_echo : (s.onCmd f).echo = s.echo := rfl
@[simp] theorem onCmd_vad : (s.onCmd f).vad = s.vad := rfl
@[simp] theorem onCmd_hum : (s.onCmd f).hum = s.hum := rfl
@[simp] theorem onCmd_line : (s.onCmd f).line = s.line := rfl
@[simp] theorem onCmd_dap : (s.onCmd f).dap = s.dap := rfl
@[simp] theorem onCmd_net : (s.onCmd f).net = s.net := rfl
@[simp] theorem onCmd_media : (s.onCmd f).media = s.media := rfl
@[simp] theorem onCmd_imdal : (s.onCmd f).imdal = s.imdal := rfl
@[simp] theorem onCmd_tiles : (s.onCmd f).tiles = s.tiles := rfl
@[simp] theorem onCmd_mem : (s.onCmd f).mem = s.mem := rfl
@[simp] theorem onCmd_power : (s.onCmd f).power = s.power := rfl
@[simp] theorem onCmd_boot : (s.onCmd f).boot = s.boot := rfl
@[simp] theorem onCmd_trace : (s.onCmd f).trace = s.trace := rfl
@[simp] theorem onCmd_shelf : (s.onCmd f).shelf = s.shelf := rfl
@[simp] theorem onCmd_draw : (s.onCmd f).draw = s.draw := rfl
@[simp] theorem onCmd_pending : (s.onCmd f).pending = s.pending := rfl
@[simp] theorem onCmd_shownOk : (s.onCmd f).shownOk = s.shownOk := rfl
end

section
variable (s : State) (f : Mix → Mix)
@[simp] theorem onMix_time : (s.onMix f).time = s.time := rfl
@[simp] theorem onMix_hbi : (s.onMix f).hbi = s.hbi := rfl
@[simp] theorem onMix_cmd : (s.onMix f).cmd = s.cmd := rfl
@[simp] theorem onMix_mix : (s.onMix f).mix = f s.mix := rfl
@[simp] theorem onMix_echo : (s.onMix f).echo = s.echo := rfl
@[simp] theorem onMix_vad : (s.onMix f).vad = s.vad := rfl
@[simp] theorem onMix_hum : (s.onMix f).hum = s.hum := rfl
@[simp] theorem onMix_line : (s.onMix f).line = s.line := rfl
@[simp] theorem onMix_dap : (s.onMix f).dap = s.dap := rfl
@[simp] theorem onMix_net : (s.onMix f).net = s.net := rfl
@[simp] theorem onMix_media : (s.onMix f).media = s.media := rfl
@[simp] theorem onMix_imdal : (s.onMix f).imdal = s.imdal := rfl
@[simp] theorem onMix_tiles : (s.onMix f).tiles = s.tiles := rfl
@[simp] theorem onMix_mem : (s.onMix f).mem = s.mem := rfl
@[simp] theorem onMix_power : (s.onMix f).power = s.power := rfl
@[simp] theorem onMix_boot : (s.onMix f).boot = s.boot := rfl
@[simp] theorem onMix_trace : (s.onMix f).trace = s.trace := rfl
@[simp] theorem onMix_shelf : (s.onMix f).shelf = s.shelf := rfl
@[simp] theorem onMix_draw : (s.onMix f).draw = s.draw := rfl
@[simp] theorem onMix_pending : (s.onMix f).pending = s.pending := rfl
@[simp] theorem onMix_shownOk : (s.onMix f).shownOk = s.shownOk := rfl
end

section
variable (s : State) (f : Tab Echo → Tab Echo)
@[simp] theorem onEcho_time : (s.onEcho f).time = s.time := rfl
@[simp] theorem onEcho_hbi : (s.onEcho f).hbi = s.hbi := rfl
@[simp] theorem onEcho_cmd : (s.onEcho f).cmd = s.cmd := rfl
@[simp] theorem onEcho_mix : (s.onEcho f).mix = s.mix := rfl
@[simp] theorem onEcho_echo : (s.onEcho f).echo = f s.echo := rfl
@[simp] theorem onEcho_vad : (s.onEcho f).vad = s.vad := rfl
@[simp] theorem onEcho_hum : (s.onEcho f).hum = s.hum := rfl
@[simp] theorem onEcho_line : (s.onEcho f).line = s.line := rfl
@[simp] theorem onEcho_dap : (s.onEcho f).dap = s.dap := rfl
@[simp] theorem onEcho_net : (s.onEcho f).net = s.net := rfl
@[simp] theorem onEcho_media : (s.onEcho f).media = s.media := rfl
@[simp] theorem onEcho_imdal : (s.onEcho f).imdal = s.imdal := rfl
@[simp] theorem onEcho_tiles : (s.onEcho f).tiles = s.tiles := rfl
@[simp] theorem onEcho_mem : (s.onEcho f).mem = s.mem := rfl
@[simp] theorem onEcho_power : (s.onEcho f).power = s.power := rfl
@[simp] theorem onEcho_boot : (s.onEcho f).boot = s.boot := rfl
@[simp] theorem onEcho_trace : (s.onEcho f).trace = s.trace := rfl
@[simp] theorem onEcho_shelf : (s.onEcho f).shelf = s.shelf := rfl
@[simp] theorem onEcho_draw : (s.onEcho f).draw = s.draw := rfl
@[simp] theorem onEcho_pending : (s.onEcho f).pending = s.pending := rfl
@[simp] theorem onEcho_shownOk : (s.onEcho f).shownOk = s.shownOk := rfl
end

section
variable (s : State) (f : Tab Vad → Tab Vad)
@[simp] theorem onVad_time : (s.onVad f).time = s.time := rfl
@[simp] theorem onVad_hbi : (s.onVad f).hbi = s.hbi := rfl
@[simp] theorem onVad_cmd : (s.onVad f).cmd = s.cmd := rfl
@[simp] theorem onVad_mix : (s.onVad f).mix = s.mix := rfl
@[simp] theorem onVad_echo : (s.onVad f).echo = s.echo := rfl
@[simp] theorem onVad_vad : (s.onVad f).vad = f s.vad := rfl
@[simp] theorem onVad_hum : (s.onVad f).hum = s.hum := rfl
@[simp] theorem onVad_line : (s.onVad f).line = s.line := rfl
@[simp] theorem onVad_dap : (s.onVad f).dap = s.dap := rfl
@[simp] theorem onVad_net : (s.onVad f).net = s.net := rfl
@[simp] theorem onVad_media : (s.onVad f).media = s.media := rfl
@[simp] theorem onVad_imdal : (s.onVad f).imdal = s.imdal := rfl
@[simp] theorem onVad_tiles : (s.onVad f).tiles = s.tiles := rfl
@[simp] theorem onVad_mem : (s.onVad f).mem = s.mem := rfl
@[simp] theorem onVad_power : (s.onVad f).power = s.power := rfl
@[simp] theorem onVad_boot : (s.onVad f).boot = s.boot := rfl
@[simp] theorem onVad_trace : (s.onVad f).trace = s.trace := rfl
@[simp] theorem onVad_shelf : (s.onVad f).shelf = s.shelf := rfl
@[simp] theorem onVad_draw : (s.onVad f).draw = s.draw := rfl
@[simp] theorem onVad_pending : (s.onVad f).pending = s.pending := rfl
@[simp] theorem onVad_shownOk : (s.onVad f).shownOk = s.shownOk := rfl
end

section
variable (s : State) (f : Tab Hum → Tab Hum)
@[simp] theorem onHum_time : (s.onHum f).time = s.time := rfl
@[simp] theorem onHum_hbi : (s.onHum f).hbi = s.hbi := rfl
@[simp] theorem onHum_cmd : (s.onHum f).cmd = s.cmd := rfl
@[simp] theorem onHum_mix : (s.onHum f).mix = s.mix := rfl
@[simp] theorem onHum_echo : (s.onHum f).echo = s.echo := rfl
@[simp] theorem onHum_vad : (s.onHum f).vad = s.vad := rfl
@[simp] theorem onHum_hum : (s.onHum f).hum = f s.hum := rfl
@[simp] theorem onHum_line : (s.onHum f).line = s.line := rfl
@[simp] theorem onHum_dap : (s.onHum f).dap = s.dap := rfl
@[simp] theorem onHum_net : (s.onHum f).net = s.net := rfl
@[simp] theorem onHum_media : (s.onHum f).media = s.media := rfl
@[simp] theorem onHum_imdal : (s.onHum f).imdal = s.imdal := rfl
@[simp] theorem onHum_tiles : (s.onHum f).tiles = s.tiles := rfl
@[simp] theorem onHum_mem : (s.onHum f).mem = s.mem := rfl
@[simp] theorem onHum_power : (s.onHum f).power = s.power := rfl
@[simp] theorem onHum_boot : (s.onHum f).boot = s.boot := rfl
@[simp] theorem onHum_trace : (s.onHum f).trace = s.trace := rfl
@[simp] theorem onHum_shelf : (s.onHum f).shelf = s.shelf := rfl
@[simp] theorem onHum_draw : (s.onHum f).draw = s.draw := rfl
@[simp] theorem onHum_pending : (s.onHum f).pending = s.pending := rfl
@[simp] theorem onHum_shownOk : (s.onHum f).shownOk = s.shownOk := rfl
end

section
variable (s : State) (f : Line → Line)
@[simp] theorem onLine_time : (s.onLine f).time = s.time := rfl
@[simp] theorem onLine_hbi : (s.onLine f).hbi = s.hbi := rfl
@[simp] theorem onLine_cmd : (s.onLine f).cmd = s.cmd := rfl
@[simp] theorem onLine_mix : (s.onLine f).mix = s.mix := rfl
@[simp] theorem onLine_echo : (s.onLine f).echo = s.echo := rfl
@[simp] theorem onLine_vad : (s.onLine f).vad = s.vad := rfl
@[simp] theorem onLine_hum : (s.onLine f).hum = s.hum := rfl
@[simp] theorem onLine_line : (s.onLine f).line = f s.line := rfl
@[simp] theorem onLine_dap : (s.onLine f).dap = s.dap := rfl
@[simp] theorem onLine_net : (s.onLine f).net = s.net := rfl
@[simp] theorem onLine_media : (s.onLine f).media = s.media := rfl
@[simp] theorem onLine_imdal : (s.onLine f).imdal = s.imdal := rfl
@[simp] theorem onLine_tiles : (s.onLine f).tiles = s.tiles := rfl
@[simp] theorem onLine_mem : (s.onLine f).mem = s.mem := rfl
@[simp] theorem onLine_power : (s.onLine f).power = s.power := rfl
@[simp] theorem onLine_boot : (s.onLine f).boot = s.boot := rfl
@[simp] theorem onLine_trace : (s.onLine f).trace = s.trace := rfl
@[simp] theorem onLine_shelf : (s.onLine f).shelf = s.shelf := rfl
@[simp] theorem onLine_draw : (s.onLine f).draw = s.draw := rfl
@[simp] theorem onLine_pending : (s.onLine f).pending = s.pending := rfl
@[simp] theorem onLine_shownOk : (s.onLine f).shownOk = s.shownOk := rfl
end

section
variable (s : State) (f : Tab Dap → Tab Dap)
@[simp] theorem onDap_time : (s.onDap f).time = s.time := rfl
@[simp] theorem onDap_hbi : (s.onDap f).hbi = s.hbi := rfl
@[simp] theorem onDap_cmd : (s.onDap f).cmd = s.cmd := rfl
@[simp] theorem onDap_mix : (s.onDap f).mix = s.mix := rfl
@[simp] theorem onDap_echo : (s.onDap f).echo = s.echo := rfl
@[simp] theorem onDap_vad : (s.onDap f).vad = s.vad := rfl
@[simp] theorem onDap_hum : (s.onDap f).hum = s.hum := rfl
@[simp] theorem onDap_line : (s.onDap f).line = s.line := rfl
@[simp] theorem onDap_dap : (s.onDap f).dap = f s.dap := rfl
@[simp] theorem onDap_net : (s.onDap f).net = s.net := rfl
@[simp] theorem onDap_media : (s.onDap f).media = s.media := rfl
@[simp] theorem onDap_imdal : (s.onDap f).imdal = s.imdal := rfl
@[simp] theorem onDap_tiles : (s.onDap f).tiles = s.tiles := rfl
@[simp] theorem onDap_mem : (s.onDap f).mem = s.mem := rfl
@[simp] theorem onDap_power : (s.onDap f).power = s.power := rfl
@[simp] theorem onDap_boot : (s.onDap f).boot = s.boot := rfl
@[simp] theorem onDap_trace : (s.onDap f).trace = s.trace := rfl
@[simp] theorem onDap_shelf : (s.onDap f).shelf = s.shelf := rfl
@[simp] theorem onDap_draw : (s.onDap f).draw = s.draw := rfl
@[simp] theorem onDap_pending : (s.onDap f).pending = s.pending := rfl
@[simp] theorem onDap_shownOk : (s.onDap f).shownOk = s.shownOk := rfl
end

section
variable (s : State) (f : Tab Net → Tab Net)
@[simp] theorem onNet_time : (s.onNet f).time = s.time := rfl
@[simp] theorem onNet_hbi : (s.onNet f).hbi = s.hbi := rfl
@[simp] theorem onNet_cmd : (s.onNet f).cmd = s.cmd := rfl
@[simp] theorem onNet_mix : (s.onNet f).mix = s.mix := rfl
@[simp] theorem onNet_echo : (s.onNet f).echo = s.echo := rfl
@[simp] theorem onNet_vad : (s.onNet f).vad = s.vad := rfl
@[simp] theorem onNet_hum : (s.onNet f).hum = s.hum := rfl
@[simp] theorem onNet_line : (s.onNet f).line = s.line := rfl
@[simp] theorem onNet_dap : (s.onNet f).dap = s.dap := rfl
@[simp] theorem onNet_net : (s.onNet f).net = f s.net := rfl
@[simp] theorem onNet_media : (s.onNet f).media = s.media := rfl
@[simp] theorem onNet_imdal : (s.onNet f).imdal = s.imdal := rfl
@[simp] theorem onNet_tiles : (s.onNet f).tiles = s.tiles := rfl
@[simp] theorem onNet_mem : (s.onNet f).mem = s.mem := rfl
@[simp] theorem onNet_power : (s.onNet f).power = s.power := rfl
@[simp] theorem onNet_boot : (s.onNet f).boot = s.boot := rfl
@[simp] theorem onNet_trace : (s.onNet f).trace = s.trace := rfl
@[simp] theorem onNet_shelf : (s.onNet f).shelf = s.shelf := rfl
@[simp] theorem onNet_draw : (s.onNet f).draw = s.draw := rfl
@[simp] theorem onNet_pending : (s.onNet f).pending = s.pending := rfl
@[simp] theorem onNet_shownOk : (s.onNet f).shownOk = s.shownOk := rfl
end

section
variable (s : State) (f : Media → Media)
@[simp] theorem onMedia_time : (s.onMedia f).time = s.time := rfl
@[simp] theorem onMedia_hbi : (s.onMedia f).hbi = s.hbi := rfl
@[simp] theorem onMedia_cmd : (s.onMedia f).cmd = s.cmd := rfl
@[simp] theorem onMedia_mix : (s.onMedia f).mix = s.mix := rfl
@[simp] theorem onMedia_echo : (s.onMedia f).echo = s.echo := rfl
@[simp] theorem onMedia_vad : (s.onMedia f).vad = s.vad := rfl
@[simp] theorem onMedia_hum : (s.onMedia f).hum = s.hum := rfl
@[simp] theorem onMedia_line : (s.onMedia f).line = s.line := rfl
@[simp] theorem onMedia_dap : (s.onMedia f).dap = s.dap := rfl
@[simp] theorem onMedia_net : (s.onMedia f).net = s.net := rfl
@[simp] theorem onMedia_media : (s.onMedia f).media = f s.media := rfl
@[simp] theorem onMedia_imdal : (s.onMedia f).imdal = s.imdal := rfl
@[simp] theorem onMedia_tiles : (s.onMedia f).tiles = s.tiles := rfl
@[simp] theorem onMedia_mem : (s.onMedia f).mem = s.mem := rfl
@[simp] theorem onMedia_power : (s.onMedia f).power = s.power := rfl
@[simp] theorem onMedia_boot : (s.onMedia f).boot = s.boot := rfl
@[simp] theorem onMedia_trace : (s.onMedia f).trace = s.trace := rfl
@[simp] theorem onMedia_shelf : (s.onMedia f).shelf = s.shelf := rfl
@[simp] theorem onMedia_draw : (s.onMedia f).draw = s.draw := rfl
@[simp] theorem onMedia_pending : (s.onMedia f).pending = s.pending := rfl
@[simp] theorem onMedia_shownOk : (s.onMedia f).shownOk = s.shownOk := rfl
end

section
variable (s : State) (f : Imdal → Imdal)
@[simp] theorem onImdal_time : (s.onImdal f).time = s.time := rfl
@[simp] theorem onImdal_hbi : (s.onImdal f).hbi = s.hbi := rfl
@[simp] theorem onImdal_cmd : (s.onImdal f).cmd = s.cmd := rfl
@[simp] theorem onImdal_mix : (s.onImdal f).mix = s.mix := rfl
@[simp] theorem onImdal_echo : (s.onImdal f).echo = s.echo := rfl
@[simp] theorem onImdal_vad : (s.onImdal f).vad = s.vad := rfl
@[simp] theorem onImdal_hum : (s.onImdal f).hum = s.hum := rfl
@[simp] theorem onImdal_line : (s.onImdal f).line = s.line := rfl
@[simp] theorem onImdal_dap : (s.onImdal f).dap = s.dap := rfl
@[simp] theorem onImdal_net : (s.onImdal f).net = s.net := rfl
@[simp] theorem onImdal_media : (s.onImdal f).media = s.media := rfl
@[simp] theorem onImdal_imdal : (s.onImdal f).imdal = f s.imdal := rfl
@[simp] theorem onImdal_tiles : (s.onImdal f).tiles = s.tiles := rfl
@[simp] theorem onImdal_mem : (s.onImdal f).mem = s.mem := rfl
@[simp] theorem onImdal_power : (s.onImdal f).power = s.power := rfl
@[simp] theorem onImdal_boot : (s.onImdal f).boot = s.boot := rfl
@[simp] theorem onImdal_trace : (s.onImdal f).trace = s.trace := rfl
@[simp] theorem onImdal_shelf : (s.onImdal f).shelf = s.shelf := rfl
@[simp] theorem onImdal_draw : (s.onImdal f).draw = s.draw := rfl
@[simp] theorem onImdal_pending : (s.onImdal f).pending = s.pending := rfl
@[simp] theorem onImdal_shownOk : (s.onImdal f).shownOk = s.shownOk := rfl
end

section
variable (s : State) (f : Tiles → Tiles)
@[simp] theorem onTiles_time : (s.onTiles f).time = s.time := rfl
@[simp] theorem onTiles_hbi : (s.onTiles f).hbi = s.hbi := rfl
@[simp] theorem onTiles_cmd : (s.onTiles f).cmd = s.cmd := rfl
@[simp] theorem onTiles_mix : (s.onTiles f).mix = s.mix := rfl
@[simp] theorem onTiles_echo : (s.onTiles f).echo = s.echo := rfl
@[simp] theorem onTiles_vad : (s.onTiles f).vad = s.vad := rfl
@[simp] theorem onTiles_hum : (s.onTiles f).hum = s.hum := rfl
@[simp] theorem onTiles_line : (s.onTiles f).line = s.line := rfl
@[simp] theorem onTiles_dap : (s.onTiles f).dap = s.dap := rfl
@[simp] theorem onTiles_net : (s.onTiles f).net = s.net := rfl
@[simp] theorem onTiles_media : (s.onTiles f).media = s.media := rfl
@[simp] theorem onTiles_imdal : (s.onTiles f).imdal = s.imdal := rfl
@[simp] theorem onTiles_tiles : (s.onTiles f).tiles = f s.tiles := rfl
@[simp] theorem onTiles_mem : (s.onTiles f).mem = s.mem := rfl
@[simp] theorem onTiles_power : (s.onTiles f).power = s.power := rfl
@[simp] theorem onTiles_boot : (s.onTiles f).boot = s.boot := rfl
@[simp] theorem onTiles_trace : (s.onTiles f).trace = s.trace := rfl
@[simp] theorem onTiles_shelf : (s.onTiles f).shelf = s.shelf := rfl
@[simp] theorem onTiles_draw : (s.onTiles f).draw = s.draw := rfl
@[simp] theorem onTiles_pending : (s.onTiles f).pending = s.pending := rfl
@[simp] theorem onTiles_shownOk : (s.onTiles f).shownOk = s.shownOk := rfl
end

section
variable (s : State) (f : Memory → Memory)
@[simp] theorem onMem_time : (s.onMem f).time = s.time := rfl
@[simp] theorem onMem_hbi : (s.onMem f).hbi = s.hbi := rfl
@[simp] theorem onMem_cmd : (s.onMem f).cmd = s.cmd := rfl
@[simp] theorem onMem_mix : (s.onMem f).mix = s.mix := rfl
@[simp] theorem onMem_echo : (s.onMem f).echo = s.echo := rfl
@[simp] theorem onMem_vad : (s.onMem f).vad = s.vad := rfl
@[simp] theorem onMem_hum : (s.onMem f).hum = s.hum := rfl
@[simp] theorem onMem_line : (s.onMem f).line = s.line := rfl
@[simp] theorem onMem_dap : (s.onMem f).dap = s.dap := rfl
@[simp] theorem onMem_net : (s.onMem f).net = s.net := rfl
@[simp] theorem onMem_media : (s.onMem f).media = s.media := rfl
@[simp] theorem onMem_imdal : (s.onMem f).imdal = s.imdal := rfl
@[simp] theorem onMem_tiles : (s.onMem f).tiles = s.tiles := rfl
@[simp] theorem onMem_mem : (s.onMem f).mem = f s.mem := rfl
@[simp] theorem onMem_power : (s.onMem f).power = s.power := rfl
@[simp] theorem onMem_boot : (s.onMem f).boot = s.boot := rfl
@[simp] theorem onMem_trace : (s.onMem f).trace = s.trace := rfl
@[simp] theorem onMem_shelf : (s.onMem f).shelf = s.shelf := rfl
@[simp] theorem onMem_draw : (s.onMem f).draw = s.draw := rfl
@[simp] theorem onMem_pending : (s.onMem f).pending = s.pending := rfl
@[simp] theorem onMem_shownOk : (s.onMem f).shownOk = s.shownOk := rfl
end

section
variable (s : State) (f : Power → Power)
@[simp] theorem onPower_time : (s.onPower f).time = s.time := rfl
@[simp] theorem onPower_hbi : (s.onPower f).hbi = s.hbi := rfl
@[simp] theorem onPower_cmd : (s.onPower f).cmd = s.cmd := rfl
@[simp] theorem onPower_mix : (s.onPower f).mix = s.mix := rfl
@[simp] theorem onPower_echo : (s.onPower f).echo = s.echo := rfl
@[simp] theorem onPower_vad : (s.onPower f).vad = s.vad := rfl
@[simp] theorem onPower_hum : (s.onPower f).hum = s.hum := rfl
@[simp] theorem onPower_line : (s.onPower f).line = s.line := rfl
@[simp] theorem onPower_dap : (s.onPower f).dap = s.dap := rfl
@[simp] theorem onPower_net : (s.onPower f).net = s.net := rfl
@[simp] theorem onPower_media : (s.onPower f).media = s.media := rfl
@[simp] theorem onPower_imdal : (s.onPower f).imdal = s.imdal := rfl
@[simp] theorem onPower_tiles : (s.onPower f).tiles = s.tiles := rfl
@[simp] theorem onPower_mem : (s.onPower f).mem = s.mem := rfl
@[simp] theorem onPower_power : (s.onPower f).power = f s.power := rfl
@[simp] theorem onPower_boot : (s.onPower f).boot = s.boot := rfl
@[simp] theorem onPower_trace : (s.onPower f).trace = s.trace := rfl
@[simp] theorem onPower_shelf : (s.onPower f).shelf = s.shelf := rfl
@[simp] theorem onPower_draw : (s.onPower f).draw = s.draw := rfl
@[simp] theorem onPower_pending : (s.onPower f).pending = s.pending := rfl
@[simp] theorem onPower_shownOk : (s.onPower f).shownOk = s.shownOk := rfl
end

section
variable (s : State) (f : Boot → Boot)
@[simp] theorem onBoot_time : (s.onBoot f).time = s.time := rfl
@[simp] theorem onBoot_hbi : (s.onBoot f).hbi = s.hbi := rfl
@[simp] theorem onBoot_cmd : (s.onBoot f).cmd = s.cmd := rfl
@[simp] theorem onBoot_mix : (s.onBoot f).mix = s.mix := rfl
@[simp] theorem onBoot_echo : (s.onBoot f).echo = s.echo := rfl
@[simp] theorem onBoot_vad : (s.onBoot f).vad = s.vad := rfl
@[simp] theorem onBoot_hum : (s.onBoot f).hum = s.hum := rfl
@[simp] theorem onBoot_line : (s.onBoot f).line = s.line := rfl
@[simp] theorem onBoot_dap : (s.onBoot f).dap = s.dap := rfl
@[simp] theorem onBoot_net : (s.onBoot f).net = s.net := rfl
@[simp] theorem onBoot_media : (s.onBoot f).media = s.media := rfl
@[simp] theorem onBoot_imdal : (s.onBoot f).imdal = s.imdal := rfl
@[simp] theorem onBoot_tiles : (s.onBoot f).tiles = s.tiles := rfl
@[simp] theorem onBoot_mem : (s.onBoot f).mem = s.mem := rfl
@[simp] theorem onBoot_power : (s.onBoot f).power = s.power := rfl
@[simp] theorem onBoot_boot : (s.onBoot f).boot = f s.boot := rfl
@[simp] theorem onBoot_trace : (s.onBoot f).trace = s.trace := rfl
@[simp] theorem onBoot_shelf : (s.onBoot f).shelf = s.shelf := rfl
@[simp] theorem onBoot_draw : (s.onBoot f).draw = s.draw := rfl
@[simp] theorem onBoot_pending : (s.onBoot f).pending = s.pending := rfl
@[simp] theorem onBoot_shownOk : (s.onBoot f).shownOk = s.shownOk := rfl
end

section
variable (s : State) (f : Trace → Trace)
@[simp] theorem onTrace_time : (s.onTrace f).time = s.time := rfl
@[simp] theorem onTrace_hbi : (s.onTrace f).hbi = s.hbi := rfl
@[simp] theorem onTrace_cmd : (s.onTrace f).cmd = s.cmd := rfl
@[simp] theorem onTrace_mix : (s.onTrace f).mix = s.mix := rfl
@[simp] theorem onTrace_echo : (s.onTrace f).echo = s.echo := rfl
@[simp] theorem onTrace_vad : (s.onTrace f).vad = s.vad := rfl
@[simp] theorem onTrace_hum : (s.onTrace f).hum = s.hum := rfl
@[simp] theorem onTrace_line : (s.onTrace f).line = s.line := rfl
@[simp] theorem onTrace_dap : (s.onTrace f).dap = s.dap := rfl
@[simp] theorem onTrace_net : (s.onTrace f).net = s.net := rfl
@[simp] theorem onTrace_media : (s.onTrace f).media = s.media := rfl
@[simp] theorem onTrace_imdal : (s.onTrace f).imdal = s.imdal := rfl
@[simp] theorem onTrace_tiles : (s.onTrace f).tiles = s.tiles := rfl
@[simp] theorem onTrace_mem : (s.onTrace f).mem = s.mem := rfl
@[simp] theorem onTrace_power : (s.onTrace f).power = s.power := rfl
@[simp] theorem onTrace_boot : (s.onTrace f).boot = s.boot := rfl
@[simp] theorem onTrace_trace : (s.onTrace f).trace = f s.trace := rfl
@[simp] theorem onTrace_shelf : (s.onTrace f).shelf = s.shelf := rfl
@[simp] theorem onTrace_draw : (s.onTrace f).draw = s.draw := rfl
@[simp] theorem onTrace_pending : (s.onTrace f).pending = s.pending := rfl
@[simp] theorem onTrace_shownOk : (s.onTrace f).shownOk = s.shownOk := rfl
end

section
variable (s : State) (f : Shelf → Shelf)
@[simp] theorem onShelf_time : (s.onShelf f).time = s.time := rfl
@[simp] theorem onShelf_hbi : (s.onShelf f).hbi = s.hbi := rfl
@[simp] theorem onShelf_cmd : (s.onShelf f).cmd = s.cmd := rfl
@[simp] theorem onShelf_mix : (s.onShelf f).mix = s.mix := rfl
@[simp] theorem onShelf_echo : (s.onShelf f).echo = s.echo := rfl
@[simp] theorem onShelf_vad : (s.onShelf f).vad = s.vad := rfl
@[simp] theorem onShelf_hum : (s.onShelf f).hum = s.hum := rfl
@[simp] theorem onShelf_line : (s.onShelf f).line = s.line := rfl
@[simp] theorem onShelf_dap : (s.onShelf f).dap = s.dap := rfl
@[simp] theorem onShelf_net : (s.onShelf f).net = s.net := rfl
@[simp] theorem onShelf_media : (s.onShelf f).media = s.media := rfl
@[simp] theorem onShelf_imdal : (s.onShelf f).imdal = s.imdal := rfl
@[simp] theorem onShelf_tiles : (s.onShelf f).tiles = s.tiles := rfl
@[simp] theorem onShelf_mem : (s.onShelf f).mem = s.mem := rfl
@[simp] theorem onShelf_power : (s.onShelf f).power = s.power := rfl
@[simp] theorem onShelf_boot : (s.onShelf f).boot = s.boot := rfl
@[simp] theorem onShelf_trace : (s.onShelf f).trace = s.trace := rfl
@[simp] theorem onShelf_shelf : (s.onShelf f).shelf = f s.shelf := rfl
@[simp] theorem onShelf_draw : (s.onShelf f).draw = s.draw := rfl
@[simp] theorem onShelf_pending : (s.onShelf f).pending = s.pending := rfl
@[simp] theorem onShelf_shownOk : (s.onShelf f).shownOk = s.shownOk := rfl
end

section
variable (s : State) (f : Nat → Nat)
@[simp] theorem onDraw_time : (s.onDraw f).time = s.time := rfl
@[simp] theorem onDraw_hbi : (s.onDraw f).hbi = s.hbi := rfl
@[simp] theorem onDraw_cmd : (s.onDraw f).cmd = s.cmd := rfl
@[simp] theorem onDraw_mix : (s.onDraw f).mix = s.mix := rfl
@[simp] theorem onDraw_echo : (s.onDraw f).echo = s.echo := rfl
@[simp] theorem onDraw_vad : (s.onDraw f).vad = s.vad := rfl
@[simp] theorem onDraw_hum : (s.onDraw f).hum = s.hum := rfl
@[simp] theorem onDraw_line : (s.onDraw f).line = s.line := rfl
@[simp] theorem onDraw_dap : (s.onDraw f).dap = s.dap := rfl
@[simp] theorem onDraw_net : (s.onDraw f).net = s.net := rfl
@[simp] theorem onDraw_media : (s.onDraw f).media = s.media := rfl
@[simp] theorem onDraw_imdal : (s.onDraw f).imdal = s.imdal := rfl
@[simp] theorem onDraw_tiles : (s.onDraw f).tiles = s.tiles := rfl
@[simp] theorem onDraw_mem : (s.onDraw f).mem = s.mem := rfl
@[simp] theorem onDraw_power : (s.onDraw f).power = s.power := rfl
@[simp] theorem onDraw_boot : (s.onDraw f).boot = s.boot := rfl
@[simp] theorem onDraw_trace : (s.onDraw f).trace = s.trace := rfl
@[simp] theorem onDraw_shelf : (s.onDraw f).shelf = s.shelf := rfl
@[simp] theorem onDraw_draw : (s.onDraw f).draw = f s.draw := rfl
@[simp] theorem onDraw_pending : (s.onDraw f).pending = s.pending := rfl
@[simp] theorem onDraw_shownOk : (s.onDraw f).shownOk = s.shownOk := rfl
end

/-! ### Objects -/

@[simp] theorem onLegCfg_self (s : State) (l : Nat) (f : LegCfg → LegCfg) : (s.onLegCfg l f).legCfg l = f (s.legCfg l) :=
  tget_tmod_self ..
theorem onLegCfg_ne (s : State) (f : LegCfg → LegCfg) {l j : Nat} (h : j ≠ l) : (s.onLegCfg l f).legCfg j = s.legCfg j :=
  tget_tmod_ne _ _ _ h _

@[simp] theorem onLegSt_self (s : State) (l : Nat) (f : LegSt → LegSt) : (s.onLegSt l f).legSt l = f (s.legSt l) :=
  tget_tmod_self ..
theorem onLegSt_ne (s : State) (f : LegSt → LegSt) {l j : Nat} (h : j ≠ l) : (s.onLegSt l f).legSt j = s.legSt j :=
  tget_tmod_ne _ _ _ h _

@[simp] theorem onGrp_self (s : State) (g : Nat) (f : GroupCfg → GroupCfg) : (s.onGrp g f).grp g = f (s.grp g) :=
  tget_tmod_self ..
theorem onGrp_ne (s : State) (f : GroupCfg → GroupCfg) {g j : Nat} (h : j ≠ g) : (s.onGrp g f).grp j = s.grp j :=
  tget_tmod_ne _ _ _ h _

@[simp] theorem onPort_self (s : State) (p : Nat) (f : PortSt → PortSt) : (s.onPort p f).port p = f (s.port p) :=
  tget_tmod_self ..
theorem onPort_ne (s : State) (f : PortSt → PortSt) {p j : Nat} (h : j ≠ p) : (s.onPort p f).port j = s.port j :=
  tget_tmod_ne _ _ _ h _

@[simp] theorem onPortCfg_self (s : State) (p : Nat) (f : PortCfg → PortCfg) : (s.onPortCfg p f).portCfg p = f (s.portCfg p) :=
  tget_tmod_self ..
theorem onPortCfg_ne (s : State) (f : PortCfg → PortCfg) {p j : Nat} (h : j ≠ p) : (s.onPortCfg p f).portCfg j = s.portCfg j :=
  tget_tmod_ne _ _ _ h _

@[simp] theorem onWatch_self (s : State) (p : Nat) (f : Watch → Watch) : (s.onWatch p f).watch p = f (s.watch p) :=
  tget_tmod_self ..
theorem onWatch_ne (s : State) (f : Watch → Watch) {p j : Nat} (h : j ≠ p) : (s.onWatch p f).watch j = s.watch j :=
  tget_tmod_ne _ _ _ h _

@[simp] theorem onSounding_self (s : State) (p : Nat) (f : Sounding → Sounding) : (s.onSounding p f).sounding p = f (s.sounding p) :=
  tget_tmod_self ..
theorem onSounding_ne (s : State) (f : Sounding → Sounding) {p j : Nat} (h : j ≠ p) : (s.onSounding p f).sounding j = s.sounding j :=
  tget_tmod_ne _ _ _ h _

@[simp] theorem onBank_self (s : State) (b : Nat) (f : Bank → Bank) : (s.onBank b f).bank b = f (s.bank b) :=
  tget_tmod_self ..
theorem onBank_ne (s : State) (f : Bank → Bank) {b j : Nat} (h : j ≠ b) : (s.onBank b f).bank j = s.bank j :=
  tget_tmod_ne _ _ _ h _

@[simp] theorem onDapP_self (s : State) (p : Nat) (f : Dap → Dap) : (s.onDapP p f).dapP p = f (s.dapP p) :=
  tget_tmod_self ..
theorem onDapP_ne (s : State) (f : Dap → Dap) {p j : Nat} (h : j ≠ p) : (s.onDapP p f).dapP j = s.dapP j :=
  tget_tmod_ne _ _ _ h _

@[simp] theorem onNetP_self (s : State) (p : Nat) (f : Net → Net) : (s.onNetP p f).netP p = f (s.netP p) :=
  tget_tmod_self ..
theorem onNetP_ne (s : State) (f : Net → Net) {p j : Nat} (h : j ≠ p) : (s.onNetP p f).netP j = s.netP j :=
  tget_tmod_ne _ _ _ h _

@[simp] theorem onTile_self (s : State) (t : Nat) (f : Tile → Tile) : (s.onTile t f).tile t = f (s.tile t) :=
  tget_tmod_self ..
theorem onTile_ne (s : State) (f : Tile → Tile) {t j : Nat} (h : j ≠ t) : (s.onTile t f).tile j = s.tile j :=
  tget_tmod_ne _ _ _ h _

@[simp] theorem onDom_self (s : State) (d : Nat) (f : Domain → Domain) : (s.onDom d f).dom d = f (s.dom d) :=
  tget_tmod_self ..
theorem onDom_ne (s : State) (f : Domain → Domain) {d j : Nat} (h : j ≠ d) : (s.onDom d f).dom j = s.dom j :=
  tget_tmod_ne _ _ _ h _

@[simp] theorem onEchoL_self (s : State) (l : Nat) (f : Echo → Echo) : (s.onEchoL l f).echoL l = f (s.echoL l) :=
  tget_tmod_self ..
theorem onEchoL_ne (s : State) (f : Echo → Echo) {l j : Nat} (h : j ≠ l) : (s.onEchoL l f).echoL j = s.echoL j :=
  tget_tmod_ne _ _ _ h _

@[simp] theorem onVadL_self (s : State) (l : Nat) (f : Vad → Vad) : (s.onVadL l f).vadL l = f (s.vadL l) :=
  tget_tmod_self ..
theorem onVadL_ne (s : State) (f : Vad → Vad) {l j : Nat} (h : j ≠ l) : (s.onVadL l f).vadL j = s.vadL j :=
  tget_tmod_ne _ _ _ h _

@[simp] theorem onHumL_self (s : State) (l : Nat) (f : Hum → Hum) : (s.onHumL l f).humL l = f (s.humL l) :=
  tget_tmod_self ..
theorem onHumL_ne (s : State) (f : Hum → Hum) {l j : Nat} (h : j ≠ l) : (s.onHumL l f).humL j = s.humL j :=
  tget_tmod_ne _ _ _ h _

@[simp] theorem onRxS_self (s : State) (n : Nat) (f : Stream → Stream) : (s.onRxS n f).rxS n = f (s.rxS n) :=
  tget_tmod_self ..
theorem onRxS_ne (s : State) (f : Stream → Stream) {n j : Nat} (h : j ≠ n) : (s.onRxS n f).rxS j = s.rxS j :=
  tget_tmod_ne _ _ _ h _

@[simp] theorem onTxS_self (s : State) (n : Nat) (f : Stream → Stream) : (s.onTxS n f).txS n = f (s.txS n) :=
  tget_tmod_self ..
theorem onTxS_ne (s : State) (f : Stream → Stream) {n j : Nat} (h : j ≠ n) : (s.onTxS n f).txS j = s.txS j :=
  tget_tmod_ne _ _ _ h _

end Sys2Proof.Machine
end

