-- ==== Sys2Proof/Laws/Command.lean ====
section
/-! SUPPORT. What the shared operations of the command path do: reports, completion at a source, the checks that stand before a
command's own, acceptance. -/

namespace Sys2Proof.Machine

set_option Elab.async false

/-! ### Reports -/

theorem Reports.refl (s : State) : Reports s s := ⟨rfl, fun _ h => h, rfl⟩

theorem Reports.trans {s t u : State} (h : Reports s t) (k : Reports t u) : Reports s u := by
  obtain ⟨h1, h2, h3⟩ := h
  obtain ⟨k1, k2, k3⟩ := k
  refine ⟨?_, fun i x => k2 i (h2 i x), ?_⟩
  · rw [k1, h1]
  · rw [k3, h3]

theorem reports_of_eq {s t u : State} (h : Reports s t) (hh : u.hbi = t.hbi) (ht : u.trace = t.trace) : Reports s u :=
  ⟨by rw [hh]; exact h.1, by rw [hh]; exact h.2.1, by rw [ht]; exact h.2.2⟩

theorem reports_raise {s t : State} (b : Nat) (h : Reports s t) : Reports s (t.raise b) := by
  refine h.trans ⟨rfl, fun i x => ?_, rfl⟩
  show ((t.hbi.irqStat ||| BitVec.ofNat 16 (2 ^ b)).getLsbD i) = true
  simp [x]

theorem reports_countN {s t : State} (i k : Nat) (h : Reports s t) : Reports s (t.countN i k) :=
  h.trans ⟨rfl, fun _ x => x, rfl⟩

theorem reports_count {s t : State} (i : Nat) (h : Reports s t) : Reports s (t.count i) := reports_countN i 1 h

theorem reports_record {s t : State} (cls : Nat) (pay : Word) (h : Reports s t) : Reports s (t.record cls pay) := by
  refine h.trans ?_
  unfold State.record
  dsimp only
  split
  · split
    · exact ⟨rfl, fun _ x => x, rfl⟩
    · exact ⟨rfl, fun _ x => x, rfl⟩
  · exact Reports.refl t

/-! ### What a record and a count leave -/

@[simp] theorem raise_cmd (s : State) (b : Nat) : (s.raise b).cmd = s.cmd := rfl
@[simp] theorem raise_mem (s : State) (b : Nat) : (s.raise b).mem = s.mem := rfl
@[simp] theorem raise_irqStat (s : State) (b : Nat) : (s.raise b).hbi.irqStat = s.hbi.irqStat ||| BitVec.ofNat 16 (2 ^ b) := rfl
@[simp] theorem count_cmd (s : State) (i : Nat) : (s.count i).cmd = s.cmd := rfl
@[simp] theorem count_mem (s : State) (i : Nat) : (s.count i).mem = s.mem := rfl
@[simp] theorem count_hbi (s : State) (i : Nat) : (s.count i).hbi = s.hbi := rfl

theorem record_same (s : State) (cls : Nat) (pay : Word) : SameOutside [.trace, .draw] s (s.record cls pay) :=
  (foot_record (Foot.refl [.trace, .draw] s) (by decide)).1

@[simp] theorem record_cmd (s : State) (cls : Nat) (pay : Word) : (s.record cls pay).cmd = s.cmd := record_same s cls pay .cmd (by decide)
@[simp] theorem record_mem (s : State) (cls : Nat) (pay : Word) : (s.record cls pay).mem = s.mem := record_same s cls pay .mem (by decide)
@[simp] theorem record_hbi (s : State) (cls : Nat) (pay : Word) : (s.record cls pay).hbi = s.hbi := record_same s cls pay .hbi (by decide)

/-! ### Reads of MGMT SRAM -/

/-- A read that meets no word in error changes nothing (R376). -/
theorem sramMet_clean {s : State} {a n : Nat} (h : badWords s.mem.badSram a n = []) : s.sramMet a n = s := by
  unfold State.sramMet
  rw [h]
  rfl

/-- Whatever a read meets, it changes memory and reports alone. -/
theorem sramMet_same (s : State) (a n : Nat) : SameOutside [.hbi, .mem, .trace] s (s.sramMet a n) :=
  (foot_sramMet (Foot.refl [.hbi, .mem, .trace] s) (by decide)).1

@[simp] theorem sramMet_cmd (s : State) (a n : Nat) : (s.sramMet a n).cmd = s.cmd := sramMet_same s a n .cmd (by decide)

/-- A command leaves its source: but for the words in error that a ring entry holds, the command path alone changes. -/
theorem takeEntry_clean {s : State} {src : CmdSrc} (c : CmdWords) (h : s.cleanEntry src) :
    s.takeEntry src c = s.onCmd fun m => match src with | .mailbox => m | .ring => { m with taken := some c, takenBase := m.base } := by
  cases src with
  | mailbox => rfl
  | ring => simp only [State.takeEntry, sramMet_clean (h rfl)]

/-! ### Completion at a source -/

theorem answerSource_eq (s : State) (src : CmdSrc) (c : CmdWords) (st : Nat) (r0 r1 : Word)
    (hm : src = .mailbox → s.cmd.mbox = none) (hr : src = .ring → s.cmd.takenBase = s.cmd.base) :
    (s.answerSource (srcOf src) c st r0 r1).cmd = s.cmd.answered src c st r0 r1 ∧
      (s.answerSource (srcOf src) c st r0 r1).mem = s.answeredMem s.mem src c st s.cmd.epoch r0 r1 ∧
      answerIrq src c st s.hbi.irqStat (s.answerSource (srcOf src) c st r0 r1).hbi.irqStat ∧
      Reports s (s.answerSource (srcOf src) c st r0 r1) := by
  cases src with
  | mailbox =>
    refine ⟨?_, rfl, ?_, reports_raise _ (reports_of_eq (Reports.refl s) rfl rfl)⟩
    · have h := hm rfl
      simp only [State.answerSource, srcOf, CmdPath.answered, raise_cmd, onCmd_cmd]
      generalize s.cmd = m at *
      cases m
      simp_all
    · simp [answerIrq, State.answerSource, srcOf, irqCmdDone, bit]
  | ring =>
    have h := hr rfl
    unfold State.answerSource srcOf
    dsimp only
    refine ⟨?_, ?_, ?_, ?_⟩
    · split
      all_goals
        simp only [CmdPath.answered, raise_cmd, onCmd_cmd, onMem_cmd]
        generalize s.cmd = m at *
        cases m
        simp_all
    · split <;> simp [State.answeredMem, h]
    · split
      · rename_i q
        have q : c.notify = true ∨ st ≠ stOk := by simpa using q
        rcases q with q | q <;> simp [answerIrq, irqCring, bit, q]
      · rename_i q
        have q : c.notify = false ∧ st = stOk := by simpa using q
        simp [answerIrq, irqCring, bit, q.1, q.2]
    · split
      · exact reports_raise _ (reports_of_eq (Reports.refl s) rfl rfl)
      · exact reports_of_eq (Reports.refl s) rfl rfl

/-- Everything that a completion of an own command does: the command path and memory are answered, the interrupt is set, a rejected one
enters the reject log; the rest is reports. -/
theorem complete_eq (s : State) (src : CmdSrc) (c : CmdWords) (st : Nat) (r0 r1 : Word)
    (hm : src = .mailbox → s.cmd.mbox = none) (hr : src = .ring → s.cmd.takenBase = s.cmd.base) :
    (s.complete (srcOf src) c st r0 r1).cmd =
        (if st = stOk then s.cmd else s.cmd.rejected src c st s.pidx).answered src c st r0 r1 ∧
      (s.complete (srcOf src) c st r0 r1).mem = s.answeredMem s.mem src c st s.cmd.epoch r0 r1 ∧
      answerIrq src c st s.hbi.irqStat (s.complete (srcOf src) c st r0 r1).hbi.irqStat ∧
      Reports s (s.complete (srcOf src) c st r0 r1) := by
  unfold State.complete
  dsimp only
  simp only [record_cmd, record_mem, record_hbi]
  by_cases h : st = stOk
  · simp only [h, if_true]
    obtain ⟨a, b, d, e⟩ := answerSource_eq (s.count 219) src c stOk r0 r1 hm hr
    exact ⟨a, b, d, reports_record _ _ ((reports_count _ (Reports.refl s)).trans e)⟩
  · simp only [h, if_false]
    obtain ⟨a, b, d, e⟩ := answerSource_eq ((s.count 220).logReject (srcOf src) c st) src c st r0 r1 hm hr
    exact ⟨a, b, d, reports_record _ _ ((reports_of_eq (reports_count _ (Reports.refl s)) rfl rfl).trans e)⟩

/-! ### From the source to the checks -/

theorem runRow_front {s : State} {isOp : Nat → Bool} {h : Handler} {src : CmdSrc} {c : CmdWords} (hf : s.front src = some c)
    (ho : isOp c.op = true) : s.runRow isOp h src = (s.takeEntry src c).serve h { src := srcOf src, cmd := c, param := none } := by
  simp [State.runRow, hf, ho]

/-- What a command in front says of the command path. -/
theorem front_facts {s : State} {src : CmdSrc} {c : CmdWords} (hf : s.front src = some c) :
    s.cmd.waiting = none ∧ (src = .mailbox → s.cmd.mbox = some c) ∧ (src = .ring → s.cmd.mbox = none ∧ s.cmd.taken = none) := by
  cases src with
  | mailbox =>
    simp only [State.front] at hf
    split at hf
    · rename_i h
      exact ⟨by simpa using h, fun _ => hf, fun h => nomatch h⟩
    · cases hf
  | ring =>
    simp only [State.front] at hf
    split at hf
    · rename_i h
      simp only [State.ringReady, Bool.and_eq_true, Option.isNone_iff_eq_none] at h
      exact ⟨h.1.1.2, nofun, fun _ => ⟨h.1.2, h.1.1.1.2⟩⟩
    · cases hf

/-- The checks read a state that differs from the one before in the command path alone, where no word of a ring entry is in error. -/
theorem checking_same {s : State} {src : CmdSrc} (c : CmdWords) (h : s.cleanEntry src) :
    s.checking src c = s.onCmd fun _ => (s.checking src c).cmd := by
  unfold State.checking
  rw [takeEntry_clean c h]
  cases src <;> rfl

/-- Beside the command path, taking a ring entry changes memory and reports alone. -/
theorem checking_outside (s : State) (src : CmdSrc) (c : CmdWords) : SameOutside [.hbi, .cmd, .mem, .trace] s (s.checking src c) := by
  cases src with
  | mailbox => exact (foot_onCmd (Foot.refl [.hbi, .cmd, .mem, .trace] s) (by decide) fun k => k).1
  | ring =>
    have h := foot_sramMet (Foot.refl [.hbi, .cmd, .mem, .trace] s) (a := s.ringAddr s.cmd.head.toNat) (n := 32) (by decide)
    have k := foot_onCmd (f := fun m => { m with taken := some c, takenBase := m.base }) h (by decide) fun x => x
    exact (foot_onCmd (f := fun m => { m with waiting := none }) k (by decide) fun x => x).1

/-- What the command path is once a command has completed does not depend on how it left its source. -/
theorem checking_answered {s : State} {src : CmdSrc} {c : CmdWords} (hf : s.front src = some c) (st : Nat) (r0 r1 : Word) :
    (s.checking src c).cmd.answered src c st r0 r1 = s.cmd.answered src c st r0 r1 := by
  obtain ⟨hw, hm, hr⟩ := front_facts hf
  cases src with
  | mailbox =>
    simp only [State.checking, State.takeEntry, onCmd_cmd, CmdPath.answered]
    generalize s.cmd = m at *
    cases m
    simp_all
  | ring =>
    simp only [State.checking, State.takeEntry, onCmd_cmd, sramMet_cmd, CmdPath.answered]
    generalize s.cmd = m at *
    cases m
    simp_all

/-- Nothing of R53 that precedes a command's own checks stops it: it is served by them. -/
theorem serve_checks {s : State} {src : CmdSrc} {c : CmdWords} (h : Handler) (hcl : s.cleanEntry src) (hf : s.front src = some c) (hb : s.boot.boot = 4)
    (hd : s.domOn dMgmt = true) (ha : isConfig c.op = true → s.cmd.accepted < 64) (hop : isDefined c.op = true)
    (hv : c.op = 0x70 → fld c.a0 8 2 ≠ 0) (he : c.chk = true → c.epoch = s.cmd.epoch ∧ (src = .ring → s.cmd.ehalt = false))
    (hr : isConfig c.op = true → s.boot.removal ≠ 7) :
    (s.takeEntry src c).serve h { src := srcOf src, cmd := c, param := none } =
      (s.checking src c).settle { src := srcOf src, cmd := c, param := none }
        (h { src := srcOf src, cmd := c, param := none } (s.checking src c)) := by
  have hc : (s.takeEntry src c).onCmd (fun m => { m with
      waiting := none
      mbox := if srcOf src = .mailbox then none else m.mbox
      status := if srcOf src = .mailbox then 0 else m.status }) = s.checking src c := by
    cases src <;> rfl
  have hs := checking_same c hcl
  have hboot : (s.checking src c).serving = true := by
    rw [hs]
    simp [State.serving, hb]
  have hdom : (s.checking src c).domOn dMgmt = true := by
    rw [hs]
    exact hd
  have hacc : (s.checking src c).cmd.accepted = s.cmd.accepted := by
    unfold State.checking
    rw [takeEntry_clean c hcl]
    cases src <;> rfl
  have hden : (s.checking src c).denied { src := srcOf src, cmd := c, param := none } = false := by
    cases src <;> simpa [State.denied, srcOf] using hv
  have hep : (s.checking src c).epochFails { src := srcOf src, cmd := c, param := none } = false := by
    simp only [State.epochFails]
    cases hk : c.chk with
    | false => rfl
    | true =>
      obtain ⟨h1, h2⟩ := he hk
      unfold State.checking
      rw [takeEntry_clean c hcl]
      cases src <;> simp [h1, h2, srcOf]
  have hrem : (isConfig c.op && decide ((s.checking src c).boot.removal = 7)) = false := by
    cases hk : isConfig c.op with
    | false => rfl
    | true =>
      have := hr hk
      rw [hs]
      exact decide_eq_false this
  have hlim : (isConfig c.op && decide (64 ≤ (s.checking src c).cmd.accepted)) = false := by
    cases hk : isConfig c.op with
    | false => rfl
    | true =>
      have := ha hk
      rw [hacc]
      simp
      omega
  simp only [State.serve, State.ownChecks, hc, hboot, hdom, hlim, hop, hden, hep, hrem, State.putParam, Bool.not_true, if_false, Bool.false_eq_true, ite_self]

/-- Without a fall of the member in sight an accepted configuration command completes at once. -/
theorem settle_config {u u' : State} {x : Ctx} {ord : Nat} {cs : List Change} {r1 : Word} (h : u'.wingsNext ≤ u'.lowMember) :
    u.settle x (.config u' ord cs r1) = (u'.accept x ord cs).complete x.src x.cmd stOk (u'.pidxAt ord) r1 := by
  have : (u'.accept x ord cs).fallRisk ((u'.accept x ord cs).cmd.staged.drop u'.cmd.staged.length) = false := by
    have e : (u'.accept x ord cs).lowMember = u'.lowMember := rfl
    have f : (u'.accept x ord cs).wingsNext = u'.wingsNext := rfl
    simp [State.fallRisk, e, f, Nat.not_lt.mpr h]
  simp [State.settle, this]

theorem settle_done {u u' : State} {x : Ctx} {r0 r1 : Word} {out : Option (Word × List Byte)} (h : u'.wingsNext ≤ u'.lowMember) :
    u.settle x (.done u' r0 r1 out) = (u'.putResult out).complete x.src x.cmd stOk r0 r1 := by
  have t : (u'.putResult out).tiles = u'.tiles := (foot_putResult (Foot.refl [.mem] u') (by decide)).1 .tiles (by decide)
  have : ∀ gs, (u'.putResult out).fallRisk gs = false := by
    intro gs
    have e : (u'.putResult out).lowMember = u'.lowMember := by
      simp only [State.lowMember, State.wingsNext, State.healthyTiles, State.tile, t]
    have f : (u'.putResult out).wingsNext = u'.wingsNext := by simp only [State.wingsNext, t]
    simp [State.fallRisk, e, f, Nat.not_lt.mpr h]
  simp [State.settle, this]

/-- Frames compose. -/
theorem same_trans {ps qs rs : List Part} {s t u : State} (h : SameOutside ps s t) (k : SameOutside qs t u) (hp : ps ⊆ rs) (hq : qs ⊆ rs) :
    SameOutside rs s u := by
  intro p hn
  have a := h p fun x => hn (hp x)
  have b := k p fun x => hn (hq x)
  cases p <;> simp only [Part.same] at a b ⊢ <;> simp [a, b]

/-- Acceptance and completion do not depend on how the command left its source. -/
theorem accepts_answered {s : State} {src : CmdSrc} {c : CmdWords} (hf : s.front src = some c) (ord : Nat) (cs : List Change) (st : Nat) (r0 r1 : Word) :
    (CmdPath.accepts src c ord cs (s.checking src c).cmd).answered src c st r0 r1 = (CmdPath.accepts src c ord cs s.cmd).answered src c st r0 r1 := by
  obtain ⟨hw, hm, hr⟩ := front_facts hf
  cases src
  all_goals
    simp only [State.checking, State.takeEntry, onCmd_cmd, sramMet_cmd, CmdPath.answered, CmdPath.accepts]
    generalize s.cmd = m at *
    cases m
    simp_all


/-- A configuration command whose checks accept it: everything that its row does. k is what the checks themselves do to the command path
(a withdrawal of what was staged), and u' the state they leave. -/
theorem accepts_row {row : Instr} {s u' : State} {src : CmdSrc} {c : CmdWords} {isOp h} {ord : Nat} {cs : List Change} {ps : List Part} {P : State → Prop}
   {k : CmdPath → CmdPath} {r1 : Word}
   (hex : exec row s = .next (s.runRow isOp h src)) (ho : s.Offers src c) (hop : isOp c.op = true) (hdef : isDefined c.op = true)
   (hv : c.op = 0x70 → fld c.a0 8 2 ≠ 0)
   (hck : h { src := srcOf src, cmd := c, param := none } (s.checking src c) = .config u' ord cs r1)
   (hs : SameOutside (.hbi :: .trace :: .draw :: .cmd :: .mem :: ps) s u') (hmem : u'.mem = s.mem)
   (hrep : Reports s u') (hirq : ∀ b, b = 0 ∨ b = 1 → bit (u'.hbi.irqStat.setWidth 32) b = bit (s.hbi.irqStat.setWidth 32) b)
   (ht : u'.time.pidx = s.time.pidx ∧ u'.time.ord = s.time.ord) (htil : u'.wingsNext ≤ u'.lowMember)
   (hc1 : u'.cmd = (fun m => k m) (s.checking src c).cmd)
   (hk : ∀ m : CmdPath, (k m).mbox = m.mbox ∧ (k m).takenBase = m.takenBase ∧ (k m).base = m.base ∧ (k m).head = m.head)
   (hkk : ((CmdPath.accepts src c ord cs (k (s.checking src c).cmd)).answered src c stOk (s.pidxAt ord) r1) = ((CmdPath.accepts src c ord cs (k s.cmd)).answered src c stOk (s.pidxAt ord) r1))
   (hP : ∀ t : State, SameOutside [.hbi, .trace, .draw, .cmd, .mem] u' t → P t) :
   Answers row s src c stOk (s.pidxAt ord) r1 (fun m => CmdPath.accepts src c ord cs (k m)) s.mem ps P := by
  obtain ⟨hf, hb, hr, hd, hpan, ha, he, hw⟩ := ho
  have hff := front_facts hf
  have h1 := runRow_front (h := h) hf hop
  rw [serve_checks h hw.2 hf hb hd (fun _ => ha) hdef hv he (fun _ => hr), hck, settle_config htil] at h1
  have hm : src = .mailbox → (u'.accept { src := srcOf src, cmd := c, param := none } ord cs).cmd.mbox = none := by
    intro e
    show u'.cmd.mbox = none
    rw [hc1, (hk _).1]
    subst e; rfl
  have hr : src = .ring → (u'.accept { src := srcOf src, cmd := c, param := none } ord cs).cmd.takenBase = (u'.accept { src := srcOf src, cmd := c, param := none } ord cs).cmd.base := by
    intro e
    show u'.cmd.takenBase = u'.cmd.base
    rw [hc1, (hk _).2.1, (hk _).2.2.1]
    subst e; rfl
  have hp : u'.pidxAt ord = s.pidxAt ord := by simp [State.pidxAt, ht.1, ht.2]
  obtain ⟨a, b, d, e⟩ := complete_eq (u'.accept { src := srcOf src, cmd := c, param := none } ord cs) src c stOk (u'.pidxAt ord) r1 hm hr
  have hfoot := foot_complete (Foot.refl [.hbi, .trace, .draw, .cmd, .mem] (u'.accept { src := srcOf src, cmd := c, param := none } ord cs)) (src := srcOf src) (c := c) (st := stOk) (r0 := u'.pidxAt ord) (r1 := r1) (by decide)
  have hfoot2 := Foot.trans (foot_accept (Foot.refl [.hbi, .trace, .draw, .cmd, .mem] u') (x := { src := srcOf src, cmd := c, param := none }) (ord := ord) (cs := cs) (by decide)) hfoot
  refine ⟨_, hex.trans (congrArg _ h1), ?_, ?_, ?_, ?_, ?_, ?_⟩
  · refine same_trans hs hfoot2.1 (by simp) ?_
    intro x hx
    simp at hx ⊢
    grind
  · exact hrep.trans ((reports_of_eq (Reports.refl u') rfl rfl).trans e)
  · refine a.trans ?_
    rw [hp]
    refine Eq.trans ?_ hkk
    show ((u'.accept { src := srcOf src, cmd := c, param := none } ord cs).cmd).answered _ _ _ _ _ = _
    have : (u'.accept { src := srcOf src, cmd := c, param := none } ord cs).cmd = CmdPath.accepts src c ord cs u'.cmd := rfl
    rw [this, hc1]
  · rw [b, a, hp]
    cases src with
    | mailbox => exact hmem
    | ring =>
      have e1 : u'.cmd.base = s.cmd.base := by rw [hc1, (hk _).2.2.1]; simp [State.checking, State.takeEntry]
      have e2 : u'.cmd.head = s.cmd.head := by rw [hc1, (hk _).2.2.2]; simp [State.checking, State.takeEntry]
      have e3 : (u'.accept { src := srcOf .ring, cmd := c, param := none } ord cs).cmd.base = s.cmd.base := e1
      have e4 : (u'.accept { src := srcOf .ring, cmd := c, param := none } ord cs).cmd.head = s.cmd.head := e2
      have e5 : (u'.accept { src := srcOf .ring, cmd := c, param := none } ord cs).mem = s.mem := hmem
      simp only [State.answeredMem, e3, e4, e5, if_true, CmdPath.answered]
  · clear hP hkk hck hex h1 hc1
    cases src
    · have z := hirq 0 (Or.inl rfl)
      simp only [answerIrq] at d ⊢
      rw [show (irqCmdDone = 0) from rfl] at d ⊢
      exact d.trans (by rw [← z]; rfl)
    · have z := hirq 1 (Or.inr rfl)
      simp only [answerIrq] at d ⊢
      rw [show (irqCring = 1) from rfl] at d ⊢
      exact d.trans (by rw [← z]; rfl)
  · exact hP _ hfoot2.1

/-- The same for checks that change nothing themselves. -/
theorem accepts_row_id {row : Instr} {s : State} {src : CmdSrc} {c : CmdWords} {isOp h} {ord : Nat} {cs : List Change} 
   (hex : exec row s = .next (s.runRow isOp h src)) (ho : s.Offers src c) (hop : isOp c.op = true) (hdef : isDefined c.op = true)
   (hv : c.op = 0x70 → fld c.a0 8 2 ≠ 0)
   {r1 : Word} (hck : h { src := srcOf src, cmd := c, param := none } (s.checking src c) = .config (s.checking src c) ord cs r1) :
   AcceptsWith r1 row s src c ord cs [] fun _ => True := by
  have hcs := checking_same c ho.2.2.2.2.2.2.2.2
  refine accepts_row (k := id) hex ho hop hdef hv hck ?_ ?_ ?_ ?_ ?_ ?_ ?_ ?_ ?_ ?_
  · rw [hcs]; exact (foot_onCmd (Foot.refl [.cmd] s) (by decide) (by
      intro k
      unfold State.checking
      rw [takeEntry_clean c ho.2.2.2.2.2.2.2.2]
      cases src <;> exact k)).1 |> fun h => same_trans h (Foot.refl [] _).1 (by simp) (by simp)
  · rw [hcs]; rfl
  · rw [hcs]; exact reports_of_eq (Reports.refl s) rfl rfl
  · rw [hcs]; intro b _; rfl
  · rw [hcs]; exact ⟨rfl, rfl⟩
  · have := ho.2.2.2.2.2.2.2.1
    rw [hcs]; exact this
  · rfl
  · intro m; exact ⟨rfl, rfl, rfl, rfl⟩
  · exact accepts_answered ho.1 ord cs _ _ _
  · intros; trivial

theorem checking_unstated {s : State} {src : CmdSrc} {c : CmdWords} (h : s.cleanEntry src) (w : Nat) :
    (s.checking src c).unstated w = s.unstated w := by
  rw [checking_same c h]; rfl
@[simp] theorem checking_domOn {s : State} {src c} (d : Nat) : (s.checking src c).domOn d = s.domOn d := by
  have h : (s.checking src c).power = s.power := checking_outside s src c .power (by decide)
  unfold State.domOn State.dom
  rw [h]
@[simp] theorem checking_wingsNext {s : State} {src c} : (s.checking src c).wingsNext = s.wingsNext := by
  simp only [State.wingsNext, show _ = _ from checking_outside s src c .tiles (by decide)]
@[simp] theorem checking_effectOrd {s : State} {src c} : (s.checking src c).effectOrd = s.effectOrd := by
  simp only [State.effectOrd, show _ = _ from checking_outside s src c .time (by decide)]
@[simp] theorem checking_namedOrd {s : State} {src c} (w) : (s.checking src c).namedOrd w = s.namedOrd w := by
  simp only [State.namedOrd, checking_effectOrd, show _ = _ from checking_outside s src c .time (by decide)]

end Sys2Proof.Machine
end

