-- ==== Sys2Proof/Laws/FootEcho.lean ====
section
/-! SUPPORT. Footprints of the operations of Machine/Echo.lean: the parts each may change, and that it keeps what every
step keeps. -/

namespace Sys2Proof.Machine

set_option Elab.async false

theorem foot_onChain {ps : List Part} {s0 s : State} {l : Nat} {fe : Echo → Echo} {fv : Vad → Vad} {fh : Hum → Hum} (h : Foot ps s0 s) (hp : [.mix, .echo, .vad, .hum] ⊆ ps) :
    Foot ps s0 (State.onChain s l fe fv fh) := by
  unfold State.onChain
  repeat' first
    | with_reducible exact h
    | with_reducible assumption
    | (extract_lets +onlyGivenNames y; first
       | (have e : y = _ := rfl; clear_value y; refine (fun hy => ?_ : Foot ps s0 y → _) ?_; (clear e); (subst e))
       | subst y)
    | with_reducible refine foot_ite (fun _ => ?_) (fun _ => ?_)
    | ((with_reducible refine foot_onHumL ?_ ?m); (case m => exact List.Subset.trans (by decide) hp))
    | ((with_reducible refine foot_onVadL ?_ ?m); (case m => exact List.Subset.trans (by decide) hp))
    | ((with_reducible refine foot_onEchoL ?_ ?m); (case m => exact List.Subset.trans (by decide) hp))
    | ((with_reducible refine foot_onMix ?_ ?m); (case m => exact hp (by decide)))
    | with_reducible refine foot_fst (by with_reducible assumption) ?_
    | with_reducible refine foot_snd (by with_reducible assumption) ?_
    | split
    | with_reducible refine foot_foldl (fun u a hu => ?_) ?_

theorem foot_seedFrom {ps : List Part} {s0 s : State} {p : Nat} {ord : Nat} (h : Foot ps s0 s) (hp : [.mix, .echo, .vad, .hum] ⊆ ps) :
    Foot ps s0 (State.seedFrom s p ord) := by
  unfold State.seedFrom
  repeat' first
    | with_reducible exact h
    | with_reducible assumption
    | (extract_lets +onlyGivenNames y; first
       | (have e : y = _ := rfl; clear_value y; refine (fun hy => ?_ : Foot ps s0 y → _) ?_; (clear e); (subst e))
       | subst y)
    | with_reducible refine foot_ite (fun _ => ?_) (fun _ => ?_)
    | ((with_reducible refine foot_onChain ?_ ?m); (case m => exact List.Subset.trans (by decide) hp))
    | with_reducible refine foot_fst (by with_reducible assumption) ?_
    | with_reducible refine foot_snd (by with_reducible assumption) ?_
    | split
    | with_reducible refine foot_foldl (fun u a hu => ?_) ?_

theorem foot_execDoubleTalkExpiry {ps : List Part} {s0 s : State} {l : LegIx} (h : Foot ps s0 s) (hp : [.mix, .echo, .vad, .hum] ⊆ ps) :
    OFoot ps s0 (execDoubleTalkExpiry l s) := by
  unfold execDoubleTalkExpiry
  repeat' first
    | with_reducible exact h
    | with_reducible assumption
    | with_reducible refine OFoot.next ?_
    | (extract_lets +onlyGivenNames y; first
       | (have e : y = _ := rfl; clear_value y; refine (fun hy => ?_ : Foot ps s0 y → _) ?_; (clear e); (subst e))
       | subst y)
    | with_reducible refine OFoot.ite (fun _ => ?_) (fun _ => ?_)
    | with_reducible refine foot_ite (fun _ => ?_) (fun _ => ?_)
    | ((with_reducible refine foot_onChain ?_ ?m); (case m => exact List.Subset.trans (by decide) hp))
    | with_reducible refine foot_fst (by with_reducible assumption) ?_
    | with_reducible refine foot_snd (by with_reducible assumption) ?_
    | split
    | with_reducible refine foot_foldl (fun u a hu => ?_) ?_

theorem foot_execFastExpiry {ps : List Part} {s0 s : State} {l : LegIx} (h : Foot ps s0 s) (hp : [.mix, .echo, .vad, .hum] ⊆ ps) :
    OFoot ps s0 (execFastExpiry l s) := by
  unfold execFastExpiry
  repeat' first
    | with_reducible exact h
    | with_reducible assumption
    | with_reducible refine OFoot.next ?_
    | (extract_lets +onlyGivenNames y; first
       | (have e : y = _ := rfl; clear_value y; refine (fun hy => ?_ : Foot ps s0 y → _) ?_; (clear e); (subst e))
       | subst y)
    | with_reducible refine OFoot.ite (fun _ => ?_) (fun _ => ?_)
    | with_reducible refine foot_ite (fun _ => ?_) (fun _ => ?_)
    | ((with_reducible refine foot_onChain ?_ ?m); (case m => exact List.Subset.trans (by decide) hp))
    | with_reducible refine foot_fst (by with_reducible assumption) ?_
    | with_reducible refine foot_snd (by with_reducible assumption) ?_
    | split
    | with_reducible refine foot_foldl (fun u a hu => ?_) ?_

theorem foot_execHumSearch {ps : List Part} {s0 s : State} {p : PortIx} {_found : Option F32} (h : Foot ps s0 s) (hp : [.mix, .echo, .vad, .hum] ⊆ ps) :
    OFoot ps s0 (execHumSearch p _found s) := by
  unfold execHumSearch
  repeat' first
    | with_reducible exact h
    | with_reducible assumption
    | with_reducible refine OFoot.next ?_
    | (extract_lets +onlyGivenNames y; first
       | (have e : y = _ := rfl; clear_value y; refine (fun hy => ?_ : Foot ps s0 y → _) ?_; (clear e); (subst e))
       | subst y)
    | with_reducible refine OFoot.ite (fun _ => ?_) (fun _ => ?_)
    | with_reducible refine foot_ite (fun _ => ?_) (fun _ => ?_)
    | ((with_reducible refine foot_onChain ?_ ?m); (case m => exact List.Subset.trans (by decide) hp))
    | with_reducible refine foot_fst (by with_reducible assumption) ?_
    | with_reducible refine foot_snd (by with_reducible assumption) ?_
    | split
    | with_reducible refine foot_foldl (fun u a hu => ?_) ?_

theorem foot_execHumStateTimer {ps : List Part} {s0 s : State} {p : PortIx} {ev : HumEvent} (h : Foot ps s0 s) (hp : [.mix, .echo, .vad, .hum] ⊆ ps) :
    OFoot ps s0 (execHumStateTimer p ev s) := by
  unfold execHumStateTimer
  repeat' first
    | with_reducible exact h
    | with_reducible assumption
    | with_reducible refine OFoot.next ?_
    | (extract_lets +onlyGivenNames y; first
       | (have e : y = _ := rfl; clear_value y; refine (fun hy => ?_ : Foot ps s0 y → _) ?_; (clear e); (subst e))
       | subst y)
    | with_reducible refine OFoot.ite (fun _ => ?_) (fun _ => ?_)
    | with_reducible refine foot_ite (fun _ => ?_) (fun _ => ?_)
    | ((with_reducible refine foot_onChain ?_ ?m); (case m => exact List.Subset.trans (by decide) hp))
    | with_reducible refine foot_fst (by with_reducible assumption) ?_
    | with_reducible refine foot_snd (by with_reducible assumption) ?_
    | split
    | with_reducible refine foot_foldl (fun u a hu => ?_) ?_

theorem foot_execVadBlockClose {ps : List Part} {s0 s : State} {l : LegIx} (h : Foot ps s0 s) (hp : [.mix, .echo, .vad, .hum] ⊆ ps) :
    OFoot ps s0 (execVadBlockClose l s) := by
  unfold execVadBlockClose
  repeat' first
    | with_reducible exact h
    | with_reducible assumption
    | with_reducible refine OFoot.next ?_
    | (extract_lets +onlyGivenNames y; first
       | (have e : y = _ := rfl; clear_value y; refine (fun hy => ?_ : Foot ps s0 y → _) ?_; (clear e); (subst e))
       | subst y)
    | with_reducible refine OFoot.ite (fun _ => ?_) (fun _ => ?_)
    | with_reducible refine foot_ite (fun _ => ?_) (fun _ => ?_)
    | ((with_reducible refine foot_onChain ?_ ?m); (case m => exact List.Subset.trans (by decide) hp))
    | with_reducible refine foot_fst (by with_reducible assumption) ?_
    | with_reducible refine foot_snd (by with_reducible assumption) ?_
    | split
    | with_reducible refine foot_foldl (fun u a hu => ?_) ?_

end Sys2Proof.Machine
end

