-- ==== Sys2Proof/Laws/FootLegs.lean ====
section
/-! SUPPORT. Footprints of the operations of Machine/Legs.lean: the parts each may change, and that it keeps what every
step keeps. -/

namespace Sys2Proof.Machine

set_option Elab.async false

theorem foot_grpGetChecked {ps : List Part} {s0 s : State} {x : Ctx} {acc : State} (h : Foot ps s0 s) (hp : [] ⊆ ps) :
    VFoot ps s0 (grpGetChecked x s acc) := by
  unfold grpGetChecked
  repeat' first
    | with_reducible exact h
    | with_reducible assumption
    | with_reducible exact VFoot.reject _
    | with_reducible exact VFoot.wait _
    | with_reducible refine VFoot.config ?_
    | with_reducible refine VFoot.done ?_
    | with_reducible refine VFoot.later ?_
    | (extract_lets +onlyGivenNames y; first
       | (have e : y = _ := rfl; clear_value y; refine (fun hy => ?_ : Foot ps s0 y → _) ?_; (clear e); (subst e))
       | subst y)
    | with_reducible refine VFoot.ite (fun _ => ?_) (fun _ => ?_)
    | with_reducible refine foot_ite (fun _ => ?_) (fun _ => ?_)
    | with_reducible refine foot_fst (by with_reducible assumption) ?_
    | with_reducible refine foot_snd (by with_reducible assumption) ?_
    | split
    | with_reducible refine foot_foldl (fun u a hu => ?_) ?_

theorem foot_grpSetChecked {ps : List Part} {s0 s : State} {x : Ctx} {t : State} (h : Foot ps s0 s) (hp : [] ⊆ ps) :
    VFoot ps s0 (grpSetChecked x s t) := by
  unfold grpSetChecked
  repeat' first
    | with_reducible exact h
    | with_reducible assumption
    | with_reducible exact VFoot.reject _
    | with_reducible exact VFoot.wait _
    | with_reducible refine VFoot.config ?_
    | with_reducible refine VFoot.done ?_
    | with_reducible refine VFoot.later ?_
    | (extract_lets +onlyGivenNames y; first
       | (have e : y = _ := rfl; clear_value y; refine (fun hy => ?_ : Foot ps s0 y → _) ?_; (clear e); (subst e))
       | subst y)
    | with_reducible refine VFoot.ite (fun _ => ?_) (fun _ => ?_)
    | with_reducible refine foot_ite (fun _ => ?_) (fun _ => ?_)
    | with_reducible refine foot_fst (by with_reducible assumption) ?_
    | with_reducible refine foot_snd (by with_reducible assumption) ?_
    | split
    | with_reducible refine foot_foldl (fun u a hu => ?_) ?_

theorem foot_keySetChecked {ps : List Part} {s0 s : State} {x : Ctx} {t : State} (h : Foot ps s0 s) (hp : [] ⊆ ps) :
    VFoot ps s0 (keySetChecked x s t) := by
  unfold keySetChecked
  repeat' first
    | with_reducible exact h
    | with_reducible assumption
    | with_reducible exact VFoot.reject _
    | with_reducible exact VFoot.wait _
    | with_reducible refine VFoot.config ?_
    | with_reducible refine VFoot.done ?_
    | with_reducible refine VFoot.later ?_
    | (extract_lets +onlyGivenNames y; first
       | (have e : y = _ := rfl; clear_value y; refine (fun hy => ?_ : Foot ps s0 y → _) ?_; (clear e); (subst e))
       | subst y)
    | with_reducible refine VFoot.ite (fun _ => ?_) (fun _ => ?_)
    | with_reducible refine foot_ite (fun _ => ?_) (fun _ => ?_)
    | with_reducible refine foot_fst (by with_reducible assumption) ?_
    | with_reducible refine foot_snd (by with_reducible assumption) ?_
    | split
    | with_reducible refine foot_foldl (fun u a hu => ?_) ?_

theorem foot_legGetChecked {ps : List Part} {s0 s : State} {x : Ctx} {acc : State} (h : Foot ps s0 s) (hp : [] ⊆ ps) :
    VFoot ps s0 (legGetChecked x s acc) := by
  unfold legGetChecked
  repeat' first
    | with_reducible exact h
    | with_reducible assumption
    | with_reducible exact VFoot.reject _
    | with_reducible exact VFoot.wait _
    | with_reducible refine VFoot.config ?_
    | with_reducible refine VFoot.done ?_
    | with_reducible refine VFoot.later ?_
    | (extract_lets +onlyGivenNames y; first
       | (have e : y = _ := rfl; clear_value y; refine (fun hy => ?_ : Foot ps s0 y → _) ?_; (clear e); (subst e))
       | subst y)
    | with_reducible refine VFoot.ite (fun _ => ?_) (fun _ => ?_)
    | with_reducible refine foot_ite (fun _ => ?_) (fun _ => ?_)
    | with_reducible refine foot_fst (by with_reducible assumption) ?_
    | with_reducible refine foot_snd (by with_reducible assumption) ?_
    | split
    | with_reducible refine foot_foldl (fun u a hu => ?_) ?_

theorem foot_legSetChecked {ps : List Part} {s0 s : State} {x : Ctx} {t : State} (h : Foot ps s0 s) (hp : [] ⊆ ps) :
    VFoot ps s0 (legSetChecked x s t) := by
  unfold legSetChecked
  repeat' first
    | with_reducible exact h
    | with_reducible assumption
    | with_reducible exact VFoot.reject _
    | with_reducible exact VFoot.wait _
    | with_reducible refine VFoot.config ?_
    | with_reducible refine VFoot.done ?_
    | with_reducible refine VFoot.later ?_
    | (extract_lets +onlyGivenNames y; first
       | (have e : y = _ := rfl; clear_value y; refine (fun hy => ?_ : Foot ps s0 y → _) ?_; (clear e); (subst e))
       | subst y)
    | with_reducible refine VFoot.ite (fun _ => ?_) (fun _ => ?_)
    | with_reducible refine foot_ite (fun _ => ?_) (fun _ => ?_)
    | with_reducible refine foot_fst (by with_reducible assumption) ?_
    | with_reducible refine foot_snd (by with_reducible assumption) ?_
    | split
    | with_reducible refine foot_foldl (fun u a hu => ?_) ?_

theorem foot_grpOpen {ps : List Part} {s0 s : State} {g : Nat} {kind : BitVec 2} {a1 : Word} {a2 : Word} {a3 : Word} (h : Foot ps s0 s) (hp : [.mix] ⊆ ps) :
    Foot ps s0 (State.grpOpen s g kind a1 a2 a3) := by
  unfold State.grpOpen
  repeat' first
    | with_reducible exact h
    | with_reducible assumption
    | (extract_lets +onlyGivenNames y; first
       | (have e : y = _ := rfl; clear_value y; refine (fun hy => ?_ : Foot ps s0 y → _) ?_; (clear e); (subst e))
       | subst y)
    | with_reducible refine foot_ite (fun _ => ?_) (fun _ => ?_)
    | ((with_reducible refine foot_onGrp ?_ ?m); (case m => exact List.Subset.trans (by decide) hp))
    | with_reducible refine foot_fst (by with_reducible assumption) ?_
    | with_reducible refine foot_snd (by with_reducible assumption) ?_
    | split
    | with_reducible refine foot_foldl (fun u a hu => ?_) ?_

theorem foot_keySet {ps : List Part} {s0 s : State} {l : Nat} {talk : Bool} {slot : Nat} {w : Word} (h : Foot ps s0 s) (hp : [.mix] ⊆ ps) :
    Foot ps s0 (State.keySet s l talk slot w) := by
  unfold State.keySet
  repeat' first
    | with_reducible exact h
    | with_reducible assumption
    | (extract_lets +onlyGivenNames y; first
       | (have e : y = _ := rfl; clear_value y; refine (fun hy => ?_ : Foot ps s0 y → _) ?_; (clear e); (subst e))
       | subst y)
    | with_reducible refine foot_ite (fun _ => ?_) (fun _ => ?_)
    | ((with_reducible refine foot_onLegCfg ?_ ?m); (case m => exact List.Subset.trans (by decide) hp))
    | with_reducible refine foot_fst (by with_reducible assumption) ?_
    | with_reducible refine foot_snd (by with_reducible assumption) ?_
    | split
    | with_reducible refine foot_foldl (fun u a hu => ?_) ?_

theorem foot_legAct {ps : List Part} {s0 s : State} {l : Nat} {pause : Bool} (h : Foot ps s0 s) (hp : [.mix] ⊆ ps) :
    Foot ps s0 (State.legAct s l pause) := by
  unfold State.legAct
  repeat' first
    | with_reducible exact h
    | with_reducible assumption
    | (extract_lets +onlyGivenNames y; first
       | (have e : y = _ := rfl; clear_value y; refine (fun hy => ?_ : Foot ps s0 y → _) ?_; (clear e); (subst e))
       | subst y)
    | with_reducible refine foot_ite (fun _ => ?_) (fun _ => ?_)
    | ((with_reducible refine foot_onLegSt ?_ ?m); (case m => exact List.Subset.trans (by decide) hp))
    | with_reducible refine foot_fst (by with_reducible assumption) ?_
    | with_reducible refine foot_snd (by with_reducible assumption) ?_
    | split
    | with_reducible refine foot_foldl (fun u a hu => ?_) ?_

theorem foot_legSet {ps : List Part} {s0 s : State} {l : Nat} {a1 : Word} {a2 : Word} {a3 : Word} (h : Foot ps s0 s) (hp : [.mix] ⊆ ps) :
    Foot ps s0 (State.legSet s l a1 a2 a3) := by
  unfold State.legSet
  repeat' first
    | with_reducible exact h
    | with_reducible assumption
    | (extract_lets +onlyGivenNames y; first
       | (have e : y = _ := rfl; clear_value y; refine (fun hy => ?_ : Foot ps s0 y → _) ?_; (clear e); (subst e))
       | subst y)
    | with_reducible refine foot_ite (fun _ => ?_) (fun _ => ?_)
    | ((with_reducible refine foot_onLegSt ?_ ?m); (case m => exact List.Subset.trans (by decide) hp))
    | ((with_reducible refine foot_onLegCfg ?_ ?m); (case m => exact List.Subset.trans (by decide) hp))
    | with_reducible refine foot_fst (by with_reducible assumption) ?_
    | with_reducible refine foot_snd (by with_reducible assumption) ?_
    | split
    | with_reducible refine foot_foldl (fun u a hu => ?_) ?_

theorem foot_legUnbind {ps : List Part} {s0 s : State} {l : Nat} (h : Foot ps s0 s) (hp : [.mix] ⊆ ps) :
    Foot ps s0 (State.legUnbind s l) := by
  unfold State.legUnbind
  repeat' first
    | with_reducible exact h
    | with_reducible assumption
    | (extract_lets +onlyGivenNames y; first
       | (have e : y = _ := rfl; clear_value y; refine (fun hy => ?_ : Foot ps s0 y → _) ?_; (clear e); (subst e))
       | subst y)
    | with_reducible refine foot_ite (fun _ => ?_) (fun _ => ?_)
    | ((with_reducible refine foot_onLegSt ?_ ?m); (case m => exact List.Subset.trans (by decide) hp))
    | ((with_reducible refine foot_onLegCfg ?_ ?m); (case m => exact List.Subset.trans (by decide) hp))
    | with_reducible refine foot_fst (by with_reducible assumption) ?_
    | with_reducible refine foot_snd (by with_reducible assumption) ?_
    | split
    | with_reducible refine foot_foldl (fun u a hu => ?_) ?_

theorem foot_applyMix {ps : List Part} {s0 s : State} {c : Change} (h : Foot ps s0 s) (hp : [.mix] ⊆ ps) :
    Foot ps s0 (State.applyMix s c) := by
  unfold State.applyMix
  repeat' first
    | with_reducible exact h
    | with_reducible assumption
    | (extract_lets +onlyGivenNames y; first
       | (have e : y = _ := rfl; clear_value y; refine (fun hy => ?_ : Foot ps s0 y → _) ?_; (clear e); (subst e))
       | subst y)
    | with_reducible refine foot_ite (fun _ => ?_) (fun _ => ?_)
    | ((with_reducible refine foot_legSet ?_ ?m); (case m => exact List.Subset.trans (by decide) hp))
    | ((with_reducible refine foot_legUnbind ?_ ?m); (case m => exact List.Subset.trans (by decide) hp))
    | ((with_reducible refine foot_legAct ?_ ?m); (case m => exact List.Subset.trans (by decide) hp))
    | ((with_reducible refine foot_keySet ?_ ?m); (case m => exact List.Subset.trans (by decide) hp))
    | ((with_reducible refine foot_grpOpen ?_ ?m); (case m => exact List.Subset.trans (by decide) hp))
    | ((with_reducible refine foot_onGrp ?_ ?m); (case m => exact List.Subset.trans (by decide) hp))
    | with_reducible refine foot_fst (by with_reducible assumption) ?_
    | with_reducible refine foot_snd (by with_reducible assumption) ?_
    | split
    | with_reducible refine foot_foldl (fun u a hu => ?_) ?_

theorem foot_legPauseChecked {ps : List Part} {s0 s : State} {x : Ctx} {tAt : Nat → State} (h : Foot ps s0 s) (hp : [.hbi, .cmd, .mix, .power, .trace] ⊆ ps) :
    VFoot ps s0 (legPauseChecked x s tAt) := by
  unfold legPauseChecked
  repeat' first
    | with_reducible exact h
    | with_reducible assumption
    | with_reducible exact VFoot.reject _
    | with_reducible exact VFoot.wait _
    | with_reducible refine VFoot.config ?_
    | with_reducible refine VFoot.done ?_
    | with_reducible refine VFoot.later ?_
    | (extract_lets +onlyGivenNames y; first
       | (have e : y = _ := rfl; clear_value y; refine (fun hy => ?_ : Foot ps s0 y → _) ?_; (clear e); (subst e))
       | subst y)
    | with_reducible refine VFoot.ite (fun _ => ?_) (fun _ => ?_)
    | with_reducible refine foot_ite (fun _ => ?_) (fun _ => ?_)
    | ((with_reducible refine foot_onLegSt ?_ ?m); (case m => exact List.Subset.trans (by decide) hp))
    | ((with_reducible refine foot_armVotes ?_ ?m); (case m => exact List.Subset.trans (by decide) hp))
    | ((with_reducible refine foot_onCmd ?_ ?m ?k); (case k => first | exact (fun k => k) | exact (fun _ => List.length_take_le ..)); (case m => exact hp (by decide)))
    | with_reducible refine foot_fst (by with_reducible assumption) ?_
    | with_reducible refine foot_snd (by with_reducible assumption) ?_
    | split
    | with_reducible refine foot_foldl (fun u a hu => ?_) ?_

end Sys2Proof.Machine
end

