-- ==== Sys2Proof/Laws/FootStreams.lean ====
section
/-! SUPPORT. Footprints of the operations of Machine/Streams.lean: the parts each may change, and that it keeps what every
step keeps. -/

namespace Sys2Proof.Machine

set_option Elab.async false

theorem foot_report {ps : List Part} {s0 s : State} {n : Nat} {leave : Bool} {fresh : Bool} (h : Foot ps s0 s) (hp : [.media] ⊆ ps) :
    Foot ps s0 (State.report s n leave fresh) := by
  unfold State.report
  repeat' first
    | with_reducible exact h
    | with_reducible assumption
    | (extract_lets +onlyGivenNames y; first
       | (have e : y = _ := rfl; clear_value y; refine (fun hy => ?_ : Foot ps s0 y → _) ?_; (clear e); (subst e))
       | subst y)
    | with_reducible refine foot_ite (fun _ => ?_) (fun _ => ?_)
    | with_reducible refine foot_forAll (fun u a hu => ?_) ?_
    | ((with_reducible refine foot_onMedia ?_ ?m); (case m => exact hp (by decide)))
    | with_reducible refine foot_fst (by with_reducible assumption) ?_
    | with_reducible refine foot_snd (by with_reducible assumption) ?_
    | split
    | with_reducible refine foot_foldl (fun u a hu => ?_) ?_

theorem foot_onStrm {ps : List Part} {s0 s : State} {tx : Bool} {n : Nat} {f : Stream → Stream} (h : Foot ps s0 s) (hp : [.media] ⊆ ps) :
    Foot ps s0 (State.onStrm s tx n f) := by
  unfold State.onStrm
  repeat' first
    | with_reducible exact h
    | with_reducible assumption
    | (extract_lets +onlyGivenNames y; first
       | (have e : y = _ := rfl; clear_value y; refine (fun hy => ?_ : Foot ps s0 y → _) ?_; (clear e); (subst e))
       | subst y)
    | with_reducible refine foot_ite (fun _ => ?_) (fun _ => ?_)
    | ((with_reducible refine foot_onTxS ?_ ?m); (case m => exact List.Subset.trans (by decide) hp))
    | ((with_reducible refine foot_onRxS ?_ ?m); (case m => exact List.Subset.trans (by decide) hp))
    | with_reducible refine foot_fst (by with_reducible assumption) ?_
    | with_reducible refine foot_snd (by with_reducible assumption) ?_
    | split
    | with_reducible refine foot_foldl (fun u a hu => ?_) ?_

theorem foot_streamConf {ps : List Part} {s0 s : State} {tx : Bool} {n : Nat} {b : List Byte} (h : Foot ps s0 s) (hp : [.media] ⊆ ps) :
    Foot ps s0 (State.streamConf s tx n b) := by
  unfold State.streamConf
  repeat' first
    | with_reducible exact h
    | with_reducible assumption
    | (extract_lets +onlyGivenNames y; first
       | (have e : y = _ := rfl; clear_value y; refine (fun hy => ?_ : Foot ps s0 y → _) ?_; (clear e); (subst e))
       | subst y)
    | with_reducible refine foot_ite (fun _ => ?_) (fun _ => ?_)
    | ((with_reducible refine foot_onStrm ?_ ?m); (case m => exact List.Subset.trans (by decide) hp))
    | with_reducible refine foot_fst (by with_reducible assumption) ?_
    | with_reducible refine foot_snd (by with_reducible assumption) ?_
    | split
    | with_reducible refine foot_foldl (fun u a hu => ?_) ?_

theorem foot_streamRelease {ps : List Part} {s0 s : State} {tx : Bool} {n : Nat} (h : Foot ps s0 s) (hp : [.media] ⊆ ps) :
    Foot ps s0 (State.streamRelease s tx n) := by
  unfold State.streamRelease
  repeat' first
    | with_reducible exact h
    | with_reducible assumption
    | (extract_lets +onlyGivenNames y; first
       | (have e : y = _ := rfl; clear_value y; refine (fun hy => ?_ : Foot ps s0 y → _) ?_; (clear e); (subst e))
       | subst y)
    | with_reducible refine foot_ite (fun _ => ?_) (fun _ => ?_)
    | ((with_reducible refine foot_onStrm ?_ ?m); (case m => exact List.Subset.trans (by decide) hp))
    | with_reducible refine foot_fst (by with_reducible assumption) ?_
    | with_reducible refine foot_snd (by with_reducible assumption) ?_
    | split
    | with_reducible refine foot_foldl (fun u a hu => ?_) ?_

theorem foot_strState {ps : List Part} {s0 s : State} {tx : Bool} {n : Nat} {st : StreamState} (h : Foot ps s0 s) (hp : [.media, .trace, .draw] ⊆ ps) :
    Foot ps s0 (State.strState s tx n st) := by
  unfold State.strState
  repeat' first
    | with_reducible exact h
    | with_reducible assumption
    | (extract_lets +onlyGivenNames y; first
       | (have e : y = _ := rfl; clear_value y; refine (fun hy => ?_ : Foot ps s0 y → _) ?_; (clear e); (subst e))
       | subst y)
    | with_reducible refine foot_ite (fun _ => ?_) (fun _ => ?_)
    | ((with_reducible refine foot_record ?_ ?m); (case m => exact List.Subset.trans (by decide) hp))
    | ((with_reducible refine foot_onStrm ?_ ?m); (case m => exact List.Subset.trans (by decide) hp))
    | with_reducible refine foot_fst (by with_reducible assumption) ?_
    | with_reducible refine foot_snd (by with_reducible assumption) ?_
    | split
    | with_reducible refine foot_foldl (fun u a hu => ?_) ?_

theorem foot_streamArm {ps : List Part} {s0 s : State} {tx : Bool} {n : Nat} (h : Foot ps s0 s) (hp : [.media, .trace, .draw] ⊆ ps) :
    Foot ps s0 (State.streamArm s tx n) := by
  unfold State.streamArm
  repeat' first
    | with_reducible exact h
    | with_reducible assumption
    | (extract_lets +onlyGivenNames y; first
       | (have e : y = _ := rfl; clear_value y; refine (fun hy => ?_ : Foot ps s0 y → _) ?_; (clear e); (subst e))
       | subst y)
    | with_reducible refine foot_ite (fun _ => ?_) (fun _ => ?_)
    | ((with_reducible refine foot_strState ?_ ?m); (case m => exact List.Subset.trans (by decide) hp))
    | ((with_reducible refine foot_onRxS ?_ ?m); (case m => exact List.Subset.trans (by decide) hp))
    | ((with_reducible refine foot_report ?_ ?m); (case m => exact List.Subset.trans (by decide) hp))
    | with_reducible refine foot_fst (by with_reducible assumption) ?_
    | with_reducible refine foot_snd (by with_reducible assumption) ?_
    | split
    | with_reducible refine foot_foldl (fun u a hu => ?_) ?_

theorem foot_streamIdle {ps : List Part} {s0 s : State} {tx : Bool} {n : Nat} (h : Foot ps s0 s) (hp : [.media, .trace, .draw] ⊆ ps) :
    Foot ps s0 (State.streamIdle s tx n) := by
  unfold State.streamIdle
  repeat' first
    | with_reducible exact h
    | with_reducible assumption
    | (extract_lets +onlyGivenNames y; first
       | (have e : y = _ := rfl; clear_value y; refine (fun hy => ?_ : Foot ps s0 y → _) ?_; (clear e); (subst e))
       | subst y)
    | with_reducible refine foot_ite (fun _ => ?_) (fun _ => ?_)
    | ((with_reducible refine foot_onStrm ?_ ?m); (case m => exact List.Subset.trans (by decide) hp))
    | ((with_reducible refine foot_strState ?_ ?m); (case m => exact List.Subset.trans (by decide) hp))
    | ((with_reducible refine foot_report ?_ ?m); (case m => exact List.Subset.trans (by decide) hp))
    | ((with_reducible refine foot_onRxS ?_ ?m); (case m => exact List.Subset.trans (by decide) hp))
    | ((with_reducible refine foot_onMedia ?_ ?m); (case m => exact hp (by decide)))
    | with_reducible refine foot_fst (by with_reducible assumption) ?_
    | with_reducible refine foot_snd (by with_reducible assumption) ?_
    | split
    | with_reducible refine foot_foldl (fun u a hu => ?_) ?_

theorem foot_streamAct {ps : List Part} {s0 s : State} {tx : Bool} {n : Nat} {pause : Bool} {up : Bool} (h : Foot ps s0 s) (hp : [.hbi, .media, .trace, .draw] ⊆ ps) :
    Foot ps s0 (State.streamAct s tx n pause up) := by
  unfold State.streamAct
  repeat' first
    | with_reducible exact h
    | with_reducible assumption
    | (extract_lets +onlyGivenNames y; first
       | (have e : y = _ := rfl; clear_value y; refine (fun hy => ?_ : Foot ps s0 y → _) ?_; (clear e); (subst e))
       | subst y)
    | with_reducible refine foot_ite (fun _ => ?_) (fun _ => ?_)
    | ((with_reducible refine foot_onStrm ?_ ?m); (case m => exact List.Subset.trans (by decide) hp))
    | ((with_reducible refine foot_raise ?_ ?m); (case m => exact List.Subset.trans (by decide) hp))
    | ((with_reducible refine foot_streamIdle ?_ ?m); (case m => exact List.Subset.trans (by decide) hp))
    | ((with_reducible refine foot_streamArm ?_ ?m); (case m => exact List.Subset.trans (by decide) hp))
    | ((with_reducible refine foot_strState ?_ ?m); (case m => exact List.Subset.trans (by decide) hp))
    | with_reducible refine foot_fst (by with_reducible assumption) ?_
    | with_reducible refine foot_snd (by with_reducible assumption) ?_
    | split
    | with_reducible refine foot_foldl (fun u a hu => ?_) ?_

theorem foot_streamCancel {ps : List Part} {s0 s : State} {tx : Bool} {n : Nat} (h : Foot ps s0 s) (hp : [.media, .trace, .draw] ⊆ ps) :
    Foot ps s0 (State.streamCancel s tx n) := by
  unfold State.streamCancel
  repeat' first
    | with_reducible exact h
    | with_reducible assumption
    | (extract_lets +onlyGivenNames y; first
       | (have e : y = _ := rfl; clear_value y; refine (fun hy => ?_ : Foot ps s0 y → _) ?_; (clear e); (subst e))
       | subst y)
    | with_reducible refine foot_ite (fun _ => ?_) (fun _ => ?_)
    | ((with_reducible refine foot_onStrm ?_ ?m); (case m => exact List.Subset.trans (by decide) hp))
    | ((with_reducible refine foot_streamIdle ?_ ?m); (case m => exact List.Subset.trans (by decide) hp))
    | with_reducible refine foot_fst (by with_reducible assumption) ?_
    | with_reducible refine foot_snd (by with_reducible assumption) ?_
    | split
    | with_reducible refine foot_foldl (fun u a hu => ?_) ?_

theorem foot_streamSetChecked {ps : List Part} {s0 s : State} {x : Ctx} {t : State} (h : Foot ps s0 s) (hp : [.hbi, .mem, .trace] ⊆ ps) :
    VFoot ps s0 (streamSetChecked x s t) := by
  unfold streamSetChecked
  repeat' first
    | with_reducible exact h
    | with_reducible assumption
    | with_reducible exact VFoot.reject _
    | with_reducible exact VFoot.wait _
    | with_reducible refine VFoot.config ?_
    | with_reducible refine VFoot.done ?_
    | with_reducible refine VFoot.later ?_
    | (extract_lets +onlyGivenNames y; first
       | (have e : y = _ := rfl; clear_value y; refine (fun hy => ?_ : Foot ps s0 y → _) ?_; (clear e); (subst e))
       | subst y)
    | with_reducible refine VFoot.ite (fun _ => ?_) (fun _ => ?_)
    | with_reducible refine foot_ite (fun _ => ?_) (fun _ => ?_)
    | ((with_reducible refine foot_blockMet ?_ ?m); (case m => exact List.Subset.trans (by decide) hp))
    | with_reducible refine foot_fst (by with_reducible assumption) ?_
    | with_reducible refine foot_snd (by with_reducible assumption) ?_
    | split
    | with_reducible refine foot_foldl (fun u a hu => ?_) ?_

theorem foot_streamPauseChecked {ps : List Part} {s0 s : State} {x : Ctx} {tAt : Nat → State} (h : Foot ps s0 s) (hp : [.hbi, .cmd, .media, .power, .trace, .draw] ⊆ ps) :
    VFoot ps s0 (streamPauseChecked x s tAt) := by
  unfold streamPauseChecked
  repeat' first
    | with_reducible exact h
    | with_reducible assumption
    | with_reducible exact VFoot.reject _
    | with_reducible exact VFoot.wait _
    | with_reducible refine VFoot.config ?_
    | with_reducible refine VFoot.done ?_
    | with_reducible refine VFoot.later ?_
    | (extract_lets +onlyGivenNames y; first
       | (have e : y = _ := rfl; clear_value y; refine (fun hy => ?_ : Foot ps s0 y → _) ?_; (clear e); (subst e))
       | subst y)
    | with_reducible refine VFoot.ite (fun _ => ?_) (fun _ => ?_)
    | with_reducible refine foot_ite (fun _ => ?_) (fun _ => ?_)
    | ((with_reducible refine foot_onStrm ?_ ?m); (case m => exact List.Subset.trans (by decide) hp))
    | ((with_reducible refine foot_armVotes ?_ ?m); (case m => exact List.Subset.trans (by decide) hp))
    | ((with_reducible refine foot_streamArm ?_ ?m); (case m => exact List.Subset.trans (by decide) hp))
    | ((with_reducible refine foot_onCmd ?_ ?m ?k); (case k => first | exact (fun k => k) | exact (fun _ => List.length_take_le ..)); (case m => exact hp (by decide)))
    | with_reducible refine foot_fst (by with_reducible assumption) ?_
    | with_reducible refine foot_snd (by with_reducible assumption) ?_
    | split
    | with_reducible refine foot_foldl (fun u a hu => ?_) ?_

end Sys2Proof.Machine
end

