-- ==== Sys2Proof/Laws/FootShaping.lean ====
section
/-! SUPPORT. Footprints of the operations of Machine/Shaping.lean: the parts each may change, and that it keeps what every
step keeps. -/

namespace Sys2Proof.Machine

set_option Elab.async false

theorem foot_policerSetChecked {ps : List Part} {s0 s : State} {x : Ctx} (h : Foot ps s0 s) (hp : [] ⊆ ps) :
    VFoot ps s0 (policerSetChecked x s) := by
  unfold policerSetChecked
  repeat' first
    | with_reducible exact h
    | with_reducible assumption
    | with_reducible exact VFoot.reject _
    | with_reducible exact VFoot.wait _
    | with_reducible refine VFoot.config ?_
    | with_reducible refine VFoot.done ?_
    | with_reducible refine VFoot.later ?_
    | (extract_lets +onlyGivenNames y; first
       | (have e : y = _ := rfl; clear_value y; refine (fun hy => ?_ : Foot ps s0 y → _) ?_; (clear e); (subst e))
       | subst y)
    | with_reducible refine VFoot.ite (fun _ => ?_) (fun _ => ?_)
    | with_reducible refine foot_ite (fun _ => ?_) (fun _ => ?_)
    | with_reducible refine foot_fst (by with_reducible assumption) ?_
    | with_reducible refine foot_snd (by with_reducible assumption) ?_
    | split
    | with_reducible refine foot_foldl (fun u a hu => ?_) ?_

theorem foot_shaperSetChecked {ps : List Part} {s0 s : State} {x : Ctx} (h : Foot ps s0 s) (hp : [] ⊆ ps) :
    VFoot ps s0 (shaperSetChecked x s) := by
  unfold shaperSetChecked
  repeat' first
    | with_reducible exact h
    | with_reducible assumption
    | with_reducible exact VFoot.reject _
    | with_reducible exact VFoot.wait _
    | with_reducible refine VFoot.config ?_
    | with_reducible refine VFoot.done ?_
    | with_reducible refine VFoot.later ?_
    | (extract_lets +onlyGivenNames y; first
       | (have e : y = _ := rfl; clear_value y; refine (fun hy => ?_ : Foot ps s0 y → _) ?_; (clear e); (subst e))
       | subst y)
    | with_reducible refine VFoot.ite (fun _ => ?_) (fun _ => ?_)
    | with_reducible refine foot_ite (fun _ => ?_) (fun _ => ?_)
    | with_reducible refine foot_fst (by with_reducible assumption) ?_
    | with_reducible refine foot_snd (by with_reducible assumption) ?_
    | split
    | with_reducible refine foot_foldl (fun u a hu => ?_) ?_

theorem foot_applyShaping {ps : List Part} {s0 s : State} {c : Change} (h : Foot ps s0 s) (hp : [.net, .media] ⊆ ps) :
    Foot ps s0 (State.applyShaping s c) := by
  unfold State.applyShaping
  repeat' first
    | with_reducible exact h
    | with_reducible assumption
    | (extract_lets +onlyGivenNames y; first
       | (have e : y = _ := rfl; clear_value y; refine (fun hy => ?_ : Foot ps s0 y → _) ?_; (clear e); (subst e))
       | subst y)
    | with_reducible refine foot_ite (fun _ => ?_) (fun _ => ?_)
    | ((with_reducible refine foot_onNetP ?_ ?m); (case m => exact List.Subset.trans (by decide) hp))
    | ((with_reducible refine foot_onMedia ?_ ?m); (case m => exact hp (by decide)))
    | with_reducible refine foot_fst (by with_reducible assumption) ?_
    | with_reducible refine foot_snd (by with_reducible assumption) ?_
    | split
    | with_reducible refine foot_foldl (fun u a hu => ?_) ?_

end Sys2Proof.Machine
end

