-- ==== Sys2Proof/Laws/FootLine.lean ====
section
/-! SUPPORT. Footprints of the operations of Machine/Line.lean: the parts each may change, and that it keeps what every
step keeps. -/

namespace Sys2Proof.Machine

set_option Elab.async false

theorem foot_budgetBoundary {ps : List Part} {s0 s : State}  (h : Foot ps s0 s) (hp : [.line] ⊆ ps) :
    Foot ps s0 (State.budgetBoundary s) := by
  unfold State.budgetBoundary
  repeat' first
    | with_reducible exact h
    | with_reducible assumption
    | (extract_lets +onlyGivenNames y; first
       | (have e : y = _ := rfl; clear_value y; refine (fun hy => ?_ : Foot ps s0 y → _) ?_; (clear e); (subst e))
       | subst y)
    | with_reducible refine foot_ite (fun _ => ?_) (fun _ => ?_)
    | ((with_reducible refine foot_onLine ?_ ?m ?k); (case k => first | exact (fun k => k) | exact (slotsOk_put _)); (case m => exact hp (by decide)))
    | with_reducible refine foot_fst (by with_reducible assumption) ?_
    | with_reducible refine foot_snd (by with_reducible assumption) ?_
    | split
    | with_reducible refine foot_foldl (fun u a hu => ?_) ?_

theorem foot_plantBoundary {ps : List Part} {s0 s : State} {a : Nat} {b : Nat} (h : Foot ps s0 s) (hp : [.line] ⊆ ps) :
    Foot ps s0 (State.plantBoundary s a b) := by
  unfold State.plantBoundary
  repeat' first
    | with_reducible exact h
    | with_reducible assumption
    | (extract_lets +onlyGivenNames y; first
       | (have e : y = _ := rfl; clear_value y; refine (fun hy => ?_ : Foot ps s0 y → _) ?_; (clear e); (subst e))
       | subst y)
    | with_reducible refine foot_ite (fun _ => ?_) (fun _ => ?_)
    | ((with_reducible refine foot_onLine ?_ ?m ?k); (case k => first | exact (fun k => k) | exact (slotsOk_put _)); (case m => exact hp (by decide)))
    | with_reducible refine foot_fst (by with_reducible assumption) ?_
    | with_reducible refine foot_snd (by with_reducible assumption) ?_
    | split
    | with_reducible refine foot_foldl (fun u a hu => ?_) ?_

theorem foot_cardBudgetChecked {ps : List Part} {s0 s : State} {x : Ctx} (h : Foot ps s0 s) (hp : [] ⊆ ps) :
    VFoot ps s0 (cardBudgetChecked x s) := by
  unfold cardBudgetChecked
  repeat' first
    | with_reducible exact h
    | with_reducible assumption
    | with_reducible exact VFoot.reject _
    | with_reducible exact VFoot.wait _
    | with_reducible refine VFoot.config ?_
    | with_reducible refine VFoot.done ?_
    | with_reducible refine VFoot.later ?_
    | (extract_lets +onlyGivenNames y; first
       | (have e : y = _ := rfl; clear_value y; refine (fun hy => ?_ : Foot ps s0 y → _) ?_; (clear e); (subst e))
       | subst y)
    | with_reducible refine VFoot.ite (fun _ => ?_) (fun _ => ?_)
    | with_reducible refine foot_ite (fun _ => ?_) (fun _ => ?_)
    | with_reducible refine foot_fst (by with_reducible assumption) ?_
    | with_reducible refine foot_snd (by with_reducible assumption) ?_
    | split
    | with_reducible refine foot_foldl (fun u a hu => ?_) ?_

theorem foot_portPowerChecked {ps : List Part} {s0 s : State} {x : Ctx} {t : State} (h : Foot ps s0 s) (hp : [] ⊆ ps) :
    VFoot ps s0 (portPowerChecked x s t) := by
  unfold portPowerChecked
  repeat' first
    | with_reducible exact h
    | with_reducible assumption
    | with_reducible exact VFoot.reject _
    | with_reducible exact VFoot.wait _
    | with_reducible refine VFoot.config ?_
    | with_reducible refine VFoot.done ?_
    | with_reducible refine VFoot.later ?_
    | (extract_lets +onlyGivenNames y; first
       | (have e : y = _ := rfl; clear_value y; refine (fun hy => ?_ : Foot ps s0 y → _) ?_; (clear e); (subst e))
       | subst y)
    | with_reducible refine VFoot.ite (fun _ => ?_) (fun _ => ?_)
    | with_reducible refine foot_ite (fun _ => ?_) (fun _ => ?_)
    | with_reducible refine foot_fst (by with_reducible assumption) ?_
    | with_reducible refine foot_snd (by with_reducible assumption) ?_
    | split
    | with_reducible refine foot_foldl (fun u a hu => ?_) ?_

theorem foot_portSetChecked {ps : List Part} {s0 s : State} {x : Ctx} (h : Foot ps s0 s) (hp : [] ⊆ ps) :
    VFoot ps s0 (portSetChecked x s) := by
  unfold portSetChecked
  repeat' first
    | with_reducible exact h
    | with_reducible assumption
    | with_reducible exact VFoot.reject _
    | with_reducible exact VFoot.wait _
    | with_reducible refine VFoot.config ?_
    | with_reducible refine VFoot.done ?_
    | with_reducible refine VFoot.later ?_
    | (extract_lets +onlyGivenNames y; first
       | (have e : y = _ := rfl; clear_value y; refine (fun hy => ?_ : Foot ps s0 y → _) ?_; (clear e); (subst e))
       | subst y)
    | with_reducible refine VFoot.ite (fun _ => ?_) (fun _ => ?_)
    | with_reducible refine foot_ite (fun _ => ?_) (fun _ => ?_)
    | with_reducible refine foot_fst (by with_reducible assumption) ?_
    | with_reducible refine foot_snd (by with_reducible assumption) ?_
    | split
    | with_reducible refine foot_foldl (fun u a hu => ?_) ?_

theorem foot_cardSet {ps : List Part} {s0 s : State} {a0 : Word} {a1 : Word} {a2 : Word} {a3 : Word} {a4 : Word} {a5 : Word} (h : Foot ps s0 s) (hp : [.hbi, .line] ⊆ ps) :
    Foot ps s0 (State.cardSet s a0 a1 a2 a3 a4 a5) := by
  unfold State.cardSet
  repeat' first
    | with_reducible exact h
    | with_reducible assumption
    | (extract_lets +onlyGivenNames y; first
       | (have e : y = _ := rfl; clear_value y; refine (fun hy => ?_ : Foot ps s0 y → _) ?_; (clear e); (subst e))
       | subst y)
    | with_reducible refine foot_ite (fun _ => ?_) (fun _ => ?_)
    | ((with_reducible refine foot_raise ?_ ?m); (case m => exact List.Subset.trans (by decide) hp))
    | with_reducible refine foot_forAll (fun u a hu => ?_) ?_
    | ((with_reducible refine foot_onWatch ?_ ?m); (case m => exact List.Subset.trans (by decide) hp))
    | ((with_reducible refine foot_onLine ?_ ?m ?k); (case k => first | exact (fun k => k) | exact (slotsOk_put _)); (case m => exact hp (by decide)))
    | with_reducible refine foot_fst (by with_reducible assumption) ?_
    | with_reducible refine foot_snd (by with_reducible assumption) ?_
    | split
    | with_reducible refine foot_foldl (fun u a hu => ?_) ?_

theorem foot_compBoundary {ps : List Part} {s0 s : State} {p : Nat} (h : Foot ps s0 s) (hp : [.line] ⊆ ps) :
    Foot ps s0 (State.compBoundary s p) := by
  unfold State.compBoundary
  repeat' first
    | with_reducible exact h
    | with_reducible assumption
    | (extract_lets +onlyGivenNames y; first
       | (have e : y = _ := rfl; clear_value y; refine (fun hy => ?_ : Foot ps s0 y → _) ?_; (clear e); (subst e))
       | subst y)
    | with_reducible refine foot_ite (fun _ => ?_) (fun _ => ?_)
    | ((with_reducible refine foot_onPort ?_ ?m); (case m => exact List.Subset.trans (by decide) hp))
    | with_reducible refine foot_fst (by with_reducible assumption) ?_
    | with_reducible refine foot_snd (by with_reducible assumption) ?_
    | split
    | with_reducible refine foot_foldl (fun u a hu => ?_) ?_

theorem foot_ladderFree {ps : List Part} {s0 s : State} {p : Nat} (h : Foot ps s0 s) (hp : [.line] ⊆ ps) :
    Foot ps s0 (State.ladderFree s p) := by
  unfold State.ladderFree
  repeat' first
    | with_reducible exact h
    | with_reducible assumption
    | (extract_lets +onlyGivenNames y; first
       | (have e : y = _ := rfl; clear_value y; refine (fun hy => ?_ : Foot ps s0 y → _) ?_; (clear e); (subst e))
       | subst y)
    | with_reducible refine foot_ite (fun _ => ?_) (fun _ => ?_)
    | ((with_reducible refine foot_onPort ?_ ?m); (case m => exact List.Subset.trans (by decide) hp))
    | with_reducible refine foot_fst (by with_reducible assumption) ?_
    | with_reducible refine foot_snd (by with_reducible assumption) ?_
    | split
    | with_reducible refine foot_foldl (fun u a hu => ?_) ?_

theorem foot_lineInput {ps : List Part} {s0 s : State} {p : Nat} {xs : List Int} (h : Foot ps s0 s) (hp : [.line] ⊆ ps) :
    Foot ps s0 (State.lineInput s p xs).1 := by
  unfold State.lineInput
  repeat' first
    | with_reducible exact h
    | with_reducible assumption
    | (extract_lets +onlyGivenNames y; first
       | (have e : y = _ := rfl; clear_value y; refine (fun hy => ?_ : Foot ps s0 y → _) ?_; (clear e); (subst e))
       | subst y)
    | with_reducible refine foot_ite (fun _ => ?_) (fun _ => ?_)
    | ((with_reducible refine foot_onPort ?_ ?m); (case m => exact List.Subset.trans (by decide) hp))
    | with_reducible refine foot_fst (by with_reducible assumption) ?_
    | with_reducible refine foot_snd (by with_reducible assumption) ?_
    | split
    | with_reducible refine foot_foldl (fun u a hu => ?_) ?_

theorem foot_soundAbort {ps : List Part} {s0 s : State} {p : Nat} {i : Nat} (h : Foot ps s0 s) (hp : [.line] ⊆ ps) :
    Foot ps s0 (State.soundAbort s p i) := by
  unfold State.soundAbort
  repeat' first
    | with_reducible exact h
    | with_reducible assumption
    | (extract_lets +onlyGivenNames y; first
       | (have e : y = _ := rfl; clear_value y; refine (fun hy => ?_ : Foot ps s0 y → _) ?_; (clear e); (subst e))
       | subst y)
    | with_reducible refine foot_ite (fun _ => ?_) (fun _ => ?_)
    | ((with_reducible refine foot_onSounding ?_ ?m); (case m => exact List.Subset.trans (by decide) hp))
    | with_reducible refine foot_fst (by with_reducible assumption) ?_
    | with_reducible refine foot_snd (by with_reducible assumption) ?_
    | split
    | with_reducible refine foot_foldl (fun u a hu => ?_) ?_

theorem foot_soundAsk {ps : List Part} {s0 s : State} {p : Nat} (h : Foot ps s0 s) (hp : [.line] ⊆ ps) :
    Foot ps s0 (State.soundAsk s p) := by
  unfold State.soundAsk
  repeat' first
    | with_reducible exact h
    | with_reducible assumption
    | (extract_lets +onlyGivenNames y; first
       | (have e : y = _ := rfl; clear_value y; refine (fun hy => ?_ : Foot ps s0 y → _) ?_; (clear e); (subst e))
       | subst y)
    | with_reducible refine foot_ite (fun _ => ?_) (fun _ => ?_)
    | ((with_reducible refine foot_onSounding ?_ ?m); (case m => exact List.Subset.trans (by decide) hp))
    | with_reducible refine foot_fst (by with_reducible assumption) ?_
    | with_reducible refine foot_snd (by with_reducible assumption) ?_
    | split
    | with_reducible refine foot_foldl (fun u a hu => ?_) ?_

theorem foot_execBudgetReturn {ps : List Part} {s0 s : State}  (h : Foot ps s0 s) (hp : [.line] ⊆ ps) :
    OFoot ps s0 (execBudgetReturn s) := by
  unfold execBudgetReturn
  repeat' first
    | with_reducible exact h
    | with_reducible assumption
    | with_reducible refine OFoot.next ?_
    | (extract_lets +onlyGivenNames y; first
       | (have e : y = _ := rfl; clear_value y; refine (fun hy => ?_ : Foot ps s0 y → _) ?_; (clear e); (subst e))
       | subst y)
    | with_reducible refine OFoot.ite (fun _ => ?_) (fun _ => ?_)
    | with_reducible refine foot_ite (fun _ => ?_) (fun _ => ?_)
    | ((with_reducible refine foot_onPort ?_ ?m); (case m => exact List.Subset.trans (by decide) hp))
    | ((with_reducible refine foot_onLine ?_ ?m ?k); (case k => first | exact (fun k => k) | exact (slotsOk_put _)); (case m => exact hp (by decide)))
    | with_reducible refine foot_fst (by with_reducible assumption) ?_
    | with_reducible refine foot_snd (by with_reducible assumption) ?_
    | split
    | with_reducible refine foot_foldl (fun u a hu => ?_) ?_

theorem foot_execSurgeRecovered {ps : List Part} {s0 s : State} {p : PortIx} (h : Foot ps s0 s) (hp : [.line] ⊆ ps) :
    OFoot ps s0 (execSurgeRecovered p s) := by
  unfold execSurgeRecovered
  repeat' first
    | with_reducible exact h
    | with_reducible assumption
    | with_reducible refine OFoot.next ?_
    | (extract_lets +onlyGivenNames y; first
       | (have e : y = _ := rfl; clear_value y; refine (fun hy => ?_ : Foot ps s0 y → _) ?_; (clear e); (subst e))
       | subst y)
    | with_reducible refine OFoot.ite (fun _ => ?_) (fun _ => ?_)
    | with_reducible refine foot_ite (fun _ => ?_) (fun _ => ?_)
    | ((with_reducible refine foot_onPort ?_ ?m); (case m => exact List.Subset.trans (by decide) hp))
    | with_reducible refine foot_fst (by with_reducible assumption) ?_
    | with_reducible refine foot_snd (by with_reducible assumption) ?_
    | split
    | with_reducible refine foot_foldl (fun u a hu => ?_) ?_

theorem foot_portEvent {ps : List Part} {s0 s : State} {p : Nat} (h : Foot ps s0 s) (hp : [.hbi, .line, .trace] ⊆ ps) :
    Foot ps s0 (State.portEvent s p) := by
  unfold State.portEvent
  repeat' first
    | with_reducible exact h
    | with_reducible assumption
    | (extract_lets +onlyGivenNames y; first
       | (have e : y = _ := rfl; clear_value y; refine (fun hy => ?_ : Foot ps s0 y → _) ?_; (clear e); (subst e))
       | subst y)
    | with_reducible refine foot_ite (fun _ => ?_) (fun _ => ?_)
    | ((with_reducible refine foot_raise ?_ ?m); (case m => exact List.Subset.trans (by decide) hp))
    | ((with_reducible refine foot_count ?_ ?m); (case m => exact List.Subset.trans (by decide) hp))
    | ((with_reducible refine foot_onPort ?_ ?m); (case m => exact List.Subset.trans (by decide) hp))
    | with_reducible refine foot_fst (by with_reducible assumption) ?_
    | with_reducible refine foot_snd (by with_reducible assumption) ?_
    | split
    | with_reducible refine foot_foldl (fun u a hu => ?_) ?_

theorem foot_portSetNow {ps : List Part} {s0 s : State} {p : Nat} {cls : BitVec 2} {a1 : Word} {a2 : Word} (h : Foot ps s0 s) (hp : [.line] ⊆ ps) :
    Foot ps s0 (State.portSetNow s p cls a1 a2) := by
  unfold State.portSetNow
  repeat' first
    | with_reducible exact h
    | with_reducible assumption
    | (extract_lets +onlyGivenNames y; first
       | (have e : y = _ := rfl; clear_value y; refine (fun hy => ?_ : Foot ps s0 y → _) ?_; (clear e); (subst e))
       | subst y)
    | with_reducible refine foot_ite (fun _ => ?_) (fun _ => ?_)
    | ((with_reducible refine foot_onPortCfg ?_ ?m); (case m => exact List.Subset.trans (by decide) hp))
    | ((with_reducible refine foot_onPort ?_ ?m); (case m => exact List.Subset.trans (by decide) hp))
    | ((with_reducible refine foot_soundAsk ?_ ?m); (case m => exact List.Subset.trans (by decide) hp))
    | ((with_reducible refine foot_soundAbort ?_ ?m); (case m => exact List.Subset.trans (by decide) hp))
    | ((with_reducible refine foot_onWatch ?_ ?m); (case m => exact List.Subset.trans (by decide) hp))
    | with_reducible refine foot_fst (by with_reducible assumption) ?_
    | with_reducible refine foot_snd (by with_reducible assumption) ?_
    | split
    | with_reducible refine foot_foldl (fun u a hu => ?_) ?_

theorem foot_reslew {ps : List Part} {s0 s : State} {p : Nat} (h : Foot ps s0 s) (hp : [.line] ⊆ ps) :
    Foot ps s0 (State.reslew s p) := by
  unfold State.reslew
  repeat' first
    | with_reducible exact h
    | with_reducible assumption
    | (extract_lets +onlyGivenNames y; first
       | (have e : y = _ := rfl; clear_value y; refine (fun hy => ?_ : Foot ps s0 y → _) ?_; (clear e); (subst e))
       | subst y)
    | with_reducible refine foot_ite (fun _ => ?_) (fun _ => ?_)
    | ((with_reducible refine foot_onPort ?_ ?m); (case m => exact List.Subset.trans (by decide) hp))
    | ((with_reducible refine foot_soundAbort ?_ ?m); (case m => exact List.Subset.trans (by decide) hp))
    | with_reducible refine foot_fst (by with_reducible assumption) ?_
    | with_reducible refine foot_snd (by with_reducible assumption) ?_
    | split
    | with_reducible refine foot_foldl (fun u a hu => ?_) ?_

theorem foot_execLadderLeave {ps : List Part} {s0 s : State} {i : Fin 5} (h : Foot ps s0 s) (hp : [.hbi, .line] ⊆ ps) :
    OFoot ps s0 (execLadderLeave i s) := by
  unfold execLadderLeave
  repeat' first
    | with_reducible exact h
    | with_reducible assumption
    | with_reducible refine OFoot.next ?_
    | (extract_lets +onlyGivenNames y; first
       | (have e : y = _ := rfl; clear_value y; refine (fun hy => ?_ : Foot ps s0 y → _) ?_; (clear e); (subst e))
       | subst y)
    | with_reducible refine OFoot.ite (fun _ => ?_) (fun _ => ?_)
    | with_reducible refine foot_ite (fun _ => ?_) (fun _ => ?_)
    | ((with_reducible refine foot_raise ?_ ?m); (case m => exact List.Subset.trans (by decide) hp))
    | with_reducible refine foot_forAll (fun u a hu => ?_) ?_
    | ((with_reducible refine foot_ladderFree ?_ ?m); (case m => exact List.Subset.trans (by decide) hp))
    | ((with_reducible refine foot_onLine ?_ ?m ?k); (case k => first | exact (fun k => k) | exact (slotsOk_put _)); (case m => exact hp (by decide)))
    | with_reducible refine foot_fst (by with_reducible assumption) ?_
    | with_reducible refine foot_snd (by with_reducible assumption) ?_
    | split
    | with_reducible refine foot_foldl (fun u a hu => ?_) ?_

theorem foot_portSet {ps : List Part} {s0 s : State} {p : Nat} {cls : BitVec 2} {a1 : Word} {a2 : Word} (h : Foot ps s0 s) (hp : [.line] ⊆ ps) :
    Foot ps s0 (State.portSet s p cls a1 a2) := by
  unfold State.portSet
  repeat' first
    | with_reducible exact h
    | with_reducible assumption
    | (extract_lets +onlyGivenNames y; first
       | (have e : y = _ := rfl; clear_value y; refine (fun hy => ?_ : Foot ps s0 y → _) ?_; (clear e); (subst e))
       | subst y)
    | with_reducible refine foot_ite (fun _ => ?_) (fun _ => ?_)
    | ((with_reducible refine foot_onPort ?_ ?m); (case m => exact List.Subset.trans (by decide) hp))
    | ((with_reducible refine foot_portSetNow ?_ ?m); (case m => exact List.Subset.trans (by decide) hp))
    | with_reducible refine foot_fst (by with_reducible assumption) ?_
    | with_reducible refine foot_snd (by with_reducible assumption) ?_
    | split
    | with_reducible refine foot_foldl (fun u a hu => ?_) ?_

theorem foot_portSlew {ps : List Part} {s0 s : State} {p : Nat} (h : Foot ps s0 s) (hp : [.line] ⊆ ps) :
    Foot ps s0 (State.portSlew s p) := by
  unfold State.portSlew
  repeat' first
    | with_reducible exact h
    | with_reducible assumption
    | (extract_lets +onlyGivenNames y; first
       | (have e : y = _ := rfl; clear_value y; refine (fun hy => ?_ : Foot ps s0 y → _) ?_; (clear e); (subst e))
       | subst y)
    | with_reducible refine foot_ite (fun _ => ?_) (fun _ => ?_)
    | ((with_reducible refine foot_reslew ?_ ?m); (case m => exact List.Subset.trans (by decide) hp))
    | ((with_reducible refine foot_onPort ?_ ?m); (case m => exact List.Subset.trans (by decide) hp))
    | with_reducible refine foot_fst (by with_reducible assumption) ?_
    | with_reducible refine foot_snd (by with_reducible assumption) ?_
    | split
    | with_reducible refine foot_foldl (fun u a hu => ?_) ?_

theorem foot_settleLater {ps : List Part} {s0 s : State} {p : Nat} (h : Foot ps s0 s) (hp : [.line] ⊆ ps) :
    Foot ps s0 (State.settleLater s p) := by
  unfold State.settleLater
  repeat' first
    | with_reducible exact h
    | with_reducible assumption
    | (extract_lets +onlyGivenNames y; first
       | (have e : y = _ := rfl; clear_value y; refine (fun hy => ?_ : Foot ps s0 y → _) ?_; (clear e); (subst e))
       | subst y)
    | with_reducible refine foot_ite (fun _ => ?_) (fun _ => ?_)
    | ((with_reducible refine foot_portSetNow ?_ ?m); (case m => exact List.Subset.trans (by decide) hp))
    | ((with_reducible refine foot_onPort ?_ ?m); (case m => exact List.Subset.trans (by decide) hp))
    | with_reducible refine foot_fst (by with_reducible assumption) ?_
    | with_reducible refine foot_snd (by with_reducible assumption) ?_
    | split
    | with_reducible refine foot_foldl (fun u a hu => ?_) ?_

theorem foot_watchLog {ps : List Part} {s0 s : State} {who : Nat} {kind : Nat} {detail : Nat} {value : Word} {pidx : Word} (h : Foot ps s0 s) (hp : [.hbi, .line, .trace] ⊆ ps) :
    Foot ps s0 (State.watchLog s who kind detail value pidx) := by
  unfold State.watchLog
  repeat' first
    | with_reducible exact h
    | with_reducible assumption
    | (extract_lets +onlyGivenNames y; first
       | (have e : y = _ := rfl; clear_value y; refine (fun hy => ?_ : Foot ps s0 y → _) ?_; (clear e); (subst e))
       | subst y)
    | with_reducible refine foot_ite (fun _ => ?_) (fun _ => ?_)
    | ((with_reducible refine foot_portEvent ?_ ?m); (case m => exact List.Subset.trans (by decide) hp))
    | ((with_reducible refine foot_raise ?_ ?m); (case m => exact List.Subset.trans (by decide) hp))
    | ((with_reducible refine foot_onLine ?_ ?m ?k); (case k => first | exact (fun k => k) | exact (slotsOk_put _)); (case m => exact hp (by decide)))
    | with_reducible refine foot_fst (by with_reducible assumption) ?_
    | with_reducible refine foot_snd (by with_reducible assumption) ?_
    | split
    | with_reducible refine foot_foldl (fun u a hu => ?_) ?_

theorem foot_execSurgeReramp {ps : List Part} {s0 s : State} {p : PortIx} (h : Foot ps s0 s) (hp : [.line] ⊆ ps) :
    OFoot ps s0 (execSurgeReramp p s) := by
  unfold execSurgeReramp
  repeat' first
    | with_reducible exact h
    | with_reducible assumption
    | with_reducible refine OFoot.next ?_
    | (extract_lets +onlyGivenNames y; first
       | (have e : y = _ := rfl; clear_value y; refine (fun hy => ?_ : Foot ps s0 y → _) ?_; (clear e); (subst e))
       | subst y)
    | with_reducible refine OFoot.ite (fun _ => ?_) (fun _ => ?_)
    | with_reducible refine foot_ite (fun _ => ?_) (fun _ => ?_)
    | ((with_reducible refine foot_reslew ?_ ?m); (case m => exact List.Subset.trans (by decide) hp))
    | ((with_reducible refine foot_onPort ?_ ?m); (case m => exact List.Subset.trans (by decide) hp))
    | with_reducible refine foot_fst (by with_reducible assumption) ?_
    | with_reducible refine foot_snd (by with_reducible assumption) ?_
    | split
    | with_reducible refine foot_foldl (fun u a hu => ?_) ?_

theorem foot_callEnd {ps : List Part} {s0 s : State} {p : Nat} {kind : Nat} (h : Foot ps s0 s) (hp : [.hbi, .line, .trace] ⊆ ps) :
    Foot ps s0 (State.callEnd s p kind) := by
  unfold State.callEnd
  repeat' first
    | with_reducible exact h
    | with_reducible assumption
    | (extract_lets +onlyGivenNames y; first
       | (have e : y = _ := rfl; clear_value y; refine (fun hy => ?_ : Foot ps s0 y → _) ?_; (clear e); (subst e))
       | subst y)
    | with_reducible refine foot_ite (fun _ => ?_) (fun _ => ?_)
    | ((with_reducible refine foot_onWatch ?_ ?m); (case m => exact List.Subset.trans (by decide) hp))
    | ((with_reducible refine foot_raise ?_ ?m); (case m => exact List.Subset.trans (by decide) hp))
    | ((with_reducible refine foot_watchLog ?_ ?m); (case m => exact List.Subset.trans (by decide) hp))
    | with_reducible refine foot_fst (by with_reducible assumption) ?_
    | with_reducible refine foot_snd (by with_reducible assumption) ?_
    | split
    | with_reducible refine foot_foldl (fun u a hu => ?_) ?_

theorem foot_bankWake {ps : List Part} {s0 s : State} {b : Nat} (h : Foot ps s0 s) (hp : [.hbi, .power, .trace] ⊆ ps) :
    Foot ps s0 (State.bankWake s b) := by
  unfold State.bankWake
  repeat' first
    | with_reducible exact h
    | with_reducible assumption
    | (extract_lets +onlyGivenNames y; first
       | (have e : y = _ := rfl; clear_value y; refine (fun hy => ?_ : Foot ps s0 y → _) ?_; (clear e); (subst e))
       | subst y)
    | with_reducible refine foot_ite (fun _ => ?_) (fun _ => ?_)
    | ((with_reducible refine foot_selfVote ?_ ?m); (case m => exact List.Subset.trans (by decide) hp))
    | with_reducible refine foot_fst (by with_reducible assumption) ?_
    | with_reducible refine foot_snd (by with_reducible assumption) ?_
    | split
    | with_reducible refine foot_foldl (fun u a hu => ?_) ?_

theorem foot_portTo {ps : List Part} {s0 s : State} {p : Nat} {st : PortState} {cause : Nat} {logged : Bool} (h : Foot ps s0 s) (hp : [.hbi, .line, .trace, .draw] ⊆ ps) :
    Foot ps s0 (State.portTo s p st cause logged) := by
  unfold State.portTo
  repeat' first
    | with_reducible exact h
    | with_reducible assumption
    | (extract_lets +onlyGivenNames y; first
       | (have e : y = _ := rfl; clear_value y; refine (fun hy => ?_ : Foot ps s0 y → _) ?_; (clear e); (subst e))
       | subst y)
    | with_reducible refine foot_ite (fun _ => ?_) (fun _ => ?_)
    | ((with_reducible refine foot_callEnd ?_ ?m); (case m => exact List.Subset.trans (by decide) hp))
    | ((with_reducible refine foot_soundAbort ?_ ?m); (case m => exact List.Subset.trans (by decide) hp))
    | ((with_reducible refine foot_onPort ?_ ?m); (case m => exact List.Subset.trans (by decide) hp))
    | ((with_reducible refine foot_settleLater ?_ ?m); (case m => exact List.Subset.trans (by decide) hp))
    | ((with_reducible refine foot_reslew ?_ ?m); (case m => exact List.Subset.trans (by decide) hp))
    | ((with_reducible refine foot_onWatch ?_ ?m); (case m => exact List.Subset.trans (by decide) hp))
    | ((with_reducible refine foot_soundAsk ?_ ?m); (case m => exact List.Subset.trans (by decide) hp))
    | ((with_reducible refine foot_raise ?_ ?m); (case m => exact List.Subset.trans (by decide) hp))
    | ((with_reducible refine foot_portEvent ?_ ?m); (case m => exact List.Subset.trans (by decide) hp))
    | ((with_reducible refine foot_record ?_ ?m); (case m => exact List.Subset.trans (by decide) hp))
    | ((with_reducible refine foot_onLine ?_ ?m ?k); (case k => first | exact (fun k => k) | exact (slotsOk_put _)); (case m => exact hp (by decide)))
    | with_reducible refine foot_fst (by with_reducible assumption) ?_
    | with_reducible refine foot_snd (by with_reducible assumption) ?_
    | split
    | with_reducible refine foot_foldl (fun u a hu => ?_) ?_

theorem foot_bankHold {ps : List Part} {s0 s : State} {b : Nat} (h : Foot ps s0 s) (hp : [.hbi, .line, .trace, .draw] ⊆ ps) :
    Foot ps s0 (State.bankHold s b) := by
  unfold State.bankHold
  repeat' first
    | with_reducible exact h
    | with_reducible assumption
    | (extract_lets +onlyGivenNames y; first
       | (have e : y = _ := rfl; clear_value y; refine (fun hy => ?_ : Foot ps s0 y → _) ?_; (clear e); (subst e))
       | subst y)
    | with_reducible refine foot_ite (fun _ => ?_) (fun _ => ?_)
    | with_reducible refine foot_forAll (fun u a hu => ?_) ?_
    | ((with_reducible refine foot_onPort ?_ ?m); (case m => exact List.Subset.trans (by decide) hp))
    | ((with_reducible refine foot_portTo ?_ ?m); (case m => exact List.Subset.trans (by decide) hp))
    | with_reducible refine foot_fst (by with_reducible assumption) ?_
    | with_reducible refine foot_snd (by with_reducible assumption) ?_
    | split
    | with_reducible refine foot_foldl (fun u a hu => ?_) ?_

theorem foot_bankRelease {ps : List Part} {s0 s : State} {b : Nat} (h : Foot ps s0 s) (hp : [.hbi, .line, .trace, .draw] ⊆ ps) :
    Foot ps s0 (State.bankRelease s b) := by
  unfold State.bankRelease
  repeat' first
    | with_reducible exact h
    | with_reducible assumption
    | (extract_lets +onlyGivenNames y; first
       | (have e : y = _ := rfl; clear_value y; refine (fun hy => ?_ : Foot ps s0 y → _) ?_; (clear e); (subst e))
       | subst y)
    | with_reducible refine foot_ite (fun _ => ?_) (fun _ => ?_)
    | with_reducible refine foot_forAll (fun u a hu => ?_) ?_
    | ((with_reducible refine foot_portTo ?_ ?m); (case m => exact List.Subset.trans (by decide) hp))
    | with_reducible refine foot_fst (by with_reducible assumption) ?_
    | with_reducible refine foot_snd (by with_reducible assumption) ?_
    | split
    | with_reducible refine foot_foldl (fun u a hu => ?_) ?_

theorem foot_portFault {ps : List Part} {s0 s : State} {p : Nat} {cause : Nat} {value : Word} (h : Foot ps s0 s) (hp : [.hbi, .line, .trace, .draw] ⊆ ps) :
    Foot ps s0 (State.portFault s p cause value) := by
  unfold State.portFault
  repeat' first
    | with_reducible exact h
    | with_reducible assumption
    | (extract_lets +onlyGivenNames y; first
       | (have e : y = _ := rfl; clear_value y; refine (fun hy => ?_ : Foot ps s0 y → _) ?_; (clear e); (subst e))
       | subst y)
    | with_reducible refine foot_ite (fun _ => ?_) (fun _ => ?_)
    | ((with_reducible refine foot_portTo ?_ ?m); (case m => exact List.Subset.trans (by decide) hp))
    | ((with_reducible refine foot_watchLog ?_ ?m); (case m => exact List.Subset.trans (by decide) hp))
    | with_reducible refine foot_fst (by with_reducible assumption) ?_
    | with_reducible refine foot_snd (by with_reducible assumption) ?_
    | split
    | with_reducible refine foot_foldl (fun u a hu => ?_) ?_

theorem foot_portPower {ps : List Part} {s0 s : State} {p : Nat} {mode : BitVec 2} (h : Foot ps s0 s) (hp : [.hbi, .line, .trace, .draw] ⊆ ps) :
    Foot ps s0 (State.portPower s p mode) := by
  unfold State.portPower
  repeat' first
    | with_reducible exact h
    | with_reducible assumption
    | (extract_lets +onlyGivenNames y; first
       | (have e : y = _ := rfl; clear_value y; refine (fun hy => ?_ : Foot ps s0 y → _) ?_; (clear e); (subst e))
       | subst y)
    | with_reducible refine foot_ite (fun _ => ?_) (fun _ => ?_)
    | ((with_reducible refine foot_onPortCfg ?_ ?m); (case m => exact List.Subset.trans (by decide) hp))
    | ((with_reducible refine foot_onWatch ?_ ?m); (case m => exact List.Subset.trans (by decide) hp))
    | ((with_reducible refine foot_portTo ?_ ?m); (case m => exact List.Subset.trans (by decide) hp))
    | ((with_reducible refine foot_onPort ?_ ?m); (case m => exact List.Subset.trans (by decide) hp))
    | with_reducible refine foot_fst (by with_reducible assumption) ?_
    | with_reducible refine foot_snd (by with_reducible assumption) ?_
    | split
    | with_reducible refine foot_foldl (fun u a hu => ?_) ?_

theorem foot_portShed {ps : List Part} {s0 s : State} {p : Nat} {cause : Nat} (h : Foot ps s0 s) (hp : [.hbi, .line, .trace, .draw] ⊆ ps) :
    Foot ps s0 (State.portShed s p cause) := by
  unfold State.portShed
  repeat' first
    | with_reducible exact h
    | with_reducible assumption
    | (extract_lets +onlyGivenNames y; first
       | (have e : y = _ := rfl; clear_value y; refine (fun hy => ?_ : Foot ps s0 y → _) ?_; (clear e); (subst e))
       | subst y)
    | with_reducible refine foot_ite (fun _ => ?_) (fun _ => ?_)
    | ((with_reducible refine foot_portTo ?_ ?m); (case m => exact List.Subset.trans (by decide) hp))
    | with_reducible refine foot_fst (by with_reducible assumption) ?_
    | with_reducible refine foot_snd (by with_reducible assumption) ?_
    | split
    | with_reducible refine foot_foldl (fun u a hu => ?_) ?_

theorem foot_tryRamp {ps : List Part} {s0 : State} {a : State × Nat} {p : Nat} (h : Foot ps s0 a.1)
    (hp : [.hbi, .line, .trace, .draw] ⊆ ps) : Foot ps s0 (State.tryRamp a p).1 := by
  unfold State.tryRamp
  repeat' first
    | with_reducible exact h
    | (extract_lets +onlyGivenNames y; first
       | (have e : y = _ := rfl; clear_value y; refine (fun hy => ?_ : Foot ps s0 y → _) ?_; (clear e); (subst e))
       | subst y)
    | ((with_reducible refine foot_portTo ?_ ?m); (case m => exact List.Subset.trans (by decide) hp))
    | ((with_reducible refine foot_onPort ?_ ?m); (case m => exact List.Subset.trans (by decide) hp))
    | split

theorem foot_execFoldEntry {ps : List Part} {s0 s : State} {p : PortIx} (h : Foot ps s0 s) (hp : [.hbi, .line, .trace, .draw] ⊆ ps) :
    OFoot ps s0 (execFoldEntry p s) := by
  unfold execFoldEntry
  repeat' first
    | with_reducible exact h
    | with_reducible assumption
    | with_reducible refine OFoot.next ?_
    | (extract_lets +onlyGivenNames y; first
       | (have e : y = _ := rfl; clear_value y; refine (fun hy => ?_ : Foot ps s0 y → _) ?_; (clear e); (subst e))
       | subst y)
    | with_reducible refine OFoot.ite (fun _ => ?_) (fun _ => ?_)
    | with_reducible refine foot_ite (fun _ => ?_) (fun _ => ?_)
    | ((with_reducible refine foot_portTo ?_ ?m); (case m => exact List.Subset.trans (by decide) hp))
    | with_reducible refine foot_fst (by with_reducible assumption) ?_
    | with_reducible refine foot_snd (by with_reducible assumption) ?_
    | split
    | with_reducible refine foot_foldl (fun u a hu => ?_) ?_

theorem foot_execFoldExit {ps : List Part} {s0 s : State} {p : PortIx} (h : Foot ps s0 s) (hp : [.hbi, .line, .trace, .draw] ⊆ ps) :
    OFoot ps s0 (execFoldExit p s) := by
  unfold execFoldExit
  repeat' first
    | with_reducible exact h
    | with_reducible assumption
    | with_reducible refine OFoot.next ?_
    | (extract_lets +onlyGivenNames y; first
       | (have e : y = _ := rfl; clear_value y; refine (fun hy => ?_ : Foot ps s0 y → _) ?_; (clear e); (subst e))
       | subst y)
    | with_reducible refine OFoot.ite (fun _ => ?_) (fun _ => ?_)
    | with_reducible refine foot_ite (fun _ => ?_) (fun _ => ?_)
    | ((with_reducible refine foot_portTo ?_ ?m); (case m => exact List.Subset.trans (by decide) hp))
    | with_reducible refine foot_fst (by with_reducible assumption) ?_
    | with_reducible refine foot_snd (by with_reducible assumption) ?_
    | split
    | with_reducible refine foot_foldl (fun u a hu => ?_) ?_

theorem foot_execRampComplete {ps : List Part} {s0 s : State} {p : PortIx} {mv : Int} (h : Foot ps s0 s) (hp : [.hbi, .line, .trace, .draw] ⊆ ps) :
    OFoot ps s0 (execRampComplete p mv s) := by
  unfold execRampComplete
  repeat' first
    | with_reducible exact h
    | with_reducible assumption
    | with_reducible refine OFoot.next ?_
    | (extract_lets +onlyGivenNames y; first
       | (have e : y = _ := rfl; clear_value y; refine (fun hy => ?_ : Foot ps s0 y → _) ?_; (clear e); (subst e))
       | subst y)
    | with_reducible refine OFoot.ite (fun _ => ?_) (fun _ => ?_)
    | with_reducible refine foot_ite (fun _ => ?_) (fun _ => ?_)
    | ((with_reducible refine foot_portTo ?_ ?m); (case m => exact List.Subset.trans (by decide) hp))
    | with_reducible refine foot_fst (by with_reducible assumption) ?_
    | with_reducible refine foot_snd (by with_reducible assumption) ?_
    | split
    | with_reducible refine foot_foldl (fun u a hu => ?_) ?_

theorem foot_execRampTimeout {ps : List Part} {s0 s : State} {p : PortIx} (h : Foot ps s0 s) (hp : [.hbi, .line, .trace, .draw] ⊆ ps) :
    OFoot ps s0 (execRampTimeout p s) := by
  unfold execRampTimeout
  repeat' first
    | with_reducible exact h
    | with_reducible assumption
    | with_reducible refine OFoot.next ?_
    | (extract_lets +onlyGivenNames y; first
       | (have e : y = _ := rfl; clear_value y; refine (fun hy => ?_ : Foot ps s0 y → _) ?_; (clear e); (subst e))
       | subst y)
    | with_reducible refine OFoot.ite (fun _ => ?_) (fun _ => ?_)
    | with_reducible refine foot_ite (fun _ => ?_) (fun _ => ?_)
    | ((with_reducible refine foot_portTo ?_ ?m); (case m => exact List.Subset.trans (by decide) hp))
    | with_reducible refine foot_fst (by with_reducible assumption) ?_
    | with_reducible refine foot_snd (by with_reducible assumption) ?_
    | split
    | with_reducible refine foot_foldl (fun u a hu => ?_) ?_

theorem foot_execSurgeTimeout {ps : List Part} {s0 s : State} {p : PortIx} (h : Foot ps s0 s) (hp : [.hbi, .line, .trace, .draw] ⊆ ps) :
    OFoot ps s0 (execSurgeTimeout p s) := by
  unfold execSurgeTimeout
  repeat' first
    | with_reducible exact h
    | with_reducible assumption
    | with_reducible refine OFoot.next ?_
    | (extract_lets +onlyGivenNames y; first
       | (have e : y = _ := rfl; clear_value y; refine (fun hy => ?_ : Foot ps s0 y → _) ?_; (clear e); (subst e))
       | subst y)
    | with_reducible refine OFoot.ite (fun _ => ?_) (fun _ => ?_)
    | with_reducible refine foot_ite (fun _ => ?_) (fun _ => ?_)
    | ((with_reducible refine foot_portTo ?_ ?m); (case m => exact List.Subset.trans (by decide) hp))
    | with_reducible refine foot_fst (by with_reducible assumption) ?_
    | with_reducible refine foot_snd (by with_reducible assumption) ?_
    | split
    | with_reducible refine foot_foldl (fun u a hu => ?_) ?_

theorem foot_capEstimate {ps : List Part} {s0 s : State} {p : Nat} {nf : Nat} (h : Foot ps s0 s) (hp : [.hbi, .line, .trace, .draw] ⊆ ps) :
    Foot ps s0 (State.capEstimate s p nf) := by
  unfold State.capEstimate
  repeat' first
    | with_reducible exact h
    | with_reducible assumption
    | (extract_lets +onlyGivenNames y; first
       | (have e : y = _ := rfl; clear_value y; refine (fun hy => ?_ : Foot ps s0 y → _) ?_; (clear e); (subst e))
       | subst y)
    | with_reducible refine foot_ite (fun _ => ?_) (fun _ => ?_)
    | ((with_reducible refine foot_onPort ?_ ?m); (case m => exact List.Subset.trans (by decide) hp))
    | ((with_reducible refine foot_portFault ?_ ?m); (case m => exact List.Subset.trans (by decide) hp))
    | with_reducible refine foot_fst (by with_reducible assumption) ?_
    | with_reducible refine foot_snd (by with_reducible assumption) ?_
    | split
    | with_reducible refine foot_foldl (fun u a hu => ?_) ?_

theorem foot_converters {ps : List Part} {s0 s : State} {p : Nat} {m : LoopMeas} (h : Foot ps s0 s) (hp : [.hbi, .line, .trace, .draw] ⊆ ps) :
    Foot ps s0 (State.converters s p m) := by
  unfold State.converters
  repeat' first
    | with_reducible exact h
    | with_reducible assumption
    | (extract_lets +onlyGivenNames y; first
       | (have e : y = _ := rfl; clear_value y; refine (fun hy => ?_ : Foot ps s0 y → _) ?_; (clear e); (subst e))
       | subst y)
    | with_reducible refine foot_ite (fun _ => ?_) (fun _ => ?_)
    | ((with_reducible refine foot_onPort ?_ ?m); (case m => exact List.Subset.trans (by decide) hp))
    | ((with_reducible refine foot_portFault ?_ ?m); (case m => exact List.Subset.trans (by decide) hp))
    | with_reducible refine foot_fst (by with_reducible assumption) ?_
    | with_reducible refine foot_snd (by with_reducible assumption) ?_
    | split
    | with_reducible refine foot_foldl (fun u a hu => ?_) ?_

theorem foot_ladderShed {ps : List Part} {s0 s : State} {p : Nat} (h : Foot ps s0 s) (hp : [.hbi, .line, .trace, .draw] ⊆ ps) :
    Foot ps s0 (State.ladderShed s p) := by
  unfold State.ladderShed
  repeat' first
    | with_reducible exact h
    | with_reducible assumption
    | (extract_lets +onlyGivenNames y; first
       | (have e : y = _ := rfl; clear_value y; refine (fun hy => ?_ : Foot ps s0 y → _) ?_; (clear e); (subst e))
       | subst y)
    | with_reducible refine foot_ite (fun _ => ?_) (fun _ => ?_)
    | ((with_reducible refine foot_portShed ?_ ?m); (case m => exact List.Subset.trans (by decide) hp))
    | ((with_reducible refine foot_onPort ?_ ?m); (case m => exact List.Subset.trans (by decide) hp))
    | with_reducible refine foot_fst (by with_reducible assumption) ?_
    | with_reducible refine foot_snd (by with_reducible assumption) ?_
    | split
    | with_reducible refine foot_foldl (fun u a hu => ?_) ?_

theorem foot_rampStarts {ps : List Part} {s0 s : State}  (h : Foot ps s0 s) (hp : [.hbi, .line, .trace, .draw] ⊆ ps) :
    Foot ps s0 (State.rampStarts s) := by
  unfold State.rampStarts
  exact foot_foldl_fst (fun a p ha => foot_tryRamp ha hp) h

theorem foot_execBudgetShed {ps : List Part} {s0 s : State}  (h : Foot ps s0 s) (hp : [.hbi, .line, .trace, .draw] ⊆ ps) :
    OFoot ps s0 (execBudgetShed s) := by
  unfold execBudgetShed
  repeat' first
    | with_reducible exact h
    | with_reducible assumption
    | with_reducible refine OFoot.next ?_
    | (extract_lets +onlyGivenNames y; first
       | (have e : y = _ := rfl; clear_value y; refine (fun hy => ?_ : Foot ps s0 y → _) ?_; (clear e); (subst e))
       | subst y)
    | with_reducible refine OFoot.ite (fun _ => ?_) (fun _ => ?_)
    | with_reducible refine foot_ite (fun _ => ?_) (fun _ => ?_)
    | ((with_reducible refine foot_raise ?_ ?m); (case m => exact List.Subset.trans (by decide) hp))
    | ((with_reducible refine foot_onPort ?_ ?m); (case m => exact List.Subset.trans (by decide) hp))
    | ((with_reducible refine foot_portShed ?_ ?m); (case m => exact List.Subset.trans (by decide) hp))
    | ((with_reducible refine foot_onLine ?_ ?m ?k); (case k => first | exact (fun k => k) | exact (slotsOk_put _)); (case m => exact hp (by decide)))
    | with_reducible refine foot_fst (by with_reducible assumption) ?_
    | with_reducible refine foot_snd (by with_reducible assumption) ?_
    | split
    | with_reducible refine foot_foldl (fun u a hu => ?_) ?_

theorem foot_execFetFault {ps : List Part} {s0 s : State} {p : PortIx} (h : Foot ps s0 s) (hp : [.hbi, .line, .trace, .draw] ⊆ ps) :
    OFoot ps s0 (execFetFault p s) := by
  unfold execFetFault
  repeat' first
    | with_reducible exact h
    | with_reducible assumption
    | with_reducible refine OFoot.next ?_
    | (extract_lets +onlyGivenNames y; first
       | (have e : y = _ := rfl; clear_value y; refine (fun hy => ?_ : Foot ps s0 y → _) ?_; (clear e); (subst e))
       | subst y)
    | with_reducible refine OFoot.ite (fun _ => ?_) (fun _ => ?_)
    | with_reducible refine foot_ite (fun _ => ?_) (fun _ => ?_)
    | ((with_reducible refine foot_portFault ?_ ?m); (case m => exact List.Subset.trans (by decide) hp))
    | with_reducible refine foot_fst (by with_reducible assumption) ?_
    | with_reducible refine foot_snd (by with_reducible assumption) ?_
    | split
    | with_reducible refine foot_foldl (fun u a hu => ?_) ?_

theorem foot_execGateFault {ps : List Part} {s0 s : State} {p : PortIx} (h : Foot ps s0 s) (hp : [.hbi, .line, .trace, .draw] ⊆ ps) :
    OFoot ps s0 (execGateFault p s) := by
  unfold execGateFault
  repeat' first
    | with_reducible exact h
    | with_reducible assumption
    | with_reducible refine OFoot.next ?_
    | (extract_lets +onlyGivenNames y; first
       | (have e : y = _ := rfl; clear_value y; refine (fun hy => ?_ : Foot ps s0 y → _) ?_; (clear e); (subst e))
       | subst y)
    | with_reducible refine OFoot.ite (fun _ => ?_) (fun _ => ?_)
    | with_reducible refine foot_ite (fun _ => ?_) (fun _ => ?_)
    | ((with_reducible refine foot_portFault ?_ ?m); (case m => exact List.Subset.trans (by decide) hp))
    | with_reducible refine foot_fst (by with_reducible assumption) ?_
    | with_reducible refine foot_snd (by with_reducible assumption) ?_
    | split
    | with_reducible refine foot_foldl (fun u a hu => ?_) ?_

theorem foot_execSurgeOpening {ps : List Part} {s0 s : State} {p : PortIx} {at_ : SurgeAt} (h : Foot ps s0 s) (hp : [.hbi, .line, .power, .trace, .draw] ⊆ ps) :
    OFoot ps s0 (execSurgeOpening p at_ s) := by
  unfold execSurgeOpening
  repeat' first
    | with_reducible exact h
    | with_reducible assumption
    | with_reducible refine OFoot.next ?_
    | (extract_lets +onlyGivenNames y; first
       | (have e : y = _ := rfl; clear_value y; refine (fun hy => ?_ : Foot ps s0 y → _) ?_; (clear e); (subst e))
       | subst y)
    | with_reducible refine OFoot.ite (fun _ => ?_) (fun _ => ?_)
    | with_reducible refine foot_ite (fun _ => ?_) (fun _ => ?_)
    | ((with_reducible refine foot_count ?_ ?m); (case m => exact List.Subset.trans (by decide) hp))
    | ((with_reducible refine foot_onPort ?_ ?m); (case m => exact List.Subset.trans (by decide) hp))
    | ((with_reducible refine foot_portSlew ?_ ?m); (case m => exact List.Subset.trans (by decide) hp))
    | ((with_reducible refine foot_soundAbort ?_ ?m); (case m => exact List.Subset.trans (by decide) hp))
    | ((with_reducible refine foot_raise ?_ ?m); (case m => exact List.Subset.trans (by decide) hp))
    | ((with_reducible refine foot_bankWake ?_ ?m); (case m => exact List.Subset.trans (by decide) hp))
    | ((with_reducible refine foot_portFault ?_ ?m); (case m => exact List.Subset.trans (by decide) hp))
    | with_reducible refine foot_fst (by with_reducible assumption) ?_
    | with_reducible refine foot_snd (by with_reducible assumption) ?_
    | split
    | with_reducible refine foot_foldl (fun u a hu => ?_) ?_

theorem foot_rampEstimate {ps : List Part} {s0 s : State} {p : Nat} (h : Foot ps s0 s) (hp : [.hbi, .line, .trace, .draw] ⊆ ps) :
    Foot ps s0 (State.rampEstimate s p) := by
  unfold State.rampEstimate
  repeat' first
    | with_reducible exact h
    | with_reducible assumption
    | (extract_lets +onlyGivenNames y; first
       | (have e : y = _ := rfl; clear_value y; refine (fun hy => ?_ : Foot ps s0 y → _) ?_; (clear e); (subst e))
       | subst y)
    | with_reducible refine foot_ite (fun _ => ?_) (fun _ => ?_)
    | ((with_reducible refine foot_capEstimate ?_ ?m); (case m => exact List.Subset.trans (by decide) hp))
    | ((with_reducible refine foot_onPort ?_ ?m); (case m => exact List.Subset.trans (by decide) hp))
    | with_reducible refine foot_fst (by with_reducible assumption) ?_
    | with_reducible refine foot_snd (by with_reducible assumption) ?_
    | split
    | with_reducible refine foot_foldl (fun u a hu => ?_) ?_

theorem foot_execLadderEnter {ps : List Part} {s0 s : State} {i : Fin 5} {mv : Nat} (h : Foot ps s0 s) (hp : [.hbi, .line, .power, .trace, .draw] ⊆ ps) :
    OFoot ps s0 (execLadderEnter i mv s) := by
  unfold execLadderEnter
  repeat' first
    | with_reducible exact h
    | with_reducible assumption
    | with_reducible refine OFoot.next ?_
    | (extract_lets +onlyGivenNames y; first
       | (have e : y = _ := rfl; clear_value y; refine (fun hy => ?_ : Foot ps s0 y → _) ?_; (clear e); (subst e))
       | subst y)
    | with_reducible refine OFoot.ite (fun _ => ?_) (fun _ => ?_)
    | with_reducible refine foot_ite (fun _ => ?_) (fun _ => ?_)
    | ((with_reducible refine foot_raise ?_ ?m); (case m => exact List.Subset.trans (by decide) hp))
    | with_reducible refine foot_forAll (fun u a hu => ?_) ?_
    | ((with_reducible refine foot_bankWake ?_ ?m); (case m => exact List.Subset.trans (by decide) hp))
    | ((with_reducible refine foot_portSlew ?_ ?m); (case m => exact List.Subset.trans (by decide) hp))
    | ((with_reducible refine foot_ladderShed ?_ ?m); (case m => exact List.Subset.trans (by decide) hp))
    | ((with_reducible refine foot_onLine ?_ ?m ?k); (case k => first | exact (fun k => k) | exact (slotsOk_put _)); (case m => exact hp (by decide)))
    | with_reducible refine foot_fst (by with_reducible assumption) ?_
    | with_reducible refine foot_snd (by with_reducible assumption) ?_
    | split
    | with_reducible refine foot_foldl (fun u a hu => ?_) ?_

theorem foot_loopMeasure {ps : List Part} {s0 s : State} {p : Nat} {m : LoopMeas} (h : Foot ps s0 s) (hp : [.hbi, .line, .trace, .draw] ⊆ ps) :
    Foot ps s0 (State.loopMeasure s p m) := by
  unfold State.loopMeasure
  repeat' first
    | with_reducible exact h
    | with_reducible assumption
    | (extract_lets +onlyGivenNames y; first
       | (have e : y = _ := rfl; clear_value y; refine (fun hy => ?_ : Foot ps s0 y → _) ?_; (clear e); (subst e))
       | subst y)
    | with_reducible refine foot_ite (fun _ => ?_) (fun _ => ?_)
    | ((with_reducible refine foot_onPort ?_ ?m); (case m => exact List.Subset.trans (by decide) hp))
    | ((with_reducible refine foot_onWatch ?_ ?m); (case m => exact List.Subset.trans (by decide) hp))
    | ((with_reducible refine foot_converters ?_ ?m); (case m => exact List.Subset.trans (by decide) hp))
    | ((with_reducible refine foot_rampEstimate ?_ ?m); (case m => exact List.Subset.trans (by decide) hp))
    | with_reducible refine foot_fst (by with_reducible assumption) ?_
    | with_reducible refine foot_snd (by with_reducible assumption) ?_
    | split
    | with_reducible refine foot_foldl (fun u a hu => ?_) ?_

end Sys2Proof.Machine
end

