-- ==== Sys2Proof/Laws/FootLinks.lean ====
section
/-! SUPPORT. Footprints of the operations of Machine/Links.lean: the parts each may change, and that it keeps what every
step keeps. -/

namespace Sys2Proof.Machine

set_option Elab.async false

theorem foot_resend {ps : List Part} {s0 s : State} {side : Nat} {which : ForwardOut → Bool} (h : Foot ps s0 s) (hp : [.cmd, .imdal] ⊆ ps) :
    Foot ps s0 (State.resend s side which) := by
  unfold State.resend
  repeat' first
    | with_reducible exact h
    | with_reducible assumption
    | (extract_lets +onlyGivenNames y; first
       | (have e : y = _ := rfl; clear_value y; refine (fun hy => ?_ : Foot ps s0 y → _) ?_; (clear e); (subst e))
       | subst y)
    | with_reducible refine foot_ite (fun _ => ?_) (fun _ => ?_)
    | ((with_reducible refine foot_onImdal ?_ ?m); (case m => exact hp (by decide)))
    | ((with_reducible refine foot_onCmd ?_ ?m ?k); (case k => first | exact (fun k => k) | exact (fun _ => List.length_take_le ..)); (case m => exact hp (by decide)))
    | with_reducible refine foot_fst (by with_reducible assumption) ?_
    | with_reducible refine foot_snd (by with_reducible assumption) ?_
    | split
    | with_reducible refine foot_foldl (fun u a hu => ?_) ?_

theorem foot_sendAnswers {ps : List Part} {s0 s : State}  (h : Foot ps s0 s) (hp : [.cmd, .imdal] ⊆ ps) :
    Foot ps s0 (State.sendAnswers s) := by
  unfold State.sendAnswers
  repeat' first
    | with_reducible exact h
    | with_reducible assumption
    | (extract_lets +onlyGivenNames y; first
       | (have e : y = _ := rfl; clear_value y; refine (fun hy => ?_ : Foot ps s0 y → _) ?_; (clear e); (subst e))
       | subst y)
    | with_reducible refine foot_ite (fun _ => ?_) (fun _ => ?_)
    | ((with_reducible refine foot_onImdal ?_ ?m); (case m => exact hp (by decide)))
    | ((with_reducible refine foot_onCmd ?_ ?m ?k); (case k => first | exact (fun k => k) | exact (fun _ => List.length_take_le ..)); (case m => exact hp (by decide)))
    | with_reducible refine foot_fst (by with_reducible assumption) ?_
    | with_reducible refine foot_snd (by with_reducible assumption) ?_
    | split
    | with_reducible refine foot_foldl (fun u a hu => ?_) ?_

theorem foot_sendBoth {ps : List Part} {s0 s : State} {msg : ImMsg} (h : Foot ps s0 s) (hp : [.imdal] ⊆ ps) :
    Foot ps s0 (State.sendBoth s msg) := by
  unfold State.sendBoth
  repeat' first
    | with_reducible exact h
    | with_reducible assumption
    | (extract_lets +onlyGivenNames y; first
       | (have e : y = _ := rfl; clear_value y; refine (fun hy => ?_ : Foot ps s0 y → _) ?_; (clear e); (subst e))
       | subst y)
    | with_reducible refine foot_ite (fun _ => ?_) (fun _ => ?_)
    | ((with_reducible refine foot_onImdal ?_ ?m); (case m => exact hp (by decide)))
    | with_reducible refine foot_fst (by with_reducible assumption) ?_
    | with_reducible refine foot_snd (by with_reducible assumption) ?_
    | split
    | with_reducible refine foot_foldl (fun u a hu => ?_) ?_

theorem foot_sendBy {ps : List Part} {s0 s : State} {side : Nat} {msg : ImMsg} (h : Foot ps s0 s) (hp : [.imdal] ⊆ ps) :
    Foot ps s0 (State.sendBy s side msg) := by
  unfold State.sendBy
  repeat' first
    | with_reducible exact h
    | with_reducible assumption
    | (extract_lets +onlyGivenNames y; first
       | (have e : y = _ := rfl; clear_value y; refine (fun hy => ?_ : Foot ps s0 y → _) ?_; (clear e); (subst e))
       | subst y)
    | with_reducible refine foot_ite (fun _ => ?_) (fun _ => ?_)
    | ((with_reducible refine foot_onImdal ?_ ?m); (case m => exact hp (by decide)))
    | with_reducible refine foot_fst (by with_reducible assumption) ?_
    | with_reducible refine foot_snd (by with_reducible assumption) ?_
    | split
    | with_reducible refine foot_foldl (fun u a hu => ?_) ?_

theorem foot_passPoint {ps : List Part} {s0 s : State} {side : SideIx} {pidx : Word} {k : Nat} (h : Foot ps s0 s) (hp : [.imdal] ⊆ ps) :
    Foot ps s0 (State.passPoint s side pidx k) := by
  unfold State.passPoint
  repeat' first
    | with_reducible exact h
    | with_reducible assumption
    | (extract_lets +onlyGivenNames y; first
       | (have e : y = _ := rfl; clear_value y; refine (fun hy => ?_ : Foot ps s0 y → _) ?_; (clear e); (subst e))
       | subst y)
    | with_reducible refine foot_ite (fun _ => ?_) (fun _ => ?_)
    | ((with_reducible refine foot_sendBy ?_ ?m); (case m => exact List.Subset.trans (by decide) hp))
    | with_reducible refine foot_fst (by with_reducible assumption) ?_
    | with_reducible refine foot_snd (by with_reducible assumption) ?_
    | split
    | with_reducible refine foot_foldl (fun u a hu => ?_) ?_

end Sys2Proof.Machine
end

