-- ==== Sys2Proof/Laws/FootDap.lean ====
section
/-! SUPPORT. Footprints of the operations of Machine/Dap.lean: the parts each may change, and that it keeps what every
step keeps. -/

namespace Sys2Proof.Machine

set_option Elab.async false

theorem foot_dapOut {ps : List Part} {s0 s : State} {p : Nat} (h : Foot ps s0 s) (hp : [.dap] ⊆ ps) :
    Foot ps s0 (State.dapOut s p) := by
  unfold State.dapOut
  repeat' first
    | with_reducible exact h
    | with_reducible assumption
    | (extract_lets +onlyGivenNames y; first
       | (have e : y = _ := rfl; clear_value y; refine (fun hy => ?_ : Foot ps s0 y → _) ?_; (clear e); (subst e))
       | subst y)
    | with_reducible refine foot_ite (fun _ => ?_) (fun _ => ?_)
    | ((with_reducible refine foot_onDapP ?_ ?m); (case m => exact List.Subset.trans (by decide) hp))
    | with_reducible refine foot_fst (by with_reducible assumption) ?_
    | with_reducible refine foot_snd (by with_reducible assumption) ?_
    | split
    | with_reducible refine foot_foldl (fun u a hu => ?_) ?_

theorem foot_dapRegWrite {ps : List Part} {s0 s : State} {off : Nat} {v : Word} (h : Foot ps s0 s) (hp : [.dap] ⊆ ps) :
    ∀ u, State.dapRegWrite s off v = some u → Foot ps s0 u := by
  unfold State.dapRegWrite
  repeat' first
    | with_reducible exact h
    | with_reducible assumption
    | with_reducible exact oFoot_none
    | with_reducible refine oFoot_some ?_
    | (extract_lets +onlyGivenNames y; first
       | (have e : y = _ := rfl; clear_value y; refine (fun hy => ?_ : Foot ps s0 y → _) ?_; (clear e); (subst e))
       | subst y)
    | with_reducible refine foot_ite (fun _ => ?_) (fun _ => ?_)
    | ((with_reducible refine foot_onDapP ?_ ?m); (case m => exact List.Subset.trans (by decide) hp))
    | with_reducible refine foot_fst (by with_reducible assumption) ?_
    | with_reducible refine foot_snd (by with_reducible assumption) ?_
    | split
    | with_reducible refine foot_foldl (fun u a hu => ?_) ?_

theorem foot_disarm {ps : List Part} {s0 s : State}  (h : Foot ps s0 s) (hp : [.time, .cmd, .dap] ⊆ ps) :
    Foot ps s0 (State.disarm s) := by
  unfold State.disarm
  repeat' first
    | with_reducible exact h
    | with_reducible assumption
    | (extract_lets +onlyGivenNames y; first
       | (have e : y = _ := rfl; clear_value y; refine (fun hy => ?_ : Foot ps s0 y → _) ?_; (clear e); (subst e))
       | subst y)
    | with_reducible refine foot_ite (fun _ => ?_) (fun _ => ?_)
    | with_reducible refine foot_forAll (fun u a hu => ?_) ?_
    | ((with_reducible refine foot_onDapP ?_ ?m); (case m => exact List.Subset.trans (by decide) hp))
    | ((with_reducible refine foot_onTime ?_ ?m ?k); (case k => first | exact (fun k => k) | exact (Time.ok_ticksOn _) | exact (fun k => Time.ok_endSlew k.2.2.1 k) | exact (fun k => Time.ok_endSlew k.2.2.2.1 k) | exact (fun k => ⟨k.1, k.2.1, k.2.2.1, k.2.2.2.1, k.2.2.2.2.1, fun _ hx => nomatch hx, Nat.zero_le _⟩) | exact Time.ok_hoPush); (case m => exact hp (by decide)))
    | ((with_reducible refine foot_onCmd ?_ ?m ?k); (case k => first | exact (fun k => k) | exact (fun _ => List.length_take_le ..)); (case m => exact hp (by decide)))
    | with_reducible refine foot_fst (by with_reducible assumption) ?_
    | with_reducible refine foot_snd (by with_reducible assumption) ?_
    | split
    | with_reducible refine foot_foldl (fun u a hu => ?_) ?_

theorem foot_execDapResume {ps : List Part} {s0 s : State} {p : DapIx} (h : Foot ps s0 s) (hp : [.dap] ⊆ ps) :
    OFoot ps s0 (execDapResume p s) := by
  unfold execDapResume
  repeat' first
    | with_reducible exact h
    | with_reducible assumption
    | with_reducible refine OFoot.next ?_
    | (extract_lets +onlyGivenNames y; first
       | (have e : y = _ := rfl; clear_value y; refine (fun hy => ?_ : Foot ps s0 y → _) ?_; (clear e); (subst e))
       | subst y)
    | with_reducible refine OFoot.ite (fun _ => ?_) (fun _ => ?_)
    | with_reducible refine foot_ite (fun _ => ?_) (fun _ => ?_)
    | ((with_reducible refine foot_onDapP ?_ ?m); (case m => exact List.Subset.trans (by decide) hp))
    | with_reducible refine foot_fst (by with_reducible assumption) ?_
    | with_reducible refine foot_snd (by with_reducible assumption) ?_
    | split
    | with_reducible refine foot_foldl (fun u a hu => ?_) ?_

theorem foot_execSlip {ps : List Part} {s0 s : State} {p : DapIx} {kind : SlipKind} (h : Foot ps s0 s) (hp : [.dap] ⊆ ps) :
    OFoot ps s0 (execSlip p kind s) := by
  unfold execSlip
  repeat' first
    | with_reducible exact h
    | with_reducible assumption
    | with_reducible refine OFoot.next ?_
    | (extract_lets +onlyGivenNames y; first
       | (have e : y = _ := rfl; clear_value y; refine (fun hy => ?_ : Foot ps s0 y → _) ?_; (clear e); (subst e))
       | subst y)
    | with_reducible refine OFoot.ite (fun _ => ?_) (fun _ => ?_)
    | with_reducible refine foot_ite (fun _ => ?_) (fun _ => ?_)
    | ((with_reducible refine foot_onDapP ?_ ?m); (case m => exact List.Subset.trans (by decide) hp))
    | with_reducible refine foot_fst (by with_reducible assumption) ?_
    | with_reducible refine foot_snd (by with_reducible assumption) ?_
    | split
    | with_reducible refine foot_foldl (fun u a hu => ?_) ?_

theorem foot_execZcTimeout {ps : List Part} {s0 s : State} {p : DapIx} {ch : Fin 2} {out : Bool} (h : Foot ps s0 s) (hp : [.dap] ⊆ ps) :
    OFoot ps s0 (execZcTimeout p ch out s) := by
  unfold execZcTimeout
  repeat' first
    | with_reducible exact h
    | with_reducible assumption
    | with_reducible refine OFoot.next ?_
    | (extract_lets +onlyGivenNames y; first
       | (have e : y = _ := rfl; clear_value y; refine (fun hy => ?_ : Foot ps s0 y → _) ?_; (clear e); (subst e))
       | subst y)
    | with_reducible refine OFoot.ite (fun _ => ?_) (fun _ => ?_)
    | with_reducible refine foot_ite (fun _ => ?_) (fun _ => ?_)
    | ((with_reducible refine foot_onDapP ?_ ?m); (case m => exact List.Subset.trans (by decide) hp))
    | with_reducible refine foot_fst (by with_reducible assumption) ?_
    | with_reducible refine foot_snd (by with_reducible assumption) ?_
    | split
    | with_reducible refine foot_foldl (fun u a hu => ?_) ?_

theorem foot_execZeroCrossingSwitch {ps : List Part} {s0 s : State} {p : DapIx} {ch : Fin 2} {out : Bool} (h : Foot ps s0 s) (hp : [.dap] ⊆ ps) :
    OFoot ps s0 (execZeroCrossingSwitch p ch out s) := by
  unfold execZeroCrossingSwitch
  repeat' first
    | with_reducible exact h
    | with_reducible assumption
    | with_reducible refine OFoot.next ?_
    | (extract_lets +onlyGivenNames y; first
       | (have e : y = _ := rfl; clear_value y; refine (fun hy => ?_ : Foot ps s0 y → _) ?_; (clear e); (subst e))
       | subst y)
    | with_reducible refine OFoot.ite (fun _ => ?_) (fun _ => ?_)
    | with_reducible refine foot_ite (fun _ => ?_) (fun _ => ?_)
    | ((with_reducible refine foot_onDapP ?_ ?m); (case m => exact List.Subset.trans (by decide) hp))
    | with_reducible refine foot_fst (by with_reducible assumption) ?_
    | with_reducible refine foot_snd (by with_reducible assumption) ?_
    | split
    | with_reducible refine foot_foldl (fun u a hu => ?_) ?_

theorem foot_dapEvent {ps : List Part} {s0 s : State} {p : Nat} (h : Foot ps s0 s) (hp : [.hbi, .dap, .trace] ⊆ ps) :
    Foot ps s0 (State.dapEvent s p) := by
  unfold State.dapEvent
  repeat' first
    | with_reducible exact h
    | with_reducible assumption
    | (extract_lets +onlyGivenNames y; first
       | (have e : y = _ := rfl; clear_value y; refine (fun hy => ?_ : Foot ps s0 y → _) ?_; (clear e); (subst e))
       | subst y)
    | with_reducible refine foot_ite (fun _ => ?_) (fun _ => ?_)
    | ((with_reducible refine foot_raise ?_ ?m); (case m => exact List.Subset.trans (by decide) hp))
    | ((with_reducible refine foot_count ?_ ?m); (case m => exact List.Subset.trans (by decide) hp))
    | ((with_reducible refine foot_onDapP ?_ ?m); (case m => exact List.Subset.trans (by decide) hp))
    | with_reducible refine foot_fst (by with_reducible assumption) ?_
    | with_reducible refine foot_snd (by with_reducible assumption) ?_
    | split
    | with_reducible refine foot_foldl (fun u a hu => ?_) ?_

theorem foot_capture {ps : List Part} {s0 s : State} {p : Nat} (h : Foot ps s0 s) (hp : [.hbi, .dap, .mem, .trace] ⊆ ps) :
    Foot ps s0 (State.capture s p) := by
  unfold State.capture
  repeat' first
    | with_reducible exact h
    | with_reducible assumption
    | (extract_lets +onlyGivenNames y; first
       | (have e : y = _ := rfl; clear_value y; refine (fun hy => ?_ : Foot ps s0 y → _) ?_; (clear e); (subst e))
       | subst y)
    | with_reducible refine foot_ite (fun _ => ?_) (fun _ => ?_)
    | ((with_reducible refine foot_onDapP ?_ ?m); (case m => exact List.Subset.trans (by decide) hp))
    | ((with_reducible refine foot_dapEvent ?_ ?m); (case m => exact List.Subset.trans (by decide) hp))
    | ((with_reducible refine foot_onMem ?_ ?m ?k); (case k => first | exact (fun k => k) | exact (Memory.ok_foldl (fun _ _ h => Memory.ok_putPantry h)) | exact Memory.ok_putSram | exact Memory.ok_putPantry | exact BlockAt.ok_put | exact (fun k => ⟨Memory.putBytes_wf k.1, k.2⟩) | exact (fun k => ⟨k.1, Memory.putBytes_wf k.2.1, k.2.2⟩) | exact (fun k => ⟨Memory.writeBytes_wf k.1, k.2⟩) | exact (fun k => ⟨k.1, Memory.writeBytes_wf k.2.1, k.2.2⟩) | exact (fun k => ⟨Memory.writeWord_wf k.1, k.2⟩) | exact (fun k => ⟨k.1, Memory.writeWord_wf k.2.1, k.2.2⟩) | exact (fun k => ⟨Memory.clear_wf k.1, k.2⟩) | exact (fun k => ⟨k.1, k.2.1, slotsOk_put _ k.2.2⟩) | exact (fun k => ⟨k.1, Memory.foldl_wf (fun _ _ h => Memory.writeBytes_wf h) k.2.1, k.2.2⟩)); (case m => exact hp (by decide)))
    | with_reducible refine foot_fst (by with_reducible assumption) ?_
    | with_reducible refine foot_snd (by with_reducible assumption) ?_
    | split
    | with_reducible refine foot_foldl (fun u a hu => ?_) ?_

theorem foot_dapOpen {ps : List Part} {s0 s : State} {p : Nat} (h : Foot ps s0 s) (hp : [.hbi, .dap, .trace] ⊆ ps) :
    Foot ps s0 (State.dapOpen s p) := by
  unfold State.dapOpen
  repeat' first
    | with_reducible exact h
    | with_reducible assumption
    | (extract_lets +onlyGivenNames y; first
       | (have e : y = _ := rfl; clear_value y; refine (fun hy => ?_ : Foot ps s0 y → _) ?_; (clear e); (subst e))
       | subst y)
    | with_reducible refine foot_ite (fun _ => ?_) (fun _ => ?_)
    | ((with_reducible refine foot_dapEvent ?_ ?m); (case m => exact List.Subset.trans (by decide) hp))
    | ((with_reducible refine foot_onDapP ?_ ?m); (case m => exact List.Subset.trans (by decide) hp))
    | ((with_reducible refine foot_dapOut ?_ ?m); (case m => exact List.Subset.trans (by decide) hp))
    | with_reducible refine foot_fst (by with_reducible assumption) ?_
    | with_reducible refine foot_snd (by with_reducible assumption) ?_
    | split
    | with_reducible refine foot_foldl (fun u a hu => ?_) ?_

theorem foot_dapRate {ps : List Part} {s0 s : State} {p : Nat} {hz : Nat} (h : Foot ps s0 s) (hp : [.hbi, .dap, .trace] ⊆ ps) :
    Foot ps s0 (State.dapRate s p hz) := by
  unfold State.dapRate
  repeat' first
    | with_reducible exact h
    | with_reducible assumption
    | (extract_lets +onlyGivenNames y; first
       | (have e : y = _ := rfl; clear_value y; refine (fun hy => ?_ : Foot ps s0 y → _) ?_; (clear e); (subst e))
       | subst y)
    | with_reducible refine foot_ite (fun _ => ?_) (fun _ => ?_)
    | ((with_reducible refine foot_onDapP ?_ ?m); (case m => exact List.Subset.trans (by decide) hp))
    | ((with_reducible refine foot_dapEvent ?_ ?m); (case m => exact List.Subset.trans (by decide) hp))
    | with_reducible refine foot_fst (by with_reducible assumption) ?_
    | with_reducible refine foot_snd (by with_reducible assumption) ?_
    | split
    | with_reducible refine foot_foldl (fun u a hu => ?_) ?_

theorem foot_execChannelStatusBlock {ps : List Part} {s0 s : State} {p : DapIx} {block : List Byte} {_crccOk : Bool} (h : Foot ps s0 s) (hp : [.hbi, .dap, .trace] ⊆ ps) :
    OFoot ps s0 (execChannelStatusBlock p block _crccOk s) := by
  unfold execChannelStatusBlock
  repeat' first
    | with_reducible exact h
    | with_reducible assumption
    | with_reducible refine OFoot.next ?_
    | (extract_lets +onlyGivenNames y; first
       | (have e : y = _ := rfl; clear_value y; refine (fun hy => ?_ : Foot ps s0 y → _) ?_; (clear e); (subst e))
       | subst y)
    | with_reducible refine OFoot.ite (fun _ => ?_) (fun _ => ?_)
    | with_reducible refine foot_ite (fun _ => ?_) (fun _ => ?_)
    | ((with_reducible refine foot_onDapP ?_ ?m); (case m => exact List.Subset.trans (by decide) hp))
    | ((with_reducible refine foot_dapEvent ?_ ?m); (case m => exact List.Subset.trans (by decide) hp))
    | with_reducible refine foot_fst (by with_reducible assumption) ?_
    | with_reducible refine foot_snd (by with_reducible assumption) ?_
    | split
    | with_reducible refine foot_foldl (fun u a hu => ?_) ?_

theorem foot_execDapInputLoss {ps : List Part} {s0 s : State} {p : DapIx} {why : DapLoss} (h : Foot ps s0 s) (hp : [.hbi, .dap, .trace] ⊆ ps) :
    OFoot ps s0 (execDapInputLoss p why s) := by
  unfold execDapInputLoss
  repeat' first
    | with_reducible exact h
    | with_reducible assumption
    | with_reducible refine OFoot.next ?_
    | (extract_lets +onlyGivenNames y; first
       | (have e : y = _ := rfl; clear_value y; refine (fun hy => ?_ : Foot ps s0 y → _) ?_; (clear e); (subst e))
       | subst y)
    | with_reducible refine OFoot.ite (fun _ => ?_) (fun _ => ?_)
    | with_reducible refine foot_ite (fun _ => ?_) (fun _ => ?_)
    | ((with_reducible refine foot_dapEvent ?_ ?m); (case m => exact List.Subset.trans (by decide) hp))
    | ((with_reducible refine foot_onDapP ?_ ?m); (case m => exact List.Subset.trans (by decide) hp))
    | with_reducible refine foot_fst (by with_reducible assumption) ?_
    | with_reducible refine foot_snd (by with_reducible assumption) ?_
    | split
    | with_reducible refine foot_foldl (fun u a hu => ?_) ?_

theorem foot_execDapInputQualified {ps : List Part} {s0 s : State} {p : DapIx} {hz : Nat} {cls : RateClass} (h : Foot ps s0 s) (hp : [.hbi, .dap, .trace] ⊆ ps) :
    OFoot ps s0 (execDapInputQualified p hz cls s) := by
  unfold execDapInputQualified
  repeat' first
    | with_reducible exact h
    | with_reducible assumption
    | with_reducible refine OFoot.next ?_
    | (extract_lets +onlyGivenNames y; first
       | (have e : y = _ := rfl; clear_value y; refine (fun hy => ?_ : Foot ps s0 y → _) ?_; (clear e); (subst e))
       | subst y)
    | with_reducible refine OFoot.ite (fun _ => ?_) (fun _ => ?_)
    | with_reducible refine foot_ite (fun _ => ?_) (fun _ => ?_)
    | ((with_reducible refine foot_dapEvent ?_ ?m); (case m => exact List.Subset.trans (by decide) hp))
    | ((with_reducible refine foot_onDapP ?_ ?m); (case m => exact List.Subset.trans (by decide) hp))
    | with_reducible refine foot_fst (by with_reducible assumption) ?_
    | with_reducible refine foot_snd (by with_reducible assumption) ?_
    | split
    | with_reducible refine foot_foldl (fun u a hu => ?_) ?_

theorem foot_dapPeriod {ps : List Part} {s0 s : State} {p : Nat} {m : PeriodInput} {audio : Nat → List Int} (h : Foot ps s0 s) (hp : [.hbi, .dap, .mem, .trace] ⊆ ps) :
    Foot ps s0 (State.dapPeriod s p m audio) := by
  unfold State.dapPeriod
  repeat' first
    | with_reducible exact h
    | with_reducible assumption
    | (extract_lets +onlyGivenNames y; first
       | (have e : y = _ := rfl; clear_value y; refine (fun hy => ?_ : Foot ps s0 y → _) ?_; (clear e); (subst e))
       | subst y)
    | with_reducible refine foot_ite (fun _ => ?_) (fun _ => ?_)
    | ((with_reducible refine foot_onDapP ?_ ?m); (case m => exact List.Subset.trans (by decide) hp))
    | ((with_reducible refine foot_capture ?_ ?m); (case m => exact List.Subset.trans (by decide) hp))
    | with_reducible refine foot_fst (by with_reducible assumption) ?_
    | with_reducible refine foot_snd (by with_reducible assumption) ?_
    | split
    | with_reducible refine foot_foldl (fun u a hu => ?_) ?_

theorem foot_playback {ps : List Part} {s0 s : State} {p : Nat} {k : Nat} (h : Foot ps s0 s) (hp : [.hbi, .dap, .mem, .trace] ⊆ ps) :
    Foot ps s0 (State.playback s p k) := by
  unfold State.playback
  repeat' first
    | with_reducible exact h
    | with_reducible assumption
    | (extract_lets +onlyGivenNames y; first
       | (have e : y = _ := rfl; clear_value y; refine (fun hy => ?_ : Foot ps s0 y → _) ?_; (clear e); (subst e))
       | subst y)
    | with_reducible refine foot_ite (fun _ => ?_) (fun _ => ?_)
    | ((with_reducible refine foot_onDapP ?_ ?m); (case m => exact List.Subset.trans (by decide) hp))
    | with_reducible refine foot_forAll (fun u a hu => ?_) ?_
    | ((with_reducible refine foot_hostWordBad ?_ ?m); (case m => exact List.Subset.trans (by decide) hp))
    | ((with_reducible refine foot_dapEvent ?_ ?m); (case m => exact List.Subset.trans (by decide) hp))
    | with_reducible refine foot_fst (by with_reducible assumption) ?_
    | with_reducible refine foot_snd (by with_reducible assumption) ?_
    | split
    | with_reducible refine foot_foldl (fun u a hu => ?_) ?_

theorem foot_applyDap {ps : List Part} {s0 s : State} {c : Change} (h : Foot ps s0 s) (hp : [.time, .hbi, .cmd, .dap, .mem, .trace] ⊆ ps) :
    Foot ps s0 (State.applyDap s c) := by
  unfold State.applyDap
  repeat' first
    | with_reducible exact h
    | with_reducible assumption
    | (extract_lets +onlyGivenNames y; first
       | (have e : y = _ := rfl; clear_value y; refine (fun hy => ?_ : Foot ps s0 y → _) ?_; (clear e); (subst e))
       | subst y)
    | with_reducible refine foot_ite (fun _ => ?_) (fun _ => ?_)
    | ((with_reducible refine foot_onDapP ?_ ?m); (case m => exact List.Subset.trans (by decide) hp))
    | ((with_reducible refine foot_disarm ?_ ?m); (case m => exact List.Subset.trans (by decide) hp))
    | with_reducible refine foot_forAll (fun u a hu => ?_) ?_
    | ((with_reducible refine foot_playback ?_ ?m); (case m => exact List.Subset.trans (by decide) hp))
    | ((with_reducible refine foot_onCmd ?_ ?m ?k); (case k => first | exact (fun k => k) | exact (fun _ => List.length_take_le ..)); (case m => exact hp (by decide)))
    | with_reducible refine foot_fst (by with_reducible assumption) ?_
    | with_reducible refine foot_snd (by with_reducible assumption) ?_
    | split
    | with_reducible refine foot_foldl (fun u a hu => ?_) ?_

theorem foot_dapBoundary {ps : List Part} {s0 s : State} {p : Nat} {m : PeriodInput} {audio : Nat → List Int} (h : Foot ps s0 s) (hp : [.hbi, .dap, .mem, .trace] ⊆ ps) :
    Foot ps s0 (State.dapBoundary s p m audio) := by
  unfold State.dapBoundary
  repeat' first
    | with_reducible exact h
    | with_reducible assumption
    | (extract_lets +onlyGivenNames y; first
       | (have e : y = _ := rfl; clear_value y; refine (fun hy => ?_ : Foot ps s0 y → _) ?_; (clear e); (subst e))
       | subst y)
    | with_reducible refine foot_ite (fun _ => ?_) (fun _ => ?_)
    | ((with_reducible refine foot_onDapP ?_ ?m); (case m => exact List.Subset.trans (by decide) hp))
    | ((with_reducible refine foot_dapPeriod ?_ ?m); (case m => exact List.Subset.trans (by decide) hp))
    | ((with_reducible refine foot_dapRate ?_ ?m); (case m => exact List.Subset.trans (by decide) hp))
    | with_reducible refine foot_fst (by with_reducible assumption) ?_
    | with_reducible refine foot_snd (by with_reducible assumption) ?_
    | split
    | with_reducible refine foot_foldl (fun u a hu => ?_) ?_

theorem foot_dapSetChecked {ps : List Part} {s0 s : State} {x : Ctx} {t : State} (h : Foot ps s0 s) (hp : [.hbi, .mem, .trace] ⊆ ps) :
    VFoot ps s0 (dapSetChecked x s t) := by
  unfold dapSetChecked
  repeat' first
    | with_reducible exact h
    | with_reducible assumption
    | with_reducible exact VFoot.reject _
    | with_reducible exact VFoot.wait _
    | with_reducible refine VFoot.config ?_
    | with_reducible refine VFoot.done ?_
    | with_reducible refine VFoot.later ?_
    | (extract_lets +onlyGivenNames y; first
       | (have e : y = _ := rfl; clear_value y; refine (fun hy => ?_ : Foot ps s0 y → _) ?_; (clear e); (subst e))
       | subst y)
    | with_reducible refine VFoot.ite (fun _ => ?_) (fun _ => ?_)
    | with_reducible refine foot_ite (fun _ => ?_) (fun _ => ?_)
    | ((with_reducible refine foot_blockMet ?_ ?m); (case m => exact List.Subset.trans (by decide) hp))
    | with_reducible refine foot_fst (by with_reducible assumption) ?_
    | with_reducible refine foot_snd (by with_reducible assumption) ?_
    | split
    | with_reducible refine foot_foldl (fun u a hu => ?_) ?_

theorem foot_dapStartChecked {ps : List Part} {s0 s : State} {x : Ctx} {tAt : Nat → State} (h : Foot ps s0 s) (hp : [.time, .hbi, .cmd, .imdal, .power, .trace] ⊆ ps) :
    VFoot ps s0 (dapStartChecked x s tAt) := by
  unfold dapStartChecked
  repeat' first
    | with_reducible exact h
    | with_reducible assumption
    | with_reducible exact VFoot.reject _
    | with_reducible exact VFoot.wait _
    | with_reducible refine VFoot.config ?_
    | with_reducible refine VFoot.done ?_
    | with_reducible refine VFoot.later ?_
    | (extract_lets +onlyGivenNames y; first
       | (have e : y = _ := rfl; clear_value y; refine (fun hy => ?_ : Foot ps s0 y → _) ?_; (clear e); (subst e))
       | subst y)
    | with_reducible refine VFoot.ite (fun _ => ?_) (fun _ => ?_)
    | with_reducible refine foot_ite (fun _ => ?_) (fun _ => ?_)
    | ((with_reducible refine foot_armVotes ?_ ?m); (case m => exact List.Subset.trans (by decide) hp))
    | ((with_reducible refine foot_onCmd ?_ ?m ?k); (case k => first | exact (fun k => k) | exact (fun _ => List.length_take_le ..)); (case m => exact hp (by decide)))
    | ((with_reducible refine foot_onTime ?_ ?m ?k); (case k => first | exact (fun k => k) | exact (Time.ok_ticksOn _) | exact (fun k => Time.ok_endSlew k.2.2.1 k) | exact (fun k => Time.ok_endSlew k.2.2.2.1 k) | exact (fun k => ⟨k.1, k.2.1, k.2.2.1, k.2.2.2.1, k.2.2.2.2.1, fun _ hx => nomatch hx, Nat.zero_le _⟩) | exact Time.ok_hoPush); (case m => exact hp (by decide)))
    | ((with_reducible refine foot_onImdal ?_ ?m); (case m => exact hp (by decide)))
    | with_reducible refine foot_fst (by with_reducible assumption) ?_
    | with_reducible refine foot_snd (by with_reducible assumption) ?_
    | split
    | with_reducible refine foot_foldl (fun u a hu => ?_) ?_

end Sys2Proof.Machine
end

