-- ==== Sys2Proof/Laws/FootFrames.lean ====
section
/-! SUPPORT. Footprints of the operations of Machine/Frames.lean: the parts each may change, and that it keeps what every
step keeps. -/

namespace Sys2Proof.Machine

set_option Elab.async false

theorem foot_police {ps : List Part} {s0 s : State} {port : Nat} {n : Nat} {f : Parsed} {bs : List Byte} (h : Foot ps s0 s) (hp : [.net, .media] ⊆ ps) :
    Foot ps s0 (State.police s port n f bs).1 := by
  unfold State.police
  repeat' first
    | with_reducible exact h
    | with_reducible assumption
    | (extract_lets +onlyGivenNames y; first
       | (have e : y = _ := rfl; clear_value y; refine (fun hy => ?_ : Foot ps s0 y → _) ?_; (clear e); (subst e))
       | subst y)
    | with_reducible refine foot_ite (fun _ => ?_) (fun _ => ?_)
    | ((with_reducible refine foot_netCount ?_ ?m); (case m => exact List.Subset.trans (by decide) hp))
    | ((with_reducible refine foot_onMedia ?_ ?m); (case m => exact hp (by decide)))
    | with_reducible refine foot_fst (by with_reducible assumption) ?_
    | with_reducible refine foot_snd (by with_reducible assumption) ?_
    | split
    | with_reducible refine foot_foldl (fun u a hu => ?_) ?_

end Sys2Proof.Machine
end

