-- ==== Sys2Proof/Laws/FootNetRx.lean ====
section
/-! SUPPORT. Footprints of the operations of Machine/NetRx.lean: the parts each may change, and that it keeps what every
step keeps. -/

namespace Sys2Proof.Machine

set_option Elab.async false

theorem foot_stamp {ps : List Part} {s0 s : State} {r : Option NetRate} (h : Foot ps s0 s) (hp : [.draw] ⊆ ps) :
    Foot ps s0 (State.stamp s r).2 := by
  unfold State.stamp
  repeat' first
    | with_reducible exact h
    | with_reducible assumption
    | (extract_lets +onlyGivenNames y; first
       | (have e : y = _ := rfl; clear_value y; refine (fun hy => ?_ : Foot ps s0 y → _) ?_; (clear e); (subst e))
       | subst y)
    | with_reducible refine foot_ite (fun _ => ?_) (fun _ => ?_)
    | ((with_reducible refine foot_stampIn ?_ ?m); (case m => exact List.Subset.trans (by decide) hp))
    | with_reducible refine foot_fst (by with_reducible assumption) ?_
    | with_reducible refine foot_snd (by with_reducible assumption) ?_
    | split
    | with_reducible refine foot_foldl (fun u a hu => ?_) ?_

theorem foot_toMedia {ps : List Part} {s0 s : State} {p : Nat} {n : Nat} {k : Nat} {arrival : Nat} {l3bad : Bool} {pl : List Byte} (h : Foot ps s0 s) (hp : [.net, .media] ⊆ ps) :
    Foot ps s0 (State.toMedia s p n k arrival l3bad pl) := by
  unfold State.toMedia
  repeat' first
    | with_reducible exact h
    | with_reducible assumption
    | (extract_lets +onlyGivenNames y; first
       | (have e : y = _ := rfl; clear_value y; refine (fun hy => ?_ : Foot ps s0 y → _) ?_; (clear e); (subst e))
       | subst y)
    | with_reducible refine foot_ite (fun _ => ?_) (fun _ => ?_)
    | ((with_reducible refine foot_netCount ?_ ?m); (case m => exact List.Subset.trans (by decide) hp))
    | ((with_reducible refine foot_onRxS ?_ ?m); (case m => exact List.Subset.trans (by decide) hp))
    | with_reducible refine foot_fst (by with_reducible assumption) ?_
    | with_reducible refine foot_snd (by with_reducible assumption) ?_
    | split
    | with_reducible refine foot_foldl (fun u a hu => ?_) ?_

theorem rxFill_ok {r : NetRing} {n c : Nat} {bs : List Byte} {m : Memory} {acc : List (Option Nat)} (h : m.Ok) :
    (rxFill r n c bs m acc).1.Ok := by
  induction n generalizing c bs m acc with
  | zero => exact h
  | succ n ih =>
    unfold rxFill
    split
    · exact h
    · dsimp only
      split
      · exact ih h
      · exact ih (Memory.ok_putPantry h)

theorem rxBack_ok {r : NetRing} {head : Nat} {ws : List (Word × Word × Word)} {m : Memory} (h : m.Ok) : (rxBack r head ws m).Ok :=
  Memory.ok_foldl (fun _ _ h => Memory.ok_putPantry h) h

theorem foot_toRing {ps : List Part} {s0 s : State} {p : Nat} {k : Nat} {n : Nat} {flags : Nat} {ts : Nat} {bs : List Byte} {bad : Option Nat} (h : Foot ps s0 s) (hp : [.hbi, .net, .mem] ⊆ ps) :
    Foot ps s0 (State.toRing s p k n flags ts bs bad) := by
  unfold State.toRing
  extract_lets +onlyGivenNames r head free
  refine foot_ite (fun _ => ?_) (fun _ => ?_)
  · exact foot_netCount h (List.Subset.trans (by decide) hp)
  extract_lets +onlyGivenNames w errs full ws s2 s3 s4
  have h2 : Foot ps s0 s2 := by
    refine foot_onMem_of h (hp (by decide)) fun k => ?_
    exact rxBack_ok (rxFill_ok (h.2 k).2.2.1)
  clear_value s2
  have h3 : Foot ps s0 s3 := foot_netCount h2 (List.Subset.trans (by decide) hp)
  clear_value s3
  have h4 : Foot ps s0 s4 := foot_onNetP h3 (List.Subset.trans (by decide) hp)
  clear_value s4
  refine foot_ite (fun _ => ?_) (fun _ => ?_)
  · exact foot_netCount h4 (List.Subset.trans (by decide) hp)
  · split
    · exact foot_netCount h4 (List.Subset.trans (by decide) hp)
    · repeat' first
        | with_reducible exact h4
        | with_reducible exact foot_ringDone h4 (List.Subset.trans (by decide) hp)
        | ((with_reducible refine foot_ringDone ?_ ?m); (case m => exact List.Subset.trans (by decide) hp))
        | ((with_reducible refine foot_netCount ?_ ?m); (case m => exact List.Subset.trans (by decide) hp))
        | split

theorem foot_pause {ps : List Part} {s0 s : State} {p : Nat} {quanta : Nat} {endNs : Nat} (h : Foot ps s0 s) (hp : [.net] ⊆ ps) :
    Foot ps s0 (State.pause s p quanta endNs) := by
  unfold State.pause
  repeat' first
    | with_reducible exact h
    | with_reducible assumption
    | (extract_lets +onlyGivenNames y; first
       | (have e : y = _ := rfl; clear_value y; refine (fun hy => ?_ : Foot ps s0 y → _) ?_; (clear e); (subst e))
       | subst y)
    | with_reducible refine foot_ite (fun _ => ?_) (fun _ => ?_)
    | ((with_reducible refine foot_netCount ?_ ?m); (case m => exact List.Subset.trans (by decide) hp))
    | ((with_reducible refine foot_pauseSettle ?_ ?m); (case m => exact List.Subset.trans (by decide) hp))
    | ((with_reducible refine foot_onNetP ?_ ?m); (case m => exact List.Subset.trans (by decide) hp))
    | with_reducible refine foot_fst (by with_reducible assumption) ?_
    | with_reducible refine foot_snd (by with_reducible assumption) ?_
    | split
    | with_reducible refine foot_foldl (fun u a hu => ?_) ?_

theorem foot_rxBad {ps : List Part} {s0 s : State} {p : Nat} {cause : Nat} {bs : List Byte} (h : Foot ps s0 s) (hp : [.hbi, .net, .mem] ⊆ ps) :
    Foot ps s0 (State.rxBad s p cause bs) := by
  unfold State.rxBad
  repeat' first
    | with_reducible exact h
    | with_reducible assumption
    | (extract_lets +onlyGivenNames y; first
       | (have e : y = _ := rfl; clear_value y; refine (fun hy => ?_ : Foot ps s0 y → _) ?_; (clear e); (subst e))
       | subst y)
    | with_reducible refine foot_ite (fun _ => ?_) (fun _ => ?_)
    | ((with_reducible refine foot_netCount ?_ ?m); (case m => exact List.Subset.trans (by decide) hp))
    | ((with_reducible refine foot_toRing ?_ ?m); (case m => exact List.Subset.trans (by decide) hp))
    | with_reducible refine foot_fst (by with_reducible assumption) ?_
    | with_reducible refine foot_snd (by with_reducible assumption) ?_
    | split
    | with_reducible refine foot_foldl (fun u a hu => ?_) ?_

theorem foot_macControl {ps : List Part} {s0 s : State} {p : Nat} {endNs : Nat} {bs : List Byte} (h : Foot ps s0 s) (hp : [.net] ⊆ ps) :
    Foot ps s0 (State.macControl s p endNs bs) := by
  unfold State.macControl
  repeat' first
    | with_reducible exact h
    | with_reducible assumption
    | (extract_lets +onlyGivenNames y; first
       | (have e : y = _ := rfl; clear_value y; refine (fun hy => ?_ : Foot ps s0 y → _) ?_; (clear e); (subst e))
       | subst y)
    | with_reducible refine foot_ite (fun _ => ?_) (fun _ => ?_)
    | ((with_reducible refine foot_pause ?_ ?m); (case m => exact List.Subset.trans (by decide) hp))
    | ((with_reducible refine foot_netCount ?_ ?m); (case m => exact List.Subset.trans (by decide) hp))
    | with_reducible refine foot_fst (by with_reducible assumption) ?_
    | with_reducible refine foot_snd (by with_reducible assumption) ?_
    | split
    | with_reducible refine foot_foldl (fun u a hu => ?_) ?_

theorem foot_rxGood {ps : List Part} {s0 s : State} {p : Nat} {n : Nat} {bs : List Byte} (h : Foot ps s0 s) (hp : [.hbi, .net, .media, .mem, .draw] ⊆ ps) :
    Foot ps s0 (State.rxGood s p n bs) := by
  unfold State.rxGood
  repeat' first
    | with_reducible exact h
    | with_reducible assumption
    | (extract_lets +onlyGivenNames y; first
       | (have e : y = _ := rfl; clear_value y; refine (fun hy => ?_ : Foot ps s0 y → _) ?_; (clear e); (subst e))
       | subst y)
    | with_reducible refine foot_ite (fun _ => ?_) (fun _ => ?_)
    | ((with_reducible refine foot_stamp ?_ ?m); (case m => exact List.Subset.trans (by decide) hp))
    | ((with_reducible refine foot_macControl ?_ ?m); (case m => exact List.Subset.trans (by decide) hp))
    | ((with_reducible refine foot_netCount ?_ ?m); (case m => exact List.Subset.trans (by decide) hp))
    | ((with_reducible refine foot_police ?_ ?m); (case m => exact List.Subset.trans (by decide) hp))
    | ((with_reducible refine foot_toMedia ?_ ?m); (case m => exact List.Subset.trans (by decide) hp))
    | ((with_reducible refine foot_toRing ?_ ?m); (case m => exact List.Subset.trans (by decide) hp))
    | with_reducible refine foot_fst (by with_reducible assumption) ?_
    | with_reducible refine foot_snd (by with_reducible assumption) ?_
    | split
    | with_reducible refine foot_foldl (fun u a hu => ?_) ?_

theorem foot_execFrameReceived {ps : List Part} {s0 s : State} {p : NetIx} {f : RxFrame} (h : Foot ps s0 s) (hp : [.hbi, .net, .media, .mem, .draw] ⊆ ps) :
    OFoot ps s0 (execFrameReceived p f s) := by
  unfold execFrameReceived
  repeat' first
    | with_reducible exact h
    | with_reducible assumption
    | with_reducible refine OFoot.next ?_
    | (extract_lets +onlyGivenNames y; first
       | (have e : y = _ := rfl; clear_value y; refine (fun hy => ?_ : Foot ps s0 y → _) ?_; (clear e); (subst e))
       | subst y)
    | with_reducible refine OFoot.ite (fun _ => ?_) (fun _ => ?_)
    | with_reducible refine foot_ite (fun _ => ?_) (fun _ => ?_)
    | ((with_reducible refine foot_onNetP ?_ ?m); (case m => exact List.Subset.trans (by decide) hp))
    | ((with_reducible refine foot_netCount ?_ ?m); (case m => exact List.Subset.trans (by decide) hp))
    | ((with_reducible refine foot_rxBad ?_ ?m); (case m => exact List.Subset.trans (by decide) hp))
    | ((with_reducible refine foot_rxGood ?_ ?m); (case m => exact List.Subset.trans (by decide) hp))
    | with_reducible refine foot_fst (by with_reducible assumption) ?_
    | with_reducible refine foot_snd (by with_reducible assumption) ?_
    | split
    | with_reducible refine foot_foldl (fun u a hu => ?_) ?_

end Sys2Proof.Machine
end

