-- ==== Sys2Proof/Laws/FootNetTx.lean ====
section
/-! SUPPORT. Footprints of the operations of Machine/NetTx.lean: the parts each may change, and that it keeps what every
step keeps. -/

namespace Sys2Proof.Machine

set_option Elab.async false

theorem foot_q5Put {ps : List Part} {s0 s : State} {p : Nat} {f : Nat} {kind : Nat} {bytes : List Byte} (h : Foot ps s0 s) (hp : [.net] ⊆ ps) :
    Foot ps s0 (State.q5Put s p f kind bytes) := by
  unfold State.q5Put
  repeat' first
    | with_reducible exact h
    | with_reducible assumption
    | (extract_lets +onlyGivenNames y; first
       | (have e : y = _ := rfl; clear_value y; refine (fun hy => ?_ : Foot ps s0 y → _) ?_; (clear e); (subst e))
       | subst y)
    | with_reducible refine foot_ite (fun _ => ?_) (fun _ => ?_)
    | ((with_reducible refine foot_onNetP ?_ ?m); (case m => exact List.Subset.trans (by decide) hp))
    | with_reducible refine foot_fst (by with_reducible assumption) ?_
    | with_reducible refine foot_snd (by with_reducible assumption) ?_
    | split
    | with_reducible refine foot_foldl (fun u a hu => ?_) ?_

theorem foot_streamPackets {ps : List Part} {s0 s : State} {d : DataSet} {n : Nat} {x : Stream} (h : Foot ps s0 s) (hp : [.media] ⊆ ps) :
    Foot ps s0 (State.streamPackets s d n x) := by
  unfold State.streamPackets
  repeat' first
    | with_reducible exact h
    | with_reducible assumption
    | (extract_lets +onlyGivenNames y; first
       | (have e : y = _ := rfl; clear_value y; refine (fun hy => ?_ : Foot ps s0 y → _) ?_; (clear e); (subst e))
       | subst y)
    | with_reducible refine foot_ite (fun _ => ?_) (fun _ => ?_)
    | ((with_reducible refine foot_onTxS ?_ ?m); (case m => exact List.Subset.trans (by decide) hp))
    | ((with_reducible refine foot_onMedia ?_ ?m); (case m => exact hp (by decide)))
    | with_reducible refine foot_fst (by with_reducible assumption) ?_
    | with_reducible refine foot_snd (by with_reducible assumption) ?_
    | split
    | with_reducible refine foot_foldl (fun u a hu => ?_) ?_

theorem foot_flushReports {ps : List Part} {s0 s : State}  (h : Foot ps s0 s) (hp : [.net, .media] ⊆ ps) :
    Foot ps s0 (State.flushReports s) := by
  unfold State.flushReports
  repeat' first
    | with_reducible exact h
    | with_reducible assumption
    | (extract_lets +onlyGivenNames y; first
       | (have e : y = _ := rfl; clear_value y; refine (fun hy => ?_ : Foot ps s0 y → _) ?_; (clear e); (subst e))
       | subst y)
    | with_reducible refine foot_ite (fun _ => ?_) (fun _ => ?_)
    | ((with_reducible refine foot_q5Put ?_ ?m); (case m => exact List.Subset.trans (by decide) hp))
    | ((with_reducible refine foot_onMedia ?_ ?m); (case m => exact hp (by decide)))
    | with_reducible refine foot_fst (by with_reducible assumption) ?_
    | with_reducible refine foot_snd (by with_reducible assumption) ?_
    | split
    | with_reducible refine foot_foldl (fun u a hu => ?_) ?_

theorem foot_followUp {ps : List Part} {s0 s : State} {p : Nat} {ns : Nat} (h : Foot ps s0 s) (hp : [.net, .draw] ⊆ ps) :
    Foot ps s0 (State.followUp s p ns) := by
  unfold State.followUp
  repeat' first
    | with_reducible exact h
    | with_reducible assumption
    | (extract_lets +onlyGivenNames y; first
       | (have e : y = _ := rfl; clear_value y; refine (fun hy => ?_ : Foot ps s0 y → _) ?_; (clear e); (subst e))
       | subst y)
    | with_reducible refine foot_ite (fun _ => ?_) (fun _ => ?_)
    | ((with_reducible refine foot_drawn ?_ ?m); (case m => exact List.Subset.trans (by decide) hp))
    | ((with_reducible refine foot_onNetP ?_ ?m); (case m => exact List.Subset.trans (by decide) hp))
    | ((with_reducible refine foot_q5Put ?_ ?m); (case m => exact List.Subset.trans (by decide) hp))
    | with_reducible refine foot_fst (by with_reducible assumption) ?_
    | with_reducible refine foot_snd (by with_reducible assumption) ?_
    | split
    | with_reducible refine foot_foldl (fun u a hu => ?_) ?_

theorem foot_formPackets {ps : List Part} {s0 s : State} {d : DataSet} (h : Foot ps s0 s) (hp : [.mix, .media] ⊆ ps) :
    Foot ps s0 (State.formPackets s d) := by
  unfold State.formPackets
  repeat' first
    | with_reducible exact h
    | with_reducible assumption
    | (extract_lets +onlyGivenNames y; first
       | (have e : y = _ := rfl; clear_value y; refine (fun hy => ?_ : Foot ps s0 y → _) ?_; (clear e); (subst e))
       | subst y)
    | with_reducible refine foot_ite (fun _ => ?_) (fun _ => ?_)
    | ((with_reducible refine foot_streamPackets ?_ ?m); (case m => exact List.Subset.trans (by decide) hp))
    | ((with_reducible refine foot_onMix ?_ ?m); (case m => exact hp (by decide)))
    | with_reducible refine foot_fst (by with_reducible assumption) ?_
    | with_reducible refine foot_snd (by with_reducible assumption) ?_
    | split
    | with_reducible refine foot_foldl (fun u a hu => ?_) ?_

theorem foot_launch {ps : List Part} {s0 s : State} {k : Packet} (h : Foot ps s0 s) (hp : [.net, .media] ⊆ ps) :
    Foot ps s0 (State.launch s k) := by
  unfold State.launch
  repeat' first
    | with_reducible exact h
    | with_reducible assumption
    | (extract_lets +onlyGivenNames y; first
       | (have e : y = _ := rfl; clear_value y; refine (fun hy => ?_ : Foot ps s0 y → _) ?_; (clear e); (subst e))
       | subst y)
    | with_reducible refine foot_ite (fun _ => ?_) (fun _ => ?_)
    | ((with_reducible refine foot_onNetP ?_ ?m); (case m => exact List.Subset.trans (by decide) hp))
    | ((with_reducible refine foot_onTxS ?_ ?m); (case m => exact List.Subset.trans (by decide) hp))
    | ((with_reducible refine foot_netCount ?_ ?m); (case m => exact List.Subset.trans (by decide) hp))
    | with_reducible refine foot_fst (by with_reducible assumption) ?_
    | with_reducible refine foot_snd (by with_reducible assumption) ?_
    | split
    | with_reducible refine foot_foldl (fun u a hu => ?_) ?_

theorem foot_ptpPut {ps : List Part} {s0 s : State} {p : Nat} {kind : Nat} (h : Foot ps s0 s) (hp : [.net, .draw] ⊆ ps) :
    Foot ps s0 (State.ptpPut s p kind) := by
  unfold State.ptpPut
  repeat' first
    | with_reducible exact h
    | with_reducible assumption
    | (extract_lets +onlyGivenNames y; first
       | (have e : y = _ := rfl; clear_value y; refine (fun hy => ?_ : Foot ps s0 y → _) ?_; (clear e); (subst e))
       | subst y)
    | with_reducible refine foot_ite (fun _ => ?_) (fun _ => ?_)
    | ((with_reducible refine foot_drawn ?_ ?m); (case m => exact List.Subset.trans (by decide) hp))
    | ((with_reducible refine foot_onNetP ?_ ?m); (case m => exact List.Subset.trans (by decide) hp))
    | ((with_reducible refine foot_q5Put ?_ ?m); (case m => exact List.Subset.trans (by decide) hp))
    | with_reducible refine foot_fst (by with_reducible assumption) ?_
    | with_reducible refine foot_snd (by with_reducible assumption) ?_
    | split
    | with_reducible refine foot_foldl (fun u a hu => ?_) ?_

theorem foot_winOversize {ps : List Part} {s0 s : State} {p : Nat} (h : Foot ps s0 s) (hp : [.net, .media] ⊆ ps) :
    Foot ps s0 (State.winOversize s p) := by
  unfold State.winOversize
  repeat' first
    | with_reducible exact h
    | with_reducible assumption
    | (extract_lets +onlyGivenNames y; first
       | (have e : y = _ := rfl; clear_value y; refine (fun hy => ?_ : Foot ps s0 y → _) ?_; (clear e); (subst e))
       | subst y)
    | with_reducible refine foot_ite (fun _ => ?_) (fun _ => ?_)
    | with_reducible refine foot_forAll (fun u a hu => ?_) ?_
    | ((with_reducible refine foot_onTxS ?_ ?m); (case m => exact List.Subset.trans (by decide) hp))
    | ((with_reducible refine foot_netCount ?_ ?m); (case m => exact List.Subset.trans (by decide) hp))
    | ((with_reducible refine foot_onNetP ?_ ?m); (case m => exact List.Subset.trans (by decide) hp))
    | with_reducible refine foot_fst (by with_reducible assumption) ?_
    | with_reducible refine foot_snd (by with_reducible assumption) ?_
    | split
    | with_reducible refine foot_foldl (fun u a hu => ?_) ?_

theorem foot_launchLate {ps : List Part} {s0 s : State} {k : Packet} (h : Foot ps s0 s) (hp : [.net, .media] ⊆ ps) :
    Foot ps s0 (State.launchLate s k) := by
  unfold State.launchLate
  repeat' first
    | with_reducible exact h
    | with_reducible assumption
    | (extract_lets +onlyGivenNames y; first
       | (have e : y = _ := rfl; clear_value y; refine (fun hy => ?_ : Foot ps s0 y → _) ?_; (clear e); (subst e))
       | subst y)
    | with_reducible refine foot_ite (fun _ => ?_) (fun _ => ?_)
    | ((with_reducible refine foot_launch ?_ ?m); (case m => exact List.Subset.trans (by decide) hp))
    | ((with_reducible refine foot_onTxS ?_ ?m); (case m => exact List.Subset.trans (by decide) hp))
    | ((with_reducible refine foot_netCount ?_ ?m); (case m => exact List.Subset.trans (by decide) hp))
    | with_reducible refine foot_fst (by with_reducible assumption) ?_
    | with_reducible refine foot_snd (by with_reducible assumption) ?_
    | split
    | with_reducible refine foot_foldl (fun u a hu => ?_) ?_

theorem foot_ptpSend {ps : List Part} {s0 s : State} {p : Nat} {kind : Nat} {part : Bool} (h : Foot ps s0 s) (hp : [.net, .draw] ⊆ ps) :
    Foot ps s0 (State.ptpSend s p kind part) := by
  unfold State.ptpSend
  repeat' first
    | with_reducible exact h
    | with_reducible assumption
    | (extract_lets +onlyGivenNames y; first
       | (have e : y = _ := rfl; clear_value y; refine (fun hy => ?_ : Foot ps s0 y → _) ?_; (clear e); (subst e))
       | subst y)
    | with_reducible refine foot_ite (fun _ => ?_) (fun _ => ?_)
    | ((with_reducible refine foot_onNetP ?_ ?m); (case m => exact List.Subset.trans (by decide) hp))
    | ((with_reducible refine foot_ptpPut ?_ ?m); (case m => exact List.Subset.trans (by decide) hp))
    | with_reducible refine foot_fst (by with_reducible assumption) ?_
    | with_reducible refine foot_snd (by with_reducible assumption) ?_
    | split
    | with_reducible refine foot_foldl (fun u a hu => ?_) ?_

theorem foot_txBackTo {ps : List Part} {s0 s : State} {p : Nat} {t : Nat} {n : Nat} {flags : Nat} {ts : Option Nat} {r : NetRing} {own : Bool} (h : Foot ps s0 s) (hp : [.hbi, .net, .mem] ⊆ ps) :
    Foot ps s0 (State.txBackTo s p t n flags ts r own) := by
  unfold State.txBackTo
  repeat' first
    | with_reducible exact h
    | with_reducible assumption
    | (extract_lets +onlyGivenNames y; first
       | (have e : y = _ := rfl; clear_value y; refine (fun hy => ?_ : Foot ps s0 y → _) ?_; (clear e); (subst e))
       | subst y)
    | with_reducible refine foot_ite (fun _ => ?_) (fun _ => ?_)
    | ((with_reducible refine foot_ringDone ?_ ?m); (case m => exact List.Subset.trans (by decide) hp))
    | ((with_reducible refine foot_onNetP ?_ ?m); (case m => exact List.Subset.trans (by decide) hp))
    | ((with_reducible refine foot_onMem ?_ ?m ?k); (case k => first | exact (fun k => k) | exact (Memory.ok_foldl (fun _ _ h => Memory.ok_putPantry h)) | exact Memory.ok_putSram | exact Memory.ok_putPantry | exact BlockAt.ok_put | exact (fun k => ⟨Memory.putBytes_wf k.1, k.2⟩) | exact (fun k => ⟨k.1, Memory.putBytes_wf k.2.1, k.2.2⟩) | exact (fun k => ⟨Memory.writeBytes_wf k.1, k.2⟩) | exact (fun k => ⟨k.1, Memory.writeBytes_wf k.2.1, k.2.2⟩) | exact (fun k => ⟨Memory.writeWord_wf k.1, k.2⟩) | exact (fun k => ⟨k.1, Memory.writeWord_wf k.2.1, k.2.2⟩) | exact (fun k => ⟨Memory.clear_wf k.1, k.2⟩) | exact (fun k => ⟨k.1, k.2.1, slotsOk_put _ k.2.2⟩) | exact (fun k => ⟨k.1, Memory.foldl_wf (fun _ _ h => Memory.writeBytes_wf h) k.2.1, k.2.2⟩)); (case m => exact hp (by decide)))
    | with_reducible refine foot_fst (by with_reducible assumption) ?_
    | with_reducible refine foot_snd (by with_reducible assumption) ?_
    | split
    | with_reducible refine foot_foldl (fun u a hu => ?_) ?_

theorem foot_txEcc {ps : List Part} {s0 s : State} {p : Nat} {t : Nat} {k : Nat} (h : Foot ps s0 s) (hp : [.hbi, .mem, .trace] ⊆ ps) :
    Foot ps s0 (State.txEcc s p t k) := by
  unfold State.txEcc
  repeat' first
    | with_reducible exact h
    | with_reducible assumption
    | (extract_lets +onlyGivenNames y; first
       | (have e : y = _ := rfl; clear_value y; refine (fun hy => ?_ : Foot ps s0 y → _) ?_; (clear e); (subst e))
       | subst y)
    | with_reducible refine foot_ite (fun _ => ?_) (fun _ => ?_)
    | ((with_reducible refine foot_slvErr ?_ ?m); (case m => exact List.Subset.trans (by decide) hp))
    | ((with_reducible refine foot_eccUncorr ?_ ?m); (case m => exact List.Subset.trans (by decide) hp))
    | with_reducible refine foot_fst (by with_reducible assumption) ?_
    | with_reducible refine foot_snd (by with_reducible assumption) ?_
    | split
    | with_reducible refine foot_foldl (fun u a hu => ?_) ?_

theorem foot_execMembershipReportTimer {ps : List Part} {s0 s : State}  (h : Foot ps s0 s) (hp : [.net, .media] ⊆ ps) :
    OFoot ps s0 (execMembershipReportTimer s) := by
  unfold execMembershipReportTimer
  repeat' first
    | with_reducible exact h
    | with_reducible assumption
    | with_reducible refine OFoot.next ?_
    | (extract_lets +onlyGivenNames y; first
       | (have e : y = _ := rfl; clear_value y; refine (fun hy => ?_ : Foot ps s0 y → _) ?_; (clear e); (subst e))
       | subst y)
    | with_reducible refine OFoot.ite (fun _ => ?_) (fun _ => ?_)
    | with_reducible refine foot_ite (fun _ => ?_) (fun _ => ?_)
    | ((with_reducible refine foot_flushReports ?_ ?m); (case m => exact List.Subset.trans (by decide) hp))
    | ((with_reducible refine foot_onRxS ?_ ?m); (case m => exact List.Subset.trans (by decide) hp))
    | ((with_reducible refine foot_report ?_ ?m); (case m => exact List.Subset.trans (by decide) hp))
    | with_reducible refine foot_fst (by with_reducible assumption) ?_
    | with_reducible refine foot_snd (by with_reducible assumption) ?_
    | split
    | with_reducible refine foot_foldl (fun u a hu => ?_) ?_

theorem foot_closeStream {ps : List Part} {s0 s : State} {n : Nat} {k : Nat} (h : Foot ps s0 s) (hp : [.hbi, .media, .trace, .draw] ⊆ ps) :
    Foot ps s0 (State.closeStream s n k) := by
  unfold State.closeStream
  repeat' first
    | with_reducible exact h
    | with_reducible assumption
    | (extract_lets +onlyGivenNames y; first
       | (have e : y = _ := rfl; clear_value y; refine (fun hy => ?_ : Foot ps s0 y → _) ?_; (clear e); (subst e))
       | subst y)
    | with_reducible refine foot_ite (fun _ => ?_) (fun _ => ?_)
    | ((with_reducible refine foot_countN ?_ ?m); (case m => exact List.Subset.trans (by decide) hp))
    | ((with_reducible refine foot_onRxS ?_ ?m); (case m => exact List.Subset.trans (by decide) hp))
    | ((with_reducible refine foot_raise ?_ ?m); (case m => exact List.Subset.trans (by decide) hp))
    | ((with_reducible refine foot_strState ?_ ?m); (case m => exact List.Subset.trans (by decide) hp))
    | with_reducible refine foot_fst (by with_reducible assumption) ?_
    | with_reducible refine foot_snd (by with_reducible assumption) ?_
    | split
    | with_reducible refine foot_foldl (fun u a hu => ?_) ?_

theorem foot_launchBoundary {ps : List Part} {s0 s : State}  (h : Foot ps s0 s) (hp : [.net, .media] ⊆ ps) :
    Foot ps s0 (State.launchBoundary s) := by
  unfold State.launchBoundary
  repeat' first
    | with_reducible exact h
    | with_reducible assumption
    | (extract_lets +onlyGivenNames y; first
       | (have e : y = _ := rfl; clear_value y; refine (fun hy => ?_ : Foot ps s0 y → _) ?_; (clear e); (subst e))
       | subst y)
    | with_reducible refine foot_ite (fun _ => ?_) (fun _ => ?_)
    | ((with_reducible refine foot_launchLate ?_ ?m); (case m => exact List.Subset.trans (by decide) hp))
    | ((with_reducible refine foot_launch ?_ ?m); (case m => exact List.Subset.trans (by decide) hp))
    | ((with_reducible refine foot_onMedia ?_ ?m); (case m => exact hp (by decide)))
    | with_reducible refine foot_fst (by with_reducible assumption) ?_
    | with_reducible refine foot_snd (by with_reducible assumption) ?_
    | split
    | with_reducible refine foot_foldl (fun u a hu => ?_) ?_

theorem foot_txBack {ps : List Part} {s0 s : State} {p : Nat} {t : Nat} {n : Nat} {flags : Nat} {ts : Option Nat} (h : Foot ps s0 s) (hp : [.hbi, .net, .mem] ⊆ ps) :
    Foot ps s0 (State.txBack s p t n flags ts) := by
  unfold State.txBack
  repeat' first
    | with_reducible exact h
    | with_reducible assumption
    | (extract_lets +onlyGivenNames y; first
       | (have e : y = _ := rfl; clear_value y; refine (fun hy => ?_ : Foot ps s0 y → _) ?_; (clear e); (subst e))
       | subst y)
    | with_reducible refine foot_ite (fun _ => ?_) (fun _ => ?_)
    | ((with_reducible refine foot_txBackTo ?_ ?m); (case m => exact List.Subset.trans (by decide) hp))
    | with_reducible refine foot_fst (by with_reducible assumption) ?_
    | with_reducible refine foot_snd (by with_reducible assumption) ?_
    | split
    | with_reducible refine foot_foldl (fun u a hu => ?_) ?_

theorem foot_txStreamBoundary {ps : List Part} {s0 s : State} {k : Nat} (h : Foot ps s0 s) (hp : [.hbi, .media, .trace, .draw] ⊆ ps) :
    Foot ps s0 (State.txStreamBoundary s k) := by
  unfold State.txStreamBoundary
  repeat' first
    | with_reducible exact h
    | with_reducible assumption
    | (extract_lets +onlyGivenNames y; first
       | (have e : y = _ := rfl; clear_value y; refine (fun hy => ?_ : Foot ps s0 y → _) ?_; (clear e); (subst e))
       | subst y)
    | with_reducible refine foot_ite (fun _ => ?_) (fun _ => ?_)
    | ((with_reducible refine foot_raise ?_ ?m); (case m => exact List.Subset.trans (by decide) hp))
    | ((with_reducible refine foot_strState ?_ ?m); (case m => exact List.Subset.trans (by decide) hp))
    | ((with_reducible refine foot_onTxS ?_ ?m); (case m => exact List.Subset.trans (by decide) hp))
    | with_reducible refine foot_fst (by with_reducible assumption) ?_
    | with_reducible refine foot_snd (by with_reducible assumption) ?_
    | split
    | with_reducible refine foot_foldl (fun u a hu => ?_) ?_

theorem foot_execPtpMessageTimer {ps : List Part} {s0 s : State} {p : NetIx} {m : PtpSend} (h : Foot ps s0 s) (hp : [.net, .draw] ⊆ ps) :
    OFoot ps s0 (execPtpMessageTimer p m s) := by
  unfold execPtpMessageTimer
  repeat' first
    | with_reducible exact h
    | with_reducible assumption
    | with_reducible refine OFoot.next ?_
    | (extract_lets +onlyGivenNames y; first
       | (have e : y = _ := rfl; clear_value y; refine (fun hy => ?_ : Foot ps s0 y → _) ?_; (clear e); (subst e))
       | subst y)
    | with_reducible refine OFoot.ite (fun _ => ?_) (fun _ => ?_)
    | with_reducible refine foot_ite (fun _ => ?_) (fun _ => ?_)
    | ((with_reducible refine foot_ptpSend ?_ ?m); (case m => exact List.Subset.trans (by decide) hp))
    | with_reducible refine foot_fst (by with_reducible assumption) ?_
    | with_reducible refine foot_snd (by with_reducible assumption) ?_
    | split
    | with_reducible refine foot_foldl (fun u a hu => ?_) ?_

theorem foot_execStreamLostTimeout {ps : List Part} {s0 s : State} {k : Fin 2048} (h : Foot ps s0 s) (hp : [.hbi, .media, .trace, .draw] ⊆ ps) :
    OFoot ps s0 (execStreamLostTimeout k s) := by
  unfold execStreamLostTimeout
  repeat' first
    | with_reducible exact h
    | with_reducible assumption
    | with_reducible refine OFoot.next ?_
    | (extract_lets +onlyGivenNames y; first
       | (have e : y = _ := rfl; clear_value y; refine (fun hy => ?_ : Foot ps s0 y → _) ?_; (clear e); (subst e))
       | subst y)
    | with_reducible refine OFoot.ite (fun _ => ?_) (fun _ => ?_)
    | with_reducible refine foot_ite (fun _ => ?_) (fun _ => ?_)
    | ((with_reducible refine foot_raise ?_ ?m); (case m => exact List.Subset.trans (by decide) hp))
    | ((with_reducible refine foot_strState ?_ ?m); (case m => exact List.Subset.trans (by decide) hp))
    | with_reducible refine foot_fst (by with_reducible assumption) ?_
    | with_reducible refine foot_snd (by with_reducible assumption) ?_
    | split
    | with_reducible refine foot_foldl (fun u a hu => ?_) ?_

theorem foot_execTxFrameComplete {ps : List Part} {s0 s : State} {p : NetIx} (h : Foot ps s0 s) (hp : [.hbi, .net, .media, .mem, .draw] ⊆ ps) :
    OFoot ps s0 (execTxFrameComplete p s) := by
  unfold execTxFrameComplete
  repeat' first
    | with_reducible exact h
    | with_reducible assumption
    | with_reducible refine OFoot.next ?_
    | (extract_lets +onlyGivenNames y; first
       | (have e : y = _ := rfl; clear_value y; refine (fun hy => ?_ : Foot ps s0 y → _) ?_; (clear e); (subst e))
       | subst y)
    | with_reducible refine OFoot.ite (fun _ => ?_) (fun _ => ?_)
    | with_reducible refine foot_ite (fun _ => ?_) (fun _ => ?_)
    | ((with_reducible refine foot_onNetP ?_ ?m); (case m => exact List.Subset.trans (by decide) hp))
    | ((with_reducible refine foot_netCount ?_ ?m); (case m => exact List.Subset.trans (by decide) hp))
    | ((with_reducible refine foot_txBackTo ?_ ?m); (case m => exact List.Subset.trans (by decide) hp))
    | ((with_reducible refine foot_onTxS ?_ ?m); (case m => exact List.Subset.trans (by decide) hp))
    | ((with_reducible refine foot_followUp ?_ ?m); (case m => exact List.Subset.trans (by decide) hp))
    | with_reducible refine foot_fst (by with_reducible assumption) ?_
    | with_reducible refine foot_snd (by with_reducible assumption) ?_
    | split
    | with_reducible refine foot_foldl (fun u a hu => ?_) ?_

theorem foot_txDrops {ps : List Part} {s0 s : State} {p t n : Nat} (h : Foot ps s0 s) (hp : [.hbi, .net, .mem, .trace] ⊆ ps) :
    Foot ps s0 (State.txDrops p t n s) := by
  induction n generalizing s with
  | zero => exact h
  | succ n ih =>
    unfold State.txDrops
    split
    · refine ih (foot_txBack (foot_netCount (foot_txEcc h ?_) ?_) ?_) <;> exact List.Subset.trans (by decide) hp
    · refine ih (foot_txBack (foot_netCount h ?_) ?_) <;> exact List.Subset.trans (by decide) hp
    · exact h

theorem foot_txErrors {ps : List Part} {s0 s : State} {p t n : Nat} (h : Foot ps s0 s) (hp : [.hbi, .net, .mem, .trace] ⊆ ps) :
    Foot ps s0 (State.txErrors p t n s) := by
  induction n generalizing s with
  | zero => exact h
  | succ n ih =>
    unfold State.txErrors
    split
    · refine ih (foot_txBack (foot_netCount (foot_txEcc h ?_) ?_) ?_) <;> exact List.Subset.trans (by decide) hp
    · exact h

theorem foot_execLinkdownDropTimeout {ps : List Part} {s0 s : State} {p : NetIx} (h : Foot ps s0 s) (hp : [.hbi, .net, .mem, .trace] ⊆ ps) :
    OFoot ps s0 (execLinkdownDropTimeout p s) := by
  unfold execLinkdownDropTimeout
  repeat' first
    | with_reducible exact h
    | with_reducible assumption
    | with_reducible refine OFoot.next ?_
    | (extract_lets +onlyGivenNames y; first
       | (have e : y = _ := rfl; clear_value y; refine (fun hy => ?_ : Foot ps s0 y → _) ?_; (clear e); (subst e))
       | subst y)
    | with_reducible refine OFoot.ite (fun _ => ?_) (fun _ => ?_)
    | with_reducible refine foot_ite (fun _ => ?_) (fun _ => ?_)
    | with_reducible refine foot_forAll (fun u a hu => ?_) ?_
    | ((with_reducible refine foot_txDrops ?_ ?m); (case m => exact List.Subset.trans (by decide) hp))
    | with_reducible refine foot_fst (by with_reducible assumption) ?_
    | with_reducible refine foot_snd (by with_reducible assumption) ?_
    | split
    | with_reducible refine foot_foldl (fun u a hu => ?_) ?_

theorem foot_execMediaPacketLaunch {ps : List Part} {s0 s : State} {us : Fin 500} (h : Foot ps s0 s) (hp : [.time, .net, .media, .mem, .trace] ⊆ ps) :
    OFoot ps s0 (execMediaPacketLaunch us s) := by
  unfold execMediaPacketLaunch
  repeat' first
    | with_reducible exact h
    | with_reducible assumption
    | with_reducible refine OFoot.next ?_
    | (extract_lets +onlyGivenNames y; first
       | (have e : y = _ := rfl; clear_value y; refine (fun hy => ?_ : Foot ps s0 y → _) ?_; (clear e); (subst e))
       | subst y)
    | with_reducible refine OFoot.ite (fun _ => ?_) (fun _ => ?_)
    | with_reducible refine foot_ite (fun _ => ?_) (fun _ => ?_)
    | ((with_reducible refine foot_at_ ?_ ?m); (case m => exact List.Subset.trans (by decide) hp))
    | ((with_reducible refine foot_launch ?_ ?m); (case m => exact List.Subset.trans (by decide) hp))
    | ((with_reducible refine foot_onMedia ?_ ?m); (case m => exact hp (by decide)))
    | with_reducible refine foot_fst (by with_reducible assumption) ?_
    | with_reducible refine foot_snd (by with_reducible assumption) ?_
    | split
    | with_reducible refine foot_foldl (fun u a hu => ?_) ?_

theorem foot_execTxFrameStart {ps : List Part} {s0 s : State} {p : NetIx} (h : Foot ps s0 s) (hp : [.hbi, .net, .media, .mem, .trace, .draw] ⊆ ps) :
    OFoot ps s0 (execTxFrameStart p s) := by
  unfold execTxFrameStart
  repeat' first
    | with_reducible exact h
    | with_reducible assumption
    | with_reducible refine OFoot.next ?_
    | (extract_lets +onlyGivenNames y; first
       | (have e : y = _ := rfl; clear_value y; refine (fun hy => ?_ : Foot ps s0 y → _) ?_; (clear e); (subst e))
       | subst y)
    | with_reducible refine OFoot.ite (fun _ => ?_) (fun _ => ?_)
    | with_reducible refine foot_ite (fun _ => ?_) (fun _ => ?_)
    | with_reducible refine foot_forAll (fun u a hu => ?_) ?_
    | ((with_reducible refine foot_txErrors ?_ ?m); (case m => exact List.Subset.trans (by decide) hp))
    | ((with_reducible refine foot_winOversize ?_ ?m); (case m => exact List.Subset.trans (by decide) hp))
    | ((with_reducible refine foot_onNetP ?_ ?m); (case m => exact List.Subset.trans (by decide) hp))
    | ((with_reducible refine foot_stamp ?_ ?m); (case m => exact List.Subset.trans (by decide) hp))
    | ((with_reducible refine foot_netCount ?_ ?m); (case m => exact List.Subset.trans (by decide) hp))
    | with_reducible refine foot_fst (by with_reducible assumption) ?_
    | with_reducible refine foot_snd (by with_reducible assumption) ?_
    | split
    | with_reducible refine foot_foldl (fun u a hu => ?_) ?_

end Sys2Proof.Machine
end

