-- ==== Sys2Proof/Laws/FootTimeFam.lean ====
section
/-! SUPPORT. Footprints of the operations of Machine/TimeFam.lean: the parts each may change, and that it keeps what every
step keeps. -/

namespace Sys2Proof.Machine

set_option Elab.async false

theorem foot_correct {ps : List Part} {s0 s : State} {theta : Int} (h : Foot ps s0 s) (hp : [.time, .draw] ⊆ ps) :
    Foot ps s0 (State.correct s theta) := by
  unfold State.correct
  extract_lets +onlyGivenNames waiting pend eff j
  refine foot_ite (fun _ => h) (fun _ => ?_)
  extract_lets +onlyGivenNames rest base rate
  have hb : rateOk base := rateOk_clamp _
  have hr : rateOk rate := by
    show rateOk (if rest = 0 then base else _)
    split
    · exact hb
    · exact rateOk_slewIncr hb _ _
  clear_value rate base rest j eff
  refine foot_onTime (foot_onDraw h (hp (by decide))) (hp (by decide)) fun k => ?_
  exact ⟨k.1, hr, k.2.2.1, hb, k.2.2.2.2⟩

theorem foot_execRefclkRestored {ps : List Part} {s0 s : State}  (h : Foot ps s0 s) (hp : [.time] ⊆ ps) :
    OFoot ps s0 (execRefclkRestored s) := by
  unfold execRefclkRestored
  repeat' first
    | with_reducible exact h
    | with_reducible assumption
    | with_reducible refine OFoot.next ?_
    | (extract_lets +onlyGivenNames y; first
       | (have e : y = _ := rfl; clear_value y; refine (fun hy => ?_ : Foot ps s0 y → _) ?_; (clear e); (subst e))
       | subst y)
    | with_reducible refine OFoot.ite (fun _ => ?_) (fun _ => ?_)
    | with_reducible refine foot_ite (fun _ => ?_) (fun _ => ?_)
    | ((with_reducible refine foot_onTime ?_ ?m ?k); (case k => first | exact (fun k => k) | exact (Time.ok_ticksOn _) | exact (fun k => Time.ok_endSlew k.2.2.1 k) | exact (fun k => Time.ok_endSlew k.2.2.2.1 k) | exact (fun k => ⟨k.1, k.2.1, k.2.2.1, k.2.2.2.1, k.2.2.2.2.1, fun _ hx => nomatch hx, Nat.zero_le _⟩) | exact Time.ok_hoPush); (case m => exact hp (by decide)))
    | with_reducible refine foot_fst (by with_reducible assumption) ?_
    | with_reducible refine foot_snd (by with_reducible assumption) ?_
    | split
    | with_reducible refine foot_foldl (fun u a hu => ?_) ?_

theorem foot_ageBoundary {ps : List Part} {s0 s : State}  (h : Foot ps s0 s) (hp : [.time, .hbi] ⊆ ps) :
    Foot ps s0 (State.ageBoundary s) := by
  unfold State.ageBoundary
  repeat' first
    | with_reducible exact h
    | with_reducible assumption
    | (extract_lets +onlyGivenNames y; first
       | (have e : y = _ := rfl; clear_value y; refine (fun hy => ?_ : Foot ps s0 y → _) ?_; (clear e); (subst e))
       | subst y)
    | with_reducible refine foot_ite (fun _ => ?_) (fun _ => ?_)
    | ((with_reducible refine foot_raise ?_ ?m); (case m => exact List.Subset.trans (by decide) hp))
    | ((with_reducible refine foot_onTime ?_ ?m ?k); (case k => first | exact (fun k => k) | exact (Time.ok_ticksOn _) | exact (fun k => Time.ok_endSlew k.2.2.1 k) | exact (fun k => Time.ok_endSlew k.2.2.2.1 k) | exact (fun k => ⟨k.1, k.2.1, k.2.2.1, k.2.2.2.1, k.2.2.2.2.1, fun _ hx => nomatch hx, Nat.zero_le _⟩) | exact Time.ok_hoPush); (case m => exact hp (by decide)))
    | with_reducible refine foot_fst (by with_reducible assumption) ?_
    | with_reducible refine foot_snd (by with_reducible assumption) ?_
    | split
    | with_reducible refine foot_foldl (fun u a hu => ?_) ?_

theorem foot_execPinCapture {ps : List Part} {s0 s : State} {pin : CapPin} (h : Foot ps s0 s) (hp : [.time, .hbi, .draw] ⊆ ps) :
    OFoot ps s0 (execPinCapture pin s) := by
  unfold execPinCapture
  repeat' first
    | with_reducible exact h
    | with_reducible assumption
    | with_reducible refine OFoot.next ?_
    | (extract_lets +onlyGivenNames y; first
       | (have e : y = _ := rfl; clear_value y; refine (fun hy => ?_ : Foot ps s0 y → _) ?_; (clear e); (subst e))
       | subst y)
    | with_reducible refine OFoot.ite (fun _ => ?_) (fun _ => ?_)
    | with_reducible refine foot_ite (fun _ => ?_) (fun _ => ?_)
    | ((with_reducible refine foot_stampIn ?_ ?m); (case m => exact List.Subset.trans (by decide) hp))
    | ((with_reducible refine foot_raise ?_ ?m); (case m => exact List.Subset.trans (by decide) hp))
    | ((with_reducible refine foot_onTime ?_ ?m ?k); (case k => first | exact (fun k => k) | exact (Time.ok_ticksOn _) | exact (fun k => Time.ok_endSlew k.2.2.1 k) | exact (fun k => Time.ok_endSlew k.2.2.2.1 k) | exact (fun k => ⟨k.1, k.2.1, k.2.2.1, k.2.2.2.1, k.2.2.2.2.1, fun _ hx => nomatch hx, Nat.zero_le _⟩) | exact Time.ok_hoPush); (case m => exact hp (by decide)))
    | with_reducible refine foot_fst (by with_reducible assumption) ?_
    | with_reducible refine foot_snd (by with_reducible assumption) ?_
    | split
    | with_reducible refine foot_foldl (fun u a hu => ?_) ?_

theorem foot_execSlewComplete {ps : List Part} {s0 s : State}  (h : Foot ps s0 s) (hp : [.time, .hbi] ⊆ ps) :
    OFoot ps s0 (execSlewComplete s) := by
  unfold execSlewComplete
  repeat' first
    | with_reducible exact h
    | with_reducible assumption
    | with_reducible refine OFoot.next ?_
    | (extract_lets +onlyGivenNames y; first
       | (have e : y = _ := rfl; clear_value y; refine (fun hy => ?_ : Foot ps s0 y → _) ?_; (clear e); (subst e))
       | subst y)
    | with_reducible refine OFoot.ite (fun _ => ?_) (fun _ => ?_)
    | with_reducible refine foot_ite (fun _ => ?_) (fun _ => ?_)
    | ((with_reducible refine foot_raise ?_ ?m); (case m => exact List.Subset.trans (by decide) hp))
    | ((with_reducible refine foot_onTime ?_ ?m ?k); (case k => first | exact (fun k => k) | exact (Time.ok_ticksOn _) | exact (fun k => Time.ok_endSlew k.2.2.1 k) | exact (fun k => Time.ok_endSlew k.2.2.2.1 k) | exact (fun k => ⟨k.1, k.2.1, k.2.2.1, k.2.2.2.1, k.2.2.2.2.1, fun _ hx => nomatch hx, Nat.zero_le _⟩) | exact Time.ok_hoPush); (case m => exact hp (by decide)))
    | with_reducible refine foot_fst (by with_reducible assumption) ?_
    | with_reducible refine foot_snd (by with_reducible assumption) ?_
    | split
    | with_reducible refine foot_foldl (fun u a hu => ?_) ?_

theorem foot_applyJump {ps : List Part} {s0 s : State}  (h : Foot ps s0 s) (hp : [.time, .hbi, .trace, .draw] ⊆ ps) :
    Foot ps s0 (State.applyJump s) := by
  have key : ∀ (x : Time) (n : Nat) a b c d e, x.Ok →
      Time.Ok { x with jumpDue := a, sec := b, ns := n % 1000000000, jumps := c, lastJump := d, ppsHeld := e } := by
    intro x n a b c d e k
    exact ⟨Nat.mod_lt _ (by omega), k.2⟩
  unfold State.applyJump
  split
  · exact foot_onTime h (hp (by decide)) Time.ok_ppsFree
  · refine foot_ite (fun _ => ?_) (fun _ => ?_)
    · exact foot_onTime h (hp (by decide)) Time.ok_ppsFree
    extract_lets +onlyGivenNames total n y
    have h1 : Foot ps s0 y := foot_onTime h (hp (by decide)) (key _ _ _ _ _ _ _)
    clear_value y
    extract_lets +onlyGivenNames z
    have h2 : Foot ps s0 z := foot_onTime h1 (hp (by decide)) (fun k => k)
    clear_value z
    extract_lets +onlyGivenNames w
    have h3 : Foot ps s0 w := foot_ite (fun _ => foot_onTime h2 (hp (by decide)) (fun k => k)) (fun _ => h2)
    clear_value w
    exact foot_timeEvent (foot_count h3 (List.Subset.trans (by decide) hp)) (List.Subset.trans (by decide) hp)

theorem foot_measure {ps : List Part} {s0 s : State} {theta : Int} {bound : Int} (h : Foot ps s0 s) (hp : [.time, .hbi, .trace, .draw] ⊆ ps) :
    Foot ps s0 (State.measure s theta bound) := by
  unfold State.measure
  repeat' first
    | with_reducible exact h
    | with_reducible assumption
    | (extract_lets +onlyGivenNames y; first
       | (have e : y = _ := rfl; clear_value y; refine (fun hy => ?_ : Foot ps s0 y → _) ?_; (clear e); (subst e))
       | subst y)
    | with_reducible refine foot_ite (fun _ => ?_) (fun _ => ?_)
    | ((with_reducible refine foot_correct ?_ ?m); (case m => exact List.Subset.trans (by decide) hp))
    | ((with_reducible refine foot_raise ?_ ?m); (case m => exact List.Subset.trans (by decide) hp))
    | ((with_reducible refine foot_timeState ?_ ?m); (case m => exact List.Subset.trans (by decide) hp))
    | ((with_reducible refine foot_onTime ?_ ?m ?k); (case k => first | exact (fun k => k) | exact (Time.ok_ticksOn _) | exact (fun k => Time.ok_endSlew k.2.2.1 k) | exact (fun k => Time.ok_endSlew k.2.2.2.1 k) | exact (fun k => ⟨k.1, k.2.1, k.2.2.1, k.2.2.2.1, k.2.2.2.2.1, fun _ hx => nomatch hx, Nat.zero_le _⟩) | exact Time.ok_hoPush); (case m => exact hp (by decide)))
    | with_reducible refine foot_fst (by with_reducible assumption) ?_
    | with_reducible refine foot_snd (by with_reducible assumption) ?_
    | split
    | with_reducible refine foot_foldl (fun u a hu => ?_) ?_

theorem foot_ringTimeLost {ps : List Part} {s0 s : State}  (h : Foot ps s0 s) (hp : [.time, .hbi, .imdal, .trace, .draw] ⊆ ps) :
    Foot ps s0 (State.ringTimeLost s) := by
  unfold State.ringTimeLost
  repeat' first
    | with_reducible exact h
    | with_reducible assumption
    | (extract_lets +onlyGivenNames y; first
       | (have e : y = _ := rfl; clear_value y; refine (fun hy => ?_ : Foot ps s0 y → _) ?_; (clear e); (subst e))
       | subst y)
    | with_reducible refine foot_ite (fun _ => ?_) (fun _ => ?_)
    | ((with_reducible refine foot_timeState ?_ ?m); (case m => exact List.Subset.trans (by decide) hp))
    | ((with_reducible refine foot_raise ?_ ?m); (case m => exact List.Subset.trans (by decide) hp))
    | ((with_reducible refine foot_onImdal ?_ ?m); (case m => exact hp (by decide)))
    | ((with_reducible refine foot_onTime ?_ ?m ?k); (case k => first | exact (fun k => k) | exact (Time.ok_ticksOn _) | exact (fun k => Time.ok_endSlew k.2.2.1 k) | exact (fun k => Time.ok_endSlew k.2.2.2.1 k) | exact (fun k => ⟨k.1, k.2.1, k.2.2.1, k.2.2.2.1, k.2.2.2.2.1, fun _ hx => nomatch hx, Nat.zero_le _⟩) | exact Time.ok_hoPush); (case m => exact hp (by decide)))
    | with_reducible refine foot_fst (by with_reducible assumption) ?_
    | with_reducible refine foot_snd (by with_reducible assumption) ?_
    | split
    | with_reducible refine foot_foldl (fun u a hu => ?_) ?_

theorem foot_timeBoundary {ps : List Part} {s0 s : State}  (h : Foot ps s0 s) (hp : [.time, .hbi, .trace, .draw] ⊆ ps) :
    Foot ps s0 (State.timeBoundary s) := by
  unfold State.timeBoundary
  extract_lets +onlyGivenNames z y
  have h0 : Foot ps s0 z := foot_ageBoundary h (List.Subset.trans (by decide) hp)
  clear_value z
  have h1 : Foot ps s0 y := by
    refine foot_ite (fun _ => foot_timeState (foot_onTime h0 (hp (by decide)) fun k => ?_) (List.Subset.trans (by decide) hp)) (fun _ => h0)
    refine ⟨k.1, ?_, k.2.2⟩
    show rateOk (if _ then _ else _)
    split
    · exact k.2.2.1
    · exact rateOk_nominal
  clear_value y
  refine foot_ite (fun _ => foot_raise (foot_onTime h1 (hp (by decide)) fun k => k) (List.Subset.trans (by decide) hp)) (fun _ => h1)

theorem foot_trigPlace {ps : List Part} {s0 s : State} {t : Trigger} {k : Nat} (h : Foot ps s0 s) (hp : [.hbi, .dap, .mem, .trace] ⊆ ps) :
    Foot ps s0 (State.trigPlace s t k) := by
  unfold State.trigPlace
  repeat' first
    | with_reducible exact h
    | with_reducible assumption
    | (extract_lets +onlyGivenNames y; first
       | (have e : y = _ := rfl; clear_value y; refine (fun hy => ?_ : Foot ps s0 y → _) ?_; (clear e); (subst e))
       | subst y)
    | with_reducible refine foot_ite (fun _ => ?_) (fun _ => ?_)
    | with_reducible refine foot_forAll (fun u a hu => ?_) ?_
    | ((with_reducible refine foot_onDapP ?_ ?m); (case m => exact List.Subset.trans (by decide) hp))
    | ((with_reducible refine foot_dapOut ?_ ?m); (case m => exact List.Subset.trans (by decide) hp))
    | ((with_reducible refine foot_playback ?_ ?m); (case m => exact List.Subset.trans (by decide) hp))
    | with_reducible refine foot_fst (by with_reducible assumption) ?_
    | with_reducible refine foot_snd (by with_reducible assumption) ?_
    | split
    | with_reducible refine foot_foldl (fun u a hu => ?_) ?_

theorem foot_execLockAchieved {ps : List Part} {s0 s : State}  (h : Foot ps s0 s) (hp : [.time, .hbi, .trace, .draw] ⊆ ps) :
    OFoot ps s0 (execLockAchieved s) := by
  unfold execLockAchieved
  refine OFoot.ite (fun _ => OFoot.next ?_) (fun _ => OFoot.next h)
  refine foot_timeState (foot_onTime h (hp (by decide)) fun k => ?_) (List.Subset.trans (by decide) hp)
  exact ⟨k.1, k.2.1, k.2.2.1, k.2.2.2.1, k.2.2.2.2.1, by simp, by simp⟩

theorem foot_execRefclkLoss {ps : List Part} {s0 s : State}  (h : Foot ps s0 s) (hp : [.time, .hbi, .trace, .draw] ⊆ ps) :
    OFoot ps s0 (execRefclkLoss s) := by
  unfold execRefclkLoss
  refine OFoot.ite (fun _ => OFoot.next ?_) (fun _ => OFoot.next ?_)
  · exact foot_onTime h (hp (by decide)) (fun k => k)
  · exact foot_timeState (foot_onTime h (hp (by decide)) fun k => ⟨k.1, rateOk_nominal, k.2.2⟩) (List.Subset.trans (by decide) hp)

theorem foot_fireTrigger {ps : List Part} {s0 s : State} {t : Trigger} {k : Nat} (h : Foot ps s0 s) (hp : [.time, .hbi, .dap, .mem, .trace] ⊆ ps) :
    Foot ps s0 (State.fireTrigger s t k) := by
  unfold State.fireTrigger
  repeat' first
    | with_reducible exact h
    | with_reducible assumption
    | (extract_lets +onlyGivenNames y; first
       | (have e : y = _ := rfl; clear_value y; refine (fun hy => ?_ : Foot ps s0 y → _) ?_; (clear e); (subst e))
       | subst y)
    | with_reducible refine foot_ite (fun _ => ?_) (fun _ => ?_)
    | ((with_reducible refine foot_trigPlace ?_ ?m); (case m => exact List.Subset.trans (by decide) hp))
    | ((with_reducible refine foot_at_ ?_ ?m); (case m => exact List.Subset.trans (by decide) hp))
    | ((with_reducible refine foot_onTime ?_ ?m ?k); (case k => first | exact (fun k => k) | exact (Time.ok_ticksOn _) | exact (fun k => Time.ok_endSlew k.2.2.1 k) | exact (fun k => Time.ok_endSlew k.2.2.2.1 k) | exact (fun k => ⟨k.1, k.2.1, k.2.2.1, k.2.2.2.1, k.2.2.2.2.1, fun _ hx => nomatch hx, Nat.zero_le _⟩) | exact Time.ok_hoPush); (case m => exact hp (by decide)))
    | with_reducible refine foot_fst (by with_reducible assumption) ?_
    | with_reducible refine foot_snd (by with_reducible assumption) ?_
    | split
    | with_reducible refine foot_foldl (fun u a hu => ?_) ?_

theorem foot_ptpAnnounce {ps : List Part} {s0 s : State} {p : Nat} {gm : Nat} {ok : Bool} (h : Foot ps s0 s) (hp : [.time, .hbi, .net, .trace, .draw] ⊆ ps) :
    Foot ps s0 (State.ptpAnnounce s p gm ok) := by
  unfold State.ptpAnnounce
  repeat' first
    | with_reducible exact h
    | with_reducible assumption
    | (extract_lets +onlyGivenNames y; first
       | (have e : y = _ := rfl; clear_value y; refine (fun hy => ?_ : Foot ps s0 y → _) ?_; (clear e); (subst e))
       | subst y)
    | with_reducible refine foot_ite (fun _ => ?_) (fun _ => ?_)
    | ((with_reducible refine foot_onNetP ?_ ?m); (case m => exact List.Subset.trans (by decide) hp))
    | ((with_reducible refine foot_refUpdate ?_ ?m); (case m => exact List.Subset.trans (by decide) hp))
    | ((with_reducible refine foot_onTime ?_ ?m ?k); (case k => first | exact (fun k => k) | exact (Time.ok_ticksOn _) | exact (fun k => Time.ok_endSlew k.2.2.1 k) | exact (fun k => Time.ok_endSlew k.2.2.2.1 k) | exact (fun k => ⟨k.1, k.2.1, k.2.2.1, k.2.2.2.1, k.2.2.2.2.1, fun _ hx => nomatch hx, Nat.zero_le _⟩) | exact Time.ok_hoPush); (case m => exact hp (by decide)))
    | with_reducible refine foot_fst (by with_reducible assumption) ?_
    | with_reducible refine foot_snd (by with_reducible assumption) ?_
    | split
    | with_reducible refine foot_foldl (fun u a hu => ?_) ?_

theorem foot_trigBoundary {ps : List Part} {s0 s : State}  (h : Foot ps s0 s) (hp : [.hbi, .dap, .mem, .trace] ⊆ ps) :
    Foot ps s0 (State.trigBoundary s) := by
  unfold State.trigBoundary
  repeat' first
    | with_reducible exact h
    | with_reducible assumption
    | (extract_lets +onlyGivenNames y; first
       | (have e : y = _ := rfl; clear_value y; refine (fun hy => ?_ : Foot ps s0 y → _) ?_; (clear e); (subst e))
       | subst y)
    | with_reducible refine foot_ite (fun _ => ?_) (fun _ => ?_)
    | ((with_reducible refine foot_trigPlace ?_ ?m); (case m => exact List.Subset.trans (by decide) hp))
    | with_reducible refine foot_fst (by with_reducible assumption) ?_
    | with_reducible refine foot_snd (by with_reducible assumption) ?_
    | split
    | with_reducible refine foot_foldl (fun u a hu => ?_) ?_

theorem foot_wclkLost {ps : List Part} {s0 s : State}  (h : Foot ps s0 s) (hp : [.time, .hbi, .trace, .draw] ⊆ ps) :
    Foot ps s0 (State.wclkLost s) := by
  unfold State.wclkLost
  repeat' first
    | with_reducible exact h
    | with_reducible assumption
    | (extract_lets +onlyGivenNames y; first
       | (have e : y = _ := rfl; clear_value y; refine (fun hy => ?_ : Foot ps s0 y → _) ?_; (clear e); (subst e))
       | subst y)
    | with_reducible refine foot_ite (fun _ => ?_) (fun _ => ?_)
    | ((with_reducible refine foot_refUpdate ?_ ?m); (case m => exact List.Subset.trans (by decide) hp))
    | ((with_reducible refine foot_raise ?_ ?m); (case m => exact List.Subset.trans (by decide) hp))
    | ((with_reducible refine foot_onTime ?_ ?m ?k); (case k => first | exact (fun k => k) | exact (Time.ok_ticksOn _) | exact (fun k => Time.ok_endSlew k.2.2.1 k) | exact (fun k => Time.ok_endSlew k.2.2.2.1 k) | exact (fun k => ⟨k.1, k.2.1, k.2.2.1, k.2.2.2.1, k.2.2.2.2.1, fun _ hx => nomatch hx, Nat.zero_le _⟩) | exact Time.ok_hoPush); (case m => exact hp (by decide)))
    | with_reducible refine foot_fst (by with_reducible assumption) ?_
    | with_reducible refine foot_snd (by with_reducible assumption) ?_
    | split
    | with_reducible refine foot_foldl (fun u a hu => ?_) ?_

theorem foot_execWclkInEdge {ps : List Part} {s0 s : State} {err : Int} (h : Foot ps s0 s) (hp : [.time, .hbi, .trace, .draw] ⊆ ps) :
    OFoot ps s0 (execWclkInEdge err s) := by
  unfold execWclkInEdge
  repeat' first
    | with_reducible exact h
    | with_reducible assumption
    | with_reducible refine OFoot.next ?_
    | (extract_lets +onlyGivenNames y; first
       | (have e : y = _ := rfl; clear_value y; refine (fun hy => ?_ : Foot ps s0 y → _) ?_; (clear e); (subst e))
       | subst y)
    | with_reducible refine OFoot.ite (fun _ => ?_) (fun _ => ?_)
    | with_reducible refine foot_ite (fun _ => ?_) (fun _ => ?_)
    | ((with_reducible refine foot_measure ?_ ?m); (case m => exact List.Subset.trans (by decide) hp))
    | ((with_reducible refine foot_onTime ?_ ?m ?k); (case k => first | exact (fun k => k) | exact (Time.ok_ticksOn _) | exact (fun k => Time.ok_endSlew k.2.2.1 k) | exact (fun k => Time.ok_endSlew k.2.2.2.1 k) | exact (fun k => ⟨k.1, k.2.1, k.2.2.1, k.2.2.2.1, k.2.2.2.2.1, fun _ hx => nomatch hx, Nat.zero_le _⟩) | exact Time.ok_hoPush); (case m => exact hp (by decide)))
    | with_reducible refine foot_fst (by with_reducible assumption) ?_
    | with_reducible refine foot_snd (by with_reducible assumption) ?_
    | split
    | with_reducible refine foot_foldl (fun u a hu => ?_) ?_

theorem foot_finishTrigger {ps : List Part} {s0 s : State}  (h : Foot ps s0 s) (hp : [.time, .hbi, .dap, .mem, .trace] ⊆ ps) :
    Foot ps s0 (State.finishTrigger s) := by
  unfold State.finishTrigger
  repeat' first
    | with_reducible exact h
    | with_reducible assumption
    | (extract_lets +onlyGivenNames y; first
       | (have e : y = _ := rfl; clear_value y; refine (fun hy => ?_ : Foot ps s0 y → _) ?_; (clear e); (subst e))
       | subst y)
    | with_reducible refine foot_ite (fun _ => ?_) (fun _ => ?_)
    | ((with_reducible refine foot_fireTrigger ?_ ?m); (case m => exact List.Subset.trans (by decide) hp))
    | with_reducible refine foot_fst (by with_reducible assumption) ?_
    | with_reducible refine foot_snd (by with_reducible assumption) ?_
    | split
    | with_reducible refine foot_foldl (fun u a hu => ?_) ?_

theorem foot_pointHeard {ps : List Part} {s0 s : State} {pidx : Word} {k : Nat} (h : Foot ps s0 s) (hp : [.time, .hbi, .dap, .mem, .trace] ⊆ ps) :
    Foot ps s0 (State.pointHeard s pidx k) := by
  unfold State.pointHeard
  repeat' first
    | with_reducible exact h
    | with_reducible assumption
    | (extract_lets +onlyGivenNames y; first
       | (have e : y = _ := rfl; clear_value y; refine (fun hy => ?_ : Foot ps s0 y → _) ?_; (clear e); (subst e))
       | subst y)
    | with_reducible refine foot_ite (fun _ => ?_) (fun _ => ?_)
    | ((with_reducible refine foot_trigBoundary ?_ ?m); (case m => exact List.Subset.trans (by decide) hp))
    | ((with_reducible refine foot_raise ?_ ?m); (case m => exact List.Subset.trans (by decide) hp))
    | ((with_reducible refine foot_onTime ?_ ?m ?k); (case k => first | exact (fun k => k) | exact (Time.ok_ticksOn _) | exact (fun k => Time.ok_endSlew k.2.2.1 k) | exact (fun k => Time.ok_endSlew k.2.2.2.1 k) | exact (fun k => ⟨k.1, k.2.1, k.2.2.1, k.2.2.2.1, k.2.2.2.2.1, fun _ hx => nomatch hx, Nat.zero_le _⟩) | exact Time.ok_hoPush); (case m => exact hp (by decide)))
    | with_reducible refine foot_fst (by with_reducible assumption) ?_
    | with_reducible refine foot_snd (by with_reducible assumption) ?_
    | split
    | with_reducible refine foot_foldl (fun u a hu => ?_) ?_

theorem foot_wclkMeasured {ps : List Part} {s0 s : State} {mHz : Word} (h : Foot ps s0 s) (hp : [.time, .hbi, .trace, .draw] ⊆ ps) :
    Foot ps s0 (State.wclkMeasured s mHz) := by
  unfold State.wclkMeasured
  repeat' first
    | with_reducible exact h
    | with_reducible assumption
    | (extract_lets +onlyGivenNames y; first
       | (have e : y = _ := rfl; clear_value y; refine (fun hy => ?_ : Foot ps s0 y → _) ?_; (clear e); (subst e))
       | subst y)
    | with_reducible refine foot_ite (fun _ => ?_) (fun _ => ?_)
    | ((with_reducible refine foot_wclkLost ?_ ?m); (case m => exact List.Subset.trans (by decide) hp))
    | ((with_reducible refine foot_onTime ?_ ?m ?k); (case k => first | exact (fun k => k) | exact (Time.ok_ticksOn _) | exact (fun k => Time.ok_endSlew k.2.2.1 k) | exact (fun k => Time.ok_endSlew k.2.2.2.1 k) | exact (fun k => ⟨k.1, k.2.1, k.2.2.1, k.2.2.2.1, k.2.2.2.2.1, fun _ hx => nomatch hx, Nat.zero_le _⟩) | exact Time.ok_hoPush); (case m => exact hp (by decide)))
    | with_reducible refine foot_fst (by with_reducible assumption) ?_
    | with_reducible refine foot_snd (by with_reducible assumption) ?_
    | split
    | with_reducible refine foot_foldl (fun u a hu => ?_) ?_

theorem foot_execPtpMessageReceived {ps : List Part} {s0 s : State} {p : NetIx} {m : PtpMsg} (h : Foot ps s0 s) (hp : [.time, .hbi, .net, .trace, .draw] ⊆ ps) :
    OFoot ps s0 (execPtpMessageReceived p m s) := by
  unfold execPtpMessageReceived
  repeat' first
    | with_reducible exact h
    | with_reducible assumption
    | with_reducible refine OFoot.next ?_
    | (extract_lets +onlyGivenNames y; first
       | (have e : y = _ := rfl; clear_value y; refine (fun hy => ?_ : Foot ps s0 y → _) ?_; (clear e); (subst e))
       | subst y)
    | with_reducible refine OFoot.ite (fun _ => ?_) (fun _ => ?_)
    | with_reducible refine foot_ite (fun _ => ?_) (fun _ => ?_)
    | ((with_reducible refine foot_ptpAnnounce ?_ ?m); (case m => exact List.Subset.trans (by decide) hp))
    | ((with_reducible refine foot_onNetP ?_ ?m); (case m => exact List.Subset.trans (by decide) hp))
    | ((with_reducible refine foot_measure ?_ ?m); (case m => exact List.Subset.trans (by decide) hp))
    | ((with_reducible refine foot_ptpPut ?_ ?m); (case m => exact List.Subset.trans (by decide) hp))
    | with_reducible refine foot_fst (by with_reducible assumption) ?_
    | with_reducible refine foot_snd (by with_reducible assumption) ?_
    | split
    | with_reducible refine foot_foldl (fun u a hu => ?_) ?_

theorem foot_execReferenceLoss {ps : List Part} {s0 s : State} {r : Ref} (h : Foot ps s0 s) (hp : [.time, .hbi, .net, .imdal, .trace, .draw] ⊆ ps) :
    OFoot ps s0 (execReferenceLoss r s) := by
  unfold execReferenceLoss
  repeat' first
    | with_reducible exact h
    | with_reducible assumption
    | with_reducible refine OFoot.next ?_
    | (extract_lets +onlyGivenNames y; first
       | (have e : y = _ := rfl; clear_value y; refine (fun hy => ?_ : Foot ps s0 y → _) ?_; (clear e); (subst e))
       | subst y)
    | with_reducible refine OFoot.ite (fun _ => ?_) (fun _ => ?_)
    | with_reducible refine foot_ite (fun _ => ?_) (fun _ => ?_)
    | ((with_reducible refine foot_ptpSwap ?_ ?m); (case m => exact List.Subset.trans (by decide) hp))
    | ((with_reducible refine foot_onNetP ?_ ?m); (case m => exact List.Subset.trans (by decide) hp))
    | ((with_reducible refine foot_refUpdate ?_ ?m); (case m => exact List.Subset.trans (by decide) hp))
    | ((with_reducible refine foot_wclkLost ?_ ?m); (case m => exact List.Subset.trans (by decide) hp))
    | ((with_reducible refine foot_ringTimeLost ?_ ?m); (case m => exact List.Subset.trans (by decide) hp))
    | ((with_reducible refine foot_onTime ?_ ?m ?k); (case k => first | exact (fun k => k) | exact (Time.ok_ticksOn _) | exact (fun k => Time.ok_endSlew k.2.2.1 k) | exact (fun k => Time.ok_endSlew k.2.2.2.1 k) | exact (fun k => ⟨k.1, k.2.1, k.2.2.1, k.2.2.2.1, k.2.2.2.2.1, fun _ hx => nomatch hx, Nat.zero_le _⟩) | exact Time.ok_hoPush); (case m => exact hp (by decide)))
    | with_reducible refine foot_fst (by with_reducible assumption) ?_
    | with_reducible refine foot_snd (by with_reducible assumption) ?_
    | split
    | with_reducible refine foot_foldl (fun u a hu => ?_) ?_

theorem foot_execStartInEdge {ps : List Part} {s0 s : State}  (h : Foot ps s0 s) (hp : [.time, .hbi, .dap, .imdal, .mem, .trace] ⊆ ps) :
    OFoot ps s0 (execStartInEdge s) := by
  unfold execStartInEdge
  repeat' first
    | with_reducible exact h
    | with_reducible assumption
    | with_reducible refine OFoot.next ?_
    | (extract_lets +onlyGivenNames y; first
       | (have e : y = _ := rfl; clear_value y; refine (fun hy => ?_ : Foot ps s0 y → _) ?_; (clear e); (subst e))
       | subst y)
    | with_reducible refine OFoot.ite (fun _ => ?_) (fun _ => ?_)
    | with_reducible refine foot_ite (fun _ => ?_) (fun _ => ?_)
    | ((with_reducible refine foot_trigBoundary ?_ ?m); (case m => exact List.Subset.trans (by decide) hp))
    | ((with_reducible refine foot_onTime ?_ ?m ?k); (case k => first | exact (fun k => k) | exact (Time.ok_ticksOn _) | exact (fun k => Time.ok_endSlew k.2.2.1 k) | exact (fun k => Time.ok_endSlew k.2.2.2.1 k) | exact (fun k => ⟨k.1, k.2.1, k.2.2.1, k.2.2.2.1, k.2.2.2.2.1, fun _ hx => nomatch hx, Nat.zero_le _⟩) | exact Time.ok_hoPush); (case m => exact hp (by decide)))
    | ((with_reducible refine foot_onImdal ?_ ?m); (case m => exact hp (by decide)))
    | with_reducible refine foot_fst (by with_reducible assumption) ?_
    | with_reducible refine foot_snd (by with_reducible assumption) ?_
    | split
    | with_reducible refine foot_foldl (fun u a hu => ?_) ?_

theorem foot_execWclkGlitch {ps : List Part} {s0 s : State}  (h : Foot ps s0 s) (hp : [.time, .hbi, .trace, .draw] ⊆ ps) :
    OFoot ps s0 (execWclkGlitch s) := by
  unfold execWclkGlitch
  repeat' first
    | with_reducible exact h
    | with_reducible assumption
    | with_reducible refine OFoot.next ?_
    | (extract_lets +onlyGivenNames y; first
       | (have e : y = _ := rfl; clear_value y; refine (fun hy => ?_ : Foot ps s0 y → _) ?_; (clear e); (subst e))
       | subst y)
    | with_reducible refine OFoot.ite (fun _ => ?_) (fun _ => ?_)
    | with_reducible refine foot_ite (fun _ => ?_) (fun _ => ?_)
    | ((with_reducible refine foot_wclkLost ?_ ?m); (case m => exact List.Subset.trans (by decide) hp))
    | with_reducible refine foot_fst (by with_reducible assumption) ?_
    | with_reducible refine foot_snd (by with_reducible assumption) ?_
    | split
    | with_reducible refine foot_foldl (fun u a hu => ?_) ?_

theorem foot_execWclkQualified {ps : List Part} {s0 s : State} {mHz : Word} (h : Foot ps s0 s) (hp : [.time, .hbi, .trace, .draw] ⊆ ps) :
    OFoot ps s0 (execWclkQualified mHz s) := by
  unfold execWclkQualified
  repeat' first
    | with_reducible exact h
    | with_reducible assumption
    | with_reducible refine OFoot.next ?_
    | (extract_lets +onlyGivenNames y; first
       | (have e : y = _ := rfl; clear_value y; refine (fun hy => ?_ : Foot ps s0 y → _) ?_; (clear e); (subst e))
       | subst y)
    | with_reducible refine OFoot.ite (fun _ => ?_) (fun _ => ?_)
    | with_reducible refine foot_ite (fun _ => ?_) (fun _ => ?_)
    | ((with_reducible refine foot_wclkLost ?_ ?m); (case m => exact List.Subset.trans (by decide) hp))
    | ((with_reducible refine foot_refUpdate ?_ ?m); (case m => exact List.Subset.trans (by decide) hp))
    | ((with_reducible refine foot_raise ?_ ?m); (case m => exact List.Subset.trans (by decide) hp))
    | ((with_reducible refine foot_onTime ?_ ?m ?k); (case k => first | exact (fun k => k) | exact (Time.ok_ticksOn _) | exact (fun k => Time.ok_endSlew k.2.2.1 k) | exact (fun k => Time.ok_endSlew k.2.2.2.1 k) | exact (fun k => ⟨k.1, k.2.1, k.2.2.1, k.2.2.2.1, k.2.2.2.2.1, fun _ hx => nomatch hx, Nat.zero_le _⟩) | exact Time.ok_hoPush); (case m => exact hp (by decide)))
    | with_reducible refine foot_fst (by with_reducible assumption) ?_
    | with_reducible refine foot_snd (by with_reducible assumption) ?_
    | split
    | with_reducible refine foot_foldl (fun u a hu => ?_) ?_

theorem foot_execStartTrigger {ps : List Part} {s0 s : State}  (h : Foot ps s0 s) (hp : [.time, .hbi, .dap, .mem, .trace] ⊆ ps) :
    OFoot ps s0 (execStartTrigger s) := by
  unfold execStartTrigger
  repeat' first
    | with_reducible exact h
    | with_reducible assumption
    | with_reducible refine OFoot.next ?_
    | (extract_lets +onlyGivenNames y; first
       | (have e : y = _ := rfl; clear_value y; refine (fun hy => ?_ : Foot ps s0 y → _) ?_; (clear e); (subst e))
       | subst y)
    | with_reducible refine OFoot.ite (fun _ => ?_) (fun _ => ?_)
    | with_reducible refine foot_ite (fun _ => ?_) (fun _ => ?_)
    | ((with_reducible refine foot_finishTrigger ?_ ?m); (case m => exact List.Subset.trans (by decide) hp))
    | with_reducible refine foot_fst (by with_reducible assumption) ?_
    | with_reducible refine foot_snd (by with_reducible assumption) ?_
    | split
    | with_reducible refine foot_foldl (fun u a hu => ?_) ?_

theorem foot_execTriggerPointReceived {ps : List Part} {s0 s : State} {p : PointIn} {k : Fin 24} (h : Foot ps s0 s) (hp : [.time, .hbi, .dap, .imdal, .mem, .trace] ⊆ ps) :
    OFoot ps s0 (execTriggerPointReceived p k s) := by
  unfold execTriggerPointReceived
  repeat' first
    | with_reducible exact h
    | with_reducible assumption
    | with_reducible refine OFoot.next ?_
    | (extract_lets +onlyGivenNames y; first
       | (have e : y = _ := rfl; clear_value y; refine (fun hy => ?_ : Foot ps s0 y → _) ?_; (clear e); (subst e))
       | subst y)
    | with_reducible refine OFoot.ite (fun _ => ?_) (fun _ => ?_)
    | with_reducible refine foot_ite (fun _ => ?_) (fun _ => ?_)
    | ((with_reducible refine foot_passPoint ?_ ?m); (case m => exact List.Subset.trans (by decide) hp))
    | ((with_reducible refine foot_pointHeard ?_ ?m); (case m => exact List.Subset.trans (by decide) hp))
    | with_reducible refine foot_fst (by with_reducible assumption) ?_
    | with_reducible refine foot_snd (by with_reducible assumption) ?_
    | split
    | with_reducible refine foot_foldl (fun u a hu => ?_) ?_

end Sys2Proof.Machine
end

