-- ==== Sys2Proof/Laws/FootPower.lean ====
section
/-! SUPPORT. Footprints of the operations of Machine/Power.lean: the parts each may change, and that it keeps what every
step keeps. -/

namespace Sys2Proof.Machine

set_option Elab.async false

theorem foot_hubLost {ps : List Part} {s0 s : State}  (h : Foot ps s0 s) (hp : [.mem] ⊆ ps) :
    Foot ps s0 (State.hubLost s) := by
  unfold State.hubLost
  repeat' first
    | with_reducible exact h
    | with_reducible assumption
    | (extract_lets +onlyGivenNames y; first
       | (have e : y = _ := rfl; clear_value y; refine (fun hy => ?_ : Foot ps s0 y → _) ?_; (clear e); (subst e))
       | subst y)
    | with_reducible refine foot_ite (fun _ => ?_) (fun _ => ?_)
    | ((with_reducible refine foot_onMem ?_ ?m ?k); (case k => first | exact (fun k => k) | exact (Memory.ok_foldl (fun _ _ h => Memory.ok_putPantry h)) | exact Memory.ok_putSram | exact Memory.ok_putPantry | exact BlockAt.ok_put | exact (fun k => ⟨Memory.putBytes_wf k.1, k.2⟩) | exact (fun k => ⟨k.1, Memory.putBytes_wf k.2.1, k.2.2⟩) | exact (fun k => ⟨Memory.writeBytes_wf k.1, k.2⟩) | exact (fun k => ⟨k.1, Memory.writeBytes_wf k.2.1, k.2.2⟩) | exact (fun k => ⟨Memory.writeWord_wf k.1, k.2⟩) | exact (fun k => ⟨k.1, Memory.writeWord_wf k.2.1, k.2.2⟩) | exact (fun k => ⟨Memory.clear_wf k.1, k.2⟩) | exact (fun k => ⟨k.1, k.2.1, slotsOk_put _ k.2.2⟩) | exact (fun k => ⟨k.1, Memory.foldl_wf (fun _ _ h => Memory.writeBytes_wf h) k.2.1, k.2.2⟩)); (case m => exact hp (by decide)))
    | with_reducible refine foot_fst (by with_reducible assumption) ?_
    | with_reducible refine foot_snd (by with_reducible assumption) ?_
    | split
    | with_reducible refine foot_foldl (fun u a hu => ?_) ?_

theorem foot_mgmtLost {ps : List Part} {s0 s : State}  (h : Foot ps s0 s) (hp : [.cmd, .line, .tiles, .mem, .boot, .shown] ⊆ ps) :
    Foot ps s0 (State.mgmtLost s) := by
  unfold State.mgmtLost
  extract_lets +onlyGivenNames a b c d e
  have h1 : Foot ps s0 a := foot_shownOk h (hp (by decide))
  clear_value a
  have h2 : Foot ps s0 b := foot_onMem h1 (hp (by decide)) fun k => ⟨rfl, k.2.1, List.nodup_nil⟩
  clear_value b
  have h3 : Foot ps s0 c := foot_onLine h2 (hp (by decide)) fun _ => List.nodup_nil
  clear_value c
  have h4 : Foot ps s0 d := foot_onTiles h3 (hp (by decide)) fun _ => List.nodup_nil
  clear_value d
  have h5 : Foot ps s0 e := foot_onBoot h4 (hp (by decide))
  clear_value e
  exact foot_onCmd h5 (hp (by decide)) fun _ => Nat.zero_le _

theorem foot_pwrSetChecked {ps : List Part} {s0 s : State} {x : Ctx} (h : Foot ps s0 s) (hp : [] ⊆ ps) :
    VFoot ps s0 (pwrSetChecked x s) := by
  unfold pwrSetChecked
  repeat' first
    | with_reducible exact h
    | with_reducible assumption
    | with_reducible exact VFoot.reject _
    | with_reducible exact VFoot.wait _
    | with_reducible refine VFoot.config ?_
    | with_reducible refine VFoot.done ?_
    | with_reducible refine VFoot.later ?_
    | (extract_lets +onlyGivenNames y; first
       | (have e : y = _ := rfl; clear_value y; refine (fun hy => ?_ : Foot ps s0 y → _) ?_; (clear e); (subst e))
       | subst y)
    | with_reducible refine VFoot.ite (fun _ => ?_) (fun _ => ?_)
    | with_reducible refine foot_ite (fun _ => ?_) (fun _ => ?_)
    | with_reducible refine foot_fst (by with_reducible assumption) ?_
    | with_reducible refine foot_snd (by with_reducible assumption) ?_
    | split
    | with_reducible refine foot_foldl (fun u a hu => ?_) ?_

theorem foot_applyPower {ps : List Part} {s0 s : State} {c : Change} (h : Foot ps s0 s) (hp : [.line, .power] ⊆ ps) :
    Foot ps s0 (State.applyPower s c) := by
  unfold State.applyPower
  repeat' first
    | with_reducible exact h
    | with_reducible assumption
    | (extract_lets +onlyGivenNames y; first
       | (have e : y = _ := rfl; clear_value y; refine (fun hy => ?_ : Foot ps s0 y → _) ?_; (clear e); (subst e))
       | subst y)
    | with_reducible refine foot_ite (fun _ => ?_) (fun _ => ?_)
    | ((with_reducible refine foot_onDom ?_ ?m); (case m => exact List.Subset.trans (by decide) hp))
    | ((with_reducible refine foot_onBank ?_ ?m); (case m => exact List.Subset.trans (by decide) hp))
    | ((with_reducible refine foot_onPower ?_ ?m); (case m => exact hp (by decide)))
    | with_reducible refine foot_fst (by with_reducible assumption) ?_
    | with_reducible refine foot_snd (by with_reducible assumption) ?_
    | split
    | with_reducible refine foot_foldl (fun u a hu => ?_) ?_

theorem foot_bankLost {ps : List Part} {s0 s : State} {b : Nat} (h : Foot ps s0 s) (hp : [.line] ⊆ ps) :
    Foot ps s0 (State.bankLost s b) := by
  unfold State.bankLost
  repeat' first
    | with_reducible exact h
    | with_reducible assumption
    | (extract_lets +onlyGivenNames y; first
       | (have e : y = _ := rfl; clear_value y; refine (fun hy => ?_ : Foot ps s0 y → _) ?_; (clear e); (subst e))
       | subst y)
    | with_reducible refine foot_ite (fun _ => ?_) (fun _ => ?_)
    | with_reducible refine foot_forAll (fun u a hu => ?_) ?_
    | ((with_reducible refine foot_onPort ?_ ?m); (case m => exact List.Subset.trans (by decide) hp))
    | with_reducible refine foot_fst (by with_reducible assumption) ?_
    | with_reducible refine foot_snd (by with_reducible assumption) ?_
    | split
    | with_reducible refine foot_foldl (fun u a hu => ?_) ?_

theorem foot_bootStart {ps : List Part} {s0 s : State}  (h : Foot ps s0 s) (hp : [.power, .boot] ⊆ ps) :
    Foot ps s0 (State.bootStart s) := by
  unfold State.bootStart
  repeat' first
    | with_reducible exact h
    | with_reducible assumption
    | (extract_lets +onlyGivenNames y; first
       | (have e : y = _ := rfl; clear_value y; refine (fun hy => ?_ : Foot ps s0 y → _) ?_; (clear e); (subst e))
       | subst y)
    | with_reducible refine foot_ite (fun _ => ?_) (fun _ => ?_)
    | ((with_reducible refine foot_onDom ?_ ?m); (case m => exact List.Subset.trans (by decide) hp))
    | ((with_reducible refine foot_onBoot ?_ ?m); (case m => exact hp (by decide)))
    | with_reducible refine foot_fst (by with_reducible assumption) ?_
    | with_reducible refine foot_snd (by with_reducible assumption) ?_
    | split
    | with_reducible refine foot_foldl (fun u a hu => ?_) ?_

theorem foot_bringForward {ps : List Part} {s0 s : State} {d : Nat} (h : Foot ps s0 s) (hp : [.net] ⊆ ps) :
    Foot ps s0 (State.bringForward s d) := by
  unfold State.bringForward
  repeat' first
    | with_reducible exact h
    | with_reducible assumption
    | (extract_lets +onlyGivenNames y; first
       | (have e : y = _ := rfl; clear_value y; refine (fun hy => ?_ : Foot ps s0 y → _) ?_; (clear e); (subst e))
       | subst y)
    | with_reducible refine foot_ite (fun _ => ?_) (fun _ => ?_)
    | ((with_reducible refine foot_onNetP ?_ ?m); (case m => exact List.Subset.trans (by decide) hp))
    | with_reducible refine foot_fst (by with_reducible assumption) ?_
    | with_reducible refine foot_snd (by with_reducible assumption) ?_
    | split
    | with_reducible refine foot_foldl (fun u a hu => ?_) ?_

theorem foot_domLost {ps : List Part} {s0 s : State} {d : Nat} (h : Foot ps s0 s) (hp : [.cmd, .line, .tiles, .mem, .power, .boot, .shown] ⊆ ps) :
    Foot ps s0 (State.domLost s d) := by
  unfold State.domLost
  repeat' first
    | with_reducible exact h
    | with_reducible assumption
    | (extract_lets +onlyGivenNames y; first
       | (have e : y = _ := rfl; clear_value y; refine (fun hy => ?_ : Foot ps s0 y → _) ?_; (clear e); (subst e))
       | subst y)
    | with_reducible refine foot_ite (fun _ => ?_) (fun _ => ?_)
    | ((with_reducible refine foot_onDom ?_ ?m); (case m => exact List.Subset.trans (by decide) hp))
    | ((with_reducible refine foot_mgmtLost ?_ ?m); (case m => exact List.Subset.trans (by decide) hp))
    | ((with_reducible refine foot_hubLost ?_ ?m); (case m => exact List.Subset.trans (by decide) hp))
    | ((with_reducible refine foot_bankLost ?_ ?m); (case m => exact List.Subset.trans (by decide) hp))
    | with_reducible refine foot_fst (by with_reducible assumption) ?_
    | with_reducible refine foot_snd (by with_reducible assumption) ?_
    | split
    | with_reducible refine foot_foldl (fun u a hu => ?_) ?_

theorem foot_entryComplete {ps : List Part} {s0 s : State} {d : Nat} (h : Foot ps s0 s) (hp : [.hbi, .cmd, .line, .tiles, .mem, .power, .boot, .trace, .draw, .shown] ⊆ ps) :
    Foot ps s0 (State.entryComplete s d) := by
  unfold State.entryComplete
  repeat' first
    | with_reducible exact h
    | with_reducible assumption
    | (extract_lets +onlyGivenNames y; first
       | (have e : y = _ := rfl; clear_value y; refine (fun hy => ?_ : Foot ps s0 y → _) ?_; (clear e); (subst e))
       | subst y)
    | with_reducible refine foot_ite (fun _ => ?_) (fun _ => ?_)
    | ((with_reducible refine foot_onDom ?_ ?m); (case m => exact List.Subset.trans (by decide) hp))
    | ((with_reducible refine foot_domChanged ?_ ?m); (case m => exact List.Subset.trans (by decide) hp))
    | ((with_reducible refine foot_domLost ?_ ?m); (case m => exact List.Subset.trans (by decide) hp))
    | with_reducible refine foot_fst (by with_reducible assumption) ?_
    | with_reducible refine foot_snd (by with_reducible assumption) ?_
    | split
    | with_reducible refine foot_foldl (fun u a hu => ?_) ?_

theorem foot_writeShelf {ps : List Part} {s0 s : State} {v : BitVec 22} (h : Foot ps s0 s) (hp : [.hbi, .power, .trace] ⊆ ps) :
    Foot ps s0 (State.writeShelf s v) := by
  unfold State.writeShelf
  repeat' first
    | with_reducible exact h
    | with_reducible assumption
    | (extract_lets +onlyGivenNames y; first
       | (have e : y = _ := rfl; clear_value y; refine (fun hy => ?_ : Foot ps s0 y → _) ?_; (clear e); (subst e))
       | subst y)
    | with_reducible refine foot_ite (fun _ => ?_) (fun _ => ?_)
    | with_reducible refine foot_forAll (fun u a hu => ?_) ?_
    | ((with_reducible refine foot_wake ?_ ?m); (case m => exact List.Subset.trans (by decide) hp))
    | ((with_reducible refine foot_onPower ?_ ?m); (case m => exact hp (by decide)))
    | with_reducible refine foot_fst (by with_reducible assumption) ?_
    | with_reducible refine foot_snd (by with_reducible assumption) ?_
    | split
    | with_reducible refine foot_foldl (fun u a hu => ?_) ?_

theorem foot_writeVote {ps : List Part} {s0 s : State} {v : BitVec 22} (h : Foot ps s0 s) (hp : [.hbi, .power, .trace] ⊆ ps) :
    Foot ps s0 (State.writeVote s v) := by
  unfold State.writeVote
  repeat' first
    | with_reducible exact h
    | with_reducible assumption
    | (extract_lets +onlyGivenNames y; first
       | (have e : y = _ := rfl; clear_value y; refine (fun hy => ?_ : Foot ps s0 y → _) ?_; (clear e); (subst e))
       | subst y)
    | with_reducible refine foot_ite (fun _ => ?_) (fun _ => ?_)
    | with_reducible refine foot_forAll (fun u a hu => ?_) ?_
    | ((with_reducible refine foot_wake ?_ ?m); (case m => exact List.Subset.trans (by decide) hp))
    | ((with_reducible refine foot_onPower ?_ ?m); (case m => exact hp (by decide)))
    | with_reducible refine foot_fst (by with_reducible assumption) ?_
    | with_reducible refine foot_snd (by with_reducible assumption) ?_
    | split
    | with_reducible refine foot_foldl (fun u a hu => ?_) ?_

theorem foot_execDomainWake {ps : List Part} {s0 s : State} {d : DomIx} (h : Foot ps s0 s) (hp : [.hbi, .power, .trace] ⊆ ps) :
    OFoot ps s0 (execDomainWake d s) := by
  unfold execDomainWake
  repeat' first
    | with_reducible exact h
    | with_reducible assumption
    | with_reducible refine OFoot.next ?_
    | (extract_lets +onlyGivenNames y; first
       | (have e : y = _ := rfl; clear_value y; refine (fun hy => ?_ : Foot ps s0 y → _) ?_; (clear e); (subst e))
       | subst y)
    | with_reducible refine OFoot.ite (fun _ => ?_) (fun _ => ?_)
    | with_reducible refine foot_ite (fun _ => ?_) (fun _ => ?_)
    | ((with_reducible refine foot_wake ?_ ?m); (case m => exact List.Subset.trans (by decide) hp))
    | with_reducible refine foot_fst (by with_reducible assumption) ?_
    | with_reducible refine foot_snd (by with_reducible assumption) ?_
    | split
    | with_reducible refine foot_foldl (fun u a hu => ?_) ?_

theorem foot_finishEntries {ps : List Part} {s0 s : State}  (h : Foot ps s0 s) (hp : [.hbi, .cmd, .line, .tiles, .mem, .power, .boot, .trace, .draw, .shown] ⊆ ps) :
    Foot ps s0 (State.finishEntries s) := by
  unfold State.finishEntries
  repeat' first
    | with_reducible exact h
    | with_reducible assumption
    | (extract_lets +onlyGivenNames y; first
       | (have e : y = _ := rfl; clear_value y; refine (fun hy => ?_ : Foot ps s0 y → _) ?_; (clear e); (subst e))
       | subst y)
    | with_reducible refine foot_ite (fun _ => ?_) (fun _ => ?_)
    | with_reducible refine foot_forAll (fun u a hu => ?_) ?_
    | ((with_reducible refine foot_entryComplete ?_ ?m); (case m => exact List.Subset.trans (by decide) hp))
    | with_reducible refine foot_fst (by with_reducible assumption) ?_
    | with_reducible refine foot_snd (by with_reducible assumption) ?_
    | split
    | with_reducible refine foot_foldl (fun u a hu => ?_) ?_

theorem foot_execDomainEntryComplete {ps : List Part} {s0 s : State} {d : DomIx} (h : Foot ps s0 s) (hp : [.hbi, .cmd, .line, .tiles, .mem, .power, .boot, .trace, .draw, .shown] ⊆ ps) :
    OFoot ps s0 (execDomainEntryComplete d s) := by
  unfold execDomainEntryComplete
  repeat' first
    | with_reducible exact h
    | with_reducible assumption
    | with_reducible refine OFoot.next ?_
    | (extract_lets +onlyGivenNames y; first
       | (have e : y = _ := rfl; clear_value y; refine (fun hy => ?_ : Foot ps s0 y → _) ?_; (clear e); (subst e))
       | subst y)
    | with_reducible refine OFoot.ite (fun _ => ?_) (fun _ => ?_)
    | with_reducible refine foot_ite (fun _ => ?_) (fun _ => ?_)
    | ((with_reducible refine foot_entryComplete ?_ ?m); (case m => exact List.Subset.trans (by decide) hp))
    | with_reducible refine foot_fst (by with_reducible assumption) ?_
    | with_reducible refine foot_snd (by with_reducible assumption) ?_
    | split
    | with_reducible refine foot_foldl (fun u a hu => ?_) ?_

theorem foot_failWaiting {ps : List Part} {s0 s : State} {d : Nat} (h : Foot ps s0 s) (hp : [.hbi, .cmd, .mem, .trace, .draw] ⊆ ps) :
    Foot ps s0 (State.failWaiting s d) := by
  unfold State.failWaiting
  repeat' first
    | with_reducible exact h
    | with_reducible assumption
    | (extract_lets +onlyGivenNames y; first
       | (have e : y = _ := rfl; clear_value y; refine (fun hy => ?_ : Foot ps s0 y → _) ?_; (clear e); (subst e))
       | subst y)
    | with_reducible refine foot_ite (fun _ => ?_) (fun _ => ?_)
    | ((with_reducible refine foot_rejectCmd ?_ ?m); (case m => exact List.Subset.trans (by decide) hp))
    | ((with_reducible refine foot_onCmd ?_ ?m ?k); (case k => first | exact (fun k => k) | exact (fun _ => List.length_take_le ..)); (case m => exact hp (by decide)))
    | with_reducible refine foot_fst (by with_reducible assumption) ?_
    | with_reducible refine foot_snd (by with_reducible assumption) ?_
    | split
    | with_reducible refine foot_foldl (fun u a hu => ?_) ?_

theorem foot_pantryZero {ps : List Part} {s0 s : State}  (h : Foot ps s0 s) (hp : [.hbi, .mix, .echo, .vad, .hum, .line, .dap, .net, .media, .mem, .power, .trace, .draw] ⊆ ps) :
    Foot ps s0 (State.pantryZero s) := by
  have key : ∀ (x : Line) a b c d e f g, x.Ok → Line.Ok { x with
      cfg := a, card0 := b, card1 := c, card2 := d, card3 := e, card4 := f, card5 := g } := fun _ _ _ _ _ _ _ _ k => k
  unfold State.pantryZero
  extract_lets +onlyGivenNames a b c d e f g j
  have h1 : Foot ps s0 a := foot_onMem h (hp (by decide)) fun k => ⟨k.1, rfl, k.2.2⟩
  clear_value a
  have h2 : Foot ps s0 b := foot_forAll
    (fun u p hu => foot_ite (fun _ => hu) fun _ => foot_portPower hu (List.Subset.trans (by decide) hp)) h1
  clear_value b
  have h3 : Foot ps s0 c := foot_onLine h2 (hp (by decide)) (key _ _ _ _ _ _ _ _)
  clear_value c
  have h4 : Foot ps s0 d := foot_onMix h3 (hp (by decide))
  clear_value d
  have h5 : Foot ps s0 e := foot_onHum (foot_onVad (foot_onEcho h4 (hp (by decide))) (hp (by decide))) (hp (by decide))
  clear_value e
  have h6 : Foot ps s0 f := foot_onMedia (foot_onDap h5 (hp (by decide))) (hp (by decide))
  clear_value f
  have h7 : Foot ps s0 g := foot_onNet h6 (hp (by decide))
  clear_value g
  have h9 : Foot ps s0 j := foot_onPower h7 (hp (by decide))
  clear_value j
  exact foot_forAll (fun u b hu => foot_onBank hu (List.Subset.trans (by decide) hp)) h9

theorem foot_releaseBanks {ps : List Part} {s0 s : State}  (h : Foot ps s0 s) (hp : [.hbi, .line, .trace, .draw] ⊆ ps) :
    Foot ps s0 (State.releaseBanks s) := by
  unfold State.releaseBanks
  repeat' first
    | with_reducible exact h
    | with_reducible assumption
    | (extract_lets +onlyGivenNames y; first
       | (have e : y = _ := rfl; clear_value y; refine (fun hy => ?_ : Foot ps s0 y → _) ?_; (clear e); (subst e))
       | subst y)
    | with_reducible refine foot_ite (fun _ => ?_) (fun _ => ?_)
    | with_reducible refine foot_forAll (fun u a hu => ?_) ?_
    | ((with_reducible refine foot_bankRelease ?_ ?m); (case m => exact List.Subset.trans (by decide) hp))
    | with_reducible refine foot_fst (by with_reducible assumption) ?_
    | with_reducible refine foot_snd (by with_reducible assumption) ?_
    | split
    | with_reducible refine foot_foldl (fun u a hu => ?_) ?_

theorem foot_domDown {ps : List Part} {s0 s : State} {d : Nat} (h : Foot ps s0 s) (hp : [.time, .hbi, .mix, .net, .media, .imdal, .tiles, .power, .trace, .draw] ⊆ ps) :
    Foot ps s0 (State.domDown s d) := by
  unfold State.domDown
  repeat' first
    | with_reducible exact h
    | with_reducible assumption
    | (extract_lets +onlyGivenNames y; first
       | (have e : y = _ := rfl; clear_value y; refine (fun hy => ?_ : Foot ps s0 y → _) ?_; (clear e); (subst e))
       | subst y)
    | with_reducible refine foot_ite (fun _ => ?_) (fun _ => ?_)
    | ((with_reducible refine foot_linkTo ?_ ?m); (case m => exact List.Subset.trans (by decide) hp))
    | ((with_reducible refine foot_ptpSwap ?_ ?m); (case m => exact List.Subset.trans (by decide) hp))
    | ((with_reducible refine foot_onNetP ?_ ?m); (case m => exact List.Subset.trans (by decide) hp))
    | ((with_reducible refine foot_imdalOff ?_ ?m); (case m => exact List.Subset.trans (by decide) hp))
    | ((with_reducible refine foot_onTiles ?_ ?m ?k); (case k => first | exact (fun k => k) | exact (slotsOk_put _)); (case m => exact hp (by decide)))
    | with_reducible refine foot_fst (by with_reducible assumption) ?_
    | with_reducible refine foot_snd (by with_reducible assumption) ?_
    | split
    | with_reducible refine foot_foldl (fun u a hu => ?_) ?_

theorem foot_domUp {ps : List Part} {s0 s : State} {d : Nat} {lost : Bool} (h : Foot ps s0 s) (hp : [.hbi, .mix, .echo, .vad, .hum, .line, .dap, .net, .media, .mem, .power, .trace, .draw] ⊆ ps) :
    Foot ps s0 (State.domUp s d lost) := by
  unfold State.domUp
  repeat' first
    | with_reducible exact h
    | with_reducible assumption
    | (extract_lets +onlyGivenNames y; first
       | (have e : y = _ := rfl; clear_value y; refine (fun hy => ?_ : Foot ps s0 y → _) ?_; (clear e); (subst e))
       | subst y)
    | with_reducible refine foot_ite (fun _ => ?_) (fun _ => ?_)
    | ((with_reducible refine foot_bringForward ?_ ?m); (case m => exact List.Subset.trans (by decide) hp))
    | ((with_reducible refine foot_pantryZero ?_ ?m); (case m => exact List.Subset.trans (by decide) hp))
    | ((with_reducible refine foot_negotiate ?_ ?m); (case m => exact List.Subset.trans (by decide) hp))
    | with_reducible refine foot_fst (by with_reducible assumption) ?_
    | with_reducible refine foot_snd (by with_reducible assumption) ?_
    | split
    | with_reducible refine foot_foldl (fun u a hu => ?_) ?_

theorem foot_execPowerupFailure {ps : List Part} {s0 s : State} {d : DomIx} (h : Foot ps s0 s) (hp : [.hbi, .cmd, .line, .tiles, .mem, .power, .boot, .trace, .draw, .shown] ⊆ ps) :
    OFoot ps s0 (execPowerupFailure d s) := by
  unfold execPowerupFailure
  repeat' first
    | with_reducible exact h
    | with_reducible assumption
    | with_reducible refine OFoot.next ?_
    | (extract_lets +onlyGivenNames y; first
       | (have e : y = _ := rfl; clear_value y; refine (fun hy => ?_ : Foot ps s0 y → _) ?_; (clear e); (subst e))
       | subst y)
    | with_reducible refine OFoot.ite (fun _ => ?_) (fun _ => ?_)
    | with_reducible refine foot_ite (fun _ => ?_) (fun _ => ?_)
    | ((with_reducible refine foot_onDom ?_ ?m); (case m => exact List.Subset.trans (by decide) hp))
    | ((with_reducible refine foot_failWaiting ?_ ?m); (case m => exact List.Subset.trans (by decide) hp))
    | ((with_reducible refine foot_domLost ?_ ?m); (case m => exact List.Subset.trans (by decide) hp))
    | ((with_reducible refine foot_domChanged ?_ ?m); (case m => exact List.Subset.trans (by decide) hp))
    | ((with_reducible refine foot_onPower ?_ ?m); (case m => exact hp (by decide)))
    | with_reducible refine foot_fst (by with_reducible assumption) ?_
    | with_reducible refine foot_snd (by with_reducible assumption) ?_
    | split
    | with_reducible refine foot_foldl (fun u a hu => ?_) ?_

theorem foot_domIsOn {ps : List Part} {s0 s : State} {d : Nat} (h : Foot ps s0 s) (hp : [.hbi, .mix, .echo, .vad, .hum, .line, .dap, .net, .media, .mem, .power, .boot, .trace, .draw] ⊆ ps) :
    Foot ps s0 (State.domIsOn s d) := by
  unfold State.domIsOn
  repeat' first
    | with_reducible exact h
    | with_reducible assumption
    | (extract_lets +onlyGivenNames y; first
       | (have e : y = _ := rfl; clear_value y; refine (fun hy => ?_ : Foot ps s0 y → _) ?_; (clear e); (subst e))
       | subst y)
    | with_reducible refine foot_ite (fun _ => ?_) (fun _ => ?_)
    | ((with_reducible refine foot_onDom ?_ ?m); (case m => exact List.Subset.trans (by decide) hp))
    | ((with_reducible refine foot_bootStart ?_ ?m); (case m => exact List.Subset.trans (by decide) hp))
    | ((with_reducible refine foot_domChanged ?_ ?m); (case m => exact List.Subset.trans (by decide) hp))
    | ((with_reducible refine foot_domUp ?_ ?m); (case m => exact List.Subset.trans (by decide) hp))
    | ((with_reducible refine foot_onPower ?_ ?m); (case m => exact hp (by decide)))
    | with_reducible refine foot_fst (by with_reducible assumption) ?_
    | with_reducible refine foot_snd (by with_reducible assumption) ?_
    | split
    | with_reducible refine foot_foldl (fun u a hu => ?_) ?_

theorem foot_enterDom {ps : List Part} {s0 s : State} {d : Nat} {st : DomState} (h : Foot ps s0 s) (hp : [.time, .hbi, .mix, .line, .net, .media, .imdal, .tiles, .power, .trace, .draw] ⊆ ps) :
    Foot ps s0 (State.enterDom s d st) := by
  unfold State.enterDom
  repeat' first
    | with_reducible exact h
    | with_reducible assumption
    | (extract_lets +onlyGivenNames y; first
       | (have e : y = _ := rfl; clear_value y; refine (fun hy => ?_ : Foot ps s0 y → _) ?_; (clear e); (subst e))
       | subst y)
    | with_reducible refine foot_ite (fun _ => ?_) (fun _ => ?_)
    | ((with_reducible refine foot_bankHold ?_ ?m); (case m => exact List.Subset.trans (by decide) hp))
    | ((with_reducible refine foot_onDom ?_ ?m); (case m => exact List.Subset.trans (by decide) hp))
    | ((with_reducible refine foot_domDown ?_ ?m); (case m => exact List.Subset.trans (by decide) hp))
    | with_reducible refine foot_fst (by with_reducible assumption) ?_
    | with_reducible refine foot_snd (by with_reducible assumption) ?_
    | split
    | with_reducible refine foot_foldl (fun u a hu => ?_) ?_

theorem foot_moveDom {ps : List Part} {s0 s : State} {d : Nat} {st : DomState} (h : Foot ps s0 s) (hp : [.time, .hbi, .mix, .line, .net, .media, .imdal, .tiles, .power, .trace, .draw] ⊆ ps) :
    Foot ps s0 (State.moveDom s d st) := by
  unfold State.moveDom
  repeat' first
    | with_reducible exact h
    | with_reducible assumption
    | (extract_lets +onlyGivenNames y; first
       | (have e : y = _ := rfl; clear_value y; refine (fun hy => ?_ : Foot ps s0 y → _) ?_; (clear e); (subst e))
       | subst y)
    | with_reducible refine foot_ite (fun _ => ?_) (fun _ => ?_)
    | ((with_reducible refine foot_wake ?_ ?m); (case m => exact List.Subset.trans (by decide) hp))
    | ((with_reducible refine foot_onDom ?_ ?m); (case m => exact List.Subset.trans (by decide) hp))
    | ((with_reducible refine foot_enterDom ?_ ?m); (case m => exact List.Subset.trans (by decide) hp))
    | with_reducible refine foot_fst (by with_reducible assumption) ?_
    | with_reducible refine foot_snd (by with_reducible assumption) ?_
    | split
    | with_reducible refine foot_foldl (fun u a hu => ?_) ?_

theorem foot_execPowerupStepReady {ps : List Part} {s0 s : State} {d : DomIx} (h : Foot ps s0 s) (hp : [.hbi, .mix, .echo, .vad, .hum, .line, .dap, .net, .media, .mem, .power, .boot, .trace, .draw] ⊆ ps) :
    OFoot ps s0 (execPowerupStepReady d s) := by
  unfold execPowerupStepReady
  repeat' first
    | with_reducible exact h
    | with_reducible assumption
    | with_reducible refine OFoot.next ?_
    | (extract_lets +onlyGivenNames y; first
       | (have e : y = _ := rfl; clear_value y; refine (fun hy => ?_ : Foot ps s0 y → _) ?_; (clear e); (subst e))
       | subst y)
    | with_reducible refine OFoot.ite (fun _ => ?_) (fun _ => ?_)
    | with_reducible refine foot_ite (fun _ => ?_) (fun _ => ?_)
    | ((with_reducible refine foot_domIsOn ?_ ?m); (case m => exact List.Subset.trans (by decide) hp))
    | ((with_reducible refine foot_domChanged ?_ ?m); (case m => exact List.Subset.trans (by decide) hp))
    | ((with_reducible refine foot_onDom ?_ ?m); (case m => exact List.Subset.trans (by decide) hp))
    | ((with_reducible refine foot_bootStart ?_ ?m); (case m => exact List.Subset.trans (by decide) hp))
    | with_reducible refine foot_fst (by with_reducible assumption) ?_
    | with_reducible refine foot_snd (by with_reducible assumption) ?_
    | split
    | with_reducible refine foot_foldl (fun u a hu => ?_) ?_

theorem foot_powerBoundary {ps : List Part} {s0 s : State}  (h : Foot ps s0 s) (hp : [.time, .hbi, .mix, .line, .net, .media, .imdal, .tiles, .power, .trace, .draw] ⊆ ps) :
    Foot ps s0 (State.powerBoundary s) := by
  unfold State.powerBoundary
  extract_lets +onlyGivenNames z a b c t d
  have h0 : Foot ps s0 z :=
    foot_ite (fun _ => foot_forAll (fun u b hu => foot_onBank hu (List.Subset.trans (by decide) hp)) h) (fun _ => h)
  clear_value z
  have h1 : Foot ps s0 a := foot_onPower h0 (hp (by decide))
  clear_value a
  have h2 : Foot ps s0 b := foot_onPower h1 (hp (by decide))
  clear_value b
  have h3 : Foot ps s0 c := foot_forAll (fun u p hu => foot_onDom hu (List.Subset.trans (by decide) hp)) h2
  clear_value c t
  have h4 : Foot ps s0 d := foot_foldl (fun u p hu => foot_moveDom hu (List.Subset.trans (by decide) hp)) h3
  clear_value d
  exact foot_onTiles h4 (hp (by decide)) fun k => k

end Sys2Proof.Machine
end

