-- ==== Sys2Proof/Laws/FootTables.lean ====
section
/-! SUPPORT. Footprints of the operations of Machine/Tables.lean: the parts each may change, and that it keeps what every
step keeps. -/

namespace Sys2Proof.Machine

set_option Elab.async false

theorem foot_showTables {ps : List Part} {s0 s : State} {all : Bool} (h : Foot ps s0 s) (hp : [.shown] ⊆ ps) :
    Foot ps s0 (State.showTables s all) := by
  have key : Foot ps s0 (s.showTables all) ↔ Foot ps s0 s := by
    constructor
    all_goals
      rintro ⟨a, b⟩
      refine ⟨fun p hn => ?_, ?_⟩
      · have := a p hn
        cases p <;> first
          | exact absurd (hp (by decide)) hn
          | (unfold State.showTables at *; cases all <;> exact this)
      · unfold State.showTables at *
        cases all <;> exact b
  exact key.2 h

theorem foot_showBoundary {ps : List Part} {s0 s : State}  (h : Foot ps s0 s) (hp : [.shown] ⊆ ps) :
    Foot ps s0 (State.showBoundary s) := by
  unfold State.showBoundary
  refine foot_ite (fun _ => ?_) (fun _ => h)
  exact foot_shownOk (foot_showTables h (List.Subset.trans (by decide) hp)) (hp (by decide))

end Sys2Proof.Machine
end

