-- ==== Sys2Proof/Laws/FootReset.lean ====
section
/-! SUPPORT. Footprints of the resets: everything but the queue of waiting commands and the count of free values. -/

namespace Sys2Proof.Machine

set_option Elab.async false

/-- All parts but the queue and the count of free values. -/
def resetParts : List Part :=
  [.time, .hbi, .cmd, .mix, .echo, .vad, .hum, .line, .dap, .net, .media, .imdal, .tiles, .mem, .power, .boot, .trace, .shelf, .shown]

theorem ok_time_reset : Time.Ok {} := by
  refine ⟨by decide, ?_, ?_, ?_, rateSumOk_zero, by simp, by simp⟩ <;> exact rateOk_nominal

theorem ok_reset : State.reset.Ok := by
  refine ⟨ok_time_reset, ?_, ⟨rfl, rfl, ?_⟩, ?_, ?_, ?_⟩ <;>
    first | exact List.nodup_nil | exact Nat.zero_le _

theorem foot_inReset (s : State) : Foot resetParts s s.inReset := by
  refine ⟨fun p hn => ?_, fun _ => ok_reset⟩
  cases p <;> first | rfl | exact absurd (by decide) hn

theorem foot_powerOn (k : Straps) (s : State) : Foot resetParts s (s.powerOn k) := by
  refine ⟨fun p hn => ?_, fun _ => ok_reset⟩
  cases p <;> first | rfl | exact absurd (by decide) hn

theorem foot_execResetAssert (s : State) : OFoot resetParts s (execResetAssert s) := OFoot.next (foot_inReset s)
theorem foot_execCoreSupplyLow (s : State) : OFoot resetParts s (execCoreSupplyLow s) := OFoot.next (foot_inReset s)
theorem foot_execPowerOnReset (k : Straps) (s : State) : OFoot resetParts s (execPowerOnReset k s) :=
  OFoot.next (foot_powerOn k s)

end Sys2Proof.Machine
end

