-- ==== Sys2Proof/Laws/PerInstr.lean ====
section
/-! SUPPORT. Statements made command by command: no word spells a command of this block, since no row of the table gives bits. -/

namespace Sys2Proof.Laws.NoWord

set_option Elab.async false

/-- No word of any width spells the command. -/
def Statement (i : Instr) : Prop := ∀ n w, decodeTableWord n w ≠ some i

theorem nop (src : CmdSrc) : Statement (.nop src) := fun _ _ h => nomatch h
theorem undefinedOpcode (src : CmdSrc) : Statement (.undefinedOpcode src) := fun _ _ h => nomatch h
theorem legSet (src : CmdSrc) : Statement (.legSet src) := fun _ _ h => nomatch h
theorem legGet (src : CmdSrc) : Statement (.legGet src) := fun _ _ h => nomatch h
theorem legPause (src : CmdSrc) : Statement (.legPause src) := fun _ _ h => nomatch h
theorem grpSet (src : CmdSrc) : Statement (.grpSet src) := fun _ _ h => nomatch h
theorem grpGet (src : CmdSrc) : Statement (.grpGet src) := fun _ _ h => nomatch h
theorem keySet (src : CmdSrc) : Statement (.keySet src) := fun _ _ h => nomatch h
theorem portSet (src : CmdSrc) : Statement (.portSet src) := fun _ _ h => nomatch h
theorem portPower (src : CmdSrc) : Statement (.portPower src) := fun _ _ h => nomatch h
theorem portSound (src : CmdSrc) : Statement (.portSound src) := fun _ _ h => nomatch h
theorem callSend (src : CmdSrc) : Statement (.callSend src) := fun _ _ h => nomatch h
theorem cardBudget (src : CmdSrc) : Statement (.cardBudget src) := fun _ _ h => nomatch h
theorem dapSet (src : CmdSrc) : Statement (.dapSet src) := fun _ _ h => nomatch h
theorem dapStart (src : CmdSrc) : Statement (.dapStart src) := fun _ _ h => nomatch h
theorem streamSet (src : CmdSrc) : Statement (.streamSet src) := fun _ _ h => nomatch h
theorem streamPause (src : CmdSrc) : Statement (.streamPause src) := fun _ _ h => nomatch h
theorem shaperSet (src : CmdSrc) : Statement (.shaperSet src) := fun _ _ h => nomatch h
theorem policerSet (src : CmdSrc) : Statement (.policerSet src) := fun _ _ h => nomatch h
theorem ringSet (src : CmdSrc) : Statement (.ringSet src) := fun _ _ h => nomatch h
theorem imdalJoin (src : CmdSrc) : Statement (.imdalJoin src) := fun _ _ h => nomatch h
theorem timetableGet (src : CmdSrc) : Statement (.timetableGet src) := fun _ _ h => nomatch h
theorem pwrSet (src : CmdSrc) : Statement (.pwrSet src) := fun _ _ h => nomatch h
theorem rollCall (src : CmdSrc) : Statement (.rollCall src) := fun _ _ h => nomatch h
theorem snapshot (src : CmdSrc) : Statement (.snapshot src) := fun _ _ h => nomatch h
theorem commandWaitRelease : Statement .commandWaitRelease := fun _ _ h => nomatch h
theorem cringTailWrite (w : RegWrite) : Statement (.cringTailWrite w) := fun _ _ h => nomatch h
theorem cplHeadWrite (w : RegWrite) : Statement (.cplHeadWrite w) := fun _ _ h => nomatch h
theorem ringEnable (w : RegWrite) : Statement (.ringEnable w) := fun _ _ h => nomatch h
theorem ringDisable (w : RegWrite) : Statement (.ringDisable w) := fun _ _ h => nomatch h
theorem ehaltClear (w : RegWrite) : Statement (.ehaltClear w) := fun _ _ h => nomatch h
theorem winDataRead (inc : Bool) (env : BusEnv) : Statement (.winDataRead inc env) := fun _ _ h => nomatch h
theorem winDataWrite (inc : Bool) (w : RegWrite) (env : BusEnv) : Statement (.winDataWrite inc w env) := fun _ _ h => nomatch h
theorem halfwordLowAccess (dir : Dir) (reg : BitVec 7) (data : BitVec 16) (be : BitVec 2) (env : BusEnv) : Statement (.halfwordLowAccess dir reg data be env) := fun _ _ h => nomatch h
theorem halfwordHighAccess (dir : Dir) (reg : BitVec 7) (data : BitVec 16) (be : BitVec 2) (env : BusEnv) : Statement (.halfwordHighAccess dir reg data be env) := fun _ _ h => nomatch h
theorem unmappedAccess (dir : Dir) (reg : BitVec 8) : Statement (.unmappedAccess dir reg) := fun _ _ h => nomatch h
theorem regReadClear (reg : BitVec 8) : Statement (.regReadClear reg) := fun _ _ h => nomatch h
theorem regWrite (reg : BitVec 8) (w : RegWrite) : Statement (.regWrite reg w) := fun _ _ h => nomatch h
theorem timeCapture (w : RegWrite) : Statement (.timeCapture w) := fun _ _ h => nomatch h
theorem timeArm (w : RegWrite) : Statement (.timeArm w) := fun _ _ h => nomatch h
theorem timeIncrWrite (w : RegWrite) : Statement (.timeIncrWrite w) := fun _ _ h => nomatch h
theorem refSelWrite (w : RegWrite) : Statement (.refSelWrite w) := fun _ _ h => nomatch h
theorem fwGo (w : RegWrite) : Statement (.fwGo w) := fun _ _ h => nomatch h
theorem restart (w : RegWrite) : Statement (.restart w) := fun _ _ h => nomatch h
theorem take (w : RegWrite) : Statement (.take w) := fun _ _ h => nomatch h
theorem snap0 (w : RegWrite) : Statement (.snap0 w) := fun _ _ h => nomatch h
theorem snap1 (w : RegWrite) : Statement (.snap1 w) := fun _ _ h => nomatch h
theorem csnap (w : RegWrite) : Statement (.csnap w) := fun _ _ h => nomatch h
theorem traceCfgWrite (w : RegWrite) : Statement (.traceCfgWrite w) := fun _ _ h => nomatch h
theorem pwrVoteWrite (w : RegWrite) : Statement (.pwrVoteWrite w) := fun _ _ h => nomatch h
theorem ltolWrite (w : RegWrite) : Statement (.ltolWrite w) := fun _ _ h => nomatch h
theorem sspRead (count : Nat) : Statement (.sspRead count) := fun _ _ h => nomatch h
theorem sspWrite (bytes : List Byte) : Statement (.sspWrite bytes) := fun _ _ h => nomatch h
theorem bell (addr : BitVec 7) : Statement (.bell addr) := fun _ _ h => nomatch h
theorem periodBoundary (m : PeriodInput) : Statement (.periodBoundary m) := fun _ _ h => nomatch h
theorem partialSumCutoff (missing : List TileIx) : Statement (.partialSumCutoff missing) := fun _ _ h => nomatch h
theorem roundStart : Statement .roundStart := fun _ _ h => nomatch h
theorem reductionRecordReceived (side : SideIx) (r : RedRecord) : Statement (.reductionRecordReceived side r) := fun _ _ h => nomatch h
theorem admissionDecision : Statement .admissionDecision := fun _ _ h => nomatch h
theorem lateRound : Statement .lateRound := fun _ _ h => nomatch h
theorem correctionPass : Statement .correctionPass := fun _ _ h => nomatch h
theorem primaryDeadline (unfinished : List TileIx) : Statement (.primaryDeadline unfinished) := fun _ _ h => nomatch h
theorem tileWorkComplete (tile : TileIx) : Statement (.tileWorkComplete tile) := fun _ _ h => nomatch h
theorem emitCutoff : Statement .emitCutoff := fun _ _ h => nomatch h
theorem tileFailure (tile : TileIx) (cause : FailCause) : Statement (.tileFailure tile cause) := fun _ _ h => nomatch h
theorem substituteCatchUp (tile : TileIx) : Statement (.substituteCatchUp tile) := fun _ _ h => nomatch h
theorem retestTimer (tile : TileIx) : Statement (.retestTimer tile) := fun _ _ h => nomatch h
theorem selfTestComplete (tile : TileIx) (pass : Bool) : Statement (.selfTestComplete tile pass) := fun _ _ h => nomatch h
theorem repack : Statement .repack := fun _ _ h => nomatch h
theorem memberFall : Statement .memberFall := fun _ _ h => nomatch h
theorem memberRise : Statement .memberRise := fun _ _ h => nomatch h
theorem memberStepUp : Statement .memberStepUp := fun _ _ h => nomatch h
theorem refclkLoss : Statement .refclkLoss := fun _ _ h => nomatch h
theorem refclkRestored : Statement .refclkRestored := fun _ _ h => nomatch h
theorem ptpMessageReceived (port : NetIx) (msg : PtpMsg) : Statement (.ptpMessageReceived port msg) := fun _ _ h => nomatch h
theorem slewComplete : Statement .slewComplete := fun _ _ h => nomatch h
theorem referenceLoss (ref : Ref) : Statement (.referenceLoss ref) := fun _ _ h => nomatch h
theorem lockAchieved : Statement .lockAchieved := fun _ _ h => nomatch h
theorem wclkQualified (mHz : Word) : Statement (.wclkQualified mHz) := fun _ _ h => nomatch h
theorem wclkGlitch : Statement .wclkGlitch := fun _ _ h => nomatch h
theorem pinCapture (pin : CapPin) : Statement (.pinCapture pin) := fun _ _ h => nomatch h
theorem startInEdge : Statement .startInEdge := fun _ _ h => nomatch h
theorem triggerPointReceived (p : PointIn) (sample : Fin 24) : Statement (.triggerPointReceived p sample) := fun _ _ h => nomatch h
theorem startTrigger : Statement .startTrigger := fun _ _ h => nomatch h
theorem surgeOpening (port : PortIx) (mv : SurgeAt) : Statement (.surgeOpening port mv) := fun _ _ h => nomatch h
theorem surgeReramp (port : PortIx) : Statement (.surgeReramp port) := fun _ _ h => nomatch h
theorem surgeRecovered (port : PortIx) : Statement (.surgeRecovered port) := fun _ _ h => nomatch h
theorem surgeTimeout (port : PortIx) : Statement (.surgeTimeout port) := fun _ _ h => nomatch h
theorem rampComplete (port : PortIx) (mv : Int) : Statement (.rampComplete port mv) := fun _ _ h => nomatch h
theorem rampTimeout (port : PortIx) : Statement (.rampTimeout port) := fun _ _ h => nomatch h
theorem foldEntry (port : PortIx) : Statement (.foldEntry port) := fun _ _ h => nomatch h
theorem foldExit (port : PortIx) : Statement (.foldExit port) := fun _ _ h => nomatch h
theorem gateFault (port : PortIx) : Statement (.gateFault port) := fun _ _ h => nomatch h
theorem fetFault (port : PortIx) : Statement (.fetFault port) := fun _ _ h => nomatch h
theorem ladderEnter (step : Fin 5) (mv : Nat) : Statement (.ladderEnter step mv) := fun _ _ h => nomatch h
theorem ladderLeave (step : Fin 5) : Statement (.ladderLeave step) := fun _ _ h => nomatch h
theorem budgetShed : Statement .budgetShed := fun _ _ h => nomatch h
theorem budgetReturn : Statement .budgetReturn := fun _ _ h => nomatch h
theorem attendanceStep (port : PortIx) : Statement (.attendanceStep port) := fun _ _ h => nomatch h
theorem attendanceEntryCount (port : PortIx) : Statement (.attendanceEntryCount port) := fun _ _ h => nomatch h
theorem lineFault (port : PortIx) (cause : LineCause) (measured : Word) : Statement (.lineFault port cause measured) := fun _ _ h => nomatch h
theorem faultRecovery (port : PortIx) : Statement (.faultRecovery port) := fun _ _ h => nomatch h
theorem leakLocalisation (bank : BankIx) : Statement (.leakLocalisation bank) := fun _ _ h => nomatch h
theorem leakLocalised (bank : BankIx) (leak : Nat) : Statement (.leakLocalised bank leak) := fun _ _ h => nomatch h
theorem bankTemperature (bank : BankIx) : Statement (.bankTemperature bank) := fun _ _ h => nomatch h
theorem probe (port : PortIx) (uv : Nat) : Statement (.probe port uv) := fun _ _ h => nomatch h
theorem soundingComplete (port : PortIx) (points : List (F32 × F32)) (nf : Nat) : Statement (.soundingComplete port points nf) := fun _ _ h => nomatch h
theorem callQualified (port : PortIx) (kind : CallKind) : Statement (.callQualified port kind) := fun _ _ h => nomatch h
theorem callEnded (port : PortIx) (kind : CallKind) : Statement (.callEnded port kind) := fun _ _ h => nomatch h
theorem hostCallEnd (port : PortIx) : Statement (.hostCallEnd port) := fun _ _ h => nomatch h
theorem proofingWindow (bank : BankIx) (meas : List (Fin 8 × ProofMeas)) (bm : BankMeas) : Statement (.proofingWindow bank meas bm) := fun _ _ h => nomatch h
theorem proofingQuiet (bank : BankIx) : Statement (.proofingQuiet bank) := fun _ _ h => nomatch h
theorem fastExpiry (leg : LegIx) : Statement (.fastExpiry leg) := fun _ _ h => nomatch h
theorem doubleTalkExpiry (leg : LegIx) : Statement (.doubleTalkExpiry leg) := fun _ _ h => nomatch h
theorem vadBlockClose (leg : LegIx) : Statement (.vadBlockClose leg) := fun _ _ h => nomatch h
theorem humSearch (port : PortIx) (found : Option F32) : Statement (.humSearch port found) := fun _ _ h => nomatch h
theorem humStateTimer (port : PortIx) (ev : HumEvent) : Statement (.humStateTimer port ev) := fun _ _ h => nomatch h
theorem dapInputQualified (port : DapIx) (hz : Nat) (cls : RateClass) : Statement (.dapInputQualified port hz cls) := fun _ _ h => nomatch h
theorem dapInputLoss (port : DapIx) (why : DapLoss) : Statement (.dapInputLoss port why) := fun _ _ h => nomatch h
theorem dapResume (port : DapIx) : Statement (.dapResume port) := fun _ _ h => nomatch h
theorem slip (port : DapIx) (kind : SlipKind) : Statement (.slip port kind) := fun _ _ h => nomatch h
theorem channelStatusBlock (port : DapIx) (block : List Byte) (crccOk : Bool) : Statement (.channelStatusBlock port block crccOk) := fun _ _ h => nomatch h
theorem zeroCrossingSwitch (port : DapIx) (ch : Fin 2) (out : Bool) : Statement (.zeroCrossingSwitch port ch out) := fun _ _ h => nomatch h
theorem zcTimeout (port : DapIx) (ch : Fin 2) (out : Bool) : Statement (.zcTimeout port ch out) := fun _ _ h => nomatch h
theorem negotiationResolved (port : NetIx) (rate : NetRate) (fec : FecUse) (partner : BitVec 8) : Statement (.negotiationResolved port rate fec partner) := fun _ _ h => nomatch h
theorem trainingComplete (port : NetIx) : Statement (.trainingComplete port) := fun _ _ h => nomatch h
theorem linkTimeout (port : NetIx) : Statement (.linkTimeout port) := fun _ _ h => nomatch h
theorem linkLoss (port : NetIx) : Statement (.linkLoss port) := fun _ _ h => nomatch h
theorem linkdownDropTimeout (port : NetIx) : Statement (.linkdownDropTimeout port) := fun _ _ h => nomatch h
theorem frameReceived (port : NetIx) (f : RxFrame) : Statement (.frameReceived port f) := fun _ _ h => nomatch h
theorem pauseExpiry (port : NetIx) : Statement (.pauseExpiry port) := fun _ _ h => nomatch h
theorem txFrameStart (port : NetIx) : Statement (.txFrameStart port) := fun _ _ h => nomatch h
theorem txFrameComplete (port : NetIx) : Statement (.txFrameComplete port) := fun _ _ h => nomatch h
theorem mediaPacketLaunch (us : Fin 500) : Statement (.mediaPacketLaunch us) := fun _ _ h => nomatch h
theorem ringIrqDelayExpiry (port : NetIx) (ring : Fin 21) : Statement (.ringIrqDelayExpiry port ring) := fun _ _ h => nomatch h
theorem snapshotComplete : Statement .snapshotComplete := fun _ _ h => nomatch h
theorem streamLostTimeout (stream : Fin 2048) : Statement (.streamLostTimeout stream) := fun _ _ h => nomatch h
theorem membershipReportTimer : Statement .membershipReportTimer := fun _ _ h => nomatch h
theorem imdalLinkUp (side : SideIx) (peer : RingIx) : Statement (.imdalLinkUp side peer) := fun _ _ h => nomatch h
theorem imdalLinkDown (side : SideIx) : Statement (.imdalLinkDown side) := fun _ _ h => nomatch h
theorem seamReturn : Statement .seamReturn := fun _ _ h => nomatch h
theorem timeWordReceived (side : SideIx) (w : TimeWord) : Statement (.timeWordReceived side w) := fun _ _ h => nomatch h
theorem ringTimeLoss : Statement .ringTimeLoss := fun _ _ h => nomatch h
theorem cutOff (cause : CutCause) : Statement (.cutOff cause) := fun _ _ h => nomatch h
theorem membershipRequest : Statement .membershipRequest := fun _ _ h => nomatch h
theorem membershipRequestReceived (from_ : RingIx) (members : BitVec 8) (h : Heard) : Statement (.membershipRequestReceived from_ members h) := fun _ _ h => nomatch h
theorem segmentMerge (devices : BitVec 8) (h : MergeHeard) (clash : List (Fin 1024)) : Statement (.segmentMerge devices h clash) := fun _ _ h => nomatch h
theorem forwardReceived (from_ : RingIx) (f : ForwardIn) : Statement (.forwardReceived from_ f) := fun _ _ h => nomatch h
theorem forwardComplete (answer : Option AnswerIn) : Statement (.forwardComplete answer) := fun _ _ h => nomatch h
theorem scrubRead (pantry : Bool) (stack : Fin 2) (ecc : Ecc) (raced : Bool) : Statement (.scrubRead pantry stack ecc raced) := fun _ _ h => nomatch h
theorem hallPassGrant (master : Fin 10) (a : LockedAccess) : Statement (.hallPassGrant master a) := fun _ _ h => nomatch h
theorem hallPassBreak (master : Fin 10) : Statement (.hallPassBreak master) := fun _ _ h => nomatch h
theorem matrixTimeout (master : Fin 10) (a : MatrixAccess) : Statement (.matrixTimeout master a) := fun _ _ h => nomatch h
theorem domainWake (dom : DomIx) : Statement (.domainWake dom) := fun _ _ h => nomatch h
theorem powerupStepReady (dom : DomIx) : Statement (.powerupStepReady dom) := fun _ _ h => nomatch h
theorem powerupFailure (dom : DomIx) : Statement (.powerupFailure dom) := fun _ _ h => nomatch h
theorem domainEntryComplete (dom : DomIx) : Statement (.domainEntryComplete dom) := fun _ _ h => nomatch h
theorem powerOnReset (straps : Straps) : Statement (.powerOnReset straps) := fun _ _ h => nomatch h
theorem resetAssert : Statement .resetAssert := fun _ _ h => nomatch h
theorem aonReady : Statement .aonReady := fun _ _ h => nomatch h
theorem imageReadComplete : Statement .imageReadComplete := fun _ _ h => nomatch h
theorem imageAuthentication (img : Image) : Statement (.imageAuthentication img) := fun _ _ h => nomatch h
theorem runBoundary : Statement .runBoundary := fun _ _ h => nomatch h
theorem watchdogExpiry : Statement .watchdogExpiry := fun _ _ h => nomatch h
theorem mgmtRestart : Statement .mgmtRestart := fun _ _ h => nomatch h
theorem hotswapRequest : Statement .hotswapRequest := fun _ _ h => nomatch h
theorem removalReady : Statement .removalReady := fun _ _ h => nomatch h
theorem removalRecord : Statement .removalRecord := fun _ _ h => nomatch h
theorem hotswapRelease : Statement .hotswapRelease := fun _ _ h => nomatch h
theorem rollCallComplete : Statement .rollCallComplete := fun _ _ h => nomatch h
theorem thermalThreshold (tj : Int) : Statement (.thermalThreshold tj) := fun _ _ h => nomatch h
theorem lfeSupplyLow (die : DieIx) : Statement (.lfeSupplyLow die) := fun _ _ h => nomatch h
theorem plantAbsent (die : DieIx) : Statement (.plantAbsent die) := fun _ _ h => nomatch h
theorem coreSupplyLow : Statement .coreSupplyLow := fun _ _ h => nomatch h
theorem plantReturn (die : DieIx) : Statement (.plantReturn die) := fun _ _ h => nomatch h
theorem lfeSupplyRestored (die : DieIx) : Statement (.lfeSupplyRestored die) := fun _ _ h => nomatch h
theorem leakageChange (bank : BankIx) (leak : Nat) : Statement (.leakageChange bank leak) := fun _ _ h => nomatch h
theorem wclkInEdge (errNs : Int) : Statement (.wclkInEdge errNs) := fun _ _ h => nomatch h
theorem ptpMessageTimer (port : NetIx) (msg : PtpSend) : Statement (.ptpMessageTimer port msg) := fun _ _ h => nomatch h
theorem removalDeadline : Statement .removalDeadline := fun _ _ h => nomatch h

end Sys2Proof.Laws.NoWord
end

