-- ==== Sys2Proof/Laws/Reports.lean ====
section
/-! SUPPORT. Completion with a frame from a footprint, and the shared operations that add nothing but reports to the host bus and trace
parts: interrupts, counts, records. -/

namespace Sys2Proof.Machine

set_option Elab.async false

/-- A footprint and a next state give a frame. -/
theorem does_of {c : Instr} {s t : State} {ps qs : List Part} {P : State → Prop} (h : exec c s = .next t)
    (hf : OFoot qs s (exec c s)) (hq : qs ⊆ ps) (hP : P t) : Does c s ps P := by
  obtain ⟨u, hu, k⟩ := hf
  have e : u = t := by rw [h] at hu; exact (Host.Outcome.next.inj hu).symm
  exact ⟨t, h, fun p hn => e ▸ k.1 p fun x => hn (hq x), hP⟩

/-- The same with reports. -/
theorem doesR_of {c : Instr} {s t : State} {ps qs : List Part} {P : State → Prop} (h : exec c s = .next t)
    (hf : OFoot qs s (exec c s)) (hq : qs ⊆ .hbi :: .trace :: .draw :: ps) (hr : Reports s t) (hP : P t) : DoesR c s ps P :=
  does_of h hf hq ⟨hr, hP⟩

section
variable {s t : State}

theorem reports_onTime (f : Time → Time) (h : Reports s t) : Reports s (t.onTime f) := reports_of_eq h rfl rfl
theorem reports_onCmd (f : CmdPath → CmdPath) (h : Reports s t) : Reports s (t.onCmd f) := reports_of_eq h rfl rfl
theorem reports_onMix (f : Mix → Mix) (h : Reports s t) : Reports s (t.onMix f) := reports_of_eq h rfl rfl
theorem reports_onEcho (f : Tab Echo → Tab Echo) (h : Reports s t) : Reports s (t.onEcho f) := reports_of_eq h rfl rfl
theorem reports_onLine (f : Line → Line) (h : Reports s t) : Reports s (t.onLine f) := reports_of_eq h rfl rfl
theorem reports_onPort (p : Nat) (f : PortSt → PortSt) (h : Reports s t) : Reports s (t.onPort p f) := reports_of_eq h rfl rfl
theorem reports_onPortCfg (p : Nat) (f : PortCfg → PortCfg) (h : Reports s t) : Reports s (t.onPortCfg p f) := reports_of_eq h rfl rfl
theorem reports_onWatch (p : Nat) (f : Watch → Watch) (h : Reports s t) : Reports s (t.onWatch p f) := reports_of_eq h rfl rfl
theorem reports_onSounding (p : Nat) (f : Sounding → Sounding) (h : Reports s t) : Reports s (t.onSounding p f) :=
  reports_of_eq h rfl rfl
theorem reports_onBank (b : Nat) (f : Bank → Bank) (h : Reports s t) : Reports s (t.onBank b f) := reports_of_eq h rfl rfl
theorem reports_onDapP (p : Nat) (f : Dap → Dap) (h : Reports s t) : Reports s (t.onDapP p f) := reports_of_eq h rfl rfl
theorem reports_onNetP (p : Nat) (f : Net → Net) (h : Reports s t) : Reports s (t.onNetP p f) := reports_of_eq h rfl rfl
theorem reports_onMedia (f : Media → Media) (h : Reports s t) : Reports s (t.onMedia f) := reports_of_eq h rfl rfl
theorem reports_onStrm (tx : Bool) (n : Nat) (f : Stream → Stream) (h : Reports s t) : Reports s (t.onStrm tx n f) := by
  cases tx <;> exact reports_of_eq h rfl rfl
theorem reports_onImdal (f : Imdal → Imdal) (h : Reports s t) : Reports s (t.onImdal f) := reports_of_eq h rfl rfl
theorem reports_onTiles (f : Tiles → Tiles) (h : Reports s t) : Reports s (t.onTiles f) := reports_of_eq h rfl rfl
theorem reports_onTile (k : Nat) (f : Tile → Tile) (h : Reports s t) : Reports s (t.onTile k f) := reports_of_eq h rfl rfl
theorem reports_onMem (f : Memory → Memory) (h : Reports s t) : Reports s (t.onMem f) := reports_of_eq h rfl rfl
theorem reports_onPower (f : Power → Power) (h : Reports s t) : Reports s (t.onPower f) := reports_of_eq h rfl rfl
theorem reports_onDom (d : Nat) (f : Domain → Domain) (h : Reports s t) : Reports s (t.onDom d f) := reports_of_eq h rfl rfl
theorem reports_onBoot (f : Boot → Boot) (h : Reports s t) : Reports s (t.onBoot f) := reports_of_eq h rfl rfl
theorem reports_onShelf (f : Shelf → Shelf) (h : Reports s t) : Reports s (t.onShelf f) := reports_of_eq h rfl rfl

theorem reports_foldl {α : Type} {f : State → α → State} {l : List α} (hf : ∀ u a, Reports s u → Reports s (f u a))
    (h : Reports s t) : Reports s (l.foldl f t) := by
  induction l generalizing t with
  | nil => exact h
  | cons a l ih => exact ih (hf t a h)

theorem reports_timeEvent (b : Bool) (h : Reports s t) : Reports s (t.timeEvent b) := reports_record _ _ (reports_raise _ h)
theorem reports_timeState (st : BitVec 2) (h : Reports s t) : Reports s (t.timeState st) := by
  unfold State.timeState
  split
  · exact h
  · exact reports_timeEvent _ (reports_onTime _ h)

theorem reports_portEvent (p : Nat) (h : Reports s t) : Reports s (t.portEvent p) := by
  unfold State.portEvent
  repeat' first | with_reducible assumption | with_reducible apply reports_raise | with_reducible apply reports_onPort | with_reducible apply reports_count | split

theorem reports_watchLog (who kind detail : Nat) (v pidx : Word) (h : Reports s t) : Reports s (t.watchLog who kind detail v pidx) := by
  unfold State.watchLog
  dsimp only
  split
  · exact reports_portEvent _ (reports_onLine _ h)
  · exact reports_raise _ (reports_onLine _ h)

theorem reports_soundAbort (p i : Nat) (h : Reports s t) : Reports s (t.soundAbort p i) := by
  unfold State.soundAbort
  split
  · exact reports_onSounding _ _ h
  · exact h

theorem reports_soundAsk (p : Nat) (h : Reports s t) : Reports s (t.soundAsk p) := by
  unfold State.soundAsk
  repeat' first | with_reducible assumption | with_reducible apply reports_onSounding | with_reducible apply reports_onWatch | split

theorem reports_callEnd (p k : Nat) (h : Reports s t) : Reports s (t.callEnd p k) := by
  unfold State.callEnd
  dsimp only
  repeat' first | with_reducible assumption | with_reducible apply reports_raise | with_reducible apply reports_watchLog | with_reducible apply reports_onWatch | split

theorem reports_settleLater (p : Nat) (h : Reports s t) : Reports s (t.settleLater p) := by
  unfold State.settleLater State.portSetNow
  dsimp only
  repeat' first
    | with_reducible assumption | with_reducible apply reports_soundAsk | with_reducible apply reports_soundAbort
    | with_reducible apply reports_onWatch | with_reducible apply reports_onPort | with_reducible apply reports_onPortCfg | split

theorem reports_reslew (p : Nat) (h : Reports s t) : Reports s (t.reslew p) := by
  unfold State.reslew
  dsimp only
  repeat' first | with_reducible assumption | with_reducible apply reports_soundAbort | with_reducible apply reports_onPort | split

theorem reports_ite {c : Prop} [Decidable c] {u v : State} (hu : Reports s u) (hv : Reports s v) : Reports s (if c then u else v) := by
  split
  · exact hu
  · exact hv

theorem reports_portTo (p : Nat) (st : PortState) (cause : Nat) (logged : Bool) (h : Reports s t) :
    Reports s (t.portTo p st cause logged) := by
  unfold State.portTo
  extract_lets +onlyGivenNames o leaves u1 u2 goal u3 u4 u5 u6 u7 u8 u9
  have h1 : Reports s u1 := reports_ite (reports_callEnd _ _ (reports_callEnd _ _ h)) h
  have h2 : Reports s u2 := reports_ite (reports_soundAbort _ _ h1) h1
  have h3 : Reports s u3 := reports_onPort _ _ h2
  have h4 : Reports s u4 := reports_ite (reports_onPort _ _ h3) h3
  have h5 : Reports s u5 := reports_ite (reports_settleLater _ h4) h4
  have h6 : Reports s u6 := reports_reslew _ (reports_onWatch _ _ h5)
  have h7 : Reports s u7 := reports_ite (reports_soundAsk _ h6) h6
  have h8 : Reports s u8 := reports_ite (reports_onLine _ h7) h7
  have h9 : Reports s u9 := reports_ite (reports_raise _ h8) (reports_portEvent _ h8)
  exact reports_record _ _ h9

theorem reports_portFault (p cause : Nat) (v : Word) (h : Reports s t) : Reports s (t.portFault p cause v) :=
  reports_portTo _ _ _ _ (reports_watchLog _ _ _ _ _ h)
theorem reports_portShed (p cause : Nat) (h : Reports s t) : Reports s (t.portShed p cause) := reports_portTo _ _ _ _ h

theorem reports_substLog (pidx : Word) (a b c d e : Nat) (h : Reports s t) : Reports s (t.substLog pidx a b c d e) :=
  reports_record _ _ (reports_raise _ (reports_onTiles _ h))

theorem reports_dapEvent (p : Nat) (h : Reports s t) : Reports s (t.dapEvent p) :=
  reports_raise _ (reports_count _ (reports_onDapP _ _ h))

theorem reports_netCount (p i k : Nat) (h : Reports s t) : Reports s (t.netCount p i k) := by
  unfold State.netCount
  split
  · exact reports_onNetP _ _ h
  · exact h
theorem reports_pauseStep (p : Nat) (h : Reports s t) : Reports s (t.pauseStep p) := by
  unfold State.pauseStep
  dsimp only
  split
  · exact h
  · split
    · exact h
    · exact reports_onNetP _ _ (reports_netCount _ _ _ h)
theorem reports_pauseEnd (p : Nat) (h : Reports s t) : Reports s (t.pauseEnd p) := by
  have k : Reports s (t.pauseSettle p) := reports_pauseStep p (reports_pauseStep p h)
  unfold State.pauseEnd
  dsimp only
  split
  · exact k
  · exact reports_onNetP _ _ (reports_netCount _ _ _ k)
theorem reports_mediaDrop (p : Nat) (h : Reports s t) : Reports s (t.mediaDrop p) := by
  unfold State.mediaDrop
  refine reports_foldl (fun u q hu => ?_) h
  have k := reports_foldl (l := (tget [] (u.netP p).queues q).filterMap fun x => match x.src with | .media k => some k | _ => none)
    (f := fun s k => (s.netCount p 19 1).onTxS k fun y => { y with n5 := y.n5 + 1 })
    (fun v k hv => reports_onMedia _ (reports_netCount p 19 1 hv)) hu
  dsimp only
  split
  · exact k
  · exact reports_onNetP _ _ k
theorem reports_linkTo (p : Nat) (st : LinkState) (h : Reports s t) : Reports s (t.linkTo p st) := by
  have k : Reports s (if st = .up then t else t.pauseEnd p) := reports_ite h (reports_pauseEnd _ h)
  exact reports_raise _ (reports_onNetP _ _ (reports_ite (reports_mediaDrop _ k) k))
theorem reports_negotiate (p : Nat) (h : Reports s t) : Reports s (t.negotiate p) := reports_linkTo _ _ (reports_onNetP _ _ h)

theorem reports_strState (tx : Bool) (n : Nat) (st : StreamState) (h : Reports s t) : Reports s (t.strState tx n st) := by
  unfold State.strState
  split
  · exact h
  · exact reports_record _ _ (reports_onStrm _ _ _ h)

theorem reports_domChanged (d : Nat) (st : DomState) (h : Reports s t) : Reports s (t.domChanged d st) :=
  reports_record _ _ (reports_raise _ (reports_onPower _ h))

theorem reports_riseOne (d : Nat) (h : Reports s t) : Reports s (t.riseOne d) := by
  unfold State.riseOne
  split
  · exact h
  · exact reports_count _ (reports_onDom _ _ h)

theorem reports_wake (d src : Nat) (h : Reports s t) : Reports s (t.wake d src) := by
  unfold State.wake
  dsimp only
  split
  · exact h
  · have k : Reports s (((parents d).foldl State.riseOne (t.riseOne d)).onPower fun p =>
        { p with self := (parents d).foldl (fun v q => v ||| BitVec.ofNat 22 (2 ^ q)) p.self }) :=
      reports_onPower _ (reports_foldl (fun _ _ => reports_riseOne _) (reports_riseOne d h))
    split
    · exact k.trans ⟨rfl, fun _ x => x, rfl⟩
    · exact reports_raise _ (reports_onPower _ k)

theorem reports_selfVote (d src : Nat) (h : Reports s t) : Reports s (t.selfVote d src) := reports_wake _ _ (reports_onPower _ h)

theorem reports_logMem (src : Nat) (u : Bool) (m o : Nat) (a : Word) (h : Reports s t) : Reports s (t.logMem src u m o a) :=
  reports_onMem _ h
theorem reports_eccCorr (src : Nat) (u : Bool) (m o : Nat) (a : Word) (h : Reports s t) : Reports s (t.eccCorr src u m o a) :=
  reports_raise _ (reports_count _ (reports_logMem _ _ _ _ _ (reports_onMem _ h)))
theorem reports_eccUncorr (src m o : Nat) (a : Word) (h : Reports s t) : Reports s (t.eccUncorr src m o a) :=
  reports_raise _ (reports_count _ (reports_logMem _ _ _ _ _ (reports_onMem _ h)))

end

end Sys2Proof.Machine
end

