-- ==== Sys2Proof/WellFormed.lean ====
section
/-! DEFINITION. Well-formed commands: the sizes and ranges that the rules give the operands of a row. A command that the
check refuses is one that no environment of the block can form. -/

namespace Sys2Proof

/-- A signed sample of 24 bits (R20). -/
def s24Ok (x : Int) : Bool := decide (-8388608 ≤ x) && decide (x ≤ 8388607)

/-- One Period of a Leg: 24 samples of 24 bits (R20). -/
def blockOk (xs : List Int) : Bool := decide (xs.length = 24) && xs.all s24Ok

/-- A value of 64 bits of two's complement (R331). -/
def s64Ok (x : Int) : Bool := decide (-(2 ^ 63) ≤ x) && decide (x < 2 ^ 63)

/-- Indices strictly rising: no object is measured twice in one Period. -/
def rising : List Nat → Bool
  | [] => true
  | [_] => true
  | i :: j :: r => decide (i < j) && rising (j :: r)

/-- What a boundary closes over (R20, R164, R201): each input once, line and digital audio Legs only, 24 samples each. -/
def PeriodInput.wf (m : PeriodInput) : Bool :=
  rising (m.audio.map fun a => a.1.val) && (m.audio.all fun a => decide (a.1.val < 80) && blockOk a.2) &&
    rising (m.loops.map fun a => a.1.val) && rising (m.banks.map fun a => a.1.val) && rising (m.dapHz.map fun a => a.1.val)

/-- A candidate in the fields of R331. -/
def RingCand.wf (c : RingCand) : Bool :=
  decide (c.key < 2 ^ 15) && decide (c.score < 256) && decide (c.cls < 4) && decide (c.hold < 2 ^ 12)

/-- A reduction record of R331: 24 sums, at most 64 candidates, a call count of 0 to 3; a correction record carries sums
alone. -/
def RedRecord.wf (r : RedRecord) : Bool :=
  decide (r.sums.length = 24) && r.sums.all s64Ok && decide (r.cands.length ≤ 64) && r.cands.all RingCand.wf &&
    decide (r.calls ≤ 3) && (r.first || (r.cands.isEmpty && decide (r.calls = 0)))

/-- A forward of R337: a command carries 128 bytes of parameter data. -/
def Forward.wf : Forward → Bool
  | .command _ param => decide (param.length = 128)
  | .regRead _ => true
  | .regWrite _ _ => true

/-- The checks on a command's operands. -/
def Instr.wf : Instr → Bool
  | .periodBoundary m => m.wf
  | .reductionRecordReceived _ r => r.wf
  | .timeWordReceived _ w => decide (w.hops < 8)
  | .forwardReceived _ f => f.body.wf
  | .forwardComplete (some a) => decide (a.body.data.length = 128)
  | .soundingComplete _ points _ => decide (points.length = 32)
  | .channelStatusBlock _ block _ => decide (block.length = 96)
  | .frameReceived _ f => decide (f.bytes.length < 2 ^ 14)
  | .unmappedAccess _ reg => decide (53 ≤ reg.toNat)
  | .proofingWindow _ meas _ => rising (meas.map fun a => a.1.val)
  | .sspWrite bytes => !bytes.isEmpty
  | .imageAuthentication img => decide (img.slices.length = 110)
  | _ => true

end Sys2Proof
end

