-- ==== Sys2Proof/Tests/Slice0.lean ====
section
/-! SUPPORT. Tests: ill-formed commands that the check refuses; for every statement with hypotheses, states and operands that meet
them; single steps with the values that the spec gives. -/

namespace Sys2Proof.Tests

set_option Elab.async false

open Sys2Proof Sys2Proof.Machine

/-! ### Ill-formed commands -/

/-- Empty measurements of a Period. -/
def quiet : PeriodInput :=
  { audio := [], loops := [], banks := [], plantA := 48000, plantB := 48000, tjMax := 25, dapHz := [], fwAck := true }

/-- A first-pass record of silence. -/
def silentRec : RedRecord := { tag := 0, ringNo := 0, first := true, calls := 0, sums := List.replicate 24 0, cands := [] }

/-- A command of zeros with an opcode. -/
def zeroCmd : CmdWords := { hdr := 0, epoch := 0, a0 := 0, a1 := 0, a2 := 0, a3 := 0, a4 := 0, a5 := 0 }

/-- An image whose checks pass (R416). -/
def goodImage : Image :=
  { magicOk := true, flashErr := false, length := 384, entry := 0x100, keyOk := true, sigOk := true, rollback := 2 ^ 32, version := 7
    slices := List.replicate 110 2, zerosOk := true }

/-- The loop of a line port at rest. -/
def restLoop : LoopMeas :=
  { mv := 0, ua := 0, creg := false, toneLvl := 255, flat := false, fetMw := 0, voiceLvl := 255 }

theorem test_wf_period : Instr.wf (.periodBoundary quiet) = true := by decide
theorem test_wf_audio_length : Instr.wf (.periodBoundary { quiet with audio := [(0, [1])] }) = false := by decide
theorem test_wf_audio_sample : Instr.wf (.periodBoundary { quiet with audio := [(0, List.replicate 24 8388608)] }) = false := by decide
theorem test_wf_audio_twice :
    Instr.wf (.periodBoundary { quiet with audio := [(3, List.replicate 24 0), (3, List.replicate 24 0)] }) = false := by decide
theorem test_wf_audio_network : Instr.wf (.periodBoundary { quiet with audio := [(80, List.replicate 24 0)] }) = false := by decide
theorem test_wf_loops : Instr.wf (.periodBoundary { quiet with loops := [(1, restLoop), (0, restLoop)] }) = false := by decide
theorem test_wf_banks : Instr.wf (.periodBoundary { quiet with banks := [(2, ⟨0, none⟩), (2, ⟨0, none⟩)] }) = false := by decide
theorem test_wf_dap : Instr.wf (.periodBoundary { quiet with dapHz := [(4, 48000), (2, 48000)] }) = false := by decide
theorem test_wf_record : Instr.wf (.reductionRecordReceived 0 silentRec) = true := by decide
theorem test_wf_record_sums : Instr.wf (.reductionRecordReceived 0 { silentRec with sums := [] }) = false := by decide
theorem test_wf_record_range :
    Instr.wf (.reductionRecordReceived 0 { silentRec with sums := List.replicate 24 (2 ^ 63) }) = false := by decide
theorem test_wf_record_cands :
    Instr.wf (.reductionRecordReceived 0 { silentRec with cands := List.replicate 65 ⟨0, 0, 0, 0, false⟩ }) = false := by decide
theorem test_wf_record_cand : Instr.wf (.reductionRecordReceived 0 { silentRec with cands := [⟨0, 256, 0, 0, false⟩] }) = false := by decide
theorem test_wf_record_calls : Instr.wf (.reductionRecordReceived 0 { silentRec with calls := 4 }) = false := by decide
theorem test_wf_record_correction :
    Instr.wf (.reductionRecordReceived 0 { silentRec with first := false, calls := 1 }) = false := by decide
theorem test_wf_hops : Instr.wf (.timeWordReceived 0 ⟨0, 0, none, false, 0, 0, 8, 0, 0⟩) = false := by decide
theorem test_wf_forward : Instr.wf (.forwardReceived 0 ⟨0, 0, .command zeroCmd []⟩) = false := by decide
theorem test_wf_answer : Instr.wf (.forwardComplete (some ⟨0, 0, ⟨0, 0, 0, 0, []⟩⟩)) = false := by decide
theorem test_wf_points : Instr.wf (.soundingComplete 0 [] 100) = false := by decide
theorem test_wf_status : Instr.wf (.channelStatusBlock 0 [] true) = false := by decide
theorem test_wf_frame : Instr.wf (.frameReceived 0 ⟨List.replicate 16384 0, true, false⟩) = false := by decide +kernel
theorem test_wf_unmapped : Instr.wf (.unmappedAccess .read 52) = false := by decide
theorem test_wf_window : Instr.wf (.proofingWindow 0 [(1, ⟨255, 0, 0, 255, 0⟩), (0, ⟨255, 0, 0, 255, 0⟩)] ⟨0, none⟩) = false := by
  decide
theorem test_wf_shelf : Instr.wf (.sspWrite []) = false := by decide
theorem test_wf_image : Instr.wf (.imageAuthentication { goodImage with slices := [] }) = false := by decide

/-! ### States that meet the statements' hypotheses -/

/-- The state after reset with some domains ON. -/
def onDoms (ds : List Nat) (s : State) : State := ds.foldl (fun s d => s.onDom d fun x => { x with state := .on }) s

/-- The firmware runs, with MGMT, HUB and PANTRY ON. -/
def running : State := (onDoms [1, 2, 3] State.reset).onBoot fun b => { b with boot := 4 }

/-- A whole write. -/
def whole (v : Word) : RegWrite := { val := v, be := 0xF }

theorem witness_stepRunsFront : ({ running with pending := [.aonReady] } : State).pending = [Instr.aonReady] := rfl

theorem witness_stepIdles :
    State.reset.pending = [] ∧ State.reset.boot.held = false ∧
      State.reset.time.inPeriod * 2 ^ 24 + State.reset.time.frac.toNat + State.reset.time.incr.toNat < 500000 * 2 ^ 24 ∧
      (State.reset.onBoot fun b => { b with held := true }).boot.held = true := by decide +kernel

theorem witness_registers :
    State.reset.hbi.ready = true ∧ (52 : BitVec 8).toNat < regCount ∧ (52 : BitVec 8).toNat ≠ regWinData ∧
      (52 : BitVec 8).toNat ≠ regWinDataInc ∧ regCount ≤ (53 : BitVec 8).toNat ∧ regCount ≤ (255 : BitVec 8).toNat ∧
      ({ val := 1, be := 7 } : RegWrite).be ≠ 0xF#4 := by decide

/-- A ring with 256 entries posted and none completed. -/
def fullRing : State := running.onCmd fun c => { c with en := true, tail := 256, head := 0, cplHead := 0 }

theorem witness_ringPointers :
    fullRing.hbi.ready = true ∧ (whole 256).be = 0xF#4 ∧ ((whole 256).val.setWidth 9 - fullRing.cmd.head).toNat ≤ 256 ∧
      256 < ((whole 257).val.setWidth 9 - fullRing.cmd.head).toNat ∧
      ((whole 0).val.setWidth 9 - fullRing.cmd.cplHead).toNat ≤ (fullRing.cmd.head - fullRing.cmd.cplHead).toNat ∧
      (fullRing.cmd.head - fullRing.cmd.cplHead).toNat < ((whole 1).val.setWidth 9 - fullRing.cmd.cplHead).toNat := by decide +kernel

theorem witness_ringEnable :
    running.hbi.ready = true ∧ running.boot.boot = 4 ∧ running.cmd.en = false ∧ running.cmd.taken = none ∧
      bit ((whole 0x800C0000#32).over running.cringBase) 31 = true ∧ 0x30 ≤ fld ((whole 0x800C0000#32).over running.cringBase) 14 6 ∧
      bit ((whole 0).over running.cringBase) 31 = false ∧ State.reset.boot.boot ≠ 4 := by decide +kernel

/-- The window on a word of the host area of MGMT SRAM. -/
def windowed : State := running.onHbi fun h => { h with winAddr := 0x1003FFFF#32 }

theorem witness_window :
    windowed.hbi.ready = true ∧ windowed.domOn dHub = true ∧ windowed.domOn dMgmt = true ∧ targetOf windowed.hbi.winAddr = 1 ∧
      0x30000 ≤ offsetOf windowed.hbi.winAddr ∧ offsetOf windowed.hbi.winAddr < 0x40000 ∧
      windowed.mem.badSram.contains (offsetOf windowed.hbi.winAddr) = false ∧ targetOf 0x00000100#32 = 0 ∧
      windowed.populated 0 (offsetOf 0x00000100#32) = true := by decide +kernel

/-- 16-bit mode with a read half latched and a write half held for SCRATCH. -/
def halves : State := State.reset.onHbi fun h => { h with w16 := true, latch := some (15, 0xABCD), held := some (15, 0x1234, 3) }

theorem witness_halfwords_alone :
    let s := halves.onHbi fun h => { h with latch := none, held := some (14, 0x1234, 3) }
    s.hbi.ready = true ∧ s.hbi.w16 = true ∧ s.hbi.latch = none ∧ (52 : BitVec 7).toNat < regCount ∧ s.hbi.held = some (14, 0x1234, 3) ∧
      (14 : BitVec 7) ≠ 15 ∧ State.reset.hbi.w16 = false := by decide

theorem witness_halfwords :
    halves.hbi.ready = true ∧ halves.hbi.w16 = true ∧ (15 : BitVec 7).toNat < regCount ∧ (15 : BitVec 7).toNat ≠ regWinData ∧
      (15 : BitVec 7).toNat ≠ regWinDataInc ∧ halves.hbi.latch = some (15, 0xABCD) ∧ halves.hbi.held = some (15, 0x1234, 3) := by decide

theorem witness_timeRegisters :
    bit (whole 1).ones 0 = true ∧ bit (whole 8).ones 0 = false ∧
      (State.reset.onTime fun t => { t with refSel := 3 }).time.refSel = 3 ∧ (State.reset.onTime fun t => { t with refSel := 3 }).time.state ≠ 2 ∧
      State.reset.time.refSel ≠ 3 ∧ (whole 0x300#32).be.getLsbD 1 = true ∧ State.reset.time.state ≠ 2 ∧ State.reset.follower = false ∧
      fld ((whole 0x300#32).over State.reset.timeStat) 8 2 = 3 := by decide +kernel

/-- The loader waits for the host. -/
def waiting : State := (onDoms [1, 2] State.reset).onBoot fun b => { b with boot := 1 }

theorem witness_startAndRestart :
    bit (whole 0x01000000#32).ones 24 = true ∧ bit (whole 0x01000000#32).ones 25 = false ∧ waiting.loaderWaits = true ∧
      running.loaderWaits = false ∧ bit (whole 0x02000000#32).ones 24 = false ∧ bit (whole 0x02000000#32).ones 25 = true ∧
      running.bootCode = 4 ∧ bit (whole 1).ones 0 = true := by decide +kernel

theorem witness_snapshotRegisters :
    (State.reset.onTrace fun t => { t with copying := 4 }).trace.copying ≠ 0 ∧ fld (whole 3).ones 0 2 ≠ 0 ∧ State.reset.trace.copying = 0 ∧
      fld (whole 1).ones 0 2 = 1 ∧ fld (whole 2).ones 0 2 = 2 ∧ bit (whole 0x10000#32).ones 16 = true ∧ bit (whole 0).ones 16 = false := by
  decide +kernel

/-! Commands. -/

/-- A command with an opcode and arguments. -/
def cmd (op a0 : Word) (a1 : Word := 0) (a2 : Word := 0) (a3 : Word := 0) (a4 : Word := 0) (a5 : Word := 0) : CmdWords :=
  { hdr := op, epoch := 0, a0 := a0, a1 := a1, a2 := a2, a3 := a3, a4 := a4, a5 := a5 }

/-- A command stands in the mailbox. -/
def posted (s : State) (c : CmdWords) : State := s.onCmd fun m => { m with mbox := some c, busy := true }

/-- A command stands at the head of the ring. -/
def ringed (s : State) (c : CmdWords) : State :=
  (s.onCmd fun m => { m with base := 0x30, en := true, tail := 1 }).onMem fun m => { m with sram := Memory.writeBytes 0xC0000 (wordBytes c.words) m.sram }

theorem witness_offers :
    (posted running (cmd 0 0)).Offers .mailbox (cmd 0 0) ∧ (ringed running (cmd 0x100 0)).Offers .ring (cmd 0x100 0) := by
  delta State.Offers
  decide +kernel

/-- A network Leg bound to channel 0 of RX stream 0, which is configured. -/
def legged : State :=
  ((onDoms [4, 5, 6, 7, 8, 9, 10, 11] running).onRxS 0 fun x => { x with conf := true, block := padTo 128 [9] }).onLegCfg 80 fun c =>
    { c with bound := true, a1 := 0x00004000#32 }

/-- The hypotheses of LEG_SET that do not depend on its action, and of room. -/
def legHyps (s : State) (c : CmdWords) (ch : Change) : Prop :=
  s.Offers .mailbox c ∧ c.op = 0x10 ∧ c.a0 &&& 0xFFFFC000#32 = 0 ∧ legCarried s.wingsNext (fld c.a0 0 12) = true ∧
    let u := s.checking .mailbox c
    u.homeless ((u.project u.effectOrd).applyAll (stage .mailbox c u.effectOrd [ch])) = true → ∀ w, w < 8 → u.wingOn w = true

theorem witness_legUnbind :
    let c := cmd 0x10 0x1050#32
    let s := posted legged c
    let t := (s.checking .mailbox c).project s.effectOrd
    legHyps s c (.legUnbind 80) ∧ fld c.a0 12 2 = 1 ∧ c.a4 = 0 ∧ c.a5 = 0 ∧ isNetLeg 80 = true ∧ (t.legCfg 80).bound = true ∧
      (t.legSt 80).armed = none := by
  delta legHyps State.Offers
  decide +kernel

theorem witness_legSet :
    let c := cmd 0x10 0x0051#32 0x00004800#32
    let s := posted legged c
    let t := (s.checking .mailbox c).project s.effectOrd
    legHyps s c (.legSet 81 c.a1 c.a2 c.a3) ∧ fld c.a0 12 2 = 0 ∧ legSetArgsOk c = true ∧ refOther c.a3 = false ∧ echoMode c.a3 ≠ 2 ∧
      legSetStateOk t 81 c.a1 = true := by
  delta legHyps State.Offers
  decide +kernel

/-- The long tail of a line Leg. -/
theorem witness_legSet_line :
    let c := cmd 0x10 0x0000#32 0 0 0x00000002#32
    let s := posted legged c
    let t := (s.checking .mailbox c).project s.effectOrd
    legHyps s c (.legSet 0 c.a1 c.a2 c.a3) ∧ fld c.a0 12 2 = 0 ∧ legSetArgsOk c = true ∧ echoMode c.a3 = 2 ∧ echoMode (t.legCfg 0).a3 ≠ 2 ∧
      (t.longTails s.wingsNext).length < memberTails s.wingsNext ∧ isNetLeg 0 = false := by
  delta legHyps State.Offers
  decide +kernel

theorem witness_legPause :
    let s := fun c => posted (legged.onLegSt 80 fun x => { x with state := .bound }) c
    let p := fun c => posted (legged.onLegSt 80 fun x => { x with state := .paused }) c
    let q := fun c => posted (legged.onLegSt 80 fun x => { x with state := .bound, armed := some { pause := true, ord := 1 } }) c
    let c0 := cmd 0x12 0x0050#32
    let c1 := cmd 0x12 0x1050#32 5
    let c2 := cmd 0x12 0x2050#32
    ((s c0).Offers .mailbox c0 ∧ (p c1).Offers .mailbox c1 ∧ (q c2).Offers .mailbox c2) ∧ zeroFrom c1 2 ∧
      legCarried (s c0).wingsNext 80 = true ∧ (s c0).namedOrd c0.a1 = some 1 ∧ ((s c0).legSt 80).armed = none ∧
      ((((s c0).checking .mailbox c0).project 1).legSt 80).state = .bound ∧ (p c1).namedOrd c1.a1 = some 5 ∧
      ((((p c1).checking .mailbox c1).project 5).legSt 80).state = .paused ∧
      ((q c2).legSt 80).armed = some { pause := true, ord := 1 } ∧ (q c2).effectOrd ≤ 1 := by
  delta State.Offers zeroFrom
  dsimp only
  repeat' with_reducible apply And.intro
  all_goals decide +kernel

/-- A group in use, with its number. -/
def grouped (g : Nat) (s : State) : State := s.onGrp g fun x => { x with state := .open_ }

theorem witness_keySet :
    let c := cmd 0x1A 0x16050#32 0x0100000A#32
    let s := posted (grouped 10 legged) c
    let t := (s.checking .mailbox c).project s.effectOrd
    s.Offers .mailbox c ∧ c.op = 0x1A ∧ c.a0 &&& 0xFFFE0000#32 = 0 ∧ c.a1 &&& 0xFE00FC00#32 = 0 ∧ zeroFrom c 2 ∧ gainOk (keyGain c.a1) = true ∧
      (bit c.a0 12 = false ∧ fld c.a0 13 4 = 11) ∧ legCarried s.wingsNext (fld c.a0 0 12) = true ∧
      keyGroup c.a1 < memberGroups s.wingsNext ∧ (t.legCfg 80).bound = true ∧ keyEn c.a1 = true ∧ (t.grp 10).state ≠ .unused ∧
      ∀ i, i < 16 → i ≠ 11 → keyEn ((t.legCfg 80).listenKey i) = false ∧ keyEn ((t.legCfg 80).talkKey i) = false := by
  delta State.Offers zeroFrom
  decide +kernel

/-- The hypotheses of GRP_SET that do not depend on its action, and of room. -/
def grpHyps (s : State) (c : CmdWords) (ch : Change) : Prop :=
  s.Offers .mailbox c ∧ c.op = 0x18 ∧ c.a0 &&& 0xFC00C000#32 = 0 ∧ c.a4 = 0 ∧ c.a5 = 0 ∧ fld c.a0 0 10 < memberGroups s.wingsNext ∧
    let u := s.checking .mailbox c
    u.homeless ((u.project u.effectOrd).applyAll (stage .mailbox c u.effectOrd [ch])) = true → ∀ w, w < 8 → u.wingOn w = true

/-- A new group, in the last place of the member. -/
theorem witness_grpSet :
    let c := cmd 0x18 0x003F#32 0x00002801#32 0x00000505#32
    let s := posted legged c
    let t := (s.checking .mailbox c).project s.effectOrd
    grpHyps s c (.grpSet 63 0 c.a1 c.a2 c.a3) ∧ fld c.a0 12 2 = 0 ∧ fld c.a0 10 2 = 0 ∧ grpArgsOk 0 c = true ∧ (t.grp 63).state = .unused := by
  delta grpHyps State.Offers
  decide +kernel

/-- An IFB over an open conference. -/
theorem witness_grpSet_ifb :
    let c := cmd 0x18 0x0803#32 0 0 0x00000002#32
    let s := posted (grouped 2 legged) c
    let t := (s.checking .mailbox c).project s.effectOrd
    grpHyps s c (.grpSet 3 2 c.a1 c.a2 c.a3) ∧ fld c.a0 10 2 = 2 ∧ grpArgsOk 2 c = true ∧ (t.grp 3).state ≠ .shared ∧
      fld c.a3 0 10 < memberGroups s.wingsNext ∧ (t.grp 2).state ≠ .unused ∧ (t.grp 2).kind = 0 := by
  delta grpHyps State.Offers
  decide +kernel

theorem witness_grpClose :
    let c := cmd 0x18 0x1002#32
    let s := posted (grouped 2 legged) c
    let t := (s.checking .mailbox c).project s.effectOrd
    grpHyps s c (.grpClose 2) ∧ fld c.a0 12 2 = 1 ∧ (t.grp 2).state = .open_ ∧ t.keyNames 2 = false ∧ t.interrupts 2 = false := by
  delta grpHyps State.Offers
  decide +kernel

/-- The device is ENROLLED in a segment of two, as Homeroom. -/
def enrolled (s : State) : State :=
  (onDoms [21] s).onImdal fun m => { m with state := .enrolled, segment := 3, homeroom := some 0, linkE := .up, linkW := .up, peerE := some 1, peerW := some 1 }

theorem witness_grpShare :
    let c := cmd 0x18 0x00052002#32
    let s := posted (enrolled (grouped 2 legged)) c
    let u := s.checking .mailbox c
    let t := u.project s.effectOrd
    grpHyps s c (.grpShare 2 5) ∧ fld c.a0 12 2 = 2 ∧ fld c.a0 16 10 = 5 ∧ (t.grp 2).state = .open_ ∧ shareBlocked u t 2 5 = false := by
  delta grpHyps State.Offers
  decide +kernel

theorem witness_grpUnshare :
    let c := cmd 0x18 0x3002#32
    let s := posted (enrolled (legged.onGrp 2 fun x => { x with state := .shared, ringNo := 5 })) c
    let t := (s.checking .mailbox c).project s.effectOrd
    grpHyps s c (.grpUnshare 2) ∧ fld c.a0 12 2 = 3 ∧ (t.grp 2).state = .shared ∧
      ∀ y ∈ t.mix.groups, y.2.state = .shared → y.2.kind = 2 → fld y.2.a3 0 10 ≠ 2 := by
  delta grpHyps State.Offers
  decide +kernel

/-- The hypotheses of any command of the mailbox, with its opcode. -/
def offered (s : State) (c : CmdWords) (op : Nat) : Prop := s.Offers .mailbox c ∧ c.op = op

/-- The banks are ON too. -/
def wired : State := onDoms [12, 13, 14, 15, 16, 17] running

/-- A port of bank 0 in a state. -/
def ported (p : Nat) (st : PortState) (s : State) : State := s.onPort p fun x => { x with state := st }

theorem witness_line :
    let c0 := cmd 0x20 0x00000207#32 0x3FFA4B8C#32 0x0000007A#32
    let c1 := cmd 0x21 0x00000207#32
    let c2 := cmd 0x21 0x00000007#32
    let c3 := cmd 0x24 0 0x6964736E#32 0x5850625A#32 0x00014E46#32 0x043C0614#32 0x000015A2#32
    let t := fun c s => (((posted s c).checking .mailbox c).project (posted s c).effectOrd)
    (offered (posted wired c0) c0 0x20 ∧ offered (posted wired c1) c1 0x21 ∧ offered (posted (ported 7 .on wired) c2) c2 0x21 ∧
        offered (posted wired c3) c3 0x24) ∧
      (c0.a0 &&& 0xFFFFFCC0#32 = 0 ∧ c0.a1 &&& 0xC0008000#32 = 0 ∧ c0.a2 &&& 0xFFFFFF80#32 = 0 ∧ fld c0.a1 0 8 ≤ 0x8C ∧ fld c0.a1 8 7 ≤ 0x4B ∧
        fld c0.a1 16 8 ≤ 0xFA ∧ fld c0.a2 0 2 ≠ 3 ∧ fld c0.a2 2 2 ≠ 3 ∧ zeroFrom c0 3 ∧ fld c0.a0 0 6 < memberPorts wired.wingsNext) ∧
      (c1.a0 &&& 0xFFFFFCC0#32 = 0 ∧ fld c1.a0 8 2 = 2 ∧ (((t c1 wired).released 7).port 7).state = .off ∧
        powerNeeds ((posted wired c1).checking .mailbox c1) (t c1 wired) 7 2 = false) ∧
      (fld c2.a0 8 2 = 0 ∧ (((t c2 (ported 7 .on wired)).released 7).port 7).state ≠ .off ∧
        powerNeeds ((posted (ported 7 .on wired) c2).checking .mailbox c2) (t c2 (ported 7 .on wired)) 7 0 = false) ∧
      cardOk c3 = true := by
  delta offered State.Offers zeroFrom
  dsimp only
  repeat' with_reducible apply And.intro
  all_goals decide +kernel

theorem witness_lineActions :
    let c0 := cmd 0x22 0x0007#32
    let c1 := cmd 0x22 0x0107#32
    let c2 := cmd 0x23 0x0C07#32 0xFFFF#32
    let c3 := cmd 0x23 0x0107#32 1
    let on := ported 7 .on wired
    let sounded := on.onSounding 7 fun x => { x with status := 1 }
    let called := on.onWatch 7 fun w => { w with host := some { kind := 1, until_ := 40 } }
    let t := fun c s => (((posted s c).checking .mailbox c).project (posted s c).effectOrd)
    (offered (posted on c0) c0 0x22 ∧ offered (posted sounded c1) c1 0x22 ∧ offered (posted on c2) c2 0x23 ∧ offered (posted called c3) c3 0x23) ∧
      (fld c0.a0 8 2 = 0 ∧ (((t c0 on).released 7).port 7).state = .on ∧ (((t c0 on).released 7).sounding 7).status ≠ 1 ∧
        holdNeeds ((posted on c0).checking .mailbox c0) (t c0 on) 7 = false) ∧
      (fld c1.a0 8 2 = 1 ∧ ((t c1 sounded).sounding 7).status = 1) ∧
      (c2.a0 &&& 0xFFFFF0C0#32 = 0 ∧ fld c2.a0 8 2 = 0 ∧ fld c2.a1 0 16 ≠ 0 ∧ deliversSt (((t c2 on).released 7).port 7).state = true ∧
        holdNeeds ((posted on c2).checking .mailbox c2) (t c2 on) 7 = false) ∧
      (fld c3.a0 8 2 = 1 ∧ (((t c3 called).watch 7).hostNow (posted called c3).effectOrd).isSome = true) := by
  delta offered State.Offers
  dsimp only
  repeat' with_reducible apply And.intro
  all_goals decide +kernel

/-- DAP ON, with a port in a state. -/
def dapped (st : DapState) : State := (onDoms [20] running).onDapP 15 fun d => { d with state := st }

theorem witness_dapSet :
    let c0 := cmd 0x30 0x000A000F#32 0x80808080#32
    let c1 := cmd 0x30 0x0032001F#32
    let c2 := cmd 0x30 0x0001002F#32
    let c3 := cmd 0x30 0x00010030#32
    let muted := (dapped .muted).onDapP 15 fun d => { d with mute := 3, qual := true, cls := .k48 }
    let standing := (dapped .armed).onTime fun t => { t with trig := some ⟨1, 0x8000, false, 1, none⟩ }
    let t := fun c s => (((posted s c).checking .mailbox c).project (posted s c).effectOrd)
    (offered (posted (dapped .ready) c0) c0 0x30 ∧ offered (posted (dapped .ready) c1) c1 0x30 ∧ offered (posted muted c2) c2 0x30 ∧
        offered (posted standing c3) c3 0x30) ∧
      (dapped .ready).domOn dDap = true ∧
      (fld c0.a0 4 2 = 0 ∧ dapSetArgsOk (t c0 (dapped .ready)) c0 = true ∧ dapA0Ok c1.a0 = true ∧ dapA0Ok c2.a0 = true ∧
        dapA0Ok c3.a0 = true ∧
        ((t c0 (dapped .ready)).dapP 15).state = .ready ∧ ((t c0 (dapped .ready)).dapP 15).started = false) ∧
      (fld c1.a0 4 2 = 1 ∧ ((t c1 (dapped .ready)).dapP 15).state = .ready) ∧
      (fld c2.a0 4 2 = 2 ∧ ((t c2 muted).dapP 15).state = .muted ∧ ((t c2 muted).dapP 15).mute = 3 ∧ ((t c2 muted).dapP 15).qual = true ∧
        classOk ((t c2 muted).dapP 15).cls = true) ∧
      (fld c3.a0 4 2 = 3 ∧ (t c3 standing).time.trig ≠ none) := by
  delta offered State.Offers
  dsimp only
  repeat' with_reducible apply And.intro
  all_goals decide +kernel

/-- DAP_START with a mode and act, port 15. -/
def dapStartHyps (s : State) (c : CmdWords) (ord : Nat) : Prop :=
  offered (posted s c) c 0x31 ∧ s.domOn dDap = true ∧ c.a0 &&& 0xFFE00000#32 = 0 ∧ c.a2 &&& 0xFFFFFFE0#32 = 0 ∧ zeroFrom c 3 ∧
    (posted s c).namedOrd c.a1 = some ord ∧ c.a0.extractLsb' 0 16 = 0x8000 ∧ portsOf 0x8000 = [15] ∧
    (((posted s c).checking .mailbox c).project (if fld c.a0 16 2 = 0 ∧ fld c.a0 18 2 = 0 then (posted s c).effectOrd else ord)).time.trig = none ∧
    (posted s c).time.trig = none

theorem witness_dapStart :
    let c0 := cmd 0x31 0x00018000#32
    let c1 := cmd 0x31 0x000C8000#32
    let c2 := cmd 0x31 0x000C8000#32 9
    let c3 := cmd 0x31 0x00148000#32
    let c4 := cmd 0x31 0x00108000#32 9 23
    let st := fun c s (o : Nat) => ((((posted s c).checking .mailbox c).project o).dapP 15).state
    (dapStartHyps (dapped .muted) c0 1 ∧ fld c0.a0 16 2 = 1 ∧ st c0 (dapped .muted) 1 = .muted) ∧
      (dapStartHyps (dapped .ready) c1 1 ∧ fld c1.a0 16 2 = 0 ∧ fld c1.a0 18 2 = 3 ∧ st c1 (dapped .ready) 1 = .ready ∧
        1 ≤ (posted (dapped .ready) c1).effectOrd) ∧
      (dapStartHyps (dapped .ready) c2 9 ∧ (posted (dapped .ready) c2).effectOrd < 9 ∧ st c2 (dapped .ready) 9 = .ready) ∧
      (dapStartHyps (enrolled (dapped .ready)) c3 1 ∧ fld c3.a0 18 2 = 1 ∧ bit c3.a0 20 = true ∧ (enrolled (dapped .ready)).imdal.state = .enrolled ∧
        st c3 (enrolled (dapped .ready)) 1 = .ready) ∧
      (dapStartHyps (enrolled (dapped .ready)) c4 9 ∧ fld c4.a0 18 2 = 0 ∧ bit c4.a0 20 = true ∧ fld c4.a2 0 5 < 24 ∧
        st c4 (enrolled (dapped .ready)) (posted (enrolled (dapped .ready)) c4).effectOrd = .ready) := by
  delta dapStartHyps offered State.Offers zeroFrom
  dsimp only
  repeat' with_reducible apply And.intro
  all_goals decide +kernel

/-- An RX stream in a state, with one path to a group on NET0. -/
def rxStreamed (st : StreamState) (s : State) : State :=
  s.onRxS 3 fun x => { x with conf := true, state := st, block := padTo 128 (leBytes 4 1 ++ leBytes 4 4 ++ zeros 8 ++ [224, 0, 1, 5]) }

theorem witness_streams :
    let c0 := cmd 0x40 0x1003#32
    let c1 := cmd 0x40 0x0004#32 0x10030000#32
    let c2 := cmd 0x41 0x0003#32
    let c3 := cmd 0x41 0x1003#32 7
    let c4 := cmd 0x41 0x2003#32
    let idle := rxStreamed .idle running
    let placed := (rxStreamed .idle running).onMem fun m => { m with sram := Memory.writeBytes 0xC0000 (leBytes 4 1 ++ leBytes 4 4) m.sram }
    let runs := rxStreamed .run running
    let armed := (rxStreamed .armed running).onRxS 3 fun x => { x with armed := [{ pause := false, ord := 1 }] }
    let t := fun c s => (((posted s c).checking .mailbox c).project (posted s c).effectOrd)
    (offered (posted idle c0) c0 0x40 ∧ offered (posted placed c1) c1 0x40 ∧ offered (posted runs c2) c2 0x41 ∧ offered (posted idle c3) c3 0x41 ∧
        offered (posted armed c4) c4 0x41) ∧
      (fld c0.a0 12 2 = 1 ∧ ((t c0 idle).strm false 3).conf = true ∧ ((t c0 idle).strm false 3).state = .idle ∧
        ((t c0 idle).strm false 3).armed = [] ∧ (t c0 idle).legsOn false 3 = []) ∧
      (fld c1.a0 12 2 = 0 ∧ blockAt placed.regions c1.a1 128 = some (.sram 0xC0000) ∧
        strBlockOk ((posted placed c1).readBlock (.sram 0xC0000) 128) false = true ∧
        (∀ y ∈ (t c1 placed).media.rx, y.1 ≠ 4 → y.2.conf = true → strClash ((posted placed c1).readBlock (.sram 0xC0000) 128) y.2.block = false) ∧
        (t c1 placed).legsOn false 4 = [] ∧ ((t c1 placed).strm false 4).state = .idle) ∧
      (fld c2.a0 12 2 = 0 ∧ (posted runs c2).namedOrd c2.a1 = some 1 ∧
        (((posted runs c2).checking .mailbox c2).project 1 |>.strm false 3).state = .run ∧
        (((posted runs c2).checking .mailbox c2).project 1 |>.strm false 3).armed = []) ∧
      (fld c3.a0 12 2 = 1 ∧ (posted idle c3).namedOrd c3.a1 = some 7 ∧
        ((((posted idle c3).checking .mailbox c3).project 7).strm false 3).conf = true ∧
        ((((posted idle c3).checking .mailbox c3).project 7).strm false 3).state = .idle ∧
        ((((posted idle c3).checking .mailbox c3).project 7).strm false 3).armed = []) ∧
      (fld c4.a0 12 2 = 2 ∧ { pause := false, ord := 1 } ∈ (armed.strm false 3).armed ∧ (posted armed c4).effectOrd ≤ 1) := by
  delta offered State.Offers
  dsimp only
  repeat' with_reducible apply And.intro
  all_goals decide +kernel

theorem witness_shaping :
    let c0 := cmd 0x42 0x0071#32 25000000 16777216 25000000 16777216 0x13F
    let c1 := cmd 0x42 0x0003#32 0x01900064#32 250
    let c2 := cmd 0x42 0x0025#32 0xFF
    let c3 := cmd 0x43 0x00FF#32 0 0 0 0 0x07FF000C#32
    let c4 := cmd 0x43 0x0100#32 0xAAAAAAAA#32 0x55555555#32
    let c5 := cmd 0x43 0x0200#32 0xAAAA#32
    (offered (posted running c0) c0 0x42 ∧ offered (posted running c1) c1 0x42 ∧ offered (posted running c2) c2 0x42 ∧
        offered (posted running c3) c3 0x43 ∧ offered (posted running c4) c4 0x43 ∧ offered (posted running c5) c5 0x43) ∧
      (fld c0.a0 1 2 = 0 ∧ c0.a0 &&& 0xFFFFFF88#32 = 0 ∧ ratesOk c0 = true ∧ c0.a5 &&& 0xFFFFFEC0#32 = 0) ∧
      (fld c1.a0 1 2 = 1 ∧ c1.a0 &&& 0xFFFFFFF8#32 = 0 ∧ c1.a1 &&& 0xFE00FE00#32 = 0 ∧ fld c1.a1 0 9 ≤ 499 ∧ fld c1.a1 16 9 ≤ 400 ∧
        fld c1.a1 0 9 + fld c1.a1 16 9 ≤ 500 ∧ c1.a2 &&& 0xFFFFFF00#32 = 0 ∧ fld c1.a2 0 8 ≤ 250 ∧ zeroFrom c1 3) ∧
      (fld c2.a0 1 2 = 2 ∧ c2.a0 &&& 0xFFFFFF88#32 = 0 ∧ fld c2.a0 4 3 ≤ 2 ∧ fld c2.a1 0 8 ≠ 0 ∧ c2.a1 &&& 0xFFFFFF00#32 = 0 ∧ zeroFrom c2 2) ∧
      (fld c3.a0 8 2 = 0 ∧ c3.a0 &&& 0xFFFFFC00#32 = 0 ∧ ratesOk c3 = true ∧ policerA5Ok c3.a5 = true) ∧
      (fld c4.a0 8 2 = 1 ∧ mapOk c4.a1 16 = true ∧ mapOk c4.a2 16 = true ∧ mapOk c4.a3 16 = true ∧ mapOk c4.a4 16 = true ∧ c4.a5 = 0) ∧
      fld c5.a0 8 2 = 2 ∧ mapOk c5.a1 8 = true ∧ c5.a1 &&& 0xFFFF0000#32 = 0 ∧ zeroFrom c5 2 := by
  delta offered State.Offers zeroFrom
  dsimp only
  repeat' with_reducible apply And.intro
  all_goals decide +kernel

theorem witness_ringSet :
    let c0 := cmd 0x44 0x0001#32 0x003C004F#32 0x03E703E6#32 0x00640063#32 0x33221100#32 0x5444#32
    let c1 := cmd 0x44 0x0E03#32 0x80000000#32 0x80001000#32 0x80010000#32 0x00010000#32 0x00004000#32
    let c2 := cmd 0x44 0x0404#32 0x80000000#32 0x80000001#32 0 0 0x00000040#32
    let c3 := cmd 0x44 0x0F06#32 0x11F1FFFF#32 0xF01FFFFF#32 0x8000000E#32
    let c4 := cmd 0x44 0x0009#32 0x000047F1#32 0x00808080#32 0x00008080#32
    let c5 := cmd 0x44 0x0008#32 0x000047F2#32 0x00808080#32 0x00008080#32
    let bc := running.onNetP 1 fun n => { n with p1 := 0x000047F2#32 }
    let t := fun c s => (((posted s c).checking .mailbox c).project (posted s c).effectOrd)
    (offered (posted running c0) c0 0x44 ∧ offered (posted running c1) c1 0x44 ∧ offered (posted running c2) c2 0x44 ∧
        offered (posted running c3) c3 0x44 ∧ offered (posted running c4) c4 0x44 ∧ offered (posted bc c5) c5 0x44) ∧
      (c0.a0 &&& 0xFFFFF0F0#32 = 0 ∧ fld c0.a0 1 3 = 0 ∧ fld c0.a0 8 4 = 0 ∧ netPortOk c0 = true) ∧
      (fld c1.a0 1 3 = 1 ∧ netRingOk (t c1 running) 1 false 14 c1 = true ∧ bit (((t c1 running).netP 1).ring 14).a2 31 = false) ∧
      (fld c2.a0 1 3 = 2 ∧ netRingOk (t c2 running) 0 true 4 c2 = true ∧ bit (((t c2 running).netP 0).ring 20).a2 31 = false) ∧
      (fld c3.a0 1 3 = 3 ∧ c3.a1 &&& 0xE00E0000#32 = 0 ∧ c3.a2 &&& 0x0FE00000#32 = 0 ∧ c3.a3 &&& 0x7FFFFFF0#32 = 0 ∧ fld c3.a3 0 4 ≠ 15 ∧
        zeroFrom c3 4) ∧
      (fld c4.a0 1 3 = 4 ∧ fld c4.a0 8 4 = 0 ∧ netPtpOk c4 = true ∧ fld c4.a1 0 2 = 1) ∧
      netPtpOk c5 = true ∧ fld c5.a1 0 2 = 2 ∧ ((t c5 bc).netP (otherPort 0)).ptpRole = 2 := by
  delta offered State.Offers zeroFrom
  dsimp only
  repeat' with_reducible apply And.intro
  all_goals decide +kernel

theorem witness_joinAndPower :
    let c0 := cmd 0x50 0 6
    let c1 := cmd 0x50 1
    let c2 := cmd 0x70 0x010C#32 2
    let c3 := cmd 0x70 0x0211#32 1000
    let c4 := cmd 0x70 0x0000#32 0x3FFFFF#32
    let p := fun s c o => ((posted s c).checking .mailbox c).project o
    (offered (posted running c0) c0 0x50 ∧ offered (posted (enrolled running) c1) c1 0x50 ∧ offered (posted running c2) c2 0x70 ∧
        offered (posted running c3) c3 0x70 ∧ offered (posted running c4) c4 0x70) ∧
      (joinArgsOk ((posted running c0).checking .mailbox c0) c0 = true ∧ (posted running c0).namedOrd c0.a1 = some 6 ∧ fld c0.a0 0 3 = 0 ∧
        (p running c0 6).imdal.state = .solo ∧ running.imdal.sameIndex = false) ∧
      (joinArgsOk ((posted (enrolled running) c1).checking .mailbox c1) c1 = true ∧ (posted (enrolled running) c1).namedOrd c1.a1 = some 1 ∧
        fld c1.a0 0 3 = 1 ∧ (p (enrolled running) c1 1).imdal.state ≠ .solo) ∧
      pwrArgsOk c2 = true ∧ fld c2.a0 8 2 = 1 ∧ pwrArgsOk c3 = true ∧ fld c3.a0 8 2 = 2 ∧ fld c4.a0 8 2 = 0 := by
  delta offered State.Offers
  dsimp only
  repeat' with_reducible apply And.intro
  all_goals decide +kernel

theorem witness_reads :
    let c0 := cmd 0x11 0x0050#32 0x10030000#32
    let c1 := cmd 0x19 0x003F#32 0x1003FFF8#32
    let c2 := cmd 0x60 0x0001#32 0x1003FC00#32
    let u := fun c => (posted running c).checking .mailbox c
    (offered (posted running (cmd 0 0)) (cmd 0 0) 0 ∧ offered (posted running c0) c0 0x11 ∧ offered (posted running c1) c1 0x19 ∧
        offered (posted running c2) c2 0x60) ∧
      (c0.a0 &&& 0xFFFFF000#32 = 0 ∧ zeroFrom c0 2 ∧ blockAt (u c0).regions c0.a1 128 = some (.sram 0xC0000) ∧
        legCarried running.wingsNext 0x50 = true) ∧
      (c1.a0 &&& 0xFFFFFC00#32 = 0 ∧ zeroFrom c1 2 ∧ blockAt (u c1).regions c1.a1 32 = some (.sram 0xFFFE0) ∧
        fld c1.a0 0 10 < memberGroups running.wingsNext) ∧
      c2.a0 &&& 0xFFFFFFFC#32 = 0 ∧ fld c2.a0 0 2 = 1 ∧ zeroFrom c2 2 ∧ blockAt (u c2).regions c2.a1 4096 = some (.sram 0xFF000) := by
  delta offered State.Offers zeroFrom
  dsimp only
  repeat' with_reducible apply And.intro
  all_goals decide +kernel

theorem witness_later :
    let c0 := cmd 0x78 0
    let c1 := cmd 0x79 7
    let c2 := cmd 0xFF 0
    (offered (posted running c0) c0 0x78 ∧ offered (posted running c1) c1 0x79 ∧ offered (posted running c2) c2 0xFF) ∧ zeroFrom c0 0 ∧
      (c1.a0 &&& 0xFFFFFFF8#32 = 0 ∧ c1.a0 ≠ 0 ∧ zeroFrom c1 1 ∧
        ∀ l ∈ (posted running c1).cmd.snaps, l.taken = false → l.banks &&& c1.a0.setWidth 3 = 0) ∧
      isDefined c2.op = false := by
  delta offered State.Offers zeroFrom
  dsimp only
  repeat' with_reducible apply And.intro
  all_goals decide +kernel

theorem witness_epochAndLimit :
    let c := { cmd 0x100 0 with epoch := 1 }
    let d := cmd 0x20 0
    let s := ringed running c
    let l := (posted running d).onCmd fun m => { m with accepted := 64 }
    (s.front .ring = some c ∧ isDefined c.op = true ∧ s.boot.boot = 4 ∧ s.domOn dMgmt = true ∧ s.cmd.accepted < 64 ∧ c.op ≠ 0x70 ∧
        c.chk = true ∧ c.epoch ≠ s.cmd.epoch ∧
        ((s.checking .ring c).ownChecks (handlerOf c.op) { src := srcOf .ring, cmd := c, param := none }).waits = false) ∧
      l.front .mailbox = some d ∧ isConfig d.op = true ∧ l.boot.boot = 4 ∧ l.domOn dMgmt = true ∧ 64 ≤ l.cmd.accepted := by decide +kernel

theorem witness_waitReleased :
    let w : Waiting := { src := .mailbox, cmd := cmd 0x20 0, why := .limit }
    let s := running.onCmd fun m => { m with waiting := some w }
    s.cmd.waiting = some w ∧ w.src = .mailbox ∧ s.cmd.waitParam = none ∧ s.waitOver w = true := by decide +kernel

theorem witness_forwards :
    let t := enrolled running
    let s := t.onCmd fun m => { m with peerCmd := false }
    let v := s.onCmd fun m => { m with waiting := some { src := .mailbox, cmd := cmd 0x20 0, why := .limit } }
    let c := cmd 0x50 0x00340103#32
    let f : ForwardOut := { src := .mailbox, cmd := c, target := 1, op := 3, body := .regRead 52, side := 0 }
    let g : ForwardOut := { src := .ring, cmd := cmd 0x50 0x0102#32 0x10030000#32, target := 1, op := 2, body := .command (cmd 0 0) [], side := 0 }
    let n := ((posted s c).checking .mailbox c |>.project (posted s c).effectOrd).imdal
    let y := (s.onCmd fun m => { m with fwd := [f] })
    (s.imdal.state = .enrolled ∧ s.imdal.segment.getLsbD 1 = true ∧ v.cmd.waiting ≠ none ∧ s.cmd.waiting = none ∧ s.cmd.peerQ = [] ∧
        s.peerBusy = false ∧ t.peerBusy = false ∧ BitVec.ofNat 3 (0 : RingIx).val = s.imdal.index ∧ BitVec.ofNat 3 (2 : RingIx).val ≠ s.imdal.index ∧
        badWords t.mem.badSram peerResultAt 128 = [] ∧ n.state = .enrolled ∧ n.segment.getLsbD 1 = true ∧ s.cmd.peerCmd = false ∧ t.cmd.peerCmd = true ∧ (52 : Fin 53).val ≠ regWinData ∧ (52 : Fin 53).val ≠ regWinDataInc ∧ (cmd 0 0).op = 0 ∧
        (cmd 0 0).chk = false ∧ t.boot.boot = 4 ∧ t.domOn dMgmt = true) ∧
      (offered (posted s c) c 0x50 ∧ joinArgsOk ((posted s c).checking .mailbox c) c = true ∧ 2 ≤ fld c.a0 0 3 ∧
        s.imdal.segment.getLsbD (fld c.a0 8 3) = true) ∧
      (y.cmd.fwd = f :: [] ∧ f.src = srcOf .mailbox ∧ y.cmd.takenBase = y.cmd.base ∧ y.cmd.mbox = none ∧ f.op ≠ 2) ∧
      g.src = srcOf .ring ∧ g.op = 2 ∧ blockAt [] g.cmd.a1 292 = some (.sram 0xC0000) := by
  delta offered State.Offers
  dsimp only
  repeat' with_reducible apply And.intro
  all_goals decide +kernel

/-! Shelf port, timebase. -/

/-- MGMT is OFF and the Bell rings. -/
theorem witness_shelf :
    running.shelfReady = true ∧ ({ running.shelf with ptr := 0x42 } : Shelf).ptr.toNat ≤ 0x42 ∧ (0x42 : Byte).toNat ≤ 0x42 ∧ running.hbi.ready = true ∧
      running.domOn dMgmt = true ∧ State.reset.domOn dMgmt = false ∧ State.reset.sspAddress ≠ State.reset.sspAddress + 1 := by decide +kernel

/-- The timebase with some fields. -/
def timed (f : Time → Time) (s : State) : State := s.onTime f

theorem witness_timebase :
    let s := timed (fun t => { t with slew := true, residual := -5, slewed := -5 * 2 ^ 24 }) running
    let p := timed (fun t => { t with refAct := 1, goodFrom := some 0, mono := 8000000000 }) running
    let w := timed (fun t => { t with state := 1, refAct := 2, goodFrom := some 5, mono := 1000000005 }) running
    let i := timed (fun t => { t with refAct := 3 }) ((enrolled running).onImdal fun m => { m with hrState := 0, heard := some 1 })
    let h := timed (fun t => { t with refAct := 3, state := 0 }) (enrolled running)
    running.time.state ≠ 2 ∧ s.time.slew = true ∧ s.time.residual.natAbs * 2 ^ 24 ≤ s.time.slewed.natAbs ∧ i.imdal.heard ≠ none ∧ p.time.state = 3 ∧ p.time.refAct = 1 ∧ p.time.goodFrom = some 0 ∧
      0 + 8000000000 ≤ p.time.mono.toNat ∧ w.time.state = 1 ∧ w.time.refAct = 2 ∧ w.time.goodFrom = some 5 ∧
      5 + 1000000000 ≤ w.time.mono.toNat ∧ i.time.state = 3 ∧ i.time.refAct = 3 ∧ i.imdal.hrState = 0 ∧ i.imdal.offsetPs.natAbs ≤ 2000 ∧
      h.time.refAct = 3 ∧ h.time.state = 0 := by
  dsimp only
  repeat' with_reducible apply And.intro
  all_goals decide +kernel

theorem witness_references :
    let s := timed (fun t => { t with refSel := 2, wclkFrom := some 0, mono := 1000000000 }) running
    let u := timed (fun t => { t with refSel := 2, refAct := 2, state := 0, wclkOk := true }) running
    let v := (timed (fun t => { t with refAct := 1, ptpGm := 9, ptpQual := true }) running).onNetP 0 fun n => { n with state := .up }
    47952000 ≤ (47952000 : Word).toNat ∧ (48048000 : Word).toNat ≤ 48048000 ∧ s.time.wclkOk = false ∧ s.follower = false ∧ s.time.refSel = 2 ∧
      u.time.wclkOk = true ∧ u.follower = false ∧ u.time.refSel = 2 ∧ u.time.refAct = 2 ∧ u.time.state = 0 ∧ (-10416 : Int).natAbs ≤ 10416 ∧
      s.time.wclkFrom = some 0 ∧ 0 + 1000000000 ≤ s.time.mono.toNat ∧
      v.domOn dMgmt = true ∧ (v.netP 0).state = .up ∧ (v.netP 0).ptpRole ≠ 0 ∧ v.ptpServes 0 = true ∧ v.time.refAct = 1 ∧ v.time.ptpGm = 9 ∧
      v.time.state ≠ 2 := by
  dsimp only
  repeat' with_reducible apply And.intro
  all_goals decide +kernel

theorem witness_captureAndTrigger :
    let a := timed (fun t => { t with arm := true, trigSel := 2 }) running
    let g : Trigger := ⟨1, 0x8000, true, 0, none⟩
    let r : Trigger := ⟨2, 0x8000, false, 0, none⟩
    let d : Trigger := ⟨0, 0x8000, false, 0, some (0, 23)⟩
    let s := fun g => timed (fun t => { t with trig := some g }) (dapped .armed)
    a.time.arm = true ∧ a.time.trigSel = capCode .startIn ∧ ((s g).time.trig = some g ∧ g.mode = 1 ∧ g.fromOrd ≤ (s g).time.ord ∧ g.point = none) ∧
      ((s r).time.trig = some r ∧ r.mode = 2 ∧ r.fromOrd ≤ (s r).time.ord ∧ inFuture 0x7FFFFFFF (s r).time.pidx = true ∧
        inFuture 0x80000000 (s r).time.pidx = false ∧ (0x80000000 : Word) ≠ (s r).time.pidx ∧ (s r).time.pidx = 0 ∧ (s r).sampleNow < 23 ∧
        0 ≤ (s r).sampleNow) ∧
      ((s d).time.trig = some d ∧ d.point = some (0, 23) ∧ 0 ≤ (s d).time.ord ∧ d.fromOrd ≤ (s d).time.ord ∧ 15 ∈ portsOf d.ports ∧
        ((s d).dapP 15).state = .armed) := by decide +kernel

/-! Line ports. -/

/-- Port 7 with some fields. -/
def port7 (f : PortSt → PortSt) : State := wired.onPort 7 f

theorem witness_portTransitions :
    let c := port7 fun x => { x with state := .ramp }
    let t := c.onTime fun t => { t with ord := 600 }
    let o := port7 fun x => { x with state := .on, cregRun := 3 }
    let f := port7 fun x => { x with state := .fold, vregRun := 39 }
    let g := (port7 fun x => { x with gateOff := some 0, i10 := 201 }).onTime fun t => { t with mono := 1000000 }
    (c.port 7).state = .ramp ∧ (c.targetMv 7 : Int) - 500 ≤ 23500 ∧ 23500 ≤ (c.targetMv 7 : Int) + 500 ∧
      (t.port 7).rampOrd + (t.port 7).rampT + 100 ≤ t.time.ord ∧ (o.port 7).state = .on ∧ 3 ≤ (o.port 7).cregRun ∧
      (f.port 7).state = .fold ∧ 39 ≤ (f.port 7).vregRun ∧ poweredSt (o.port 7).state = true ∧ (g.port 7).gateOff = some 0 ∧
      0 + 1000000 ≤ g.time.mono.toNat ∧ 200 < (g.port 7).i10 ∧ (g.port 7).state ≠ .fault := by decide +kernel

theorem witness_surges :
    let x := port7 fun x => { x with state := .on, surgeOrds := List.replicate 7 0 }
    let y := port7 fun x => { x with state := .on, surgeOrds := List.replicate 8 0 }
    let r := port7 fun x => { x with state := .ramp }
    let z := (port7 fun x => { x with state := .on, surgeFrom := some 1 }).onTime fun t => { t with mono := 2000001 }
    let recent := fun (s : State) => (s.port 7).surgeOrds.filter fun o => decide (s.time.ord < o + 2000)
    poweredSt (x.port 7).state = true ∧ (x.port 7).state ≠ .hold ∧ (recent x).length ≤ 7 ∧ 8 ≤ (recent y).length ∧ (r.port 7).state = .ramp ∧
      (z.port 7).surgeFrom = some 1 ∧ (z.port 7).state = .on ∧ z.time.mono.toNat ≤ 1 + 2000000 ∧ 1 + 2000000 ≤ z.time.mono.toNat := by
  dsimp only
  repeat' with_reducible apply And.intro
  all_goals decide +kernel

/-- The budget is exceeded. -/
def spent (s : State) : State := s.onLine fun l => { l with card0 := 0x0001000A#32, draws := List.replicate 40 1000000 }

theorem witness_ladder :
    let l := port7 fun x => { x with state := .on }
    let b := spent l
    let o := spent wired
    let z := wired.onLine fun l => { l with steps := 3, above := [100, 100, 0, 0, 0] }
    let r := (port7 fun x => { x with state := .shed, byBudget := true }).onLine fun l => { l with fitRun := 2000 }
    (l.line.ladderEn = true ∧ l.line.steps.getLsbD 2 = false ∧ 0 < l.line.enterMv 2 ∧ (l.portCfg 7).cls.toNat = 5 - (2 : Fin 5).val ∧
        poweredSt (l.port 7).state = true) ∧
      (z.line.steps.getLsbD (1 : Fin 5) = true ∧ z.line.steps.toNat < 2 ^ ((1 : Fin 5).val + 1) ∧ 100 ≤ z.line.above.getD 1 0) ∧
      (b.line.overBudget = true ∧ b.shedNext = some 7 ∧ o.line.overBudget = true ∧ o.shedNext = none ∧ o.line.over0 = false) ∧
      r.returnNext = some 7 ∧ 2000 ≤ r.line.fitRun := by
  dsimp only
  repeat' with_reducible apply And.intro
  all_goals decide +kernel

/-- Port 7 ON with a watch. -/
def watched (f : Watch → Watch) : State := (port7 fun x => { x with state := .on }).onWatch 7 f

theorem witness_attendance :
    let st : Step := { pidx := 4, ord := 4, means := List.replicate 40 600 }
    let s := watched fun w => { w with step := some st, is_ := some 0 }
    let e := watched fun w => { w with entry := true, is_ := some 119 }
    let c := watched fun w => { w with toneOn := 40, dcOn := 20 }
    let d := watched fun w => { w with tone := true, toneOff := 40, dc := true, dcOff := 20 }
    let h := watched fun w => { w with host := some { kind := 1, until_ := 0 } }
    ((s.watch 7).step = some st ∧ (s.watch 7).is_ = some 0 ∧ stepQualified st = true ∧ (s.watch 7).count = some 0 ∧
        (s.watch 7).draws = [none, none, none, none] ∧ (s.watch 7).counts = [0, 0, 0, 0] ∧ 250 ≤ meanOf st.means - 0 ∧ meanOf st.means - 0 ≤ 600) ∧
      ((e.watch 7).entry = true ∧ (e.watch 7).is_ = some 119 ∧ (119 : Rat) < 120) ∧
      (deliversSt (c.port 7).state = true ∧ (c.watch 7).tone = false ∧ 40 ≤ (c.watch 7).toneOn ∧ (c.watch 7).dc = false ∧ 20 ≤ (c.watch 7).dcOn) ∧
      ((d.watch 7).tone = true ∧ 40 ≤ (d.watch 7).toneOff ∧ (d.watch 7).dc = true ∧ 20 ≤ (d.watch 7).dcOff) ∧
      (h.watch 7).host = some { kind := 1, until_ := 0 } ∧ 0 ≤ h.time.ord := by
  dsimp only
  repeat' with_reducible apply And.intro
  all_goals decide +kernel

theorem witness_faults :
    let s := (watched fun w => { w with shortRun := 19 })
    let o := watched fun w => { w with openRun := 9999 }
    let f := (port7 fun x => { x with state := .fold }).onWatch 7 fun w => { w with foldRun := 1999 }
    let r := (port7 fun x => { x with state := .fault, cause := BitVec.ofNat 8 cauShort }).onWatch 7 fun w => { w with notShort := 10 }
    let p := (port7 fun x => { x with state := .probe }).onTime fun t => { t with mono := 101000000 }
    let z := ((port7 fun x => { x with state := .on }).onSounding 7 fun x => { x with status := 1 }).onTime fun t => { t with ord := 399 }
    s.faultStands 7 .short 5 = true ∧ s.faultStands 7 .overcurrent 0xFFFF = true ∧ o.line.openEn = o.faultStands 7 .open_ 0 ∧
        f.faultStands 7 .foldback 0 = true ∧
      ((r.port 7).state = .fault ∧ (r.port 7).ask = false ∧ (r.watch 7).latched = false ∧ (r.portCfg 7).mode = 0 ∧ r.recovers 7 = true ∧
        r.bankUp (bankOf 7) = true ∧ ((r.watch 7).recoveries.filter fun o => decide (r.time.ord < o + 120000)).length ≤ 4) ∧
      p.probeDue 7 = true ∧ (z.portCfg 7).autoComp = true ∧
      (z.sounding 7).status = 1 ∧ (z.sounding 7).startOrd + 399 ≤ z.time.ord ∧ (z.sounding 7).abort = 0 ∧ (1250 : Nat) ≤ 1250 := by
  dsimp only
  repeat' with_reducible apply And.intro
  all_goals decide +kernel

theorem witness_banks :
    let b := fun f => (port7 fun x => { x with state := .on }).onBank 0 f
    let a := b fun x => { x with leak := 0xFFFF, leakRun := 199 }
    let l := (b fun x => { x with localising := true }).onTime fun t => { t with ord := 4000 }
    let t := b fun x => { x with warnRun := 1999, tripRun := 1998, critRun := 1998 }
    let p := (wired.onDom 12 fun x => { x with state := .proofing }).onTime fun t => { t with mono := 200000000 }
    let q := b fun x => { x with hitVote := true, quiet := 2000 }
    ((a.bank 0).localising = false ∧ a.line.leakTrip ≤ (a.bank 0).leak ∧ 199 ≤ (a.bank 0).leakRun) ∧
      ((l.bank 0).localising = true ∧ (l.bank 0).locOrd + 4000 ≤ l.time.ord ∧ 7 / 8 = (0 : Fin 6).val ∧ poweredSt (l.port 7).state = true ∧
        ((bankPorts 0).filter fun q => poweredSt (l.port q).state).find? (fun q => (l.bank 0).explains (q % 8)) = none) ∧
      (1999 ≤ (t.bank 0).warnRun ∧ (t.bank 0).tempWarn = false ∧ (t.bank 0).tripRun < 1999 ∧ (t.bank 0).critRun < 1999) ∧
      ((p.dom (dBank 0)).state = .proofing ∧ (p.bank 0).winRun < (p.bank 0).cycle p.time.mono.toNat ∧ bankHits p.line ⟨0, some 25⟩ = 0) ∧ (q.bank 0).hitVote = true ∧ 2000 ≤ (q.bank 0).quiet := by
  dsimp only
  repeat' with_reducible apply And.intro
  all_goals decide +kernel

/-! Tiles, the Period. -/

/-- A tile in a state, its Wing ON. -/
def tiled (k : Nat) (f : Tile → Tile) : State := (onDoms [4] running).onTile k f

theorem witness_tiles :
    let a := tiled 8 fun x => { x with state := .substitute, failOrd := some 0 }
    let b := (tiled 0 fun x => { x with state := .working }).onTile 8 fun x => { x with state := .substitute }
    let c := tiled 8 fun x => { x with state := .working, catching := true }
    let o := (tiled 8 fun x => { x with state := .out, failOrd := some 0 }).onTime fun t => { t with ord := 2000 }
    (a.wingOn (wingOf 8) = true ∧ (a.tile 8).state = .substitute ∧ a.time.ord ≤ 0 + 7200000) ∧
      (b.wingOn (wingOf 0) = true ∧ (b.tile 0).state = .working ∧ b.tiles.fallPeriod = false ∧ b.pool = [8]) ∧
      ((c.tile 8).state = .working ∧ (c.tile 8).catching = true ∧ c.redoing 8 = []) ∧
      ((o.tile 8).state = .out ∧ (o.tile 8).failOrd = some 0 ∧ 0 + 2000 ≤ o.time.ord ∧ o.wingOn (wingOf 8) = true) ∧
      (running.tile 8).state = .test ∧ 8 ∉ running.tiles.passed := by
  dsimp only
  repeat' with_reducible apply And.intro
  all_goals decide +kernel

/-- A member of two Wings of which so many tiles are healthy. -/
def memberOf (n : Nat) : State :=
  ((upto (72 - n)).foldl (fun s k => s.onTile (71 - k) fun x => { x with state := .out }) running).onTiles fun x => { x with wings := 2, stepping := false }

theorem witness_member :
    let r := running.onTiles fun x => { x with repackDue := true, stepping := false }
    let f := memberOf 10
    let g := ((upto 22).foldl (fun s k => s.onTile k fun x => { x with state := .working }) (memberOf 22)).onTiles fun x => { x with riseRun := 2000 }
    let u := g.onTiles fun x => { x with stepping := true, testedAt := some 0 }
    let v := (memberOf 22).onTiles fun x => { x with stepping := true, testedAt := some 0, wings := 8 }
    (r.boot.boot = 4 ∧ r.tiles.repackDue = true ∧ ∀ k, k < 72 → (r.tile k).catching = false) ∧ f.healthyTiles < requirement f.wingsNext ∧
      (g.tiles.stepping = false ∧ g.tiles.nextWings = none ∧ g.tiles.wings < pinnedWings g.boot.memberPin ∧ 2000 ≤ g.tiles.riseRun ∧
        requirement (memberUp g.tiles.wings) ≤ g.proven) ∧
      (u.tiles.stepping = true ∧ u.stepDue = true ∧ u.tiles.nextWings = none ∧ u.tiles.wings < pinnedWings u.boot.memberPin ∧
        requirement (memberUp u.tiles.wings) ≤ u.proven) ∧
      v.stepDue = true ∧ pinnedWings v.boot.memberPin ≤ v.tiles.wings := by
  dsimp only
  repeat' with_reducible apply And.intro
  all_goals decide +kernel

/-- Data at a stage in the compute Period, in the emit Period. -/
def computing (n : Nat) : State := running.onMix fun m => { m with compute := some { stage := n } }
def emitting (f : DataSet → DataSet) : State := running.onMix fun m => { m with emit := some (f {}) }

theorem witness_compute :
    (computing 0).mix.compute = some { stage := 0 } ∧ (computing 4).mix.compute = some { stage := 4 } ∧
      (computing 0).delivered 1 { stage := 0 } = true ∧
      ({ stage := 2 } : DataSet).awaited = [] ∧ (computing 2).mix.emit = none ∧ (computing 2).inRounds = false := by decide +kernel

theorem witness_emit :
    let l := emitting fun d => { d with stage := 5, late := true }
    let e := emitting fun d => { d with stage := 5 }
    let k := (computing 0).onTile 3 fun x => { x with state := .working }
    let c := ((computing 1).onMix fun m => { m with compute := some { stage := 1, pidx := 0x1FF } })
    (l.mix.emit = some { stage := 5, late := true } ∧ l.mix.compute = none ∧ l.inRounds = false) ∧ e.mix.emit = some { stage := 5 } ∧
      (k.mix.emit = none ∧ k.mix.compute = some { stage := 0 } ∧ (k.tile 3).state = .working) ∧
      ((enrolled c).carries (0 : SideIx) = true ∧ (enrolled c).mix.compute = some { stage := 1, pidx := 0x1FF } ∧
        (0x1FF : Word).setWidth 8 = ({ silentRec with tag := 0xFF } : RedRecord).tag) ∧ running.boot.held = false := by
  dsimp only
  repeat' with_reducible apply And.intro
  all_goals decide +kernel

theorem witness_chains :
    let f := running.onEchoL 7 fun e => { e with state := .fast, fastLeft := 0 }
    let d := running.onEchoL 7 fun e => { e with state := .dt, dtLeft := 0 }
    let v := running.onVadL 7 fun v => { v with count := 200 }
    let h := running.onHumL 7 fun h => { h with state := .search, count := 8000, bins := [(0x3F800000#32, 0)] }
    let e := running.onHumL 7 fun h => { h with state := .search, running := true, heldRun := 4000 }
    let k := running.onHumL 7 fun h => { h with state := .locked, lowRun := 2000, fast := true }
    (f.lastChain 7).1.state = .fast ∧ (f.lastChain 7).1.fastLeft = 0 ∧ (d.lastChain 7).1.state = .dt ∧ (d.lastChain 7).1.dtLeft = 0 ∧
      200 ≤ (v.lastChain 7).2.1.count ∧ (7 : LegIx).val = (7 : PortIx).val ∧ (h.lastChain 7).2.2.state = .search ∧
      8000 ≤ (h.lastChain 7).2.2.count ∧ (h.lastChain 7).2.2.paused = false ∧
      (h.lastChain 7).2.2.strongest ≠ none ∧
      (e.lastChain 7).2.2.state = .search ∧ (e.lastChain 7).2.2.running = true ∧ 4000 ≤ (e.lastChain 7).2.2.heldRun ∧
      (k.lastChain 7).2.2.state = .locked ∧ (k.lastChain 7).2.2.paused = false ∧ 2000 ≤ (k.lastChain 7).2.2.lowRun ∧
      (k.lastChain 7).2.2.fast = true := by decide +kernel

theorem witness_dap :
    let d := fun f => (onDoms [20] running).onDapP 15 f
    let g := d fun x => { x with state := .ready, good := List.replicate 200 24576 }
    let q := d fun x => { x with state := .run, qual := true, short := some 24500, rateRec := 48000 }
    let m := d fun x => { x with state := .muted, resume := true }
    let z : ZcPend := .gain 0
    let c := d fun x => { x with pend := tput none (switchKey 0 false) (some z) x.pend }
    let t := c.onTime fun t => { t with ord := 20 }
    (g.dapP 15).measured 15 = true ∧ (g.dapP 15).qual = false ∧ 200 ≤ (g.dapP 15).good.length ∧ (g.dapP 15).meanHz = 48000 ∧
      classOf 15 48000 = .k48 ∧ classOk .k48 = true ∧ (q.dapP 15).measured 15 = true ∧ (q.dapP 15).qual = true ∧ q.untrusted = false ∧
      (q.dapP 15).strays = true ∧ (m.dapP 15).state = .muted ∧ (m.dapP 15).resume = true ∧ isPdm 15 = false ∧
      (q.dapP 15).state ≠ .disabled ∧ statusHolds (padTo 96 [1]) = false ∧ statusHolds (padTo 96 []) = true ∧ tget none (c.dapP 15).pend (switchKey 0 false) = some z ∧
      (c.dapP 15).crossedAt 0 false c.time.ord 0 = some 0 ∧ tget 0 (t.dapP 15).pendOrd (switchKey 0 false) + 2 * (t.dapP 15).zcTo ≤ t.time.ord := by
  decide +kernel

/-! Network. -/

/-- NET0 with some fields, its domain ON. -/
def net0 (f : Net → Net) : State := (onDoms [18, 19] running).onNetP 0 f

theorem witness_links :
    let a := net0 fun n => { n with state := .an }
    let r := net0 fun n => { n with state := .retrain, target := some .g1, rate := some .g1 }
    let t := (net0 fun n => { n with state := .train }).onTime fun t => { t with mono := 1000000000 }
    let u := net0 fun n => { n with state := .up }
    let p := net0 fun n => { n with pauseTo := some 0 }
    let q := (net0 fun n => { n with rings := [(20, { a5 := 0x01000040#32, unrepFrom := some 0 })] }).onTime fun t => { t with mono := 10000 }
    ((a.netP 0).state = .an ∧ (a.netP 0).enabled .g25 = true ∧ (a.netP 0).fecSet .g25 .rs = true ∧ (a.netP 0).anEn = true) ∧
      ((r.netP 0).state = .retrain ∧ (r.netP 0).target = some .g1 ∧ (r.netP 0).fecSet .g1 .none = true ∧ (r.netP 0).rate = (r.netP 0).target) ∧
      ((t.netP 0).state = .train ∧ (t.netP 0).anMono + 1000000000 ≤ t.monoNs ∧ t.domOn (dNet 0) = true) ∧
      ((u.netP 0).state = .up ∧ u.ptpPort = some 0 ∧ (u.netP 0).ptpRole = 1 ∧ (u.netP 1).ptpRole = 1) ∧
      ((p.netP 0).pauseTo = some 0 ∧ 0 ≤ p.monoNs) ∧
      ((q.netP 0).ring (20 : Fin 21)).unrepFrom = some 0 ∧ fld ((q.netP 0).ring 20).a5 24 8 ≠ 0 ∧
      0 + fld ((q.netP 0).ring 20).a5 24 8 * 10000 ≤ q.monoNs := by
  dsimp only
  repeat' with_reducible apply And.intro
  all_goals decide +kernel

/-- A broadcast frame with an Ethernet type and no more. -/
def bcast : RxFrame := { bytes := List.replicate 12 0xFF ++ [0x08, 0x06] ++ zeros 50, fcsOk := true, fifoOver := false }

/-- NET0 UP with RX ring 0 posted: one descriptor at 0x80000000, buffers of 2,048 bytes at 0x80000040. -/
def rxReady : State :=
  (net0 fun n => { n with
    state := .up, rate := some .g1
    rings := [(0, { a1 := 0x80000000#32, a2 := 0x80000001#32, a3 := 0x80000040#32, a4 := 0x800#32, tail := 1 })] }).onMem fun m =>
    { m with pantry := Memory.writeBytes 0 (wordBytes [0x80000040#32]) m.pantry }

theorem witness_receive :
    let s := rxReady
    let x := bcast
    let bs := x.bytes.take (x.bytes.length - 4)
    let f := parseFrame bs
    let r := (s.netP 0).ring 0
    ((s.netP 0).state = .up ∧ s.domOn (dNet 0) = true ∧ 64 ≤ x.bytes.length ∧ x.bytes.length ≤ 9216 ∧ x.fcsOk = true ∧ x.fifoOver = false ∧
        destOk (s.netP 0) (bs.take 6) = true ∧ f.et ≠ 0x8808 ∧ f.udp = none ∧ ipBad f bs = false ∧ udpCheck f bs ≠ some false ∧
        (∀ y ∈ s.media.policers, s.policerMatches y.2 0 f bs = false)) ∧
      (s.matchStream 0 f bs = none ∧ s.steer 0 f bs = some 0 ∧ bit r.a2 31 = true ∧ fld r.a2 0 13 ≠ 0 ∧ r.tail ≠ r.head ∧
        r.bufOk (Memory.readWord s.mem.pantry (r.desc r.head.toNat)) r.bufSize = true ∧ bs.length ≤ r.bufSize) ∧
      ([0#8].length < 64 ∧ destOk (s.netP 0) [2, 0, 0, 0, 0, 1] = false) := by
  dsimp only
  repeat' with_reducible apply And.intro
  all_goals decide +kernel

/-- An RTP packet of one channel of L16 at 8 kHz, 125 µs, to 224.0.1.5: 14 bytes of Ethernet, 20 of IPv4, 8 of UDP without a checksum, 12 of RTP,
two of payload, padding and the FCS. -/
def rtpFrame : RxFrame :=
  { bytes := [1, 0, 0x5E, 0, 1, 5, 2, 0, 0, 0, 0, 1, 8, 0, 0x45, 0, 0, 42, 0, 0, 0x40, 0, 64, 17, 0, 0, 10, 0, 0, 1, 224, 0, 1, 5] ++
      [0x10, 0, 0x13, 0x8C, 0, 22, 0, 0, 0x80, 0, 0, 0, 0, 0, 0, 0, 0, 0, 0, 0, 0x12, 0x34] ++ zeros 8
    fcsOk := true, fifoOver := false }

/-- The packet with its IPv4 header checksum. -/
def goodRtp : RxFrame := { rtpFrame with bytes := ((rtpFrame.bytes.set 24 0x4F).set 25 0xBD) }

/-- NET0 UP with an RX stream for that packet. -/
def rtpReady : State :=
  (net0 fun n => { n with state := .up, rate := some .g1 }).onRxS 3 fun x => { x with
    conf := true, state := .run
    block := padTo 128 (leBytes 4 0x105 ++ leBytes 4 4 ++ zeros 8 ++ [224, 0, 1, 5] ++ zeros 36 ++ [0x13, 0x8C]) }

theorem witness_receive_media :
    let s := rtpReady
    let x := goodRtp
    let bs := x.bytes.take (x.bytes.length - 4)
    let f := parseFrame bs
    (64 ≤ x.bytes.length ∧ destOk (s.netP 0) (bs.take 6) = true ∧ f.et ≠ 0x8808 ∧ f.udp = some 34 ∧ beHalf bs 36 ≠ 319 ∧ beHalf bs 36 ≠ 320 ∧
        ipBad f bs = false ∧ udpCheck f bs ≠ some false) ∧
      s.matchStream 0 f bs = some 3 ∧ rtpOf (s.rxS 3).block ((bs.drop 42).take (beHalf bs 38 - 8)) = some (0, 0, [0x12, 0x34]) := by
  dsimp only
  repeat' with_reducible apply And.intro
  all_goals decide +kernel

/-- NET0 UP at 1 Gbit/s with a media frame in Q7. -/
def txReady : State :=
  net0 fun n => { n with state := .up, rate := some .g1, queues := [(7, [⟨.media 3, zeros 60, 0, 0, false⟩])] }

/-- NET0 down with one posted frame of TX ring 0: its descriptor at 0x80000000, its data at 0x80000040. -/
def txPosted : State :=
  ((net0 fun n => { n with
    rings := [(16, { a1 := 0x80000000#32, a2 := 0x80000001#32, a3 := 0x80000040#32, a4 := 0x800#32, tail := 1 })] }).onMem fun m =>
    { m with pantry := Memory.writeBytes 0 (wordBytes [0x80000040#32, 0x0003000E#32]) m.pantry }).onTime fun t => { t with mono := 1000000000 }

theorem witness_transmit :
    let s := txReady
    let u := s.onNetP 0 fun m => { m with shapers := m.shapers.map fun y => (y.1, if y.2.en then y.2.refill s.monoNs else y.2) }
    let w : OnWire := { frame := ⟨.flow 0 0, zeros 60, 0, 0, true⟩, queue := 5, sec := 0, ns := 0, untr := false }
    let v := net0 fun n => { n with wire := some w }
    let d := txPosted
    let m := net0 fun n => { n with state := .up, p1 := 0x000007F1#32 }
    let l := net0 fun n => { n with ptpGm := some 1 }
    ((s.netP 0).state = .up ∧ (s.netP 0).rate = some .g1 ∧ (s.netP 0).wire = none ∧ s.domOn (dNet 0) = true ∧
        (∀ j, j < 5 → s.txHead 0 j = .wait) ∧ fld (s.netP 0).w1 16 9 = 0 ∧ u.pickQueue 0 .g1 = some (7, ⟨.media 3, zeros 60, 0, 0, false⟩, .green)) ∧
      ((v.netP 0).wire = some w ∧ v.domOn (dNet 0) = true) ∧
      ((d.netP 0).state ≠ .up ∧ (d.netP 0).notUpFrom + 1000000000 ≤ d.monoNs ∧ (d.netP 0).wire = none ∧
        d.txHead 0 0 = .frame 1 (zeros 14) false false false ∧ w32 1 = ((d.netP 0).ring 16).tail - ((d.netP 0).ring 16).head ∧
        ∀ i, i < 5 → i ≠ 0 → ((d.netP 0).ring (16 + i)).tail = ((d.netP 0).ring (16 + i)).head) ∧
      (m.ptpMaster 0 = true ∧ l.ptpSlavePart 0 = true ∧ m.domOn dMgmt = true) := by
  dsimp only
  repeat' with_reducible apply And.intro
  all_goals decide +kernel

theorem witness_streamEvents :
    let k : Packet := { stream := 3, port := 0, queue := 7, bytes := zeros 60, ofs := 499, ord := 0, held := false }
    let s := (net0 fun n => { n with state := .up }).onMedia fun m => { m with packets := [k] }
    let u := s.onTime fun t => { t with state := 2 }
    let v := running.onRxS 2047 fun x => { x with state := .starved, empty := 200 }
    let r := (rxStreamed .run running).onTime fun t => { t with mono := 10000000000 }
    (s.untrusted = false ∧ s.boot.b2 = none ∧ s.boot.removal ≠ 8 ∧ k ∈ s.media.packets ∧ k.ofs = (499 : Fin 500).val ∧ k.ord = s.time.ord ∧
        (s.netP k.port).state = .up) ∧
      u.untrusted = true ∧ ((v.rxS 2047).state = .starved ∧ 200 ≤ (v.rxS 2047).empty) ∧ r.domOn dMgmt = true ∧ (r.rxS 3).reportDue r.monoNs = true ∧
      strHasPort (r.rxS 3).block 0 = true ∧ ipMulticast (strV6 (r.rxS 3).block) (pathDst (strPath (r.rxS 3).block 0)) = true := by
  dsimp only
  repeat' with_reducible apply And.intro
  all_goals decide +kernel

theorem witness_snapshot :
    (running.onTrace fun t => { t with copying := 5, heldBanks := 2 }).trace.copying ≠ 0 ∧ running.domOn dMgmt = true ∧
      (running.onBoot fun b => { b with rcBlock := [0] }).boot.rcBlock ≠ [] := by decide +kernel

/-! The ring. -/

theorem witness_ring :
    let e := enrolled running
    let d := onDoms [21] running
    let j := d.onImdal fun m => { m with state := .joining, alignedRun := 100, asked := true }
    let w := e.onImdal fun m => { m with wrapped := true, upFrom := some 0 }
    let x := w.onTime fun t => { t with mono := 1000000000 }
    let f := (e.onImdal fun m => { m with homeroom := some 1 }).onTime fun t => { t with state := 0 }
    let c := e.onImdal fun m => { m with linkE := .down, linkW := .down, offsetPs := 10000001 }
    let u := e.onTime fun t => { t with state := 2 }
    (d.domOn dImdal = true ∧ d.imdal.linkE ≠ .up ∧ ({ d.imdal with linkE := .up, peerE := some 7, driveE := true } : Imdal).sameIndex = false) ∧
      (j.imdal.linkW ≠ .up ∧ BitVec.ofNat 3 (0 : RingIx).val = j.imdal.index ∧ j.imdal.state = .joining ∧ 100 ≤ j.imdal.alignedRun ∧
        j.imdal.asked = true) ∧
      (e.imdal.linkW = .up ∧ e.imdal.state = .enrolled ∧ e.imdal.whole = true ∧ w.imdal.whole = false ∧ 2 ≤ popN 8 w.imdal.segment.toNat ∧
        linkOwner w.imdal 0 ≠ w.imdal.seam) ∧
      (x.imdal.wrapped = true ∧ x.imdal.upFrom = some 0 ∧ 0 + 1000000000 ≤ x.monoNs) ∧
      (f.follower = true ∧ f.imdal.word = none ∧ f.time.state = 0 ∧ f.imdal.follows 1 = true) ∧
      (c.imdal.state = .enrolled ∧ c.imdal.segment ≠ onlyDev c.imdal.index ∧ c.imdal.linkE ≠ .up ∧ c.imdal.linkW ≠ .up ∧
        10000000 < c.imdal.offsetPs.natAbs ∧ u.untrusted = true) ∧
      (BitVec.ofNat 3 (1 : RingIx).val ≠ e.imdal.index ∧ e.imdal.mergeAt = none ∧ e.follower = false) := by
  dsimp only
  repeat' with_reducible apply And.intro
  all_goals decide +kernel

/-! Memories, domains. -/

theorem witness_matrix :
    let h := running.onMem fun m => { m with locks := [(2, some { target := 1, broken := false })] }
    (running.domOn dHub = true ∧ running.domOn dPantry = true ∧ running.mem.scrubH ≠ 0 ∧ running.badIn (1 * 2 ^ 31) scrubBeat = none ∧
        running.domOn dMgmt = true) ∧
      (reaches 2 (3 : Fin 11) = true ∧ running.targetOn (3 : Fin 11) = true ∧ running.passOf 2 = none ∧ running.heldTarget 3 = false ∧
        reaches 6 (1 : Fin 11) = true ∧ reaches 7 (1 : Fin 11) = true) ∧
      h.passOf 2 = some { target := 1, broken := false } ∧ reaches 0 (9 : Fin 11) = true ∧ running.targetOn (9 : Fin 11) = true := by
  dsimp only
  repeat' with_reducible apply And.intro
  all_goals decide +kernel

/-- A domain on its way. -/
def moving (d : Nat) (t : Transit) (s : State) : State := s.onDom d fun x => { x with transit := t }

theorem witness_domains :
    let w := (onDoms [2, 3] State.reset).onPower fun p => { p with first := 0 }
    let f := (moving 3 (.rise .on 4) (onDoms [1, 2] State.reset)).onCmd fun m => { m with waiting := some { src := .mailbox, cmd := cmd 0x10 0, why := .domain 3 } }
    (w.voted 1 = true ∧ w.rising 1 = false ∧ w.shutDown = false ∧ w.power.first.getLsbD 1 = false) ∧
      ((moving 4 (.rise .on 1) running).dom 4).transit = .rise .on 1 ∧ ((moving 4 (.rise .on 3) running).dom 4).transit = .rise .on 3 ∧
      ((f.dom 3).transit = .rise .on 4 ∧ f.parentsOn 3 = true ∧ f.cmd.waiting = some { src := .mailbox, cmd := cmd 0x10 0, why := .domain 3 }) ∧
      ((moving 1 (.enter .off) running).dom 1).transit = .enter .off := by
  dsimp only
  repeat' with_reducible apply And.intro
  all_goals decide +kernel

/-! Start-up, removal, supervision. -/

theorem witness_startUp :
    let l := (onDoms [1, 2] State.reset).onBoot fun b => { b with boot := 2 }
    let a := l.onBoot fun b => { b with boot := 3, going := true }
    let p := running.onBoot fun b => { b with boot := 3, passed := true }
    let u := running.onBoot fun b => { b with unacked := 64, restartDue := true }
    State.reset.boot.held = false ∧ l.loaderReads = true ∧ (a.boot.going = true ∧ a.boot.passed = false) ∧
      imageFail a.boot.fromHost { goodImage with keyOk := false } = some 3 ∧
      (p.boot.passed = true ∧ p.boot.boot = 3 ∧ p.domOn dMgmt = true ∧ p.atBoundary = true) ∧ u.boot.boot = 4 ∧ 64 ≤ u.boot.unacked ∧
      u.boot.restartDue = true := by
  dsimp only
  repeat' with_reducible apply And.intro
  all_goals decide +kernel

/-- An image with no check left but the rollback minimum, the model's own value, passes where that value lets it. -/
theorem witness_goodImage (h : Config.rollbackMin ≤ 2 ^ 32) : imageFail false goodImage = none := by
  simpa [imageFail, goodImage] using h

theorem witness_removal :
    let q := enrolled running
    let r := running.onBoot fun b => { b with removal := 7, b2 := some 0 }
    let d := ((port7 fun x => { x with i10 := 200 }).onBoot fun b => { b with removal := 7 }).onTime fun t => { t with mono := 20000000 }
    let u := running.onBoot fun b => { b with unrecorded := true, req := true }
    (q.boot.req = false ∧ q.hbi.ready = true ∧ q.boot.boot = 4 ∧ q.boot.removal = 0 ∧ q.allDomOff = false ∧ q.imdal.state ≠ .solo ∧
        running.imdal.state = .solo) ∧
      (r.boot.removal = 7 ∧ r.boot.thermOff = false ∧ r.boot.released = false ∧ r.pastB2 = true ∧ r.atBoundary = true ∧
        ∀ p, p < 48 → r.loopLive p = false) ∧
      (d.boot.reqMono + 20000000 ≤ d.monoNs ∧ d.loopLive 7 = true) ∧ u.boot.unrecorded = true ∧ u.serving = true ∧ u.domOn dMgmt = true ∧
      u.boot.req = true := by
  dsimp only
  repeat' with_reducible apply And.intro
  all_goals decide +kernel

theorem witness_supervision :
    (119 : Int) < 120 ∧ running.boot.thermOff = false ∧ running.boot.held = false ∧ running.boot.boot = 4 ∧ running.boot.removal = 0 ∧
      running.allDomOff = false ∧ dieOf 7 = (0 : DieIx) ∧ poweredSt ((port7 fun x => { x with state := .hold }).port 7).state = true := by
  repeat' with_reducible apply And.intro
  all_goals decide +kernel

/-! ### Further clauses of the statements -/

/-- LEG_SET with the reference of another Leg, GRP_SET of a group in use to another kind, KEY_SET of a talk key. -/
theorem witness_objects_edges :
    let c := cmd 0x10 0x0000#32 0 0 0x00000061#32
    let d := cmd 0x18 0x040A#32
    let k := cmd 0x1A 0x07050#32 0
    let s := posted legged c
    let g := posted (grouped 10 legged) d
    let t := (g.checking .mailbox d).project g.effectOrd
    (legHyps s c (.legSet 0 c.a1 c.a2 c.a3) ∧ legSetArgsOk c = true ∧ refOther c.a3 = true ∧ legCarried s.wingsNext (refLeg c.a3) = true) ∧
      (grpHyps g d (.grpSet 10 1 d.a1 d.a2 d.a3) ∧ grpArgsOk 1 d = true ∧ (t.grp 10).state = .open_ ∧ (t.grp 10).kind.toNat ≠ 1 ∧
        t.keyNames 10 = false ∧ t.interrupts 10 = false) ∧
      bit k.a0 12 = true ∧ fld k.a0 13 4 = 3 ∧ k.a0 &&& 0xFFFE0000#32 = 0 ∧ keyEn k.a1 = false ∧ gainOk (keyGain k.a1) = true := by
  delta legHyps grpHyps State.Offers
  dsimp only
  repeat' with_reducible apply And.intro
  all_goals decide +kernel

theorem witness_dapSet_edges :
    let c := cmd 0x30 0x000A000F#32 0x80808080#32 0 0 0 0x10030000#32
    let s := dapped .run
    let u := (posted s c).checking .mailbox c
    let d := (u.project u.effectOrd).dapP 15
    offered (posted s c) c 0x30 ∧ u.wingsNext ≠ 0 ∧ dapSetArgsOk (u.project u.effectOrd) c = true ∧ d.state ≠ .armed ∧ d.started = true ∧
      dapFixedChange c d = false ∧ c.a5 ≠ 0 ∧ blockAt u.regions c.a5 96 = some (.sram 0xC0000) ∧ (0x8000 : BitVec 16) ≠ 0 ∧
      (posted (dapped .ready) (cmd 0x31 0x000C8000#32)).wingsNext ≠ 0 := by
  delta offered State.Offers
  dsimp only
  repeat' with_reducible apply And.intro
  all_goals decide +kernel

/-- A stream that flows takes its block again; a ring that is enabled takes its words again; the first of a pair of boundary clock ports. -/
theorem witness_blocks_edges :
    let c := cmd 0x40 0x0003#32 0x10030000#32
    let s := (rxStreamed .run running).onMem fun m =>
      { m with sram := Memory.writeBytes 0xC0000 (leBytes 4 1 ++ leBytes 4 4 ++ zeros 8 ++ [224, 0, 1, 5]) m.sram }
    let u := (posted s c).checking .mailbox c
    let b := (posted s c).readBlock (.sram 0xC0000) 128
    let e := cmd 0x44 0x0404#32 0x80000000#32 0x80000001#32 0 0 0x00000040#32
    let r := (posted (running.onNetP 0 fun n => { n with rings := [(20, { a1 := e.a1, a2 := e.a2, a3 := 0, a4 := 0, a5 := e.a5 })] }) e).checking .mailbox e
    let q := ((r.project r.effectOrd).netP 0).ring 20
    let p := cmd 0x44 0x0008#32 0x000047F2#32 0x00808080#32 0x00008080#32
    let v := posted (ringed running (cmd 0x44 0x0009#32 0x000047F2#32)) p
    (offered (posted s c) c 0x40 ∧ blockAt u.regions c.a1 128 = some (.sram 0xC0000) ∧ strBlockOk b false = true ∧
        ((u.project u.effectOrd).strm false 3).state = .run ∧ strFixed false b = strFixed false ((u.project u.effectOrd).strm false 3).block ∧
        (u.project u.effectOrd).legsOn false 3 = []) ∧
      (netRingOk (r.project r.effectOrd) 0 true 4 e = true ∧ bit e.a2 31 = true ∧ bit q.a2 31 = true ∧ e.a1 = q.a1 ∧ e.a2 = q.a2 ∧ e.a3 = q.a3 ∧
        e.a4 = q.a4 ∧ fld e.a5 0 16 = fld q.a5 0 16) ∧
      offered v p 0x44 ∧ netPtpOk p = true ∧ fld p.a1 0 2 = 2 ∧ (v.checking .mailbox p).pairs 0 = true := by
  delta offered State.Offers
  dsimp only
  repeat' with_reducible apply And.intro
  all_goals decide +kernel

/-- A device whose port DAP has a buffer in Pantry, which TIMETABLE_GET names; a read from the ring, whose entry is clean. -/
theorem witness_reads_edges :
    let s := (dapped .ready).onDapP 15 fun d => { d with a2 := 0x80000000#32, a4 := 0x1200#32 }
    let c := cmd 0x60 0x0002#32 0x80000000#32
    let r := ringed running (cmd 0x100 0)
    zeroFrom (cmd 0 0) 0 ∧ r.cleanEntry .ring ∧ r.front .ring = some (cmd 0x100 0) ∧ (cmd 0x100 0).epoch = r.cmd.epoch ∧ r.cmd.ehalt = false ∧
      fld c.a0 0 2 = 2 ∧ fld c.a1 31 1 = 1 ∧ s.domOn dPantry = true ∧
      blockAt ((posted s c).checking .mailbox c).regions c.a1 1024 = some (.pantry 0) := by
  delta zeroFrom State.cleanEntry
  dsimp only
  repeat' with_reducible apply And.intro
  all_goals decide +kernel

theorem witness_time_edges :
    let i := timed (fun t => { t with refAct := 3 }) ((enrolled running).onImdal fun m => { m with hrState := 0, heard := some 1, aligned := true })
    let s := timed (fun t => { t with slew := true }) running
    (i.time.refAct = 3 ∧ i.imdal.aligned = true ∧ i.imdal.hrState = 0 ∧ i.imdal.offsetPs.natAbs ≤ 2000 ∧ i.time.state = 3) ∧
      s.time.residual.natAbs * 2 ^ 24 ≤ s.time.slewed.natAbs ∧ running.time.trig = none ∧ running.imdal.trigOut ≠ some (5, 0) ∧
      ((enrolled running).onImdal fun m => { m with trigOut := some (5, 0) }).imdal.trigOut = some (5, 0) := by
  dsimp only
  repeat' with_reducible apply And.intro
  all_goals decide +kernel

/-- The comparator's two limits; a port whose re-ramp is about to begin; a HOLD port. -/
theorem witness_surges_edges :
    let r := port7 fun x => { x with state := .ramp, gateOff := some 0, rampStep := 1 }
    let h := port7 fun x => { x with state := .hold, surgeFrom := some 0 }
    surgeTrips (wired.portCfg 7) ⟨44001, 0⟩ = true ∧ surgeTrips (wired.portCfg 7) ⟨0, 251 * 8⟩ = true ∧
      surgeTrips (wired.portCfg 7) ⟨44000, 250⟩ = false ∧ poweredSt (wired.port 7).state = false ∧
      (r.port 7).state = .ramp ∧ (r.port 7).gateOff ≠ none ∧ 0 < (r.port 7).rampStep ∧ r.time.inPeriod < 500000 ∧
      (h.port 7).surgeFrom = some 0 ∧ (h.port 7).state = .hold ∧ h.time.inPeriod < 500000 := by
  dsimp only
  repeat' with_reducible apply And.intro
  all_goals decide +kernel

/-- Step 1 of the ladder, whose class no port sheds; the run of fits of the port that returns. -/
theorem witness_ladder_edges :
    let l := port7 fun x => { x with state := .on }
    let z := wired.onLine fun l => { l with steps := 7, above := [0, 0, 100, 0, 0] }
    let r := (port7 fun x => { x with state := .shed, byBudget := true }).onLine fun l => { l with fitRun := 2000, fitPort := some 7 }
    (l.line.ladderEn = true ∧ l.line.steps.getLsbD (1 : Fin 5) = false ∧ 0 < l.line.enterMv 1 ∧ (l.port 7).later = none ∧
        poweredSt (l.port 6).state = false) ∧
      (z.line.steps.getLsbD (2 : Fin 5) = true ∧ z.line.steps.toNat < 2 ^ ((2 : Fin 5).val + 1) ∧ 100 ≤ z.line.above.getD 2 0) ∧
      r.returnNext = some 7 ∧ r.line.fitPort = some 7 ∧ 2000 ≤ r.line.fitRun := by
  dsimp only
  repeat' with_reducible apply And.intro
  all_goals decide +kernel

/-- Recovery in mode 2; a sounding of more than 1.25 µF. -/
theorem witness_faults_edges :
    let r := ((port7 fun x => { x with state := .fault, cause := BitVec.ofNat 8 cauShort }).onWatch 7 fun w => { w with notShort := 10 }).onPortCfg 7 fun c =>
      { c with mode := 2 }
    let p := (port7 fun x => { x with state := .probe }).onWatch 7 fun w => { w with probe := probeClass 2000000, probeRun := 3 }
    ((r.port 7).state = .fault ∧ (r.port 7).ask = false ∧ (r.watch 7).latched = false ∧ (r.portCfg 7).mode.toNat ∈ [2, 3] ∧ r.recovers 7 = true ∧
        r.bankUp (bankOf 7) = true ∧ ((r.watch 7).recoveries.filter fun o => decide (r.time.ord < o + 120000)).length ≤ 4) ∧
      (r.portCfg 7).autoComp = true ∧ (1250 : Nat) < 1251 ∧ (p.watch 7).probe = probeClass 2000000 ∧ (p.watch 7).probeRun ≠ 0 := by
  dsimp only
  repeat' with_reducible apply And.intro
  all_goals decide +kernel

/-- A port that explains the leakage; a bank hot for 1 s; a hit; a reading that warns. -/
theorem witness_banks_edges :
    let b := fun f => (port7 fun x => { x with state := .on }).onBank 0 f
    let t := b fun x => { x with tripRun := 1999, critRun := 1999 }
    let p := wired.onDom 12 fun x => { x with state := .proofing }
    (t.tempStands 7 = true ∧ 7 / 8 = (0 : BankIx).val ∧ t.tempStands 6 = false) ∧ bankHits p.line ⟨0xFFFF, some 25⟩ ≠ 0 ∧
      (t.line.leakTrip ≤ 2 * 0xFFFF ∧ (t.bank 0).leakWarn = false ∧ 2 * 0 < t.line.leakTrip ∧ t.line.leakTrip ≤ 0xFFFF) := by
  dsimp only
  repeat' with_reducible apply And.intro
  all_goals decide +kernel

theorem witness_tiles_edges :
    let e := (tiled 0 fun x => { x with state := .working })
    let c := tiled 8 fun x => { x with state := .working, catching := true }
    let r := (running.onTiles fun x => { x with evict := [3], stepping := false })
    (e.pool = [] ∧ e.wingOn (wingOf 0) = true ∧ (e.tile 0).state = .working ∧ (e.tile 0).failOrd = none) ∧
      (c.redoing 8 = [] ∧ c.behind 8 = false) ∧ 8 ∉ running.tiles.failedTest ∧ (onDoms [4] running).wingOn (wingOf 8) = true ∧
      (r.tiles.repackDue = false ∧ r.tiles.evict ≠ [] ∧ ∀ k, k < 72 → r.holdsRepack k = false) ∧
      (running.onTime fun t => { t with ord := 7 }).time.ord = 7 := by
  dsimp only
  repeat' with_reducible apply And.intro
  all_goals decide +kernel

/-- The correction pass of data with no shared group; records of the ring in the data of a device in a segment. -/
theorem witness_period_edges :
    let c := computing 3
    let e := (emitting fun d => { d with late := false }).onMix fun m => { m with compute := some { stage := 0 } }
    (c.mix.compute = some { stage := 3 } ∧ ({ stage := 3 } : DataSet).sharedGroups = [] ∧ ({ stage := 3 } : DataSet).recs = [] ∧
        ({ stage := 3 } : DataSet).corrs = [] ∧ c.inRounds = false) ∧
      (computing 1).mix.compute = some { stage := 1 } ∧ (e.delivered 1 { stage := 0 } = true ∧ ∀ x, e.mix.emit = some x → x.late = false) := by
  dsimp only
  repeat' with_reducible apply And.intro
  · rfl
  · decide +kernel
  · decide +kernel
  · decide +kernel
  · decide +kernel
  · rfl
  · decide +kernel
  · intro x h
    cases h
    rfl

theorem witness_links_edges :
    let q := (net0 fun n => { n with
      state := .up, queues := [(6, [⟨.media 3, zeros 60, 0, 0, false⟩]), (7, [⟨.media 3, zeros 60, 0, 0, false⟩, ⟨.media 4, zeros 60, 0, 0, false⟩])] })
    let p := net0 fun n => { n with pauseTo := some 0, pauseNext := some (0, 10) }
    let r := (net0 fun n => { n with state := .retrain }).onTime fun t => { t with mono := 1000000000 }
    let m := (net0 fun n => { n with state := .an })
    ((q.netP 0).state = .up ∧ (((q.netP 0).queue 6 ++ (q.netP 0).queue 7).filterMap fun y => match y.src with | .media k => some k | _ => none) = [3, 3, 4]) ∧
      ((p.netP 0).pauseTo = some 0 ∧ (p.netP 0).pauseNext = some (0, 10) ∧ 0 ≤ p.monoNs ∧ p.monoNs < 10) ∧
      ((r.netP 0).state = .retrain ∧ (r.netP 0).anMono + 1000000000 ≤ r.monoNs) ∧ (m.netP 0).state = .an ∧ m.ptpPort ≠ some 1 := by
  dsimp only
  repeat' with_reducible apply And.intro
  all_goals decide +kernel

/-- A PTP frame: the packet of a stream with the UDP port of event messages. -/
def ptpBytes : RxFrame := { goodRtp with bytes := (goodRtp.bytes.set 36 1).set 37 0x3F }

theorem witness_receive_edges :
    let s := rtpReady
    let x := ptpBytes
    let bs := x.bytes.take (x.bytes.length - 4)
    let f := parseFrame bs
    let long : RxFrame := { bcast with bytes := List.replicate 64 0, fifoOver := true }
    (64 ≤ x.bytes.length ∧ x.fcsOk = true ∧ x.fifoOver = false ∧ destOk (s.netP 0) (bs.take 6) = true ∧ f.et ≠ 0x8808 ∧ f.udp = some 34 ∧
        beHalf bs 36 = 319 ∧ (s.netP 0).ptpRole ≠ 0 ∧ (s.netP 0).state = .up ∧ s.domOn (dNet 0) = true) ∧
      64 ≤ long.bytes.length ∧ destOk ((rtpReady).netP 0) (List.replicate 6 0) = false := by
  dsimp only
  repeat' with_reducible apply And.intro
  all_goals decide +kernel

theorem witness_transmit_edges :
    let l := net0 fun n => { n with p1 := 0x000007F1#32, ptpMono := [(1, 0)] }
    let n := l.onTime fun t => { t with mono := 64000000000 }
    let w : OnWire := { frame := ⟨.ring 4 0 2, zeros 60, 0, 0, true⟩, queue := 4, sec := 0, ns := 0, untr := false, own := true }
    let v := net0 fun n => { n with wire := some w }
    (l.ptpMaster 0 = true ∧ (l.netP 0).ptpDue 1 l.monoNs = false ∧ (l.netP 0).ptpDue 0 l.monoNs = true ∧ (n.netP 0).ptpDue 1 n.monoNs = true) ∧
      (v.netP 0).wire = some w := by
  dsimp only
  repeat' with_reducible apply And.intro
  all_goals decide +kernel

/-- An ARMED stream whose report names the block in force at its start. -/
theorem witness_reports_edges :
    let s := (rxStreamed .armed running).onRxS 3 fun x => { x with armed := [{ pause := false, ord := 5 }], reportMono := 0 }
    let r := s.onTime fun t => { t with mono := 10000000000 }
    (r.rxS 3).reportDue r.monoNs = true ∧ strHasPort (r.reportBlock 3) 0 = true ∧
      ipMulticast (strV6 (r.reportBlock 3)) (pathDst (strPath (r.reportBlock 3) 0)) = true ∧ (running.rxS 3).reportDue running.monoNs = false := by
  dsimp only
  repeat' with_reducible apply And.intro
  all_goals decide +kernel

theorem witness_ring_edges :
    let e := enrolled running
    let j := (onDoms [21] running).onImdal fun m => { m with state := .joining, heard := some 0, asked := true }
    let f := e.onImdal fun m => { m with homeroom := some 1 }
    let k := { f.imdal with heard := f.imdal.hears 1, heardIn := true }
    (j.imdal.sameIndex = true ∧ j.imdal.state = .joining ∧ j.imdal.linkE ≠ .up ∧ j.domOn dImdal = true) ∧
      (f.follower = true ∧ f.imdal.heard = none ∧ f.imdal.state = .enrolled ∧ f.imdal.segment ≠ onlyDev f.imdal.index) ∧
      (f.imdal.linkE = .up ∧ f.imdal.word = none ∧ k.follows 1 = true ∧ BitVec.ofNat 3 (1 : RingIx).val ≠ f.imdal.index ∧
        (f.onImdal fun _ => k).follower = true ∧ k.follows 5 = false) ∧
      (BitVec.ofNat 3 (0 : RingIx).val = e.imdal.index ∧ e.imdal.state = .enrolled ∧ e.imdal.homeroom = some e.imdal.index) ∧
      (e.imdal.mergeAt = none ∧ (e.onImdal fun m => { m with alignedRun := 100 }).imdal.alignedRun = 100) ∧
      (j.imdal.asked = true ∧ f.imdal.homeroom ≠ some f.imdal.index) := by
  dsimp only
  repeat' with_reducible apply And.intro
  all_goals decide +kernel

theorem witness_matrix_edges :
    let k : HallPass := { target := 1, broken := false, beats := 17, beatMono := 0 }
    let h := running.onMem fun m => { m with locks := [(2, some k)] }
    let b := running.onMem fun m => { m with locks := [(2, some { k with broken := true })] }
    (reaches 6 (2 : Fin 11) = false ∧ reaches 2 (5 : Fin 11) = true ∧ running.targetOn 5 = false) ∧
      (tget none running.mem.locks 2 = none ∧ running.heldTarget 1 = false ∧ h.heldTarget 1 = true ∧ tget none h.mem.locks 6 = none) ∧
      (h.passOf 2 = some k ∧ k.target = (1 : Fin 11).val ∧ k.beats + (14 : Fin 16).val < 32 ∧ 32 ≤ k.beats + (15 : Fin 16).val ∧
        k.target ≠ (2 : Fin 11).val ∧ reaches 2 (2 : Fin 11) = true ∧ h.targetOn 2 = true) ∧
      (tget none b.mem.locks 2 = some { k with broken := true } ∧ reaches 2 (1 : Fin 11) = true ∧ b.targetOn 1 = true) ∧
      mayReach 0 (3 : Fin 11) true = true ∧ running.targetOn 3 = true ∧ mayReach 1 (1 : Fin 11) false = true := by
  dsimp only
  repeat' with_reducible apply And.intro
  all_goals decide +kernel

/-- A command that waits for MGMT to start; the scrub of firmware memory. -/
theorem witness_domains_edges :
    let f := (moving 1 (.rise .on 2) (onDoms [2] State.reset)).onCmd fun m => { m with waiting := some { src := .mailbox, cmd := cmd 0x10 0, why := .boot } }
    (f.dom 1).transit = .rise .on 2 ∧ f.cmd.waiting = some { src := .mailbox, cmd := cmd 0x10 0, why := .boot } ∧ (1 : DomIx).val = dMgmt ∧
      (running.onMem fun m => { m with scrub0 := 0x7FFFFFE0 }).mem.scrub0 = 0x7FFFFFE0 ∧ pantrySrc 0 = 8 ∧ pantrySrc 0x60000000 ≠ 8 := by
  dsimp only
  repeat' with_reducible apply And.intro
  all_goals decide +kernel

/-! ### Worked examples of the spec: each expected value is the spec's -/

theorem witness_tick : ({} : Time).ns < 1000000000 := by decide

/-- The example of R74. -/
theorem test_pidx : ({ sec := 1700000000, ns := 123456789 } : Time).pidxOf = 0x9FCAD0F6#32 ∧
    ({ sec := 1700000000, ns := 123456789 } : Time).inPeriod = 456789 ∧ sampleAt 456789 = 21 := by decide +kernel

/-- The example of R56: four guarded commands from 0xFFFF_FFFE. -/
theorem test_epochs : epochNext 0xFFFFFFFE#32 = 0xFFFFFFFF#32 ∧ epochNext 0xFFFFFFFF#32 = 1#32 ∧ epochNext 1#32 = 2#32 := by decide

/-- The example of R90: the jump, and its boundary. -/
theorem test_jump : jumpOf 2000180000 = 4000 ∧ ((running.onTime fun t => { t with ns := 100000 }).correct 2000180000).time.jumpDue = some (4000, 1) ∧
    ((running.onTime fun t => { t with ns := 100000 }).correct 2000180000).time.residual = 180000 := by decide +kernel

/-- The example of R95: START_IN at P+310,000 ns gives sample 20 of the Period in progress. -/
theorem test_startIn :
    (match exec .startInEdge (running.onTime fun t => { t with ns := 310000, trig := some ⟨1, 0x8000, true, 0, none⟩ }) with
      | .next t => t.imdal.trigOut
      | _ => none) = some (0, 20) := by decide +kernel

/-- The example of R108: accepted at P+470 µs, the first boundary is the one after the next, and the next is too early. -/
theorem test_named :
    (running.onTime fun t => { t with ns := 470000, pidx := 0x00100000#32 }).pidxAt
        (running.onTime fun t => { t with ns := 470000, pidx := 0x00100000#32 }).effectOrd = 0x00100002#32 ∧
      (running.onTime fun t => { t with ns := 470000, pidx := 0x00100000#32 }).namedOrd 0x00100001#32 = none := by decide +kernel

/-- R111: 0 dB, −6.0 dB, +12.0 dB, mute: binary32 nearest to 10^(dB/20). -/
theorem test_gain : gainOf 0x80 = 0x3F800000#32 ∧ gainOf 0x74 = 0x3F004DCE#32 ∧ gainOf 0x98 = 0x407EC9E1#32 ∧ gainOf 0 = 0#32 := by decide +kernel

/-- The group of the example under Admission: ADMIT 3, HOLD 400, MARGIN 40, T_ON 96, T_OFF 64. -/
def group7 : GroupCfg := { state := .open_, a1 := 0x02819003#32, a2 := 0x00004060#32 }

/-- A candidate of that example. -/
def cand7 (leg score : Nat) (admitted : Bool) (hold : Nat) : Cand :=
  let r := classify group7 false score admitted hold
  { leg := some leg, slot := 0, key := leg, score := score, cls := r.2.2, hold := r.2.1, admitted := admitted, speak := r.1, now := false }

/-- The example under Admission: Legs 3, 200 and 350 are selected, the barge releases Leg 9, and Leg 41 fades out. -/
theorem test_admission :
    (decidedOf (decide121 group7 [cand7 3 150 true 400, cand7 9 70 true 400, cand7 41 20 true 12, cand7 200 130 false 0, cand7 350 120 false 0]) []).map
        (fun d => (d.leg, d.fade)) =
      [(3, .one), (9, .fadeOut), (200, .fadeIn), (350, .fadeIn), (41, .fadeOut)] := by decide +kernel

/-- The example under Soft clip: 1.5 becomes 0.9375. -/
theorem test_softClip : softClip 0x3FC00000#32 = 0x3F700000#32 := by decide +kernel

/-- The example of R196: a step of 80.0 mA is one station of each class; one of −48.0 mA is one of class 1. -/
theorem test_decompose :
    decompose [some 320, some 475, none, none] [4, 4, 4, 4] 4 800 = some [1, 1, 0, 0] ∧
      decompose [some 320, some 475, none, none] [3, 2, 0, 0] 4 480 = some [0, 1, 0, 0] := by decide +kernel

/-- The example of R308: the charge of a 9,216-byte frame, and the debt kept when CBS falls. -/
theorem test_shaper :
    let x : Shaper := { a1 := w32 100000, a2 := w32 16000, a3 := w32 200000, a4 := w32 32000, a5 := 0x114#32, tp := 32000 * 8000000 }
    x.colour = .green ∧ (x.charge 9216 .green).tc = -9236 * 8000000 ∧ (x.charge 9216 .green).colour = .yellow ∧
      ((x.charge 9216 .green).set 0 (w32 50000) (w32 4000) (w32 200000) (w32 32000) 0x114#32).tc = -9236 * 8000000 := by decide +kernel

/-- The example of IRQ_CAUSE. -/
theorem test_irqCause :
    (running.onHbi fun h => { h with irqStat := 0x0904, irqEn := 0x0104 }).regValue 8 = 0x80020104#32 ∧
      (running.onHbi fun h => { h with irqStat := 0x0900, irqEn := 0x0104 }).regValue 8 = 0x80080100#32 ∧
      (running.onHbi fun h => { h with irqStat := 0x0800, irqEn := 0x0104 }).regValue 8 = 0x001F0000#32 := by decide +kernel

/-- The example of FREQ: four LOCKED ports, and the lower middle value. -/
theorem test_grid :
    let h := fun (f : Nat) => ({ state := .locked, freq := f } : Hum)
    (gridEntry [(3, h 0xC37D), (4, h 0xC37C), (9, h 0xC37F), (20, h 0xC37E)]).take 5 = [0x7D, 0xC3, 0, 0, 4] := by
  decide +kernel

/-! ### Channel status, converters, logs, probes -/

/-- The two examples of AES3 for its CRCC: byte 0 = 0x3D with bytes 1 and 4 = 0x02, and byte 0 = 0x01, all other bytes zero. -/
theorem test_crcc_full : crcc ([0x3D#8, 0x02#8, 0, 0, 0x02#8] ++ List.replicate 18 0) = 0x9B#8 := by decide +kernel
theorem test_crcc_reset : crcc (1#8 :: List.replicate 22 0) = 0x32#8 := by decide +kernel

/-- R222: after SEQ 0xFFFF_FFFF comes 1, whose slot is 0; the entry that stood there gives way. -/
theorem test_log_wraps : seqNext 0xFFFFFFFF#32 = 1#32 ∧ logSlot 256 1#32 = 0 ∧ logPut id 256 1#32 [0xFFFFFFFF#32, 257#32] = [1#32, 0xFFFFFFFF#32] := by
  decide

/-- R203: R = 47 kΩ × V / (4.0 V - V): 2.0 V is 47 kΩ, a station; 4.0 V is an open line, 0 V a short. -/
theorem test_probe : probeOhms 2000000 = some 47000 ∧ probeClass 2000000 = 2 ∧ probeClass 4000000 = 1 ∧ probeClass 0 = 3 := by decide

end Sys2Proof.Tests
end

section
/-! SUPPORT. Reads and writes of host registers (R17, R18, R37 to R42): what an access of a mapped register does once the bus is
ready, and from that the statements RegisterRead and RegisterWrite. -/

namespace Sys2Proof.Machine

/-! ### Whole accesses of a mapped register -/

/-- No register shows the pair of halves in progress, which R41 keeps outside the map. -/
@[simp] theorem pairDone_regValue (s : State) (k : Nat) : s.pairDone.regValue k = s.regValue k := by
  unfold State.regValue
  split <;> rfl

/-- An access that sets no bit of HBI_ERR counts no event (R42). -/
@[simp] theorem busErr_zero (s : State) : s.busErr 0#6 = s := if_pos rfl

theorem hostRead_mapped {s : State} {k : Nat} (hr : s.hbi.ready = true) (hk : k < regCount) (h1 : k ≠ regWinData)
    (h2 : k ≠ regWinDataInc) (env : BusEnv) : s.hostRead k env = State.answer (s.pairDone.regClear k, s.regValue k) := by
  simp [State.hostRead, State.regRead, hr, Nat.not_le.2 hk, h1, h2]

theorem hostWrite_mapped {s u : State} {k : Nat} {w : RegWrite} {env : BusEnv} (hr : s.hbi.ready = true) (hk : k < regCount)
    (hp : s.pairDone.regPut k w env = (u, 0)) : s.hostWrite k w env = u := by
  simp [State.hostWrite, hr, Nat.not_le.2 hk, hp]

/-! ### What a read clears -/

/-- The RC fields of the map, each cleared by a read of its own register (R17). -/
theorem regClear_eq (s : State) (k : Nat) : s.regClear k = { s with
    time := { s.time with jumps := if k = regTimeStat then 0 else s.time.jumps }
    hbi := { s.hbi with
      errCount := if k = regHbiErr then 0 else s.hbi.errCount
      wdrop := if k = regWinStat then 0 else s.hbi.wdrop }
    tiles := { s.tiles with
      substs := if k = regSubstLog then 0 else s.tiles.substs
      lost := if k = regSubstLog then 0 else s.tiles.lost }
    mem := { s.mem with
      corr := if k = regEccCorr then 0 else s.mem.corr
      uncorr := if k = regEccUncorr then 0 else s.mem.uncorr }
    power := { s.power with wakes := if k = regWakeSrc then 0 else s.power.wakes }
    boot := { s.boot with restarts := if k = regGstat then 0 else s.boot.restarts } } := by
  unfold State.regClear
  split
  case h_9 h5 h12 h14 h19 h43 h50 h51 h52 =>
    simp only [show k ≠ regGstat from h5, show k ≠ regWakeSrc from h12, show k ≠ regHbiErr from h14, show k ≠ regWinStat from h19,
      show k ≠ regTimeStat from h43, show k ≠ regSubstLog from h50, show k ≠ regEccCorr from h51, show k ≠ regEccUncorr from h52,
      if_false]
  all_goals rfl

/-- Settles O7: a read is the value of the register beside the clearing of its RC fields, and regClear_eq names these. -/
theorem registerRead : Obligations.RegisterRead := by
  intro s reg hr hk h1 h2
  refine ⟨State.answer (s.pairDone.regClear reg.toNat, s.regValue reg.toNat), ?_, ?_, ?_⟩
  · exact congrArg Host.Outcome.next (hostRead_mapped hr hk h1 h2 cleanBus)
  · have hpair := foot_pairDone (Foot.refl [.time, .hbi, .tiles, .mem, .power, .boot] s) (by decide)
    exact (foot_answer (foot_regClear hpair (by decide)) (by decide)).1
  · rw [regClear_eq]
    exact ⟨rfl, rfl, rfl, rfl, rfl, rfl⟩

/-! ### What a write does -/

/-- A write whose whole effect is a change of the host bus part. -/
theorem regWrite_does {s : State} {reg : BitVec 8} {w : RegWrite} (f : Hbi → Hbi) (hr : s.hbi.ready = true)
    (hk : reg.toNat < regCount) (hp : s.pairDone.regPut reg.toNat w cleanBus = (s.pairDone.onHbi f, 0)) :
    Does (.regWrite reg w) s [.hbi] fun t => t.hbi = f s.hbi.whole :=
  ⟨s.pairDone.onHbi f, congrArg Host.Outcome.next (hostWrite_mapped hr hk hp),
    (foot_onHbi (foot_pairDone (Foot.refl [.hbi] s) (by decide)) (by decide)).1, rfl⟩

/-- W1C bits held in fewer than 32 bits: a one written to an enabled byte clears its bit (R17, R40). -/
theorem clears_setWidth {n : Nat} (hn : n ≤ 32) (w : RegWrite) (x : BitVec n) :
    (w.clears (x.setWidth 32)).setWidth n = x &&& ~~~(w.ones.setWidth n) := by
  ext i hi
  have h32 : i < 32 := Nat.lt_of_lt_of_le hi hn
  simp [RegWrite.clears, hi, h32]

/-- The word addresses whose every field is RO or RC (R17, chapter 17): no write changes them. -/
def readOnlyRegs : List Nat := [0, 1, 2, 3, 5, 8, 12, 13, 29, 30, 31, 37, 38, 39, 40, 44, 46, 49, 50]

theorem regPut_readOnly (s : State) (w : RegWrite) (env : BusEnv) {k : Nat} (hk : k ∈ readOnlyRegs) : s.regPut k w env = (s, 0) := by
  simp only [readOnlyRegs, List.mem_cons, List.not_mem_nil, or_false] at hk
  rcases hk with rfl | rfl | rfl | rfl | rfl | rfl | rfl | rfl | rfl | rfl | rfl | rfl | rfl | rfl | rfl | rfl | rfl | rfl | rfl <;> rfl

theorem readOnlyRegs_mapped {k : Nat} (hk : k ∈ readOnlyRegs) : k < regCount := by
  revert k
  decide

/-- Settles O8: each clause is one arm of regPut on the host bus part; the W1C arms clear by clears_setWidth. -/
theorem registerWrite : Obligations.RegisterWrite := by
  intro s w hr
  refine ⟨?_, ?_, ?_, ?_, ?_, ?_, ?_⟩
  · exact regWrite_does (fun h => { h with scratch := w.over h.scratch }) hr (by decide) rfl
  · exact regWrite_does (fun h => { h with irqEn := (w.over (h.irqEn.setWidth 32)).setWidth 16 }) hr (by decide) rfl
  · exact regWrite_does (fun h => { h with winAddr := w.over h.winAddr }) hr (by decide) rfl
  · rw [← clears_setWidth (by decide)]
    exact regWrite_does (fun h => { h with irqStat := (w.clears (h.irqStat.setWidth 32)).setWidth 16 }) hr (by decide) rfl
  · rw [← clears_setWidth (by decide)]
    exact regWrite_does (fun h => { h with err := (w.clears (h.err.setWidth 32)).setWidth 6 }) hr (by decide) rfl
  · rw [← clears_setWidth (by decide)]
    exact regWrite_does (fun h => { h with winErr := (w.clears (h.winErr.setWidth 32)).setWidth 5 }) hr (by decide) rfl
  · intro reg hreg
    exact regWrite_does id hr (readOnlyRegs_mapped hreg) (regPut_readOnly s.pairDone w cleanBus hreg)

end Sys2Proof.Machine
end

section
/-! SUPPORT. Every command at once: each row completes, leaves the queue of waiting commands, and keeps what every step keeps (State.Ok);
from that the statements about steps, and the state after reset. -/

namespace Sys2Proof.Machine

/-- Every part but the queue of waiting commands. -/
def allButQueue : List Part :=
  [.time, .hbi, .cmd, .mix, .echo, .vad, .hum, .line, .dap, .net, .media, .imdal, .tiles, .mem, .power, .boot, .trace, .shelf, .draw, .shown]

theorem OFoot.mono {ps qs : List Part} {s : State} {o : Host.Outcome State Fault Refusal} (h : OFoot ps s o) (hq : ps ⊆ qs) : OFoot qs s o := by
  obtain ⟨t, ht, hf⟩ := h
  exact ⟨t, ht, hf.mono hq⟩

/-- The footprint of every row of the table: it answers a next state and leaves the queue alone. -/
theorem foot_exec (c : Instr) (s : State) : OFoot allButQueue s (exec c s) := by
  have h : Foot allButQueue s s := Foot.refl allButQueue s
  cases c with
  | nop => exact foot_execNop h (by decide)
  | undefinedOpcode => exact foot_execUndefinedOpcode h (by decide)
  | legSet => exact foot_execLegSet h (by decide)
  | legGet => exact foot_execLegGet h (by decide)
  | legPause => exact foot_execLegPause h (by decide)
  | grpSet => exact foot_execGrpSet h (by decide)
  | grpGet => exact foot_execGrpGet h (by decide)
  | keySet => exact foot_execKeySet h (by decide)
  | portSet => exact foot_execPortSet h (by decide)
  | portPower => exact foot_execPortPower h (by decide)
  | portSound => exact foot_execPortSound h (by decide)
  | callSend => exact foot_execCallSend h (by decide)
  | cardBudget => exact foot_execCardBudget h (by decide)
  | dapSet => exact foot_execDapSet h (by decide)
  | dapStart => exact foot_execDapStart h (by decide)
  | streamSet => exact foot_execStreamSet h (by decide)
  | streamPause => exact foot_execStreamPause h (by decide)
  | shaperSet => exact foot_execShaperSet h (by decide)
  | policerSet => exact foot_execPolicerSet h (by decide)
  | ringSet => exact foot_execRingSet h (by decide)
  | imdalJoin => exact foot_execImdalJoin h (by decide)
  | timetableGet => exact foot_execTimetableGet h (by decide)
  | pwrSet => exact foot_execPwrSet h (by decide)
  | rollCall => exact foot_execRollCall h (by decide)
  | snapshot => exact foot_execSnapshot h (by decide)
  | commandWaitRelease => exact foot_execCommandWaitRelease h (by decide)
  | cringTailWrite => exact foot_execCringTailWrite h (by decide)
  | cplHeadWrite => exact foot_execCplHeadWrite h (by decide)
  | ringEnable => exact foot_execRingEnable h (by decide)
  | ringDisable => exact foot_execRingDisable h (by decide)
  | ehaltClear => exact foot_execEhaltClear h (by decide)
  | winDataRead => exact foot_execWinDataRead h (by decide)
  | winDataWrite => exact foot_execWinDataWrite h (by decide)
  | halfwordLowAccess => exact foot_execHalfwordLowAccess h (by decide)
  | halfwordHighAccess => exact foot_execHalfwordHighAccess h (by decide)
  | unmappedAccess => exact foot_execUnmappedAccess h (by decide)
  | regReadClear => exact foot_execRegReadClear h (by decide)
  | regWrite => exact foot_execRegWrite h (by decide)
  | timeCapture => exact foot_execTimeCapture h (by decide)
  | timeArm => exact foot_execTimeArm h (by decide)
  | timeIncrWrite => exact foot_execTimeIncrWrite h (by decide)
  | refSelWrite => exact foot_execRefSelWrite h (by decide)
  | fwGo => exact foot_execFwGo h (by decide)
  | restart => exact foot_execRestart h (by decide)
  | take => exact foot_execTake h (by decide)
  | snap0 => exact foot_execSnap0 h (by decide)
  | snap1 => exact foot_execSnap1 h (by decide)
  | csnap => exact foot_execCsnap h (by decide)
  | traceCfgWrite => exact foot_execTraceCfgWrite h (by decide)
  | pwrVoteWrite => exact foot_execPwrVoteWrite h (by decide)
  | ltolWrite => exact foot_execLtolWrite h (by decide)
  | sspRead => exact foot_execSspRead h (by decide)
  | sspWrite => exact foot_execSspWrite h (by decide)
  | bell => exact foot_execBell h (by decide)
  | periodBoundary => exact foot_execPeriodBoundary h (by decide)
  | partialSumCutoff => exact foot_execPartialSumCutoff h (by decide)
  | roundStart => exact foot_execRoundStart h (by decide)
  | reductionRecordReceived => exact foot_execReductionRecordReceived h (by decide)
  | admissionDecision => exact foot_execAdmissionDecision h (by decide)
  | lateRound => exact foot_execLateRound h (by decide)
  | correctionPass => exact foot_execCorrectionPass h (by decide)
  | primaryDeadline => exact foot_execPrimaryDeadline h (by decide)
  | tileWorkComplete => exact foot_execTileWorkComplete h (by decide)
  | emitCutoff => exact foot_execEmitCutoff h (by decide)
  | tileFailure => exact foot_execTileFailure h (by decide)
  | substituteCatchUp => exact foot_execSubstituteCatchUp h (by decide)
  | retestTimer => exact foot_execRetestTimer h (by decide)
  | selfTestComplete => exact foot_execSelfTestComplete h (by decide)
  | repack => exact foot_execRepack h (by decide)
  | memberFall => exact foot_execMemberFall h (by decide)
  | memberRise => exact foot_execMemberRise h (by decide)
  | memberStepUp => exact foot_execMemberStepUp h (by decide)
  | refclkLoss => exact foot_execRefclkLoss h (by decide)
  | refclkRestored => exact foot_execRefclkRestored h (by decide)
  | ptpMessageReceived => exact foot_execPtpMessageReceived h (by decide)
  | slewComplete => exact foot_execSlewComplete h (by decide)
  | referenceLoss => exact foot_execReferenceLoss h (by decide)
  | lockAchieved => exact foot_execLockAchieved h (by decide)
  | wclkQualified => exact foot_execWclkQualified h (by decide)
  | wclkGlitch => exact foot_execWclkGlitch h (by decide)
  | pinCapture => exact foot_execPinCapture h (by decide)
  | startInEdge => exact foot_execStartInEdge h (by decide)
  | triggerPointReceived => exact foot_execTriggerPointReceived h (by decide)
  | startTrigger => exact foot_execStartTrigger h (by decide)
  | surgeOpening => exact foot_execSurgeOpening h (by decide)
  | surgeReramp => exact foot_execSurgeReramp h (by decide)
  | surgeRecovered => exact foot_execSurgeRecovered h (by decide)
  | surgeTimeout => exact foot_execSurgeTimeout h (by decide)
  | rampComplete => exact foot_execRampComplete h (by decide)
  | rampTimeout => exact foot_execRampTimeout h (by decide)
  | foldEntry => exact foot_execFoldEntry h (by decide)
  | foldExit => exact foot_execFoldExit h (by decide)
  | gateFault => exact foot_execGateFault h (by decide)
  | fetFault => exact foot_execFetFault h (by decide)
  | ladderEnter => exact foot_execLadderEnter h (by decide)
  | ladderLeave => exact foot_execLadderLeave h (by decide)
  | budgetShed => exact foot_execBudgetShed h (by decide)
  | budgetReturn => exact foot_execBudgetReturn h (by decide)
  | attendanceStep => exact foot_execAttendanceStep h (by decide)
  | attendanceEntryCount => exact foot_execAttendanceEntryCount h (by decide)
  | lineFault => exact foot_execLineFault h (by decide)
  | faultRecovery => exact foot_execFaultRecovery h (by decide)
  | leakLocalisation => exact foot_execLeakLocalisation h (by decide)
  | leakLocalised => exact foot_execLeakLocalised h (by decide)
  | bankTemperature => exact foot_execBankTemperature h (by decide)
  | probe => exact foot_execProbe h (by decide)
  | soundingComplete => exact foot_execSoundingComplete h (by decide)
  | callQualified => exact foot_execCallQualified h (by decide)
  | callEnded => exact foot_execCallEnded h (by decide)
  | hostCallEnd => exact foot_execHostCallEnd h (by decide)
  | proofingWindow => exact foot_execProofingWindow h (by decide)
  | proofingQuiet => exact foot_execProofingQuiet h (by decide)
  | fastExpiry => exact foot_execFastExpiry h (by decide)
  | doubleTalkExpiry => exact foot_execDoubleTalkExpiry h (by decide)
  | vadBlockClose => exact foot_execVadBlockClose h (by decide)
  | humSearch _ found => exact foot_execHumSearch (_found := found) h (by decide)
  | humStateTimer => exact foot_execHumStateTimer h (by decide)
  | dapInputQualified => exact foot_execDapInputQualified h (by decide)
  | dapInputLoss => exact foot_execDapInputLoss h (by decide)
  | dapResume => exact foot_execDapResume h (by decide)
  | slip => exact foot_execSlip h (by decide)
  | channelStatusBlock _ _ crccOk => exact foot_execChannelStatusBlock (_crccOk := crccOk) h (by decide)
  | zeroCrossingSwitch => exact foot_execZeroCrossingSwitch h (by decide)
  | zcTimeout => exact foot_execZcTimeout h (by decide)
  | negotiationResolved => exact foot_execNegotiationResolved h (by decide)
  | trainingComplete => exact foot_execTrainingComplete h (by decide)
  | linkTimeout => exact foot_execLinkTimeout h (by decide)
  | linkLoss => exact foot_execLinkLoss h (by decide)
  | linkdownDropTimeout => exact foot_execLinkdownDropTimeout h (by decide)
  | frameReceived => exact foot_execFrameReceived h (by decide)
  | pauseExpiry => exact foot_execPauseExpiry h (by decide)
  | txFrameStart => exact foot_execTxFrameStart h (by decide)
  | txFrameComplete => exact foot_execTxFrameComplete h (by decide)
  | mediaPacketLaunch => exact foot_execMediaPacketLaunch h (by decide)
  | ringIrqDelayExpiry => exact foot_execRingIrqDelayExpiry h (by decide)
  | snapshotComplete => exact foot_execSnapshotComplete h (by decide)
  | streamLostTimeout => exact foot_execStreamLostTimeout h (by decide)
  | membershipReportTimer => exact foot_execMembershipReportTimer h (by decide)
  | imdalLinkUp => exact foot_execImdalLinkUp h (by decide)
  | imdalLinkDown => exact foot_execImdalLinkDown h (by decide)
  | seamReturn => exact foot_execSeamReturn h (by decide)
  | timeWordReceived => exact foot_execTimeWordReceived h (by decide)
  | ringTimeLoss => exact foot_execRingTimeLoss h (by decide)
  | cutOff => exact foot_execCutOff h (by decide)
  | membershipRequest => exact foot_execMembershipRequest h (by decide)
  | membershipRequestReceived => exact foot_execMembershipRequestReceived h (by decide)
  | segmentMerge => exact foot_execSegmentMerge h (by decide)
  | forwardReceived => exact foot_execForwardReceived h (by decide)
  | forwardComplete => exact foot_execForwardComplete h (by decide)
  | scrubRead => exact foot_execScrubRead h (by decide)
  | hallPassGrant => exact foot_execHallPassGrant h (by decide)
  | hallPassBreak => exact foot_execHallPassBreak h (by decide)
  | matrixTimeout => exact foot_execMatrixTimeout h (by decide)
  | domainWake => exact foot_execDomainWake h (by decide)
  | powerupStepReady => exact foot_execPowerupStepReady h (by decide)
  | powerupFailure => exact foot_execPowerupFailure h (by decide)
  | domainEntryComplete => exact foot_execDomainEntryComplete h (by decide)
  | powerOnReset straps => exact (foot_execPowerOnReset straps s).mono (by decide)
  | resetAssert => exact (foot_execResetAssert s).mono (by decide)
  | aonReady => exact foot_execAonReady h (by decide)
  | imageReadComplete => exact foot_execImageReadComplete h (by decide)
  | imageAuthentication => exact foot_execImageAuthentication h (by decide)
  | runBoundary => exact foot_execRunBoundary h (by decide)
  | watchdogExpiry => exact foot_execWatchdogExpiry h (by decide)
  | mgmtRestart => exact foot_execMgmtRestart h (by decide)
  | hotswapRequest => exact foot_execHotswapRequest h (by decide)
  | removalReady => exact foot_execRemovalReady h (by decide)
  | removalRecord => exact foot_execRemovalRecord h (by decide)
  | hotswapRelease => exact foot_execHotswapRelease h (by decide)
  | rollCallComplete => exact foot_execRollCallComplete h (by decide)
  | thermalThreshold => exact foot_execThermalThreshold h (by decide)
  | lfeSupplyLow => exact foot_execLfeSupplyLow h (by decide)
  | plantAbsent => exact foot_execPlantAbsent h (by decide)
  | coreSupplyLow => exact (foot_execCoreSupplyLow s).mono (by decide)
  | plantReturn => exact foot_execPlantReturn h (by decide)
  | lfeSupplyRestored => exact foot_execLfeSupplyRestored h (by decide)
  | leakageChange => exact foot_execLeakageChange h (by decide)
  | wclkInEdge => exact foot_execWclkInEdge h (by decide)
  | ptpMessageTimer => exact foot_execPtpMessageTimer h (by decide)
  | removalDeadline => exact foot_execRemovalDeadline h (by decide)

/-- Settles O3: the footprint of the command's row answers a next state, and no footprint holds the queue. -/
theorem everyCommandCompletes : Obligations.EveryCommandCompletes := by
  intro c s
  obtain ⟨t, ht, hf⟩ := foot_exec c s
  exact ⟨t, ht, hf.1 .pending (by decide)⟩

/-- Settles O4: a step is one tick of the idle block or one command, and the footprints of both keep State.Ok. -/
theorem stepKeepsOk : Obligations.StepKeepsOk := by
  intro s t hs h
  unfold step at h
  split at h
  case h_1 =>
    obtain rfl := Host.Outcome.next.inj h
    exact (foot_idle (Foot.refl [.time, .mem, .trace] s) (by decide)).2 hs
  case h_2 c rest _ =>
    obtain ⟨u, hu, hf⟩ := foot_exec c { s with pending := rest }
    obtain rfl := Host.Outcome.next.inj (hu.symm.trans h)
    exact hf.2 hs

/-- Settles O5: ok_reset says it part by part. -/
theorem resetOk : Obligations.ResetOk := ok_reset

/-- Settles O6: each register's word is computed from the fields' reset values. -/
theorem resetRegisters : Obligations.ResetRegisters := by
  refine ⟨?_, ?_, ?_, ?_, ?_, ?_, ?_, ?_, ?_, ?_, ?_, ?_, ?_, ?_, ?_, ?_, ?_⟩ <;> rfl

end Sys2Proof.Machine
end

section
/-! SUPPORT. Faulty accesses of the host bus (R38, R40, R42) and the ring registers (R62 to R64): what an access does that sets a bit of
HBI_ERR, and from that the statements FaultyAccesses, RingPointers and RingEnableDisable. -/

namespace Sys2Proof.Machine

/-! ### Accesses that HBI_ERR records -/

/-- The host bus part after an access that sets bits of HBI_ERR and does nothing else (R42). -/
def Hbi.misused (h : Hbi) (e : BitVec 6) : Hbi := { h.whole with err := h.err ||| e, errCount := satAdd h.errCount 1 }

/-- A command whose whole effect is a change of the host bus part. -/
theorem does_onHbi {c : Instr} {s : State} {f : Hbi → Hbi} (h : exec c s = .next (s.onHbi f)) : Does c s [.hbi] fun t => t.hbi = f s.hbi :=
  ⟨s.onHbi f, h, (foot_onHbi (Foot.refl [.hbi] s) (by decide)).1, rfl⟩

theorem pairDone_busErr (s : State) {e : BitVec 6} (he : e ≠ 0) : s.pairDone.busErr e = s.onHbi fun h => h.misused e := if_neg he

theorem hostRead_unmapped {s : State} {k : Nat} (hr : s.hbi.ready = true) (hk : regCount ≤ k) (env : BusEnv) :
    s.hostRead k env = s.onHbi fun h => { h.misused errUnmapped with rdata := 0 } := by
  simp only [State.hostRead, hr, hk, Bool.not_true, Bool.false_eq_true, if_false, if_true]
  rfl

theorem hostWrite_unmapped {s : State} {k : Nat} (hr : s.hbi.ready = true) (hk : regCount ≤ k) (w : RegWrite) (env : BusEnv) :
    s.hostWrite k w env = s.onHbi fun h => h.misused errUnmapped := by
  simp only [State.hostWrite, hr, hk, Bool.not_true, Bool.false_eq_true, if_false, if_true]
  rfl

/-- A write of a mapped register is its effect, then the event that it sets in HBI_ERR. -/
theorem hostWrite_put {s u : State} {k : Nat} {w : RegWrite} {env : BusEnv} {e : BitVec 6} (hr : s.hbi.ready = true) (hk : k < regCount)
    (hp : s.pairDone.regPut k w env = (u, e)) : s.hostWrite k w env = u.busErr e := by
  simp [State.hostWrite, hr, Nat.not_le.2 hk, hp]

/-- A write of a mapped register that does nothing but set bits of HBI_ERR. -/
theorem hostWrite_refused {s : State} {k : Nat} {w : RegWrite} {env : BusEnv} {e : BitVec 6} (hr : s.hbi.ready = true) (hk : k < regCount)
    (he : e ≠ 0) (hp : s.pairDone.regPut k w env = (s.pairDone, e)) : s.hostWrite k w env = s.onHbi fun h => h.misused e :=
  (hostWrite_put hr hk hp).trans (pairDone_busErr s he)

theorem regPut_partial (s : State) {k : Nat} {w : RegWrite} (env : BusEnv) (hk : fullOnly k = true) (hb : w.be ≠ 0xF#4) :
    s.regPut k w env = (s, errPartial) := by
  simp [State.regPut, RegWrite.full, hk, hb]

/-- Settles O9: beyond the map by hostRead_unmapped and hostWrite_unmapped, a partial write of a register that takes whole words alone by
regPut_partial. -/
theorem faultyAccesses : Obligations.FaultyAccesses := by
  refine ⟨⟨rfl, ?_⟩, ?_⟩
  · intro s d reg hr hk
    cases d with
    | read =>
      refine does_onHbi (f := fun h => { h.misused errUnmapped with rdata := 0 }) ?_
      rw [← hostRead_unmapped hr hk cleanBus]
      exact congrArg Host.Outcome.next (if_neg (Nat.not_lt.2 hk))
    | write =>
      refine does_onHbi (f := fun h => h.misused errUnmapped) ?_
      rw [← hostWrite_unmapped hr hk { val := 0, be := 0xF } cleanBus]
      exact congrArg Host.Outcome.next (if_neg (Nat.not_lt.2 hk))
  · intro s w c hr hb hc
    have refused (k : Nat) (hm : k < regCount) (hk : fullOnly k = true) :
        s.hostWrite k w cleanBus = s.onHbi fun h => h.misused errPartial :=
      hostWrite_refused hr hm (by decide) (regPut_partial s.pairDone cleanBus hk hb)
    refine does_onHbi (f := fun h => h.misused errPartial) ?_
    rcases hc with rfl | rfl | rfl
    · exact congrArg Host.Outcome.next (refused regCringTail (by decide) (by decide))
    · exact congrArg Host.Outcome.next (refused regCplHead (by decide) (by decide))
    · exact congrArg Host.Outcome.next (refused regCmdOp (by decide) (by decide))

/-! ### Ring pointers (R42, R64) -/

theorem regPut_tail (s : State) {w : RegWrite} (env : BusEnv) (hb : w.be = 0xF#4) : s.regPut regCringTail w env = s.putTail w.val := by
  simp [State.regPut, RegWrite.full, hb, regCringTail]

theorem regPut_cplHead (s : State) {w : RegWrite} (env : BusEnv) (hb : w.be = 0xF#4) : s.regPut regCplHead w env = s.putCplHead w.val := by
  simp [State.regPut, RegWrite.full, hb, regCplHead]

@[simp] theorem selfVote_cmd (s : State) (d src : Nat) : (s.selfVote d src).cmd = s.cmd :=
  (foot_selfVote (Foot.refl [.hbi, .power, .trace] s) (by decide)).1 .cmd (by decide)

/-- A possible TAIL is taken, whether or not it wakes MGMT. -/
theorem putTail_cmd {s : State} {v : Word} (h : (v.setWidth 9 - s.cmd.head).toNat ≤ 256) :
    s.putTail v = ((s.putTail v).1, 0) ∧ (s.putTail v).1.cmd = { s.cmd with tail := v.setWidth 9 } := by
  simp only [State.putTail, Nat.not_lt.2 h, if_false]
  split
  · exact ⟨trivial, selfVote_cmd ..⟩
  · exact ⟨trivial, rfl⟩

/-- Settles O10: an impossible pointer is refused by hostWrite_refused, a possible one is the arm of regPut. -/
theorem ringPointers : Obligations.RingPointers := by
  intro s w hr hb
  refine ⟨fun h => ?_, fun h => ?_, fun h => ?_, fun h => ?_⟩
  · obtain ⟨he, hc⟩ := putTail_cmd (s := s.pairDone) h
    have hw : s.hostWrite regCringTail w cleanBus = (s.pairDone.putTail w.val).1 :=
      hostWrite_mapped hr (by decide) ((regPut_tail s.pairDone cleanBus hb).trans he)
    have hf := foot_putTail (v := w.val) (foot_pairDone (Foot.refl [.hbi, .cmd, .power, .trace] s) (by decide)) (by decide)
    exact ⟨_, congrArg Host.Outcome.next hw, hf.1, hc⟩
  · exact does_onHbi (f := fun x => x.misused errRingPtr) (congrArg Host.Outcome.next
      (hostWrite_refused hr (by decide) (by decide) ((regPut_tail s.pairDone cleanBus hb).trans (if_pos h))))
  · have hw : s.hostWrite regCplHead w cleanBus = s.pairDone.onCmd fun c => { c with cplHead := w.val.setWidth 9 } :=
      hostWrite_mapped hr (by decide) ((regPut_cplHead s.pairDone cleanBus hb).trans (if_neg (Nat.not_lt.2 h)))
    have hf := foot_onCmd (f := fun c => { c with cplHead := w.val.setWidth 9 })
      (foot_pairDone (Foot.refl [.hbi, .cmd] s) (by decide)) (by decide) fun k => k
    exact ⟨_, congrArg Host.Outcome.next hw, hf.1, rfl, rfl⟩
  · exact does_onHbi (f := fun x => x.misused errRingPtr) (congrArg Host.Outcome.next
      (hostWrite_refused hr (by decide) (by decide) ((regPut_cplHead s.pairDone cleanBus hb).trans (if_pos h))))

/-! ### CRING_BASE and EHALT (R62, R63, R64) -/

/-- No entry of a table is found whose index a filter drops. -/
theorem lookup_filter_dropped {α : Type} {p : Nat → Bool} {k : Nat} (h : p k = false) (t : Tab α) :
    (t.filter fun e => p e.1).lookup k = none := by
  rw [List.lookup_eq_none_iff]
  intro e he
  have hp : p e.1 = true := (List.mem_filter.1 he).2
  rw [bne_iff_ne]
  rintro rfl
  rw [h] at hp
  cases hp

/-- A cleared range reads zero. -/
theorem Memory.read_clear_in {lo hi k : Nat} (h : lo ≤ k) (g : k < hi) (m : List Host.Cell) :
    Memory.readByte (Memory.clear lo hi m) k = 0 := by
  unfold Memory.readByte tget Memory.clear
  rw [lookup_filter_dropped (p := fun i => decide (i < lo) || decide (hi ≤ i)) (by simp [h, g])]
  rfl

theorem Memory.read_clear (lo hi k : Nat) (m : List Host.Cell) :
    Memory.readByte (Memory.clear lo hi m) k = if lo ≤ k ∧ k < hi then 0 else Memory.readByte m k := by
  split
  · next h => exact Memory.read_clear_in h.1 h.2 m
  · next h => exact Memory.read_clear_out (by omega) m

/-- CRING_BASE with EN: the rings are enabled from RUN on, with a base in the host area and nothing taken. -/
theorem putCringBase_enable {s : State} {w : RegWrite} (hb : s.boot.boot = 4) (he : s.cmd.en = false) (ht : s.cmd.taken = none)
    (h31 : bit (w.over s.cringBase) 31 = true) (hbase : 0x30 ≤ fld (w.over s.cringBase) 14 6) :
    s.putCringBase w = (s.ringStart (fld (w.over s.cringBase) 14 6), 0) := by
  simp [State.putCringBase, hb, he, ht, h31, Nat.not_lt.2 hbase]

theorem putCringBase_disable {s : State} {w : RegWrite} (hb : s.boot.boot = 4) (h31 : bit (w.over s.cringBase) 31 = false) :
    s.putCringBase w = (s.onCmd fun c => { c with base := BitVec.ofNat 6 (fld (w.over s.cringBase) 14 6), en := false }, 0) := by
  simp [State.putCringBase, hb, h31]

theorem putCringBase_early {s : State} (w : RegWrite) (hb : s.boot.boot ≠ 4) : s.putCringBase w = (s, errRingCfg) := by
  simp only [State.putCringBase, decide_eq_true hb, Bool.true_or, if_true]

/-- Settles O11: the arms of CRING_BASE and of CRING_HEAD; the cleared Completion Ring reads zero by Memory.read_clear. -/
theorem ringEnableDisable : Obligations.RingEnableDisable := by
  refine ⟨?_, ?_⟩
  · intro s w hr hb he ht h31 hbase
    have hw : s.hostWrite regCringBase w cleanBus = s.pairDone.ringStart (fld (w.over s.cringBase) 14 6) :=
      hostWrite_mapped hr (by decide) (putCringBase_enable (s := s.pairDone) hb he ht h31 hbase)
    have hf := foot_ringStart (base := fld (w.over s.cringBase) 14 6)
      (foot_pairDone (Foot.refl [.hbi, .cmd, .mem] s) (by decide)) (by decide)
    exact ⟨_, congrArg Host.Outcome.next hw, hf.1, rfl, rfl, rfl, fun a => Memory.read_clear _ _ a s.mem.sram⟩
  · intro s w hr
    refine ⟨fun hb h31 => ?_, fun hb => ?_, ?_⟩
    · have hw : s.hostWrite regCringBase w cleanBus = _ := hostWrite_mapped hr (by decide) (putCringBase_disable (s := s.pairDone) hb h31)
      exact ⟨_, congrArg Host.Outcome.next hw,
        (foot_onCmd (foot_pairDone (Foot.refl [.hbi, .cmd] s) (by decide)) (by decide) fun k => k).1, rfl, rfl⟩
    · exact does_onHbi (f := fun x => x.misused errRingCfg) (congrArg Host.Outcome.next
        (hostWrite_refused hr (by decide) (by decide) (putCringBase_early (s := s.pairDone) w hb)))
    · have hw : s.hostWrite regCringHead w cleanBus = s.pairDone.onCmd fun c => { c with ehalt := c.ehalt && !bit w.ones 31 } :=
        hostWrite_mapped hr (by decide) rfl
      exact ⟨_, congrArg Host.Outcome.next hw,
        (foot_onCmd (foot_pairDone (Foot.refl [.hbi, .cmd] s) (by decide)) (by decide) fun k => k).1, rfl, rfl⟩

end Sys2Proof.Machine
end

section
/-! SUPPORT. The window's denied write (R45, R47): the statement WindowAccess fails where AON, the domain of AONREG, is not ON. -/

namespace Sys2Proof.Machine

/-- The window stands at a populated word of AONREG; HUB and MGMT are ON, and AON is OFF. -/
def aonOff : State := { State.reset with
  hbi := { State.reset.hbi with ready := true, winAddr := 0x100#32 }
  power := { State.reset.power with
    dom := [(0, { domain0 0 with state := .off }), (dMgmt, { domain0 dMgmt with state := .on }), (dHub, { domain0 dHub with state := .on })] } }

/-- The first row of R47 comes before the permission of R45: the write sets OFF, and not DENIED. -/
theorem aonOff_write_off (w : RegWrite) : (aonOff.hostWrite regWinData w cleanBus).hbi.winErr = winOffBit := rfl

/-- Refutes O12: the clause of AONREG asks that HUB and MGMT be ON, and not AON. In aonOff a write of WIN_DATA ends in the first row of
R47, since the domain of AONREG does not answer: WIN_STAT shows OFF (bit 0) where the clause says DENIED (bit 1). -/
theorem not_windowAccess : ¬ Obligations.WindowAccess := by
  intro h
  obtain ⟨t, ht, -, hhbi⟩ := (h.2 aonOff false { val := 0, be := 0xF } rfl rfl rfl).2 rfl rfl
  obtain rfl : aonOff.hostWrite regWinData { val := 0, be := 0xF } cleanBus = t := Host.Outcome.next.inj ht
  have hdenied : winOffBit = 0 ||| 2 := (aonOff_write_off _).symm.trans (congrArg Hbi.winErr hhbi)
  exact absurd hdenied (by decide)

end Sys2Proof.Machine
end

section
/-! SUPPORT. Halves in 16-bit mode (R41): what each half does once the bus is ready, and from that the statement Halfwords. -/

namespace Sys2Proof.Machine

section
variable {s : State} {reg : BitVec 7} {data : BitVec 16} {be : BitVec 2}

/-! ### The rows as the accesses they are -/

theorem exec_halfwordLow (hr : s.hbi.ready = true) (hw : s.hbi.w16 = true) (d : Dir) (env : BusEnv) :
    exec (.halfwordLowAccess d reg data be env) s = .next (s.lowHalf d reg data be env) := by
  simp [exec, execHalfwordLowAccess, hr, hw]

theorem exec_halfwordHigh (hr : s.hbi.ready = true) (hw : s.hbi.w16 = true) (d : Dir) (env : BusEnv) :
    exec (.halfwordHighAccess d reg data be env) s = .next (s.highHalf d reg data be env) := by
  simp [exec, execHalfwordHighAccess, hr, hw]

theorem exec_halves_idle (h : s.hbi.ready = false ∨ s.hbi.w16 = false) (d : Dir) (env : BusEnv) :
    exec (.halfwordLowAccess d reg data be env) s = .next s ∧ exec (.halfwordHighAccess d reg data be env) s = .next s := by
  rcases h with h | h <;> simp [exec, execHalfwordLowAccess, execHalfwordHighAccess, h]

theorem toNat_wordAddress (reg : BitVec 7) : (reg.setWidth 8).toNat = reg.toNat := by
  simp only [BitVec.toNat_setWidth]
  omega

theorem exec_regReadClear_wide (s : State) (reg : BitVec 7) :
    exec (.regReadClear (reg.setWidth 8)) s = .next (s.hostRead reg.toNat cleanBus) := by
  simp only [exec, execRegReadClear, toNat_wordAddress]

theorem exec_regWrite_wide (s : State) (reg : BitVec 7) (w : RegWrite) :
    exec (.regWrite (reg.setWidth 8) w) s = .next (s.hostWrite reg.toNat w cleanBus) := by
  simp only [exec, execRegWrite, toNat_wordAddress]

/-- A low read is the whole read, and the converter takes the upper half. -/
theorem lowHalf_read (env : BusEnv) : s.lowHalf .read reg data be env = (s.hostRead reg.toNat env).onHbi fun h =>
    { h with latch := some (reg, h.rdata.extractLsb' 16 16), held := none, rdata := h.rdata &&& 0x0000FFFF#32 } := rfl

/-! ### A high half with and without its low half -/

theorem highHalf_latched {v : BitVec 16} (h : s.hbi.latch = some (reg, v)) (env : BusEnv) :
    s.highHalf .read reg data be env = State.answer (s.pairDone, v.setWidth 32) := by
  simp [State.highHalf, h]

theorem highHalf_held {lo : BitVec 16} {b : BitVec 2} (h : s.hbi.held = some (reg, lo, b)) (env : BusEnv) :
    s.highHalf .write reg data be env = s.hostWrite reg.toNat (joinHalves lo data b be) env := by
  simp [State.highHalf, h]

theorem highHalf_read_alone (h : ∀ v, s.hbi.latch ≠ some (reg, v)) (env : BusEnv) :
    s.highHalf .read reg data be env = s.loneRead reg.toNat := by
  simp only [State.highHalf]
  split
  · next r v hl =>
    have hne : r ≠ reg := by
      rintro rfl
      exact h v hl
    rw [if_neg hne]
  · rfl

theorem highHalf_write_alone (h : ∀ lo b, s.hbi.held ≠ some (reg, lo, b)) (env : BusEnv) :
    s.highHalf .write reg data be env = s.loneWrite reg.toNat data env := by
  simp only [State.highHalf]
  split
  · next r lo b hl =>
    have hne : r ≠ reg := by
      rintro rfl
      exact h lo b hl
    rw [if_neg hne]
  · rfl

/-! ### W16_ORDER -/

theorem loneRead_mapped {k : Nat} (hk : k < regCount) :
    s.loneRead k = s.onHbi fun h => { h.misused errW16Order with rdata := s.regValue k >>> 16 } := by
  rw [State.loneRead, if_neg (Nat.not_le.2 hk), pairDone_busErr s (by decide)]
  rfl

theorem append_masked_upper (x y d : BitVec 16) :
    ((x ++ y) &&& ~~~(BitVec.allOnes 16 ++ 0#16)) ||| ((d ++ 0#16) &&& (BitVec.allOnes 16 ++ 0#16)) = d ++ y := by
  rw [BitVec.not_append, BitVec.and_append, BitVec.and_append, BitVec.or_append]
  simp only [BitVec.not_allOnes, BitVec.not_zero, BitVec.and_zero, BitVec.and_allOnes, BitVec.zero_or, BitVec.or_zero]

/-- Enabled bytes 2 and 3 alone replace the upper half of a word. -/
theorem mergeBe_upper (x : Word) (d : BitVec 16) : mergeBe x (d ++ 0#16) 0xC = d ++ x.extractLsb' 0 16 := by
  have hx : x.extractLsb' 16 16 ++ x.extractLsb' 0 16 = x := BitVec.extractLsb'_append_extractLsb'
  have hm := append_masked_upper (x.extractLsb' 16 16) (x.extractLsb' 0 16) d
  rw [hx] at hm
  exact hm

/-- A lone write of the upper half of SCRATCH. -/
theorem loneWrite_scratch (s : State) (data : BitVec 16) (env : BusEnv) :
    s.loneWrite regScratch data env = s.onHbi fun h => { h.misused errW16Order with scratch := data ++ h.scratch.extractLsb' 0 16 } := by
  have hput : s.pairDone.regPut regScratch { val := data ++ (0 : BitVec 16), be := 0xC } env =
      (s.pairDone.onHbi fun h => { h with scratch := mergeBe h.scratch (data ++ 0#16) 0xC }, 0) := rfl
  simp only [mergeBe_upper] at hput
  have herr : errW16Order ||| 0 = errW16Order := rfl
  rw [State.loneWrite, if_neg (by decide), hput]
  dsimp only
  rw [herr, State.busErr, if_neg (by decide)]
  rfl

/-- Whatever else an event sets, W16_ORDER is set with it. -/
theorem busErr_w16Order (u : State) (e : BitVec 6) : (u.busErr (errW16Order ||| e)).hbi.err.getLsbD 5 = true := by
  have hbit : (errW16Order ||| e).getLsbD 5 = true := by simp [errW16Order]
  have hne : errW16Order ||| e ≠ 0 := by
    intro h
    rw [h] at hbit
    cases hbit
  rw [State.busErr, if_neg hne, onHbi_hbi, BitVec.getLsbD_or, hbit, Bool.or_true]

theorem loneRead_w16Order (s : State) (k : Nat) : (s.loneRead k).hbi.err.getLsbD 5 = true := by
  unfold State.loneRead
  split
  · exact busErr_w16Order s.pairDone errUnmapped
  · exact busErr_w16Order s.pairDone 0

theorem loneWrite_w16Order (s : State) (k : Nat) (data : BitVec 16) (env : BusEnv) :
    (s.loneWrite k data env).hbi.err.getLsbD 5 = true := by
  unfold State.loneWrite
  split
  · exact busErr_w16Order ..
  · exact busErr_w16Order ..

end

/-- Settles O13: each half is one of the accesses above; a whole word by a pair of halves is the access of registerRead or a host write. -/
theorem halfwords : Obligations.Halfwords := by
  intro s reg data be
  refine ⟨fun hr hw => ⟨?_, ?_, ?_, ?_, ?_, ?_, ?_, ?_⟩, fun h d env => exec_halves_idle h d env⟩
  · exact ⟨_, exec_regReadClear_wide s reg, exec_halfwordLow hr hw .read cleanBus⟩
  · intro hk h1 h2
    obtain ⟨u, hu, hs, hh, -⟩ := registerRead s (reg.setWidth 8) hr (by rwa [toNat_wordAddress]) (by rwa [toNat_wordAddress])
      (by rwa [toNat_wordAddress])
    rw [toNat_wordAddress] at hh
    obtain rfl := Host.Outcome.next.inj ((exec_regReadClear_wide s reg).symm.trans hu)
    refine ⟨_, exec_halfwordLow hr hw .read cleanBus, ?_, ?_, ?_, rfl⟩
    · have hlow : SameOutside [.hbi] (s.hostRead reg.toNat cleanBus) (s.lowHalf .read reg data be cleanBus) :=
        lowHalf_read (s := s) cleanBus ▸ (foot_onHbi (Foot.refl [.hbi] _) (by decide)).1
      exact same_trans hs hlow (List.Subset.refl _) (by decide)
    · show _ &&& _ = _
      rw [hh]
    · show some (reg, BitVec.extractLsb' 16 16 _) = _
      rw [hh]
  · exact fun env => exec_halfwordLow hr hw .write env
  · intro v env hv
    rw [exec_halfwordHigh hr hw, highHalf_latched hv]
    rfl
  · intro lo b hl
    have hx := exec_halfwordHigh (data := data) (be := be) (reg := reg) hr hw .write cleanBus
    rw [highHalf_held hl] at hx
    refine ⟨_, hx, exec_regWrite_wide s reg _, ?_⟩
    rintro rfl
    have hput : s.hostWrite (15 : BitVec 7).toNat (joinHalves lo data b be) cleanBus =
        s.pairDone.onHbi fun h => { h with scratch := mergeBe h.scratch (data ++ lo) (be ++ b) } := hostWrite_mapped hr (by decide) rfl
    rw [hput]
    exact ⟨(foot_onHbi (foot_pairDone (Foot.refl [.hbi] s) (by decide)) (by decide)).1, rfl⟩
  · intro hv hk env
    rw [exec_halfwordHigh hr hw, highHalf_read_alone hv, loneRead_mapped hk]
    rfl
  · rintro hl rfl env
    rw [exec_halfwordHigh hr hw, highHalf_write_alone hl]
    exact congrArg Host.Outcome.next (loneWrite_scratch s data env)
  · intro env
    refine ⟨fun hv => ⟨_, exec_halfwordHigh hr hw .read env, ?_⟩, fun hl => ⟨_, exec_halfwordHigh hr hw .write env, ?_⟩⟩
    · rw [highHalf_read_alone hv]
      exact loneRead_w16Order s _
    · rw [highHalf_write_alone hl]
      exact loneWrite_w16Order s _ data env

end Sys2Proof.Machine
end

section
/-! SUPPORT. Commands that complete OK and change nothing but their block (R51, R107, R118, R365): what serving one does, the lengths of
the records, and from that the statement ReadCommandsComplete. -/

namespace Sys2Proof.Machine

/-! ### Lengths of the records -/

@[simp] theorem length_leBytes (n v : Nat) : (leBytes n v).length = n := by
  induction n generalizing v with
  | zero => rfl
  | succ n ih => simp [leBytes, ih]

theorem length_flatMap_of {α : Type} {f : α → List Byte} {n : Nat} (hf : ∀ a, (f a).length = n) (l : List α) :
    (l.flatMap f).length = n * l.length := by
  induction l with
  | nil => rfl
  | cons a l ih => rw [List.flatMap_cons, List.length_append, hf, ih, List.length_cons, Nat.mul_succ, Nat.add_comm]

theorem length_wordBytes (ws : List Word) : (wordBytes ws).length = 4 * ws.length :=
  length_flatMap_of (fun w : Word => length_leBytes 4 w.toNat) ws

theorem length_legRecord (s acc : State) (l : Nat) : (legRecord s acc l).length = 128 := by
  simp [legRecord, legStateBytes, legKeyBytes, legWords, length_wordBytes, LegCfg.listenKeys, LegCfg.talkKeys, upto]

theorem length_grpRecord (s acc : State) (g : Nat) : (grpRecord s acc g).length = 32 := by
  simp [grpRecord, grpWords, length_wordBytes]

theorem length_tileEntry (s : State) (k : Nat) : (s.tileEntry k).length = 16 := by
  simp [State.tileEntry]

theorem length_timetablePart (s : State) (part : Nat) :
    (s.timetablePart part).length = if part = 0 then 1152 else if part = 1 then 4096 else 1024 := by
  unfold State.timetablePart
  split
  · rw [length_flatMap_of (length_tileEntry s), upto, List.length_range]
  · split <;> rw [List.length_map, upto, List.length_range]

/-! ### The result block -/

/-- The result block of a command lies where R50 allows. -/
theorem putResult_block {s : State} {w : Word} {n : Nat} {b : BlockAt} {bs : List Byte} (hn : bs.length = n) (hb : blockAt s.regions w n = some b) :
    s.putResult (some (w, bs)) = s.writeBlock b bs := by
  simp [State.putResult, hn, hb]

/-- An own command may have its result block where R50 allows. -/
theorem resultOk_own {s : State} {src : CmdSrc} {c : CmdWords} {w : Word} {n : Nat} {b : BlockAt} (hb : blockAt s.regions w n = some b) :
    Ctx.resultOk { src := srcOf src, cmd := c, param := none } s w n = true := by
  cases src <;> simp [Ctx.resultOk, srcOf, hb]

/-! ### Completion of a command that stages nothing -/

/-- A command that stages nothing completes at once: nothing of it could be withdrawn at a fall of the member. -/
theorem settle_done_unstaged {u : State} {x : Ctx} {r0 r1 : Word} {out : Option (Word × List Byte)} :
    u.settle x (.done u r0 r1 out) = (u.putResult out).complete x.src x.cmd stOk r0 r1 := by
  have hc : (u.putResult out).cmd = u.cmd := (foot_putResult (Foot.refl [.mem] u) (by decide)).1 .cmd (by decide)
  simp [State.settle, State.fallRisk, hc]

/-- A command of an own source that reads: its checks answer two result words and a block, which lies in memory as m holds it. -/
theorem answers_done {row : Instr} {s : State} {src : CmdSrc} {c : CmdWords} {isOp : Nat → Bool} {h : Handler} {r0 r1 : Word}
    {out : Option (Word × List Byte)} {m : Memory} (hex : exec row s = .next (s.runRow isOp h src)) (hop : isOp c.op = true)
    (hdef : isDefined c.op = true) (hcfg : isConfig c.op = false) (hf : s.front src = some c) (hb : s.boot.boot = 4)
    (hd : s.domOn dMgmt = true) (hcl : s.cleanEntry src) (he : c.chk = true → c.epoch = s.cmd.epoch ∧ (src = .ring → s.cmd.ehalt = false))
    (hck : h { src := srcOf src, cmd := c, param := none } (s.checking src c) = .done (s.checking src c) r0 r1 out)
    (hm : ((s.checking src c).putResult out).mem = m) : Answers row s src c stOk r0 r1 id m [] fun _ => True := by
  have hserve : s.runRow isOp h src = ((s.checking src c).putResult out).complete (srcOf src) c stOk r0 r1 := by
    have h70 : c.op = 0x70 → fld c.a0 8 2 ≠ 0 := fun e => by simp [e, isConfig] at hcfg
    rw [runRow_front hf hop, serve_checks h hcl hf hb hd (by simp [hcfg]) hdef h70 he (by simp [hcfg]), hck, settle_done_unstaged]
  have hput := (foot_putResult (out := out) (Foot.refl [.mem] (s.checking src c)) (by decide)).1
  have hcmd : ((s.checking src c).putResult out).cmd = (s.checking src c).cmd := hput .cmd (by decide)
  have hbus : ((s.checking src c).putResult out).hbi = s.hbi := (hput .hbi (by decide)).trans (by rw [checking_same c hcl]; rfl)
  have htrace : ((s.checking src c).putResult out).trace = s.trace := (hput .trace (by decide)).trans (by rw [checking_same c hcl]; rfl)
  have hbase : (s.checking src c).cmd.base = s.cmd.base ∧ (s.checking src c).cmd.head = s.cmd.head := by
    cases src <;> simp [State.checking, State.takeEntry]
  obtain ⟨gcmd, gmem, girq, grep⟩ := complete_eq ((s.checking src c).putResult out) src c stOk r0 r1
    (by rintro rfl; rw [hcmd]; rfl) (by rintro rfl; rw [hcmd]; rfl)
  have hs : SameOutside [.hbi, .trace, .draw, .cmd, .mem] s (s.runRow isOp h src) := by
    rw [hserve]
    have hfoot := foot_complete (src := srcOf src) (c := c) (st := stOk) (r0 := r0) (r1 := r1)
      (foot_putResult (out := out) (Foot.refl [.hbi, .trace, .draw, .cmd, .mem] (s.checking src c)) (by decide)) (by decide)
    exact same_trans (checking_outside s src c) hfoot.1 (by decide) (List.Subset.refl _)
  refine ⟨_, hex, hs, ?_, ?_, ?_, ?_, trivial⟩
  all_goals rw [hserve]
  · exact (reports_of_eq (Reports.refl s) hbus htrace).trans grep
  · rw [gcmd, if_pos rfl, hcmd]
    exact checking_answered hf stOk r0 r1
  · rw [gmem, gcmd, if_pos rfl, hcmd, hm]
    cases src with
    | mailbox => rfl
    | ring => simp only [State.answeredMem, hcmd, hbase.1, hbase.2]; rfl
  · rw [hbus] at girq
    exact girq

/-! ### The checks of the reads -/

@[simp] theorem checking_pidx (s : State) (src : CmdSrc) (c : CmdWords) : (s.checking src c).pidx = s.pidx :=
  congrArg Time.pidx (checking_outside s src c .time (by decide))

@[simp] theorem checking_epoch (s : State) (src : CmdSrc) (c : CmdWords) : (s.checking src c).cmd.epoch = s.cmd.epoch := by
  cases src <;> simp [State.checking, State.takeEntry]

@[simp] theorem checking_tiles (s : State) (src : CmdSrc) (c : CmdWords) : (s.checking src c).tiles = s.tiles :=
  checking_outside s src c .tiles (by decide)

theorem onNop_done {x : Ctx} {s : State} (hz : zeroFrom x.cmd 0) : onNop x s = .done s s.cmd.epoch s.pidx none := by
  obtain ⟨h0, h1, h2, h3, h4, h5⟩ := hz
  simp [onNop, noArgs, h0, h1, h2, h3, h4, h5]

theorem onLegGet_done {x : Ctx} {s : State} (h0 : x.cmd.a0 &&& 0xFFFFF000#32 = 0) (hz : zeroFrom x.cmd 2) (hr : x.resultOk s x.cmd.a1 128 = true)
    (hp : s.domOn dPantry = true) (hl : legCarried s.wingsNext (fld x.cmd.a0 0 12) = true) :
    onLegGet x s = .done s s.pidx s.cmd.epoch (some (x.cmd.a1, legRecord s s.accepted (fld x.cmd.a0 0 12))) := by
  obtain ⟨-, -, h2, h3, h4, h5⟩ := hz
  simp [onLegGet, needPantry, legGetChecked, h0, h2, h3, h4, h5, hr, hp, hl]

theorem onGrpGet_done {x : Ctx} {s : State} (h0 : x.cmd.a0 &&& 0xFFFFFC00#32 = 0) (hz : zeroFrom x.cmd 2) (hr : x.resultOk s x.cmd.a1 32 = true)
    (hp : s.domOn dPantry = true) (hl : fld x.cmd.a0 0 10 < memberGroups s.wingsNext) :
    onGrpGet x s = .done s s.pidx s.cmd.epoch (some (x.cmd.a1, grpRecord s s.accepted (fld x.cmd.a0 0 10))) := by
  obtain ⟨-, -, h2, h3, h4, h5⟩ := hz
  simp [onGrpGet, needPantry, grpGetChecked, h0, h2, h3, h4, h5, hr, hp, Nat.not_le.2 hl]

theorem onTimetableGet_done {x : Ctx} {s : State} (h0 : x.cmd.a0 &&& 0xFFFFFFFC#32 = 0) (hpart : fld x.cmd.a0 0 2 ≠ 3) (hz : zeroFrom x.cmd 2)
    (hr : x.resultOk s x.cmd.a1 (if fld x.cmd.a0 0 2 = 0 then 1152 else if fld x.cmd.a0 0 2 = 1 then 4096 else 1024) = true)
    (hp : fld x.cmd.a1 31 1 = 1 → s.domOn dPantry = true) :
    onTimetableGet x s = .done s s.tiles.ttPidx s.tiles.serial (some (x.cmd.a1, s.timetablePart (fld x.cmd.a0 0 2))) := by
  obtain ⟨-, -, h2, h3, h4, h5⟩ := hz
  have hneed : (decide (fld x.cmd.a1 31 1 = 1) && !s.domOn dPantry) = false := by
    by_cases h31 : fld x.cmd.a1 31 1 = 1
    · simp [hp h31]
    · simp [h31]
  simp [onTimetableGet, needBlock, hneed, timetableGetChecked, hpart, h0, h2, h3, h4, h5, hr]

/-- Settles O25: each read's own checks answer its record, whose length is that of the block, and answers_done completes it. -/
theorem readCommandsComplete : Obligations.ReadCommandsComplete := by
  intro s src c hf hb hd hcl he
  have hmem : (s.checking src c).mem = s.mem := by rw [checking_same c hcl]; rfl
  have written {w : Word} {n : Nat} {b : BlockAt} {bs : List Byte} (hn : bs.length = n)
      (hbk : blockAt (s.checking src c).regions w n = some b) : ((s.checking src c).putResult (some (w, bs))).mem = b.put bs s.mem := by
    rw [putResult_block hn hbk, ← hmem]
    rfl
  refine ⟨fun hop hz => ?_, fun b hop h0 hz hbk hp hl => ?_, fun b hop h0 hz hbk hp hl => ?_, fun b hop h0 hpart hz hbk hp => ?_⟩
  · refine answers_done (h := onNop) (out := none) rfl (by simp [hop]) (by rw [hop]; rfl) (by rw [hop]; rfl) hf hb hd hcl he ?_ hmem
    simpa using onNop_done (x := { src := srcOf src, cmd := c, param := none }) (s := s.checking src c) hz
  · refine answers_done (h := onLegGet) rfl (by simp [hop]) (by rw [hop]; rfl) (by rw [hop]; rfl) hf hb hd hcl he ?_
      (written (length_legRecord ..) hbk)
    simpa using onLegGet_done (x := { src := srcOf src, cmd := c, param := none }) (s := s.checking src c) h0 hz (resultOk_own hbk)
      (by simpa using hp) (by simpa using hl)
  · refine answers_done (h := onGrpGet) rfl (by simp [hop]) (by rw [hop]; rfl) (by rw [hop]; rfl) hf hb hd hcl he ?_
      (written (length_grpRecord ..) hbk)
    simpa using onGrpGet_done (x := { src := srcOf src, cmd := c, param := none }) (s := s.checking src c) h0 hz (resultOk_own hbk)
      (by simpa using hp) (by simpa using hl)
  · refine answers_done (h := onTimetableGet) rfl (by simp [hop]) (by rw [hop]; rfl) (by rw [hop]; rfl) hf hb hd hcl he ?_
      (written (length_timetablePart ..) hbk)
    simpa using onTimetableGet_done (x := { src := srcOf src, cmd := c, param := none }) (s := s.checking src c) h0 hpart hz
      (resultOk_own hbk) (by simpa using hp)

end Sys2Proof.Machine
end

section
/-! SUPPORT. The row of an opcode, and a command that waits (R57, R59, R66): WaitReleased; the statement EpochAndLimit fails for a ring
entry that holds a word in error. -/

namespace Sys2Proof.Machine

/-! ### A ring entry in error (R376) -/

/-- The Period's 64 commands are accepted, and the ring holds a LEG_SET whose word A5 is in error. -/
def badEntry : State := { State.reset with
  cmd := { State.reset.cmd with en := true, base := 0x30, tail := 1, accepted := 64 }
  mem := { State.reset.mem with sram := [(0xC0000, 0x10)], badSram := [0x30007] }
  boot := { State.reset.boot with boot := 4 }
  power := { State.reset.power with dom := [(dMgmt, { domain0 dMgmt with state := .on })] } }

/-- Taking the entry reads the word in error, which counts in ECC_CORR (R376, R381). -/
theorem badEntry_counts : (badEntry.runRow (· = 0x10) onLegSet .ring).mem.corr = 1 := by decide

/-- Refutes O27: the 65th command changes more than the command path where its ring entry holds a word in error. In badEntry the read of
the entry counts one corrected event, so the memory part changes; the statement has no State.cleanEntry among its hypotheses. -/
theorem not_epochAndLimit : ¬ Obligations.EpochAndLimit := by
  intro h
  obtain ⟨t, ht, hs, -⟩ := h.2 badEntry .ring badEntry.ringEntry rfl rfl rfl rfl (by decide)
  obtain rfl : badEntry.runRow (· = 0x10) onLegSet .ring = t := Host.Outcome.next.inj ht
  have hmem : (badEntry.runRow (· = 0x10) onLegSet .ring).mem = badEntry.mem := hs .mem (by decide)
  have hcorr : badEntry.mem.corr = 1 := (congrArg Memory.corr hmem).symm.trans badEntry_counts
  exact absurd hcorr (by decide)

/-! ### The row of an opcode -/

theorem rowOf_undefined {op : Nat} (h : isDefined op = false) (src : CmdSrc) : rowOf op src = .undefinedOpcode src := by
  unfold rowOf
  split
  case h_25 => rfl
  all_goals exact absurd h (by decide)

theorem handlerOf_undefined {op : Nat} (h : isDefined op = false) : handlerOf op = onUndefined := by
  unfold handlerOf
  split
  case h_25 => rfl
  all_goals exact absurd h (by decide)

/-- The row of a defined opcode serves a command of that opcode by the opcode's own checks (R51). -/
theorem exec_rowOf_defined {op : Nat} (h : isDefined op = true) (src : CmdSrc) (s : State) :
    exec (rowOf op src) s = .next (s.runRow (· = op) (handlerOf op) src) := by
  simp only [isDefined, isConfig, List.contains_cons, List.contains_nil, Bool.or_eq_true, beq_iff_eq, Bool.or_false] at h
  rcases h with (h | h | h | h | h | h | h | h | h | h | h | h | h | h | h | h) | h | h | h | h | h | h | h | h <;> subst h <;> rfl

/-- The row of any opcode serves a command of that opcode by the opcode's own checks. -/
theorem exec_rowOf (op : Nat) (src : CmdSrc) (s : State) :
    ∃ isOp : Nat → Bool, isOp op = true ∧ exec (rowOf op src) s = .next (s.runRow isOp (handlerOf op) src) := by
  cases hdef : isDefined op with
  | true => exact ⟨(· = op), by simp, exec_rowOf_defined hdef src s⟩
  | false =>
    refine ⟨fun op => !isDefined op, by simp [hdef], ?_⟩
    rw [rowOf_undefined hdef, handlerOf_undefined hdef]
    rfl

/-! ### A command that waits -/

/-- Serving a mailbox command takes it from the mailbox or from its wait alike. -/
theorem serve_mailbox_retaken (s : State) (h : Handler) (c : CmdWords) (param : Option (List Byte)) (w : Option Waiting) (b : Option CmdWords) :
    (s.onCmd fun m => { m with waiting := w, mbox := b }).serve h { src := .mailbox, cmd := c, param := param } =
      s.serve h { src := .mailbox, cmd := c, param := param } := rfl

/-- Settles O28: the release serves the waiting command by the checks of its opcode, as its row does from the mailbox. -/
theorem waitReleased : Obligations.WaitReleased := by
  intro s w hw hsrc hp hover
  obtain ⟨isOp, hop, hex⟩ := exec_rowOf w.cmd.op .mailbox (s.onCmd fun m => { m with waiting := none, mbox := some w.cmd })
  have hrow : (s.onCmd fun m => { m with waiting := none, mbox := some w.cmd }).runRow isOp (handlerOf w.cmd.op) .mailbox =
      s.serve (handlerOf w.cmd.op) { src := .mailbox, cmd := w.cmd, param := none } :=
    (runRow_front rfl hop).trans (serve_mailbox_retaken s _ w.cmd none none (some w.cmd))
  refine ⟨_, hex, ?_⟩
  rw [hrow]
  simp [exec, execCommandWaitRelease, State.releaseWait, hw, hover, hsrc, hp, isPeer]

end Sys2Proof.Machine
end

section
/-! SUPPORT. The Shelf Serial Port and the Bell (R68 to R70, R397, R405): what a read walks over, what a wake leaves of the votes, and from
that the statement ShelfPort. -/

namespace Sys2Proof.Machine

/-! ### Reads -/

/-- The first of n + 1 steps may be taken before the others. -/
theorem repeat_first {α : Type} (f : α → α) (n : Nat) (a : α) : Nat.repeat f n (f a) = Nat.repeat f (n + 1) a := by
  induction n with
  | zero => rfl
  | succ n ih => exact congrArg f ih

theorem shelfRead_ptr (s : State) (n : Nat) (p : BitVec 8) : (s.shelfRead n p).2 = Nat.repeat readNext n p := by
  induction n generalizing p with
  | zero => rfl
  | succ n ih => exact (ih (readNext p)).trans (repeat_first readNext n p)

theorem shelfRead_length (s : State) (n : Nat) (p : BitVec 8) : (s.shelfRead n p).1.length = n := by
  induction n generalizing p with
  | zero => rfl
  | succ n ih => exact congrArg (· + 1) (ih (readNext p))

/-- Byte i of a read is the byte at the pointer after i steps. -/
theorem shelfRead_byte (s : State) {n i : Nat} (hi : i < n) (p : BitVec 8) :
    (s.shelfRead n p).1[i]? = some (s.shelfByte (Nat.repeat readNext i p)) := by
  induction n generalizing i p with
  | zero => exact absurd hi (Nat.not_lt_zero i)
  | succ n ih =>
    cases i with
    | zero => rfl
    | succ i =>
      rw [← repeat_first]
      exact ih (Nat.lt_of_succ_lt_succ hi) (readNext p)

theorem execSspRead_ready {s : State} (n : Nat) (hr : s.shelfReady = true) (hp : s.shelf.ptr.toNat ≤ 0x42) :
    exec (.sspRead n) s = .next (s.onShelf fun x => { x with
      out := (s.shelfRead n s.shelf.ptr).1, ptr := (s.shelfRead n s.shelf.ptr).2, ack := true }) := by
  simp [exec, execSspRead, hr, ptrOk, hp]

/-! ### Votes -/

/-- The votes of the host and of the shelf stand through a wake, and SELF votes are only added (R395). -/
def VotesKept (s t : State) : Prop :=
  t.power.host = s.power.host ∧ t.power.hostEff = s.power.hostEff ∧ t.power.shelf = s.power.shelf ∧ t.power.shelfEff = s.power.shelfEff ∧
    ∀ d, s.power.self.getLsbD d = true → t.power.self.getLsbD d = true

theorem VotesKept.refl (s : State) : VotesKept s s := ⟨rfl, rfl, rfl, rfl, fun _ h => h⟩

theorem VotesKept.trans {s t u : State} (h : VotesKept s t) (k : VotesKept t u) : VotesKept s u := by
  obtain ⟨h1, h2, h3, h4, h5⟩ := h
  obtain ⟨k1, k2, k3, k4, k5⟩ := k
  exact ⟨k1.trans h1, k2.trans h2, k3.trans h3, k4.trans h4, fun d x => k5 d (h5 d x)⟩

theorem votesKept_foldl {α : Type} {f : State → α → State} (hf : ∀ u a, VotesKept u (f u a)) (l : List α) (s : State) :
    VotesKept s (l.foldl f s) := by
  induction l generalizing s with
  | nil => exact VotesKept.refl s
  | cons a l ih => exact (hf s a).trans (ih (f s a))

theorem votesKept_riseOne (s : State) (d : Nat) : VotesKept s (s.riseOne d) := by
  unfold State.riseOne
  split
  · exact VotesKept.refl s
  · exact VotesKept.refl s

theorem getLsbD_foldl_or {n : Nat} {α : Type} (f : α → BitVec n) (l : List α) (v : BitVec n) {i : Nat} (h : v.getLsbD i = true) :
    (l.foldl (fun v q => v ||| f q) v).getLsbD i = true := by
  induction l generalizing v with
  | nil => exact h
  | cons a l ih => exact ih _ (by simp [h])

theorem votesKept_wake (s : State) (d src : Nat) : VotesKept s (s.wake d src) := by
  unfold State.wake
  dsimp only
  split
  · exact VotesKept.refl s
  · have hrise : VotesKept s ((parents d).foldl State.riseOne (s.riseOne d)) :=
      (votesKept_riseOne s d).trans (votesKept_foldl votesKept_riseOne (parents d) (s.riseOne d))
    have hself : VotesKept s (((parents d).foldl State.riseOne (s.riseOne d)).onPower fun p =>
        { p with self := (parents d).foldl (fun v q => v ||| BitVec.ofNat 22 (2 ^ q)) p.self }) :=
      hrise.trans ⟨rfl, rfl, rfl, rfl, fun _ h => getLsbD_foldl_or _ _ _ h⟩
    split
    · exact hself
    · exact hself.trans (VotesKept.refl _)

/-- A SELF vote is placed, and what it wakes withdraws none. -/
theorem selfVote_self (s : State) {d : Nat} (hd : d < 22) (src : Nat) : (s.selfVote d src).power.self.getLsbD d = true := by
  obtain ⟨-, -, -, -, hself⟩ := votesKept_wake (s.onPower fun p => { p with self := p.self ||| BitVec.ofNat 22 (2 ^ d) }) d src
  refine hself d ?_
  rw [onPower_power, BitVec.getLsbD_or, BitVec.getLsbD_ofNat, Nat.testBit_two_pow_self]
  simp [hd]

theorem votesKept_writeShelf (s : State) (v : BitVec 22) : VotesKept (s.onPower fun p => { p with shelf := v ||| 1, shelfEff := p.shelfEff ||| (v ||| 1) })
    (s.writeShelf v) := votesKept_foldl (fun u d => votesKept_wake u d 2) _ _

theorem reports_writeShelf (s : State) (v : BitVec 22) : Reports s (s.writeShelf v) :=
  reports_foldl (fun _ d => reports_wake d 2) (reports_onPower _ (Reports.refl s))

/-! ### The rows -/

theorem same_onShelf (s : State) (f : Shelf → Shelf) : SameOutside [.shelf] s (s.onShelf f) :=
  (foot_onShelf (Foot.refl [.shelf] s) (by decide)).1

/-- SHELF_VOTE is written with its three bytes (R70). -/
theorem execSspWrite_vote {s : State} (b0 b1 b2 : Byte) (hr : s.shelfReady = true) :
    exec (.sspWrite [0x40, b0, b1, b2]) s =
      .next ((s.onShelf fun x => { x with ptr := 0x43, ack := true }).writeShelf (BitVec.ofNat 22 (ofLe [b0, b1, b2]))) := by
  simp only [exec, execSspWrite, hr]
  rfl

/-- A pointer alone is acknowledged. -/
theorem execSspWrite_pointer {s : State} {p : Byte} (hr : s.shelfReady = true) (hp : p.toNat ≤ 0x42) :
    exec (.sspWrite [p]) s = .next (s.onShelf fun x => { x with ptr := p, ack := true }) := by
  simp [exec, execSspWrite, hr, ptrOk, hp, shelfData]

/-- Three bytes, least significant first, are the word of which the last byte is the top (R37). -/
theorem ofLe_three (b0 b1 b2 : Byte) : BitVec.ofNat 22 (ofLe [b0, b1, b2]) = (b2 ++ b1 ++ b0).setWidth 22 := by
  refine BitVec.eq_of_toNat_eq ?_
  rw [BitVec.toNat_ofNat, BitVec.toNat_setWidth, BitVec.toNat_append, BitVec.toNat_append, ← Nat.shiftLeft_add_eq_or_of_lt b1.isLt,
    ← Nat.shiftLeft_add_eq_or_of_lt b0.isLt]
  simp only [ofLe, Nat.shiftLeft_eq]
  congr 1
  omega

/-- The port after the Bell while MGMT is not ON: SCL is held low, or, with MGMT OFF, the address is not acknowledged. -/
def State.bellStretched (s : State) : State := s.onShelf fun x => { x with
  ack := !(s.mgmtOff || s.shelf.stale), stretch := x.stretch || !(s.mgmtOff || s.shelf.stale), stale := s.mgmtOff || s.shelf.stale }

/-- Settles O30: reads by shelfRead_ptr and shelfRead_byte; what a write of SHELF_VOTE and the Bell wake leaves the votes by votesKept_wake. -/
theorem shelfPort : Obligations.ShelfPort := by
  intro s
  refine ⟨fun n hr hp => ?_, fun b0 b1 b2 hr => ?_, fun p hr hp => ?_, fun a hr => ⟨fun ha hm => ?_, fun ha hm => ?_, fun ha => ?_⟩⟩
  · refine ⟨_, execSspRead_ready n hr hp, same_onShelf s _, ?_, shelfRead_length s n _, fun i hi => shelfRead_byte s hi _⟩
    rw [onShelf_shelf, shelfRead_ptr]
  · obtain ⟨khost, -, kshelf, keff, -⟩ := votesKept_writeShelf (s.onShelf fun x => { x with ptr := 0x43, ack := true }) (BitVec.ofNat 22 (ofLe [b0, b1, b2]))
    have hf := foot_writeShelf (v := BitVec.ofNat 22 (ofLe [b0, b1, b2]))
      (foot_onShelf (f := fun x => { x with ptr := 0x43, ack := true }) (Foot.refl [.hbi, .trace, .draw, .power, .shelf] s) (by decide)) (by decide)
    refine ⟨_, execSspWrite_vote b0 b1 b2 hr, hf.1, reports_writeShelf _ _, ?_, ?_, ?_, khost⟩
    · exact (foot_writeShelf (Foot.refl [.hbi, .power, .trace] (s.onShelf fun x => { x with ptr := 0x43, ack := true })) (by decide)).1
        .shelf (by decide)
    · rw [kshelf, ofLe_three]
      rfl
    · rw [keff, kshelf]
      rfl
  · exact ⟨_, execSspWrite_pointer hr hp, same_onShelf s _, rfl⟩
  · have hb : exec (.bell a) s = .next (s.onShelf fun x => { x with ack := !x.stale }) := by
      simp [exec, execBell, State.bellMatch, ha, hr, hm]
    exact ⟨_, hb, same_onShelf s _, rfl⟩
  · have hb : exec (.bell a) s = .next (s.bellStretched.selfVote dMgmt 3) := by
      simp [exec, execBell, State.bellMatch, State.bellStretched, ha, hr, hm]
    have hf := foot_selfVote (d := dMgmt) (src := 3) (s := s.bellStretched)
      (foot_onShelf (Foot.refl [.hbi, .trace, .draw, .power, .shelf] s) (by decide)) (by decide)
    have hshelf : (s.bellStretched.selfVote dMgmt 3).shelf = s.bellStretched.shelf :=
      (foot_selfVote (Foot.refl [.hbi, .power, .trace] s.bellStretched) (by decide)).1 .shelf (by decide)
    exact ⟨_, hb, hf.1, reports_selfVote _ _ (reports_onShelf _ (Reports.refl s)), selfVote_self _ (by decide) 3, hshelf⟩
  · have hb : exec (.bell a) s = .next s := by simp [exec, execBell, ha]
    exact ⟨s, hb, (Foot.refl [] s).1, trivial⟩

end Sys2Proof.Machine
end

section
/-! SUPPORT. Configuration commands whose checks change other parts beside the command path (R55, R57, R350, R395): acceptance once for
all of them, the repack that a command leaves due, the SELF votes of an armed resume. -/

namespace Sys2Proof.Machine

/-! ### Acceptance -/

/-- The context in which a command of the device's own host is checked. -/
abbrev ownCtx (src : CmdSrc) (c : CmdWords) : Ctx := { src := srcOf src, cmd := c, param := none }

theorem State.Offers.front {s : State} {src : CmdSrc} {c : CmdWords} (h : s.Offers src c) : s.front src = some c := by
  obtain ⟨hf, -⟩ := h
  exact hf

theorem State.Offers.pantryOn {s : State} {src : CmdSrc} {c : CmdWords} (h : s.Offers src c) : s.domOn dPantry = true := by
  obtain ⟨-, -, -, -, hp, -⟩ := h
  exact hp

theorem State.Offers.wingsNext_le_lowMember {s : State} {src : CmdSrc} {c : CmdWords} (h : s.Offers src c) : s.wingsNext ≤ s.lowMember := by
  obtain ⟨-, -, -, -, -, -, -, hw, -⟩ := h
  exact hw

theorem State.Offers.cleanEntry {s : State} {src : CmdSrc} {c : CmdWords} (h : s.Offers src c) : s.cleanEntry src := by
  obtain ⟨-, -, -, -, -, -, -, -, hcl⟩ := h
  exact hcl

/-- The checks read a state in which the command path alone is another, where no word of a ring entry is in error. -/
theorem checking_outside_clean {s : State} {src : CmdSrc} (c : CmdWords) (h : s.cleanEntry src) : SameOutside [.cmd] s (s.checking src c) := by
  have hrejects : (s.checking src c).cmd.rejects = s.cmd.rejects := by
    cases src <;> simp [State.checking, State.takeEntry]
  rw [checking_same c h]
  exact (foot_onCmd (Foot.refl [.cmd] s) (by decide) fun hok => by rwa [CmdPath.Ok, hrejects]).1

/-- Interrupts other than WAKE stand as before. -/
def OnlyWakeIrq (s t : State) : Prop := ∀ i, i ≠ irqWake → t.hbi.irqStat.getLsbD i = s.hbi.irqStat.getLsbD i

theorem OnlyWakeIrq.of_hbi {s t : State} (h : t.hbi = s.hbi) : OnlyWakeIrq s t := fun i _ => by rw [h]

theorem OnlyWakeIrq.trans {s t u : State} (h : OnlyWakeIrq s t) (k : OnlyWakeIrq t u) : OnlyWakeIrq s u :=
  fun i hi => (k i hi).trans (h i hi)

theorem OnlyWakeIrq.bit_eq {s t : State} (h : OnlyWakeIrq s t) {b : Nat} (hb : b = 0 ∨ b = 1) :
    bit (t.hbi.irqStat.setWidth 32) b = bit (s.hbi.irqStat.setWidth 32) b := by
  rcases hb with rfl | rfl
  · simpa [bit] using h 0 (by decide)
  · simpa [bit] using h 1 (by decide)

/-- The tiles are as before, but that a repack may be due. -/
def TilesButRepack (s t : State) : Prop := t.tiles = { s.tiles with repackDue := t.tiles.repackDue }

theorem TilesButRepack.of_tiles {s t : State} (h : t.tiles = s.tiles) : TilesButRepack s t := by
  rw [TilesButRepack, h]

theorem TilesButRepack.wingsNext_eq {s t : State} (h : TilesButRepack s t) : t.wingsNext = s.wingsNext := by
  rw [State.wingsNext, h]
  rfl

theorem TilesButRepack.lowMember_eq {s t : State} (h : TilesButRepack s t) : t.lowMember = s.lowMember := by
  have htile : ∀ k, t.tile k = s.tile k := fun k => by
    rw [State.tile, h]
    rfl
  simp only [State.lowMember, State.healthyTiles, h.wingsNext_eq, htile]

/-- Acceptance and completion do not depend on how the command left its source, whatever its checks make of the staged changes. -/
theorem accepts_answered_staged {s : State} {src : CmdSrc} {c : CmdWords} (hf : s.front src = some c) (f : List Staged → List Staged)
    (ord : Nat) (cs : List Change) (st : Nat) (r0 r1 : Word) :
    (CmdPath.accepts src c ord cs { (s.checking src c).cmd with staged := f (s.checking src c).cmd.staged }).answered src c st r0 r1 =
      (CmdPath.accepts src c ord cs { s.cmd with staged := f s.cmd.staged }).answered src c st r0 r1 := by
  have hput : ∀ m : CmdPath, (CmdPath.accepts src c ord cs { m with staged := f m.staged }).answered src c st r0 r1 =
      { (CmdPath.accepts src c ord cs m).answered src c st r0 r1 with staged := f m.staged ++ stage src c ord cs } := by
    intro m
    cases src <;> rfl
  have hstaged : (s.checking src c).cmd.staged = s.cmd.staged := by
    cases src <;> simp [State.checking, State.takeEntry]
  rw [hput, hput, accepts_answered hf, hstaged]

/-- A configuration command whose checks accept it, and change only Legs and groups, votes, the repack that is due and the staged
changes: it completes OK, and the checks' changes stand. -/
theorem accepts_changing {row : Instr} {s u : State} {src : CmdSrc} {c : CmdWords} {isOp : Nat → Bool} {h : Handler} {ord : Nat}
    {cs : List Change} {r1 : Word} {ps : List Part} {P : State → Prop} (f : List Staged → List Staged)
    (hex : exec row s = .next (s.runRow isOp h src)) (ho : s.Offers src c) (hop : isOp c.op = true) (hcfg : isConfig c.op = true)
    (hv : c.op ≠ 0x70) (hck : h (ownCtx src c) (s.checking src c) = .config u ord cs r1) (hps : ps ⊆ [.mix, .tiles, .power])
    (hs : SameOutside (.hbi :: .trace :: .cmd :: ps) (s.checking src c) u)
    (hcmd : u.cmd = { (s.checking src c).cmd with staged := f (s.checking src c).cmd.staged })
    (hrep : Reports (s.checking src c) u) (hirq : OnlyWakeIrq (s.checking src c) u) (htil : TilesButRepack (s.checking src c) u)
    (hP : ∀ t, SameOutside [.hbi, .trace, .draw, .cmd, .mem] u t → P t) :
    Answers row s src c stOk (s.pidxAt ord) r1 (fun m => CmdPath.accepts src c ord cs { m with staged := f m.staged }) s.mem ps P := by
  have hbefore := checking_outside_clean c ho.cleanEntry
  have hall : SameOutside (.hbi :: .trace :: .cmd :: ps) s u := same_trans hbefore hs (by simp) (List.Subset.refl _)
  have hparts : (.hbi :: .trace :: .cmd :: ps) ⊆ [Part.hbi, .trace, .cmd, .mix, .tiles, .power] :=
    List.cons_subset_cons _ (List.cons_subset_cons _ (List.cons_subset_cons _ hps))
  have hother : ∀ p, p ∉ [Part.hbi, .trace, .cmd, .mix, .tiles, .power] → p.same s u := fun p hp => hall p fun hin => hp (hparts hin)
  have hmem : u.mem = s.mem := hother .mem (by decide)
  have htime : u.time = s.time := hother .time (by decide)
  have hhbi : (s.checking src c).hbi = s.hbi := hbefore .hbi (by decide)
  have htrace : (s.checking src c).trace = s.trace := hbefore .trace (by decide)
  have hbase : TilesButRepack s (s.checking src c) := .of_tiles (hbefore .tiles (by decide))
  refine accepts_row hex ho hop (by simp [isDefined, hcfg]) (fun e => absurd e hv) hck ?_ hmem ?_ ?_ ?_ ?_ hcmd ?_ ?_ hP
  · exact same_trans hall (Foot.refl [] u).1 (List.cons_subset_cons _ (List.cons_subset_cons _ (List.subset_cons_of_subset _
      (List.cons_subset_cons _ (List.subset_cons_of_subset _ (List.Subset.refl ps)))))) (List.nil_subset _)
  · exact (reports_of_eq (Reports.refl s) hhbi htrace).trans hrep
  · exact fun b hb => ((OnlyWakeIrq.of_hbi hhbi).trans hirq).bit_eq hb
  · exact ⟨congrArg Time.pidx htime, congrArg Time.ord htime⟩
  · rw [htil.wingsNext_eq, htil.lowMember_eq, hbase.wingsNext_eq, hbase.lowMember_eq]
    exact ho.wingsNext_le_lowMember
  · exact fun m => ⟨rfl, rfl, rfl, rfl⟩
  · exact accepts_answered_staged ho.front f ord cs stOk (s.pidxAt ord) r1

/-! ### Waits that do not come -/

theorem needPantry_on {h : Handler} {x : Ctx} {s : State} (hp : s.domOn dPantry = true) : needPantry h x s = h x s := if_pos hp

/-- Where no Wing is left to wait for, a command whose unit has no room leaves a repack due (R350, R357). -/
theorem needWing_fits {h : Handler} {x : Ctx} {s : State} {ord : Nat} {cs : List Change} {r1 : Word} (hck : h x s = .config s ord cs r1)
    (hfits : s.homeless ((s.project ord).applyAll (cs.map fun k => { ord := ord, change := k, src := x.src, cmd := x.cmd })) = true →
      ∀ w, w < 8 → s.wingOn w = true) :
    needWing h x s = .config (s.onTiles fun q => { q with
      repackDue := q.repackDue ||
        s.homeless ((s.project ord).applyAll (cs.map fun k => { ord := ord, change := k, src := x.src, cmd := x.cmd })) }) ord cs r1 := by
  generalize hroom : s.homeless ((s.project ord).applyAll (cs.map fun k => { ord := ord, change := k, src := x.src, cmd := x.cmd })) = b at *
  cases b with
  | false =>
    simp only [needWing, hck, hroom, Bool.or_false]
    rfl
  | true =>
    have hnone : (upto 8).find? (fun w => !s.wingOn w) = none := by
      simpa [upto] using hfits rfl
    simp only [needWing, hck, hroom, hnone, Bool.or_true, if_true]

/-- A command that may leave a repack due is accepted, and apart from that only the command path changes. -/
theorem accepts_needWing {row : Instr} {s : State} {src : CmdSrc} {c : CmdWords} {isOp : Nat → Bool} {h : Handler} {ch : Change}
    {r1 : Word} (hex : exec row s = .next (s.runRow isOp (needPantry (needWing h)) src)) (ho : s.Offers src c) (hop : isOp c.op = true)
    (hcfg : isConfig c.op = true) (hv : c.op ≠ 0x70) :
    let u := s.checking src c
    let noRoom := u.homeless ((u.project u.effectOrd).applyAll (stage src c u.effectOrd [ch]))
    h (ownCtx src c) u = .config u u.effectOrd [ch] r1 → (noRoom = true → ∀ w, w < 8 → u.wingOn w = true) →
      AcceptsWith r1 row s src c s.effectOrd [ch] [.tiles] fun z =>
        z.tiles = { s.tiles with repackDue := s.tiles.repackDue || noRoom } := by
  intro u noRoom hck hfits
  have hord : u.effectOrd = s.effectOrd := checking_effectOrd
  have hnext := (needPantry_on (h := needWing h) (x := ownCtx src c) (s := u) (by simpa [u] using ho.pantryOn)).trans (needWing_fits hck hfits)
  rw [← hord]
  refine accepts_changing id hex ho hop hcfg hv hnext (by decide) ?_ rfl (reports_onTiles _ (Reports.refl _)) (.of_hbi rfl) rfl ?_
  · exact (foot_onTiles (Foot.refl [.hbi, .trace, .cmd, .tiles] _) (by decide) fun k => k).1
  · intro t ht
    have htiles := ht .tiles (by decide)
    exact htiles.trans (by rw [onTiles_tiles, show u.tiles = s.tiles from checking_tiles s src c]; rfl)

/-! ### The votes of an armed resume -/

theorem onlyWakeIrq_wake (s : State) (d src : Nat) : OnlyWakeIrq s (s.wake d src) := by
  have hrise : ((parents d).foldl State.riseOne (s.riseOne d)).hbi = s.hbi :=
    (foot_foldl (fun u q hu => foot_riseOne hu (List.Subset.refl _)) (foot_riseOne (Foot.refl [.power, .trace] s) (List.Subset.refl _))).1
      .hbi (by decide)
  unfold State.wake
  dsimp only
  split
  · exact .of_hbi rfl
  · split
    · exact .of_hbi hrise
    · intro i hi
      have hbit : (BitVec.ofNat 16 (2 ^ irqWake)).getLsbD i = false := by
        rw [BitVec.getLsbD_ofNat, Nat.testBit_two_pow_of_ne (Ne.symm hi), Bool.and_false]
      rw [raise_irqStat, BitVec.getLsbD_or, hbit, Bool.or_false]
      exact congrArg (fun b : Hbi => b.irqStat.getLsbD i) hrise

theorem onlyWakeIrq_selfVote (s : State) (d src : Nat) : OnlyWakeIrq s (s.selfVote d src) := onlyWakeIrq_wake (s.onPower _) d src

theorem onlyWakeIrq_foldl {α : Type} {f : State → α → State} (hf : ∀ u a, OnlyWakeIrq u (f u a)) (l : List α) (s : State) :
    OnlyWakeIrq s (l.foldl f s) := by
  induction l generalizing s with
  | nil => exact .of_hbi rfl
  | cons a l ih => exact (hf s a).trans (ih (f s a))

theorem onlyWakeIrq_armVotes (s : State) (legs : List Nat) : OnlyWakeIrq s (s.armVotes legs) :=
  ((onlyWakeIrq_selfVote s dHub 9).trans (onlyWakeIrq_selfVote _ dPantry 9)).trans
    (onlyWakeIrq_foldl (fun u t => onlyWakeIrq_selfVote u (dWing (t / 9)) 9) _ _)

theorem reports_armVotes {s t : State} (legs : List Nat) (h : Reports s t) : Reports s (t.armVotes legs) :=
  reports_foldl (fun _ k => reports_selfVote (dWing (k / 9)) 9) (reports_selfVote dPantry 9 (reports_selfVote dHub 9 h))

theorem armVotes_same (s : State) (legs : List Nat) : SameOutside [.hbi, .power, .trace] s (s.armVotes legs) :=
  (foot_armVotes (Foot.refl [.hbi, .power, .trace] s) (List.Subset.refl _)).1

end Sys2Proof.Machine
end

section
/-! SUPPORT. Commands on Legs and Talk Groups (R106, R108, R110, R115 to R117): what their own checks answer where they accept, and from
that the statements LegSetAccepted, LegPauseAndKeySetAccepted and GrpSetAccepted. -/

namespace Sys2Proof.Machine

/-! ### LEG_SET -/

theorem legSetChecked_unbind {x : Ctx} {s t : State} (h0 : x.cmd.a0 &&& 0xFFFFC000#32 = 0) (hop : fld x.cmd.a0 12 2 = 1) (h4 : x.cmd.a4 = 0)
    (h5 : x.cmd.a5 = 0) (hnet : isNetLeg (fld x.cmd.a0 0 12) = true) (hcar : legCarried s.wingsNext (fld x.cmd.a0 0 12) = true)
    (hbound : (t.legCfg (fld x.cmd.a0 0 12)).bound = true) (harm : (t.legSt (fld x.cmd.a0 0 12)).armed = none) :
    legSetChecked x s t = .config s s.effectOrd [.legUnbind (fld x.cmd.a0 0 12)] 0 := by
  simp [legSetChecked, h0, hop, h4, h5, hnet, hcar, hbound, harm]

theorem legSetChecked_set {x : Ctx} {s t : State} (h0 : x.cmd.a0 &&& 0xFFFFC000#32 = 0) (hop : fld x.cmd.a0 12 2 = 0)
    (hargs : legSetArgsOk x.cmd = true) (hcar : legCarried s.wingsNext (fld x.cmd.a0 0 12) = true)
    (href : refOther x.cmd.a3 = true → legCarried s.wingsNext (refLeg x.cmd.a3) = true)
    (htail : echoMode x.cmd.a3 = 2 → echoMode (t.legCfg (fld x.cmd.a0 0 12)).a3 ≠ 2 →
      (t.longTails s.wingsNext).length < memberTails s.wingsNext)
    (hnet : isNetLeg (fld x.cmd.a0 0 12) = true → legSetStateOk t (fld x.cmd.a0 0 12) x.cmd.a1 = true) :
    legSetChecked x s t = .config s s.effectOrd [.legSet (fld x.cmd.a0 0 12) x.cmd.a1 x.cmd.a2 x.cmd.a3] 0 := by
  have href' : (refOther x.cmd.a3 && !legCarried s.wingsNext (refLeg x.cmd.a3)) = false := by
    cases hr : refOther x.cmd.a3 <;> simp [href, hr]
  have hnet' : (isNetLeg (fld x.cmd.a0 0 12) && !legSetStateOk t (fld x.cmd.a0 0 12) x.cmd.a1) = false := by
    cases hn : isNetLeg (fld x.cmd.a0 0 12) <;> simp [hnet, hn]
  simpa [legSetChecked, h0, hop, hargs, hcar, href', hnet'] using htail

/-- Settles O17: each action's checks accept by the lemma of its case, and needWing leaves the repack due by accepts_needWing. -/
theorem legSetAccepted : Obligations.LegSetAccepted := by
  intro s src c ho hop h0 u t l fits takes hcar
  have haccept {ch : Change} (hck : legSetChecked (ownCtx src c) u t = .config u u.effectOrd [ch] 0) (hfits : fits ch) : takes ch :=
    accepts_needWing (h := fun x s => legSetChecked x s (s.project s.effectOrd)) rfl ho (by simp [hop]) (by rw [hop]; rfl) (by simp [hop])
      hck hfits
  have hcar' : legCarried u.wingsNext l = true := by simpa [u] using hcar
  refine ⟨fun hact h4 h5 hnet hbound harm => haccept ?_, fun hact hargs href htail hnet => haccept ?_⟩
  · exact legSetChecked_unbind (x := ownCtx src c) h0 hact h4 h5 hnet hcar' hbound harm
  · exact legSetChecked_set (x := ownCtx src c) h0 hact hargs hcar' (by simpa [u] using href) (by simpa [u] using htail) hnet

/-! ### LEG_PAUSE -/

section
variable {x : Ctx} {s : State} {tAt : Nat → State}

theorem legPauseChecked_pause {ord : Nat} (h0 : x.cmd.a0 &&& 0xFFFFC000#32 = 0) (hz : zeroFrom x.cmd 2)
    (hcar : legCarried s.wingsNext (fld x.cmd.a0 0 12) = true) (hact : fld x.cmd.a0 12 2 = 0) (hord : s.namedOrd x.cmd.a1 = some ord)
    (harm : (s.legSt (fld x.cmd.a0 0 12)).armed = none)
    (hst : ((tAt ord).legSt (fld x.cmd.a0 0 12)).state = .bound ∨ ((tAt ord).legSt (fld x.cmd.a0 0 12)).state = .active) :
    legPauseChecked x s tAt = .config
      (s.onLegSt (fld x.cmd.a0 0 12) fun y => { y with armed := some { pause := true, ord := ord } }) ord
      [.legAct (fld x.cmd.a0 0 12) true] (s.unstated 1) := by
  obtain ⟨-, -, h2, h3, h4, h5⟩ := hz
  simpa [legPauseChecked, h0, h2, h3, h4, h5, hcar, hact, hord, harm, Classical.or_iff_not_imp_left] using hst

theorem legPauseChecked_resume {ord : Nat} (h0 : x.cmd.a0 &&& 0xFFFFC000#32 = 0) (hz : zeroFrom x.cmd 2)
    (hcar : legCarried s.wingsNext (fld x.cmd.a0 0 12) = true) (hact : fld x.cmd.a0 12 2 = 1) (hord : s.namedOrd x.cmd.a1 = some ord)
    (harm : (s.legSt (fld x.cmd.a0 0 12)).armed = none) (hst : ((tAt ord).legSt (fld x.cmd.a0 0 12)).state = .paused) :
    legPauseChecked x s tAt = .config
      ((s.onLegSt (fld x.cmd.a0 0 12) fun y => { y with armed := some { pause := false, ord := ord } }).armVotes [fld x.cmd.a0 0 12]) ord
      [.legAct (fld x.cmd.a0 0 12) false] (s.unstated 1) := by
  obtain ⟨-, -, h2, h3, h4, h5⟩ := hz
  simp [legPauseChecked, h0, h2, h3, h4, h5, hcar, hact, hord, harm, hst]

theorem legPauseChecked_withdraw {a : Armed} (h0 : x.cmd.a0 &&& 0xFFFFC000#32 = 0) (hz : zeroFrom x.cmd 2)
    (hcar : legCarried s.wingsNext (fld x.cmd.a0 0 12) = true) (hact : fld x.cmd.a0 12 2 = 2)
    (harm : (s.legSt (fld x.cmd.a0 0 12)).armed = some a) (hord : s.effectOrd ≤ a.ord) :
    legPauseChecked x s tAt = .config
      ((s.onLegSt (fld x.cmd.a0 0 12) fun y => { y with armed := none }).onCmd fun m => { m with
        staged := dropLegAct (fld x.cmd.a0 0 12) m.staged }) s.effectOrd [] (s.unstated 1) := by
  obtain ⟨-, -, h2, h3, h4, h5⟩ := hz
  simp [legPauseChecked, h0, h2, h3, h4, h5, hcar, hact, harm, Nat.not_lt.2 hord]

end

@[simp] theorem checking_legSt (s : State) (src : CmdSrc) (c : CmdWords) (l : Nat) : (s.checking src c).legSt l = s.legSt l := by
  have hmix : (s.checking src c).mix = s.mix := checking_outside s src c .mix (by decide)
  rw [State.legSt, hmix]
  rfl

/-- A change of one Leg's state that later steps keep. -/
theorem legSt_after {s t : State} {src : CmdSrc} {c : CmdWords} {l : Nat} {f : LegSt → LegSt}
    (h : t.mix = ((s.checking src c).onLegSt l f).mix) : t.legSt l = f (s.legSt l) ∧ ∀ j, j ≠ l → t.legSt j = s.legSt j := by
  have hst : ∀ j, t.legSt j = ((s.checking src c).onLegSt l f).legSt j := fun j => by
    rw [State.legSt, h]
    rfl
  refine ⟨?_, fun j hj => ?_⟩
  · rw [hst, onLegSt_self, checking_legSt]
  · rw [hst, onLegSt_ne _ _ hj, checking_legSt]

/-! ### KEY_SET -/

/-- A key of a Leg by its kind and slot. -/
def LegCfg.keyOf (k : LegCfg) (talk : Bool) (i : Nat) : Word := if talk then k.talkKey i else k.listenKey i

/-- Slots of a kind of key (R110). -/
def keySlots (talk : Bool) : Nat := if talk then 4 else 16

/-- The keys of the same kind in the other slots of a Leg. -/
def LegCfg.otherKeys (k : LegCfg) (talk : Bool) (slot : Nat) : List Word :=
  if talk then (upto 4).filterMap fun i => if i = slot then none else some (k.talkKey i)
  else (upto 16).filterMap fun i => if i = slot then none else some (k.listenKey i)

theorem mem_otherKeys {k : LegCfg} {talk : Bool} {slot : Nat} {o : Word} (h : o ∈ k.otherKeys talk slot) :
    ∃ i, i < keySlots talk ∧ i ≠ slot ∧ o = k.keyOf talk i := by
  have hmem : o ∈ (upto (keySlots talk)).filterMap fun i => if i = slot then none else some (k.keyOf talk i) := by
    cases talk <;> exact h
  obtain ⟨i, hi, he⟩ := List.mem_filterMap.1 hmem
  split at he
  · cases he
  · exact ⟨i, List.mem_range.1 hi, ‹_›, (Option.some.inj he).symm⟩

theorem keySetChecked_config {x : Ctx} {s t : State} (h0 : x.cmd.a0 &&& 0xFFFE0000#32 = 0) (h1 : x.cmd.a1 &&& 0xFE00FC00#32 = 0)
    (hz : zeroFrom x.cmd 2) (hgain : gainOk (keyGain x.cmd.a1) = true) (hslot : bit x.cmd.a0 12 = true → fld x.cmd.a0 13 4 < 4)
    (hcar : legCarried s.wingsNext (fld x.cmd.a0 0 12) = true) (hgrp : keyGroup x.cmd.a1 < memberGroups s.wingsNext)
    (hbound : (t.legCfg (fld x.cmd.a0 0 12)).bound = true)
    (hkey : keyEn x.cmd.a1 = true → (t.grp (keyGroup x.cmd.a1)).state ≠ .unused ∧
      ∀ i, i < keySlots (bit x.cmd.a0 12) → i ≠ fld x.cmd.a0 13 4 →
        keyEn ((t.legCfg (fld x.cmd.a0 0 12)).keyOf (bit x.cmd.a0 12) i) = true →
        keyGroup ((t.legCfg (fld x.cmd.a0 0 12)).keyOf (bit x.cmd.a0 12) i) ≠ keyGroup x.cmd.a1) :
    keySetChecked x s t =
      .config s s.effectOrd [.keySet (fld x.cmd.a0 0 12) (bit x.cmd.a0 12) (fld x.cmd.a0 13 4) x.cmd.a1] (s.unstated 1) := by
  obtain ⟨-, -, h2, h3, h4, h5⟩ := hz
  have hslot' : (bit x.cmd.a0 12 && decide (4 ≤ fld x.cmd.a0 13 4)) = false := by
    simpa using hslot
  have hfree : keyEn x.cmd.a1 = true → (t.grp (keyGroup x.cmd.a1)).state ≠ .unused ∧
      ∀ o ∈ (t.legCfg (fld x.cmd.a0 0 12)).otherKeys (bit x.cmd.a0 12) (fld x.cmd.a0 13 4),
        keyEn o = true → keyGroup o ≠ keyGroup x.cmd.a1 := by
    intro hen
    obtain ⟨hused, hnone⟩ := hkey hen
    refine ⟨hused, fun o ho => ?_⟩
    obtain ⟨i, hi, hne, rfl⟩ := mem_otherKeys ho
    exact hnone i hi hne
  simpa [keySetChecked, LegCfg.otherKeys, h0, h1, h2, h3, h4, h5, hslot', hgain, hcar, Nat.not_le.2 hgrp, hbound] using hfree

/-- Settles O18: LEG_PAUSE arms, and withdraws what is staged, by accepts_changing; KEY_SET changes the command path alone. -/
theorem legPauseAndKeySetAccepted : Obligations.LegPauseAndKeySetAccepted := by
  constructor
  · intro s src c ho hop h0 hz u l hcar
    have hrow : onLegPause (ownCtx src c) u = legPauseChecked (ownCtx src c) u u.project := needPantry_on (by simpa [u] using ho.pantryOn)
    have hcar' : legCarried u.wingsNext l = true := by simpa [u] using hcar
    have hfree : u.unstated 1 = s.unstated 1 := checking_unstated ho.cleanEntry 1
    have hcfg : isConfig c.op = true := by
      rw [hop]
      rfl
    refine ⟨fun ord hact hord harm hst => ?_, fun ord hact hord harm hst => ?_, fun a hact harm hord => ?_⟩
    · have hck := hrow.trans (legPauseChecked_pause (x := ownCtx src c) h0 hz hcar' hact (by simpa [u] using hord) (by simpa [u] using harm) hst)
      rw [hfree] at hck
      refine accepts_changing id rfl ho (by simp [hop]) hcfg (by simp [hop]) hck (by decide) ?_ rfl (reports_onMix _ (Reports.refl u))
        (.of_hbi rfl) (.of_tiles rfl) fun t ht => legSt_after (ht .mix (by decide))
      exact (foot_onLegSt (Foot.refl [.hbi, .trace, .cmd, .mix] u) (by decide)).1
    · have hck := hrow.trans (legPauseChecked_resume (x := ownCtx src c) h0 hz hcar' hact (by simpa [u] using hord) (by simpa [u] using harm) hst)
      rw [hfree] at hck
      have hvotes := armVotes_same (u.onLegSt l fun y => { y with armed := some { pause := false, ord := ord } }) [l]
      refine accepts_changing id rfl ho (by simp [hop]) hcfg (by simp [hop]) hck (by decide) ?_ (hvotes .cmd (by decide))
        (reports_armVotes _ (reports_onMix _ (Reports.refl u))) (onlyWakeIrq_armVotes _ _) (.of_tiles (hvotes .tiles (by decide)))
        fun t ht => legSt_after ((ht .mix (by decide)).trans (hvotes .mix (by decide)))
      exact (foot_armVotes (foot_onLegSt (Foot.refl [.hbi, .trace, .cmd, .mix, .power] u) (by decide)) (by decide)).1
    · have hck := hrow.trans (legPauseChecked_withdraw (x := ownCtx src c) h0 hz hcar' hact (by simpa [u] using harm) (by simpa [u] using hord))
      rw [hfree, show u.effectOrd = s.effectOrd from checking_effectOrd] at hck
      have hdone := accepts_changing (row := .legPause src) (ps := [.mix])
        (P := fun t => t.legSt l = { s.legSt l with armed := none } ∧ ∀ j, j ≠ l → t.legSt j = s.legSt j)
        (dropLegAct l) rfl ho (by simp [hop]) hcfg (by simp [hop]) hck (by decide)
        (foot_onCmd (foot_onLegSt (Foot.refl [.hbi, .trace, .cmd, .mix] u) (by decide)) (by decide) fun k => k).1 rfl
        (reports_onCmd _ (reports_onMix _ (Reports.refl u))) (.of_hbi rfl) (.of_tiles rfl) fun t ht => legSt_after (ht .mix (by decide))
      simpa [CmdPath.accepts, stage] using hdone
  · intro s src c ho hop h0 h1 hz hgain u t l talk slot key hslot hcar hgrp hbound hkey
    have hrow : onKeySet (ownCtx src c) u = keySetChecked (ownCtx src c) u t := needPantry_on (by simpa [u] using ho.pantryOn)
    have hck := hrow.trans (keySetChecked_config h0 h1 hz hgain hslot (by simpa [u] using hcar) (by simpa [u] using hgrp) hbound hkey)
    rw [show u.unstated 1 = s.unstated 1 from checking_unstated ho.cleanEntry 1, show u.effectOrd = s.effectOrd from checking_effectOrd] at hck
    exact accepts_row_id rfl ho (by simp [hop]) (by rw [hop]; rfl) (by simp [hop]) hck

/-! ### GRP_SET -/

section
variable {x : Ctx} {s t : State}

theorem grpSetChecked_set (h0 : x.cmd.a0 &&& 0xFC00C000#32 = 0) (h4 : x.cmd.a4 = 0) (h5 : x.cmd.a5 = 0)
    (hg : fld x.cmd.a0 0 10 < memberGroups s.wingsNext) (hop : fld x.cmd.a0 12 2 = 0) (hkind : fld x.cmd.a0 10 2 ≠ 3)
    (hargs : grpArgsOk (fld x.cmd.a0 10 2) x.cmd = true) (hsh : (t.grp (fld x.cmd.a0 0 10)).state ≠ .shared)
    (hmod : (t.grp (fld x.cmd.a0 0 10)).state = .open_ → (t.grp (fld x.cmd.a0 0 10)).kind.toNat ≠ fld x.cmd.a0 10 2 →
      t.keyNames (fld x.cmd.a0 0 10) = false ∧ t.interrupts (fld x.cmd.a0 0 10) = false)
    (hint : fld x.cmd.a0 10 2 = 2 → fld x.cmd.a3 0 10 < memberGroups s.wingsNext ∧ (t.grp (fld x.cmd.a3 0 10)).state ≠ .unused ∧
      (t.grp (fld x.cmd.a3 0 10)).kind = 0 ∧ fld x.cmd.a3 0 10 ≠ fld x.cmd.a0 0 10) :
    grpSetChecked x s t = .config s s.effectOrd
      [.grpSet (fld x.cmd.a0 0 10) (BitVec.ofNat 2 (fld x.cmd.a0 10 2)) x.cmd.a1 x.cmd.a2 x.cmd.a3] (s.unstated 1) := by
  by_cases hifb : fld x.cmd.a0 10 2 = 2
  · obtain ⟨hcar, hused, hconf, hself⟩ := hint hifb
    rw [hifb] at hargs hmod
    simpa [grpSetChecked, h0, h4, h5, Nat.not_le.2 hg, hop, hifb, hargs, hsh, Nat.not_le.2 hcar, hused, hconf, hself] using hmod
  · simpa [grpSetChecked, h0, h4, h5, Nat.not_le.2 hg, hop, hkind, hargs, hsh, hifb] using hmod

theorem grpSetChecked_close (h0 : x.cmd.a0 &&& 0xFC00C000#32 = 0) (h4 : x.cmd.a4 = 0) (h5 : x.cmd.a5 = 0)
    (hg : fld x.cmd.a0 0 10 < memberGroups s.wingsNext) (hop : fld x.cmd.a0 12 2 = 1) (hopen : (t.grp (fld x.cmd.a0 0 10)).state = .open_)
    (hkeys : t.keyNames (fld x.cmd.a0 0 10) = false) (hint : t.interrupts (fld x.cmd.a0 0 10) = false) :
    grpSetChecked x s t = .config s s.effectOrd [.grpClose (fld x.cmd.a0 0 10)] (s.unstated 1) := by
  simp [grpSetChecked, h0, h4, h5, Nat.not_le.2 hg, hop, hopen, hkeys, hint]

theorem grpSetChecked_share (h0 : x.cmd.a0 &&& 0xFC00C000#32 = 0) (h4 : x.cmd.a4 = 0) (h5 : x.cmd.a5 = 0)
    (hg : fld x.cmd.a0 0 10 < memberGroups s.wingsNext) (hop : fld x.cmd.a0 12 2 = 2) (hopen : (t.grp (fld x.cmd.a0 0 10)).state = .open_)
    (hfree : shareBlocked s t (fld x.cmd.a0 0 10) (fld x.cmd.a0 16 10) = false) :
    grpSetChecked x s t = .config s s.effectOrd [.grpShare (fld x.cmd.a0 0 10) (fld x.cmd.a0 16 10)] (s.unstated 1) := by
  simp [grpSetChecked, h0, h4, h5, Nat.not_le.2 hg, hop, hopen, hfree]

theorem grpSetChecked_unshare (h0 : x.cmd.a0 &&& 0xFC00C000#32 = 0) (h4 : x.cmd.a4 = 0) (h5 : x.cmd.a5 = 0)
    (hg : fld x.cmd.a0 0 10 < memberGroups s.wingsNext) (hop : fld x.cmd.a0 12 2 = 3) (hsh : (t.grp (fld x.cmd.a0 0 10)).state = .shared)
    (hint : (t.grp (fld x.cmd.a0 0 10)).kind = 0 →
      ∀ y ∈ t.mix.groups, y.2.state = .shared → y.2.kind = 2 → fld y.2.a3 0 10 ≠ fld x.cmd.a0 0 10) :
    grpSetChecked x s t = .config s s.effectOrd [.grpUnshare (fld x.cmd.a0 0 10)] (s.unstated 1) := by
  simpa [grpSetChecked, h0, h4, h5, Nat.not_le.2 hg, hop, hsh] using hint

end

/-- Settles O19: each action's checks accept by the lemma of its case, and needWing leaves the repack due by accepts_needWing. -/
theorem grpSetAccepted : Obligations.GrpSetAccepted := by
  intro s src c ho hop h0 h4 h5 u t g kind cur int fits takes hg
  have haccept {ch : Change} (hck : grpSetChecked (ownCtx src c) u t = .config u u.effectOrd [ch] (u.unstated 1)) (hfits : fits ch) :
      takes ch := by
    rw [show u.unstated 1 = s.unstated 1 from checking_unstated ho.cleanEntry 1] at hck
    exact accepts_needWing (h := fun x s => grpSetChecked x s (s.project s.effectOrd)) rfl ho (by simp [hop]) (by rw [hop]; rfl)
      (by simp [hop]) hck hfits
  have hg' : g < memberGroups u.wingsNext := by simpa [u] using hg
  refine ⟨fun hact hkind hargs hsh hmod hint => haccept ?_, fun hact hopen hkeys hint => haccept ?_, fun hact hopen hfree => haccept ?_,
    fun hact hsh hint => haccept ?_⟩
  · exact grpSetChecked_set (x := ownCtx src c) h0 h4 h5 hg' hact hkind hargs hsh hmod (by simpa [u] using hint)
  · exact grpSetChecked_close (x := ownCtx src c) h0 h4 h5 hg' hact hopen hkeys hint
  · exact grpSetChecked_share (x := ownCtx src c) h0 h4 h5 hg' hact hopen hfree
  · exact grpSetChecked_unshare (x := ownCtx src c) h0 h4 h5 hg' hact hsh hint

end Sys2Proof.Machine
end

section
/-! SUPPORT. State timers of a Leg's canceller, voice activity and hum canceller (R25, R145, R153, R156): what a change of one Leg's chain leaves of
every Leg's latest state, and from that the statement ChainTimers. -/

namespace Sys2Proof.Machine

/-! ### A change of one Leg's chain -/

/-- A change of the values at one index seen through a lookup at any index. -/
theorem lookup_map_at {α : Type} (g : α → α) (l j : Nat) (t : Tab α) :
    List.lookup j (t.map fun q => if q.1 = l then (q.1, g q.2) else q) = (t.lookup j).map fun a => if j = l then g a else a := by
  induction t with
  | nil => rfl
  | cons q r ih =>
    obtain ⟨k, v⟩ := q
    have hhead : (if k = l then (k, g v) else (k, v)) = (k, if k = l then g v else v) := by split <;> rfl
    by_cases hk : j = k
    · simp [hhead, hk]
    · have hne : (j == k) = false := by simpa using hk
      simpa [hhead, List.lookup_cons, hne] using ih

/-- The states that a Leg's phase A in a data set gives as its latest: none once they are written back, or where the Leg's work is lost (R25, R361). -/
def DataSet.heldBack (d : DataSet) (l : Nat) : Option PhaseA :=
  if d.back.contains l || (d.legDead l && (tget (legCfg0 l) d.cfg.legs l).bound) then none else d.phaseA.lookup l

/-- The states in force are those of the compute Period's data, else of the emit Period's, else those written back. -/
theorem lastChain_eq (s : State) (l : Nat) : s.lastChain l =
    match s.mix.compute.bind (·.heldBack l), s.mix.emit.bind (·.heldBack l) with
    | some a, _ => (a.echo, a.vad, a.hum)
    | none, some a => (a.echo, a.vad, a.hum)
    | none, none => (s.echoL l, s.vadL l, s.humL l) := by
  unfold State.lastChain
  cases s.mix.compute <;> cases s.mix.emit <;> rfl

/-- What a row leaves that moves one Leg's chain by fe, fv and fh: the Leg's states moved, written back and latest, those of other Legs kept. -/
def ChainMoved (l : Nat) (fe : Echo → Echo) (fv : Vad → Vad) (fh : Hum → Hum) (s t : State) : Prop :=
  t.echoL l = fe (s.echoL l) ∧ t.vadL l = fv (s.vadL l) ∧ t.humL l = fh (s.humL l) ∧
    t.lastChain l = (fe (s.lastChain l).1, fv (s.lastChain l).2.1, fh (s.lastChain l).2.2) ∧
    ∀ j, j ≠ l → t.lastChain j = s.lastChain j ∧ t.echoL j = s.echoL j ∧ t.vadL j = s.vadL j ∧ t.humL j = s.humL j

section
variable (s : State) (l : Nat) (fe : Echo → Echo) (fv : Vad → Vad) (fh : Hum → Hum)

/-- The chain's states in a phase A moved. -/
def PhaseA.moved (a : PhaseA) : PhaseA := { a with echo := fe a.echo, vad := fv a.vad, hum := fh a.hum }

/-- One Leg's states moved in a data set. -/
def DataSet.moved (d : DataSet) : DataSet :=
  { d with phaseA := d.phaseA.map fun q => if q.1 = l then (q.1, q.2.moved fe fv fh) else q }

theorem onChain_compute : (s.onChain l fe fv fh).mix.compute = s.mix.compute.map (DataSet.moved l fe fv fh) := rfl
theorem onChain_emit : (s.onChain l fe fv fh).mix.emit = s.mix.emit.map (DataSet.moved l fe fv fh) := rfl

theorem onChain_echoL_self : (s.onChain l fe fv fh).echoL l = fe (s.echoL l) := onEchoL_self s l fe
theorem onChain_vadL_self : (s.onChain l fe fv fh).vadL l = fv (s.vadL l) := onVadL_self (s.onEchoL l fe) l fv
theorem onChain_humL_self : (s.onChain l fe fv fh).humL l = fh (s.humL l) := onHumL_self ((s.onEchoL l fe).onVadL l fv) l fh

theorem heldBack_moved (d : DataSet) (j : Nat) :
    (d.moved l fe fv fh).heldBack j = (d.heldBack j).map fun a => if j = l then a.moved fe fv fh else a := by
  have hlook : (d.moved l fe fv fh).phaseA.lookup j = (d.phaseA.lookup j).map fun a => if j = l then a.moved fe fv fh else a :=
    lookup_map_at (PhaseA.moved fe fv fh) l j d.phaseA
  unfold DataSet.heldBack
  rw [hlook]
  change (if d.back.contains j || (d.legDead j && (tget (legCfg0 j) d.cfg.legs j).bound) then none else _) = _
  split <;> rfl

theorem bind_heldBack_moved (o : Option DataSet) (j : Nat) :
    (o.map (DataSet.moved l fe fv fh)).bind (·.heldBack j) =
      (o.bind (·.heldBack j)).map fun a => if j = l then a.moved fe fv fh else a := by
  cases o with
  | none => rfl
  | some d => exact heldBack_moved l fe fv fh d j

theorem lastChain_onChain_self :
    (s.onChain l fe fv fh).lastChain l = (fe (s.lastChain l).1, fv (s.lastChain l).2.1, fh (s.lastChain l).2.2) := by
  simp only [lastChain_eq, onChain_compute, onChain_emit, bind_heldBack_moved, onChain_echoL_self, onChain_vadL_self, onChain_humL_self, if_true]
  cases s.mix.compute.bind (·.heldBack l) with
  | some a => rfl
  | none => cases s.mix.emit.bind (·.heldBack l) <;> rfl

variable {l} {j : Nat}

theorem onChain_echoL_ne (h : j ≠ l) : (s.onChain l fe fv fh).echoL j = s.echoL j := onEchoL_ne s fe h
theorem onChain_vadL_ne (h : j ≠ l) : (s.onChain l fe fv fh).vadL j = s.vadL j := onVadL_ne (s.onEchoL l fe) fv h
theorem onChain_humL_ne (h : j ≠ l) : (s.onChain l fe fv fh).humL j = s.humL j := onHumL_ne ((s.onEchoL l fe).onVadL l fv) fh h

theorem lastChain_onChain_ne (h : j ≠ l) : (s.onChain l fe fv fh).lastChain j = s.lastChain j := by
  simp only [lastChain_eq, onChain_compute, onChain_emit, bind_heldBack_moved, onChain_echoL_ne s fe fv fh h, onChain_vadL_ne s fe fv fh h,
    onChain_humL_ne s fe fv fh h, h, if_false, Option.map_id']

theorem chainMoved_onChain : ChainMoved l fe fv fh s (s.onChain l fe fv fh) :=
  ⟨onChain_echoL_self s l fe fv fh, onChain_vadL_self s l fe fv fh, onChain_humL_self s l fe fv fh, lastChain_onChain_self s l fe fv fh,
    fun _ h => ⟨lastChain_onChain_ne s fe fv fh h, onChain_echoL_ne s fe fv fh h, onChain_vadL_ne s fe fv fh h, onChain_humL_ne s fe fv fh h⟩⟩

end

/-- A row that answers the change of one Leg's chain moves that chain alone. -/
theorem does_onChain {row : Instr} {s : State} {l : Nat} {fe : Echo → Echo} {fv : Vad → Vad} {fh : Hum → Hum}
    (h : exec row s = .next (s.onChain l fe fv fh)) : Does row s [.mix, .echo, .vad, .hum] (ChainMoved l fe fv fh s) :=
  ⟨_, h, (foot_onChain (Foot.refl [.mix, .echo, .vad, .hum] s) (List.Subset.refl _)).1, chainMoved_onChain s fe fv fh⟩

/-! ### The rows at their time -/

section
variable {s : State} {l : LegIx} {p : PortIx}

/-- FAST's time has run out (R145). -/
theorem exec_fastExpiry (hst : (s.lastChain l).1.state = .fast) (hleft : (s.lastChain l).1.fastLeft = 0) :
    exec (.fastExpiry l) s =
      .next (s.onChain l (fun e => if e.state = .fast then { e with state := .adapt } else e) id id) := by
  simp [exec, execFastExpiry, hst, hleft]

/-- The Periods of DOUBLE TALK have run out (R145). -/
theorem exec_doubleTalkExpiry (hst : (s.lastChain l).1.state = .dt) (hleft : (s.lastChain l).1.dtLeft = 0) :
    exec (.doubleTalkExpiry l) s =
      .next (s.onChain l (fun e => if e.state = .dt then { e with state := if e.fastLeft = 0 then .adapt else .fast } else e) id id) := by
  simp [exec, execDoubleTalkExpiry, hst, hleft]

/-- Closing a block puts its minimum in front of the ring (R153); a block without a minimum stays open. -/
theorem vadClose_eq (v : Vad) : (if v.runMin.isSome then v.close else v) =
    match v.runMin with
    | some q => { v with ring := (q :: v.ring).take 16, runMin := none, count := 0 }
    | none => v := by
  unfold Vad.close
  cases v.runMin <;> rfl

theorem exec_vadBlockClose (hcount : 200 ≤ (s.lastChain l).2.1.count) :
    exec (.vadBlockClose l) s = .next (s.onChain l id (fun v => match v.runMin with
      | some q => { v with ring := (q :: v.ring).take 16, runMin := none, count := 0 }
      | none => v) id) := by
  have hrow : exec (.vadBlockClose l) s = .next (s.onChain l id (fun v => if v.runMin.isSome then v.close else v) id) := by
    simp [exec, execVadBlockClose, hcount]
  rw [hrow, funext vadClose_eq]

/-- What the end of a search leaves of the hum canceller: the loop starts at the component found, and without one the search begins anew (R156). -/
def Hum.searched (found : Option F32) (h : Hum) : Hum :=
  match found with
  | some f => { h with count := 0, f0 := f, loopI := f, heldF0 := f, heldRun := 0, running := true }
  | none => { h with count := 0 }

/-- The 8,000 Periods of a search are complete (R156): the transform over them decides, whatever the operand tells (log 142). -/
theorem exec_humSearch (found : Option F32) (hlp : l.val = p.val) (hst : (s.lastChain l).2.2.state = .search)
    (hcount : 8000 ≤ (s.lastChain l).2.2.count) (hpaused : (s.lastChain l).2.2.paused = false) :
    exec (.humSearch p found) s = .next (s.onChain l id id (Hum.searched (s.lastChain l).2.2.strongest)) := by
  rw [hlp] at hst hcount hpaused ⊢
  have hdue : ((s.lastChain p).2.2.state = .search && 8000 ≤ (s.lastChain p).2.2.count && !(s.lastChain p).2.2.paused) = true := by
    simp [hst, hcount, hpaused]
  refine (if_pos hdue).trans ?_
  generalize (s.lastChain p).2.2.strongest = o
  cases o <;> rfl

theorem exec_humStateTimer (ev : HumEvent) (hlp : l.val = p.val) :
    exec (.humStateTimer p ev) s = .next (s.onChain l id id (Hum.move ev s.untrusted)) := by
  rw [hlp]
  rfl

end

/-! ### Moves of the hum canceller (R156) -/

section
variable {c : Hum} (untr : Bool)

theorem humMove_held (hpaused : c.paused = false) (hst : c.state = .search) (hrun : c.running = true) (hheld : 4000 ≤ c.heldRun) :
    c.move .held untr = { c with state := .locked, lowRun := 0, freq := humMean c.hist, untr := untr } := by
  simp [Hum.move, Hum.may, hpaused, hst, hrun, hheld]

theorem humMove_lowLevel (hpaused : c.paused = false) (hst : c.state = .locked) (hlow : 2000 ≤ c.lowRun) :
    c.move .lowLevel untr = { c with state := .coast, coastRun := 0 } := by
  simp [Hum.move, Hum.may, hpaused, hst, hlow]

theorem humMove_fastChange (hpaused : c.paused = false) (hst : c.state = .locked) (hfast : c.fast = true) :
    c.move .fastChange untr = { c with state := .search, count := 0, heldF0 := c.f0, heldRun := 0 } := by
  simp [Hum.move, Hum.may, hpaused, hst, hfast]

end

/-- Settles O46: each row at its time answers a change of its Leg's chain, which does_onChain says the rest of; the hum canceller's states by the
lemma of each move. -/
theorem chainTimers : Obligations.ChainTimers := by
  intro s l
  dsimp only
  refine ⟨fun hst hleft => does_onChain (exec_fastExpiry hst hleft), fun hst hleft => does_onChain (exec_doubleTalkExpiry hst hleft),
    fun hcount => does_onChain (exec_vadBlockClose hcount), fun p found hlp hst hcount hpaused => ?_, fun p hlp hpaused => ?_⟩
  · have hsearch := does_onChain (exec_humSearch found hlp hst hcount hpaused)
    generalize (s.lastChain l).2.2.strongest = o at hsearch ⊢
    cases o <;> exact hsearch
  · have hmoves (ev : HumEvent) := does_onChain (exec_humStateTimer (s := s) ev hlp)
    refine ⟨fun hst hrun hheld => ⟨hmoves .held, ?_⟩, fun hst hlow => ⟨hmoves .lowLevel, ?_⟩, fun hst hfast => ⟨hmoves .fastChange, ?_⟩⟩
    · rw [humMove_held s.untrusted hpaused hst hrun hheld]
      exact ⟨rfl, rfl⟩
    · rw [humMove_lowLevel s.untrusted hpaused hst hlow]
    · rw [humMove_fastChange s.untrusted hpaused hst hfast]

end Sys2Proof.Machine
end

section
/-! SUPPORT. Inputs of the digital audio ports (R228 to R232, R237, R245): what a change of one port and an event on it leave, what a loss and a
resumption keep of a port, and from that the statement DigitalAudioInputs. -/

namespace Sys2Proof.Machine

/-! ### Events of a port (R245) -/

/-- The events of a port and the PIDX of the latest one. -/
def Dap.noted (n : BitVec 16) (pidx : Word) (d : Dap) : Dap := { d with events := n, eventPidx := pidx }

theorem dapEvent_self (s : State) (p : Nat) : (s.dapEvent p).dapP p = (s.dapP p).noted ((s.dapP p).events + 1) s.pidx :=
  onDapP_self s p fun d => d.noted (d.events + 1) s.pidx

theorem dapEvent_ne (s : State) {p q : Nat} (h : q ≠ p) : (s.dapEvent p).dapP q = s.dapP q :=
  onDapP_ne s (fun d => d.noted (d.events + 1) s.pidx) h

theorem dapEvent_irqDap (s : State) (p : Nat) : (s.dapEvent p).hbi.irqStat.getLsbD irqDap = true := by
  simp [State.dapEvent, irqDap]

theorem DapOnly.trans {p : Nat} {s t u : State} (h : s.DapOnly p t) (k : t.DapOnly p u) : s.DapOnly p u :=
  fun q hq => (k q hq).trans (h q hq)

theorem dapOnly_onDapP (s : State) (p : Nat) (f : Dap → Dap) : s.DapOnly p (s.onDapP p f) := fun _ hq => onDapP_ne s f hq

theorem dapOnly_dapEvent (s : State) (p : Nat) : s.DapOnly p (s.dapEvent p) := fun _ hq => dapEvent_ne s hq

/-- From s to t a port has become d and an event has told of it; beside reports nothing else has changed. -/
def DapTold (p : Nat) (d : Dap) (s t : State) : Prop :=
  SameOutside [.hbi, .trace, .dap] s t ∧ Reports s t ∧
    (∃ n, t.dapP p = d.noted n s.pidx) ∧ t.hbi.irqStat.getLsbD irqDap = true ∧ s.DapOnly p t

theorem dapTold_dapEvent (s : State) (p : Nat) (f : Dap → Dap) : DapTold p (f (s.dapP p)) s ((s.onDapP p f).dapEvent p) := by
  refine ⟨?_, reports_dapEvent p (reports_onDapP p f (Reports.refl s)), ⟨(f (s.dapP p)).events + 1, ?_⟩, dapEvent_irqDap _ p, ?_⟩
  · exact (foot_dapEvent (foot_onDapP (Foot.refl [.hbi, .trace, .dap] s) (by decide)) (by decide)).1
  · rw [dapEvent_self, onDapP_self]
    rfl
  · exact DapOnly.trans (dapOnly_onDapP s p f) (dapOnly_dapEvent _ p)

/-- A further event of the same instant tells of nothing new. -/
theorem DapTold.again {p : Nat} {d : Dap} {s t : State} (h : DapTold p d s t) : DapTold p d s (t.dapEvent p) := by
  obtain ⟨hsame, hrep, ⟨n, hport⟩, -, honly⟩ := h
  have hpidx : t.pidx = s.pidx := congrArg Time.pidx (hsame .time (by decide))
  refine ⟨?_, reports_dapEvent p hrep, ⟨n + 1, ?_⟩, dapEvent_irqDap t p, DapOnly.trans honly (dapOnly_dapEvent t p)⟩
  · exact same_trans hsame (foot_dapEvent (Foot.refl [.hbi, .trace, .dap] t) (by decide)).1 (List.Subset.refl _) (List.Subset.refl _)
  · rw [dapEvent_self, hport, hpidx]
    rfl

/-! ### Rows that change one port -/

/-- A row that answers the change of one port changes that port alone. -/
theorem does_onDapP {row : Instr} {s : State} {p : Nat} {f : Dap → Dap} (h : exec row s = .next (s.onDapP p f)) :
    Does row s [.dap] fun t => t.dapP p = f (s.dapP p) ∧ s.DapOnly p t :=
  ⟨_, h, (foot_onDapP (Foot.refl [.dap] s) (by decide)).1, onDapP_self s p f, dapOnly_onDapP s p f⟩

/-- A row that answers the change of one port and an event of it completes with what follows for the port. -/
theorem doesR_dapTold {row : Instr} {s : State} {p : Nat} {d : Dap} {P : State → Prop} (h : ∃ t, exec row s = .next t ∧ DapTold p d s t)
    (hP : ∀ t n, t.dapP p = d.noted n s.pidx → t.hbi.irqStat.getLsbD irqDap = true → s.DapOnly p t → P t) : DoesR row s [.dap] P := by
  obtain ⟨t, hex, hsame, hrep, ⟨n, hport⟩, hirq, honly⟩ := h
  exact ⟨t, hex, same_trans hsame (Foot.refl [] t).1 (by decide) (List.nil_subset _), hrep, hP t n hport hirq honly⟩

/-- A change of one port without an event makes no report. -/
theorem doesR_of_does {row : Instr} {s : State} {P : State → Prop} (h : Does row s [.dap] P) : DoesR row s [.dap] P := by
  obtain ⟨t, hex, hsame, ht⟩ := h
  have hrep : Reports s t := reports_of_eq (Reports.refl s) (hsame .hbi (by decide)) (hsame .trace (by decide))
  exact ⟨t, hex, same_trans hsame (Foot.refl [] t).1 (by decide) (List.nil_subset _), hrep, ht⟩

theorem DoesR.mono {row : Instr} {s : State} {ps : List Part} {P Q : State → Prop} (h : DoesR row s ps P) (hPQ : ∀ t, P t → Q t) :
    DoesR row s ps Q := by
  obtain ⟨t, hex, hsame, hrep, ht⟩ := h
  exact ⟨t, hex, hsame, hrep, hPQ t ht⟩

/-! ### Qualification (R229) -/

/-- A port that is not MUTED takes the rate at qualification as its RATE_REC. -/
theorem qualified_rateRec (hz : Nat) (cls : RateClass) (untr : Bool) {d : Dap} (h : d.state ≠ .muted) :
    (d.qualified hz cls untr).rateRec = hz := by
  simp [Dap.qualified, h]

/-! ### Loss (R230) -/

theorem switch_pending {key k : Nat} {fade : Bool} {d : Dap} {z : ZcPend} (h : tget none d.pend key = some z) :
    d.switch key k fade = { d with pend := tput none key none d.pend, sw := tput none key (some ((k : Int), z, fade)) d.sw } := by
  simp [Dap.switch, h]

/-- A switch changes what is pending and what the Period has been told of, and nothing else of a port. -/
theorem switch_keeps (key k : Nat) (fade : Bool) (d : Dap) :
    d.switch key k fade = { d with pend := (d.switch key k fade).pend, sw := (d.switch key k fade).sw } := by
  unfold Dap.switch
  split <;> rfl

@[simp] theorem switch_qual (key k : Nat) (fade : Bool) (d : Dap) : (d.switch key k fade).qual = d.qual := by
  rw [switch_keeps]

@[simp] theorem switch_state (key k : Nat) (fade : Bool) (d : Dap) : (d.switch key k fade).state = d.state := by
  rw [switch_keeps]

@[simp] theorem switch_zeroFrom (key k : Nat) (fade : Bool) (d : Dap) : (d.switch key k fade).zeroFrom = d.zeroFrom := by
  rw [switch_keeps]

/-- A lost input is not qualified, and a port in RUN is MUTED with its input zero from the next sample on (R230). -/
theorem lost_fields (why : DapLoss) (k : Nat) (d : Dap) :
    (d.lost why k).qual = false ∧ (d.lost why k).state = (if d.state = .run then .muted else d.state) ∧
      (d.lost why k).zeroFrom = if d.state = .run then some (k + 1) else d.zeroFrom := by
  unfold Dap.lost
  extract_lets d'
  have hd' : d'.qual = false ∧ d'.state = (if d.state = .run then .muted else d.state) ∧
      d'.zeroFrom = if d.state = .run then some (k + 1) else d.zeroFrom := ⟨rfl, rfl, rfl⟩
  clear_value d'
  split
  · simp only [List.foldl_cons, List.foldl_nil]
    split <;> split <;> simpa using hd'
  · exact hd'

/-! ### Resumption (R231) -/

/-- The port is in RUN, and the resumption was its latest event. -/
def Dap.ResumedAt (pidx : Word) (d : Dap) : Prop := d.state = .run ∧ d.mute = 0 ∧ d.resume = false ∧ d.eventPidx = pidx

theorem resumedAt_resumed (ord : Nat) (n : BitVec 16) (pidx : Word) (d : Dap) : ((d.resumed ord).noted n pidx).ResumedAt pidx := by
  simp only [Dap.resumed, List.foldl_cons, List.foldl_nil]
  split <;> split <;> exact ⟨rfl, rfl, rfl, rfl⟩

theorem Dap.ResumedAt.openTx {pidx : Word} {d : Dap} (h : d.ResumedAt pidx) (mc : Word) : (d.openTx mc).ResumedAt pidx := by
  unfold Dap.openTx
  split <;> exact h

theorem Dap.ResumedAt.dapOut {pidx : Word} {s : State} {p : Nat} (h : (s.dapP p).ResumedAt pidx) : ((s.dapOut p).dapP p).ResumedAt pidx := by
  unfold State.dapOut
  rw [onDapP_self]
  split <;> exact h

theorem dapOnly_dapOpen (s : State) (p : Nat) : s.DapOnly p (s.dapOpen p) := by
  unfold State.dapOpen
  extract_lets d u
  have hu : s.DapOnly p u := by
    unfold u
    split
    · exact DapOnly.trans (dapOnly_onDapP s p _) (dapOnly_dapEvent _ p)
    · exact fun _ _ => rfl
  clear_value u
  split
  · exact hu
  · exact DapOnly.trans (DapOnly.trans hu (dapOnly_onDapP u p _)) (dapOnly_onDapP _ p _)

/-- At the boundary that opens a Period a resumption that is due puts the port in RUN, with an event (R231, R245). -/
theorem dapOpen_resumed {s : State} {p : Nat} (hst : (s.dapP p).state = .muted) (hres : (s.dapP p).resume = true)
    (hdue : (s.dapP p).resumeDue = true) :
    ((s.dapOpen p).dapP p).ResumedAt s.pidx := by
  have hport : (((s.onDapP p (Dap.resumed s.time.ord)).dapEvent p).dapP p).ResumedAt s.pidx := by
    rw [dapEvent_self, onDapP_self]
    exact resumedAt_resumed ..
  have hnow : ((s.dapP p).state = .muted && (s.dapP p).resume && (s.dapP p).resumeDue) = true := by simp [hst, hres, hdue]
  unfold State.dapOpen
  dsimp only
  rw [if_pos hnow]
  split
  · exact hport
  · refine Dap.ResumedAt.dapOut ?_
    rw [onDapP_self]
    exact hport.openTx _

/-! ### Each row where its condition holds -/

section
variable {s : State} {p : DapIx}

theorem exec_dapInputQualified {hz : Nat} {cls : RateClass} (hm : (s.dapP p).measured p = true) (hq : (s.dapP p).qual = false)
    (hrun : 200 ≤ (s.dapP p).good.length) (hhz : hz = (s.dapP p).meanHz) (hcls : cls = classOf p hz)
    (hok : classOk cls = true ∨ s.untrusted = true) :
    ∃ t, exec (.dapInputQualified p hz cls) s = .next t ∧ DapTold p (Dap.qualified hz cls s.untrusted (s.dapP p)) s t := by
  have hdue : ((s.dapP p).measured p && !(s.dapP p).qual && (s.dapP p).proven && hz = (s.dapP p).meanHz && cls = classOf p hz &&
      (classOk cls || s.untrusted)) = true := by
    subst hcls hhz
    simpa [hm, hq, Dap.proven, hrun] using hok
  refine ⟨_, if_pos hdue, ?_⟩
  split
  · exact (dapTold_dapEvent s p _).again
  · exact dapTold_dapEvent s p _

theorem exec_dapInputLoss {why : DapLoss} (hm : (s.dapP p).measured p = true) (hq : (s.dapP p).qual = true)
    (hnew : why = .newRate → s.untrusted = false ∧ (s.dapP p).strays = true) :
    ∃ t, exec (.dapInputLoss p why) s = .next t ∧ DapTold p (Dap.lost why (sampleAt s.time.inPeriod) (s.dapP p)) s t := by
  have hdue : ((s.dapP p).measured p && (s.dapP p).qual && !(why = .newRate && (s.untrusted || !(s.dapP p).strays))) = true := by
    cases why with
    | clockLost => simp [hm, hq]
    | newRate =>
      obtain ⟨hu, hst⟩ := hnew rfl
      simp [hm, hq, hu, hst]
  exact ⟨_, if_pos hdue, dapTold_dapEvent s p _⟩

theorem exec_dapResume (hst : (s.dapP p).state = .muted) (hres : (s.dapP p).resume = true) :
    exec (.dapResume p) s = .next (s.onDapP p fun d => { d with resumeDue := true }) := by
  simp [exec, execDapResume, hst, hres]

/-- A slip that a row tells of is counted, and counted as told (R232). -/
def Dap.slipped : SlipKind → Dap → Dap
  | .drop, d => { d with drops := satAdd d.drops 1, rowDrops := d.rowDrops + 1 }
  | .repeat_, d => { d with repeats := satAdd d.repeats 1, rowRepeats := d.rowRepeats + 1 }

theorem exec_slip (kind : SlipKind) (hm : (s.dapP p).measured p = true) (hst : (s.dapP p).state ≠ .disabled) :
    exec (.slip p kind) s = .next (s.onDapP p (Dap.slipped kind)) := by
  have hdue : ((s.dapP p).measured p && (s.dapP p).state ≠ .disabled) = true := by simp [hm, hst]
  cases kind <;> exact if_pos hdue

theorem exec_channelStatusBlock_fails {bs : List Byte} (told : Bool) (hp : isPdm p = false) (hst : (s.dapP p).state ≠ .disabled)
    (hcrc : statusHolds (padTo 96 bs) = false) :
    exec (.channelStatusBlock p bs told) s = .next (s.onDapP p fun d => { d with crccs := satAdd d.crccs 1 }) := by
  simp [exec, execChannelStatusBlock, hp, hst, hcrc]

/-- A block taken into the receive table (R246). -/
def Dap.takesBlock (b : List Byte) (pidx : Word) (d : Dap) : Dap := { d with rxBlock := b, rxBlocks := d.rxBlocks + 1, rxPidx := pidx }

theorem exec_channelStatusBlock_holds {bs : List Byte} (told : Bool) (hp : isPdm p = false) (hst : (s.dapP p).state ≠ .disabled)
    (hcrc : statusHolds (padTo 96 bs) = true) :
    exec (.channelStatusBlock p bs told) s = .next (
      if (s.dapP p).rxBlocks ≠ 0 ∧ (padTo 96 bs).take 48 ≠ (s.dapP p).rxBlock.take 48
      then (s.onDapP p (Dap.takesBlock (padTo 96 bs) s.pidx)).dapEvent p else s.onDapP p (Dap.takesBlock (padTo 96 bs) s.pidx)) := by
  have hgiven : ¬(isPdm p || (s.dapP p).state = .disabled) = true := by simp [hp, hst]
  have hgood : ¬(!statusHolds (padTo 96 bs)) = true := by simp [hcrc]
  have hchange : (((s.dapP p).rxBlocks ≠ 0 && (padTo 96 bs).take 48 ≠ (s.dapP p).rxBlock.take 48) = true) =
      ((s.dapP p).rxBlocks ≠ 0 ∧ (padTo 96 bs).take 48 ≠ (s.dapP p).rxBlock.take 48) := by
    simp only [Bool.and_eq_true, decide_eq_true_eq]
  exact ((if_neg hgiven).trans (if_neg hgood)).trans (congrArg _ (ite_congr hchange (fun _ => rfl) fun _ => rfl))

theorem exec_zeroCrossingSwitch {ch : Fin 2} {out : Bool} {k : Nat}
    (hk : (s.dapP p).crossedAt ch out s.time.ord (sampleAt s.time.inPeriod) = some k) :
    exec (.zeroCrossingSwitch p ch out) s = .next (s.onDapP p (Dap.switch (switchKey ch out) k false)) := by
  simp [exec, execZeroCrossingSwitch, hk]

theorem exec_zcTimeout {ch : Fin 2} {out : Bool}
    (ht : tget 0 (s.dapP p).pendOrd (switchKey ch out) + 2 * (s.dapP p).zcTo ≤ s.time.ord) :
    exec (.zcTimeout p ch out) s = .next (s.onDapP p (Dap.switch (switchKey ch out) (sampleAt s.time.inPeriod) true)) :=
  if_pos ht

end

/-! ### The inputs -/

/-- Settles O47: each row where its condition holds answers a change of its port, by does_onDapP or, with its events, by doesR_dapTold. -/
theorem digitalAudioInputs : Obligations.DigitalAudioInputs := by
  intro s p d
  refine ⟨?_, ?_, ?_, ?_, ?_, ?_⟩
  · intro hz cls hm hq hrun hhz hcls hok
    refine doesR_dapTold (exec_dapInputQualified hm hq hrun hhz hcls hok) fun t n hport hirq honly => ?_
    rw [hport]
    exact ⟨rfl, rfl, qualified_rateRec hz cls s.untrusted, rfl, hirq, honly⟩
  · intro why hm hq hnew
    refine doesR_dapTold (exec_dapInputLoss hm hq hnew) fun t n hport hirq honly => ?_
    obtain ⟨hqual, hst, hzero⟩ := lost_fields why (sampleAt s.time.inPeriod) d
    rw [hport]
    exact ⟨hqual, hst, fun hrun => hzero.trans (if_pos hrun), rfl, hirq, honly⟩
  · intro hst hres
    obtain ⟨t, hex, hsame, hport, honly⟩ := does_onDapP (exec_dapResume hst hres)
    have hpidx : t.pidx = s.pidx := congrArg Time.pidx (hsame .time (by decide))
    have hrun : ((t.dapOpen p).dapP p).ResumedAt t.pidx := dapOpen_resumed (by rw [hport]; exact hst) (by rw [hport]; exact hres) (by rw [hport])
    rw [hpidx] at hrun
    obtain ⟨hstate, hmute, hresume, hevent⟩ := hrun
    exact ⟨t, hex, hsame, hport, honly, hstate, hmute, hresume, hevent, dapOnly_dapOpen t p⟩
  · intro hm hst
    exact ⟨does_onDapP (exec_slip .drop hm hst), does_onDapP (exec_slip .repeat_ hm hst)⟩
  · intro bs told hp hst
    refine ⟨fun hcrc => does_onDapP (exec_channelStatusBlock_fails told hp hst hcrc), fun hcrc => ?_⟩
    have hex := exec_channelStatusBlock_holds told hp hst hcrc
    by_cases hchange : d.rxBlocks ≠ 0 ∧ (padTo 96 bs).take 48 ≠ d.rxBlock.take 48
    · rw [if_pos hchange] at hex
      refine doesR_dapTold ⟨_, hex, dapTold_dapEvent s p _⟩ fun t n hport hirq honly => ?_
      rw [hport]
      exact ⟨rfl, rfl, rfl, fun _ _ => hirq, honly⟩
    · rw [if_neg hchange] at hex
      refine (doesR_of_does (does_onDapP hex)).mono fun t ⟨hport, honly⟩ => ?_
      rw [hport]
      exact ⟨rfl, rfl, rfl, fun hne hnew => absurd ⟨hne, hnew⟩ hchange, honly⟩
  · intro ch out z hz key now switched
    refine ⟨fun k hk => ?_, fun ht => ?_⟩
    · have hdoes := does_onDapP (exec_zeroCrossingSwitch hk)
      rwa [switch_pending hz] at hdoes
    · have hdoes := does_onDapP (exec_zcTimeout ht)
      rwa [switch_pending hz] at hdoes

end Sys2Proof.Machine
end

section
/-! SUPPORT. Commands on the digital audio ports (R94, R234 to R236): acceptance of a configuration command that reads a block or changes the
timebase and the ring, what the checks of DAP_SET and DAP_START answer where they accept, and from that the statement DapCommandsAccepted. -/

namespace Sys2Proof.Machine

/-! ### Frames -/

/-- A listed part that is the same after all need not be listed. -/
theorem same_unlist {p : Part} {ps qs : List Part} {s t : State} (h : SameOutside ps s t) (hp : p.same s t)
    (hps : ∀ q, q ∈ ps → q = p ∨ q ∈ qs) : SameOutside qs s t := by
  intro q hq
  by_cases hqp : q = p
  · exact hqp ▸ hp
  · exact h q fun hin => (hps q hin).elim hqp hq

/-! ### The interrupts of completions (R61, R65) -/

/-- The interrupts of a completion stand as before. -/
def CompletionIrqsKept (s t : State) : Prop :=
  ∀ b, b = irqCmdDone ∨ b = irqCring → bit (t.hbi.irqStat.setWidth 32) b = bit (s.hbi.irqStat.setWidth 32) b

theorem CompletionIrqsKept.of_hbi {s t : State} (h : t.hbi = s.hbi) : CompletionIrqsKept s t := fun b _ => by rw [h]

theorem CompletionIrqsKept.trans {s t u : State} (h : CompletionIrqsKept s t) (k : CompletionIrqsKept t u) : CompletionIrqsKept s u :=
  fun b hb => (k b hb).trans (h b hb)

theorem OnlyWakeIrq.completionIrqsKept {s t : State} (h : OnlyWakeIrq s t) : CompletionIrqsKept s t := fun _ hb => h.bit_eq hb

theorem completionIrqsKept_raise_irqEcc (s : State) : CompletionIrqsKept s (s.raise irqEcc) := by
  rintro b (rfl | rfl) <;> simp [bit, irqEcc, irqCmdDone, irqCring]

theorem completionIrqsKept_foldl {α : Type} {f : State → α → State} (hf : ∀ u a, CompletionIrqsKept u (f u a)) (l : List α) (s : State) :
    CompletionIrqsKept s (l.foldl f s) := by
  induction l generalizing s with
  | nil => exact .of_hbi rfl
  | cons a l ih => exact (hf s a).trans (ih (f s a))

theorem answerIrq_of_kept {s u : State} {src : CmdSrc} {c : CmdWords} {st : Nat} {after : BitVec 16} (h : CompletionIrqsKept s u)
    (k : answerIrq src c st u.hbi.irqStat after) : answerIrq src c st s.hbi.irqStat after := by
  cases src with
  | mailbox => exact k.trans (by rw [h _ (.inl rfl)])
  | ring => exact k.trans (by rw [h _ (.inr rfl)])

/-! ### A block that a command names (R50, R376) -/

theorem eccCorr_hbi (s : State) (src : Nat) (uncorr : Bool) (m o : Nat) (a : Word) :
    (s.eccCorr src uncorr m o a).hbi = (s.raise irqEcc).hbi := by
  simp only [State.eccCorr, State.logMem, State.raise, onHbi_hbi, count_hbi, onMem_hbi]

theorem eccUncorr_hbi (s : State) (src m o : Nat) (a : Word) : (s.eccUncorr src m o a).hbi = (s.raise irqEcc).hbi := by
  simp only [State.eccUncorr, State.logMem, State.raise, onHbi_hbi, count_hbi, onMem_hbi]

/-- An error met by a read raises the ECC interrupt alone (R381, R382); the SLVERR of its access is the memory part's (R385). -/
theorem completionIrqsKept_slvErr {s t : State} (m : Nat) (h : t.hbi = (s.raise irqEcc).hbi) : CompletionIrqsKept s (t.slvErr m) :=
  (completionIrqsKept_raise_irqEcc s).trans (.of_hbi h)

theorem completionIrqsKept_blockMet (s : State) (b : BlockAt) (n : Nat) : CompletionIrqsKept s (s.blockMet b n) := by
  cases b with
  | sram a => exact completionIrqsKept_foldl (fun u w => completionIrqsKept_slvErr 2 (eccCorr_hbi u ..)) _ s
  | pantry a => exact completionIrqsKept_foldl (fun u w => completionIrqsKept_slvErr 2 (eccUncorr_hbi u ..)) _ s

theorem reports_blockMet (s : State) (b : BlockAt) (n : Nat) : Reports s (s.blockMet b n) := by
  cases b with
  | sram a => exact reports_foldl (fun _ _ hu => reports_onMem _ (reports_eccCorr _ _ _ _ _ hu)) (Reports.refl s)
  | pantry a => exact reports_foldl (fun _ _ hu => reports_onMem _ (reports_eccUncorr _ _ _ _ hu)) (Reports.refl s)

theorem blockMet_same (s : State) (b : BlockAt) (n : Nat) : SameOutside [.hbi, .mem, .trace] s (s.blockMet b n) :=
  (foot_blockMet (Foot.refl [.hbi, .mem, .trace] s) (List.Subset.refl _)).1

/-! ### Acceptance -/

/-- A configuration command whose checks accept it, whatever other parts they change: it completes OK, and their changes stand. -/
theorem answers_config {row : Instr} {s u : State} {src : CmdSrc} {c : CmdWords} {isOp : Nat → Bool} {h : Handler} {ord : Nat}
    {cs : List Change} {r1 : Word} {ps : List Part} {P : State → Prop} (f : List Staged → List Staged)
    (hex : exec row s = .next (s.runRow isOp h src)) (ho : s.Offers src c) (hop : isOp c.op = true) (hcfg : isConfig c.op = true)
    (hv : c.op ≠ 0x70) (hck : h (ownCtx src c) (s.checking src c) = .config u ord cs r1)
    (hs : SameOutside (.hbi :: .trace :: .draw :: .cmd :: .mem :: ps) s u)
    (hcmd : u.cmd = { (s.checking src c).cmd with staged := f (s.checking src c).cmd.staged }) (hrep : Reports s u)
    (hirq : CompletionIrqsKept s u) (htime : u.pidxAt ord = s.pidxAt ord) (htil : TilesButRepack s u)
    (hP : ∀ t, SameOutside [.hbi, .trace, .draw, .cmd, .mem] u t → P t) :
    Answers row s src c stOk (s.pidxAt ord) r1 (fun m => CmdPath.accepts src c ord cs { m with staged := f m.staged }) u.mem ps P := by
  obtain ⟨hfront, hboot, hremoval, hmgmt, -, hcount, hepoch, hwings, hclean⟩ := ho
  have hfall : u.wingsNext ≤ u.lowMember := by
    rw [htil.wingsNext_eq, htil.lowMember_eq]
    exact hwings
  have hserve : s.runRow isOp h src = (u.accept (ownCtx src c) ord cs).complete (srcOf src) c stOk (s.pidxAt ord) r1 := by
    rw [runRow_front hfront hop, serve_checks h hclean hfront hboot hmgmt (fun _ => hcount) (by simp [isDefined, hcfg]) (fun e => absurd e hv)
      hepoch (fun _ => hremoval), hck, settle_config hfall, htime]
  have hbase : u.cmd.base = s.cmd.base ∧ u.cmd.head = s.cmd.head := by
    rw [hcmd]
    cases src <;> simp [State.checking, State.takeEntry]
  obtain ⟨gcmd, gmem, girq, grep⟩ := complete_eq (u.accept (ownCtx src c) ord cs) src c stOk (s.pidxAt ord) r1
    (by rintro rfl; exact congrArg CmdPath.mbox hcmd)
    (by rintro rfl; exact (congrArg CmdPath.takenBase hcmd).trans (congrArg CmdPath.base hcmd).symm)
  have hafter : SameOutside [.hbi, .trace, .draw, .cmd, .mem] u (s.runRow isOp h src) := by
    rw [hserve]
    exact (foot_complete (foot_accept (Foot.refl [.hbi, .trace, .draw, .cmd, .mem] u) (by decide)) (by decide)).1
  refine ⟨_, hex, same_trans hs hafter (List.Subset.refl _) (by simp), ?_, ?_, ?_, ?_, hP _ hafter⟩
  all_goals rw [hserve]
  · exact hrep.trans ((reports_onCmd _ (Reports.refl u)).trans grep)
  · rw [gcmd, if_pos rfl, ← accepts_answered_staged hfront f ord cs stOk (s.pidxAt ord) r1, ← hcmd]
    rfl
  · rw [gmem, gcmd, if_pos rfl]
    cases src with
    | mailbox => rfl
    | ring =>
      have hhead : (u.accept (ownCtx .ring c) ord cs).cmd.head = s.cmd.head := hbase.2
      have hring : (u.accept (ownCtx .ring c) ord cs).cmd.base = s.cmd.base := hbase.1
      simp only [State.answeredMem, hhead, hring]
      rfl
  · exact answerIrq_of_kept hirq girq

/-! ### What the checks read -/

@[simp] theorem checking_time (s : State) (src : CmdSrc) (c : CmdWords) : (s.checking src c).time = s.time :=
  checking_outside s src c .time (by decide)

@[simp] theorem checking_imdal (s : State) (src : CmdSrc) (c : CmdWords) : (s.checking src c).imdal = s.imdal :=
  checking_outside s src c .imdal (by decide)

theorem checking_mem {s : State} {src : CmdSrc} (c : CmdWords) (h : s.cleanEntry src) : (s.checking src c).mem = s.mem :=
  checking_outside_clean c h .mem (by decide)

theorem checking_reports {s : State} {src : CmdSrc} (c : CmdWords) (h : s.cleanEntry src) : Reports s (s.checking src c) :=
  reports_of_eq (Reports.refl s) (checking_outside_clean c h .hbi (by decide)) (checking_outside_clean c h .trace (by decide))

theorem checking_completionIrqsKept {s : State} {src : CmdSrc} (c : CmdWords) (h : s.cleanEntry src) :
    CompletionIrqsKept s (s.checking src c) :=
  .of_hbi (checking_outside_clean c h .hbi (by decide))

theorem readBlock_checking {s : State} {src : CmdSrc} {c : CmdWords} (h : s.cleanEntry src) (b : BlockAt) (n : Nat) :
    (s.checking src c).readBlock b n = s.readBlock b n := by
  rw [checking_same c h]
  rfl

theorem pidxAt_of_time {s u : State} (hpidx : u.time.pidx = s.time.pidx) (hord : u.time.ord = s.time.ord) (ord : Nat) :
    u.pidxAt ord = s.pidxAt ord := by
  rw [State.pidxAt, State.pidxAt, hpidx, hord]

@[simp] theorem effectOrd_armVotes (s : State) (legs : List Nat) : (s.armVotes legs).effectOrd = s.effectOrd := by
  rw [State.effectOrd, armVotes_same s legs .time (by decide)]
  rfl

theorem needDap_on {h : Handler} {x : Ctx} {s : State} (hd : s.domOn dDap = true) : needDap h x s = h x s := if_pos hd

/-! ### DAP_SET -/

section
variable {x : Ctx} {s t : State}

theorem dapA0Ok_of_dapSetArgsOk {c : CmdWords} (h : dapSetArgsOk t c = true) : dapA0Ok c.a0 = true := by
  cases ha0 : dapA0Ok c.a0 with
  | true => rfl
  | false => simp [dapSetArgsOk, ha0] at h

/-- A configure of a port (R234), with the block of A5. -/
def dapConfigure (c : CmdWords) (block : List Byte) : Change :=
  .dapSet (fld c.a0 0 4) (c.a0 &&& 0x003F01CF#32) c.a1 c.a2 c.a3 c.a4 c.a5 block

theorem dapSetChecked_configure (hw : s.wingsNext ≠ 0) (hop : fld x.cmd.a0 4 2 = 0) (hargs : dapSetArgsOk t x.cmd = true)
    (harm : (t.dapP (fld x.cmd.a0 0 4)).state ≠ .armed)
    (hfix : (t.dapP (fld x.cmd.a0 0 4)).started = true → dapFixedChange x.cmd (t.dapP (fld x.cmd.a0 0 4)) = false) (h5 : x.cmd.a5 = 0) :
    dapSetChecked x s t = .config s s.effectOrd [dapConfigure x.cmd []] 0 := by
  simpa [dapSetChecked, dapConfigure, dapA0Ok_of_dapSetArgsOk hargs, hop, hargs, hw, harm, h5] using hfix

theorem dapSetChecked_configure_block {b : BlockAt} (hw : s.wingsNext ≠ 0) (hop : fld x.cmd.a0 4 2 = 0) (hargs : dapSetArgsOk t x.cmd = true)
    (harm : (t.dapP (fld x.cmd.a0 0 4)).state ≠ .armed)
    (hfix : (t.dapP (fld x.cmd.a0 0 4)).started = true → dapFixedChange x.cmd (t.dapP (fld x.cmd.a0 0 4)) = false) (h5 : x.cmd.a5 ≠ 0#32)
    (hb : blockAt s.regions x.cmd.a5 96 = some b) :
    dapSetChecked x s t = .config (s.blockMet b 96) (s.blockMet b 96).effectOrd [dapConfigure x.cmd (s.readBlock b 96)] 0 := by
  simpa [dapSetChecked, dapConfigure, dapA0Ok_of_dapSetArgsOk hargs, hop, hargs, hw, harm, h5, hb] using hfix

theorem dapSetChecked_disable (ha0 : dapA0Ok x.cmd.a0 = true) (hw : s.wingsNext ≠ 0) (hop : fld x.cmd.a0 4 2 = 1)
    (hst : (t.dapP (fld x.cmd.a0 0 4)).state = .ready) :
    dapSetChecked x s t = .config s s.effectOrd [.dapDisable (fld x.cmd.a0 0 4)] 0 := by
  simp [dapSetChecked, ha0, hw, hop, hst]

theorem dapSetChecked_ack (ha0 : dapA0Ok x.cmd.a0 = true) (hw : s.wingsNext ≠ 0) (hop : fld x.cmd.a0 4 2 = 2)
    (hst : (t.dapP (fld x.cmd.a0 0 4)).state = .muted) (hmute : (t.dapP (fld x.cmd.a0 0 4)).mute = 3)
    (hqual : (t.dapP (fld x.cmd.a0 0 4)).qual = true) (hcls : classOk (t.dapP (fld x.cmd.a0 0 4)).cls = true) :
    dapSetChecked x s t = .config s s.effectOrd [.dapAck (fld x.cmd.a0 0 4)] 0 := by
  simp [dapSetChecked, ha0, hw, hop, hst, hmute, hqual, hcls]

theorem dapSetChecked_disarm (ha0 : dapA0Ok x.cmd.a0 = true) (hop : fld x.cmd.a0 4 2 = 3) (htrig : t.time.trig ≠ none) :
    dapSetChecked x s t = .config s s.effectOrd [.dapDisarm] 0 := by
  simp [dapSetChecked, ha0, hop, htrig]

end

/-! ### DAP_START -/

/-- A trigger armed (R235, R236): it stands, the arming of its ports is staged, and the ring is as given. -/
def State.trigArmed (s : State) (x : Ctx) (g : Trigger) (im : Imdal) : State :=
  ((s.onTime fun y => { y with trig := some g }).onImdal fun _ => im).onCmd fun m => { m with
    staged := m.staged ++ [Staged.mk g.fromOrd (.dapArm g.ports) x.src x.cmd] }

/-- A ring that is put in its own place changes nothing. -/
theorem onImdal_keep (s : State) (f : Time → Time) : ((s.onTime f).onImdal fun _ => s.imdal) = s.onTime f := rfl

/-- The ring does not see the trigger that stands. -/
theorem pointPlaced_onTime_trig (s : State) (g : Option Trigger) (pidx : Word) (k : Nat) :
    (s.onTime fun y => { y with trig := g }).pointPlaced pidx k = s.pointPlaced pidx k := rfl

theorem pointPlaced_checking {s : State} {src : CmdSrc} {c : CmdWords} (h : s.cleanEntry src) (pidx : Word) (k : Nat) :
    (s.checking src c).pointPlaced pidx k = s.pointPlaced pidx k := by
  rw [checking_same c h]
  rfl

/-- The ports of a DAP_START (R235). -/
def dapPorts (c : CmdWords) : BitVec 16 := c.a0.extractLsb' 0 16

section
variable {x : Ctx} {s : State} {tAt : Nat → State} {ord : Nat}

/-- The words and the member of a DAP_START are in order, its boundary can be named, and no trigger stands. -/
def DapStartOk (x : Ctx) (s : State) (ord : Nat) : Prop :=
  x.cmd.a0 &&& 0xFFE00000#32 = 0 ∧ x.cmd.a2 &&& 0xFFFFFFE0#32 = 0 ∧ zeroFrom x.cmd 3 ∧ s.namedOrd x.cmd.a1 = some ord ∧
    s.wingsNext ≠ 0 ∧ x.cmd.a0.extractLsb' 0 16 ≠ 0#16 ∧ s.time.trig = none

theorem dapStartChecked_stop (h : DapStartOk x s ord) (htrig : (tAt ord).time.trig = none) (hact : fld x.cmd.a0 16 2 = 1)
    (hst : ∀ p ∈ portsOf (dapPorts x.cmd),
      ((tAt ord).dapP p).state = .run ∨ ((tAt ord).dapP p).state = .muted ∨ ((tAt ord).dapP p).state = .armed) :
    dapStartChecked x s tAt = .config s ord [.dapStop (dapPorts x.cmd)] 0 := by
  obtain ⟨h0, h2, ⟨-, -, -, h3, h4, h5⟩, hord, hw, hports, hnone⟩ := h
  simpa [dapStartChecked, dapPorts, h0, h2, h3, h4, h5, hord, hw, hports, hnone, htrig, hact, Classical.or_iff_not_imp_left] using hst

theorem dapStartChecked_plain (h : DapStartOk x s ord) (htrig : (tAt ord).time.trig = none) (hact : fld x.cmd.a0 16 2 = 0)
    (hmode : fld x.cmd.a0 18 2 = 3) (hst : ∀ p ∈ portsOf (dapPorts x.cmd), ((tAt ord).dapP p).state = .ready)
    (hord : ord ≤ s.effectOrd) :
    dapStartChecked x s tAt = .config (s.armVotes (dapLegs (dapPorts x.cmd))) ord [.dapStart (dapPorts x.cmd)] 0 := by
  obtain ⟨h0, h2, ⟨-, -, -, h3, h4, h5⟩, hnamed, hw, hports, hnone⟩ := h
  simpa [dapStartChecked, dapPorts, h0, h2, h3, h4, h5, hnamed, hw, hports, hnone, htrig, hact, hmode, Nat.not_lt.2 hord] using hst

theorem dapStartChecked_plain_later (h : DapStartOk x s ord) (htrig : (tAt ord).time.trig = none) (hact : fld x.cmd.a0 16 2 = 0)
    (hmode : fld x.cmd.a0 18 2 = 3) (hst : ∀ p ∈ portsOf (dapPorts x.cmd), ((tAt ord).dapP p).state = .ready)
    (hord : s.effectOrd < ord) :
    dapStartChecked x s tAt = .config ((s.armVotes (dapLegs (dapPorts x.cmd))).onCmd fun m => { m with
      staged := m.staged ++ [Staged.mk s.effectOrd (.dapArm (dapPorts x.cmd)) x.src x.cmd] })
      ord [.dapStart (dapPorts x.cmd)] 0 := by
  obtain ⟨h0, h2, ⟨-, -, -, h3, h4, h5⟩, hnamed, hw, hports, hnone⟩ := h
  simpa [dapStartChecked, dapPorts, h0, h2, h3, h4, h5, hnamed, hw, hports, hnone, htrig, hact, hmode, hord] using hst

/-- The trigger that a DAP_START arms from a boundary on (R235), with its point where the command names it. -/
def dapTrigger (c : CmdWords) (fromOrd : Nat) (point : Option (Nat × Nat)) : Trigger where
  mode := BitVec.ofNat 2 (fld c.a0 18 2)
  ports := dapPorts c
  fwd := bit c.a0 20
  fromOrd := fromOrd
  point := point

theorem dapStartChecked_trigger (h : DapStartOk x s ord) (htrig : (tAt ord).time.trig = none) (hact : fld x.cmd.a0 16 2 = 0)
    (hmode : fld x.cmd.a0 18 2 = 1 ∨ fld x.cmd.a0 18 2 = 2) (hfwd : bit x.cmd.a0 20 = true → s.imdal.state = .enrolled)
    (hst : ∀ p ∈ portsOf (dapPorts x.cmd), ((tAt ord).dapP p).state = .ready) :
    dapStartChecked x s tAt = .config
      ((s.trigArmed x (dapTrigger x.cmd ord none) s.imdal).armVotes (dapLegs (dapPorts x.cmd))) ord [] 0 := by
  obtain ⟨h0, h2, ⟨-, -, -, h3, h4, h5⟩, hnamed, hw, hports, hnone⟩ := h
  have hring : ¬(bit x.cmd.a0 20 = true ∧ ¬s.imdal.state = .enrolled) := by simpa using hfwd
  have hne : fld x.cmd.a0 18 2 ≠ 0 ∧ fld x.cmd.a0 18 2 ≠ 3 := by omega
  simpa [dapStartChecked, dapPorts, State.trigArmed, dapTrigger, onImdal_keep, h0, h2, h3, h4, h5, hnamed, hw, hports, hnone, htrig, hact, hne, hring]
    using hst

theorem dapStartChecked_command (h : DapStartOk x s ord) (htrig : (tAt s.effectOrd).time.trig = none) (hact : fld x.cmd.a0 16 2 = 0)
    (hmode : fld x.cmd.a0 18 2 = 0) (hk : fld x.cmd.a2 0 5 < 24) (hfwd : bit x.cmd.a0 20 = true → s.imdal.state = .enrolled)
    (hst : ∀ p ∈ portsOf (dapPorts x.cmd), ((tAt s.effectOrd).dapP p).state = .ready) :
    dapStartChecked x s tAt = .config
      ((s.trigArmed x (dapTrigger x.cmd s.effectOrd (some (ord, fld x.cmd.a2 0 5)))
        (if bit x.cmd.a0 20 then s.pointPlaced (s.pidxAt ord) (fld x.cmd.a2 0 5) else s.imdal)).armVotes
        (dapLegs (dapPorts x.cmd))) ord [] 0 := by
  obtain ⟨h0, h2, ⟨-, -, -, h3, h4, h5⟩, hnamed, hw, hports, hnone⟩ := h
  cases hf : bit x.cmd.a0 20 with
  | false =>
    simpa [dapStartChecked, dapPorts, State.trigArmed, dapTrigger, onImdal_keep, h0, h2, h3, h4, h5, hnamed, hw, hports, hnone, htrig, hact, hmode,
      Nat.not_le.2 hk, hf] using hst
  | true =>
    simpa [dapStartChecked, dapPorts, State.trigArmed, dapTrigger, pointPlaced_onTime_trig, h0, h2, h3, h4, h5, hnamed, hw, hports, hnone, htrig, hact,
      hmode, Nat.not_le.2 hk, hf, hfwd hf] using hst

end

/-! ### The rows -/

theorem accepts_nil_staged (src : CmdSrc) (c : CmdWords) (ord o : Nat) (cs : List Change) (m : CmdPath) :
    CmdPath.accepts src c ord [] { m with staged := m.staged ++ stage src c o cs } = CmdPath.accepts src c o cs m := by
  simp [CmdPath.accepts, stage]

theorem trigArmed_same (s : State) (x : Ctx) (g : Trigger) (im : Imdal) (legs : List Nat) :
    SameOutside [.time, .hbi, .cmd, .imdal, .power, .trace] s ((s.trigArmed x g im).armVotes legs) := by
  have harmed : Foot [.time, .hbi, .cmd, .imdal, .power, .trace] s (s.trigArmed x g im) :=
    foot_onCmd (foot_onImdal (foot_onTime (Foot.refl _ s) (by decide) fun k => k) (by decide)) (by decide) fun k => k
  exact (foot_armVotes harmed (by decide)).1

theorem trigArmed_armVotes_time (s : State) (x : Ctx) (g : Trigger) (im : Imdal) (legs : List Nat) :
    ((s.trigArmed x g im).armVotes legs).time = { s.time with trig := some g } :=
  armVotes_same _ legs .time (by decide)

theorem trigArmed_armVotes_imdal (s : State) (x : Ctx) (g : Trigger) (im : Imdal) (legs : List Nat) :
    ((s.trigArmed x g im).armVotes legs).imdal = im :=
  armVotes_same _ legs .imdal (by decide)

theorem completionIrqsKept_trigArmed (s : State) (x : Ctx) (g : Trigger) (im : Imdal) (legs : List Nat) :
    CompletionIrqsKept s ((s.trigArmed x g im).armVotes legs) :=
  CompletionIrqsKept.trans (t := s.trigArmed x g im) (.of_hbi rfl) (onlyWakeIrq_armVotes _ legs).completionIrqsKept

theorem reports_trigArmed (s : State) (x : Ctx) (g : Trigger) (im : Imdal) (legs : List Nat) :
    Reports s ((s.trigArmed x g im).armVotes legs) :=
  reports_armVotes legs (reports_onCmd _ (reports_onImdal _ (reports_onTime _ (Reports.refl s))))

/-- A DAP_START whose checks arm a trigger: the trigger stands, the arming is staged, the ring is as given (R94, R235, R236). -/
theorem answers_trigArmed {s : State} {src : CmdSrc} {c : CmdWords} {ord : Nat} {g : Trigger} {im : Imdal} {legs : List Nat}
    (ho : s.Offers src c) (hop : c.op = 0x31)
    (hck : onDapStart (ownCtx src c) (s.checking src c) =
      .config (((s.checking src c).trigArmed (ownCtx src c) g im).armVotes legs) ord [] 0) :
    Answers (.dapStart src) s src c stOk (s.pidxAt ord) 0 (CmdPath.accepts src c g.fromOrd [.dapArm g.ports]) s.mem [.time, .imdal, .power]
      fun z => z.time = { s.time with trig := some g } ∧ z.imdal = im := by
  have hbefore := checking_outside_clean c ho.cleanEntry
  have hvotes := armVotes_same ((s.checking src c).trigArmed (ownCtx src c) g im) legs
  have htime := trigArmed_armVotes_time (s.checking src c) (ownCtx src c) g im legs
  rw [checking_time] at htime
  have himdal := trigArmed_armVotes_imdal (s.checking src c) (ownCtx src c) g im legs
  have hmem := (hvotes .mem (by decide)).trans (checking_mem c ho.cleanEntry)
  have hstaged := funext fun m => accepts_nil_staged src c ord g.fromOrd [.dapArm g.ports] m
  rw [← hmem, ← hstaged]
  refine answers_config (· ++ stage src c g.fromOrd [.dapArm g.ports]) rfl ho (by simp [hop]) (by rw [hop]; rfl) (by simp [hop]) hck ?_
    (hvotes .cmd (by decide)) ?_ ?_ (pidxAt_of_time (by rw [htime]) (by rw [htime]) ord) ?_
    fun t ht => ⟨(ht .time (by decide)).trans htime, (ht .imdal (by decide)).trans himdal⟩
  · exact same_trans hbefore (trigArmed_same _ _ g im legs) (by decide) (by decide)
  · exact (checking_reports c ho.cleanEntry).trans (reports_trigArmed _ _ g im legs)
  · exact (checking_completionIrqsKept c ho.cleanEntry).trans (completionIrqsKept_trigArmed _ _ g im legs)
  · exact .of_tiles ((hvotes .tiles (by decide)).trans (hbefore .tiles (by decide)))

/-- A DAP_START whose checks place the votes of a start, and may stage an arming before it, is accepted (R236, R395). -/
theorem answers_dapStart {s : State} {src : CmdSrc} {c : CmdWords} {ord : Nat} {ports : BitVec 16} {legs : List Nat}
    (f : List Staged → List Staged) (ho : s.Offers src c) (hop : c.op = 0x31)
    (hck : onDapStart (ownCtx src c) (s.checking src c) =
      .config (((s.checking src c).armVotes legs).onCmd fun m => { m with staged := f m.staged }) ord [.dapStart ports] 0) :
    Answers (.dapStart src) s src c stOk (s.pidxAt ord) 0 (fun m => CmdPath.accepts src c ord [.dapStart ports] { m with staged := f m.staged })
      s.mem [.power] fun _ => True := by
  have hvotes := armVotes_same (s.checking src c) legs
  refine accepts_changing f rfl ho (by simp [hop]) (by rw [hop]; rfl) (by simp [hop]) hck (by decide) ?_
    (by rw [onCmd_cmd, hvotes .cmd (by decide)]) (reports_onCmd _ (reports_armVotes legs (Reports.refl _)))
    ((onlyWakeIrq_armVotes _ legs).trans (.of_hbi rfl)) (.of_tiles (hvotes .tiles (by decide))) fun _ _ => trivial
  exact (foot_onCmd (foot_armVotes (Foot.refl [.hbi, .trace, .cmd, .power] _) (by decide)) (by decide) fun k => k).1

/-- A DAP_START that leaves the ring as it is changes the timebase and votes alone. -/
theorem answers_unlist_imdal {row : Instr} {s : State} {src : CmdSrc} {c : CmdWords} {r0 r1 : Word} {k : CmdPath → CmdPath} {m : Memory}
    {P : State → Prop}
    (h : Answers row s src c stOk r0 r1 k m [.time, .imdal, .power] fun z => P z ∧ z.imdal = s.imdal) :
    Answers row s src c stOk r0 r1 k m [.time, .power] P := by
  obtain ⟨t, hex, hsame, hrep, hcmd, hmem, hirq, hP, himdal⟩ := h
  exact ⟨t, hex, same_unlist (p := .imdal) hsame himdal (by decide), hrep, hcmd, hmem, hirq, hP⟩

/-- A DAP_SET whose checks read a block is accepted; memory is as the read leaves it (R234, R376). -/
theorem answers_blockMet {s : State} {src : CmdSrc} {c : CmdWords} {ch : Change} {b : BlockAt} {n : Nat} (ho : s.Offers src c)
    (hop : c.op = 0x30)
    (hck : onDapSet (ownCtx src c) (s.checking src c) =
      .config ((s.checking src c).blockMet b n) ((s.checking src c).blockMet b n).effectOrd [ch] 0) :
    Answers (.dapSet src) s src c stOk (s.pidxAt s.effectOrd) 0 (CmdPath.accepts src c s.effectOrd [ch])
      ((s.checking src c).blockMet b n).mem [] fun _ => True := by
  have hbefore := checking_outside_clean c ho.cleanEntry
  have hmet := blockMet_same (s.checking src c) b n
  have htime : ((s.checking src c).blockMet b n).time = s.time := (hmet .time (by decide)).trans (checking_time s src c)
  have hord : ((s.checking src c).blockMet b n).effectOrd = s.effectOrd := by
    rw [State.effectOrd, htime]
    rfl
  rw [hord] at hck
  refine answers_config id rfl ho (by simp [hop]) (by rw [hop]; rfl) (by simp [hop]) hck ?_ (hmet .cmd (by decide)) ?_ ?_
    (pidxAt_of_time (by rw [htime]) (by rw [htime]) _) ?_ fun _ _ => trivial
  · exact same_trans hbefore hmet (by decide) (by decide)
  · exact (checking_reports c ho.cleanEntry).trans (reports_blockMet _ b n)
  · exact (checking_completionIrqsKept c ho.cleanEntry).trans (completionIrqsKept_blockMet _ b n)
  · exact .of_tiles ((hmet .tiles (by decide)).trans (hbefore .tiles (by decide)))

/-- Settles O22: the checks of each action accept by the lemma of its case; DAP_SET's block and the triggers of DAP_START change other parts
beside the command path, by answers_config. -/
theorem dapCommandsAccepted : Obligations.DapCommandsAccepted := by
  constructor
  · intro s src c ho hop hdap u t p d takes sets
    have hrow : onDapSet (ownCtx src c) u = dapSetChecked (ownCtx src c) u t :=
      (needPantry_on (by simpa [u] using ho.pantryOn)).trans (needDap_on (by simpa [u] using hdap))
    have hord : u.effectOrd = s.effectOrd := checking_effectOrd
    have haccept {ch : Change} (hck : dapSetChecked (ownCtx src c) u t = .config u u.effectOrd [ch] 0) : takes s.mem ch := by
      rw [hord] at hck
      exact accepts_row_id rfl ho (by simp [hop]) (by rw [hop]; rfl) (by simp [hop]) (hrow.trans hck)
    have hw' : s.wingsNext ≠ 0 → u.wingsNext ≠ 0 := fun hw => by simpa [u] using hw
    refine ⟨fun hw hact hargs harm hfix => ⟨fun h5 => ?_, fun b h5 hb => ?_⟩, fun ha0 =>
      ⟨fun hw hact hst => ?_, fun hw hact hst hmute hqual hcls => ?_, fun hact htrig => ?_⟩⟩
    · exact haccept (dapSetChecked_configure (x := ownCtx src c) (hw' hw) hact hargs harm hfix h5)
    · have hck := hrow.trans (dapSetChecked_configure_block (x := ownCtx src c) (hw' hw) hact hargs harm hfix h5 hb)
      rw [show u.readBlock b 96 = s.readBlock b 96 from readBlock_checking ho.cleanEntry b 96] at hck
      exact answers_blockMet ho hop hck
    · exact haccept (dapSetChecked_disable (x := ownCtx src c) ha0 (hw' hw) hact hst)
    · exact haccept (dapSetChecked_ack (x := ownCtx src c) ha0 (hw' hw) hact hst hmute hqual hcls)
    · exact haccept (dapSetChecked_disarm (x := ownCtx src c) ha0 hact htrig)
  · intro s src c ord ho hop hdap h0 h2 hz hnamed u ports mode fwd t hw hports htrig hnone
    have hrow : onDapStart (ownCtx src c) u = dapStartChecked (ownCtx src c) u u.project :=
      (needPantry_on (by simpa [u] using ho.pantryOn)).trans (needDap_on (by simpa [u] using hdap))
    have hord : u.effectOrd = s.effectOrd := checking_effectOrd
    have hok : DapStartOk (ownCtx src c) u ord :=
      ⟨h0, h2, hz, by simpa [u] using hnamed, by simpa [u] using hw, hports, by simpa [u] using hnone⟩
    have himdal : u.imdal = s.imdal := checking_imdal s src c
    have hfwd' : (fwd = true → s.imdal.state = .enrolled) → bit (ownCtx src c).cmd.a0 20 = true → u.imdal.state = .enrolled := by
      rw [himdal]
      exact id
    refine ⟨fun hact hst => ?_, fun hact hst => ⟨fun hmode hle => ?_, fun hmode hlt => ?_, fun hmode hfwd => ?_, fun hmode hk hfwd => ?_⟩⟩
    · have ht : t = u.project ord := by simp [t, hact]
      rw [ht] at htrig hst
      exact accepts_row_id rfl ho (by simp [hop]) (by rw [hop]; rfl) (by simp [hop]) (hrow.trans (dapStartChecked_stop hok htrig hact hst))
    · have ht : t = u.project ord := by simp [t, hmode]
      rw [ht] at htrig hst
      have hck := hrow.trans (dapStartChecked_plain hok htrig hact hmode hst (hord ▸ hle))
      exact answers_dapStart id ho hop hck
    · have ht : t = u.project ord := by simp [t, hmode]
      rw [ht] at htrig hst
      have hck := hrow.trans (dapStartChecked_plain_later hok htrig hact hmode hst (hord ▸ hlt))
      rw [hord] at hck
      exact answers_dapStart (· ++ stage src c s.effectOrd [.dapArm ports]) ho hop hck
    · have ht : t = u.project ord := congrArg u.project (if_neg (by omega))
      rw [ht] at htrig hst
      have hck := hrow.trans (dapStartChecked_trigger hok htrig hact hmode (hfwd' hfwd) hst)
      rw [himdal] at hck
      have hdone := answers_trigArmed ho hop hck
      exact answers_unlist_imdal hdone
    · have ht : t = u.project u.effectOrd := by simp [t, hact, hmode]
      rw [ht] at htrig hst
      have hck := hrow.trans (dapStartChecked_command hok htrig hact hmode hk (hfwd' hfwd) hst)
      have htrigger : dapTrigger c s.effectOrd (some (ord, fld c.a2 0 5)) = ⟨0, ports, fwd, s.effectOrd, some (ord, fld c.a2 0 5)⟩ := by
        rw [dapTrigger, show fld c.a0 18 2 = 0 from hmode]
        rfl
      rw [hord, himdal, pointPlaced_checking ho.cleanEntry, pidxAt_of_time (s := s) (by simp [u]) (by simp [u]), htrigger] at hck
      have hdone := answers_trigArmed ho hop hck
      exact hdone

end Sys2Proof.Machine
end

section
/-! SUPPORT. STREAM_SET and STREAM_PAUSE (R287 to R294): what arming a start leaves of the streams, what the checks of both commands answer where
they accept, and from that the statement StreamCommandsAccepted. -/

namespace Sys2Proof.Machine

/-! ### One stream -/

/-- Streams are read from the media part. -/
theorem strm_of_media {s t : State} (h : t.media = s.media) (tx : Bool) (n : Nat) : t.strm tx n = s.strm tx n := by
  rw [State.strm, State.strm, State.txS, State.rxS, h]
  rfl

@[simp] theorem onStrm_self (s : State) (tx : Bool) (n : Nat) (f : Stream → Stream) : (s.onStrm tx n f).strm tx n = f (s.strm tx n) := by
  cases tx with
  | true => exact onTxS_self s n f
  | false => exact onRxS_self s n f

theorem checking_strm (s : State) (src : CmdSrc) (c : CmdWords) (tx : Bool) (n : Nat) : (s.checking src c).strm tx n = s.strm tx n :=
  strm_of_media (checking_outside s src c .media (by decide)) tx n

theorem strmOnly_onStrm (s : State) (tx : Bool) (n : Nat) (f : Stream → Stream) : State.StrmOnly tx n s (s.onStrm tx n f) := by
  intro d m hne
  cases tx <;> cases d
  case false.false => exact onRxS_ne s f (hne.resolve_left fun h => h rfl)
  case false.true => rfl
  case true.false => rfl
  case true.true => exact onTxS_ne s f (hne.resolve_left fun h => h rfl)

theorem State.StrmOnly.refl (tx : Bool) (n : Nat) (s : State) : State.StrmOnly tx n s s := fun _ _ _ => rfl

theorem State.StrmOnly.trans {tx : Bool} {n : Nat} {s t u : State} (h : State.StrmOnly tx n s t) (k : State.StrmOnly tx n t u) :
    State.StrmOnly tx n s u := fun d m hne => (k d m hne).trans (h d m hne)

theorem State.StrmOnly.of_strm {tx : Bool} {n : Nat} {s t : State} (h : ∀ d m, t.strm d m = s.strm d m) : State.StrmOnly tx n s t :=
  fun d m _ => h d m

/-- A membership report changes no stream (R304). -/
theorem strm_report (s : State) (k : Nat) (leave fresh tx : Bool) (n : Nat) : (s.report k leave fresh).strm tx n = s.strm tx n := by
  refine List.foldlRecOn (motive := fun u : State => u.strm tx n = s.strm tx n) (upto 2) _ rfl fun u hu p _ => ?_
  dsimp only
  split
  · exact Eq.trans rfl hu
  · exact hu

theorem reports_report {s t : State} (k : Nat) (leave fresh : Bool) (h : Reports s t) : Reports s (t.report k leave fresh) :=
  reports_of_eq h ((foot_report (Foot.refl [.media] t) (List.Subset.refl _)).1 .hbi (by decide))
    ((foot_report (Foot.refl [.media] t) (List.Subset.refl _)).1 .trace (by decide))

/-! ### A stream that is armed to start (R294) -/

theorem strm_record (s : State) (cls : Nat) (pay : Word) (tx : Bool) (n : Nat) : (s.record cls pay).strm tx n = s.strm tx n :=
  strm_of_media (record_same s cls pay .media (by decide)) tx n

theorem strState_self (s : State) (tx : Bool) (n : Nat) (st : StreamState) :
    (s.strState tx n st).strm tx n = { s.strm tx n with state := st } := by
  unfold State.strState
  split
  · next h => rw [← h]
  · rw [strm_record, onStrm_self]

theorem strmOnly_strState (s : State) (tx : Bool) (n : Nat) (st : StreamState) : State.StrmOnly tx n s (s.strState tx n st) := by
  unfold State.strState
  split
  · exact State.StrmOnly.refl tx n s
  · exact (strmOnly_onStrm s tx n _).trans (.of_strm (strm_record _ _ _))

/-- A stream that enters ARMED changes its state, and an RX stream the instant of its next report. -/
theorem streamArm_self (s : State) (tx : Bool) (n : Nat) :
    (s.streamArm tx n).strm tx n = { s.strm tx n with state := .armed, reportMono := ((s.streamArm tx n).strm tx n).reportMono } := by
  cases tx with
  | true =>
    have harm : (s.streamArm true n).strm true n = { s.strm true n with state := .armed } := strState_self s true n .armed
    rw [harm]
  | false =>
    have harm : (s.streamArm false n).strm false n =
        { s.strm false n with state := .armed, reportMono := (s.strState false n .armed).monoNs } := by
      refine (onStrm_self _ false n _).trans ?_
      rw [strm_report, strState_self]
    rw [harm]

theorem strmOnly_streamArm (s : State) (tx : Bool) (n : Nat) : State.StrmOnly tx n s (s.streamArm tx n) := by
  have hstate := strmOnly_strState s tx n .armed
  cases tx with
  | true => exact hstate
  | false => exact (hstate.trans (.of_strm (strm_report _ n false true))).trans (strmOnly_onStrm _ false n _)

theorem reports_streamArm {s t : State} (tx : Bool) (n : Nat) (h : Reports s t) : Reports s (t.streamArm tx n) := by
  have hstate := reports_strState tx n .armed h
  cases tx with
  | true => exact hstate
  | false => exact reports_onMedia _ (reports_report n false true hstate)

/-- A start or pause joins what is armed at a stream (R292). -/
def State.actArmed (s : State) (tx : Bool) (n : Nat) (pause : Bool) (ord : Nat) : State :=
  s.onStrm tx n fun y => { y with armed := y.armed ++ [{ pause := pause, ord := ord }] }

/-- A start joins what is armed, and an IDLE stream enters ARMED (R292, R294). -/
def State.startArmed (s : State) (tx : Bool) (n ord : Nat) : State :=
  if (s.strm tx n).state = .idle then (s.actArmed tx n false ord).streamArm tx n else s.actArmed tx n false ord

section
variable (s : State) (tx : Bool) (n ord : Nat)

theorem actArmed_self (pause : Bool) :
    (s.actArmed tx n pause ord).strm tx n = { s.strm tx n with armed := (s.strm tx n).armed ++ [{ pause := pause, ord := ord }] } :=
  onStrm_self s tx n _

theorem strmOnly_actArmed (pause : Bool) : State.StrmOnly tx n s (s.actArmed tx n pause ord) := strmOnly_onStrm s tx n _

theorem actArmed_same (pause : Bool) : SameOutside [.media] s (s.actArmed tx n pause ord) :=
  (foot_onStrm (Foot.refl [.media] s) (List.Subset.refl _)).1

theorem startArmed_self : (s.startArmed tx n ord).strm tx n = { s.strm tx n with
    armed := (s.strm tx n).armed ++ [{ pause := false, ord := ord }]
    state := if (s.strm tx n).state = .idle then .armed else (s.strm tx n).state
    reportMono := ((s.startArmed tx n ord).strm tx n).reportMono } := by
  unfold State.startArmed
  split
  · refine (streamArm_self _ tx n).trans ?_
    rw [actArmed_self]
  · rw [actArmed_self]

theorem strmOnly_startArmed : State.StrmOnly tx n s (s.startArmed tx n ord) := by
  have hact := strmOnly_actArmed s tx n ord false
  unfold State.startArmed
  split
  · exact hact.trans (strmOnly_streamArm _ tx n)
  · exact hact

theorem startArmed_same : SameOutside [.media, .trace, .draw] s (s.startArmed tx n ord) := by
  have hact : Foot [.media, .trace, .draw] s (s.actArmed tx n false ord) := foot_onStrm (Foot.refl _ s) (by decide)
  exact (foot_ite (fun _ => foot_streamArm hact (List.Subset.refl _)) fun _ => hact).1

theorem reports_startArmed : Reports s (s.startArmed tx n ord) := by
  have hact : Reports s (s.actArmed tx n false ord) := reports_onStrm tx n _ (Reports.refl s)
  exact reports_ite (reports_streamArm tx n hact) hact

end

/-- The words of a stream command name one stream, and those it does not use are zero (R287, R292). -/
def NamesStream (c : CmdWords) (tx : Bool) (n : Nat) : Prop :=
  c.a0 &&& 0xFFFFC000#32 = 0 ∧ bit c.a0 11 = tx ∧ fld c.a0 0 11 = n ∧ zeroFrom c 2

/-! ### STREAM_SET -/

/-- A block clashes with nothing that a stream has: no other RX stream (R290), the channels and the rate of its Legs, and, unless the stream
is IDLE, its own block but for what a limited configure may change (R293). -/
def BlockFits (t : State) (tx : Bool) (n : Nat) (b : List Byte) : Prop :=
  (tx = false → ∀ y ∈ t.media.rx, y.1 ≠ n → y.2.conf = true → strClash b y.2.block = false) ∧
    (∀ l ∈ t.legsOn tx n, (if tx then txCh l.2.a1 else rxCh l.2.a1) < strCh b) ∧
    ((t.strm tx n).conf = true → t.legsOn tx n ≠ [] → strRate b = strRate (t.strm tx n).block) ∧
    ((t.strm tx n).state ≠ .idle → strFixed tx b = strFixed tx (t.strm tx n).block)

section
variable {x : Ctx} {s t : State} {tx : Bool} {n : Nat} (hx : NamesStream x.cmd tx n)
include hx

theorem streamSetChecked_release (hop : fld x.cmd.a0 12 2 = 1) (hconf : (t.strm tx n).conf = true) (hidle : (t.strm tx n).state = .idle)
    (harm : (t.strm tx n).armed = []) (hlegs : t.legsOn tx n = []) :
    streamSetChecked x s t = .config s s.effectOrd [.streamRelease tx n] 0 := by
  obtain ⟨h0, rfl, rfl, -, -, h2, h3, h4, h5⟩ := hx
  simp [streamSetChecked, h0, h2, h3, h4, h5, hop, hconf, hidle, harm, hlegs]

theorem streamSetChecked_configure {b : BlockAt} (hop : fld x.cmd.a0 12 2 = 0) (hb : blockAt s.regions x.cmd.a1 128 = some b)
    (hok : strBlockOk (s.readBlock b 128) tx = true) (hfits : BlockFits t tx n (s.readBlock b 128)) :
    streamSetChecked x s t = .config (s.blockMet b 128) s.effectOrd [.streamSet tx n (s.readBlock b 128)] 0 := by
  obtain ⟨h0, rfl, rfl, -, -, h2, h3, h4, h5⟩ := hx
  obtain ⟨hclash, hch, hrate, hfixed⟩ := hfits
  simpa [streamSetChecked, h0, h2, h3, h4, h5, hop, hb, hok] using
    ⟨⟨⟨fun hrx i y hy => hclash hrx (i, y) hy, fun l y hl => hch (l, y) hl⟩, hrate⟩, hfixed⟩

end

/-! ### STREAM_PAUSE -/

section
variable {x : Ctx} {s : State} {tAt : Nat → State} {tx : Bool} {n : Nat} (hx : NamesStream x.cmd tx n)
include hx

theorem streamPauseChecked_pause {ord : Nat} (hact : fld x.cmd.a0 12 2 = 0) (hord : s.namedOrd x.cmd.a1 = some ord)
    (harm : ((tAt ord).strm tx n).armed = []) (hflows : ((tAt ord).strm tx n).state ≠ .idle) (hnot : ((tAt ord).strm tx n).state ≠ .armed) :
    streamPauseChecked x s tAt = .config (s.actArmed tx n true ord) ord [.streamAct tx n true] (s.unstated 1) := by
  obtain ⟨h0, rfl, rfl, -, -, h2, h3, h4, h5⟩ := hx
  simp [streamPauseChecked, State.actArmed, h0, h2, h3, h4, h5, hact, hord, harm, hflows, hnot]

theorem streamPauseChecked_start {ord : Nat} (hact : fld x.cmd.a0 12 2 = 1) (hord : s.namedOrd x.cmd.a1 = some ord)
    (harm : ((tAt ord).strm tx n).armed = []) (hconf : ((tAt ord).strm tx n).conf = true) (hidle : ((tAt ord).strm tx n).state = .idle) :
    streamPauseChecked x s tAt = .config ((s.startArmed tx n ord).armVotes ((s.legsOn tx n).map (·.1))) ord [.streamAct tx n false]
      (s.unstated 1) := by
  obtain ⟨h0, rfl, rfl, -, -, h2, h3, h4, h5⟩ := hx
  simp [streamPauseChecked, State.startArmed, State.actArmed, h0, h2, h3, h4, h5, hact, hord, harm, hconf, hidle]

theorem streamPauseChecked_cancel {a : Armed} (hact : fld x.cmd.a0 12 2 = 2) (ha : a ∈ (s.strm tx n).armed) (hord : s.effectOrd ≤ a.ord) :
    streamPauseChecked x s tAt = .config (s.onCmd fun m => { m with staged := dropStreamAct tx n s.effectOrd m.staged }) s.effectOrd
      [.streamCancel tx n] (s.unstated 1) := by
  have hstill : ∃ g ∈ (s.strm tx n).armed, s.effectOrd ≤ g.ord := ⟨a, ha, hord⟩
  obtain ⟨h0, rfl, rfl, -, -, h2, h3, h4, h5⟩ := hx
  simpa [streamPauseChecked, h0, h2, h3, h4, h5, hact] using hstill

end

/-! ### The rows -/

/-- A configuration command whose checks read a block and change nothing else is accepted; memory is as the read leaves it (R376). -/
theorem answers_blockRead {row : Instr} {s : State} {src : CmdSrc} {c : CmdWords} {isOp : Nat → Bool} {h : Handler} {ord : Nat} {cs : List Change}
    {r1 : Word} {b : BlockAt} {n : Nat} (hex : exec row s = .next (s.runRow isOp h src)) (ho : s.Offers src c) (hop : isOp c.op = true)
    (hcfg : isConfig c.op = true) (hv : c.op ≠ 0x70)
    (hck : h (ownCtx src c) (s.checking src c) = .config ((s.checking src c).blockMet b n) ord cs r1) :
    Answers row s src c stOk (s.pidxAt ord) r1 (CmdPath.accepts src c ord cs) ((s.checking src c).blockMet b n).mem [] fun _ => True := by
  have hbefore := checking_outside_clean c ho.cleanEntry
  have hmet := blockMet_same (s.checking src c) b n
  have htime : ((s.checking src c).blockMet b n).time = s.time := (hmet .time (by decide)).trans (checking_time s src c)
  refine answers_config id hex ho hop hcfg hv hck (same_trans hbefore hmet (by decide) (by decide)) (hmet .cmd (by decide)) ?_ ?_
    (pidxAt_of_time (by rw [htime]) (by rw [htime]) _) (.of_tiles ((hmet .tiles (by decide)).trans (hbefore .tiles (by decide)))) fun _ _ => trivial
  · exact (checking_reports c ho.cleanEntry).trans (reports_blockMet _ b n)
  · exact (checking_completionIrqsKept c ho.cleanEntry).trans (completionIrqsKept_blockMet _ b n)

/-- A STREAM_PAUSE whose checks arm a start or a pause is accepted, and its stream stands as the checks leave it. -/
theorem accepts_streamAct {s t : State} {src : CmdSrc} {c : CmdWords} {ord : Nat} {ch : Change} {ps : List Part} {P : State → Prop}
    (ho : s.Offers src c) (hop : c.op = 0x41) (hps : ps ⊆ [.media, .power])
    (hck : streamPauseChecked (ownCtx src c) (s.checking src c) (s.checking src c).project = .config t ord [ch] ((s.checking src c).unstated 1))
    (hs : SameOutside (.hbi :: .trace :: .draw :: ps) (s.checking src c) t) (hrep : Reports (s.checking src c) t)
    (hirq : OnlyWakeIrq (s.checking src c) t) (hP : ∀ z, (∀ d m, z.strm d m = t.strm d m) → P z) :
    AcceptsFree (.streamPause src) s src c ord [ch] ps P := by
  have hbefore := checking_outside_clean c ho.cleanEntry
  have hother : ∀ p, p ∉ [Part.hbi, .trace, .draw, .media, .power] → p.same (s.checking src c) t := fun p hp =>
    hs p fun hin => hp (List.cons_subset_cons _ (List.cons_subset_cons _ (List.cons_subset_cons _ hps)) hin)
  have hmem : t.mem = s.mem := (hother .mem (by decide)).trans (checking_mem c ho.cleanEntry)
  have htime : t.time = s.time := (hother .time (by decide)).trans (checking_time s src c)
  have hrow : onStreamPause (ownCtx src c) (s.checking src c) = _ := (needPantry_on (by simpa using ho.pantryOn)).trans hck
  rw [checking_unstated ho.cleanEntry 1] at hrow
  have hdone := answers_config (row := .streamPause src) (ps := ps) (P := P) id rfl ho (by simp [hop]) (by rw [hop]; rfl) (by simp [hop]) hrow
    (same_trans hbefore hs (by simp) (List.cons_subset_cons _ (List.cons_subset_cons _ (List.cons_subset_cons _
      (List.subset_cons_of_subset _ (List.subset_cons_of_subset _ (List.Subset.refl ps)))))))
    (hother .cmd (by decide)) ((checking_reports c ho.cleanEntry).trans hrep)
    ((checking_completionIrqsKept c ho.cleanEntry).trans hirq.completionIrqsKept) (pidxAt_of_time (by rw [htime]) (by rw [htime]) ord)
    (.of_tiles ((hother .tiles (by decide)).trans (checking_tiles s src c))) fun z hz => hP z (strm_of_media (hz .media (by decide)))
  rw [hmem] at hdone
  exact hdone

/-- Settles O23: the checks of each action accept by the lemma of its case; a configure reads its block by answers_blockRead, a start and a pause are
armed by accepts_streamAct, a cancel withdraws what is staged by accepts_changing. -/
theorem streamCommandsAccepted : Obligations.StreamCommandsAccepted := by
  intro s src c ho h0 hz u t n tx cur
  have hx : NamesStream c tx n := ⟨h0, rfl, rfl, hz⟩
  have hpantry : u.domOn dPantry = true := by simpa [u] using ho.pantryOn
  have hord : u.effectOrd = s.effectOrd := checking_effectOrd
  have hstrm : ∀ d m, u.strm d m = s.strm d m := checking_strm s src c
  refine ⟨fun hop hact hconf hidle harm hlegs => ?_, fun b hop hact hb => ?_, fun ord hop hnamed => ?_, fun a ha hop hact hle => ?_⟩
  · have hck : onStreamSet (ownCtx src c) u = _ :=
      (needPantry_on hpantry).trans (streamSetChecked_release (x := ownCtx src c) (t := t) hx hact hconf hidle harm hlegs)
    rw [hord] at hck
    exact accepts_row_id rfl ho (by simp [hop]) (by rw [hop]; rfl) (by simp [hop]) hck
  · intro block hok hclash hch hrate hfixed
    have hread : u.readBlock b 128 = block := readBlock_checking ho.cleanEntry b 128
    rw [← hread] at hok hclash hch hrate hfixed ⊢
    have hck : onStreamSet (ownCtx src c) u = _ := (needPantry_on hpantry).trans
      (streamSetChecked_configure (x := ownCtx src c) (t := t) hx hact hb hok ⟨hclash, hch, hrate, hfixed⟩)
    rw [hord] at hck
    exact answers_blockRead rfl ho (by simp [hop]) (by rw [hop]; rfl) (by simp [hop]) hck
  · intro then_ harm
    have hnamed' : u.namedOrd c.a1 = some ord := by simpa [u] using hnamed
    refine ⟨fun hact hflows hnot => ?_, fun hact hconf hidle => ?_⟩
    · have hsame := actArmed_same u tx n ord true
      refine accepts_streamAct ho hop (by decide) (streamPauseChecked_pause (x := ownCtx src c) hx hact hnamed' harm hflows hnot)
        (same_trans hsame (Foot.refl [] _).1 (by decide) (by decide)) (reports_onStrm tx n _ (Reports.refl u))
        (.of_hbi (hsame .hbi (by decide))) fun z hstands => ⟨?_, ?_⟩
      · rw [hstands, actArmed_self, hstrm]
      · exact ((State.StrmOnly.of_strm hstrm).trans (strmOnly_actArmed u tx n ord true)).trans (.of_strm hstands)
    · have hvotes := armVotes_same (u.startArmed tx n ord) ((u.legsOn tx n).map (·.1))
      have hkept := strm_of_media (hvotes .media (by decide))
      refine accepts_streamAct ho hop (by decide) (streamPauseChecked_start (x := ownCtx src c) hx hact hnamed' harm hconf hidle)
        (same_trans (startArmed_same u tx n ord) hvotes (by decide) (by decide)) (reports_armVotes _ (reports_startArmed u tx n ord))
        ((OnlyWakeIrq.of_hbi (startArmed_same u tx n ord .hbi (by decide))).trans (onlyWakeIrq_armVotes _ _)) fun z hstands => ⟨?_, ?_⟩
      · rw [hstands, hkept, ← hstrm]
        exact startArmed_self u tx n ord
      · exact (((State.StrmOnly.of_strm hstrm).trans (strmOnly_startArmed u tx n ord)).trans (.of_strm hkept)).trans (.of_strm hstands)
  · have hck : onStreamPause (ownCtx src c) u = _ := (needPantry_on hpantry).trans
      (streamPauseChecked_cancel (x := ownCtx src c) (tAt := u.project) hx hact (by rw [hstrm]; exact ha) (by rw [hord]; exact hle))
    rw [checking_unstated ho.cleanEntry 1, hord] at hck
    exact accepts_changing (dropStreamAct tx n s.effectOrd) rfl ho (by simp [hop]) (by rw [hop]; rfl) (by simp [hop]) hck (by decide)
      (foot_onCmd (Foot.refl [.hbi, .trace, .cmd] u) (by decide) fun k => k).1 rfl (reports_onCmd _ (Reports.refl u)) (.of_hbi rfl)
      (.of_tiles rfl) fun _ _ => trivial

end Sys2Proof.Machine
end

section
/-! SUPPORT. The choice of the queue that starts (R259, R309): the first of a falling list of queues whose head qualifies is the highest of them, and
from that the statement TransmitChoice. -/

namespace Sys2Proof.Machine

/-! ### Searching a falling list -/

/-- The first member of a falling list that passes a test is the highest that passes it. -/
theorem find?_falling_eq_some {P : Nat → Bool} {l : List Nat} (hl : l.Pairwise (· > ·)) {q : Nat} :
    l.find? P = some q ↔ q ∈ l ∧ P q = true ∧ ∀ j ∈ l, q < j → P j = false := by
  induction l with
  | nil => simp
  | cons a l ih =>
    obtain ⟨habove, hrest⟩ := List.pairwise_cons.1 hl
    cases ha : P a with
    | true =>
      rw [List.find?_cons_of_pos ha]
      constructor
      · intro h
        obtain rfl := Option.some.inj h
        refine ⟨List.mem_cons_self, ha, fun j hj hlt => ?_⟩
        rcases List.mem_cons.1 hj with rfl | hj
        · exact absurd hlt (Nat.lt_irrefl _)
        · exact absurd hlt (Nat.not_lt_of_gt (habove j hj))
      · rintro ⟨hq, -, hnone⟩
        rcases List.mem_cons.1 hq with rfl | hq
        · rfl
        · exact absurd ha (by simp [hnone a List.mem_cons_self (habove q hq)])
    | false =>
      rw [List.find?_cons_of_neg (by simp [ha]), ih hrest]
      have hne (h : P q = true) : q ≠ a := fun e => by simp [e, ha] at h
      constructor
      · rintro ⟨hq, hPq, hnone⟩
        exact ⟨List.mem_cons_of_mem _ hq, hPq, by simpa [ha] using fun j hj hlt => hnone j hj hlt⟩
      · rintro ⟨hq, hPq, hnone⟩
        exact ⟨List.mem_of_ne_of_mem (hne hPq) hq, hPq, fun j hj => hnone j (List.mem_cons_of_mem _ hj)⟩

/-! ### Candidates -/

section
variable (s : State) (p : Nat) (r : NetRate)

/-- A frame stands at the head of a queue, and window and PAUSE allow it to start (R272, R306). -/
def State.HeadAllowed (q : Nat) (x : TxFrame) : Prop :=
  s.headOf p q = some x ∧ windowOk (s.netP p) s.time.inPeriod q (durPs r (wireLen x.bytes)) = true ∧
    pauseHolds (s.netP p) s.monoNs q = false

/-- The head of a queue with its colour, where window and PAUSE allow it. -/
def State.candidate (q : Nat) : Option (Nat × TxFrame × Colour) :=
  match s.headOf p q with
  | none => none
  | some x =>
    if windowOk (s.netP p) s.time.inPeriod q (durPs r (wireLen x.bytes)) && !pauseHolds (s.netP p) s.monoNs q then
      some (q, x, ((s.netP p).shaper q).colour)
    else none

/-- The queues of a port, highest first. -/
def queuesFalling : List Nat := [7, 6, 5, 4, 3, 2, 1, 0]

/-- The highest candidate of a colour. -/
def State.highest (col : Colour) : Option (Nat × TxFrame × Colour) :=
  (queuesFalling.filterMap (s.candidate p r)).find? fun h => h.2.2 = col

theorem mem_queuesFalling {q : Nat} : q ∈ queuesFalling ↔ q < 8 := by
  simp only [queuesFalling, List.mem_cons, List.not_mem_nil, or_false]
  omega

/-- A candidate that is GREEN starts before any that is YELLOW. -/
theorem pickQueue_eq : s.pickQueue p r = (s.highest p r .green).or (s.highest p r .yellow) := by
  have hgreen : ∀ o : Option (Nat × TxFrame × Colour), o.or (s.highest p r .yellow) = match o with
      | some h => some h
      | none => s.highest p r .yellow := fun o => by cases o <;> rfl
  rw [hgreen]
  rfl

variable {s p r}

theorem candidate_eq_some {q : Nat} {h : Nat × TxFrame × Colour} :
    s.candidate p r q = some h ↔ ∃ x, s.HeadAllowed p r q x ∧ (q, x, ((s.netP p).shaper q).colour) = h := by
  unfold State.candidate State.HeadAllowed
  cases s.headOf p q with
  | none => simp
  | some x => simp [and_assoc]

theorem candidate_any_colour {col : Colour} {q : Nat} :
    ((s.candidate p r q).any fun h => h.2.2 = col) = true ↔ ∃ x, s.HeadAllowed p r q x ∧ ((s.netP p).shaper q).colour = col := by
  rw [Option.any_eq_true]
  constructor
  · rintro ⟨h, hcand, hcol⟩
    obtain ⟨x, hx, rfl⟩ := candidate_eq_some.1 hcand
    exact ⟨x, hx, of_decide_eq_true hcol⟩
  · rintro ⟨x, hx, hcol⟩
    exact ⟨_, candidate_eq_some.2 ⟨x, hx, rfl⟩, decide_eq_true hcol⟩

theorem highest_eq_some {col c : Colour} {q : Nat} {x : TxFrame} :
    s.highest p r col = some (q, x, c) ↔ q < 8 ∧ s.HeadAllowed p r q x ∧ ((s.netP p).shaper q).colour = col ∧ c = col ∧
      ∀ j y, j < 8 → q < j → s.HeadAllowed p r j y → ((s.netP p).shaper j).colour ≠ col := by
  have hfirst (i : Nat) := find?_falling_eq_some (P := fun k => (s.candidate p r k).any fun h => h.2.2 = col) (l := queuesFalling)
    (by decide) (q := i)
  simp only [mem_queuesFalling, ← Bool.not_eq_true, candidate_any_colour] at hfirst
  rw [State.highest, List.find?_filterMap, Option.bind_eq_some_iff]
  simp only [hfirst, candidate_eq_some]
  constructor
  · rintro ⟨i, ⟨hi, ⟨y, -, hcol⟩, hnone⟩, z, hz, he⟩
    cases he
    exact ⟨hi, hz, hcol, hcol, fun j y hj hlt hy hyc => hnone j hj hlt ⟨y, hy, hyc⟩⟩
  · rintro ⟨hq, hx, rfl, rfl, hnone⟩
    exact ⟨q, ⟨hq, ⟨x, hx, rfl⟩, fun j hj hlt ⟨y, hy, hyc⟩ => hnone j y hj hlt hy hyc⟩, x, hx, rfl⟩

theorem highest_eq_none {col : Colour} :
    s.highest p r col = none ↔ ∀ j y, j < 8 → s.HeadAllowed p r j y → ((s.netP p).shaper j).colour ≠ col := by
  simp only [State.highest, List.find?_eq_none, List.mem_filterMap, mem_queuesFalling, candidate_eq_some, decide_eq_true_eq]
  constructor
  · intro h j y hj hy
    exact h _ ⟨j, hj, y, hy, rfl⟩
  · rintro h _ ⟨j, hj, y, hy, rfl⟩
    exact h j y hj hy

end

/-- Settles O50: the choice is the highest GREEN candidate, else the highest YELLOW one, which are the eligible heads of R309. -/
theorem transmitChoice : Obligations.TransmitChoice := by
  intro s p r q x c n allowed eligible
  have hfirst (col : Colour) : s.highest p r col = some (q, x, c) ↔
      q < 8 ∧ allowed q x ∧ (n.shaper q).colour = col ∧ c = col ∧ ∀ j y, j < 8 → q < j → allowed j y → (n.shaper j).colour ≠ col :=
    highest_eq_some
  have hnone : s.highest p r .green = none ↔ ∀ j y, j < 8 → allowed j y → (n.shaper j).colour ≠ .green := highest_eq_none
  rw [pickQueue_eq, Option.or_eq_some_iff, hfirst, hfirst, hnone]
  constructor
  · rintro (⟨hq, hx, hcol, rfl, habove⟩ | ⟨hnogreen, hq, hx, hcol, rfl, habove⟩)
    · refine ⟨hq, ⟨hx, .inl hcol⟩, hcol.symm, fun j y hj hlt ⟨hy, hel⟩ => ?_⟩
      rcases hel with hg | ⟨-, hnog⟩
      · exact habove j y hj hlt hy hg
      · exact hnog q x hq hx hcol
    · refine ⟨hq, ⟨hx, .inr ⟨hcol, hnogreen⟩⟩, hcol.symm, fun j y hj hlt ⟨hy, hel⟩ => ?_⟩
      rcases hel with hg | ⟨hyel, -⟩
      · exact hnogreen j y hj hy hg
      · exact habove j y hj hlt hy hyel
  · rintro ⟨hq, ⟨hx, hcol | ⟨hcol, hnogreen⟩⟩, rfl, habove⟩
    · exact .inl ⟨hq, hx, hcol, hcol, fun j y hj hlt hy hg => habove j y hj hlt ⟨hy, .inl hg⟩⟩
    · exact .inr ⟨hnogreen, hq, hx, hcol, hcol, fun j y hj hlt hy hyel => habove j y hj hlt ⟨hy, .inr ⟨hyel, hnogreen⟩⟩⟩

end Sys2Proof.Machine
end

section
/-! SUPPORT. The step on a queue that is not empty, and the registers of start-up and of the Roll Call (R414, R418, R423, R448): what a write
of GCTRL and one of RCALL do. -/

namespace Sys2Proof.Machine

/-! ### The step -/

/-- Settles O1: it is the second arm of step. -/
theorem stepRunsFront : Obligations.StepRunsFront := by
  intro s c rest hpending
  rw [step, hpending]

/-! ### GCTRL (R448) -/

section
variable {s : State} {w : RegWrite}

/-- PEER_CMD takes the byte that a write of GCTRL enables. -/
def CmdPath.peerCmdPut (w : RegWrite) (c : CmdPath) : CmdPath := { c with peerCmd := bit (w.over (w32 (b2n c.peerCmd))) 0 }

theorem putGctrl_fwGo (hgo : bit w.ones 24 = true) (hrestart : bit w.ones 25 = false) :
    s.putGctrl w = (s.onCmd (CmdPath.peerCmdPut w)).fwGo := by
  simp only [State.putGctrl, hgo, hrestart, if_true, Bool.false_eq_true, if_false]
  rfl

theorem putGctrl_restart (hgo : bit w.ones 24 = false) (hrestart : bit w.ones 25 = true) :
    s.putGctrl w = (s.onCmd (CmdPath.peerCmdPut w)).orderRestart := by
  simp only [State.putGctrl, hgo, hrestart, if_true, Bool.false_eq_true, if_false]
  rfl

/-- A write of GCTRL ends a pair of halves, and is putGctrl (R41, R448). -/
theorem hostWrite_gctrl (hr : s.hbi.ready = true) : s.hostWrite regGctrl w cleanBus = s.pairDone.putGctrl w :=
  hostWrite_mapped hr (by decide) rfl

theorem hostWrite_rcall (hr : s.hbi.ready = true) (htake : bit w.ones 0 = true) : s.hostWrite regRcall w cleanBus = s.pairDone.rollAsk :=
  hostWrite_mapped hr (by decide) (congrArg (·, (0 : BitVec 6)) (if_pos htake))

theorem fwGo_waits (hw : s.loaderWaits = true) :
    s.fwGo = s.onBoot fun b => { b with boot := if b.boot = 6 then 6 else 3, going := true, fromHost := true } := if_pos hw

theorem fwGo_ignored (hw : s.loaderWaits = false) : s.fwGo = s := if_neg (by simp [hw])

theorem orderRestart_run (hb : s.bootCode = 4) : s.orderRestart = s.onBoot fun b => { b with restartDue := true } := if_pos hb

/-- A vote of the firmware on MGMT leaves start-up as it is (R395). -/
theorem fwVote_boot (s : State) : s.fwVote.boot = s.boot :=
  (foot_fwVote (Foot.refl [.hbi, .power, .trace] s) (by decide)).1 .boot (by decide)

/-- A request is pending, at the boundary of one that already is, else at that of R57 (R423). -/
theorem rollAsk_boot (s : State) :
    s.rollAsk.boot = { s.boot with rcPending := true, rcAt := some (s.boot.rcAt.getD s.effectOrd) } := by
  rw [State.rollAsk, fwVote_boot]
  cases h : s.boot.rcAt <;> simp [h]

end

/-- What a write of GCTRL changes besides start-up. -/
theorem foot_pairDone_peerCmd {ps : List Part} (s : State) (w : RegWrite) (hh : .hbi ∈ ps) (hc : .cmd ∈ ps) :
    Foot ps s (s.pairDone.onCmd (CmdPath.peerCmdPut w)) :=
  foot_onCmd (foot_pairDone (Foot.refl ps s) (by simpa using hh)) hc fun k => k

/-- Settles O15: each clause is one operation of start-up after the pair of halves and PEER_CMD. -/
theorem startAndRestart : Obligations.StartAndRestart := by
  refine ⟨fun s w hr hgo hrestart => ⟨fun hw => ?_, fun hw => ?_⟩, fun s w hr => ⟨fun hgo hrestart hb => ?_, fun htake => ?_⟩⟩
  · have hex : exec (.fwGo w) s = .next _ :=
      congrArg Host.Outcome.next ((hostWrite_gctrl hr).trans ((putGctrl_fwGo hgo hrestart).trans (fwGo_waits hw)))
    exact ⟨_, hex, (foot_onBoot (foot_pairDone_peerCmd s w (by decide) (by decide)) (by decide)).1, rfl, rfl⟩
  · have hex : exec (.fwGo w) s = .next _ :=
      congrArg Host.Outcome.next ((hostWrite_gctrl hr).trans ((putGctrl_fwGo hgo hrestart).trans (fwGo_ignored hw)))
    exact ⟨_, hex, (foot_pairDone_peerCmd s w (by decide) (by decide)).1, rfl⟩
  · have hex : exec (.restart w) s = .next _ :=
      congrArg Host.Outcome.next ((hostWrite_gctrl hr).trans ((putGctrl_restart hgo hrestart).trans (orderRestart_run hb)))
    exact ⟨_, hex, (foot_onBoot (foot_pairDone_peerCmd s w (by decide) (by decide)) (by decide)).1, rfl, rfl⟩
  · exact ⟨_, congrArg Host.Outcome.next (hostWrite_rcall hr htake),
      (foot_rollAsk (foot_pairDone (Foot.refl [.hbi, .power, .boot, .trace] s) (by decide)) (by decide)).1, rollAsk_boot s.pairDone⟩

end Sys2Proof.Machine
end

section
/-! SUPPORT. Reset (R411, R412, R465) and start-up (R412 to R418): what each row does where its condition holds. -/

namespace Sys2Proof.Machine

/-! ### Reset -/

/-- Settles O57: each row is its reset, and AON_READY changes the host bus part alone. -/
theorem resetRows : Obligations.ResetRows := by
  intro s
  refine ⟨fun k => ⟨_, rfl, rfl⟩, fun row hrow => ?_, fun hheld => ?_⟩
  · have hex : exec row s = .next s.inReset := by
      rcases List.mem_pair.1 hrow with rfl | rfl <;> rfl
    exact ⟨_, hex, rfl, rfl, rfl, rfl, rfl, rfl, rfl, rfl⟩
  · refine does_onHbi (f := fun h => { h with ready := true }) (congrArg Host.Outcome.next (if_neg ?_))
    simp [hheld]

/-! ### The loader and its image (R412, R414, R416) -/

section
variable {s : State} {given : Image}

theorem exec_imageReadComplete (hreads : s.loaderReads = true) :
    exec .imageReadComplete s = .next ((s.onBoot fun b => { b with
      boot := if b.boot = 6 then 6 else 3, going := true, fromHost := false }).onMem fun m => { m with flashSize := some Config.flashBytes }) :=
  congrArg Host.Outcome.next (if_pos hreads)

/-- An image is under authentication. -/
theorem not_done_of_going (hgoing : s.boot.going = true) (hpassed : s.boot.passed = false) : ¬(!s.boot.going || s.boot.passed) = true := by
  simp [hgoing, hpassed]

theorem exec_imageAuthentication_good (hgoing : s.boot.going = true) (hpassed : s.boot.passed = false)
    (hgood : imageFail s.boot.fromHost (s.imageOf given) = none) :
    exec (.imageAuthentication given) s = .next ((s.onBoot fun b => { b with
      going := false, passed := true, hostLoad := b.fromHost, slot := !b.fromHost && b.trySlot
      version := (s.imageOf given).version }).onMem fun m => { m with slices := sliceTab (s.imageOf given).slices }) := by
  refine (if_neg (not_done_of_going hgoing hpassed)).trans ?_
  rw [hgood]

theorem exec_imageAuthentication_bad {f : Nat} (hgoing : s.boot.going = true) (hpassed : s.boot.passed = false)
    (hbad : imageFail s.boot.fromHost (s.imageOf given) = some f) :
    exec (.imageAuthentication given) s = .next (s.onBoot fun b => { b with
      going := false
      fail := BitVec.ofNat 4 f
      boot := if b.fromHost || b.trySlot then 5 else if b.boot = 6 then 6 else 2
      trySlot := b.trySlot || !b.fromHost }) := by
  refine (if_neg (not_done_of_going hgoing hpassed)).trans ?_
  rw [hbad]
  refine congrArg (fun g => Host.Outcome.next (s.onBoot g)) (funext fun b => ?_)
  cases hhost : b.fromHost <;> cases hslot : b.trySlot <;> simp

/-! ### RUN and the watchdog (R412, R418) -/

/-- The firmware is in service: RUN, its boundary task acknowledged, no restart due. -/
def Boot.InService (b : Boot) : Prop := b.boot = 4 ∧ b.unacked = 0 ∧ b.restartDue = false

/-- A Roll Call that completes leaves the firmware in service. -/
theorem inService_rollComplete (h : s.boot.InService) : s.rollComplete.boot.InService := by
  unfold State.rollComplete
  split
  · exact h
  · extract_lets u ready v
    have hdone : (ready.foldl (fun s l => s.complete l.src l.cmd stOk s.boot.rcPidx s.boot.rcEpoch) v).boot = v.boot :=
      (foot_foldl (fun _ _ hu => foot_complete hu (by decide)) (Foot.refl [.hbi, .cmd, .mem, .trace, .draw] v)).1 .boot (by decide)
    rw [hdone]
    exact h

theorem inService_rollCapture (auto : Bool) (h : s.boot.InService) : (s.rollCapture auto).boot.InService := inService_rollComplete h

/-- The start of the firmware, before its tables are written. -/
def State.inService (s : State) : State :=
  { s.onBoot fun b => { b with boot := 4, unacked := 0, restartDue := false } with shownOk := true }

theorem exec_runBoundary (hpassed : s.boot.passed = true) (hboot : s.boot.boot = 3 ∨ s.boot.boot = 6) (hd : s.domOn dMgmt = true)
    (hat : s.atBoundary = true) : exec .runBoundary s = .next ((s.inService.showTables true).rollCapture true) := by
  refine if_pos ?_
  simpa [hpassed, hd, hat] using hboot

/-- Tables written and captured, the firmware stays in service and its tables valid. -/
theorem runBoundary_leaves (s : State) :
    let t := (s.inService.showTables true).rollCapture true
    t.boot.InService ∧ t.shownOk = true ∧ t.boot.rcPending = true ∧ t.boot.rcAtAuto = true := by
  obtain ⟨-, -, -, -, -, -, -, -, -, -, -, -, -, -, -, -, hshown⟩ :=
    (foot_rollCapture (auto := true) (Foot.refl [.hbi, .cmd, .mem, .boot, .trace, .draw] (s.inService.showTables true)) (by decide)).1
      .shown (by decide)
  exact ⟨inService_rollCapture true ⟨rfl, rfl, rfl⟩, hshown, rfl, rfl⟩

theorem exec_watchdogExpiry (hboot : s.boot.boot = 4) (hun : 64 ≤ s.boot.unacked) :
    exec .watchdogExpiry s = .next (s.onBoot fun b => { b with restartDue := true }) := by
  refine congrArg Host.Outcome.next (if_pos ?_)
  simp [hboot, hun]

/-! ### Management restart (R418) -/

theorem exec_mgmtRestart (hboot : s.boot.boot = 4) (hd : s.domOn dMgmt = true) (hdue : s.boot.restartDue = true) :
    exec .mgmtRestart s = .next s.mgmtRestart := by
  have hrun : ¬(s.boot.boot ≠ 4 || !s.domOn dMgmt) = true := by simp [hboot, hd]
  exact (if_neg hrun).trans (if_pos hdue)

/-- MGMT SRAM and the firmware are lost, and the loader starts again. -/
def State.restarted (s : State) : State := s.mgmtLost.onBoot fun b => { b with
  boot := 6, restarts := satAdd b.restarts 1, going := false, passed := false, trySlot := false, restartDue := false, unacked := 0
  restarted := true }

/-- Beside the timebase, whose PTP is lost, a restart makes but reports. -/
theorem mgmtRestart_same (s : State) : SameOutside [.time, .hbi, .trace, .draw] s.restarted s.mgmtRestart := by
  have h := Foot.refl [.time, .hbi, .trace, .draw] s.restarted
  exact (foot_ite (fun _ => foot_refUpdate (foot_onTime h (by decide) fun k => k) (by decide)) fun _ => h).1

theorem mgmtRestart_time (href : s.time.refAct ≠ 1) : s.mgmtRestart.time = s.time :=
  (congrArg State.time (if_neg href) : s.mgmtRestart.time = s.restarted.time)

end

/-- Settles O58: each row where its condition holds, by the lemmas above. -/
theorem startUp : Obligations.StartUp := by
  intro s b
  refine ⟨fun hreads => ?_, ?_, fun hpassed hboot hd hat => ?_, fun hboot hun => ?_, fun hboot hd hdue => ?_⟩
  · exact ⟨_, exec_imageReadComplete hreads,
      (foot_onMem (foot_onBoot (Foot.refl [.mem, .boot] s) (by decide)) (by decide) fun k => k).1, rfl, rfl, rfl⟩
  · intro given hgoing hpassed i
    refine ⟨fun hgood => ?_, fun f hbad => ?_⟩
    · exact ⟨_, exec_imageAuthentication_good hgoing hpassed hgood,
        (foot_onMem (foot_onBoot (Foot.refl [.mem, .boot] s) (by decide)) (by decide) fun k => k).1, rfl, rfl⟩
    · exact ⟨_, exec_imageAuthentication_bad hgoing hpassed hbad, (foot_onBoot (Foot.refl [.boot] s) (by decide)).1, rfl⟩
  · obtain ⟨⟨hrun, hack, hnone⟩, hshown, hpending, hauto⟩ := runBoundary_leaves s
    exact does_of (exec_runBoundary hpassed hboot hd hat) (foot_execRunBoundary (Foot.refl _ s) (List.Subset.refl _)) (List.Subset.refl _)
      ⟨hrun, hack, hnone, hshown, hpending, hauto⟩
  · exact ⟨_, exec_watchdogExpiry hboot hun, (foot_onBoot (Foot.refl [.boot] s) (by decide)).1, rfl⟩
  · have hbootPart : s.mgmtRestart.boot = s.restarted.boot := mgmtRestart_same s .boot (by decide)
    have hmem : s.mgmtRestart.mem = s.restarted.mem := mgmtRestart_same s .mem (by decide)
    have hcmd : s.mgmtRestart.cmd = s.restarted.cmd := mgmtRestart_same s .cmd (by decide)
    have hline : s.mgmtRestart.line = s.restarted.line := mgmtRestart_same s .line (by decide)
    refine does_of (exec_mgmtRestart hboot hd hdue) (foot_execMgmtRestart (Foot.refl _ s) (List.Subset.refl _)) (List.Subset.refl _) ?_
    rw [hbootPart, hmem, hcmd, hline]
    exact ⟨rfl, rfl, rfl, rfl, rfl, rfl, rfl, rfl, rfl, mgmtRestart_time⟩

end Sys2Proof.Machine
end

section
/-! SUPPORT. A line port that goes to FAULT (R177, R199, R420, R466): it alone changes among the ports, and what a sweep over ports does. -/

namespace Sys2Proof.Machine

/-! ### Operations beside a port's state -/

/-- The dies whose VDD_LFE is low (R466). -/
def Line.supplies (l : Line) : Bool × Bool := (l.lfeLowA, l.lfeLowB)

/-- Nothing but one port's course may have changed among the ports: its state, its cause and the time of its last change stand. -/
def PortStands (p : Nat) (s t : State) : Prop :=
  (∀ q, q ≠ p → t.port q = s.port q) ∧ (t.port p).state = (s.port p).state ∧ (t.port p).cause = (s.port p).cause ∧
    (t.port p).changed = (s.port p).changed ∧ t.time = s.time ∧ t.line.supplies = s.line.supplies

section
variable {p : Nat} {s t u : State}

theorem PortStands.refl (p : Nat) (s : State) : PortStands p s s := ⟨fun _ _ => rfl, rfl, rfl, rfl, rfl, rfl⟩

theorem PortStands.trans (h : PortStands p s t) (k : PortStands p t u) : PortStands p s u := by
  obtain ⟨h1, h2, h3, h4, h5, h6⟩ := h
  obtain ⟨k1, k2, k3, k4, k5, k6⟩ := k
  exact ⟨fun q hq => (k1 q hq).trans (h1 q hq), k2.trans h2, k3.trans h3, k4.trans h4, k5.trans h5, k6.trans h6⟩

/-- The table of the ports, the timebase and the supplies are as before. -/
theorem PortStands.of_port (h : PortStands p s t) (hport : u.line.port = t.line.port) (htime : u.time = t.time)
    (hlow : u.line.supplies = t.line.supplies) : PortStands p s u :=
  h.trans ⟨fun q _ => congrArg (fun x => (tget {} x q : PortSt)) hport, congrArg (fun x => (tget {} x p : PortSt).state) hport,
    congrArg (fun x => (tget {} x p : PortSt).cause) hport, congrArg (fun x => (tget {} x p : PortSt).changed) hport, htime, hlow⟩

theorem PortStands.onPort {f : PortSt → PortSt} (h : PortStands p s t) (hst : ∀ x, (f x).state = x.state) (hcause : ∀ x, (f x).cause = x.cause)
    (hchanged : ∀ x, (f x).changed = x.changed) : PortStands p s (t.onPort p f) :=
  h.trans ⟨fun q hq => onPort_ne t f hq, by rw [onPort_self, hst], by rw [onPort_self, hcause], by rw [onPort_self, hchanged], rfl, rfl⟩

theorem PortStands.ite {c : Prop} [Decidable c] (ht : PortStands p s t) (hu : PortStands p s u) : PortStands p s (if c then t else u) := by
  split
  · exact ht
  · exact hu

theorem PortStands.onWatch (h : PortStands p s t) (q : Nat) (f : Watch → Watch) : PortStands p s (t.onWatch q f) := h.of_port rfl rfl rfl
theorem PortStands.raise (h : PortStands p s t) (b : Nat) : PortStands p s (t.raise b) := h.of_port rfl rfl rfl
theorem PortStands.powered (h : PortStands p s t) : PortStands p s (t.onLine fun l => { l with powered := true }) := h.of_port rfl rfl rfl

theorem PortStands.portEvent (h : PortStands p s t) : PortStands p s (t.portEvent p) :=
  (h.onPort (f := fun x => { x with events := x.events + 1 }) (fun _ => rfl) (fun _ => rfl) fun _ => rfl).of_port rfl rfl rfl

theorem PortStands.watchLog (h : PortStands p s t) (kind detail : Nat) (v pidx : Word) : PortStands p s (t.watchLog p kind detail v pidx) := by
  have hlog : PortStands p s (t.onLine fun l => { l with
      logSeq := seqNext t.line.logSeq
      log := logPut (·.seq) 256 (WatchEntry.mk (seqNext t.line.logSeq) pidx (BitVec.ofNat 8 p) (BitVec.ofNat 8 kind) (BitVec.ofNat 16 detail) v)
        l.log }) := h.of_port rfl rfl rfl
  exact PortStands.ite hlog.portEvent (hlog.of_port rfl rfl rfl)

theorem PortStands.soundAbort (h : PortStands p s t) (q i : Nat) : PortStands p s (t.soundAbort q i) :=
  PortStands.ite (h.of_port rfl rfl rfl) h
theorem PortStands.soundAsk (h : PortStands p s t) (q : Nat) : PortStands p s (t.soundAsk q) :=
  PortStands.ite (h.of_port rfl rfl rfl) h

theorem PortStands.callEnd (h : PortStands p s t) (kind : Nat) : PortStands p s (t.callEnd p kind) := by
  have hcleared : ∀ f, PortStands p s (t.onWatch p f) := fun _ => h.of_port rfl rfl rfl
  exact PortStands.ite (((hcleared _).watchLog 0x21 kind 0 _).of_port rfl rfl rfl) (hcleared _)

theorem PortStands.portSetNow (h : PortStands p s t) (cls : BitVec 2) (a1 a2 : Word) : PortStands p s (t.portSetNow p cls a1 a2) := by
  unfold State.portSetNow
  extract_lets c zt term u1 u2 u3
  have h1 : PortStands p s u1 := h.of_port rfl rfl rfl
  have h2 : PortStands p s u2 := PortStands.ite (h1.onPort (fun _ => rfl) (fun _ => rfl) fun _ => rfl) h1
  have h3 : PortStands p s u3 :=
    PortStands.ite (h2.onPort (fun _ => rfl) (fun _ => rfl) fun _ => rfl)
      (PortStands.ite (h2.onPort (fun _ => rfl) (fun _ => rfl) fun _ => rfl) h2)
  have h4 : PortStands p s (u3.onWatch p fun w => { w with termOrd := u3.time.ord, changes := w.changes + 1 }) := h3.of_port rfl rfl rfl
  exact PortStands.ite ((h4.soundAbort p 4).soundAsk p) h3

theorem PortStands.settleLater (h : PortStands p s t) : PortStands p s (t.settleLater p) := by
  unfold State.settleLater
  split
  · exact h
  · have hnone : PortStands p s (t.onPort p fun x => { x with later := none }) := h.onPort (fun _ => rfl) (fun _ => rfl) fun _ => rfl
    exact hnone.portSetNow _ _ _

/-- The course of a setpoint has no part in the state of its port. -/
theorem runSet_keeps (at_ goal rate : Rat) (x : PortSt) :
    (x.runSet at_ goal rate).state = x.state ∧ (x.runSet at_ goal rate).cause = x.cause ∧ (x.runSet at_ goal rate).changed = x.changed := by
  unfold PortSt.runSet
  extract_lets v x' up need d
  have hx' : x'.state = x.state ∧ x'.cause = x.cause ∧ x'.changed = x.changed := by
    unfold x'
    split <;> exact ⟨rfl, rfl, rfl⟩
  clear_value x'
  split
  · exact ⟨rfl, rfl, rfl⟩
  · split
    · exact hx'
    · split <;> exact hx'

theorem PortStands.reslew (h : PortStands p s t) : PortStands p s (t.reslew p) := by
  unfold State.reslew
  extract_lets x q slews u
  have hu : PortStands p s u :=
    h.onPort (fun y => (runSet_keeps _ _ _ y).1) (fun y => (runSet_keeps _ _ _ y).2.1) fun y => (runSet_keeps _ _ _ y).2.2
  exact PortStands.ite (hu.soundAbort p 3) hu

theorem PortStands.record (h : PortStands p s t) (cls : Nat) (pay : Word) : PortStands p s (t.record cls pay) :=
  have hline : (t.record cls pay).line = t.line := record_same t cls pay .line (by decide)
  h.of_port (congrArg Line.port hline) (record_same t cls pay .time (by decide)) (congrArg Line.supplies hline)

end

/-! ### FAULT -/

/-- A port in FAULT with a cause, since a PIDX. -/
def PortSt.FaultedAt (cause : Nat) (pidx : Word) (x : PortSt) : Prop := x.state = .fault ∧ x.cause = BitVec.ofNat 8 cause ∧ x.changed = pidx

/-- A port has gone to FAULT with a cause, now; every other port, and the supplies, are as before. -/
def PortFaults (p cause : Nat) (s t : State) : Prop :=
  (∀ q, q ≠ p → t.port q = s.port q) ∧ (t.port p).FaultedAt cause s.pidx ∧ t.line.supplies = s.line.supplies

/-- What leaves a fault's port as it stands follows the fault. -/
theorem PortFaults.stands {p cause : Nat} {s t u : State} (h : PortFaults p cause s t) (k : PortStands p t u) : PortFaults p cause s u := by
  obtain ⟨h1, ⟨h2, h3, h4⟩, h5⟩ := h
  obtain ⟨k1, k2, k3, k4, -, k6⟩ := k
  exact ⟨fun q hq => (k1 q hq).trans (h1 q hq), ⟨k2.trans h2, k3.trans h3, k4.trans h4⟩, k6.trans h5⟩

/-- So does a fault follow what leaves its port as it stands. -/
theorem PortStands.faults {p cause : Nat} {s t u : State} (h : PortStands p s t) (k : PortFaults p cause t u) : PortFaults p cause s u := by
  obtain ⟨h1, -, -, -, h5, h6⟩ := h
  obtain ⟨k1, ⟨k2, k3, k4⟩, k5⟩ := k
  exact ⟨fun q hq => (k1 q hq).trans (h1 q hq), ⟨k2, k3, k4.trans (congrArg Time.pidx h5)⟩, k5.trans h6⟩

theorem portTo_faults (s : State) (p cause : Nat) (logged : Bool) : PortFaults p cause s (s.portTo p .fault cause logged) := by
  unfold State.portTo
  extract_lets +onlyGivenNames o leaves u1 u2 goal u3 u4 u5 u6 u7 u8 u9
  have h1 : PortStands p s u1 := PortStands.ite (((PortStands.refl p s).callEnd 1).callEnd 2) (.refl p s)
  have h2 : PortStands p s u2 := PortStands.ite (h1.soundAbort p 0) h1
  have hfault : PortFaults p cause u2 u3 := by
    refine ⟨fun q hq => onPort_ne u2 _ hq, ?_, rfl⟩
    unfold u3
    rw [onPort_self]
    exact ⟨rfl, rfl, rfl⟩
  clear_value u3
  have h4 : PortStands p u3 u4 := PortStands.ite ((PortStands.refl p u3).onPort (fun _ => rfl) (fun _ => rfl) fun _ => rfl) (.refl p u3)
  have h5 : PortStands p u3 u5 := PortStands.ite h4.settleLater h4
  have h6 : PortStands p u3 u6 := (h5.onWatch p _).reslew
  have h7 : PortStands p u3 u7 := PortStands.ite (h6.soundAsk p) h6
  have h8 : PortStands p u3 u8 := PortStands.ite h7.powered h7
  have h9 : PortStands p u3 u9 := PortStands.ite (h8.raise _) h8.portEvent
  exact (h2.faults hfault).stands (h9.record _ _)

theorem portFault_faults (s : State) (p cause : Nat) (v : Word) : PortFaults p cause s (s.portFault p cause v) :=
  ((PortStands.refl p s).watchLog 0x10 cause v s.pidx).faults (portTo_faults _ p cause true)

/-! ### A sweep over ports -/

theorem nodup_upto (n : Nat) : (upto n).Nodup := List.nodup_range

/-- An operation on one port after another leaves the ports that it does not come to, and each of the others as it leaves that port. -/
theorem forAll_port {f : State → Nat → State} {Q : PortSt → Prop} {s : State} {l : List Nat} (hl : l.Nodup)
    (hne : ∀ u p q, q ≠ p → (f u p).port q = u.port q) (htime : ∀ u p, (f u p).time = u.time)
    (hself : ∀ u p, u.time = s.time → Q ((f u p).port p)) :
    (∀ p, p ∈ l → Q ((s.forAll l f).port p)) ∧ ∀ p, p ∉ l → (s.forAll l f).port p = s.port p := by
  suffices h : ∀ u : State, u.time = s.time → (∀ p, p ∈ l → Q ((u.forAll l f).port p)) ∧ ∀ p, p ∉ l → (u.forAll l f).port p = u.port p from
    h s rfl
  induction l with
  | nil => exact fun u _ => ⟨fun p hp => absurd hp List.not_mem_nil, fun _ _ => rfl⟩
  | cons a l ih =>
    intro u hu
    obtain ⟨hal, hl'⟩ := List.nodup_cons.1 hl
    obtain ⟨hin, hout⟩ := ih hl' (f u a) ((htime u a).trans hu)
    refine ⟨fun p hp => ?_, fun p hp => ?_⟩
    · rcases List.mem_cons.1 hp with rfl | hp
      · have : (u.forAll (p :: l) f).port p = (f u p).port p := hout p hal
        rw [this]
        exact hself u p hu
      · exact hin p hp
    · obtain ⟨hpa, hpl⟩ : p ≠ a ∧ p ∉ l := by simpa using hp
      exact (hout p hpl).trans (hne u a p hpa)

end Sys2Proof.Machine
end

section
/-! SUPPORT. Removal (R406, R420 to R422) and supervision (R466, R478): the start and the end of the sequence, its record and its release,
temperature and supplies. -/

namespace Sys2Proof.Machine

/-! ### What an interrupt leaves -/

@[simp] theorem raise_boot (s : State) (b : Nat) : (s.raise b).boot = s.boot := rfl
@[simp] theorem raise_imdal (s : State) (b : Nat) : (s.raise b).imdal = s.imdal := rfl
@[simp] theorem raise_power (s : State) (b : Nat) : (s.raise b).power = s.power := rfl

/-! ### The start of a removal (R420) -/

/-- The sequence has been qualified, before the votes on HUB and MGMT. -/
def State.retiring (s : State) : State :=
  let b1 := if s.time.inPeriod ≤ 300000 then s.time.ord + 1 else s.time.ord + 2
  let u := s.onBoot fun b => { b with
    removal := 7, reqMono := s.monoNs, b1 := some b1, b2 := some (b1 + 1), released := false, unrecorded := true }
  let u := u.onTiles fun t => { t with stepping := false }
  if s.imdal.state = .solo then u else u.onImdal fun m => { m with departAt := some (b1 + 1) }

/-- The votes on HUB and MGMT change the power domains, with their reports. -/
theorem removalStart_same (s : State) : SameOutside [.hbi, .power, .trace] s.retiring s.removalStart :=
  (foot_selfVote (foot_selfVote (foot_raise (Foot.refl [.hbi, .power, .trace] s.retiring) (by decide)) (by decide)) (by decide)).1

theorem removalStart_boot (s : State) : s.removalStart.boot = { s.boot with
    removal := 7, reqMono := s.monoNs
    b1 := some (if s.time.inPeriod ≤ 300000 then s.time.ord + 1 else s.time.ord + 2)
    b2 := some ((if s.time.inPeriod ≤ 300000 then s.time.ord + 1 else s.time.ord + 2) + 1), released := false, unrecorded := true } := by
  have h : s.removalStart.boot = s.retiring.boot := removalStart_same s .boot (by decide)
  rw [h]
  unfold State.retiring
  dsimp only
  split <;> rfl

theorem removalStart_imdal (s : State) : s.removalStart.imdal = if s.imdal.state = .solo then s.imdal else { s.imdal with
    departAt := some ((if s.time.inPeriod ≤ 300000 then s.time.ord + 1 else s.time.ord + 2) + 1) } := by
  have h : s.removalStart.imdal = s.retiring.imdal := removalStart_same s .imdal (by decide)
  rw [h]
  unfold State.retiring
  dsimp only
  split <;> rfl

theorem reports_removalStart {s t : State} (h : Reports s t) : Reports s t.removalStart := by
  have hretiring : Reports s t.retiring := by
    unfold State.retiring
    exact reports_ite (reports_onTiles _ (reports_onBoot _ h)) (reports_onImdal _ (reports_onTiles _ (reports_onBoot _ h)))
  exact reports_selfVote _ _ (reports_selfVote _ _ (reports_raise _ hretiring))

theorem raise_getLsbD_self (s : State) {b : Nat} (hb : b < 16) : (s.raise b).hbi.irqStat.getLsbD b = true := by
  rw [raise_irqStat, BitVec.getLsbD_or, Bool.or_eq_true]
  right
  rw [BitVec.getLsbD_ofNat, Nat.testBit_two_pow_self, decide_eq_true hb]
  rfl

theorem removalStart_irqHotswap (s : State) : s.removalStart.hbi.irqStat.getLsbD irqHotswap = true :=
  (reports_selfVote dMgmt 11 (reports_selfVote dHub 11 (Reports.refl (s.retiring.raise irqHotswap)))).2.1 irqHotswap
    (raise_getLsbD_self _ (by decide))

/-- A vote keeps the SELF votes that stand (R395). -/
theorem selfVote_keeps (s : State) (d src : Nat) {i : Nat} (h : s.power.self.getLsbD i = true) : (s.selfVote d src).power.self.getLsbD i = true := by
  obtain ⟨-, -, -, -, hself⟩ := votesKept_wake (s.onPower fun p => { p with self := p.self ||| BitVec.ofNat 22 (2 ^ d) }) d src
  refine hself i ?_
  rw [onPower_power, BitVec.getLsbD_or, h, Bool.true_or]

theorem removalStart_votes (s : State) : s.removalStart.power.self.getLsbD dHub = true ∧ s.removalStart.power.self.getLsbD dMgmt = true :=
  ⟨selfVote_keeps _ _ _ (selfVote_self _ (by decide) _), selfVote_self _ (by decide) _⟩

/-- In service with a domain to turn OFF, and with no removal under way, a removal that is asked for starts (R406, R420). -/
theorem askRemoval_start {s : State} (hboot : s.boot.boot = 4) (hrem : s.boot.removal = 0) (hdom : s.allDomOff = false) :
    s.askRemoval = s.removalStart := by
  simp [State.askRemoval, hboot, hrem, hdom]

/-! ### Its end (R420) -/

/-- A removal that was not released, and is not thermal, ends with RDY. -/
theorem removalEnd_rdy {s : State} (htherm : s.boot.thermOff = false) (hrel : s.boot.released = false) :
    s.removalEnd = (s.onBoot fun b => { b with removal := 8, released := false, b1 := none, b2 := none }).assertRdy := by
  have hgone : (s.boot.released && !s.boot.thermOff) = false := by simp [hrel]
  unfold State.removalEnd
  dsimp only
  rw [hgone]
  exact if_neg (show ¬s.boot.thermOff = true by simp [htherm])

theorem removalEnd_boot {s : State} (htherm : s.boot.thermOff = false) (hrel : s.boot.released = false) :
    s.removalEnd.boot = { s.boot with removal := 8, rdy := true, b1 := none, b2 := none } := by
  rw [removalEnd_rdy htherm hrel]
  simp [State.assertRdy, State.raise, hrel]

theorem removalEnd_same {s : State} (htherm : s.boot.thermOff = false) (hrel : s.boot.released = false) :
    SameOutside [.hbi, .boot] s s.removalEnd := by
  rw [removalEnd_rdy htherm hrel]
  exact (foot_assertRdy (foot_onBoot (Foot.refl [.hbi, .boot] s) (by decide)) (by decide)).1

theorem reports_removalEnd {s t : State} (htherm : t.boot.thermOff = false) (hrel : t.boot.released = false) (h : Reports s t) :
    Reports s t.removalEnd := by
  rw [removalEnd_rdy htherm hrel]
  exact reports_raise _ (reports_onBoot _ (reports_onBoot _ h))

theorem removalEnd_irqHotswap {s : State} (htherm : s.boot.thermOff = false) (hrel : s.boot.released = false) :
    s.removalEnd.hbi.irqStat.getLsbD irqHotswap = true := by
  rw [removalEnd_rdy htherm hrel]
  exact raise_getLsbD_self _ (by decide)

/-! ### The deadline (R420) -/

/-- A port that still carries current is recorded with cause FET, where it is not already. -/
def State.fetFaulted (s : State) (p : Nat) : State :=
  if (s.port p).state = .fault && (s.port p).cause = BitVec.ofNat 8 cauFet then s else s.portFault p cauFet 0

/-- The ports that still carry current at the deadline are recorded. -/
def State.deadlineFaults (s : State) : State := s.forAll ((upto 48).filter s.loopLive) State.fetFaulted

theorem exec_removalDeadline {s : State} (hrem : s.boot.removal = 7) (hlate : s.boot.reqMono + 20000000 ≤ s.monoNs) :
    exec .removalDeadline s = .next s.deadlineFaults.removalEnd := by
  refine if_pos ?_
  simp [hrem, hlate]

theorem foot_fetFaulted {ps : List Part} {s t : State} {p : Nat} (h : Foot ps s t) (hp : [.hbi, .line, .trace, .draw] ⊆ ps) :
    Foot ps s (t.fetFaulted p) := foot_ite (fun _ => h) fun _ => foot_portFault h hp

theorem deadlineFaults_same (s : State) : SameOutside [.hbi, .line, .trace, .draw] s s.deadlineFaults :=
  (foot_forAll (fun _ _ hu => foot_fetFaulted hu (by decide)) (Foot.refl _ s)).1

theorem reports_deadlineFaults (s : State) : Reports s s.deadlineFaults :=
  reports_foldl (fun _ _ hu => reports_ite hu (reports_portFault _ _ _ hu)) (Reports.refl s)

theorem deadlineFaults_port (s : State) :
    (∀ p, p < 48 → s.loopLive p = true → (s.deadlineFaults.port p).state = .fault ∧ (s.deadlineFaults.port p).cause = BitVec.ofNat 8 cauFet) ∧
      ∀ p, s.loopLive p = false → s.deadlineFaults.port p = s.port p := by
  have hmem (p : Nat) : p ∈ (upto 48).filter s.loopLive ↔ p < 48 ∧ s.loopLive p = true := by simp [upto]
  obtain ⟨hin, hout⟩ := forAll_port (f := State.fetFaulted) (Q := fun x => x.state = .fault ∧ x.cause = BitVec.ofNat 8 cauFet) (s := s)
    (l := (upto 48).filter s.loopLive) ((nodup_upto 48).filter _)
    (fun u p q hq => by unfold State.fetFaulted; split; exacts [rfl, (portFault_faults u p cauFet 0).1 q hq])
    (fun u p => (foot_fetFaulted (Foot.refl [.hbi, .line, .trace, .draw] u) (by decide)).1 .time (by decide))
    (fun u p _ => by
      unfold State.fetFaulted
      split
      · rename_i h
        simpa using h
      · obtain ⟨-, ⟨hst, hcause, -⟩, -⟩ := portFault_faults u p cauFet 0
        exact ⟨hst, hcause⟩)
  exact ⟨fun p hp hlive => hin p ((hmem p).2 ⟨hp, hlive⟩), fun p hdead => hout p fun h => by simp [((hmem p).1 h).2] at hdead⟩

/-! ### Its record and its release (R421, R422) -/

/-- The firmware's record: every line port's mode is OFF. -/
@[irreducible] def modesOff (t : Tab PortCfg) : Tab PortCfg := (upto 48).foldl (fun t p => tmod {} p (fun (c : PortCfg) => { c with mode := 0 }) t) t

/-- Changing the values at some indices, each once, changes these and no other; defaults and changes may differ by index. -/
theorem tget_foldl_tmod {α : Type} [DecidableEq α] (d : Nat → α) (f : Nat → α → α) {l : List Nat} (hl : l.Nodup) (t : Tab α) (k : Nat) :
    tget (d k) (l.foldl (fun t p => tmod (d p) p (f p) t) t) k = if k ∈ l then f k (tget (d k) t k) else tget (d k) t k := by
  induction l generalizing t with
  | nil => simp
  | cons a l ih =>
    obtain ⟨ha, hl'⟩ := List.nodup_cons.1 hl
    rw [List.foldl_cons, ih hl']
    by_cases hk : k = a
    · subst hk
      simp [ha, tget_tmod_self]
    · simp [hk, tget_tmod_ne _ _ _ hk]

theorem modesOff_get (t : Tab PortCfg) (p : Nat) :
    tget {} (modesOff t) p = if p < 48 then { (tget {} t p : PortCfg) with mode := 0 } else tget {} t p := by
  unfold modesOff
  have h := tget_foldl_tmod (fun _ => {}) (fun _ (c : PortCfg) => { c with mode := 0 }) (nodup_upto 48) t p
  simp only [upto, List.mem_range] at h
  exact h

theorem exec_removalRecord {s : State} (hun : s.boot.unrecorded = true) (hserving : s.serving = true) (hd : s.domOn dMgmt = true) :
    exec .removalRecord s = .next (((s.onLine fun l => { l with cfg := modesOff l.cfg }).onBoot fun b => { b with unrecorded := false }).onCmd
      fun c => { c with epoch := epochNext c.epoch }) := by
  unfold modesOff
  refine if_pos ?_
  simp [hun, hserving, hd]

theorem exec_hotswapRelease {s : State} (hreq : s.boot.req = true) :
    exec .hotswapRelease s = .next (s.onBoot fun b => { b with req := false, rdy := false, released := b.removal ≠ 0 }) :=
  if_neg (by simp [hreq])

theorem exec_hotswapRequest {s : State} (hreq : s.boot.req = false) (hr : s.hbi.ready = true) :
    exec .hotswapRequest s = .next ((s.onBoot fun b => { b with req := true }).askRemoval.raise irqHotswap) :=
  if_neg (by simp [hreq, hr])

theorem exec_removalReady {s : State} (hrem : s.boot.removal = 7) (hpast : s.pastB2 = true) (hat : s.atBoundary = true)
    (hdead : ∀ p, p < 48 → s.loopLive p = false) : exec .removalReady s = .next s.removalEnd := by
  refine if_pos ?_
  have hnone : (upto 48).any s.loopLive = false := by
    rw [List.any_eq_false]
    intro p hp
    simp [hdead p (List.mem_range.1 hp)]
  simp [hrem, hpast, hat, hnone]

/-- Settles O59: each row where its condition holds, by the lemmas above. -/
theorem removal : Obligations.Removal := by
  intro s b
  refine ⟨fun hreq hr hboot hrem hdom => ?_, fun hrem htherm hrel => ⟨fun hpast hat hdead => ?_, fun hlate => ?_⟩,
    fun hun hserving hd => ?_, fun hreq => ?_⟩
  · let u := s.onBoot fun b => { b with req := true }
    have hask : u.askRemoval = u.removalStart := askRemoval_start hboot hrem hdom
    have hex : exec .hotswapRequest s = .next (u.removalStart.raise irqHotswap) := hask ▸ exec_hotswapRequest hreq hr
    have hfoot : Foot (.hbi :: .trace :: .draw :: [.imdal, .tiles, .power, .boot]) s (u.removalStart.raise irqHotswap) :=
      foot_raise (foot_removalStart (foot_onBoot (Foot.refl _ s) (by decide)) (by decide)) (by decide)
    have himdal := (raise_imdal u.removalStart irqHotswap).trans (removalStart_imdal u)
    obtain ⟨hhub, hmgmt⟩ := removalStart_votes u
    refine ⟨_, hex, hfoot.1, reports_raise _ (reports_removalStart (reports_onBoot _ (Reports.refl s))),
      (raise_boot ..).trans (removalStart_boot u), raise_getLsbD_self _ (by decide), (raise_power ..).symm ▸ hhub, (raise_power ..).symm ▸ hmgmt,
      fun hsolo => himdal.trans (if_pos hsolo), fun hsolo => himdal.trans (if_neg hsolo)⟩
  · exact ⟨_, exec_removalReady hrem hpast hat hdead, same_trans (removalEnd_same htherm hrel) (Foot.refl [] _).1 (by decide) (by decide),
      reports_removalEnd htherm hrel (Reports.refl s), removalEnd_boot htherm hrel, removalEnd_irqHotswap htherm hrel⟩
  · have hboot : s.deadlineFaults.boot = s.boot := deadlineFaults_same s .boot (by decide)
    have htherm' : s.deadlineFaults.boot.thermOff = false := hboot ▸ htherm
    have hrel' : s.deadlineFaults.boot.released = false := hboot ▸ hrel
    have hend := removalEnd_same htherm' hrel'
    have hport (p : Nat) : s.deadlineFaults.removalEnd.port p = s.deadlineFaults.port p :=
      congrArg (fun l : Line => (tget {} l.port p : PortSt)) (hend .line (by decide))
    obtain ⟨hlive, hdead⟩ := deadlineFaults_port s
    refine ⟨_, exec_removalDeadline hrem hlate, same_trans (deadlineFaults_same s) hend (by decide) (by decide),
      reports_removalEnd htherm' hrel' (reports_deadlineFaults s), (removalEnd_boot htherm' hrel').trans (by rw [hboot]),
      removalEnd_irqHotswap htherm' hrel', fun p hp h => ?_, fun p h => ?_⟩
    · rw [hport]
      exact hlive p hp h
    · rw [hport]
      exact hdead p h
  · exact ⟨_, exec_removalRecord hun hserving hd,
      (foot_onCmd (foot_onBoot (foot_onLine (Foot.refl [.cmd, .line, .boot] s) (by decide) fun k => k) (by decide)) (by decide) fun k => k).1,
      rfl, rfl, rfl, fun p => modesOff_get s.line.cfg p⟩
  · exact ⟨_, exec_hotswapRelease hreq, (foot_onBoot (Foot.refl [.boot] s) (by decide)).1, rfl⟩

/-! ### Temperature (R478) -/

/-- TJ_MAX and both thresholds, as measured. -/
theorem thermal_boot (s : State) (tj : Int) : (s.thermal tj).boot =
    { s.boot with tjMax := tj, warn := thermBit tj 100 s.boot.warn, crit := thermBit tj 110 s.boot.crit } := by
  unfold State.thermal
  dsimp only
  split <;> rfl

theorem thermal_power (s : State) (tj : Int) : (s.thermal tj).power = s.power :=
  (foot_thermal (Foot.refl [.hbi, .boot] s) (by decide)).1 .power (by decide)

theorem reports_thermal {s t : State} (tj : Int) (h : Reports s t) : Reports s (t.thermal tj) :=
  reports_ite (reports_raise _ (reports_onBoot _ h)) (reports_onBoot _ h)

/-- A threshold that changes raises THERM. -/
theorem thermal_irqTherm {s : State} {tj : Int} (h : (s.thermal tj).boot.warn ≠ s.boot.warn ∨ (s.thermal tj).boot.crit ≠ s.boot.crit) :
    (s.thermal tj).hbi.irqStat.getLsbD irqTherm = true := by
  rw [thermal_boot] at h
  have hchange : (thermBit tj 100 s.boot.warn ≠ s.boot.warn || thermBit tj 110 s.boot.crit ≠ s.boot.crit) = true := by simpa using h
  unfold State.thermal
  dsimp only
  rw [if_pos hchange]
  exact raise_getLsbD_self _ (by decide)

theorem exec_thermalThreshold_below {s : State} {tj : Int} (h : tj < 120) : exec (.thermalThreshold tj) s = .next (s.thermal tj) := by
  have hlow : (tj < 120 || (s.thermal tj).boot.thermOff || (s.thermal tj).boot.held) = true := by simp [h]
  exact if_pos hlow

/-- The measurement from which a thermal removal starts. -/
def State.overheated (s : State) (tj : Int) : State := (s.thermal tj).onBoot fun b => { b with thermOff := true }

theorem exec_thermalThreshold_start {s : State} {tj : Int} (htj : 120 ≤ tj) (htherm : s.boot.thermOff = false) (hheld : s.boot.held = false)
    (hboot : s.boot.boot = 4) (hrem : s.boot.removal = 0) (hdom : s.allDomOff = false) :
    exec (.thermalThreshold tj) s = .next (s.overheated tj).removalStart := by
  have hb := thermal_boot s tj
  have hnew : ¬(tj < 120 || (s.thermal tj).boot.thermOff || (s.thermal tj).boot.held) = true := by
    simp [hb, htherm, hheld, htj]
  have hrem' : (s.overheated tj).boot.removal = 0 := by simp [State.overheated, hb, hrem]
  have hboot' : (s.overheated tj).boot.boot = 4 := by simp [State.overheated, hb, hboot]
  have hdom' : (s.overheated tj).allDomOff = false := by
    have hpower : (s.overheated tj).power = s.power := thermal_power s tj
    unfold State.allDomOff State.dom at hdom ⊢
    rw [hpower]
    exact hdom
  have hnot8 : ¬(s.overheated tj).boot.removal = 8 := by rw [hrem']; decide
  have hnot7 : ¬(s.overheated tj).boot.removal = 7 := by rw [hrem']; decide
  exact (if_neg hnew).trans (congrArg Host.Outcome.next
    ((if_neg hnot8).trans ((if_neg hnot7).trans (askRemoval_start hboot' hrem' hdom'))))

theorem thermBit_over {tj th : Int} (h : th ≤ tj) (was : Bool) : thermBit tj th was = true := if_pos h

/-- At 120 °C both thresholds are exceeded, and the removal runs. -/
theorem overheated_boot {s : State} {tj : Int} (htj : 120 ≤ tj) :
    let t := (s.overheated tj).removalStart
    t.boot.thermOff = true ∧ t.boot.removal = 7 ∧ t.boot.tjMax = tj ∧ t.boot.warn = true ∧ t.boot.crit = true ∧
      t.hbi.irqStat.getLsbD irqHotswap = true := by
  intro t
  have hb : t.boot = _ := removalStart_boot (s.overheated tj)
  rw [State.overheated, onBoot_boot, thermal_boot] at hb
  rw [hb]
  exact ⟨rfl, rfl, rfl, thermBit_over (by omega) _, thermBit_over (by omega) _, removalStart_irqHotswap _⟩

/-! ### Supplies (R466) -/

/-- A port of a die whose VDD_LFE is low: one in HOLD wakes its bank, and it faults with cause GATE. -/
def State.gateFaulted (s : State) (p : Nat) : State :=
  (if (s.port p).state = .hold then s.bankWake (bankOf p) else s).portFault p cauGate 0

/-- VDD_LFE of a die is low. -/
def State.lfeLow (s : State) (die : DieIx) : State :=
  s.onLine fun l => if die = 0 then { l with lfeLowA := true } else { l with lfeLowB := true }

theorem lfeFault_eq (s : State) (die : Nat) :
    s.lfeFault die = s.forAll ((upto 48).filter fun p => dieOf p = die && poweredSt (s.port p).state) State.gateFaulted := rfl

theorem bankWake_same (s : State) (b : Nat) : SameOutside [.hbi, .power, .trace] s (s.bankWake b) :=
  (foot_bankWake (Foot.refl [.hbi, .power, .trace] s) (by decide)).1

/-- A bank that is woken changes no port. -/
theorem portStands_bankWake (s : State) (p b : Nat) : PortStands p s (s.bankWake b) := by
  have hline : (s.bankWake b).line = s.line := bankWake_same s b .line (by decide)
  exact (PortStands.refl p s).of_port (congrArg Line.port hline) (bankWake_same s b .time (by decide)) (congrArg Line.supplies hline)

theorem gateFaulted_faults (s : State) (p : Nat) : PortFaults p cauGate s (s.gateFaulted p) :=
  (PortStands.ite (portStands_bankWake s p (bankOf p)) (.refl p s)).faults (portFault_faults _ p cauGate 0)

theorem foot_gateFaulted {ps : List Part} {s t : State} {p : Nat} (h : Foot ps s t) (hp : [.hbi, .line, .power, .trace, .draw] ⊆ ps) :
    Foot ps s (t.gateFaulted p) :=
  foot_portFault (foot_ite (fun _ => foot_bankWake h (List.Subset.trans (by decide) hp)) fun _ => h) (List.Subset.trans (by decide) hp)

theorem reports_gateFaulted {s t : State} (p : Nat) (h : Reports s t) : Reports s (t.gateFaulted p) :=
  reports_portFault _ _ _ (reports_ite (reports_selfVote _ _ h) h)

/-- The powered ports of a die whose VDD_LFE is low are in FAULT GATE, every other port is as before (R466). -/
theorem lfeFault_port (s : State) (die : Nat) :
    (∀ p, p < 48 → dieOf p = die → poweredSt (s.port p).state = true → ((s.lfeFault die).port p).FaultedAt cauGate s.pidx) ∧
      ∀ p, (dieOf p ≠ die ∨ poweredSt (s.port p).state = false) → (s.lfeFault die).port p = s.port p := by
  have hmem (p : Nat) : p ∈ ((upto 48).filter fun p => dieOf p = die && poweredSt (s.port p).state) ↔
      p < 48 ∧ dieOf p = die ∧ poweredSt (s.port p).state = true := by simp [upto]
  rw [lfeFault_eq]
  have htime (u : State) (p : Nat) : (u.gateFaulted p).time = u.time :=
    (foot_gateFaulted (Foot.refl [.hbi, .line, .power, .trace, .draw] u) (by decide)).1 .time (by decide)
  have hself (u : State) (p : Nat) (hu : u.time = s.time) : ((u.gateFaulted p).port p).FaultedAt cauGate s.pidx := by
    have hpidx : u.pidx = s.pidx := congrArg Time.pidx hu
    obtain ⟨-, hfault, -⟩ := gateFaulted_faults u p
    rwa [hpidx] at hfault
  obtain ⟨hin, hout⟩ := forAll_port ((nodup_upto 48).filter _) (fun u p => (gateFaulted_faults u p).1) htime hself
  refine ⟨fun p hp hdie hon => hin p ((hmem p).2 ⟨hp, hdie, hon⟩), fun p hp => hout p fun h => ?_⟩
  obtain ⟨-, hdie, hon⟩ := (hmem p).1 h
  rcases hp with hp | hp
  · exact hp hdie
  · rw [hon] at hp
    exact nomatch hp

theorem lfeFault_supplies (s : State) (die : Nat) : (s.lfeFault die).line.supplies = s.line.supplies := by
  rw [lfeFault_eq]
  refine List.foldlRecOn (motive := fun u => u.line.supplies = s.line.supplies) _ State.gateFaulted rfl fun u hu p _ => ?_
  obtain ⟨-, -, hlow⟩ := gateFaulted_faults u p
  exact hlow.trans hu

theorem lfeLow_supplies (s : State) (die : DieIx) :
    (s.lfeLow die).line.supplies = (s.line.lfeLowA || decide (die = 0), s.line.lfeLowB || decide (die ≠ 0)) := by
  by_cases hdie : die = 0 <;> simp [State.lfeLow, Line.supplies, hdie]

theorem exec_lfeSupplyLow (s : State) (die : DieIx) : exec (.lfeSupplyLow die) s = .next ((s.lfeLow die).lfeFault die) := rfl

theorem reports_lfeFault {s t : State} (die : Nat) (h : Reports s t) : Reports s (t.lfeFault die) := by
  rw [lfeFault_eq]
  exact reports_foldl (fun _ _ => reports_gateFaulted _) h

theorem foot_onLine_either {s : State} {c : Prop} [Decidable c] {f g : Line → Line} (hf : s.line.Ok → (f s.line).Ok) (hg : s.line.Ok → (g s.line).Ok) :
    Foot [.line] s (s.onLine fun l => if c then f l else g l) := by
  refine foot_onLine (Foot.refl [.line] s) (by decide) fun k => ?_
  split
  · exact hf k
  · exact hg k

/-- Settles O60: the thresholds by thermal_boot and the start of a removal, the supplies by a sweep over the ports of a die. -/
theorem supervision : Obligations.Supervision := by
  intro s
  refine ⟨fun tj htj => ?_, fun tj htj htherm hheld hboot hrem hdom => ?_, fun die => ?_⟩
  · exact ⟨_, exec_thermalThreshold_below htj, (foot_thermal (Foot.refl [.hbi, .trace, .draw, .boot] s) (by decide)).1,
      reports_thermal tj (Reports.refl s), thermal_boot s tj, thermal_irqTherm⟩
  · have hfoot : Foot (.hbi :: .trace :: .draw :: [.imdal, .tiles, .power, .boot]) s (s.overheated tj).removalStart :=
      foot_removalStart (foot_onBoot (foot_thermal (Foot.refl _ s) (by decide)) (by decide)) (by decide)
    refine ⟨_, exec_thermalThreshold_start htj htherm hheld hboot hrem hdom, hfoot.1,
      reports_removalStart (reports_onBoot _ (reports_thermal tj (Reports.refl s))), overheated_boot htj⟩
  · intro low absent
    refine ⟨?_, ?_, ?_, ?_⟩
    · have hfoot : Foot (.hbi :: .trace :: .draw :: [.line, .power]) s ((s.lfeLow die).lfeFault die) :=
        foot_lfeFault ((foot_onLine_either (fun k => k) fun k => k).mono (by decide)) (by decide)
      obtain ⟨hin, hout⟩ := lfeFault_port (s.lfeLow die) die
      have hlow := (lfeFault_supplies (s.lfeLow die) die).trans (lfeLow_supplies s die)
      have hport (p : Nat) : (s.lfeLow die).port p = s.port p := by
        unfold State.lfeLow State.port
        rw [onLine_line]
        split <;> rfl
      simp only [hport] at hin hout
      exact ⟨_, exec_lfeSupplyLow s die, hfoot.1, reports_lfeFault die (reports_onLine _ (Reports.refl s)), hin, hout,
        congrArg Prod.fst hlow, congrArg Prod.snd hlow⟩
    · exact ⟨_, rfl, (foot_onLine_either (fun k => k) fun k => k).1, rfl⟩
    · exact ⟨_, rfl, (foot_onLine_either (fun k => k) fun k => k).1, rfl⟩
    · exact ⟨_, rfl, (foot_onLine_either (fun k => k) fun k => k).1, rfl⟩

end Sys2Proof.Machine
end

section
/-! SUPPORT. Repacks and the presented member (R357, R360, R369, R413): what each row answers where its condition holds. -/

namespace Sys2Proof.Machine

/-! ### Rows that change the tiles alone -/

/-- A row whose whole effect is a change of the tiles part that keeps the Substitution log. -/
theorem does_onTiles {c : Instr} {s : State} {f : Tiles → Tiles} (h : exec c s = .next (s.onTiles f)) (hlog : (f s.tiles).log = s.tiles.log) :
    Does c s [.tiles] fun t => t.tiles = f s.tiles := by
  refine ⟨_, h, (foot_onTiles (Foot.refl [.tiles] s) (by decide) fun k => ?_).1, rfl⟩
  unfold Tiles.Ok at k ⊢
  rwa [hlog]

/-! ### Repacks (R357, R369) -/

section
variable {s : State}

theorem firmware_of_boot (hboot : s.boot.boot = 4) : s.firmware = true := decide_eq_true hboot

/-- While the firmware runs and no Substitute catches up beyond the boundary ahead, a repack is laid out. -/
theorem execRepack_free (hboot : s.boot.boot = 4) (hfree : ∀ k, k < 72 → s.holdsRepack k = false) :
    exec .repack s = if s.tiles.repackDue then .next (s.onTiles fun x => { x with next := some [], repackDue := false })
      else if !s.tiles.evict.isEmpty then .next (s.onTiles fun x => { x with next := some x.evict, evict := [] }) else .next s := by
  have hnone : (upto 72).any s.holdsRepack = false := by
    rw [List.any_eq_false]
    intro k hk
    simp [hfree k (List.mem_range.1 hk)]
  refine if_neg ?_
  simp [firmware_of_boot hboot, hnone]

/-! ### The member that healthy tiles allow (R359, R360) -/

/-- The members, largest first. -/
def memberSizes : List Nat := [8, 4, 2, 1]

/-- The first of a falling list that qualifies is at least every one that does. -/
theorem le_of_find?_falling {P : Nat → Bool} {l : List Nat} (hl : l.Pairwise (· > ·)) {w : Nat} (h : l.find? P = some w) {v : Nat} (hv : v ∈ l)
    (hP : P v = true) : v ≤ w := by
  obtain ⟨-, -, hnone⟩ := (find?_falling_eq_some hl).1 h
  by_contra hlt
  exact absurd hP (by simp [hnone v hv (Nat.lt_of_not_le hlt)])

/-- The member honoured is the largest within the bound whose requirement is met, or none. -/
theorem honoured_spec (most n : Nat) :
    honoured most n ≤ most ∧ (honoured most n = 0 ∨ requirement (honoured most n) ≤ n) ∧
      ∀ v ∈ memberSizes, honoured most n < v → v ≤ most → n < requirement v := by
  have hfalling : (memberSizes.filter fun w => decide (w ≤ most)).Pairwise (· > ·) := List.Pairwise.filter _ (by decide)
  have hmem (v : Nat) : v ∈ (memberSizes.filter fun w => decide (w ≤ most)) ↔ v ∈ memberSizes ∧ v ≤ most := by simp
  have hdef : honoured most n = ((memberSizes.filter fun w => decide (w ≤ most)).find? fun w => decide (requirement w ≤ n)).getD 0 := rfl
  rw [hdef]
  cases hfind : (memberSizes.filter fun w => decide (w ≤ most)).find? fun w => decide (requirement w ≤ n) with
  | none =>
    refine ⟨Nat.zero_le _, .inl rfl, fun v hv _ hle => ?_⟩
    have h := List.find?_eq_none.1 hfind v ((hmem v).2 ⟨hv, hle⟩)
    simpa using h
  | some w =>
    have hw := (hmem w).1 (List.mem_of_find?_eq_some hfind)
    have hmet : requirement w ≤ n := by simpa using List.find?_some hfind
    refine ⟨hw.2, .inr hmet, fun v hv hlt hle => ?_⟩
    by_contra hn
    exact absurd (le_of_find?_falling hfalling hfind ((hmem v).2 ⟨hv, hle⟩) (decide_eq_true (Nat.le_of_not_lt hn))) (Nat.not_le.2 hlt)

/-- Fewer tiles than a member requires honour a smaller one. -/
theorem honoured_lt {most n : Nat} (h : n < requirement most) : honoured most n < most := by
  obtain ⟨hle, hmet, -⟩ := honoured_spec most n
  rcases Nat.lt_or_eq_of_le hle with hlt | heq
  · exact hlt
  · rw [heq] at hmet
    rcases hmet with rfl | hmet
    · exact absurd h (by simp [requirement])
    · omega

/-! ### Falls, rises and steps up (R360, R413) -/

theorem exec_memberFall (hboot : s.boot.boot = 4) (hfew : s.healthyTiles < requirement s.wingsNext) :
    exec .memberFall s = .next (s.onTiles fun x => { x with nextWings := some (honoured s.wingsNext s.healthyTiles), riseRun := 0 }) := by
  refine if_pos ?_
  simp [firmware_of_boot hboot, hfew]

theorem exec_memberRise (hboot : s.boot.boot = 4) (hstep : s.tiles.stepping = false) (hnext : s.tiles.nextWings = none)
    (hpin : s.tiles.wings < pinnedWings s.boot.memberPin) (hrun : 2000 ≤ s.tiles.riseRun)
    (hproven : requirement (memberUp s.tiles.wings) ≤ s.proven) :
    exec .memberRise s = .next (s.onTiles fun x => { x with nextWings := some (memberUp x.wings), riseRun := 0 }) := by
  refine if_pos ?_
  simp [firmware_of_boot hboot, State.mayRise, hstep, hnext, hpin, hrun, hproven]

/-- At a step that is due the member goes up where the pin and the proven tiles allow, else the step-up ends. -/
theorem exec_memberStepUp (hboot : s.boot.boot = 4) (hstep : s.tiles.stepping = true) (hdue : s.stepDue = true)
    (hnext : s.tiles.nextWings = none) :
    exec .memberStepUp s = if s.mayRise && requirement (memberUp s.tiles.wings) ≤ s.proven then
      .next (s.onTiles fun x => { x with nextWings := some (memberUp x.wings), lostAt := x.testedAt.getD x.lostAt })
    else .next (s.onTiles fun x => { x with stepping := false }) := by
  refine if_neg ?_
  simp [firmware_of_boot hboot, hstep, hdue, hnext]

end

/-- Settles O42: each row changes the tiles alone; the member of a fall by honoured_spec. -/
theorem repackAndMember : Obligations.RepackAndMember := by
  intro s hboot
  refine ⟨fun hfree => ⟨fun hdue => ?_, fun hdue hevict => ?_⟩, fun hfew => ?_, fun hstep hnext hpin hrun hproven => ?_,
    fun hstep hdue hnext => ⟨fun hpin hproven => ?_, fun hend => ?_⟩⟩
  · exact does_onTiles ((execRepack_free hboot hfree).trans (if_pos hdue)) rfl
  · have hne : (!s.tiles.evict.isEmpty) = true := by simpa using hevict
    exact does_onTiles ((execRepack_free hboot hfree).trans ((if_neg (by simp [hdue])).trans (if_pos hne))) rfl
  · obtain ⟨-, hmet, hmost⟩ := honoured_spec s.wingsNext s.healthyTiles
    obtain ⟨t, hex, hsame, ht⟩ := does_onTiles (exec_memberFall hboot hfew) rfl
    exact ⟨t, hex, hsame, _, ht, honoured_lt hfew, hmet, hmost⟩
  · exact does_onTiles (exec_memberRise hboot hstep hnext hpin hrun hproven) rfl
  · have hup : (s.mayRise && requirement (memberUp s.tiles.wings) ≤ s.proven) = true := by simp [State.mayRise, hpin, hproven]
    exact does_onTiles ((exec_memberStepUp hboot hstep hdue hnext).trans (if_pos hup)) rfl
  · have hup : ¬(s.mayRise && requirement (memberUp s.tiles.wings) ≤ s.proven) = true := by
      simp only [State.mayRise, Bool.and_eq_true, decide_eq_true_eq]
      omega
    exact does_onTiles ((exec_memberStepUp hboot hstep hdue hnext).trans (if_neg hup)) rfl

end Sys2Proof.Machine
end

section
/-! SUPPORT. Transitions of power domains (R391 to R408): what a wake, a power-up, its failure and an entry leave of each domain. -/

namespace Sys2Proof.Machine

/-! ### Changes of domains -/

theorem dom_of_power {s t : State} (h : t.power = s.power) (q : Nat) : t.dom q = s.dom q := by
  unfold State.dom
  rw [h]

theorem dom_of_table {s t : State} (h : t.power.dom = s.power.dom) (q : Nat) : t.dom q = s.dom q := by
  unfold State.dom
  rw [h]

theorem rising_of_dom {s t : State} {q : Nat} (h : t.dom q = s.dom q) : t.rising q = s.rising q := by
  unfold State.rising State.domOn
  rw [h]

theorem domOnly_onDom (s : State) (d : Nat) (f : Domain → Domain) : s.DomOnly d (s.onDom d f) := fun _ hq => onDom_ne s f hq

theorem DomOnly.trans {d : Nat} {s t u : State} (h : s.DomOnly d t) (k : t.DomOnly d u) : s.DomOnly d u := fun q hq => (k q hq).trans (h q hq)

theorem DomOnly.of_power {d : Nat} {s t : State} (h : t.power = s.power) : s.DomOnly d t := fun q _ => dom_of_power h q

/-- A change of a domain's state is reported: its PIDX, PWR (R400, R407). -/
def DomReported (pidx : Word) (t : State) : Prop := t.power.changed = pidx ∧ t.hbi.irqStat.getLsbD irqPwr = true

theorem domChanged_power (s : State) (d : Nat) (st : DomState) : (s.domChanged d st).power = { s.power with changed := s.pidx } :=
  record_same ((s.onPower fun p => { p with changed := s.pidx }).raise irqPwr) 5 _ .power (by decide)

theorem domChanged_cmd (s : State) (d : Nat) (st : DomState) : (s.domChanged d st).cmd = s.cmd :=
  record_cmd ((s.onPower fun p => { p with changed := s.pidx }).raise irqPwr) 5 _

theorem domReported_domChanged (s : State) (d : Nat) (st : DomState) : DomReported s.pidx (s.domChanged d st) := by
  refine ⟨by rw [domChanged_power], ?_⟩
  have h : (s.domChanged d st).hbi = ((s.onPower fun p => { p with changed := s.pidx }).raise irqPwr).hbi := record_hbi _ _ _
  rw [h]
  exact raise_getLsbD_self _ (by decide)

/-! ### Wakes (R400, R408) -/

theorem not_mem_parents (d : Nat) : d ∉ parents d := by
  unfold parents
  split
  · rename_i h
    have : d ≠ 2 := by rintro rfl; simp at h
    simpa using this
  · split
    · rename_i h
      have : d ≠ 2 ∧ d ≠ 3 := by constructor <;> rintro rfl <;> simp at h
      simpa using this
    · split
      · rename_i h
        subst h
        decide
      · exact List.not_mem_nil

/-- A domain that has been told to rise is on its way to ON. -/
theorem up_transit (x : Domain) : ∃ k, x.up.transit = .rise .on k := by
  unfold Domain.up
  split <;> exact ⟨_, rfl⟩

theorem riseOne_self {s : State} {d : Nat} (h : s.rising d = false) : (s.riseOne d).dom d = (s.dom d).up := by
  unfold State.riseOne
  rw [if_neg (by simp [h])]
  exact onDom_self s d Domain.up

theorem riseOne_ne (s : State) {d q : Nat} (hq : q ≠ d) : (s.riseOne d).dom q = s.dom q := by
  unfold State.riseOne
  split
  · rfl
  · exact onDom_ne s Domain.up hq

theorem rising_riseOne_self (s : State) (d : Nat) : (s.riseOne d).rising d = true := by
  cases h : s.rising d with
  | true =>
    unfold State.riseOne
    rwa [if_pos h]
  | false =>
    obtain ⟨k, hk⟩ := up_transit (s.dom d)
    unfold State.rising
    rw [riseOne_self h, hk]
    exact Bool.or_true _

theorem rising_riseOne {s : State} {q : Nat} (d : Nat) (h : s.rising q = true) : (s.riseOne d).rising q = true := by
  by_cases hq : q = d
  · subst hq
    exact rising_riseOne_self s q
  · exact (rising_of_dom (riseOne_ne s hq)).trans h

/-- Domains that rise together: each of them is on its way, and no other one has changed. -/
theorem foldl_riseOne (l : List Nat) (s : State) :
    (∀ q, s.rising q = true ∨ q ∈ l → (l.foldl State.riseOne s).rising q = true) ∧ ∀ q, q ∉ l → (l.foldl State.riseOne s).dom q = s.dom q := by
  induction l generalizing s with
  | nil => exact ⟨fun q hq => hq.resolve_right List.not_mem_nil, fun _ _ => rfl⟩
  | cons a l ih =>
    obtain ⟨hrise, hdom⟩ := ih (s.riseOne a)
    refine ⟨fun q hq => hrise q ?_, fun q hq => ?_⟩
    · rcases hq with hq | hq
      · exact .inl (rising_riseOne a hq)
      · rcases List.mem_cons.1 hq with rfl | hq
        · exact .inl (rising_riseOne_self s q)
        · exact .inr hq
    · obtain ⟨hqa, hql⟩ : q ≠ a ∧ q ∉ l := by simpa using hq
      exact (hdom q hql).trans (riseOne_ne s hqa)

theorem riseOne_wakes (s : State) (d : Nat) : (s.riseOne d).power.wakes = s.power.wakes := by
  unfold State.riseOne
  split <;> rfl

theorem foldl_riseOne_wakes (l : List Nat) (s : State) : (l.foldl State.riseOne s).power.wakes = s.power.wakes :=
  List.foldlRecOn (motive := fun u => u.power.wakes = s.power.wakes) l State.riseOne rfl fun u hu d _ => (riseOne_wakes u d).trans hu

/-- A domain and its parents rise. -/
def State.raised (s : State) (d : Nat) : State := (parents d).foldl State.riseOne (s.riseOne d)

/-- Outside the power-up that follows power-on reset a wake is named in WAKE_SRC (R408). -/
theorem wake_named {s : State} {d : Nat} (src : Nat) (hrise : s.rising d = false) (hshut : s.shutDown = false)
    (hfirst : s.power.first.getLsbD d = false) :
    s.wake d src = (((s.raised d).onPower fun p => { p with self := (parents d).foldl (fun v q => v ||| BitVec.ofNat 22 (2 ^ q)) p.self }).onPower
      fun p => { p with wakeDom := BitVec.ofNat 5 d, wakeSrc := BitVec.ofNat 4 src, wakes := satAdd p.wakes 1 }).raise irqWake := by
  have hdue : ¬(s.rising d || s.shutDown) = true := by simp [hrise, hshut]
  exact (if_neg hdue).trans (if_neg (by simp [hfirst]))

theorem raised_dom {s : State} {d : Nat} (hrise : s.rising d = false) :
    (s.raised d).dom d = (s.dom d).up ∧ (∀ q ∈ parents d, (s.raised d).rising q = true) ∧
      ∀ q, q ≠ d → q ∉ parents d → (s.raised d).dom q = s.dom q := by
  obtain ⟨hup, hdom⟩ := foldl_riseOne (parents d) (s.riseOne d)
  exact ⟨(hdom d (not_mem_parents d)).trans (riseOne_self hrise), fun q hq => hup q (.inr hq),
    fun q hq hpar => (hdom q hpar).trans (riseOne_ne s hq)⟩

/-! ### Power-up (R380, R400, R403, R412) -/

/-- A domain's state, its transition and the time from which it is ON stand. -/
def DomStands (q : Nat) (s t : State) : Prop :=
  (t.dom q).state = (s.dom q).state ∧ (t.dom q).transit = (s.dom q).transit ∧ (t.dom q).onMono = (s.dom q).onMono

theorem DomStands.of_dom {q : Nat} {s t : State} (h : t.dom q = s.dom q) : DomStands q s t := by
  unfold DomStands
  rw [h]
  exact ⟨rfl, rfl, rfl⟩

theorem DomStands.trans {q : Nat} {s t u : State} (h : DomStands q s t) (k : DomStands q t u) : DomStands q s u := by
  obtain ⟨h1, h2, h3⟩ := h
  obtain ⟨k1, k2, k3⟩ := k
  exact ⟨k1.trans h1, k2.trans h2, k3.trans h3⟩

theorem domStands_onDom {q d : Nat} {s : State} {f : Domain → Domain} (hst : ∀ x, (f x).state = x.state) (htr : ∀ x, (f x).transit = x.transit)
    (hon : ∀ x, (f x).onMono = x.onMono) : DomStands q s (s.onDom d f) := by
  by_cases hq : q = d
  · subst hq
    unfold DomStands
    rw [onDom_self]
    exact ⟨hst _, htr _, hon _⟩
  · exact .of_dom (onDom_ne s f hq)

/-- The loader starts in MGMT (R412). -/
def State.loaderStarted (s : State) : State :=
  (s.onBoot fun b => { b with boot := if b.bootSrc then 1 else 2, trySlot := false, going := false, passed := false }).onDom dMgmt
    fun x => { x with lost := false }

theorem bootStart_eq (s : State) : s.bootStart = s.loaderStarted ∨ s.bootStart = s := ite_eq_or_eq _ _ _

/-- The loader's start clears the mark that MGMT was OFF, and changes nothing else of a domain. -/
theorem domStands_bootStart (s : State) (q : Nat) : DomStands q s s.bootStart := by
  rcases bootStart_eq s with h | h <;> rw [h]
  · exact DomStands.trans (.of_dom (dom_of_power (onBoot_power s _) q)) (domStands_onDom (fun _ => rfl) (fun _ => rfl) fun _ => rfl)
  · exact .of_dom rfl

theorem bootStart_reported {pidx : Word} {s : State} (h : DomReported pidx s) : DomReported pidx s.bootStart := by
  rcases bootStart_eq s with hs | hs <;> rw [hs]
  · exact h
  · exact h

/-- The step after one of the first three (R403). -/
def stepAfter (st : DomState) (k : Nat) : Nat := if k = 1 then 2 else if k = 2 ∧ st = .off then 3 else 4

theorem exec_powerupStepReady_step {s : State} {d : DomIx} {k : Nat} (htr : (s.dom d).transit = .rise .on k) (hk : k ≠ 4) :
    exec (.powerupStepReady d) s =
      .next (s.onDom d fun x => { x with transit := .rise .on (stepAfter (s.dom d).state k) }).bootStart := by
  have hstep : (if k = 1 then 2 else if (k = 2 && (s.dom d).state = .off) = true then 3 else 4) = stepAfter (s.dom d).state k := by
    simp only [stepAfter, Bool.and_eq_true, decide_eq_true_eq]
  simp only [exec, execPowerupStepReady, htr, if_neg hk, hstep]
  exact if_neg (by simp)

theorem exec_powerupStepReady_last {s : State} {d : DomIx} {dst : DomState} (htr : (s.dom d).transit = .rise dst 4)
    (hpar : s.parentsOn d = true) : exec (.powerupStepReady d) s = .next (s.domIsOn d) := by
  simp only [exec, execPowerupStepReady, htr, if_true, hpar]

/-- DEEPEST of every domain at its power-on reset value (R380, R402). -/
@[irreducible] def deepestReset (t : Tab Domain) : Tab Domain :=
  (upto 22).foldl (fun t d => tmod (domain0 d) d (fun (x : Domain) => { x with deepest := deepest0 d }) t) t

theorem deepestReset_get (t : Tab Domain) (q : Nat) :
    tget (domain0 q) (deepestReset t) q =
      if q ∈ upto 22 then { tget (domain0 q) t q with deepest := deepest0 q } else tget (domain0 q) t q := by
  unfold deepestReset
  exact tget_foldl_tmod domain0 (fun d x => { x with deepest := deepest0 d }) (nodup_upto 22) t q

/-- Pantry's power-up resets DEEPEST of every domain, and nothing else of it (R380). -/
theorem domStands_pantryZero (s : State) (q : Nat) : DomStands q s s.pantryZero := by
  have key : ∀ (x : Line) a b c d e f g, x.Ok → Line.Ok { x with
      cfg := a, card0 := b, card1 := c, card2 := d, card3 := e, card4 := f, card5 := g } := fun _ _ _ _ _ _ _ _ k => k
  unfold State.pantryZero
  extract_lets u1 u2 u3 u4 u5 u6 u7 u8
  have h0 : Foot [.hbi, .mix, .echo, .vad, .hum, .line, .dap, .net, .media, .mem, .trace, .draw] s s := Foot.refl _ s
  have h1 : Foot _ s u1 := foot_onMem h0 (by decide) fun k => ⟨k.1, rfl, k.2.2⟩
  have h2 : Foot _ s u2 := foot_forAll (fun u p hu => foot_ite (fun _ => hu) fun _ => foot_portPower hu (by decide)) h1
  have h3 : Foot _ s u3 := foot_onLine h2 (by decide) (key _ _ _ _ _ _ _ _)
  have h4 : Foot _ s u4 := foot_onMix h3 (by decide)
  have h5 : Foot _ s u5 := foot_onHum (foot_onVad (foot_onEcho h4 (by decide)) (by decide)) (by decide)
  have h6 : Foot _ s u6 := foot_onMedia (foot_onDap h5 (by decide)) (by decide)
  have h7 : Foot _ s u7 := foot_onNet h6 (by decide)
  have hpower : u7.power = s.power := h7.1 .power (by decide)
  clear_value u7
  have h8 : DomStands q u7 u8 := by
    have htable : u8.power.dom = deepestReset u7.power.dom := by
      unfold u8 deepestReset
      rw [onPower_power]
    have hget : u8.dom q = if q ∈ upto 22 then { u7.dom q with deepest := deepest0 q } else u7.dom q := by
      unfold State.dom
      rw [htable, deepestReset_get]
    unfold DomStands
    rw [hget]
    split <;> exact ⟨rfl, rfl, rfl⟩
  have h9 : Foot [.line] u8 (u8.forAll (upto 6) fun s b => s.onBank b fun x => { x with interval := 100, intervalNext := none }) :=
    foot_forAll (fun u b hu => foot_onBank hu (by decide)) (Foot.refl _ u8)
  exact (DomStands.of_dom (dom_of_power hpower q)).trans (h8.trans (.of_dom (dom_of_power (h9.1 .power (by decide)) q)))

theorem domStands_domUp (s : State) (d q : Nat) (lost : Bool) : DomStands q s (s.domUp d lost) := by
  unfold State.domUp
  extract_lets u
  have hu : u.power = s.power :=
    (foot_ite (fun _ => foot_bringForward (Foot.refl [.net] s) (by decide)) fun _ => Foot.refl [.net] s).1 .power (by decide)
  refine (DomStands.of_dom (dom_of_power hu q)).trans ?_
  split
  · exact domStands_pantryZero u q
  · split
    · exact .of_dom (dom_of_power ((foot_negotiate (Foot.refl [.hbi, .net, .media] u) (by decide)).1 .power (by decide)) q)
    · exact .of_dom rfl

/-- A domain that reports ON is ON from now on, with its change reported. -/
theorem domIsOn_reports (s : State) (d : Nat) :
    (s.domIsOn d).domOn d = true ∧ ((s.domIsOn d).dom d).onMono = s.monoNs ∧ DomReported s.pidx (s.domIsOn d) := by
  unfold State.domIsOn
  extract_lets lost u v
  have hu : (u.dom d).state = .on ∧ (u.dom d).transit = .none ∧ (u.dom d).onMono = s.monoNs := by
    unfold u
    rw [onDom_self]
    exact ⟨rfl, rfl, rfl⟩
  have hv : DomStands d u v := .of_dom (dom_of_table rfl d)
  have hpower : ((v.domUp d lost).domChanged d .on).power.dom = (v.domUp d lost).power.dom := by rw [domChanged_power]
  have hstands : DomStands d u ((v.domUp d lost).domChanged d .on).bootStart :=
    hv.trans ((domStands_domUp v d d lost).trans ((DomStands.of_dom (dom_of_table hpower d)).trans (domStands_bootStart _ d)))
  have htime : (v.domUp d lost).time = s.time :=
    (foot_domUp (Foot.refl [.hbi, .mix, .echo, .vad, .hum, .line, .dap, .net, .media, .mem, .power, .trace, .draw] v) (by decide)).1 .time
      (by decide)
  obtain ⟨hst, htr, hon⟩ := hstands
  have hpidx : (v.domUp d lost).pidx = s.pidx := congrArg Time.pidx htime
  refine ⟨?_, hon.trans hu.2.2, bootStart_reported (hpidx ▸ domReported_domChanged (v.domUp d lost) d .on)⟩
  unfold State.domOn
  rw [hst, htr, hu.1, hu.2.1]
  rfl

/-! ### What OFF loses (R393) -/

/-- Of the power domains the loss of a domain's contents is marked at that domain alone. -/
theorem domLost_power (s : State) (d : Nat) : (s.domLost d).power = (s.onDom d fun x => { x with lost := true }).power := by
  unfold State.domLost
  extract_lets u
  have h (v : State) (hv : Foot [.cmd, .line, .tiles, .mem, .boot, .shown] u v) : v.power = u.power := hv.1 .power (by decide)
  refine h _ (foot_ite (fun _ => foot_mgmtLost (Foot.refl _ u) (by decide)) fun _ =>
    foot_ite (fun _ => foot_hubLost (Foot.refl _ u) (by decide)) fun _ =>
      foot_ite (fun _ => foot_bankLost (Foot.refl _ u) (by decide)) fun _ => Foot.refl _ u)

theorem domLost_time (s : State) (d : Nat) : (s.domLost d).time = s.time :=
  (foot_domLost (Foot.refl [.cmd, .line, .tiles, .mem, .power, .boot, .shown] s) (by decide)).1 .time (by decide)

/-- The loss of a domain's contents starts no wait. -/
theorem domLost_waiting {s : State} (d : Nat) (h : s.cmd.waiting = none) : (s.domLost d).cmd.waiting = none := by
  unfold State.domLost
  extract_lets u
  have hhub : u.hubLost.cmd = u.cmd := (foot_hubLost (Foot.refl [.mem] u) (by decide)).1 .cmd (by decide)
  have hbank : (u.bankLost (d - 12)).cmd = u.cmd := (foot_bankLost (Foot.refl [.line] u) (by decide)).1 .cmd (by decide)
  split
  · rfl
  · split
    · rw [hhub]
      exact h
    · split
      · rw [hbank]
        exact h
      · exact h

/-- What a loss leaves of its own domain, and that it leaves the others. -/
theorem dom_lostIf (s : State) (d : Nat) (kept : Bool) :
    (if kept then s.domLost d else s).dom d = { s.dom d with lost := (s.dom d).lost || kept } ∧
      s.DomOnly d (if kept then s.domLost d else s) := by
  cases kept with
  | false => exact ⟨by simp, fun _ _ => rfl⟩
  | true =>
    refine ⟨?_, fun q hq => (dom_of_power (domLost_power s d) q).trans (onDom_ne s _ hq)⟩
    rw [if_pos rfl, dom_of_power (domLost_power s d) d, onDom_self, Bool.or_true]

/-! ### A wait that fails (R59, R403) -/

/-- No completion starts or ends a wait. -/
theorem complete_waiting (s : State) (src : Source) (c : CmdWords) (st : Nat) (r0 r1 : Word) :
    (s.complete src c st r0 r1).cmd.waiting = s.cmd.waiting := by
  unfold State.complete
  extract_lets u v
  have hu : u.cmd.waiting = s.cmd.waiting := by
    unfold u
    split <;> rfl
  rw [record_cmd, ← hu]
  cases src with
  | mailbox => rfl
  | ring =>
    unfold v State.answerSource
    dsimp only
    split <;> rfl
  | peer q =>
    show (u.sramMet peerResultAt 128).cmd.waiting = u.cmd.waiting
    rw [sramMet_cmd]

theorem failWaiting_waiting {s : State} {w : Waiting} {d q : Nat} (hw : s.cmd.waiting = some w)
    (hwhy : w.why = .domain q ∨ w.why = .boot ∧ q = dMgmt) (hd : q = d ∨ d ∈ parents q) : (s.failWaiting d).cmd.waiting = none := by
  unfold State.failWaiting
  rw [hw]
  dsimp only
  rcases hwhy with hwhy | ⟨hwhy, rfl⟩
  · rw [hwhy]
    dsimp only
    rw [if_pos (by simpa using hd)]
    exact complete_waiting ..
  · rw [hwhy]
    dsimp only
    rw [if_pos (by simpa using hd.imp_left Eq.symm)]
    exact complete_waiting ..

/-! ### Failures and entries (R400, R403) -/

/-- The failed domain is OFF, and the command that waited for it has completed. -/
def State.failedOff (s : State) (d : Nat) : State :=
  let u := (s.onDom d fun x => { x with state := .off, transit := .none, failed := true }).failWaiting d
  (if (s.dom d).state ≠ .off then u.domLost d else u).onPower fun p => { p with failDom := BitVec.ofNat 5 d }

theorem exec_powerupFailure {s : State} {d : DomIx} {dst : DomState} {k : Nat} (htr : (s.dom d).transit = .rise dst k) :
    exec (.powerupFailure d) s = .next ((s.failedOff d).domChanged d .off) := by
  simp only [exec, execPowerupFailure, htr, State.failedOff]

/-- What a failure leaves of the domains. -/
theorem failedOff_dom (s : State) (d : Nat) :
    (s.failedOff d).dom d = { s.dom d with
      state := .off, transit := .none, failed := true, lost := (s.dom d).lost || decide ((s.dom d).state ≠ .off) } ∧
      s.DomOnly d (s.failedOff d) := by
  let u := s.onDom d fun x => { x with state := .off, transit := .none, failed := true }
  have hpower : (u.failWaiting d).power = u.power :=
    (foot_failWaiting (Foot.refl [.hbi, .cmd, .mem, .trace, .draw] u) (by decide)).1 .power (by decide)
  have hself : (u.failWaiting d).dom d = { s.dom d with state := .off, transit := .none, failed := true } :=
    (dom_of_power hpower d).trans (onDom_self s d _)
  have hothers : s.DomOnly d (u.failWaiting d) := DomOnly.trans (domOnly_onDom s d _) (DomOnly.of_power hpower)
  obtain ⟨hlost, honly⟩ := dom_lostIf (u.failWaiting d) d (decide ((s.dom d).state ≠ .off))
  have hdec : (if decide ((s.dom d).state ≠ .off) = true then (u.failWaiting d).domLost d else u.failWaiting d) =
      if (s.dom d).state ≠ .off then (u.failWaiting d).domLost d else u.failWaiting d := by simp only [decide_eq_true_eq]
  rw [hdec] at hlost honly
  have htable : (s.failedOff d).power.dom =
      (if (s.dom d).state ≠ .off then (u.failWaiting d).domLost d else u.failWaiting d).power.dom := rfl
  refine ⟨(dom_of_table htable d).trans (hlost.trans (by rw [hself])), fun q hq => (dom_of_table htable q).trans ?_⟩
  exact (honly q hq).trans (hothers q hq)

theorem failedOff_time (s : State) (d : Nat) : (s.failedOff d).time = s.time := by
  have hps : [Part.hbi, .cmd, .mem, .trace, .draw] ⊆ [.hbi, .cmd, .line, .tiles, .mem, .power, .boot, .trace, .draw, .shown] := by decide
  have hwait : Foot [.hbi, .cmd, .line, .tiles, .mem, .power, .boot, .trace, .draw, .shown] s
      ((s.onDom d fun x => { x with state := .off, transit := .none, failed := true }).failWaiting d) :=
    foot_failWaiting (foot_onDom (Foot.refl _ s) (by decide)) hps
  exact (foot_onPower (foot_ite (fun _ => foot_domLost hwait (by decide)) fun _ => hwait) (by decide)).1 .time (by decide)

theorem failedOff_waiting {s : State} {w : Waiting} {d q : Nat} (hw : s.cmd.waiting = some w)
    (hwhy : w.why = .domain q ∨ w.why = .boot ∧ q = dMgmt) (hd : q = d ∨ d ∈ parents q) : (s.failedOff d).cmd.waiting = none := by
  have h := failWaiting_waiting (s := s.onDom d fun x => { x with state := .off, transit := .none, failed := true }) hw hwhy hd
  unfold State.failedOff
  extract_lets u
  rw [onPower_cmd]
  split
  · exact domLost_waiting d h
  · exact h

/-- The domain has entered a state. -/
def State.entered (s : State) (d : Nat) (st : DomState) : State :=
  let u := s.onDom d fun x => { x with state := st, transit := .none }
  if st = .off then u.domLost d else u

theorem exec_domainEntryComplete {s : State} {d : DomIx} {st : DomState} (htr : (s.dom d).transit = .enter st) :
    exec (.domainEntryComplete d) s = .next ((s.entered d st).domChanged d st) := by
  simp only [exec, execDomainEntryComplete, State.entryComplete, htr, State.entered]

theorem entered_dom (s : State) (d : Nat) (st : DomState) :
    (s.entered d st).dom d = { s.dom d with state := st, transit := .none, lost := (s.dom d).lost || decide (st = .off) } ∧
      s.DomOnly d (s.entered d st) := by
  let u := s.onDom d fun x => { x with state := st, transit := .none }
  have hself : u.dom d = { s.dom d with state := st, transit := .none } := onDom_self s d _
  obtain ⟨hlost, honly⟩ := dom_lostIf u d (decide (st = .off))
  have hdec : (if decide (st = .off) = true then u.domLost d else u) = s.entered d st := by
    simp only [decide_eq_true_eq]
    rfl
  rw [hdec] at hlost honly
  exact ⟨hlost.trans (by rw [hself]), DomOnly.trans (domOnly_onDom s d _) honly⟩

theorem entered_time (s : State) (d : Nat) (st : DomState) : (s.entered d st).time = s.time := by
  unfold State.entered
  extract_lets u
  split
  · exact domLost_time u d
  · rfl

/-! ### The transitions -/

/-- A change that is reported leaves the domains as they were. -/
theorem domChanged_dom (s : State) (d : Nat) (st : DomState) (q : Nat) : (s.domChanged d st).dom q = s.dom q :=
  dom_of_table (by rw [domChanged_power]) q

/-- Settles O56: a wake by raised_dom, a power-up by domIsOn_reports, a failure by failedOff_dom and an entry by entered_dom. -/
theorem domainTransitions : Obligations.DomainTransitions := by
  intro s d x reports
  refine ⟨fun hvoted hrise hshut hfirst => ?_, fun k htr hk => ?_, fun dst htr hpar => ?_, fun dst k htr => ?_, fun st htr => ?_⟩
  · have hex : exec (.domainWake d) s = .next (s.wake d (s.wakeSource d)) := congrArg Host.Outcome.next (if_pos hvoted)
    have hfoot : Foot (.hbi :: .trace :: .draw :: [.power]) s (s.wake d (s.wakeSource d)) := foot_wake (Foot.refl _ s) (by decide)
    have hnamed := wake_named (s.wakeSource d) hrise hshut hfirst
    obtain ⟨hself, hparents, hothers⟩ := raised_dom hrise
    have htable : (s.wake d (s.wakeSource d)).power.dom = (s.raised d).power.dom := by rw [hnamed]; rfl
    have hwakes : (s.raised d).power.wakes = s.power.wakes := (foldl_riseOne_wakes _ _).trans (riseOne_wakes s d)
    refine ⟨_, hex, hfoot.1, reports_wake _ _ (Reports.refl s), (dom_of_table htable d).trans hself,
      fun q hq => (rising_of_dom (dom_of_table htable q)).trans (hparents q hq),
      fun q hq hpar => (dom_of_table htable q).trans (hothers q hq hpar), ?_, ?_, ?_, ?_⟩ <;> rw [hnamed]
    · rfl
    · rfl
    · rw [← hwakes]
      rfl
    · exact raise_getLsbD_self _ (by decide)
  · have hk4 : k ≠ 4 := by omega
    obtain ⟨hst, htr', -⟩ := domStands_bootStart (s.onDom d fun y => { y with transit := .rise .on (stepAfter (s.dom d).state k) }) d
    rw [onDom_self] at hst htr'
    exact ⟨_, exec_powerupStepReady_step htr hk4, (foot_bootStart (foot_onDom (Foot.refl [.power, .boot] s) (by decide)) (by decide)).1,
      htr', hst⟩
  · obtain ⟨hon, hmono, hreported⟩ := domIsOn_reports s d
    exact ⟨_, exec_powerupStepReady_last htr hpar, ((foot_domIsOn (Foot.refl _ s) (List.Subset.refl _)).mono (by decide)).1, hon, hmono, hreported⟩
  · obtain ⟨hself, hothers⟩ := failedOff_dom s d
    have hreported := domReported_domChanged (s.failedOff d) d .off
    have hpidx : (s.failedOff d).pidx = s.pidx := congrArg Time.pidx (failedOff_time s d)
    rw [hpidx] at hreported
    refine does_of (exec_powerupFailure htr) (foot_execPowerupFailure (Foot.refl _ s) (List.Subset.refl _)) (List.Subset.refl _)
      ⟨(domChanged_dom ..).trans hself, ?_, hreported, fun q hq => (domChanged_dom ..).trans (hothers q hq), ?_⟩
    · rw [domChanged_power]
      rfl
    · rintro w hw ⟨q, hwhy, hq⟩
      rw [domChanged_cmd]
      exact failedOff_waiting hw hwhy hq
  · obtain ⟨hself, hothers⟩ := entered_dom s d st
    have hreported := domReported_domChanged (s.entered d st) d st
    have hpidx : (s.entered d st).pidx = s.pidx := congrArg Time.pidx (entered_time s d st)
    rw [hpidx] at hreported
    exact does_of (exec_domainEntryComplete htr) (foot_execDomainEntryComplete (Foot.refl _ s) (List.Subset.refl _)) (List.Subset.refl _)
      ⟨(domChanged_dom ..).trans hself, hreported, fun q hq => (domChanged_dom ..).trans (hothers q hq)⟩

end Sys2Proof.Machine
end

section
/-! SUPPORT. The rows of the Imdal ring (R319 to R345): links, the seam, ring time, membership and merges. -/

namespace Sys2Proof.Machine

/-! ### Rows that change the ring alone, and ring events -/

/-- A row whose whole effect is a change of the ring. -/
theorem does_onImdal {c : Instr} {s : State} {f : Imdal → Imdal} (h : exec c s = .next (s.onImdal f)) :
    Does c s [.imdal] fun t => t.imdal = f s.imdal :=
  ⟨_, h, (foot_onImdal (Foot.refl [.imdal] s) (by decide)).1, rfl⟩

theorem reports_ringEvent {s t : State} (h : Reports s t) : Reports s t.ringEvent := reports_raise _ h
theorem ringEvent_irqImdal (s : State) : s.ringEvent.hbi.irqStat.getLsbD irqImdal = true := raise_getLsbD_self s (by decide)

/-- A row that changes the ring and raises IMDAL. -/
theorem doesR_ringEvent {c : Instr} {s : State} {f : Imdal → Imdal} (h : exec c s = .next (s.onImdal f).ringEvent) :
    DoesR c s [.imdal] fun t => t.imdal = f s.imdal ∧ t.hbi.irqStat.getLsbD irqImdal = true :=
  ⟨_, h, (foot_ringEvent (foot_onImdal (Foot.refl [.hbi, .trace, .draw, .imdal] s) (by decide)) (by decide)).1,
    reports_ringEvent (reports_onImdal _ (Reports.refl s)), rfl, ringEvent_irqImdal _⟩

/-! ### A link comes UP (R319, R323) -/

/-- The ring once a link has come UP. -/
def Imdal.raised (side : SideIx) (peer : RingIx) (m : Imdal) : Imdal :=
  if side = 0 then { m with linkE := .up, peerE := some peer, driveE := true } else { m with linkW := .up, peerW := some peer, driveW := true }

/-- The instant from which both links of a ring that wraps have been UP. -/
def Imdal.timed (mono : Nat) (m : Imdal) : Imdal :=
  { m with upFrom := if m.wrapped && m.broken.isNone && m.linkE = .up && m.linkW = .up then some mono else m.upFrom }

theorem timed_eq (mono : Nat) (m : Imdal) : m.timed mono =
    { m with upFrom := if m.wrapped = true ∧ m.broken = none ∧ m.linkE = .up ∧ m.linkW = .up then some mono else m.upFrom } :=
  congrArg (fun u => { m with upFrom := u }) (if_congr (by simp [and_assoc]) rfl rfl)

theorem raised_state (side : SideIx) (peer : RingIx) (m : Imdal) : (m.raised side peer).state = m.state := by
  unfold Imdal.raised
  split <;> rfl

theorem raised_sameIndex (side : SideIx) (peer : RingIx) (m : Imdal) : (m.raised side peer).sameIndex = m.sameIndex := by
  unfold Imdal.raised
  split <;> rfl

theorem exec_imdalLinkUp {s : State} {side : SideIx} (peer : RingIx) (hdom : s.domOn dImdal = true)
    (hlink : (if side = 0 then s.imdal.linkE else s.imdal.linkW) ≠ .up) :
    exec (.imdalLinkUp side peer) s = .next (s.onImdal fun m => (m.raised side peer).timed s.monoNs).ringEvent.dupCheck :=
  if_neg (by simp [hdom, hlink])

/-- A device that is not JOINING, or that does not find its own index on the ring, passes the check. -/
theorem dupCheck_clean {s : State} (h : s.imdal.state = .joining → s.imdal.sameIndex = false) : s.dupCheck = s := by
  refine if_neg ?_
  simpa using h

theorem timeEvent_time (s : State) (b : Bool) : (s.timeEvent b).time = s.time := record_same (s.raise irqTime) _ _ .time (by decide)

theorem timeState_pidx (s : State) (st : BitVec 2) : (s.timeState st).time.pidx = s.time.pidx := by
  unfold State.timeState
  split
  · rfl
  · rw [timeEvent_time]; rfl

theorem refUpdate_pidx (s : State) : s.refUpdate.time.pidx = s.time.pidx := by
  unfold State.refUpdate
  extract_lets r t u
  split
  · rfl
  split
  · rw [timeEvent_time]; rfl
  split
  · rw [timeState_pidx]; rfl
  split
  · rw [timeEvent_time]; rfl
  · rw [timeEvent_time]; rfl

/-- A device that goes SOLO has its table stamped with the Period in progress, its votes of peers withdrawn, and DUP as it was. -/
theorem goSolo_left {s : State} (h : s.imdal.state ≠ .solo) :
    s.goSolo.imdal.state = .solo ∧ s.goSolo.imdal.dup = s.imdal.dup ∧ s.goSolo.imdal.changed = s.pidx ∧ s.goSolo.power.peer = [] := by
  unfold State.goSolo
  rw [if_neg h]
  extract_lets u1 u2 u3
  have h1 : SameOutside [.mix] s u1 := (foot_unshareAll (Foot.refl [.mix] s) (List.Subset.refl _)).1
  have himdal : u1.imdal = s.imdal := h1 .imdal (by decide)
  have htime : u1.time = s.time := h1 .time (by decide)
  have h3 : SameOutside [.time, .hbi, .trace, .draw] u3 u3.refUpdate := (foot_refUpdate (Foot.refl _ u3) (List.Subset.refl _)).1
  have hchange : u3.refUpdate.ringChange.imdal = { u3.imdal with changed := s.pidx } := by
    have hpidx : u3.refUpdate.pidx = s.pidx := (refUpdate_pidx u3).trans (congrArg Time.pidx htime)
    calc u3.refUpdate.ringChange.imdal = { u3.refUpdate.imdal with changed := u3.refUpdate.pidx } := record_same _ _ _ .imdal (by decide)
      _ = { u3.imdal with changed := s.pidx } := by rw [hpidx, show u3.refUpdate.imdal = u3.imdal from h3 .imdal (by decide)]
  have hpower : u3.refUpdate.ringChange.power = u3.power := (record_same _ _ _ .power (by decide)).trans (h3 .power (by decide))
  rw [hchange, hpower]
  exact ⟨rfl, (congrArg Imdal.dup himdal : u1.imdal.dup = s.imdal.dup), rfl, rfl⟩

/-- A JOINING device that finds its own index on the ring is SOLO with DUP (R323). -/
theorem dupCheck_dup {s : State} (hst : s.imdal.state = .joining) (hdup : s.imdal.sameIndex = true) :
    s.dupCheck.imdal.state = .solo ∧ s.dupCheck.imdal.dup = true ∧ s.dupCheck.imdal.changed = s.pidx ∧ s.dupCheck.power.peer = [] := by
  have hcheck : s.dupCheck = (s.onImdal fun m => { m with dup := true }).goSolo := if_pos (by simp [hst, hdup])
  rw [hcheck]
  exact goSolo_left (s := s.onImdal fun m => { m with dup := true }) (by simp [hst])

/-! ### A link goes DOWN (R319, R335, R345) -/

/-- Nothing of the ring but its two ports may have changed. -/
def Imdal.PortsOnly (m n : Imdal) : Prop := ∃ e w, n = { m with portE := e, portW := w }

theorem Imdal.PortsOnly.refl (m : Imdal) : m.PortsOnly m := ⟨_, _, rfl⟩
theorem Imdal.PortsOnly.trans {m n o : Imdal} (h : m.PortsOnly n) (k : n.PortsOnly o) : m.PortsOnly o := by
  obtain ⟨e, w, rfl⟩ := h
  obtain ⟨e', w', rfl⟩ := k
  exact ⟨e', w', rfl⟩

/-- What waits at the port of a side. -/
def Imdal.waits (side : SideIx) (m : Imdal) : List ImBlock := if side = 0 then m.portE.queue else m.portW.queue

theorem portsOnly_put (side : Nat) (msg : ImMsg) (m : Imdal) : m.PortsOnly (m.put side msg) := by
  unfold Imdal.put
  split
  · split <;> exact ⟨_, _, rfl⟩
  · split <;> exact ⟨_, _, rfl⟩

theorem side_cases (side : SideIx) : side = 0 ∨ side = 1 := (by decide : ∀ i : Fin 2, i = 0 ∨ i = 1) side

/-- What leaves by one port waits at no other. -/
theorem waits_put_other (side : SideIx) (msg : ImMsg) (m : Imdal) : (m.put (1 - side.val) msg).waits side = m.waits side := by
  obtain rfl | rfl := side_cases side
  · show (if m.linkW = .up then { m with portW := { m.portW with queue := m.portW.queue ++ msg.blocks } } else m).portE.queue = m.portE.queue
    split <;> rfl
  · show (if m.linkE = .up then { m with portE := { m.portE with queue := m.portE.queue ++ msg.blocks } } else m).portW.queue = m.portW.queue
    split <;> rfl

theorem portsOnly_linked (s : State) : s.imdal.PortsOnly s.linked := ⟨_, _, rfl⟩

theorem portNow_empty (s : State) {p : ImPort} (h : p.queue = []) : (s.portNow p).queue = [] := by
  unfold State.portNow
  simp only [h, List.length_nil, Nat.mul_zero]
  exact h

theorem waits_linked (s : State) {side : SideIx} (h : s.imdal.waits side = []) : s.linked.waits side = [] := by
  unfold Imdal.waits at h ⊢
  split at h
  · rw [if_pos ‹_›]; exact portNow_empty s h
  · rw [if_neg ‹_›]; exact portNow_empty s h

/-- Messages that leave by the other port, one after another. -/
theorem foldl_put {α : Type} (side : SideIx) (msg : α → ImMsg) (l : List α) (m : Imdal) :
    m.PortsOnly (l.foldl (fun m a => m.put (1 - side.val) (msg a)) m) ∧
      (l.foldl (fun m a => m.put (1 - side.val) (msg a)) m).waits side = m.waits side := by
  induction l generalizing m with
  | nil => exact ⟨.refl m, rfl⟩
  | cons a l ih =>
    obtain ⟨h1, h2⟩ := ih (m.put (1 - side.val) (msg a))
    exact ⟨(portsOnly_put _ _ m).trans h1, h2.trans (waits_put_other side _ m)⟩

/-- What waits at a port is lost, and the rest of the ring stands. -/
theorem drop_left (side : SideIx) (m : Imdal) : m.PortsOnly (m.drop side.val) ∧ (m.drop side.val).waits side = [] := by
  unfold Imdal.drop
  extract_lets q own again
  obtain rfl | rfl := side_cases side
  all_goals
    obtain ⟨h1, h2⟩ := foldl_put _ id again _
    exact ⟨Imdal.PortsOnly.trans ⟨_, _, rfl⟩ h1, h2⟩

/-- A device's own forwards that leave once more leave by the other port. -/
theorem resend_cmd (s : State) (side : Nat) (which : ForwardOut → Bool) :
    (s.resend side which).cmd = { s.cmd with fwd := s.cmd.fwd.map fun f => if which f then { f with side := side } else f } := by
  unfold State.resend
  split
  · next hnone =>
    have hsame : s.cmd.fwd.map (fun f => if which f then { f with side := side } else f) = s.cmd.fwd := by
      refine (List.map_congr_left fun f hf => ?_).trans (List.map_id _)
      exact if_neg (List.filter_eq_nil_iff.1 hnone f hf)
    rw [hsame]
  · rfl

theorem resend_imdal (s : State) (side : SideIx) (which : ForwardOut → Bool) (h : s.imdal.waits side = []) :
    s.imdal.PortsOnly (s.resend (1 - side.val) which).imdal ∧ (s.resend (1 - side.val) which).imdal.waits side = [] := by
  unfold State.resend
  split
  · exact ⟨.refl _, h⟩
  · obtain ⟨h1, h2⟩ := foldl_put side (fun f : ForwardOut => .forward (Fin.ofNat 8 s.imdal.index.toNat) f.target f.body) (s.cmd.fwd.filter which)
      s.linked
    exact ⟨(portsOnly_linked s).trans h1, h2.trans (waits_linked s h)⟩

/-- The state in which a link's port has lost what waited there, and the forwards sent by it have left by the other one. -/
def State.rerouted (s : State) (side : SideIx) : State :=
  (s.onImdal fun _ => s.linked.drop side.val).resend (1 - side.val) fun f => f.side = side.val

theorem rerouted_cmd (s : State) (side : SideIx) : (s.rerouted side).cmd =
    { s.cmd with fwd := s.cmd.fwd.map fun f => if f.side = side.val then { f with side := 1 - side.val } else f } := by
  refine (resend_cmd _ _ _).trans ?_
  simp

theorem rerouted_imdal (s : State) (side : SideIx) : s.imdal.PortsOnly (s.rerouted side).imdal ∧ (s.rerouted side).imdal.waits side = [] := by
  obtain ⟨h1, h2⟩ := drop_left side s.linked
  obtain ⟨h3, h4⟩ := resend_imdal (s.onImdal fun _ => s.linked.drop side.val) side (fun f => f.side = side.val) h2
  exact ⟨((portsOnly_linked s).trans h1).trans h3, h4⟩

theorem reports_rerouted {s t : State} (side : SideIx) (h : Reports s t) : Reports s (t.rerouted side) := by
  have hdrop := reports_onImdal (fun _ => t.linked.drop side.val) h
  unfold State.rerouted State.resend
  split
  · exact hdrop
  · exact reports_onImdal _ (reports_onCmd _ hdrop)

/-- The ring once a link has gone DOWN: its seam goes to that link in a whole ring, and any other break but one of the seam splits it. -/
def Imdal.fallen (was : Imdal) (side : SideIx) (m : Imdal) : Imdal :=
  let many := was.state = .enrolled && decide (2 ≤ popN 8 was.segment.toNat)
  let whole := was.state = .enrolled && was.whole
  { m with
    linkE := if side = 0 then .down else m.linkE
    linkW := if side = 0 then m.linkW else .down
    downs := satAdd m.downs 1
    upFrom := none
    seamNext := if whole then some (linkOwner m side) else m.seamNext
    split := m.split || (many && !whole && linkOwner m side ≠ m.seam) }

/-- What a link that has gone DOWN leaves of a ring of which nothing but the ports had changed. -/
theorem fallen_left {m n : Imdal} (h : m.PortsOnly n) (side : SideIx) :
    (if side = 0 then (m.fallen side n).linkE else (m.fallen side n).linkW) = .down ∧
      (if side = 0 then (m.fallen side n).linkW = m.linkW else (m.fallen side n).linkE = m.linkE) ∧
      (m.fallen side n).downs = satAdd m.downs 1 ∧ (m.fallen side n).seam = m.seam ∧ (m.fallen side n).state = m.state ∧
      (m.fallen side n).segment = m.segment ∧
      (m.state = .enrolled → m.whole = true →
        (m.fallen side n).seamNext = some (linkOwner m side) ∧ (m.fallen side n).split = m.split) ∧
      (m.state = .enrolled → 2 ≤ popN 8 m.segment.toNat → m.whole = false → linkOwner m side ≠ m.seam → (m.fallen side n).split = true) := by
  obtain ⟨e, w, rfl⟩ := h
  have hlinks : ∀ i : SideIx, (if i = 0 then (m.fallen i { m with portE := e, portW := w }).linkE
        else (m.fallen i { m with portE := e, portW := w }).linkW) = .down ∧
      (if i = 0 then (m.fallen i { m with portE := e, portW := w }).linkW = m.linkW
        else (m.fallen i { m with portE := e, portW := w }).linkE = m.linkE) := by
    intro i
    obtain rfl | rfl := side_cases i <;> exact ⟨rfl, rfl⟩
  refine ⟨(hlinks side).1, (hlinks side).2, rfl, rfl, rfl, rfl, fun hst hwhole => ⟨?_, ?_⟩, fun hst hmany hwhole howner => ?_⟩
  · exact if_pos (by simp [hst, hwhole])
  · simp [Imdal.fallen, hst, hwhole]
  · have hbreak : (decide (m.state = .enrolled) && decide (2 ≤ popN 8 m.segment.toNat) && !(decide (m.state = .enrolled) && m.whole) &&
        decide (linkOwner m side ≠ m.seam)) = true := by simp [hst, hmany, hwhole, howner]
    exact (congrArg (m.split || ·) hbreak).trans (Bool.or_true _)

theorem exec_imdalLinkDown {s : State} {side : SideIx} (hlink : (if side = 0 then s.imdal.linkE else s.imdal.linkW) = .up) :
    exec (.imdalLinkDown side) s = .next ((s.rerouted side).onImdal (s.imdal.fallen side)).ringEvent :=
  if_neg (by simp [hlink])

/-! ### Ring time lost (R329) -/

/-- A follower in FREE or LOCKED that hears no time word goes to HOLDOVER at HO_RATE. -/
theorem exec_ringTimeLoss {s : State} (hf : s.follower = true) (hword : s.imdal.word = none) (hst : s.time.state = 0 ∨ s.time.state = 3) :
    exec .ringTimeLoss s = .next (((s.onImdal fun m => { m with heard := none, aligned := false }).onTime (Time.endSlew s.time.hoRate)).timeState 1) := by
  have htrusted : s.untrusted = false := by rcases hst with h | h <;> simp [State.untrusted, h]
  have hfree : s.time.state ≠ 1 := by rcases hst with h | h <;> simp [h]
  have hrow : exec .ringTimeLoss s = .next s.ringTimeLost := congrArg Host.Outcome.next (if_pos (by simp [hf, hword]))
  rw [hrow]
  exact congrArg Host.Outcome.next ((if_neg fun hu => absurd (htrusted.symm.trans hu) (by decide)).trans (if_pos hfree))

/-- A timebase that changes state: TIME, and MONO at the entry to HOLDOVER. -/
theorem timeState_holdover {s : State} (h : s.time.state ≠ 1) :
    (s.timeState 1).time = { s.time with state := 1, hoFrom := s.time.mono.toNat } ∧ (s.timeState 1).hbi.irqStat.getLsbD irqTime = true := by
  have hstep : s.timeState 1 = (s.onTime fun t => { t with state := 1, hoFrom := t.mono.toNat }).timeEvent false := if_neg h
  rw [hstep]
  refine ⟨timeEvent_time _ false, ?_⟩
  have hraised := raise_getLsbD_self (s.onTime fun t => { t with state := 1, hoFrom := t.mono.toNat }) (b := irqTime) (by decide)
  exact (congrArg (fun h : Hbi => h.irqStat.getLsbD irqTime) (record_hbi _ _ _)).trans hraised

/-! ### The seam, cut-off, requests and merges (R323 to R326, R335, R336) -/

theorem exec_seamReturn {s : State} {e : Nat} (hw : s.imdal.wrapped = true) (hup : s.imdal.upFrom = some e) (hold : e + 1000000000 ≤ s.monoNs) :
    exec .seamReturn s = .next (s.onImdal fun m => { m with seamNext := some m.seamHome }) := by
  have hrow : exec .seamReturn s = execSeamReturn s := rfl
  rw [hrow, execSeamReturn, hup]
  exact if_pos (by simp [hw, hold])

theorem exec_cutOff {s : State} {cause : CutCause} (hst : s.imdal.state = .enrolled) (hseg : s.imdal.segment ≠ onlyDev s.imdal.index)
    (hlink : cause = .noLink → s.imdal.linkE ≠ .up ∧ s.imdal.linkW ≠ .up) (htrust : cause = .untrusted → s.untrusted = true)
    (hofs : cause = .misaligned → 10000000 < s.imdal.offsetPs.natAbs ∨ (s.follower = true ∧ s.imdal.heard = none)) :
    exec (.cutOff cause) s = .next (s.onImdal fun m => { m with cutDue := true }) := by
  refine if_pos ?_
  cases cause with
  | noLink => simp [hst, hseg, hlink rfl]
  | untrusted => simp [hst, hseg, htrust rfl]
  | misaligned => simpa [hst, hseg] using hofs rfl
  | silent => simp [hst, hseg]

theorem exec_membershipRequest {s : State} (hst : s.imdal.state = .joining) (hrun : 100 ≤ s.imdal.alignedRun) :
    exec .membershipRequest s = .next ((s.onImdal fun m => { m with asked := true }).sendBy s.imdal.fwdSide (.control (.request s.imdal.homeroom))) :=
  if_pos (by simp [hst, hrun])

/-- A boundary that is named travels on, and is acknowledged (R324). -/
theorem tellNamed_imdal (u : State) (h : Heard) (devs : BitVec 8) : (u.tellNamed h devs).imdal =
    (if u.imdal.state ≠ .enrolled then u
      else if u.imdal.homeroom = some u.imdal.index then u.sendBoth (.control (.named (u.pidxAt (u.time.ord + 4)) devs))
      else (u.sendBy (1 - h.side.val) (.control (.named (u.pidxAt (u.time.ord + 4)) devs))).sendBy h.side.val
        (.control (.ack (u.pidxAt (u.time.ord + 4))))).imdal := rfl

/-- The agreement on a joining device that a request asks for (R324): its boundary, or the wait for a new name. -/
def State.joinOf (s : State) (from_ : RingIx) (members : BitVec 8) (h : Heard) : Join where
  devs := onlyDev (BitVec.ofNat 3 from_.val) ||| (if BitVec.ofNat 3 from_.val = s.imdal.index then members else 0)
  at_ := if h.acked then some (s.time.ord + 4) else none
  wait := if h.acked then none else some (s.time.ord + 3)

theorem exec_membershipRequestReceived {s : State} {from_ : RingIx} {members : BitVec 8} {h : Heard}
    (hwho : (s.imdal.state = .enrolled ∧ ¬BitVec.ofNat 3 from_.val = s.imdal.index) ∨
      (s.imdal.state = .joining ∧ BitVec.ofNat 3 from_.val = s.imdal.index ∧ s.imdal.asked = true)) :
    exec (.membershipRequestReceived from_ members h) s =
      .next ((s.onImdal (Imdal.agree (s.joinOf from_ members h))).tellNamed h (s.joinOf from_ members h).devs) :=
  if_pos (by simpa [and_assoc] using hwho)

/-- The ring with a merge agreed on (R336). -/
def Imdal.merging (ord : Nat) (devices : BitVec 8) (h : MergeHeard) (clash : List (Fin 1024)) (m : Imdal) : Imdal := { m with
  mergeAt := if h.named.acked then some (ord + 4) else none
  mergeWait := if h.named.acked ∨ h.aligned then none else some (ord + 3)
  mergeWith := devices
  mergeClash := if h.aligned then clash.map (·.val) else [] }

theorem exec_segmentMerge {s : State} {devices : BitVec 8} {h : MergeHeard} {clash : List (Fin 1024)} (hst : s.imdal.state = .enrolled)
    (hmerge : s.imdal.mergeAt = none) (hal : h.aligned = true → 100 ≤ s.imdal.alignedRun) :
    exec (.segmentMerge devices h clash) s =
      .next ((s.onImdal (Imdal.merging s.time.ord devices h clash)).tellNamed h.named devices) := by
  have hgo : (decide (s.imdal.state = .enrolled) && s.imdal.mergeAt.isNone && (!h.aligned || decide (100 ≤ s.imdal.alignedRun))) = true := by
    cases hh : h.aligned
    · simp [hst, hmerge]
    · simp [hst, hmerge, hal hh]
  refine (if_pos hgo).trans ?_
  unfold Imdal.merging
  simp only [Bool.or_eq_true]

/-! ### Time words (R328, R329, R340) -/

/-- The links' ports at the present depend on the timebase through MONO and the place in the Period. -/
theorem linked_congr {s t : State} (himdal : t.imdal = s.imdal) (hmono : t.time.mono = s.time.mono) (hns : t.time.ns = s.time.ns)
    (hmix : t.mix = s.mix) : t.linked = s.linked := by
  unfold State.linked State.portNow State.lateRuns State.monoNs Time.inPeriod
  rw [himdal, hmono, hns, hmix]

/-- The ring with what a time word tells by its coming: the delay of the side, and the lowest Homeroom heard. -/
def Imdal.heardWord (side : SideIx) (w : TimeWord) (m : Imdal) : Imdal := { m with
  delayE := if side = 0 then w.delayPs else m.delayE
  delayW := if side = 1 then w.delayPs else m.delayW
  heard := m.hears (BitVec.ofNat 3 w.homeroom.val)
  heardIn := true }

/-- The ring with what a time word tells a follower. -/
def Imdal.followedWord (side : SideIx) (w : TimeWord) (pidx : Word) (m : Imdal) : Imdal := { m with
  word := some (w.hops, side = 1)
  homeroom := if m.aligns then m.homeroom else some (BitVec.ofNat 3 w.homeroom.val)
  offsetPs := w.offsetPs
  aligned := decide (w.offsetPs.natAbs ≤ 2000) && w.pidx = pidx
  hrState := w.state
  hrTai := w.tai }

theorem peerIrqs_imdal (s : State) (b : BitVec 8) : (s.peerIrqs b).imdal = { s.imdal with irqs := b } := by
  unfold State.peerIrqs
  extract_lets new u
  split <;> rfl

theorem peerIrqs_same (s : State) (b : BitVec 8) : SameOutside [.hbi, .imdal] s (s.peerIrqs b) :=
  (foot_peerIrqs (Foot.refl _ s) (List.Subset.refl _)).1

theorem reports_peerIrqs {s t : State} (b : BitVec 8) (h : Reports s t) : Reports s (t.peerIrqs b) :=
  reports_ite (reports_ringEvent (reports_onImdal _ h)) (reports_onImdal _ h)

/-- IMDAL is raised where a peer's bit has come on (R340). -/
theorem peerIrqs_irqImdal {s : State} {b : BitVec 8} (h : b &&& ~~~s.imdal.irqs &&& ~~~onlyDev s.imdal.index ≠ 0) :
    (s.peerIrqs b).hbi.irqStat.getLsbD irqImdal = true := by
  have hnew : s.peerIrqs b = (s.onImdal fun m => { m with irqs := b }).ringEvent := if_pos h
  rw [hnew]
  exact ringEvent_irqImdal _

/-- A device puts in its own bit alone (R340). -/
theorem withIrq_others (s : State) (b : BitVec 8) :
    s.withIrq b &&& ~~~onlyDev s.imdal.index = b &&& ~~~onlyDev s.imdal.index := by
  unfold State.withIrq
  refine BitVec.eq_of_getLsbD_eq fun i hi => ?_
  split
  · simp only [BitVec.getLsbD_and, BitVec.getLsbD_or, BitVec.getLsbD_not, hi, decide_true, Bool.true_and]
    cases (onlyDev s.imdal.index).getLsbD i <;> simp
  · simp

/-- TAI_VALID of the Homeroom becomes the device's own. -/
def State.taiTold (s : State) (tai : Bool) : State :=
  if s.time.tai = tai then s else (s.onTime fun t => { t with tai := tai }).raise irqTime

/-- A jump that the Homeroom has armed is the device's own where none waits. -/
def State.jumpTold (s : State) (jump : Option (Int × Word)) : State :=
  match jump with
  | some (j, b) => if s.time.jumpDue.isNone && inFuture b s.time.pidx then
      s.onTime fun t => { t with jumpDue := some (j, t.ord + (b - t.pidx).toNat) } else s
  | none => s

/-- The state of a follower that has heard a time word, before the word travels on. -/
def State.wordHeard (s : State) (side : SideIx) (w : TimeWord) : State :=
  (((s.onImdal fun m => (m.heardWord side w).followedWord side w s.time.pidx).peerIrqs w.irqs).taiTold w.tai).jumpTold w.jump

/-- What a time word does to the timebase of a follower that is trusted. -/
def State.wordMeasured (s : State) (w : TimeWord) : State :=
  let u := s.measure (sgn 32 (w.pidx - s.time.pidx).toNat * 500000 + divRha w.offsetPs 1000) 2
  if w.state = 3 then u.timeState 3 else u

section
variable {s : State} {side : SideIx} {w : TimeWord}

/-- The Homeroom's own word has come back to it: it brings the bits of the peers. -/
theorem exec_timeWordReceived_own (hlink : (if side = 0 then s.imdal.linkE else s.imdal.linkW) = .up) (hst : s.imdal.state = .enrolled)
    (hown : BitVec.ofNat 3 w.homeroom.val = s.imdal.index) :
    exec (.timeWordReceived side w) s = .next ((s.onImdal (Imdal.heardWord side w)).peerIrqs w.irqs) := by
  refine (if_neg ?_).trans (if_pos (by simp [hst, hown]))
  split at hlink <;> simp [*]

/-- A word that the device does not follow travels on. -/
theorem exec_timeWordReceived_passed (hlink : (if side = 0 then s.imdal.linkE else s.imdal.linkW) = .up)
    (hown : ¬(s.imdal.state = .enrolled ∧ BitVec.ofNat 3 w.homeroom.val = s.imdal.index))
    (hnot : (s.onImdal (Imdal.heardWord side w)).follower = false ∨
      (s.imdal.heardWord side w).follows (BitVec.ofNat 3 w.homeroom.val) = false) :
    exec (.timeWordReceived side w) s = .next ((s.onImdal (Imdal.heardWord side w)).passWord side w) := by
  refine (if_neg ?_).trans ((if_neg (by simpa using hown)).trans (if_pos ?_))
  · split at hlink <;> simp [*]
  · have hnot' : (!(s.onImdal (Imdal.heardWord side w)).follower ||
        !(s.onImdal (Imdal.heardWord side w)).imdal.follows (BitVec.ofNat 3 w.homeroom.val)) = true := by simpa using hnot
    refine Eq.trans (Bool.or_assoc _ _ _) ?_
    exact (congrArg _ hnot').trans (Bool.or_true _)

theorem none_fails {a b c : Bool} (ha : a = true) (hb : b = true) (hc : c = true) : ¬((!a || !b || !c) = true) := by
  simp [ha, hb, hc]

/-- The first word of a Period that the device follows. -/
theorem exec_timeWordReceived_followed (hlink : (if side = 0 then s.imdal.linkE else s.imdal.linkW) = .up)
    (hown : ¬(s.imdal.state = .enrolled ∧ BitVec.ofNat 3 w.homeroom.val = s.imdal.index)) (hword : s.imdal.word = none)
    (hf : (s.onImdal (Imdal.heardWord side w)).follower = true)
    (hfollows : (s.imdal.heardWord side w).follows (BitVec.ofNat 3 w.homeroom.val) = true) :
    exec (.timeWordReceived side w) s = (let u := (s.wordHeard side w).passWord side w
      if u.untrusted then .next u else .next (u.wordMeasured w)) := by
  refine (if_neg ?_).trans ((if_neg (by simpa using hown)).trans (if_neg ?_))
  · split at hlink <;> simp [*]
  · refine none_fails ?_ hf hfollows
    rw [hword]

/-- A time word that travels on leaves by the other port, except at the Homeroom that sent it. -/
theorem passWord_imdal {u : State} (hindex : u.imdal.index = s.imdal.index) (hlinked : u.linked = (s.onImdal fun _ => u.imdal).linked) :
    (u.passWord side w).imdal = (if BitVec.ofNat 3 w.homeroom.val = s.imdal.index then s.onImdal fun _ => u.imdal
      else (s.onImdal fun _ => u.imdal).sendBy (1 - side.val) (.timeWord (RingWord.mk w.pidx w.jump w.tai w.state (u.withIrq w.irqs) (w.hops + 1)
        (BitVec.ofNat 3 w.homeroom.val)))).imdal := by
  unfold State.passWord
  rw [hindex]
  split
  · rfl
  · exact congrArg (Imdal.put (1 - side.val) _) hlinked

theorem taiTold_left (s : State) (tai : Bool) : SameOutside [.time, .hbi] s (s.taiTold tai) ∧ (s.taiTold tai).time = { s.time with tai := tai } := by
  refine ⟨(foot_ite (fun _ => Foot.refl _ s) fun _ => foot_raise (foot_onTime (Foot.refl _ s) (by decide) fun k => k) (by decide)).1, ?_⟩
  unfold State.taiTold
  split
  · next h => rw [← h]
  · rfl

theorem jumpTold_left (s : State) (jump : Option (Int × Word)) :
    SameOutside [.time] s (s.jumpTold jump) ∧ (s.jumpTold jump).time = { s.time with jumpDue := (s.jumpTold jump).time.jumpDue } := by
  unfold State.jumpTold
  split
  · split
    · exact ⟨(foot_onTime (Foot.refl _ s) (by decide) fun k => k).1, rfl⟩
    · exact ⟨(Foot.refl _ s).1, rfl⟩
  · exact ⟨(Foot.refl _ s).1, rfl⟩

/-- What a follower has taken from a time word. -/
theorem wordHeard_left (s : State) (side : SideIx) (w : TimeWord) :
    SameOutside [.time, .hbi, .imdal] s (s.wordHeard side w) ∧
      (s.wordHeard side w).imdal = { (s.imdal.heardWord side w).followedWord side w s.time.pidx with irqs := w.irqs } ∧
      (s.wordHeard side w).time = { s.time with tai := w.tai, jumpDue := (s.wordHeard side w).time.jumpDue } := by
  unfold State.wordHeard
  generalize hu1 : s.onImdal (fun m => (m.heardWord side w).followedWord side w s.time.pidx) = u1
  have h1 : SameOutside [.imdal] s u1 := hu1 ▸ (foot_onImdal (Foot.refl _ s) (by decide)).1
  have himdal : u1.imdal = (s.imdal.heardWord side w).followedWord side w s.time.pidx := hu1 ▸ rfl
  have h2 := peerIrqs_same u1 w.irqs
  have himdal2 := peerIrqs_imdal u1 w.irqs
  obtain ⟨h3, htime3⟩ := taiTold_left (u1.peerIrqs w.irqs) w.tai
  obtain ⟨h4, htime4⟩ := jumpTold_left ((u1.peerIrqs w.irqs).taiTold w.tai) w.jump
  have htime2 : (u1.peerIrqs w.irqs).time = s.time := (h2 .time (by decide)).trans (h1 .time (by decide))
  refine ⟨?_, ?_, ?_⟩
  · exact same_trans (same_trans (same_trans h1 h2 (rs := [.time, .hbi, .imdal]) (by decide) (by decide)) h3 (List.Subset.refl _) (by decide)) h4
      (List.Subset.refl _) (by decide)
  · rw [show State.imdal _ = _ from h4 .imdal (by decide), show State.imdal _ = _ from h3 .imdal (by decide), himdal2, himdal]
  · rw [htime3, htime2] at htime4
    exact htime4

/-- A follower passes a time word on with its own bit put in, and has taken TAI_VALID and the ring's course from it. -/
theorem passWord_wordHeard (s : State) (side : SideIx) (w : TimeWord) :
    let u := s.wordHeard side w
    let heard := s.onImdal fun m => { (m.heardWord side w).followedWord side w s.time.pidx with irqs := w.irqs }
    u.withIrq w.irqs &&& ~~~onlyDev s.imdal.index = w.irqs &&& ~~~onlyDev s.imdal.index ∧ (u.passWord side w).time.tai = w.tai ∧
      (u.passWord side w).imdal = (if BitVec.ofNat 3 w.homeroom.val = s.imdal.index then heard
        else heard.sendBy (1 - side.val) (.timeWord (RingWord.mk w.pidx w.jump w.tai w.state (u.withIrq w.irqs) (w.hops + 1)
          (BitVec.ofNat 3 w.homeroom.val)))).imdal := by
  intro u heard
  obtain ⟨hsame, himdal, htime⟩ := wordHeard_left s side w
  have hlinked : u.linked = (s.onImdal fun _ => u.imdal).linked :=
    linked_congr rfl (by rw [htime]; rfl) (by rw [htime]; rfl) (hsame .mix (by decide))
  have hindex : u.imdal.index = s.imdal.index := by rw [himdal]; rfl
  have hothers := withIrq_others u w.irqs
  have hpassed := passWord_imdal (side := side) (w := w) hindex hlinked
  rw [hindex] at hothers
  rw [himdal] at hpassed
  refine ⟨hothers, ?_, hpassed⟩
  rw [show State.time _ = _ from (foot_passWord (Foot.refl [.imdal] u) (by decide)).1 .time (by decide), htime]

theorem timeState_tai (s : State) (st : BitVec 2) : (s.timeState st).time.tai = s.time.tai := by
  unfold State.timeState
  split
  · rfl
  · rw [timeEvent_time]; rfl

theorem correct_tai (s : State) (theta : Int) : (s.correct theta).time.tai = s.time.tai := by
  unfold State.correct
  extract_lets waiting pend eff j rest base rate
  split <;> rfl

theorem measure_tai (s : State) (theta bound : Int) : (s.measure theta bound).time.tai = s.time.tai := by
  unfold State.measure
  extract_lets good bad u1 slew u2 u3
  have h2 : u2.time.tai = s.time.tai := correct_tai u1 theta
  have h3 : u3.time.tai = s.time.tai := by
    unfold u3
    split <;> exact h2
  split
  · exact (timeState_tai _ _).trans h3
  · exact h3

/-- What a time word does to the timebase of a follower leaves the ring and TAI_VALID. -/
theorem wordMeasured_left (s : State) (w : TimeWord) :
    (s.wordMeasured w).imdal = s.imdal ∧ (s.wordMeasured w).time.tai = s.time.tai := by
  unfold State.wordMeasured
  extract_lets u
  have hu : SameOutside [.time, .hbi, .trace, .draw] s u := (foot_measure (Foot.refl _ s) (List.Subset.refl _)).1
  have himdal : u.imdal = s.imdal := hu .imdal (by decide)
  have htai : u.time.tai = s.time.tai := measure_tai s _ _
  split
  · exact ⟨((foot_timeState (Foot.refl [.time, .hbi, .trace, .draw] u) (List.Subset.refl _)).1 .imdal (by decide)).trans himdal,
      (timeState_tai u 3).trans htai⟩
  · exact ⟨himdal, htai⟩

end

/-! ### The obligation -/

/-- Settles O54: every row by what it answers under its condition; the links' rows leave all of the ring but its ports and the link. -/
theorem imdalRing : Obligations.ImdalRing := by
  intro s m linked told
  refine ⟨fun side peer hdom hlink => ?_, fun side peer hdom hlink hdup hst => ?_, fun side hlink => ?_, fun e hw hup hold => ?_,
    fun hf hword hst => ?_, fun cause hst hseg hlink htrust hofs => ?_, fun hst hrun => ?_, fun from_ members h => ?_,
    fun devices h clash hst hmerge hal => ?_, fun side w hlink => ?_⟩
  · intro e hsame
    have hclean : (s.onImdal fun m => (m.raised side peer).timed s.monoNs).ringEvent.dupCheck = _ :=
      dupCheck_clean fun hj => hsame ((raised_state side peer m).symm.trans hj)
    obtain ⟨t, hex, hsameO, hrep, himdal, hirq⟩ := doesR_ringEvent ((exec_imdalLinkUp peer hdom hlink).trans (congrArg _ hclean))
    exact ⟨t, hex, hsameO, hrep, himdal.trans (timed_eq _ _), hirq⟩
  · have hleft := dupCheck_dup (s := (s.onImdal fun m => (m.raised side peer).timed s.monoNs).ringEvent)
      ((raised_state side peer m).trans hst) ((raised_sameIndex side peer m).trans hdup)
    exact does_of (exec_imdalLinkUp peer hdom hlink) (foot_execImdalLinkUp (Foot.refl _ s) (List.Subset.refl _)) (List.Subset.refl _) hleft
  · obtain ⟨⟨e, w, hring⟩, hwaits⟩ := rerouted_imdal s side
    have hfallen : (((s.rerouted side).onImdal (s.imdal.fallen side)).ringEvent).imdal = s.imdal.fallen side { m with portE := e, portW := w } :=
      congrArg (s.imdal.fallen side) hring
    rw [hring] at hwaits
    refine ⟨_, exec_imdalLinkDown hlink, ?_, reports_ringEvent (reports_onImdal _ (reports_rerouted side (Reports.refl s))), rerouted_cmd s side, ?_⟩
    · exact (foot_ringEvent (foot_onImdal (foot_resend (foot_onImdal (Foot.refl [.hbi, .trace, .draw, .cmd, .imdal] s) (by decide)) (by decide))
        (by decide)) (by decide)).1
    rw [hfallen]
    obtain ⟨hdown, hother, hdowns, hseam, hst, hseg, hmoved, hsplit⟩ := fallen_left (m := s.imdal) ⟨e, w, rfl⟩ side
    exact ⟨hwaits, hdown, hother, hdowns, hseam, hst, hseg, ringEvent_irqImdal _, hmoved, hsplit⟩
  · exact does_onImdal (exec_seamReturn hw hup hold)
  · have hfree : s.time.state ≠ 1 := by rcases hst with h | h <;> simp [h]
    obtain ⟨htime, hirq⟩ := timeState_holdover (s := (s.onImdal fun m => { m with heard := none, aligned := false }).onTime
      (Time.endSlew s.time.hoRate)) hfree
    refine doesR_of (exec_ringTimeLoss hf hword hst) (foot_execRingTimeLoss (Foot.refl _ s) (List.Subset.refl _)) (by decide)
      (reports_timeState _ (reports_onTime _ (reports_onImdal _ (Reports.refl s)))) ⟨?_, htime, hirq⟩
    exact (foot_timeState (Foot.refl [.time, .hbi, .trace, .draw] _) (List.Subset.refl _)).1 .imdal (by decide)
  · exact does_onImdal (exec_cutOff hst hseg hlink htrust hofs)
  · exact does_onImdal (f := fun _ => _) (exec_membershipRequest hst hrun)
  · intro mine hwho
    exact does_of (exec_membershipRequestReceived hwho) (foot_execMembershipRequestReceived (Foot.refl _ s) (List.Subset.refl _)) (List.Subset.refl _)
      (tellNamed_imdal _ h _)
  · have hmerge' := exec_segmentMerge (devices := devices) (clash := clash) hst hmerge hal
    refine does_of hmerge' (foot_execSegmentMerge (Foot.refl _ s) (List.Subset.refl _)) (List.Subset.refl _) ?_
    exact tellNamed_imdal _ h.named devices
  · intro e u hr passed
    refine ⟨fun hst hown => ?_, fun hown hnot => ?_, fun hown hf hword hfollows => ?_⟩
    · exact ⟨_, exec_timeWordReceived_own hlink hst hown,
        (foot_peerIrqs (foot_onImdal (Foot.refl [.hbi, .trace, .draw, .imdal] s) (by decide)) (by decide)).1,
        reports_peerIrqs _ (reports_onImdal _ (Reports.refl s)), peerIrqs_imdal _ _, fun hnew => peerIrqs_irqImdal hnew⟩
    · exact ⟨_, exec_timeWordReceived_passed hlink hown hnot,
        (foot_passWord (foot_onImdal (Foot.refl [.imdal] s) (by decide)) (by decide)).1, passWord_imdal rfl rfl⟩
    · have hex := exec_timeWordReceived_followed hlink hown hword hf hfollows
      have hfoot := foot_execTimeWordReceived (side := side) (w := w) (Foot.refl [.time, .hbi, .imdal, .trace, .draw] s) (List.Subset.refl _)
      obtain ⟨hothers, htai, hpassed⟩ := passWord_wordHeard s side w
      obtain ⟨hkept, hkepttai⟩ := wordMeasured_left ((s.wordHeard side w).passWord side w) w
      unfold Imdal.followedWord at hpassed
      rw [← Bool.decide_and] at hpassed
      dsimp only at hex
      split at hex
      · exact does_of hex hfoot (List.Subset.refl _) ⟨_, hothers, htai, hpassed⟩
      · exact does_of hex hfoot (List.Subset.refl _) ⟨_, hothers, hkepttai.trans htai, hkept.trans hpassed⟩

end Sys2Proof.Machine
end

section
/-! SUPPORT. Forwards (R321, R337 to R339, R341): how an answer leaves, what serving a peer's forward does, and how a device's own forward
completes. -/

namespace Sys2Proof.Machine

/-! ### Answers to peers -/

section
variable {s v r : State} {q : RingIx}

/-- Answers that wait take their place on a link, in their order. -/
theorem sendAnswers_waiting {l : List (RingIx × ForwardAnswer)} (h : s.cmd.answers = l) (hne : l ≠ []) :
    s.sendAnswers = (s.onCmd fun m => { m with answers := [] }).onImdal fun _ => l.foldl (fun m x => m.put m.fwdSide (.answer x.1 x.2)) s.linked := by
  unfold State.sendAnswers
  rw [h]
  cases l with
  | nil => exact absurd rfl hne
  | cons a l => rfl

/-- A peer's answer that joins those that wait: it leaves with them. -/
theorem sendAnswers_answered {a : ForwardAnswer} (hcmd : r.cmd = { s.cmd with answer := some a, answers := s.cmd.answers ++ [(q, a)] })
    (hlinked : r.linked = v.linked) :
    r.sendAnswers.cmd = { s.cmd with answer := some a, answers := [] } ∧
      r.sendAnswers.imdal = (s.cmd.answers ++ [(q, a)]).foldl (fun m x => m.put m.fwdSide (.answer x.1 x.2)) v.linked := by
  rw [sendAnswers_waiting (congrArg CmdPath.answers hcmd) (by simp), hlinked]
  exact ⟨congrArg (fun m : CmdPath => { m with answers := [] }) hcmd, rfl⟩

/-- The answer to a register forward. -/
theorem sendAnswers_answerReg (st : Nat) (r0 : Word) (hcmd : r.cmd = s.cmd) (himdal : r.imdal = v.imdal) (hlinked : r.linked = v.linked) :
    let a : ForwardAnswer := { status := BitVec.ofNat 4 st, res0 := r0, res1 := Config.forwardWord 1 v.imdal.served.toNat, epoch := s.cmd.epoch, data := [] }
    (r.answerReg q st r0).sendAnswers.cmd = { s.cmd with answer := some a, answers := [] } ∧
      (r.answerReg q st r0).sendAnswers.imdal = (s.cmd.answers ++ [(q, a)]).foldl (fun m x => m.put m.fwdSide (.answer x.1 x.2)) v.linked := by
  intro a
  refine sendAnswers_answered ?_ hlinked
  rw [show r.answerReg q st r0 = r.onCmd fun m => { m with
    answer := some ⟨BitVec.ofNat 4 st, r0, Config.forwardWord 1 r.imdal.served.toNat, r.cmd.epoch, []⟩
    answers := m.answers ++ [(q, ⟨BitVec.ofNat 4 st, r0, Config.forwardWord 1 r.imdal.served.toNat, r.cmd.epoch, []⟩)] } from rfl, onCmd_cmd, himdal, hcmd]

end

/-! ### A peer's forward arrives (R338, R341) -/

/-- The state that serves one more forward. -/
def State.countServed (s : State) : State := s.onImdal fun m => { m with served := m.served + 1 }

section
variable {s : State} {q : RingIx} {f : ForwardIn}

theorem exec_forwardReceived_foreign (h : s.imdal.state ≠ .enrolled ∨ s.imdal.segment.getLsbD q.val = false) :
    exec (.forwardReceived q f) s = .next s :=
  if_pos (by simpa using h)

theorem exec_forwardReceived_passed (hst : s.imdal.state = .enrolled) (hseg : s.imdal.segment.getLsbD q.val = true)
    (htarget : BitVec.ofNat 3 f.target.val ≠ s.imdal.index) :
    exec (.forwardReceived q f) s = .next (s.sendBy (1 - f.side.val) (.forward q f.target f.body)) :=
  (if_neg (by simp [hst, hseg])).trans (if_pos htarget)

theorem peerArrives_same (s : State) (f : Forward) : SameOutside [.hbi, .power, .trace] s (s.peerArrives f) := by
  cases f with
  | command c d => exact (foot_selfVote (Foot.refl _ s) (List.Subset.refl _)).1
  | regRead k => exact (Foot.refl _ s).1
  | regWrite k w => exact (Foot.refl _ s).1

theorem reports_peerArrives {s t : State} (f : Forward) (h : Reports s t) : Reports s (t.peerArrives f) := by
  cases f with
  | command c d => exact reports_selfVote _ _ h
  | regRead k => exact h
  | regWrite k w => exact h

theorem exec_forwardReceived_own (hst : s.imdal.state = .enrolled) (hseg : s.imdal.segment.getLsbD q.val = true)
    (htarget : BitVec.ofNat 3 f.target.val = s.imdal.index) :
    exec (.forwardReceived q f) s =
      if s.cmd.waiting.isSome || s.peerBusy || !s.cmd.peerQ.isEmpty then
        .next ((s.peerArrives f.body).onCmd fun m => { m with peerQ := m.peerQ ++ [(q, f.body)] })
      else .next ((s.peerArrives f.body).serveForward q f.body) := by
  have hcmd : (s.peerArrives f.body).cmd = s.cmd := peerArrives_same s f.body .cmd (by decide)
  have hrow : exec (.forwardReceived q f) s = if (s.peerArrives f.body).cmd.waiting.isSome || (s.peerArrives f.body).peerBusy ||
      !(s.peerArrives f.body).cmd.peerQ.isEmpty then
        .next ((s.peerArrives f.body).onCmd fun m => { m with peerQ := m.peerQ ++ [(q, f.body)] })
      else .next ((s.peerArrives f.body).serveForward q f.body) := (if_neg (by simp [hst, hseg])).trans (if_neg (not_not.2 htarget))
  rw [hrow]
  unfold State.peerBusy
  rw [hcmd]

/-- A forward queues behind a command that waits, behind other forwards, and behind one that has no answer yet. -/
theorem exec_forwardReceived_queued (hst : s.imdal.state = .enrolled) (hseg : s.imdal.segment.getLsbD q.val = true)
    (htarget : BitVec.ofNat 3 f.target.val = s.imdal.index) (h : s.cmd.waiting ≠ none ∨ s.cmd.peerQ ≠ [] ∨ s.peerBusy = true) :
    exec (.forwardReceived q f) s = .next ((s.peerArrives f.body).onCmd fun m => { m with peerQ := m.peerQ ++ [(q, f.body)] }) := by
  refine (exec_forwardReceived_own hst hseg htarget).trans (if_pos ?_)
  rcases h with h | h | h
  · simp [Option.isSome_iff_ne_none, h]
  · simp [h]
  · simp [h]

theorem exec_forwardReceived_served (hst : s.imdal.state = .enrolled) (hseg : s.imdal.segment.getLsbD q.val = true)
    (htarget : BitVec.ofNat 3 f.target.val = s.imdal.index) (hwait : s.cmd.waiting = none) (hqueue : s.cmd.peerQ = []) (hbusy : s.peerBusy = false) :
    exec (.forwardReceived q f) s = .next ((s.peerArrives f.body).serveForward q f.body) :=
  (exec_forwardReceived_own hst hseg htarget).trans (if_neg (by simp [hwait, hqueue, hbusy]))

end

/-! ### Register forwards (R339) -/

section
variable {s : State} {q : RingIx}

/-- While PEER_CMD is clear every register forward is denied. -/
theorem serveReg_denied (hpeer : s.cmd.peerCmd = false) {f : Forward} (hreg : ∀ c d, f ≠ .command c d) :
    s.serveReg q f = s.answerReg q stDenied s.noResult := by
  cases f with
  | command c d => exact absurd rfl (hreg c d)
  | regRead k => exact if_pos (by simp [hpeer])
  | regWrite k w => exact if_pos (by simp [hpeer])

theorem serveReg_read (hpeer : s.cmd.peerCmd = true) {k : Fin 53} (h1 : k.val ≠ regWinData) (h2 : k.val ≠ regWinDataInc) :
    s.serveReg q (.regRead k) = (s.regClear k.val).answerReg q stOk (s.regValue k.val) := by
  refine (if_neg (by simp [hpeer])).trans ?_
  simp [State.regRead, h1, h2]

theorem mergeBe_full (x w : Word) : mergeBe x w 0xF = w := by
  have hmask : mergeBe x w 0xF = (x &&& 0#32) ||| (w &&& BitVec.allOnes 32) := rfl
  rw [hmask, BitVec.and_zero, BitVec.and_allOnes, BitVec.zero_or]

theorem serveReg_irqEn (hpeer : s.cmd.peerCmd = true) (w : Word) :
    s.serveReg q (.regWrite 7 w) = (s.onHbi fun h => { h with irqEn := w.setWidth 16 }).answerReg q stOk s.noResult := by
  refine (if_neg (by simp [hpeer, regIrqEn])).trans ?_
  have hput : (s.regPut 7 { val := w, be := 0xF } cleanBus).1 = s.onHbi fun h => { h with irqEn := (mergeBe (h.irqEn.setWidth 32) w 0xF).setWidth 16 } := rfl
  simp only [mergeBe_full] at hput
  exact congrArg (fun u : State => u.answerReg q stOk s.noResult) hput

/-- No register shows the count of forwards served. -/
theorem regValue_countServed (s : State) (k : Nat) : s.countServed.regValue k = s.regValue k := by
  unfold State.regValue
  split <;> rfl

theorem regClear_same (s : State) (k : Nat) : SameOutside [.time, .hbi, .tiles, .mem, .power, .boot] s (s.regClear k) :=
  (foot_regClear (Foot.refl _ s) (List.Subset.refl _)).1

theorem linked_regClear (s : State) (k : Nat) : (s.regClear k).linked = s.linked := by
  rw [regClear_eq]
  rfl

end

/-! ### A forwarded NOP (R51, R337, R338) -/

theorem length_padTo (n : Nat) (bs : List Byte) : (padTo n bs).length = n := by
  simp only [padTo, List.length_take, List.length_append, List.length_replicate]
  omega

/-- A read that meets no word in error reads what memory holds (R385). -/
theorem readGood_clean {bad : List Nat} {a n : Nat} (h : badWords bad a n = []) (m : List Host.Cell) : readGood bad m a n = Memory.readBytes m a n := by
  unfold readGood
  split
  · rfl
  · refine List.map_congr_left fun i hi => if_neg fun hbad => ?_
    have hmem : (a + i) / 4 ∈ badWords bad a n := by
      have hlt : i < n := List.mem_range.1 hi
      refine List.mem_filter.2 ⟨by simpa using hbad, ?_⟩
      simp only [Bool.and_eq_true, decide_eq_true_eq]
      omega
    rw [h] at hmem
    exact absurd hmem (List.not_mem_nil)

/-- A write puts no word in error. -/
theorem badWords_healed {bad : List Nat} {a n : Nat} (h : badWords bad a n = []) (b k : Nat) : badWords (healed b k bad) a n = [] := by
  refine List.filter_eq_nil_iff.2 fun w hw => ?_
  exact List.filter_eq_nil_iff.1 h w (List.mem_filter.1 hw).1

/-- The parameter data of a peer lies below the area of its results. -/
theorem peerResult_putParam (m : Memory) (d : List Byte) :
    Memory.readBytes (m.putSram peerParamAt (padTo 128 d)).sram peerResultAt 128 = Memory.readBytes m.sram peerResultAt 128 := by
  refine List.map_congr_left fun i _ => read_putBytes_out (.inr ?_) m.sram
  rw [length_padTo]
  exact Nat.le_add_right _ i

section
variable {s : State} {q : RingIx}

/-- A peer's command leaves its source as it found the command path: nothing waited. -/
theorem peer_taken (h : s.cmd.waiting = none) : (s.onCmd fun m => { m with
    waiting := none
    mbox := if Source.peer q = .mailbox then none else m.mbox
    status := if Source.peer q = .mailbox then 0 else m.status }) = s := by
  have hcmd : { s.cmd with waiting := none } = s.cmd := by rw [← h]
  exact congrArg (fun m : CmdPath => { s with cmd := m }) hcmd

/-- What the completion of a peer's command does where its result area holds no word in error (R338). -/
theorem complete_peer {u : State} (c : CmdWords) (r0 r1 : Word) (hclean : badWords u.mem.badSram peerResultAt 128 = []) :
    let a : ForwardAnswer := { status := 0, res0 := r0, res1 := r1, epoch := u.cmd.epoch, data := Memory.readBytes u.mem.sram peerResultAt 128 }
    u.complete (.peer q) c stOk r0 r1 =
      ((u.count 219).onCmd fun m => { m with answer := some a, answers := m.answers ++ [(q, a)] }).record 1
        (pack [(0, c.op), (8, stOk), (12, sourceCode (.peer q)), (16, c.seq.toNat)]) := by
  intro a
  have hmet : (u.count 219).sramMet peerResultAt 128 = u.count 219 := sramMet_clean hclean
  have hdata : peerResult (u.count 219) = Memory.readBytes u.mem.sram peerResultAt 128 := readGood_clean hclean _
  have hanswer : (u.count 219).answerSource (.peer q) c stOk r0 r1 =
      (u.count 219).onCmd fun m => { m with answer := some a, answers := m.answers ++ [(q, a)] } := by
    unfold State.answerSource
    simp only [hmet, hdata]
    rfl
  exact congrArg (fun t : State => t.record 1 (pack [(0, c.op), (8, stOk), (12, sourceCode (.peer q)), (16, c.seq.toNat)])) hanswer

/-- A peer's NOP is served at once: it answers CFG_EPOCH and PIDX (R51). -/
theorem serve_peer_nop {c : CmdWords} {d : List Byte} (hpeer : s.cmd.peerCmd = true) (hwait : s.cmd.waiting = none) (hboot : s.boot.boot = 4)
    (hdom : s.domOn dMgmt = true) (hop : c.op = 0) (hz : zeroFrom c 0) (hchk : c.chk = false) :
    s.serve (handlerOf c.op) { src := .peer q, cmd := c, param := some d } =
      (s.onMem (Memory.putSram peerParamAt (padTo 128 d))).complete (.peer q) c stOk s.cmd.epoch s.pidx := by
  have hcheck : (s.onMem (Memory.putSram peerParamAt (padTo 128 d))).ownChecks (handlerOf c.op) { src := .peer q, cmd := c, param := some d } =
      .done (s.onMem (Memory.putSram peerParamAt (padTo 128 d))) s.cmd.epoch s.pidx none := by
    rw [hop]
    refine (if_neg ?_).trans (onNop_done hz)
    simp [hop, isConfig]
  have hserving : s.serving = true := by simp [State.serving, hboot]
  have hdenied : s.denied { src := .peer q, cmd := c, param := some d } = false := by simp [State.denied, hpeer]
  have hepoch : s.epochFails { src := .peer q, cmd := c, param := some d } = false := by simp [State.epochFails, hchk]
  have hcfg : isConfig c.op = false := by rw [hop]; rfl
  have hdef : isDefined c.op = true := by rw [hop]; rfl
  have hput : s.putParam { src := .peer q, cmd := c, param := some d } = s.onMem (Memory.putSram peerParamAt (padTo 128 d)) := rfl
  unfold State.serve
  simp only [peer_taken hwait, hserving, hdom, hdenied, hepoch, hcfg, hdef, hput, hcheck, Verdict.waits, Bool.not_true, Bool.false_and,
    Bool.false_eq_true, if_false]
  exact settle_done_unstaged

end

theorem serveForward_command (s : State) (q : RingIx) (c : CmdWords) (d : List Byte) :
    s.serveForward q (.command c d) = (s.countServed.serve (handlerOf c.op) { src := .peer q, cmd := c, param := some d }).sendAnswers := rfl

/-! ### IMDAL_JOIN sends a forward (R321, R337) -/

/-- A wake of a domain that is ON does nothing. -/
theorem wake_on {s : State} {d : Nat} (src : Nat) (h : s.domOn d = true) : s.wake d src = s := if_pos (by simp [State.rising, h])

/-- With MGMT ON the FW vote on it wakes nothing. -/
theorem fwVote_on {s : State} (h : s.domOn dMgmt = true) : s.fwVote = s.onPower fun p => { p with fw := p.fw ||| domBit dMgmt } := wake_on 4 h

/-- The state once the parameter block of a forwarded command has been read. -/
def State.forwardRead (u : State) (c : CmdWords) : State :=
  if fld c.a0 0 3 = 2 then (match blockAt [] c.a1 292 with | some b => u.blockMet b 160 | none => u) else u

theorem forwardRead_same (u : State) (c : CmdWords) : SameOutside [.hbi, .mem, .trace] u (u.forwardRead c) := by
  unfold State.forwardRead
  split
  · split
    · exact blockMet_same _ _ _
    · exact (Foot.refl _ u).1
  · exact (Foot.refl _ u).1

theorem forwardRead_other {u : State} {c : CmdWords} (h : fld c.a0 0 3 ≠ 2) : u.forwardRead c = u := if_neg h

theorem forwardRead_block {u : State} {c : CmdWords} {b : BlockAt} (h : fld c.a0 0 3 = 2) (hb : blockAt [] c.a1 292 = some b) :
    u.forwardRead c = u.blockMet b 160 := by
  unfold State.forwardRead
  rw [if_pos h, hb]

theorem reports_forwardRead (u : State) (c : CmdWords) : Reports u (u.forwardRead c) := by
  unfold State.forwardRead
  split
  · split
    · exact reports_blockMet _ _ _
    · exact Reports.refl u
  · exact Reports.refl u

/-- The forward that IMDAL_JOIN puts in flight. -/
def forwardOut (u : State) (src : Source) (c : CmdWords) : ForwardOut :=
  ForwardOut.mk src c (Fin.ofNat 8 (fld c.a0 8 3)) (BitVec.ofNat 3 (fld c.a0 0 3)) (forwardOf u c) u.imdal.fwdSide

/-- The state once IMDAL_JOIN has sent a forward. -/
def State.forwardSent (u : State) (src : Source) (c : CmdWords) : State :=
  ((u.forwardRead c).fwVote.sendBy u.imdal.fwdSide
    (.forward (Fin.ofNat 8 (u.forwardRead c).imdal.index.toNat) (Fin.ofNat 8 (fld c.a0 8 3)) (forwardOf u c))).onCmd fun m =>
      { m with fwd := m.fwd ++ [forwardOut u src c] }

/-- What sending a forward leaves, with MGMT ON: the forward on its link and in flight, and the FW vote on MGMT. -/
theorem forwardSent_left {u : State} (src : Source) (c : CmdWords) (hdom : u.domOn dMgmt = true) :
    SameOutside [.hbi, .trace, .draw, .cmd, .imdal, .power, .mem] u (u.forwardSent src c) ∧ Reports u (u.forwardSent src c) ∧
      (u.forwardSent src c).imdal = u.linked.put u.imdal.fwdSide
        (.forward (Fin.ofNat 8 u.imdal.index.toNat) (Fin.ofNat 8 (fld c.a0 8 3)) (forwardOf u c)) ∧
      (u.forwardSent src c).cmd = { u.cmd with fwd := u.cmd.fwd ++ [forwardOut u src c] } ∧
      (u.forwardSent src c).power.fw = u.power.fw ||| domBit dMgmt ∧ (u.forwardSent src c).mem = (u.forwardRead c).mem := by
  have hread := forwardRead_same u c
  have hrep := reports_forwardRead u c
  unfold State.forwardSent
  generalize u.forwardRead c = v at *
  have hcmd : v.cmd = u.cmd := hread .cmd (by decide)
  have himdal : v.imdal = u.imdal := hread .imdal (by decide)
  have hpower : v.power = u.power := hread .power (by decide)
  have htime : v.time = u.time := hread .time (by decide)
  have hon : v.domOn dMgmt = true := by
    unfold State.domOn State.dom at hdom ⊢
    rwa [hpower]
  have hlinked : v.linked = u.linked := linked_congr himdal (by rw [htime]) (by rw [htime]) (hread .mix (by decide))
  rw [fwVote_on hon, himdal]
  refine ⟨?_, reports_onCmd _ (reports_onImdal _ (reports_onPower _ hrep)), congrArg (Imdal.put u.imdal.fwdSide _) hlinked, ?_, ?_, rfl⟩
  · have hsent := (foot_onCmd (f := fun m => { m with fwd := m.fwd ++ [forwardOut u src c] }) (foot_sendBy (side := u.imdal.fwdSide)
      (msg := .forward (Fin.ofNat 8 u.imdal.index.toNat) (Fin.ofNat 8 (fld c.a0 8 3)) (forwardOf u c)) (foot_onPower
      (f := fun p => { p with fw := p.fw ||| domBit dMgmt }) (Foot.refl [.power, .imdal, .cmd] v) (by decide)) (by decide)) (by decide) fun k => k).1
    exact same_trans hread hsent (by decide) (by decide)
  · exact congrArg (fun m : CmdPath => { m with fwd := m.fwd ++ [forwardOut u src c] }) hcmd
  · exact congrArg (fun p : Power => p.fw ||| domBit dMgmt) hpower

/-- The checks of a forward pass for a device of the segment, now and at the boundary of its effect. -/
theorem imdalJoinChecked_forward {x : Ctx} {u : State} {tAt : Nat → State} (hargs : joinArgsOk u x.cmd = true) (hdom : u.domOn dPantry = true)
    (hop : 2 ≤ fld x.cmd.a0 0 3) (hst : u.imdal.state = .enrolled) (hseg : u.imdal.segment.getLsbD (fld x.cmd.a0 8 3) = true)
    (hnst : (tAt u.effectOrd).imdal.state = .enrolled) (hnseg : (tAt u.effectOrd).imdal.segment.getLsbD (fld x.cmd.a0 8 3) = true) :
    imdalJoinChecked x u tAt = .later (u.forwardSent x.src x.cmd) := by
  have h0 : fld x.cmd.a0 0 3 ≠ 0 := by omega
  have h1 : fld x.cmd.a0 0 3 ≠ 1 := by omega
  unfold imdalJoinChecked
  simp only [hargs, hdom, h0, h1, hst, hseg, hnst, hnseg, Bool.not_true, Bool.false_eq_true, if_false, decide_false, Bool.or_false, ne_eq,
    not_true_eq_false]
  rfl

/-! ### A forward completes (R338) -/

/-- A completion that comes later than its command's acceptance: everything that it does. -/
theorem answers_completed {row : Instr} {s u : State} {src : CmdSrc} {c : CmdWords} {st : Nat} {r0 r1 : Word} {k : CmdPath → CmdPath}
    {m : Memory} (hex : exec row s = .next (u.complete (srcOf src) c st r0 r1)) (hu : SameOutside [.cmd, .mem] s u) (hmem : u.mem = m)
    (hcmd : (if st = stOk then u.cmd else u.cmd.rejected src c st u.pidx) = k s.cmd) (hm : src = .mailbox → u.cmd.mbox = none)
    (hr : src = .ring → u.cmd.takenBase = u.cmd.base) (hbase : u.cmd.base = s.cmd.base) (hhead : u.cmd.head = s.cmd.head) :
    Answers row s src c st r0 r1 k m [] fun _ => True := by
  obtain ⟨gcmd, gmem, girq, grep⟩ := complete_eq u src c st r0 r1 hm hr
  have hhbi : u.hbi = s.hbi := hu .hbi (by decide)
  have hafter := (foot_complete (src := srcOf src) (c := c) (st := st) (r0 := r0) (r1 := r1)
    (Foot.refl [.hbi, .trace, .draw, .cmd, .mem] u) (by decide)).1
  refine ⟨_, hex, same_trans hu hafter (by decide) (by decide),
    (reports_of_eq (Reports.refl s) hhbi (hu .trace (by decide))).trans grep, gcmd.trans (by rw [hcmd]), ?_, hhbi ▸ girq, trivial⟩
  have hepoch : ((if st = stOk then u.cmd else u.cmd.rejected src c st u.pidx).answered src c st r0 r1).epoch = u.cmd.epoch := by
    cases src <;> split <;> rfl
  rw [gmem, gcmd, hepoch, hmem]
  cases src with
  | mailbox => rfl
  | ring =>
    simp only [State.answeredMem, hbase, hhead]

theorem exec_forwardComplete_passed {s : State} {a : AnswerIn} (h : BitVec.ofNat 3 a.target.val ≠ s.imdal.index) :
    exec (.forwardComplete (some a)) s = .next (s.sendBy (1 - a.side.val) (.answer a.target a.body)) := if_pos h

section
variable {s : State} {f : ForwardOut} {rest : List ForwardOut}

/-- The state in which the oldest forward is no longer in flight. -/
def State.forwardTaken (s : State) (rest : List ForwardOut) : State := s.onCmd fun m => { m with fwd := rest }

theorem forwardTaken_same (s : State) (rest : List ForwardOut) : SameOutside [.cmd] s (s.forwardTaken rest) :=
  (foot_onCmd (Foot.refl _ s) (by decide) fun k => k).1

theorem exec_forwardComplete_own {a : AnswerIn} (h : BitVec.ofNat 3 a.target.val = s.imdal.index) (hfwd : s.cmd.fwd = f :: rest) :
    exec (.forwardComplete (some a)) s = .next ((s.forwardTaken rest).forwardDone f (some a.body)) := by
  refine (if_neg (not_not.2 h)).trans ?_
  rw [hfwd]
  rfl

theorem exec_forwardComplete_lost (hfwd : s.cmd.fwd = f :: rest) :
    exec (.forwardComplete none) s = .next ((s.forwardTaken rest).rejectCmd f.src f.cmd stState) := by
  have hrow : exec (.forwardComplete none) s = execForwardComplete none s := rfl
  rw [hrow, execForwardComplete, hfwd]
  rfl

/-- The state in which an answer's data lie where the forwarded command's block has them (R337). -/
def State.forwardStored (s : State) (f : ForwardOut) (a : ForwardAnswer) : State :=
  if f.op = 2 then
    match blockAt [] f.cmd.a1 292 with
    | some (.sram b) => (s.writeBlock (.sram (b + 0xA0)) (padTo 128 a.data)).writeBlock (.sram (b + 0x120)) (leBytes 4 a.epoch.toNat)
    | _ => s
  else s

theorem forwardStored_other (s : State) {f : ForwardOut} (a : ForwardAnswer) (h : f.op ≠ 2) : s.forwardStored f a = s := if_neg h

theorem forwardStored_block (s : State) {f : ForwardOut} (a : ForwardAnswer) {b : Nat} (h : f.op = 2)
    (hb : blockAt [] f.cmd.a1 292 = some (.sram b)) : s.forwardStored f a =
      (s.writeBlock (.sram (b + 0xA0)) (padTo 128 a.data)).writeBlock (.sram (b + 0x120)) (leBytes 4 a.epoch.toNat) := by
  unfold State.forwardStored
  rw [if_pos h, hb]

theorem forwardStored_same (s : State) (f : ForwardOut) (a : ForwardAnswer) : SameOutside [.mem] s (s.forwardStored f a) := by
  unfold State.forwardStored
  split
  · split
    · exact (foot_writeBlock (foot_writeBlock (Foot.refl [.mem] s) (by decide)) (by decide)).1
    · exact (Foot.refl _ s).1
  · exact (Foot.refl _ s).1

/-- The answer to the oldest forward completes its command: OK counts as accepted, with any other status it has no effect (R338). -/
theorem answers_forwardDone {row : Instr} {src : CmdSrc} {c : CmdWords} {a : ForwardAnswer} (hsrc : f.src = srcOf src) (hc : f.cmd = c)
    (hbase : s.cmd.takenBase = s.cmd.base) (hmbox : src = .mailbox → s.cmd.mbox = none)
    (hex : exec row s = .next ((s.forwardTaken rest).forwardDone f (some a))) :
    Answers row s src c a.status.toNat a.res0 a.res1
      (fun m => if a.status = 0 then CmdPath.accepts src c s.effectOrd [] { m with fwd := rest }
        else CmdPath.rejected src c a.status.toNat s.pidx { m with fwd := rest }) ((s.forwardTaken rest).forwardStored f a).mem [] fun _ => True := by
  have hstored := forwardStored_same (s.forwardTaken rest) f a
  have hcmd : ((s.forwardTaken rest).forwardStored f a).cmd = { s.cmd with fwd := rest } := hstored .cmd (by decide)
  have htime : ((s.forwardTaken rest).forwardStored f a).time = s.time := hstored .time (by decide)
  have hdone : (s.forwardTaken rest).forwardDone f (some a) =
      (if a.status = 0 then ((s.forwardTaken rest).forwardStored f a).accept { src := f.src, cmd := f.cmd, param := none }
        ((s.forwardTaken rest).forwardStored f a).effectOrd [] else (s.forwardTaken rest).forwardStored f a).complete f.src f.cmd
          a.status.toNat a.res0 a.res1 := rfl
  rw [hdone, hsrc, hc] at hex
  generalize (s.forwardTaken rest).forwardStored f a = u at *
  have hsame : SameOutside [.cmd, .mem] s u := by
    exact same_trans (forwardTaken_same s rest) hstored (by decide) (by decide)
  by_cases hst : a.status = 0
  · have hok : a.status.toNat = stOk := by rw [hst]; rfl
    have hord : u.effectOrd = s.effectOrd := by rw [State.effectOrd, htime]; rfl
    rw [if_pos hst, hord] at hex
    have haccepted : (u.accept { src := srcOf src, cmd := c, param := none } s.effectOrd []).cmd =
        CmdPath.accepts src c s.effectOrd [] { s.cmd with fwd := rest } := by rw [← hcmd]; rfl
    have hu : SameOutside [.cmd, .mem] s (u.accept { src := srcOf src, cmd := c, param := none } s.effectOrd []) :=
      same_trans hsame (foot_accept (Foot.refl [.cmd] u) (by decide)).1 (by decide) (by decide)
    refine answers_completed hex hu rfl ?_ ?_ ?_ ?_ ?_
    · rw [if_pos hok, if_pos hst, haccepted]
    · intro h; rw [haccepted]; exact hmbox h
    · intro _; rw [haccepted]; exact hbase
    · rw [haccepted]; rfl
    · rw [haccepted]; rfl
  · have hne : a.status.toNat ≠ stOk := fun h => hst (BitVec.eq_of_toNat_eq h)
    rw [if_neg hst] at hex
    refine answers_completed hex hsame rfl ?_ ?_ ?_ ?_ ?_
    · rw [if_neg hne, if_neg hst, hcmd, State.pidx, htime]; rfl
    · intro h; rw [hcmd]; exact hmbox h
    · intro _; rw [hcmd]; exact hbase
    · rw [hcmd]
    · rw [hcmd]

end

/-! ### Forwards served at once -/

section
variable {s : State} {q : RingIx} {f : ForwardIn}

/-- A register forward is served with its count, and its answer leaves. -/
theorem exec_forwardReceived_register (hst : s.imdal.state = .enrolled) (hseg : s.imdal.segment.getLsbD q.val = true)
    (htarget : BitVec.ofNat 3 f.target.val = s.imdal.index) (hwait : s.cmd.waiting = none) (hqueue : s.cmd.peerQ = []) (hbusy : s.peerBusy = false)
    (hreg : ∀ c d, f.body ≠ .command c d) :
    exec (.forwardReceived q f) s = .next (s.countServed.serveReg q f.body).sendAnswers := by
  rw [exec_forwardReceived_served hst hseg htarget hwait hqueue hbusy]
  generalize f.body = body at *
  cases body with
  | command c d => exact absurd rfl (hreg c d)
  | regRead k => rfl
  | regWrite k w => rfl

/-- A register forward that is answered in a state u: what that state has changed, and its answer, which leaves. -/
theorem does_forwardReceived_register {u : State} {ps : List Part} {st : Nat} {r0 : Word} (hst : s.imdal.state = .enrolled)
    (hseg : s.imdal.segment.getLsbD q.val = true) (htarget : BitVec.ofNat 3 f.target.val = s.imdal.index) (hwait : s.cmd.waiting = none)
    (hqueue : s.cmd.peerQ = []) (hbusy : s.peerBusy = false) (hreg : ∀ c d, f.body ≠ .command c d)
    (hserve : s.countServed.serveReg q f.body = u.answerReg q st r0) (hu : SameOutside ps s.countServed u) (hcmd : u.cmd = s.cmd)
    (himdal : u.imdal = s.countServed.imdal) (hlinked : u.linked = s.countServed.linked) :
    let a : ForwardAnswer :=
      { status := BitVec.ofNat 4 st, res0 := r0, res1 := Config.forwardWord 1 s.countServed.imdal.served.toNat, epoch := s.cmd.epoch, data := [] }
    Does (.forwardReceived q f) s (ps ++ [.cmd, .imdal]) fun t => t.hbi = u.hbi ∧ t.cmd = { s.cmd with answer := some a, answers := [] } ∧
      t.imdal = (s.cmd.answers ++ [(q, a)]).foldl (fun m x => m.put m.fwdSide (.answer x.1 x.2)) s.countServed.linked := by
  intro a
  have hex := exec_forwardReceived_register hst hseg htarget hwait hqueue hbusy hreg
  rw [hserve] at hex
  have hcount : SameOutside [.imdal] s s.countServed := (foot_onImdal (Foot.refl _ s) (by decide)).1
  have hsent : SameOutside [.cmd, .imdal] u (u.answerReg q st r0).sendAnswers :=
    (foot_sendAnswers (foot_answerReg (Foot.refl _ u) (by decide)) (by decide)).1
  refine ⟨_, hex, ?_, hsent .hbi (by decide), sendAnswers_answerReg st r0 hcmd himdal hlinked⟩
  exact same_trans (same_trans hcount hu (rs := ps ++ [.cmd, .imdal]) (by simp) (by simp)) hsent (List.Subset.refl _) (by simp)

/-- A peer's NOP has answered before its answer leaves: what of the state has changed. -/
theorem exec_forwardReceived_nop {c : CmdWords} {d : List Byte} (hst : s.imdal.state = .enrolled) (hseg : s.imdal.segment.getLsbD q.val = true)
    (htarget : BitVec.ofNat 3 f.target.val = s.imdal.index) (hwait : s.cmd.waiting = none) (hqueue : s.cmd.peerQ = []) (hbusy : s.peerBusy = false)
    (hpeer : s.cmd.peerCmd = true) (hbody : f.body = .command c d) (hop : c.op = 0) (hz : zeroFrom c 0) (hchk : c.chk = false)
    (hboot : s.boot.boot = 4) (hdom : s.domOn dMgmt = true) (hclean : badWords s.mem.badSram peerResultAt 128 = []) :
    let a : ForwardAnswer :=
      { status := 0, res0 := s.cmd.epoch, res1 := s.pidx, epoch := s.cmd.epoch, data := Memory.readBytes s.mem.sram peerResultAt 128 }
    ∃ r, exec (.forwardReceived q f) s = .next r.sendAnswers ∧ SameOutside [.hbi, .trace, .draw, .cmd, .mem, .imdal, .power] s r ∧ Reports s r ∧
      r.mem = s.mem.putSram peerParamAt (padTo 128 d) ∧ r.cmd = { s.cmd with answer := some a, answers := s.cmd.answers ++ [(q, a)] } ∧
      r.linked = s.countServed.linked := by
  intro a
  have harrives := peerArrives_same s f.body
  have hrep := reports_peerArrives f.body (Reports.refl s)
  have hex := exec_forwardReceived_served hst hseg htarget hwait hqueue hbusy
  rw [hbody] at hex harrives hrep
  have hpower : (s.peerArrives (.command c d)).domOn dMgmt = true := by
    have hwake : s.peerArrives (.command c d) = s.onPower fun p => { p with self := p.self ||| BitVec.ofNat 22 (2 ^ dMgmt) } := wake_on 6 hdom
    rw [hwake]
    exact hdom
  generalize s.peerArrives (.command c d) = w at *
  have hcmd : w.countServed.cmd = s.cmd := harrives .cmd (by decide)
  have hmem : w.countServed.mem = s.mem := harrives .mem (by decide)
  have htime : w.countServed.time = s.time := harrives .time (by decide)
  have himdal : w.imdal = s.imdal := harrives .imdal (by decide)
  have hserve := serve_peer_nop (s := w.countServed) (q := q) (d := d) (by rw [hcmd]; exact hpeer) (by rw [hcmd]; exact hwait)
    ((congrArg Boot.boot (harrives .boot (by decide))).trans hboot) hpower hop hz hchk
  have hhealed : badWords (w.countServed.mem.putSram peerParamAt (padTo 128 d)).badSram peerResultAt 128 = [] := by
    rw [hmem]
    exact badWords_healed hclean _ _
  have hpidx : w.countServed.pidx = s.pidx := congrArg Time.pidx htime
  rw [complete_peer (q := q) c _ _ hhealed] at hserve
  simp only [onMem_cmd, onMem_mem, hcmd, hmem, hpidx, peerResult_putParam] at hserve
  rw [serveForward_command, hserve] at hex
  refine ⟨_, hex, ?_, ?_, ?_, ?_, ?_⟩
  · exact same_trans harrives (foot_record (foot_onCmd (foot_count (foot_onMem (foot_onImdal (Foot.refl [.trace, .draw, .cmd, .mem, .imdal] w)
      (by decide)) (by decide) Memory.ok_putSram) (by decide)) (by decide) fun k => k) (by decide)).1 (by decide) (by decide)
  · exact reports_record _ _ (reports_onCmd _ (reports_count _ (reports_onMem _ (reports_onImdal _ hrep))))
  · exact (record_mem _ _ _).trans (congrArg (Memory.putSram peerParamAt (padTo 128 d)) hmem)
  · exact (record_cmd _ _ _).trans (congrArg (fun m : CmdPath => { m with answer := some a, answers := m.answers ++ [(q, a)] }) hcmd)
  · have hrecord := record_same (((w.countServed.onMem (Memory.putSram peerParamAt (padTo 128 d))).count 219).onCmd fun m =>
      { m with answer := some a, answers := m.answers ++ [(q, a)] }) 1 (pack [(0, c.op), (8, stOk), (12, sourceCode (.peer q)), (16, c.seq.toNat)])
    refine linked_congr ((hrecord .imdal (by decide)).trans ?_) ((congrArg Time.mono (hrecord .time (by decide))).trans (congrArg Time.mono htime))
      ((congrArg Time.ns (hrecord .time (by decide))).trans (congrArg Time.ns htime)) ((hrecord .mix (by decide)).trans (harrives .mix (by decide)))
    exact congrArg (fun m : Imdal => { m with served := m.served + 1 }) himdal

end

/-! ### IMDAL_JOIN's row -/

/-- A device's own IMDAL_JOIN that passes its checks as a forward waits for its answer. -/
theorem exec_imdalJoin_forward {s : State} {src : CmdSrc} {c : CmdWords} (ho : s.Offers src c) (hop : c.op = 0x50)
    (hcheck : imdalJoinChecked (ownCtx src c) (s.checking src c) (s.checking src c).project = .later ((s.checking src c).forwardSent (srcOf src) c)) :
    exec (.imdalJoin src) s = .next ((s.checking src c).forwardSent (srcOf src) c) := by
  obtain ⟨hfront, hboot, hremoval, hmgmt, -, hcount, hepoch, -, hclean⟩ := ho
  have hrow : exec (.imdalJoin src) s = .next (s.runRow (· = 0x50) onImdalJoin src) := rfl
  rw [hrow, runRow_front hfront (by simp [hop]), serve_checks onImdalJoin hclean hfront hboot hmgmt (fun _ => hcount) (by rw [hop]; rfl)
    (by simp [hop]) hepoch (fun _ => hremoval)]
  exact congrArg (fun v => Host.Outcome.next ((s.checking src c).settle (ownCtx src c) v)) hcheck

/-- What a device's own IMDAL_JOIN that passes its checks as a forward does. -/
theorem doesR_imdalJoin_forward {s : State} {src : CmdSrc} {c : CmdWords} (ho : s.Offers src c) (hop : c.op = 0x50)
    (hargs : joinArgsOk (s.checking src c) c = true) (hfwd : 2 ≤ fld c.a0 0 3) (hst : s.imdal.state = .enrolled)
    (hseg : s.imdal.segment.getLsbD (fld c.a0 8 3) = true)
    (hnst : ((s.checking src c).project (s.checking src c).effectOrd).imdal.state = .enrolled)
    (hnseg : ((s.checking src c).project (s.checking src c).effectOrd).imdal.segment.getLsbD (fld c.a0 8 3) = true) :
    let u := s.checking src c
    let target : RingIx := Fin.ofNat 8 (fld c.a0 8 3)
    DoesR (.imdalJoin src) s [.cmd, .imdal, .power, .mem] fun t =>
      t.imdal = s.linked.put s.imdal.fwdSide (.forward (Fin.ofNat 8 s.imdal.index.toNat) target (forwardOf u c)) ∧
        t.cmd = { u.cmd with
          fwd := s.cmd.fwd ++ [ForwardOut.mk (srcOf src) c target (BitVec.ofNat 3 (fld c.a0 0 3)) (forwardOf u c) s.imdal.fwdSide] } ∧
        t.power.fw = s.power.fw ||| domBit dMgmt ∧ t.mem = (u.forwardRead c).mem := by
  intro u target
  have hclean := ho.cleanEntry
  have hwhere : u.imdal = s.imdal := checking_imdal s src c
  have hcheck : imdalJoinChecked (ownCtx src c) u u.project = .later (u.forwardSent (srcOf src) c) :=
    imdalJoinChecked_forward hargs (by simpa [u] using ho.pantryOn) hfwd (by rw [hwhere]; exact hst) (by rw [hwhere]; exact hseg) hnst hnseg
  have hmgmt : u.domOn dMgmt = true := by
    obtain ⟨-, -, -, hmgmt, -⟩ := ho
    simpa [u] using hmgmt
  obtain ⟨hsame, hrep, himdal, hcmd, hvote, hmem⟩ := forwardSent_left (srcOf src) c hmgmt
  have hbefore := checking_outside_clean c hclean
  have htime : u.time = s.time := checking_time s src c
  have hlinked : u.linked = s.linked := linked_congr hwhere (by rw [htime]) (by rw [htime]) (hbefore .mix (by decide))
  have hflight : u.cmd.fwd = s.cmd.fwd := by cases src <;> simp [u, State.checking, State.takeEntry]
  refine ⟨_, exec_imdalJoin_forward ho hop hcheck, same_trans hbefore hsame (by decide) (by decide), (checking_reports c hclean).trans hrep,
    ?_, ?_, ?_, hmem⟩
  · rw [himdal, hlinked, hwhere]
  · rw [hcmd, hflight, forwardOut, hwhere]
  · rw [hvote, show u.power = s.power from hbefore .power (by decide)]

/-! ### The obligation -/

/-- Settles O29: a forward's way by where it goes and what it asks; IMDAL_JOIN by forwardSent_left, its completion by answers_completed. -/
theorem forwards : Obligations.Forwards := by
  refine ⟨fun s q f => ⟨fun hforeign => exec_forwardReceived_foreign hforeign, fun hst hseg => ?_⟩, fun s src c => ⟨?_, fun a htarget => ?_, ?_⟩⟩
  · intro v free tells
    refine ⟨fun htarget => ?_, fun htarget => ⟨fun hbehind => ?_, fun hwait hqueue hbusy =>
      ⟨fun hpeer hreg => ?_, fun hpeer k hbody h1 h2 => ?_, fun hpeer w hbody => ?_, fun hpeer c d hbody hop hz hchk hboot hdom hclean => ?_⟩⟩⟩
    · exact ⟨_, exec_forwardReceived_passed hst hseg htarget, (foot_sendBy (Foot.refl [.imdal] s) (by decide)).1, rfl⟩
    · have harrives := peerArrives_same s f.body
      have hcmd : (s.peerArrives f.body).cmd = s.cmd := harrives .cmd (by decide)
      refine ⟨_, exec_forwardReceived_queued hst hseg htarget hbehind, ?_, reports_onCmd _ (reports_peerArrives _ (Reports.refl s)), ?_⟩
      · have hjoined := (foot_onCmd (f := fun m => { m with peerQ := m.peerQ ++ [(q, f.body)] }) (Foot.refl [.cmd] (s.peerArrives f.body)) (by decide)
          fun k => k).1
        exact same_trans harrives hjoined (by decide) (by decide)
      · exact congrArg (fun m : CmdPath => { m with peerQ := m.peerQ ++ [(q, f.body)] }) hcmd
    · obtain ⟨t, hex, hsame, -, htells⟩ := does_forwardReceived_register hst hseg htarget hwait hqueue hbusy hreg
        (serveReg_denied (s := s.countServed) hpeer hreg) (Foot.refl [] s.countServed).1 rfl rfl rfl
      exact ⟨t, hex, hsame, htells⟩
    · have hclear := regClear_same s.countServed k.val
      have hserve := serveReg_read (s := s.countServed) (q := q) hpeer h1 h2
      rw [regValue_countServed, ← hbody] at hserve
      obtain ⟨t, hex, hsame, -, htells⟩ := does_forwardReceived_register hst hseg htarget hwait hqueue hbusy (by simp [hbody]) hserve hclear
        (hclear .cmd (by decide)) (hclear .imdal (by decide)) (linked_regClear _ _)
      exact ⟨t, hex, hsame, htells⟩
    · have hserve := serveReg_irqEn (s := s.countServed) (q := q) hpeer w
      rw [← hbody] at hserve
      exact does_forwardReceived_register hst hseg htarget hwait hqueue hbusy (by simp [hbody]) hserve
        (foot_onHbi (Foot.refl [.hbi] s.countServed) (by decide)).1 rfl rfl rfl
    · obtain ⟨r, hex, hsame, hrep, hmem, hcmd, hlinked⟩ :=
        exec_forwardReceived_nop hst hseg htarget hwait hqueue hbusy hpeer hbody hop hz hchk hboot hdom hclean
      have hsent := (foot_sendAnswers (Foot.refl [.cmd, .imdal] r) (by decide)).1
      refine ⟨_, hex, same_trans hsame hsent (by decide) (by decide), ?_, ?_, sendAnswers_answered hcmd hlinked⟩
      · exact reports_of_eq hrep (hsent .hbi (by decide)) (hsent .trace (by decide))
      · exact (show r.sendAnswers.mem = r.mem from hsent .mem (by decide)).trans hmem
  · intro ho hop hargs hfwd hst hseg u n target hnst hnseg
    obtain ⟨t, hex, hsame, hrep, himdal, hcmd, hvote, hmem⟩ := doesR_imdalJoin_forward ho hop hargs hfwd hst hseg hnst hnseg
    refine ⟨t, hex, hsame, hrep, himdal, hcmd, hvote, fun hne => ?_, fun b h2 hb => ?_⟩
    · rw [hmem, forwardRead_other hne]
      exact checking_mem c ho.cleanEntry
    · rw [hmem, forwardRead_block h2 hb]
  · exact ⟨_, exec_forwardComplete_passed htarget, (foot_sendBy (Foot.refl [.imdal] s) (by decide)).1, rfl⟩
  · intro f rest hf hsrc hc hbase hmbox
    refine ⟨?_, fun a htarget => ?_⟩
    · have hlost : exec (.forwardComplete none) s =
          .next ((s.forwardTaken rest).complete (srcOf src) c stState (s.unstated 0) (s.unstated 1)) := by
        rw [exec_forwardComplete_lost hf, hsrc, hc]
        rfl
      exact answers_completed hlost (same_trans (forwardTaken_same s rest) (Foot.refl [] _).1 (by decide) (by decide)) rfl rfl hmbox (fun _ => hbase)
        rfl rfl
    · intro r k
      have hdone := answers_forwardDone hsrc hc hbase hmbox (exec_forwardComplete_own htarget hf)
      refine ⟨fun hop => ?_, fun b hop hb => ?_⟩
      · rwa [forwardStored_other _ _ hop] at hdone
      · rwa [forwardStored_block _ _ hop (by rw [hc]; exact hb)] at hdone

end Sys2Proof.Machine
end
